-- ==== Sys2Proof/Word.lean ====
section
/-! DEFINITION. The index and bit types of the CJ-256A (spec 00, section 0.5). -/

namespace Sys2Proof

/-- A byte of a station frame or a link frame (R192). -/
abbrev Byte := BitVec 8

/-- A point number, P0 to P255. -/
abbrev PointNo := Fin 256

/-- An input address in its numeric form 64·u + l. -/
abbrev InputNo := Fin 256

/-- A local line 0.0 to 0.63. -/
abbrev LineNo := Fin 64

/-- A station port, S0 to S3. -/
abbrev Port := Fin 4

/-- A priority class; class 0 ranks highest in fixed order. -/
abbrev PClass := Fin 8

/-- A privilege ring; a lower number is more privileged. -/
abbrev Ring := Fin 4

/-- A remote input unit: index 0 is unit 1, index 2 is unit 3. -/
abbrev UnitNo := Fin 3

/-- A pair of inputs: 32·u + k is pair k of unit u, lines 2k and 2k + 1 (R116). -/
abbrev PairNo := Fin 128

/-- The elapsed count of the Timebase, milliseconds since power-on, 48 bits wide (R177). -/
abbrev Elapsed := BitVec 48

end Sys2Proof
end

