-- ==== Sys2Proof/Syntax.lean ====
section
/-! DEFINITION. The commands of the CJ-256A: one constructor for each row of spec/opcode_table.json. -/

namespace Sys2Proof

/-- The level of a contact input (spec 00, section 0.5). -/
inductive Level where
  | opened
  | closed
  deriving DecidableEq, Repr

/-- A byte as it arrives on a receive line, with the mark that its stop bit was low (R137, R182). -/
structure RxByte where
  value : Byte
  stopLow : Bool
  deriving DecidableEq, Repr

/-- The commands. A request row names the port whose Request Decoder takes the frame at the head of that port's
intake; the frame carries the TAG and the arguments (R184, log 3). A reception row carries the bytes that arrive
(log 4). An event row names the timer, line or unit concerned. -/
inductive Instr where
  /-- POWER_ON, R176: the first sample of each local line, and RATE (`true` is high). -/
  | powerOn (levels : Vector Level 64) (rate : Bool)
  /-- RESET_N_LOW, R176. -/
  | resetNLow
  /-- QUALIFIED_CHANGE, R115: the sample at which a run has lasted the debounce time. -/
  | qualifiedChange (line : LineNo) (level : Level)
  /-- CHATTER_END_EXPIRY, R119. -/
  | chatterEndExpiry (input : InputNo)
  /-- DISCREPANCY_EXPIRY, R120. -/
  | discrepancyExpiry (pair : PairNo)
  /-- LEVEL_ENTRY, R134 and R135: the engine takes the LEVEL entry at the head of the change queue. -/
  | levelEntry
  /-- QUALITY_ENTRY, R136: the engine takes the QUALITY entry at the head of the change queue. -/
  | qualityEntry
  /-- SHELVE_EXPIRY, R61. -/
  | shelveExpiry (point : PointNo)
  /-- POLL_CYCLE_EXPIRY, R139. -/
  | pollCycleExpiry
  /-- IDENTITY_ANSWER, R140. -/
  | identityAnswer (bytes : List RxByte)
  /-- SNAPSHOT_ANSWER, R141. -/
  | snapshotAnswer (bytes : List RxByte)
  /-- CHANGES_ANSWER, R142. -/
  | changesAnswer (bytes : List RxByte)
  /-- ANSWER_TIMEOUT, R145. -/
  | answerTimeout
  /-- LINK_GAP_EXPIRY, R137. -/
  | linkGapExpiry
  /-- SYNC_PULSE, R179. -/
  | syncPulse
  /-- SYNC_WATCHDOG_EXPIRY, R180. -/
  | syncWatchdogExpiry
  /-- TAKE_TIMER_EXPIRY, R79 and R80. -/
  | takeTimerExpiry (port : Port)
  /-- STATION_FRAME_RECEIVED, R182 and R183. -/
  | stationFrameReceived (port : Port) (bytes : List RxByte)
  /-- STATION_GAP_EXPIRY, R182. -/
  | stationGapExpiry (port : Port)
  /-- FRAME_END, R187. -/
  | frameEnd (port : Port)
  /-- RETRANSMISSION, R184. -/
  | retransmission (port : Port)
  /-- UNKNOWN_KIND, R185. -/
  | unknownKind (port : Port)
  /-- SET_POINT, R25 to R29. -/
  | setPoint (port : Port)
  /-- READ_POINT, R30. -/
  | readPoint (port : Port)
  /-- SET_MAP, R131. -/
  | setMap (port : Port)
  /-- READ_MAP, R132. -/
  | readMap (port : Port)
  /-- SET_INPUTS, R128. -/
  | setInputs (port : Port)
  /-- READ_INPUT, R129. -/
  | readInput (port : Port)
  /-- SET_UNIT, R147. -/
  | setUnit (port : Port)
  /-- SET_LINK, R150. -/
  | setLink (port : Port)
  /-- READ_UNIT, R150. -/
  | readUnit (port : Port)
  /-- ACK_POINT without members, R50. -/
  | ackPoint (port : Port)
  /-- ACK_POINT with members, R51. -/
  | ackPointMembers (port : Port)
  /-- ACK_CLASS, R52. -/
  | ackClass (port : Port)
  /-- ACK_ALL, R52. -/
  | ackAll (port : Port)
  /-- RESET_POINT, R53. -/
  | resetPoint (port : Port)
  /-- RESET_ALL, R54. -/
  | resetAll (port : Port)
  /-- SILENCE, R65. -/
  | silence (port : Port)
  /-- SHELVE, R55 to R57. -/
  | shelve (port : Port)
  /-- UNSHELVE, R60. -/
  | unshelve (port : Port)
  /-- REMOVE, R62. -/
  | remove (port : Port)
  /-- RESTORE, R63. -/
  | restore (port : Port)
  /-- SET_AUDIBLE, R66. -/
  | setAudible (port : Port)
  /-- TAKE, R84. -/
  | take (port : Port)
  /-- POLL, R86. -/
  | poll (port : Port)
  /-- DONE, R87. -/
  | done (port : Port)
  /-- DONE_CLASS, R88. -/
  | doneClass (port : Port)
  /-- SET_LOWEST, R90. -/
  | setLowest (port : Port)
  /-- SET_DISPATCH, R91. -/
  | setDispatch (port : Port)
  /-- ATTACH, R92. -/
  | attach (port : Port)
  /-- DETACH, R93. -/
  | detach (port : Port)
  /-- READ_PORT, R190. -/
  | readPort (port : Port)
  /-- SET_PORT, R189. -/
  | setPort (port : Port)
  /-- SET_LOG, R104. -/
  | setLog (port : Port)
  /-- CONFIRM_LOG, R108. -/
  | confirmLog (port : Port)
  /-- READ_LOG, R110 to R112. -/
  | readLog (port : Port)
  /-- SET_ROUTE, R158. -/
  | setRoute (port : Port)
  /-- CLEAR_FLAGS, R159. -/
  | clearFlags (port : Port)
  /-- TEST_SOURCE, R160. -/
  | testSource (port : Port)
  /-- CLEAR_FAULT naming COMMAND or INPUT, R164. -/
  | clearFault (port : Port)
  /-- CLEAR_FAULT naming a port, R83. -/
  | clearFaultPort (port : Port)
  /-- READ_STATUS, R191. -/
  | readStatus (port : Port)
  /-- ENTER_RUN, R168; also the ENTER_RUN step of the RESTART in progress at the port, R175 (log 9). -/
  | enterRun (port : Port)
  /-- FIELD_POINT_EVALUATION, R170. -/
  | fieldPointEvaluation
  /-- GROUP_POINT_EVALUATION, R171. -/
  | groupPointEvaluation
  /-- END_OF_INITIAL_EVALUATION, R172. -/
  | endOfInitialEvaluation
  /-- ENTER_CONFIG, R174, stage 1. -/
  | enterConfig (port : Port)
  /-- ENTER_CONFIG_ENGINE_CLAIM, R174, stages 2 and 3. -/
  | enterConfigEngineClaim
  /-- RESTART, R175, steps 1 and 2 and the first stage of step 3. -/
  | restart (port : Port)
  /-- SET_TIME, R178. -/
  | setTime (port : Port)
  /-- LINE_SAMPLE, R115. -/
  | lineSample (line : LineNo) (level : Level)
  /-- TIMEBASE_MILLISECOND, R177: `ms` milliseconds pass, one after another (log 6). -/
  | timebaseMillisecond (ms : Nat)
  /-- LINK_MESSAGE_END, R137. -/
  | linkMessageEnd
  /-- LINK_FRAME_REJECTED, R137. -/
  | linkFrameRejected (bytes : List RxByte)
  /-- STATION_FRAME_DISCARDED, R182. -/
  | stationFrameDiscarded (port : Port) (bytes : List RxByte)
  deriving DecidableEq, Repr

end Sys2Proof
end

