-- ==== Sys2Proof/Decode.lean ====
section
/-! DEFINITION. Words and commands. No row of spec/opcode_table.json gives bits: the commands of this block are
events on its pins and frames on its ports, so no word spells one. The frames' bytes are read by
Machine/Stations.lean and Machine/Link.lean. -/

namespace Sys2Proof

/-- The command that a word spells by the table's bits: none, since no row gives bits. -/
def decodeTableWord (_nbits _w : Nat) : Option Instr := none

end Sys2Proof
end

