-- ==== Sys2Proof/Config.lean ====
section
/-! DEFINITION. The sizes and times that the spec fixes for every CJ-256A, and the one free value. -/

namespace Sys2Proof.Config

/-- Places in a port's notice queue (R71). -/
def noticeCapacity : Nat := 24

/-- Places in the change queue (R124). -/
def changeCapacity : Nat := 128

/-- Places in the event record (R102). -/
def recordCapacity : Nat := 1024

/-- Frames a port's intake holds (R183). -/
def intakeCapacity : Nat := 2

/-- Links of the longest parent chain (R38). -/
def maxLinks : Nat := 3

/-- Milliseconds of a day (R177). -/
def dayMs : Nat := 86400000

/-- Day numbers run from 0 to 65535 and wrap (R177). -/
def dayCount : Nat := 65536

/-- Event sequence numbers run from 1 to this number (R101). -/
def seqMax : Nat := 4294967295

/-- The longest forward distance at which a sequence number still comes after another (R101). -/
def seqHalf : Nat := 2147483647

/-- Notice numbers run from 1 to this number (R70). -/
def noticeMax : Nat := 65535

/-- The answer timeout of a link exchange, in ms (R137). -/
def answerTimeoutMs : Nat := 4

/-- The gap timer of station reception, in ms (R182). -/
def stationGapMs : Nat := 5

/-- The sync watchdog, in ms (R178). -/
def watchdogMs : Nat := 1500

/-- Consecutive misses that lose a unit (R145). -/
def missLimit : Nat := 3

/-- Polls of one unit within its turn (R144). -/
def pollLimit : Nat := 4

/-- Value at which the discard count and the miss and repeat totals hold (R138, R182). -/
def saturation : Nat := 65535

/-- The type code of the Cawjor remote input unit (Table 10-11). -/
def unitTypeCode : Nat := 0x0C41

/-- Lines of a remote input unit (R140). -/
def unitLines : Nat := 64

/-- FREE VALUE. R149 lets the lost-state claims of a RESTART reach the Input Filter before or after the mode
becomes CONFIG, and gives no order; the n-th RESTART takes the order that this constant gives (log 10). -/
opaque lostClaimsFirst : Nat → Bool

end Sys2Proof.Config
end

