-- ==== Sys2Proof/Machine/State.lean ====
section
/-! DEFINITION. The state of the CJ-256A as plain data, block by block (spec 00, Figure 0-1), and its value after
power-on. INVENTORY.md lists every field with its rule. -/

namespace Sys2Proof.Machine

/-! ### Names and records shared by the blocks -/

/-- Time quality (R177). -/
inductive TimeQuality where
  | unset
  | set
  | synced
  deriving DecidableEq, Repr

/-- A time stamp: day, millisecond of day, time quality (spec 00, section 0.5). -/
structure TimeStamp where
  day : Nat
  ms : Nat
  quality : TimeQuality
  deriving DecidableEq, Repr

/-- The condition of a point (R1). -/
inductive Condition where
  | normal
  | abnormal
  deriving DecidableEq, Repr

/-- The quality of an input (R122), in the precedence of R9: UNIT_LOST, DISCREPANT, CHATTER. -/
inductive InQuality where
  | good
  | unitLost
  | discrepant
  | chatter
  deriving DecidableEq, Repr

/-- The quality of a point with its reason (R1). -/
inductive PointQuality where
  | good
  | suspectUnitLost
  | suspectDiscrepant
  | suspectChatter
  | suspectMember
  deriving DecidableEq, Repr

/-- The sequence states (R13). -/
inductive SeqState where
  | normal
  | alert
  | acked
  | returnUnacked
  | ringback
  deriving DecidableEq, Repr

/-- The sequence types (R14 to R16). -/
inductive SeqType where
  | auto
  | ringback
  | latch
  deriving DecidableEq, Repr

/-- The kinds of a point (R1). -/
inductive PointKind where
  | spare
  | field
  | group
  deriving DecidableEq, Repr

/-- The service of a point; SHELVED holds its end time (R3, R58). -/
inductive Service where
  | inService
  | shelved (endTime : TimeStamp)
  | removed
  deriving DecidableEq, Repr

/-- The modes (R167). -/
inductive Mode where
  | config
  | starting
  | run
  deriving DecidableEq, Repr

/-- The eleven system flags (R154). -/
inductive Flag where
  | inputTrap
  | unmappedInput
  | unitFault
  | changeDeferred
  | noticeOverrun
  | deliveryStall
  | doneError
  | logHigh
  | logLoss
  | timeSync
  | commandFault
  deriving DecidableEq, Repr

/-- The detail of a raising (R98). -/
inductive Detail where
  | none
  | mismatch
  | overflow
  | lost
  | format
  | unknownKind
  | ring
  | test
  deriving DecidableEq, Repr

/-- The causes of point records and INPUT records (R19, R99). -/
inductive Cause where
  | input
  | inputCoalesced
  | qualityReturn
  | ack
  | reset
  | latchClear
  | shelve
  | unshelve
  | shelveExpiry
  | remove
  | restore
  | member
  | start
  deriving DecidableEq, Repr

/-- The disposition of an INPUT record (R98). -/
inductive Disposition where
  | unmapped
  | trap
  | recorded
  deriving DecidableEq, Repr

/-- The name of a capture record (R164). -/
inductive CaptureName where
  | command
  | input
  | port (p : Port)
  deriving DecidableEq, Repr

/-! ### Input Scanner and Input Filter (chapter 6) -/

/-- A debounce run: the stamp and the elapsed instant of its first sample (R114). -/
structure DebounceRun where
  stamp : TimeStamp
  since : Elapsed
  deriving DecidableEq, Repr

/-- The scanner's state of one local line (R114). -/
structure LineRec where
  raw : Level
  qualified : Level
  run : Option DebounceRun
  deriving DecidableEq, Repr

/-- The settings of the field path (R128, Table 6-3). `pairs` holds, for each unit, the set of its complementary
pairs: bit k for pair k. -/
structure FilterSettings where
  window : Nat
  threshold : Nat
  discrepancyMs : Nat
  debounce : Vector Nat 4
  pairs : Vector (BitVec 32) 4
  deriving DecidableEq, Repr

/-- The input record (R116, Table 6-1). The pair setting is in `FilterSettings.pairs`, the discrepancy timer, which
the two records of a pair hold in common, in `State.pairTimers`. -/
structure InputRec where
  level : Level
  lastChange : Option TimeStamp
  lastQualityChange : Option TimeStamp
  history : List Elapsed
  chatterActive : Bool
  chatterTimer : Option Nat
  discrepant : Bool
  unitLost : Bool
  reported : InQuality
  queuedLevel : Level
  queuedQuality : InQuality
  deferred : Bool
  deriving DecidableEq, Repr

/-- The kinds of a change entry (R123). -/
inductive EntryKind where
  | level
  | quality
  deriving DecidableEq, Repr

/-- A change entry (R123, Table 6-2). -/
structure ChangeEntry where
  kind : EntryKind
  input : InputNo
  level : Level
  quality : InQuality
  stamp : TimeStamp
  coalesced : Bool
  deriving DecidableEq, Repr

/-! ### Point Engine (chapters 1 to 3) -/

/-- The point record (R1, Table 1-1), with the shelve timer held beside a SHELVED point (R58). -/
structure PointRec where
  kind : PointKind
  seqType : SeqType
  cls : PClass
  subs : BitVec 4
  ackRing : Ring
  parent : Option PointNo
  firstOut : Bool
  firstMember : Option PointNo
  condition : Condition
  quality : PointQuality
  seqState : SeqState
  service : Service
  shelveTimer : Option Nat
  lastChange : Option (Nat × TimeStamp)
  deriving DecidableEq, Repr

/-- The modes of a map entry (R130). -/
inductive EntryMode where
  | level
  | pulse
  deriving DecidableEq, Repr

/-- An input map entry: configured fields (R130, Table 6-4) and runtime fields (R4). -/
structure MapEntry where
  valid : Bool
  point : Option PointNo
  normal : Level
  mode : EntryMode
  trap : Bool
  record : Bool
  appliedLevel : Level
  appliedQuality : InQuality
  latch : Bool
  deriving DecidableEq, Repr

/-! ### Notices and Dispatch Controllers (chapter 4) -/

/-- The picture of a point that a POINT notice carries (R22). -/
structure Picture where
  point : PointNo
  seqState : SeqState
  condition : Condition
  quality : PointQuality
  service : Service
  firstMemberFlag : Bool
  groupFirstMember : Option PointNo
  lastChange : Option (Nat × TimeStamp)
  deriving DecidableEq, Repr

/-- Kind and content of a notice (R69). -/
inductive NoticeContent where
  | point (picture : Picture)
  | system (flag : Flag) (unit : Option UnitNo) (port : Option Port) (record : Nat)
  | mode (mode : Mode)
  | resync
  deriving DecidableEq, Repr

/-- The identity of a notice, which governs coalescing (R69). -/
inductive NoticeId where
  | point (p : PointNo)
  | system (f : Flag)
  | mode
  | resync
  deriving DecidableEq, Repr

/-- A queued notice (R69, Table 4-2); `offered` is the phase. -/
structure Notice where
  number : Nat
  cls : PClass
  content : NoticeContent
  offered : Bool
  count : Nat
  deriving DecidableEq, Repr

inductive Nesting where
  | full
  | openNest
  deriving DecidableEq, Repr

inductive Rotation where
  | manual
  | auto
  deriving DecidableEq, Repr

/-- The dispatch states (R74). -/
inductive DispatchState where
  | detached
  | idle
  | offering
  | stalled
  deriving DecidableEq, Repr

/-- The details a delivery failure record holds (R82); `point` and `flag` name the source. -/
structure FailureDetail where
  number : Nat
  id : NoticeId
  cls : PClass
  count : Nat
  stamp : TimeStamp
  deriving DecidableEq, Repr

/-- A delivery failure record (R82). -/
structure FailureRec where
  contents : Option FailureDetail
  locked : Bool
  multiple : Bool
  deriving DecidableEq, Repr

/-- One Dispatch Controller (R68, Table 4-1). -/
structure Dispatch where
  queue : List Notice
  nextNumber : Nat
  inService : BitVec 8
  mask : BitVec 8
  nesting : Nesting
  rotation : Rotation
  lowest : PClass
  autoDone : Bool
  polled : Bool
  state : DispatchState
  resyncPending : Bool
  takeTimeout : Nat
  retries : Nat
  takeTimer : Option Nat
  stalled : Option Nat
  failure : FailureRec
  deriving DecidableEq, Repr

/-! ### Event Record (chapter 5) -/

/-- Kind of a record with its from and to values (R98, Table 5-3). -/
inductive RecordBody where
  | pointState (before after : SeqState) (condition : Condition) (firstMember : Option PointNo)
  | pointQuality (before after : PointQuality)
  | pointService (before after : Service)
  | input (before : Option Level) (level : Level) (quality : InQuality) (disposition : Disposition)
      (mapped : Option PointNo)
  | system (wasSet : Bool) (flag : Flag) (unit : Option UnitNo) (port : Option Port) (detail : Detail)
  | operator (requestBefore : Bool)
  | mode (before after : Mode) (startAcked : Option Bool) (restart : Bool)
  | time (before after : TimeStamp)
  | clearFlags (before named : BitVec 11)
  | clearFault (locked multiple : Bool) (name : CaptureName)
  deriving DecidableEq, Repr

/-- An event record (R97, Table 5-2). -/
structure EventRecord where
  seq : Nat
  stamp : TimeStamp
  body : RecordBody
  point : Option PointNo
  input : Option InputNo
  port : Option Port
  cause : Option Cause
  deriving DecidableEq, Repr

/-- The Event Record block (R96, Table 5-1). -/
structure EventLog where
  ring : List EventRecord
  next : Nat
  newest : Nat
  archive : Option Port
  threshold : Nat
  confirmed : Nat
  deriving DecidableEq, Repr

/-! ### Expansion Link Controller (chapter 7) -/

/-- The states of a remote unit at the master (R138). -/
inductive UnitState where
  | notFitted
  | searching
  | resync
  | online
  | lost
  deriving DecidableEq, Repr

/-- A unit record (R138, Table 7-1); `newlyFitted` says that SET_UNIT has fitted the unit since the latest cycle began, so
that its first turn comes in the next one (R147); that mark is the model's own (log 29). -/
structure UnitRec where
  state : UnitState
  debounce : Nat
  lastSeq : Nat
  misses : Nat
  mismatch : Bool
  polls : Nat
  newlyFitted : Bool
  missTotal : Nat
  repeatTotal : Nat
  deriving DecidableEq, Repr

/-- The messages of the master (R137). -/
inductive MessageKind where
  | identify
  | snapshot
  | poll
  deriving DecidableEq, Repr

/-- Where an exchange stands: the message on the line, or the wait with the time the answer timeout has still to
run (R137). -/
inductive ExchangePhase where
  | sending
  | awaiting (left : Nat)
  deriving DecidableEq, Repr

/-- The exchange outstanding (R138); `message` is what XL_D carries. -/
structure Exchange where
  unit : UnitNo
  kind : MessageKind
  message : List Byte
  void : Bool
  phase : ExchangePhase
  deriving DecidableEq, Repr

/-- Reception on the link: hunting, or the bytes after 0xC3 with the stamp of that first byte (R137, R146). -/
inductive LinkRx where
  | hunting
  | partialFrame (bytes : List Byte) (arrival : TimeStamp)
  deriving DecidableEq, Repr

/-- The Expansion Link Controller (R138, Table 7-1). -/
structure Link where
  pollCycle : Nat
  pollTimer : Option Nat
  turn : Option UnitNo
  due : Bool
  exchange : Option Exchange
  rx : LinkRx
  units : Vector UnitRec 3
  deriving DecidableEq, Repr

/-! ### System Flag Unit (chapter 8) -/

/-- The route of a flag (R158). -/
structure Route where
  port : Port
  enable : Bool
  cls : PClass
  deriving DecidableEq, Repr

/-- A raising handed to the System Flag Unit (R155); `reqPort` is the port of the request that handed it on. -/
structure Raising where
  flag : Flag
  unit : Option UnitNo
  port : Option Port
  input : Option InputNo
  detail : Detail
  reqPort : Option Port
  deriving DecidableEq, Repr

/-- Contents of the command capture record (R161). -/
structure CommandDetail where
  port : Port
  tag : Byte
  kind : Byte
  point : Option PointNo
  stamp : TimeStamp
  deriving DecidableEq, Repr

/-- The command capture record (R161). -/
structure CommandCapture where
  contents : Option CommandDetail
  locked : Bool
  multiple : Bool
  deriving DecidableEq, Repr

/-- Contents of the input capture record (R163). -/
structure InputDetail where
  input : InputNo
  level : Level
  stamp : TimeStamp
  deriving DecidableEq, Repr

/-- The input capture record (R163). -/
structure InputCapture where
  contents : Option InputDetail
  locked : Bool
  multiple : Bool
  deriving DecidableEq, Repr

/-! ### Station ports (chapter 10) -/

/-- A received frame: TAG, KIND and BODY (R182); LEN follows from the body. -/
structure Frame where
  tag : Byte
  kind : Byte
  body : List Byte
  deriving DecidableEq, Repr

/-- The receive assembly: hunting, or the bytes after 0x5A with the time the gap timer has still to run (R182). -/
inductive StationRx where
  | hunting
  | partialFrame (bytes : List Byte) (gap : Nat)
  deriving DecidableEq, Repr

/-- What a request in progress waits for. Between commands only ENTER_CONFIG and RESTART stay in progress (log 7, 9), and
a request that waits for its owner while an ENTER_CONFIG claim is outstanding, with the ring its port had when it was
taken (R188; log 8) and the time of that taking, at which the command capture record was loaded (R161). -/
inductive Stage where
  | handling
  | waiting (ring : Ring) (taken : TimeStamp)
  | enterConfig
  | restartConfig (found : Mode)
  | restartRun
  deriving DecidableEq, Repr

/-- The request in progress (R181). -/
structure InProgress where
  frame : Frame
  stage : Stage
  deriving DecidableEq, Repr

/-- The last-request cache (R184). -/
structure CacheEntry where
  request : Frame
  response : List Byte
  deriving DecidableEq, Repr

/-- The frame in transmission (R181); `present` says that a NOTICE frame is the one handed over by the present
offer (R78). -/
inductive TxFrame where
  | response (bytes : List Byte)
  | notice (bytes : List Byte) (present : Bool)
  deriving DecidableEq, Repr

/-- One station port (R181, Table 10-1). -/
structure Station where
  ring : Ring
  rx : StationRx
  intake : List Frame
  inProgress : Option InProgress
  cache : Option CacheEntry
  tx : Option TxFrame
  waitResponse : Option (List Byte)
  waitNotice : Option (List Byte)
  discards : Nat
  deriving DecidableEq, Repr

/-! ### Mode Controller (chapter 9) -/

/-- The ENTER_CONFIG claim handed to the Point Engine and not yet taken, with the time of the change of mode, which its
MODE record carries (R174, R100). -/
structure EngineClaim where
  port : Port
  before : Mode
  restart : Bool
  stamp : TimeStamp
  deriving DecidableEq, Repr

/-! ### The state -/

/-- The state of the machine. -/
structure State where
  inReset : Bool
  rate : Bool
  lines : Vector LineRec 64
  settings : FilterSettings
  inputs : Vector InputRec 256
  pairTimers : Vector (Option Nat) 128
  changeQueue : List ChangeEntry
  points : Vector PointRec 256
  map : Vector MapEntry 256
  audibleRequest : Bool
  audibleThreshold : Option PClass
  dispatch : Vector Dispatch 4
  log : EventLog
  link : Link
  flags : BitVec 11
  routes : Vector Route 11
  commandCapture : CommandCapture
  inputCapture : InputCapture
  raisings : List Raising
  mode : Mode
  startAcked : Bool
  evalPos : Option PointNo
  engineClaim : Option EngineClaim
  day : Nat
  msOfDay : Nat
  timeQuality : TimeQuality
  syncEnable : Bool
  watchdog : Option Nat
  elapsed : Elapsed
  stations : Vector Station 4
  freeCount : Nat
  pending : List Instr
  deriving DecidableEq, Repr

/-- The reasons for which a step faults: none. The spec names no event that stops the device. -/
inductive Fault where
  deriving DecidableEq, Repr

/-- The reasons for which a step is refused. -/
inductive Refusal where
  /-- Raised by exec for a command that has no meaning yet; no command is left so. Safe. -/
  | notModelled (mnemonic : String)
  deriving DecidableEq, Repr

/-! ### Power-on values -/

/-- Power-on value of a local line whose first sample is `level` (R114). -/
def LineRec.powerOn (level : Level) : LineRec :=
  { raw := level, qualified := level, run := none }

/-- Power-on value of the filter settings (Table 6-3). -/
def FilterSettings.powerOn : FilterSettings :=
  { window := 10, threshold := 8, discrepancyMs := 200
    debounce := Vector.replicate 4 8, pairs := Vector.replicate 4 0 }

/-- Power-on value of an input record (Table 6-1): `remote` for units 1 to 3. -/
def InputRec.powerOn (level : Level) (remote : Bool) : InputRec :=
  let q := if remote then InQuality.unitLost else InQuality.good
  { level := level, lastChange := none, lastQualityChange := none, history := [], chatterActive := false
    chatterTimer := none, discrepant := false, unitLost := remote, reported := q
    queuedLevel := level, queuedQuality := q, deferred := false }

/-- Power-on value of a point record (Table 1-1). -/
def PointRec.powerOn : PointRec :=
  { kind := .spare, seqType := .auto, cls := 7, subs := 0, ackRing := 1, parent := none, firstOut := false
    firstMember := none, condition := .normal, quality := .good, seqState := .normal, service := .inService
    shelveTimer := none, lastChange := none }

/-- Power-on value of a map entry (Table 6-4, R4). -/
def MapEntry.powerOn : MapEntry :=
  { valid := false, point := none, normal := .opened, mode := .level, trap := false, record := false
    appliedLevel := .opened, appliedQuality := .good, latch := false }

/-- Power-on value of a Dispatch Controller (Table 4-1). -/
def Dispatch.powerOn : Dispatch :=
  { queue := [], nextNumber := 1, inService := 0, mask := 0, nesting := .full, rotation := .manual, lowest := 7
    autoDone := false, polled := false, state := .detached, resyncPending := false, takeTimeout := 500
    retries := 3, takeTimer := none, stalled := none
    failure := { contents := none, locked := false, multiple := false } }

/-- Power-on value of the Event Record (Table 5-1). -/
def EventLog.powerOn : EventLog :=
  { ring := [], next := 1, newest := 0, archive := none, threshold := 768, confirmed := 0 }

/-- Power-on value of a unit record (Table 7-1). -/
def UnitRec.powerOn : UnitRec :=
  { state := .notFitted, debounce := 8, lastSeq := 0, misses := 0, mismatch := false, polls := 0
    newlyFitted := false, missTotal := 0, repeatTotal := 0 }

/-- Power-on value of the Expansion Link Controller (Table 7-1). -/
def Link.powerOn : Link :=
  { pollCycle := 20, pollTimer := some 20, turn := none, due := false, exchange := none, rx := .hunting
    units := Vector.replicate 3 UnitRec.powerOn }

/-- Power-on value of a station port whose ring is `ring` (Table 10-1). -/
def Station.powerOn (ring : Ring) : Station :=
  { ring := ring, rx := .hunting, intake := [], inProgress := none, cache := none, tx := none
    waitResponse := none, waitNotice := none, discards := 0 }

/-- `f` on every entry of a vector, written over lists so that the kernel can run it. -/
def mapEntries {α β : Type} {n : Nat} (f : α → β) (v : Vector α n) : Vector β n :=
  ⟨⟨v.toArray.toList.map f⟩, by simp⟩

/-- `n` entries followed by `m` equal ones. -/
def padEntries {α : Type} {n : Nat} (v : Vector α n) (m : Nat) (a : α) : Vector α (n + m) :=
  ⟨⟨v.toArray.toList ++ List.replicate m a⟩, by simp⟩

/-- The state at the release of RESET_N (R176), with the first sample of each line and the level of RATE. -/
def State.powerOn (levels : Vector Level 64) (rate : Bool) : State :=
  { inReset := false
    rate := rate
    lines := mapEntries LineRec.powerOn levels
    settings := FilterSettings.powerOn
    inputs := padEntries (mapEntries (fun l => InputRec.powerOn l false) levels) 192 (InputRec.powerOn .opened true)
    pairTimers := Vector.replicate 128 none
    changeQueue := []
    points := Vector.replicate 256 PointRec.powerOn
    map := Vector.replicate 256 MapEntry.powerOn
    audibleRequest := false
    audibleThreshold := none
    dispatch := Vector.replicate 4 Dispatch.powerOn
    log := EventLog.powerOn
    link := Link.powerOn
    flags := 0
    routes := Vector.replicate 11 { port := 0, enable := false, cls := 0 }
    commandCapture := { contents := none, locked := false, multiple := false }
    inputCapture := { contents := none, locked := false, multiple := false }
    raisings := []
    mode := .config
    startAcked := false
    evalPos := none
    engineClaim := none
    day := 0
    msOfDay := 0
    timeQuality := .unset
    syncEnable := false
    watchdog := none
    elapsed := 0
    stations := ⟨⟨[Station.powerOn 0, Station.powerOn 1, Station.powerOn 2, Station.powerOn 3]⟩, rfl⟩
    freeCount := 0
    pending := [] }

/-- The machine right after power-on, every local line first sampled OPEN and RATE low (log 13). -/
def State.reset : State :=
  State.powerOn (Vector.replicate 64 .opened) false

end Sys2Proof.Machine
end

