-- ==== Sys2Proof/Machine/Access.lean ====
section
/-! DEFINITION. One home for every register: the accessors that all blocks read and write through, sets as bit sets,
the Timebase's clock arithmetic (R146, R177) and the circular order of sequence numbers (R101). -/

namespace Sys2Proof.Machine

/-! ### Accessors -/

/-- The record of a point. -/
def State.pt (s : State) (p : PointNo) : PointRec := s.points[p.val]

/-- `s` with the record of a point replaced. -/
def State.setPt (s : State) (p : PointNo) (r : PointRec) : State := { s with points := s.points.set p.val r }

/-- The map entry of an input. -/
def State.ent (s : State) (i : InputNo) : MapEntry := s.map[i.val]

/-- `s` with the map entry of an input replaced. -/
def State.setEnt (s : State) (i : InputNo) (e : MapEntry) : State := { s with map := s.map.set i.val e }

/-- The input record of an input. -/
def State.inp (s : State) (i : InputNo) : InputRec := s.inputs[i.val]

/-- `s` with the input record of an input replaced. -/
def State.setInp (s : State) (i : InputNo) (r : InputRec) : State := { s with inputs := s.inputs.set i.val r }

/-- The discrepancy timer of a pair. -/
def State.pairTimer (s : State) (k : PairNo) : Option Nat := s.pairTimers[k.val]

/-- `s` with the discrepancy timer of a pair replaced. -/
def State.setPairTimer (s : State) (k : PairNo) (t : Option Nat) : State :=
  { s with pairTimers := s.pairTimers.set k.val t }

/-- The scanner's record of a local line. -/
def State.line (s : State) (l : LineNo) : LineRec := s.lines[l.val]

/-- `s` with the scanner's record of a local line replaced. -/
def State.setLine (s : State) (l : LineNo) (r : LineRec) : State := { s with lines := s.lines.set l.val r }

/-- The Dispatch Controller of a port. -/
def State.dsp (s : State) (p : Port) : Dispatch := s.dispatch[p.val]

/-- `s` with the Dispatch Controller of a port replaced. -/
def State.setDsp (s : State) (p : Port) (d : Dispatch) : State := { s with dispatch := s.dispatch.set p.val d }

/-- The station port. -/
def State.stn (s : State) (p : Port) : Station := s.stations[p.val]

/-- `s` with a station port replaced. -/
def State.setStn (s : State) (p : Port) (t : Station) : State := { s with stations := s.stations.set p.val t }

/-- The record of a remote unit. -/
def State.unit (s : State) (u : UnitNo) : UnitRec := s.link.units[u.val]

/-- `s` with the record of a remote unit replaced. -/
def State.setUnit (s : State) (u : UnitNo) (r : UnitRec) : State :=
  { s with link := { s.link with units := s.link.units.set u.val r } }

/-- The code of a flag (Table 10-5). -/
def Flag.code : Flag → Fin 11
  | .inputTrap => 0
  | .unmappedInput => 1
  | .unitFault => 2
  | .changeDeferred => 3
  | .noticeOverrun => 4
  | .deliveryStall => 5
  | .doneError => 6
  | .logHigh => 7
  | .logLoss => 8
  | .timeSync => 9
  | .commandFault => 10

/-- The route of a flag. -/
def State.route (s : State) (f : Flag) : Route := s.routes[f.code.val]

/-- `s` with the route of a flag replaced. -/
def State.setRoute (s : State) (f : Flag) (r : Route) : State := { s with routes := s.routes.set f.code.val r }

/-! ### The numbers of a kind, in ascending order -/

/-- P0 to P255. -/
def allPoints : List PointNo := (List.range 256).map fun n => Fin.ofNat 256 n

/-- The inputs 0 to 255. -/
def allInputs : List InputNo := (List.range 256).map fun n => Fin.ofNat 256 n

/-- S0 to S3, the port order of R22. -/
def allPorts : List Port := [0, 1, 2, 3]

/-- Units 1 to 3, the address order of R139. -/
def allUnits : List UnitNo := [0, 1, 2]

/-- `count` consecutive numbers from `first` upward, for a range that the request's check has admitted. -/
def rangeFrom (first count : Nat) : List (Fin 256) := (List.range count).map fun n => Fin.ofNat 256 (first + n)

/-! ### Sets held as bit sets (R192) -/

/-- Membership. -/
def hasBit {w : Nat} (m : BitVec w) (n : Nat) : Bool := m.getLsbD n

/-- `m` with member `n` joined; a member already there stays there once. -/
def joinBit {w : Nat} (m : BitVec w) (n : Nat) : BitVec w := m ||| BitVec.twoPow w n

/-- `m` with member `n` removed. -/
def dropBit {w : Nat} (m : BitVec w) (n : Nat) : BitVec w := m &&& ~~~ BitVec.twoPow w n

/-! ### Levels -/

/-- The level is CLOSED. -/
def levelClosed : Level → Bool
  | .opened => false
  | .closed => true

/-- The level that a set bit or a high sample stands for. -/
def levelOfBit : Bool → Level
  | false => .opened
  | true => .closed

/-! ### Inputs, units, lines and pairs (R116) -/

/-- The unit 0 to 3 of an input. -/
def unitOf (i : InputNo) : Nat := i.val / 64

/-- The input of a local line. -/
def lineInput (l : LineNo) : InputNo := Fin.ofNat 256 l.val

/-- The input of line `l` of remote unit `u`: 64·u + l, the index 0 being unit 1. -/
def remoteInput (u : UnitNo) (l : Nat) : InputNo := Fin.ofNat 256 (64 * (u.val + 1) + l)

/-- The 64 inputs of a remote unit in line order. -/
def unitInputs (u : UnitNo) : List InputNo := (List.range 64).map (remoteInput u)

/-- The pair an input belongs to: lines 2k and 2k + 1 of its unit. -/
def pairOf (i : InputNo) : PairNo := Fin.ofNat 128 (i.val / 2)

/-- The input whose line number differs in its lowest bit. -/
def partnerOf (i : InputNo) : InputNo := Fin.ofNat 256 (if i.val % 2 = 0 then i.val + 1 else i.val - 1)

/-- The even line of a pair. -/
def evenInput (k : PairNo) : InputNo := Fin.ofNat 256 (2 * k.val)

/-- The odd line of a pair. -/
def oddInput (k : PairNo) : InputNo := Fin.ofNat 256 (2 * k.val + 1)

/-- The 32 pairs of a remote unit, in order. -/
def unitPairs (u : UnitNo) : List PairNo := (List.range 32).map fun k => Fin.ofNat 128 (32 * (u.val + 1) + k)

/-- The pair is declared complementary. -/
def State.paired (s : State) (k : PairNo) : Bool :=
  hasBit (s.settings.pairs[k.val / 32]'(by omega)) (k.val % 32)

/-! ### The Timebase's clock -/

/-- The time stamp that the Timebase supplies (R177). -/
def State.now (s : State) : TimeStamp := { day := s.day, ms := s.msOfDay, quality := s.timeQuality }

/-- `t` counted forward by `n` ms, through midnight and from day 65535 into day 0 (R56, R177). -/
def TimeStamp.addMs (t : TimeStamp) (n : Nat) : TimeStamp :=
  { t with
    day := (t.day + (t.ms + n) / Config.dayMs) % Config.dayCount
    ms := (t.ms + n) % Config.dayMs }

/-- `t` counted back by `n` ms, at most a day, through midnight and from day 0 into day 65535 (R146). -/
def TimeStamp.subMs (t : TimeStamp) (n : Nat) : TimeStamp :=
  if n ≤ t.ms then { t with ms := t.ms - n }
  else { t with day := (t.day + (Config.dayCount - 1)) % Config.dayCount, ms := t.ms + Config.dayMs - n }

/-- The elapsed milliseconds from one instant to a later one (R177: plain subtraction; log 15). -/
def elapsedFrom (since now : Elapsed) : Nat := (now - since).toNat

/-- A timer after `n` ms: it runs down to zero and stands there until its expiry is taken (log 6). -/
def runDown (n : Nat) (t : Option Nat) : Option Nat := t.map fun left => left - n

/-! ### The circular order of sequence numbers (R101) -/

/-- The number after `n`, from 4 294 967 295 to 1. -/
def seqSucc (n : Nat) : Nat := if n = Config.seqMax then 1 else n + 1

/-- The forward distance from `a` to `b`. -/
def seqDistance (a b : Nat) : Nat := (b + Config.seqMax - a) % Config.seqMax

/-- `b` comes after `a`; 0 comes before every sequence number. -/
def seqAfter (a b : Nat) : Bool :=
  if b = 0 then false
  else if a = 0 then true
  else 1 ≤ seqDistance a b && seqDistance a b ≤ Config.seqHalf

/-- One more, holding at 65535 (R138, R182). -/
def saturatingSucc (n : Nat) : Nat := if n < Config.saturation then n + 1 else Config.saturation

/-! ### Notices and classes -/

/-- The identity of a notice (R69). -/
def NoticeContent.identity : NoticeContent → NoticeId
  | .point pic => .point pic.point
  | .system f _ _ _ => .system f
  | .mode _ => .mode
  | .resync => .resync

/-- A never-offered notice: WAITING with offer count 0 (R71). -/
def Notice.neverOffered (n : Notice) : Bool := !n.offered && n.count == 0

/-- The place of a class in the priority order of R75: 0 is the highest, `lowest` has 7. -/
def rankOf (lowest c : PClass) : Nat := (c.val + 7 - lowest.val) % 8

/-- The 8 classes. -/
def allClasses : List PClass := [0, 1, 2, 3, 4, 5, 6, 7]

end Sys2Proof.Machine
end

