-- ==== Sys2Proof/Machine/Operands.lean ====
section
/-! DEFINITION. Every layout of chapter 10: the check (R192), the codes of Table 10-5, the station frame, the notice,
record, point and input bodies, the result fields, and the arguments of the requests (Tables 10-12 and 10-13). -/

namespace Sys2Proof.Machine

/-! ### Bytes and the check -/

/-- A one-byte field. -/
def b1 (n : Nat) : List Byte := [BitVec.ofNat 8 n]

/-- A two-byte field, most significant byte first. -/
def b2 (n : Nat) : List Byte := [BitVec.ofNat 8 (n / 256), BitVec.ofNat 8 n]

/-- A four-byte field, most significant byte first. -/
def b4 (n : Nat) : List Byte :=
  [BitVec.ofNat 8 (n / 16777216), BitVec.ofNat 8 (n / 65536), BitVec.ofNat 8 (n / 256), BitVec.ofNat 8 n]

/-- A yes/no, on/off or set-or-clear field: 0 or 1. -/
def bBool (b : Bool) : List Byte := b1 b.toNat

/-- One bit through the check register: polynomial 0x1021. -/
def crcBit (c : BitVec 16) : BitVec 16 := if c.msb then (c <<< 1) ^^^ 0x1021#16 else c <<< 1

/-- One byte through the check register, most significant bit first. -/
def crcByte (c : BitVec 16) (b : Byte) : BitVec 16 :=
  Nat.repeat crcBit 8 (c ^^^ (b.setWidth 16 <<< 8))

/-- The CRC-16 of R192: register from 0xFFFF, no final inversion. -/
def crc16 (bytes : List Byte) : BitVec 16 := bytes.foldl crcByte 0xFFFF#16

/-- The two CHECK bytes over `bytes`, high byte first. -/
def checkBytes (bytes : List Byte) : List Byte := b2 (crc16 bytes).toNat

/-! ### Codes of Table 10-5 -/

def levelCode : Level → Nat
  | .opened => 0
  | .closed => 1

def Condition.code : Condition → Nat
  | .normal => 0
  | .abnormal => 1

def PointKind.code : PointKind → Nat
  | .spare => 0
  | .field => 1
  | .group => 2

def SeqType.code : SeqType → Nat
  | .auto => 0
  | .ringback => 1
  | .latch => 2

def SeqState.code : SeqState → Nat
  | .normal => 0
  | .alert => 1
  | .acked => 2
  | .returnUnacked => 3
  | .ringback => 4

def PointQuality.code : PointQuality → Nat
  | .good => 0
  | .suspectUnitLost => 1
  | .suspectDiscrepant => 2
  | .suspectChatter => 3
  | .suspectMember => 4

def InQuality.code : InQuality → Nat
  | .good => 0
  | .unitLost => 1
  | .discrepant => 2
  | .chatter => 3

def Service.code : Service → Nat
  | .inService => 0
  | .shelved _ => 1
  | .removed => 2

def NoticeContent.kindCode : NoticeContent → Nat
  | .point _ => 0
  | .system _ _ _ _ => 1
  | .mode _ => 2
  | .resync => 3

def NoticeId.kindCode : NoticeId → Nat
  | .point _ => 0
  | .system _ => 1
  | .mode => 2
  | .resync => 3

def Mode.code : Mode → Nat
  | .config => 0
  | .starting => 1
  | .run => 2

def RecordBody.kindCode : RecordBody → Nat
  | .pointState _ _ _ _ => 1
  | .pointQuality _ _ => 2
  | .pointService _ _ => 3
  | .input _ _ _ _ _ => 4
  | .system _ _ _ _ _ => 5
  | .operator _ => 6
  | .mode _ _ _ _ => 7
  | .time _ _ => 8
  | .clearFlags _ _ => 9
  | .clearFault _ _ _ => 9

def Cause.code : Cause → Nat
  | .input => 1
  | .inputCoalesced => 2
  | .qualityReturn => 3
  | .ack => 4
  | .reset => 5
  | .latchClear => 6
  | .shelve => 7
  | .unshelve => 8
  | .shelveExpiry => 9
  | .remove => 10
  | .restore => 11
  | .member => 12
  | .start => 13

def Detail.code : Detail → Nat
  | .none => 0
  | .mismatch => 1
  | .overflow => 2
  | .lost => 3
  | .format => 4
  | .unknownKind => 5
  | .ring => 6
  | .test => 7

def Disposition.code : Disposition → Nat
  | .unmapped => 0
  | .trap => 1
  | .recorded => 2

def CaptureName.code : CaptureName → Nat
  | .command => 0
  | .input => 1
  | .port p => p.val + 2

def Nesting.code : Nesting → Nat
  | .full => 0
  | .openNest => 1

def Rotation.code : Rotation → Nat
  | .manual => 0
  | .auto => 1

def DispatchState.code : DispatchState → Nat
  | .detached => 0
  | .idle => 1
  | .offering => 2
  | .stalled => 3

def UnitState.code : UnitState → Nat
  | .notFitted => 0
  | .searching => 1
  | .resync => 2
  | .online => 3
  | .lost => 4

def EntryMode.code : EntryMode → Nat
  | .level => 0
  | .pulse => 1

def TimeQuality.code : TimeQuality → Nat
  | .unset => 0
  | .set => 1
  | .synced => 2

/-- An absent port is sent as 0xFF. -/
def portCode : Option Port → Nat
  | none => 0xFF
  | some p => p.val

/-- An absent unit is sent as 0. -/
def unitCode : Option UnitNo → Nat
  | none => 0
  | some u => u.val + 1

/-- An absent number is sent at its fixed size with the value 0 (R192). -/
def optCode {n : Nat} : Option (Fin n) → Nat
  | none => 0
  | some x => x.val

/-- An optional point: present flag, then the point number. -/
def bOptPoint (p : Option PointNo) : List Byte := bBool p.isSome ++ b1 (optCode p)

/-- A time stamp, 7 bytes. -/
def bStamp (t : TimeStamp) : List Byte := b2 t.day ++ b4 t.ms ++ b1 t.quality.code

/-- A time stamp that may be absent. -/
def bOptStamp : Option TimeStamp → List Byte
  | none => List.replicate 7 0
  | some t => bStamp t

/-- A last change: sequence number and stamp, 11 bytes. -/
def bLastChange : Option (Nat × TimeStamp) → List Byte
  | none => List.replicate 11 0
  | some (n, t) => b4 n ++ bStamp t

/-- Bits 0 upward of a flag byte. -/
def bFlags (bits : List Bool) : List Byte :=
  b1 (bits.zipIdx.foldl (fun acc x => acc + x.1.toNat * 2 ^ x.2) 0)

/-! ### Station frames (Table 10-6) -/

/-- The bytes of a station frame from START to CHECK. -/
def stationFrame (f : Frame) : List Byte :=
  let inner := b1 (f.body.length + 2) ++ [f.tag, f.kind] ++ f.body
  0x5A#8 :: (inner ++ checkBytes inner)

/-- The frame that the bytes LEN, TAG, KIND, BODY, CHECK make, if the check is right (R182). -/
def parseStationFrame (bytes : List Byte) : Option Frame :=
  match bytes with
  | len :: tag :: kind :: rest =>
    let n := len.toNat - 2
    if rest.drop n = checkBytes ((len :: tag :: kind :: rest).take (n + 3)) then
      some { tag := tag, kind := kind, body := rest.take n }
    else none
  | _ => none

/-- The kind code of a NOTICE frame. -/
def noticeKind : Byte := 0x80#8

/-! ### The notice body (10.8.3) -/

/-- The content bytes of a notice, after the five common bytes. -/
def bNoticeContent : NoticeContent → List Byte
  | .point pic =>
    b1 pic.point.val ++ b1 pic.seqState.code ++ b1 pic.condition.code ++ b1 pic.quality.code
      ++ b1 pic.service.code
      ++ bFlags [pic.firstMemberFlag, pic.groupFirstMember.isSome, pic.lastChange.isSome]
      ++ b1 (optCode pic.groupFirstMember) ++ bLastChange pic.lastChange
  | .system f u p n => b1 f.code.val ++ b1 (unitCode u) ++ b1 (portCode p) ++ b4 n
  | .mode m => b1 m.code
  | .resync => []

/-- The notice body. -/
def bNotice (n : Notice) : List Byte :=
  b2 n.number ++ b1 n.content.kindCode ++ b1 n.cls.val ++ b1 n.count ++ bNoticeContent n.content

/-- The NOTICE frame of a notice: TAG 0. -/
def noticeFrame (n : Notice) : List Byte := stationFrame { tag := 0, kind := noticeKind, body := bNotice n }

/-! ### The event record body (10.8.4) -/

/-- The value bytes V0 to V8, before they are filled up with 0 (Table 10-9). -/
def bValues : RecordBody → List Byte
  | .pointState s0 s1 c fm => b1 s0.code ++ b1 s1.code ++ b1 c.code ++ bOptPoint fm
  | .pointQuality q0 q1 => b1 q0.code ++ b1 q1.code
  | .pointService v0 v1 =>
    b1 v0.code ++ b1 v1.code ++ (match v1 with
      | .shelved t => bStamp t
      | .inService => []
      | .removed => [])
  | .input l0 l q d p =>
    b1 ((l0.map levelCode).getD 0xFF) ++ b1 (levelCode l) ++ b1 q.code ++ b1 d.code ++ bOptPoint p
  | .system w f u p d => bBool w ++ b1 f.code.val ++ b1 1 ++ b1 (unitCode u) ++ b1 (portCode p) ++ b1 d.code
  | .operator w => bBool w ++ b1 0
  | .mode m0 m1 a r => b1 m0.code ++ b1 m1.code ++ b1 ((a.map Bool.toNat).getD 0xFF) ++ bBool r
  | .time t0 _ => bStamp t0
  | .clearFlags f0 f1 => b1 0 ++ b2 f0.toNat ++ b2 f1.toNat
  | .clearFault l m n => b1 1 ++ bBool l ++ bBool m ++ b1 n.code

/-- `bytes` filled up with zeros to `n`. -/
def fillTo (n : Nat) (bytes : List Byte) : List Byte := bytes ++ List.replicate (n - bytes.length) 0

/-- The event record body, 26 bytes (Table 10-8). An absent port is sent as 0, as R192 has it for a field with a presence
flag, and not as the 0xFF of Table 10-5 (log 28). -/
def bRecord (r : EventRecord) : List Byte :=
  b4 r.seq ++ bStamp r.stamp ++ b1 r.body.kindCode
    ++ bFlags [r.point.isSome, r.input.isSome, r.port.isSome, r.cause.isSome]
    ++ b1 (optCode r.point) ++ b1 (optCode r.input) ++ b1 (optCode r.port)
    ++ b1 ((r.cause.map Cause.code).getD 0) ++ fillTo 9 (bValues r.body)

/-! ### The point record body (10.8.5) -/

/-- The end time of a SHELVED point. -/
def Service.endTime : Service → Option TimeStamp
  | .inService => none
  | .shelved t => some t
  | .removed => none

/-- The point record body, 29 bytes (Table 10-10). -/
def bPointRec (r : PointRec) : List Byte :=
  b1 r.kind.code ++ b1 r.seqType.code ++ b1 r.cls.val ++ b1 r.subs.toNat ++ b1 r.ackRing.val
    ++ b1 (optCode r.parent)
    ++ bFlags [r.parent.isSome, r.firstOut, r.firstMember.isSome, r.lastChange.isSome, r.service.endTime.isSome,
        r.condition == .abnormal]
    ++ b1 (optCode r.firstMember) ++ b1 r.quality.code ++ b1 r.seqState.code ++ b1 r.service.code
    ++ bOptStamp r.service.endTime ++ bLastChange r.lastChange

/-! ### Map, unit and input bodies -/

/-- A READ_MAP entry, 9 bytes (Table 10-13). -/
def bMapEntry (e : MapEntry) : List Byte :=
  bBool e.valid ++ b1 (if e.valid then optCode e.point else 0) ++ b1 (levelCode e.normal) ++ b1 e.mode.code
    ++ bBool e.trap ++ bBool e.record ++ b1 (levelCode e.appliedLevel) ++ b1 e.appliedQuality.code ++ bBool e.latch

/-- A READ_UNIT record, 9 bytes (Table 10-13). -/
def bUnitRec (u : UnitRec) : List Byte :=
  b1 u.state.code ++ b1 u.debounce ++ b1 u.lastSeq ++ b1 u.misses ++ bBool u.mismatch ++ b2 u.missTotal
    ++ b2 u.repeatTotal

/-- The settings of R128 in the order and sizes of the SET_INPUTS arguments, 23 bytes. -/
def bSettings (f : FilterSettings) : List Byte :=
  b1 f.window ++ b1 f.threshold ++ b1 (f.discrepancyMs / 10) ++ f.debounce.toArray.toList.flatMap b1
    ++ f.pairs.toArray.toList.flatMap fun m => b4 m.toNat

/-- The input record body of input `i`, 21 bytes (Table 10-14). -/
def State.bInput (s : State) (i : InputNo) : List Byte :=
  let r := s.inp i
  let local0 : Option LineRec := if h : i.val < 64 then some (s.line ⟨i.val, h⟩) else none
  b1 (levelCode r.level)
    ++ bFlags [r.lastChange.isSome, r.lastQualityChange.isSome, r.chatterActive, r.chatterTimer.isSome,
        s.paired (pairOf i), (s.pairTimer (pairOf i)).isSome, r.discrepant, r.unitLost]
    ++ bOptStamp r.lastChange ++ bOptStamp r.lastQualityChange ++ b1 r.history.length ++ b1 r.reported.code
    ++ b1 (levelCode r.queuedLevel) ++ b1 r.queuedQuality.code
    ++ bFlags [r.deferred, local0.any fun l => l.run.isSome, local0.any fun l => levelClosed l.raw]

/-! ### The link frames (10.8.6) -/

/-- START of a link frame. -/
def linkStart : Byte := 0xC3#8

/-- A link frame from START to CHECK. -/
def linkFrame (address type : Nat) (body : List Byte) : List Byte :=
  let inner := b1 address ++ b1 type ++ body
  linkStart :: (inner ++ checkBytes inner)

/-- The TYPE of a message (Table 10-11). -/
def MessageKind.type : MessageKind → Nat
  | .identify => 0x01
  | .snapshot => 0x02
  | .poll => 0x03

/-- The TYPE of the answer to a message. -/
def MessageKind.answerType (k : MessageKind) : Nat := k.type + 0x80

/-! ### The requests (Tables 10-3, 10-12, 9-2) -/

/-- The requests a station may send. -/
inductive ReqKind where
  | setPoint | readPoint | setMap | readMap | setInputs | readInput | setUnit | setLink | readUnit
  | ackPoint | ackClass | ackAll | resetPoint | resetAll | silence | shelve | unshelve | remove | restore
  | setAudible
  | take | poll | done | doneClass | setLowest | setDispatch | attach | detach | readPort | setPort
  | setLog | confirmLog | readLog
  | setRoute | clearFlags | testSource | clearFault | readStatus
  | enterRun | enterConfig | restart | setTime
  deriving DecidableEq, Repr

/-- The KIND code and the body length of each request (Table 10-12). -/
def ReqKind.row : ReqKind → Byte × Nat
  | .setPoint => (0x01#8, 9)
  | .readPoint => (0x02#8, 2)
  | .setMap => (0x03#8, 7)
  | .readMap => (0x04#8, 2)
  | .setInputs => (0x05#8, 23)
  | .readInput => (0x06#8, 2)
  | .setUnit => (0x07#8, 3)
  | .setLink => (0x08#8, 1)
  | .readUnit => (0x09#8, 0)
  | .ackPoint => (0x10#8, 2)
  | .ackClass => (0x11#8, 1)
  | .ackAll => (0x12#8, 0)
  | .resetPoint => (0x13#8, 1)
  | .resetAll => (0x14#8, 0)
  | .silence => (0x15#8, 0)
  | .shelve => (0x16#8, 3)
  | .unshelve => (0x17#8, 1)
  | .remove => (0x18#8, 1)
  | .restore => (0x19#8, 1)
  | .setAudible => (0x1A#8, 1)
  | .take => (0x20#8, 2)
  | .poll => (0x21#8, 0)
  | .done => (0x22#8, 0)
  | .doneClass => (0x23#8, 2)
  | .setLowest => (0x24#8, 1)
  | .setDispatch => (0x25#8, 5)
  | .attach => (0x26#8, 0)
  | .detach => (0x27#8, 0)
  | .readPort => (0x28#8, 1)
  | .setPort => (0x29#8, 5)
  | .setLog => (0x30#8, 3)
  | .confirmLog => (0x31#8, 4)
  | .readLog => (0x32#8, 5)
  | .setRoute => (0x38#8, 4)
  | .clearFlags => (0x39#8, 2)
  | .testSource => (0x3A#8, 1)
  | .clearFault => (0x3B#8, 1)
  | .readStatus => (0x3C#8, 0)
  | .enterRun => (0x40#8, 1)
  | .enterConfig => (0x41#8, 0)
  | .restart => (0x42#8, 0)
  | .setTime => (0x43#8, 7)

/-- The KIND code. -/
def ReqKind.code (k : ReqKind) : Byte := k.row.1

/-- The body length that the FORMAT check tests. -/
def ReqKind.bodyLength (k : ReqKind) : Nat := k.row.2

/-- Every request. -/
def allReqKinds : List ReqKind :=
  List.flatten [
    [.setPoint, .readPoint, .setMap, .readMap, .setInputs, .readInput, .setUnit, .setLink, .readUnit],
    [.ackPoint, .ackClass, .ackAll, .resetPoint, .resetAll, .silence, .shelve, .unshelve, .remove, .restore,
      .setAudible],
    [.take, .poll, .done, .doneClass, .setLowest, .setDispatch, .attach, .detach, .readPort, .setPort],
    [.setLog, .confirmLog, .readLog, .setRoute, .clearFlags, .testSource, .clearFault, .readStatus],
    [.enterRun, .enterConfig, .restart, .setTime]]

/-- The request that a kind code names, if it names one. -/
def ReqKind.ofCode (b : Byte) : Option ReqKind := allReqKinds.find? fun k => k.code == b

/-- What a port needs at the ring check (Table 10-3): a ring, or permission for the point named by the first byte
of the body together with a ring. -/
inductive RingRule where
  | atMost (r : Ring)
  | permitted (r : Ring)
  deriving DecidableEq, Repr

/-- Table 10-3. -/
def ReqKind.ringRule : ReqKind → RingRule
  | .setPoint | .setMap | .setInputs | .setUnit | .setLink | .setAudible | .setRoute | .setLog | .setPort
  | .enterRun | .enterConfig | .restart | .remove | .restore | .testSource => .atMost 0
  | .setTime | .clearFlags | .clearFault => .atMost 1
  | .shelve | .unshelve => .permitted 1
  | .silence => .atMost 2
  | .ackPoint | .resetPoint => .permitted 3
  | .ackClass | .ackAll | .resetAll | .take | .poll | .done | .doneClass | .setLowest | .setDispatch | .attach
  | .detach | .readPoint | .readLog | .readInput | .readMap | .readUnit | .readPort | .readStatus
  | .confirmLog => .atMost 3

/-- Table 9-2, but for SET_POINT in RUN, whose arguments decide (R25). -/
def ReqKind.modeRule (k : ReqKind) (m : Mode) : Bool :=
  match k with
  | .setPoint => m != .starting
  | .setMap | .setInputs | .setUnit | .setLink | .enterRun => m == .config
  | .ackPoint | .ackClass | .ackAll | .resetPoint | .resetAll | .shelve | .unshelve => m == .run
  | .silence | .setAudible | .remove | .restore => m != .starting
  | .enterConfig => m != .config
  | .setRoute | .clearFlags | .testSource | .clearFault | .setLog | .confirmLog | .take | .poll | .done
  | .doneClass | .setLowest | .setDispatch | .attach | .detach | .readPoint | .readLog | .readInput | .readMap
  | .readUnit | .readPort | .readStatus | .setTime | .setPort | .restart => true

/-- The requests whose owner is the Point Engine or the Mode Controller: while an ENTER_CONFIG claim waits at the
Point Engine their owner takes none of them (log 8). -/
def ReqKind.waitsForEngine : ReqKind → Bool
  | .setPoint | .readPoint | .setMap | .readMap | .ackPoint | .ackClass | .ackAll | .resetPoint | .resetAll
  | .silence | .shelve | .unshelve | .remove | .restore | .setAudible | .enterRun | .enterConfig
  | .restart => true
  | .setInputs | .readInput | .setUnit | .setLink | .readUnit | .take | .poll | .done | .doneClass | .setLowest
  | .setDispatch | .attach | .detach | .readPort | .setPort | .setLog | .confirmLog | .readLog | .setRoute
  | .clearFlags | .testSource | .clearFault | .readStatus | .setTime => false

/-- The four requests whose ring check depends on the named point: the Point Engine makes their checks 3 to 6 (R185). -/
def ReqKind.checkedByEngine (k : ReqKind) : Bool := k == .ackPoint || k == .resetPoint || k == .shelve || k == .unshelve

/-- The offset of the first point argument of a request (Table 10-12, R161). -/
def ReqKind.pointOffset : ReqKind → Option Nat
  | .setPoint | .readPoint | .ackPoint | .resetPoint | .shelve | .unshelve | .remove | .restore => some 0
  | .setMap => some 2
  | .readMap | .setInputs | .readInput | .setUnit | .setLink | .readUnit | .ackClass | .ackAll | .resetAll
  | .silence | .setAudible | .take | .poll | .done | .doneClass | .setLowest | .setDispatch | .attach | .detach
  | .readPort | .setPort | .setLog | .confirmLog | .readLog | .setRoute | .clearFlags | .testSource
  | .clearFault | .readStatus | .enterRun | .enterConfig | .restart | .setTime => none

/-! ### Statuses (Table 10-2) -/

inductive Status where
  | ok | empty | format | unknownKind | ring | mode | badArgument | badState | chain | stale | notAttached
  | notInService | nothingInService
  deriving DecidableEq, Repr

def Status.code : Status → Nat
  | .ok => 0x00
  | .empty => 0x01
  | .format => 0x02
  | .unknownKind => 0x03
  | .ring => 0x04
  | .mode => 0x05
  | .badArgument => 0x06
  | .badState => 0x07
  | .chain => 0x08
  | .stale => 0x09
  | .notAttached => 0x0A
  | .notInService => 0x0B
  | .nothingInService => 0x0C

/-! ### Arguments -/

/-- The byte at an offset of the body. -/
def Frame.arg (f : Frame) (i : Nat) : Nat := (f.body.getD i 0).toNat

/-- The two-byte argument at an offset. -/
def Frame.arg2 (f : Frame) (i : Nat) : Nat := 256 * f.arg i + f.arg (i + 1)

/-- The four-byte argument at an offset. -/
def Frame.arg4 (f : Frame) (i : Nat) : Nat := 65536 * f.arg2 i + f.arg2 (i + 2)

/-- A number below `n`, if it is one. -/
def below (n x : Nat) : Option (Fin n) := if h : x < n then some ⟨x, h⟩ else none

/-- A yes/no or on/off choice; every value but 0 and 1 is an argument out of its set. -/
def choice (x : Nat) : Option Bool :=
  if x = 0 then some false else if x = 1 then some true else none

/-- The point argument at an offset: every byte names a point. -/
def Frame.point (f : Frame) (i : Nat) : PointNo := Fin.ofNat 256 (f.arg i)

/-- The input argument at an offset: every byte names an input. -/
def Frame.input (f : Frame) (i : Nat) : InputNo := Fin.ofNat 256 (f.arg i)

def PointKind.ofCode (x : Nat) : Option PointKind := [PointKind.spare, .field, .group].find? fun k => k.code == x

def SeqType.ofCode (x : Nat) : Option SeqType := [SeqType.auto, .ringback, .latch].find? fun k => k.code == x

def levelOf (x : Nat) : Option Level := [Level.opened, .closed].find? fun l => levelCode l == x

def EntryMode.ofCode (x : Nat) : Option EntryMode := [EntryMode.level, .pulse].find? fun k => k.code == x

def Nesting.ofCode (x : Nat) : Option Nesting := [Nesting.full, .openNest].find? fun k => k.code == x

def Rotation.ofCode (x : Nat) : Option Rotation := [Rotation.manual, .auto].find? fun k => k.code == x

/-- The eleven flags in code order. -/
def allFlags : List Flag :=
  [.inputTrap, .unmappedInput, .unitFault, .changeDeferred, .noticeOverrun, .deliveryStall, .doneError, .logHigh,
    .logLoss, .timeSync, .commandFault]

def Flag.ofCode (x : Nat) : Option Flag := allFlags.find? fun f => f.code.val == x

/-- An optional point argument: the present flag at the offset, the number after it (Table 10-5). -/
def Frame.optPoint (f : Frame) (i : Nat) : Option (Option PointNo) :=
  (choice (f.arg i)).map fun present => if present then some (f.point (i + 1)) else none

/-- A debounce time of the allowed set (R114). -/
def debounceOf (x : Nat) : Option Nat := if x ∈ [0, 1, 2, 4, 8, 16, 32, 64] then some x else none

/-- The seven configuration values of a SET_POINT (R25). -/
structure PointConfig where
  kind : PointKind
  seqType : SeqType
  cls : PClass
  subs : BitVec 4
  ackRing : Ring
  parent : Option PointNo
  firstOut : Bool
  deriving DecidableEq, Repr

/-- The configuration a SET_POINT carries, if each value lies in its set (R26, first two items). -/
def Frame.pointConfig (f : Frame) : Option PointConfig := do
  let kind ← PointKind.ofCode (f.arg 1)
  let seqType ← SeqType.ofCode (f.arg 2)
  let cls ← below 8 (f.arg 3)
  let subs ← below 16 (f.arg 4)
  let ackRing ← below 4 (f.arg 5)
  let parent ← f.optPoint 6
  let firstOut ← choice (f.arg 8)
  pure { kind := kind, seqType := seqType, cls := cls, subs := BitVec.ofNat 4 subs.val, ackRing := ackRing
         parent := parent, firstOut := firstOut }

/-- The settings a SET_INPUTS carries, if each lies in its range (R128). -/
def Frame.filterSettings (f : Frame) : Option FilterSettings := do
  let d0 ← debounceOf (f.arg 3)
  let d1 ← debounceOf (f.arg 4)
  let d2 ← debounceOf (f.arg 5)
  let d3 ← debounceOf (f.arg 6)
  let window := f.arg 0
  let threshold := f.arg 1
  let discrepancy := f.arg 2
  if 1 ≤ window ∧ window ≤ 60 ∧ 3 ≤ threshold ∧ threshold ≤ 30 ∧ 1 ≤ discrepancy then
    pure { window := window, threshold := threshold, discrepancyMs := 10 * discrepancy
           debounce := ⟨⟨[d0, d1, d2, d3]⟩, rfl⟩
           pairs := ⟨⟨[BitVec.ofNat 32 (f.arg4 7), BitVec.ofNat 32 (f.arg4 11), BitVec.ofNat 32 (f.arg4 15),
             BitVec.ofNat 32 (f.arg4 19)]⟩, rfl⟩ }
  else none

/-- The numbers of a read, when the count is from 1 to `most` and the range ends at 255 or below. -/
def Frame.readRange (f : Frame) (most : Nat) : Option (List (Fin 256)) :=
  let first := f.arg 0
  let count := f.arg 1
  if 1 ≤ count ∧ count ≤ most ∧ first + count ≤ 256 then some (rangeFrom first count) else none

/-- The five settings of a SET_DISPATCH (R91). -/
structure DispatchConfig where
  mask : BitVec 8
  nesting : Nesting
  rotation : Rotation
  autoDone : Bool
  polled : Bool
  deriving DecidableEq, Repr

/-- The settings a SET_DISPATCH carries, if each lies in its set. -/
def Frame.dispatchConfig (f : Frame) : Option DispatchConfig := do
  let nesting ← Nesting.ofCode (f.arg 1)
  let rotation ← Rotation.ofCode (f.arg 2)
  let autoDone ← choice (f.arg 3)
  let polled ← choice (f.arg 4)
  pure { mask := BitVec.ofNat 8 (f.arg 0), nesting := nesting, rotation := rotation, autoDone := autoDone
         polled := polled }

/-- The entry a SET_MAP with valid yes carries, if each field lies in its set (R131). -/
def Frame.mapEntry (f : Frame) (old : MapEntry) : Option MapEntry := do
  let normal ← levelOf (f.arg 3)
  let mode ← EntryMode.ofCode (f.arg 4)
  let trap ← choice (f.arg 5)
  let record ← choice (f.arg 6)
  pure { old with valid := true, point := some (f.point 2), normal := normal, mode := mode, trap := trap
                  record := record }

/-- The five values of a SET_PORT (R189). -/
structure PortConfig where
  port : Port
  ring : Ring
  takeTimeout : Nat
  retries : Nat
  clearCount : Bool
  deriving DecidableEq, Repr

/-- The values a SET_PORT carries, if each lies in its range and S0 keeps ring 0. -/
def Frame.portConfig (f : Frame) : Option PortConfig := do
  let port ← below 4 (f.arg 0)
  let ring ← below 4 (f.arg 1)
  let clearCount ← choice (f.arg 4)
  if 1 ≤ f.arg 2 ∧ f.arg 3 ≤ 7 ∧ ¬ (port = 0 ∧ ring ≠ 0) then
    pure { port := port, ring := ring, takeTimeout := 10 * f.arg 2, retries := f.arg 3, clearCount := clearCount }
  else none

/-- The archive port of a SET_LOG: S0 to S3, or 0xFF for none. -/
def archiveOf (x : Nat) : Option (Option Port) :=
  if x = 0xFF then some none else (below 4 x).map some

/-- The threshold of a SET_AUDIBLE: a class, or 0xFF for OFF. -/
def thresholdOf (x : Nat) : Option (Option PClass) :=
  if x = 0xFF then some none else (below 8 x).map some

end Sys2Proof.Machine
end

