-- ==== Sys2Proof/Machine/Ops.lean ====
section
/-! DEFINITION. The operations that many commands share: the append to the Event Record (R102), the placing, selection
and offer of notices (R70 to R77), and the transmit arbiter (R187). -/

namespace Sys2Proof.Machine

/-! ### Raisings handed on -/

/-- A raising is handed to the System Flag Unit: it waits there behind the raisings handed on before it (R103). -/
def State.handOn (s : State) (r : Raising) : State := { s with raisings := s.raisings ++ [r] }

/-- A raising of `f` that carries nothing else. -/
def plainRaising (f : Flag) : Raising :=
  { flag := f, unit := none, port := none, input := none, detail := .none, reqPort := none }

/-! ### Event Record -/

/-- A record as its block hands it on: every field except the sequence number (R102). -/
structure RecordDraft where
  stamp : TimeStamp
  body : RecordBody
  point : Option PointNo
  input : Option InputNo
  port : Option Port
  cause : Option Cause
  deriving DecidableEq, Repr

/-- The record that a draft becomes under its number. -/
def RecordDraft.numbered (d : RecordDraft) (n : Nat) : EventRecord :=
  { seq := n, stamp := d.stamp, body := d.body, point := d.point, input := d.input, port := d.port
    cause := d.cause }

/-- The unconfirmed count: held records that come after the confirmed number, 0 without an archive port (R96). After a
CONFIRM_LOG of a number that was never assigned, R108 gives another count; the model keeps this one (log 27). -/
def EventLog.unconfirmed (l : EventLog) : Nat :=
  match l.archive with
  | none => 0
  | some _ => (l.ring.filter fun r => seqAfter l.confirmed r.seq).length

/-- LOG_HIGH is set, or a raising of it handed on by the Event Record waits (R107). -/
def State.logHighSet (s : State) : Bool :=
  hasBit s.flags Flag.logHigh.code.val || s.raisings.any fun r => r.flag == .logHigh && r.detail == .none

/-- The test of R107 after an append or a SET_LOG; `wasBelow` says that the count was below the threshold before it,
`reqPort` is the port of a SET_LOG (R155). -/
def State.testLogHigh (s : State) (wasBelow : Bool) (reqPort : Option Port) : State :=
  if s.log.archive.isSome && s.log.threshold ≤ s.log.unconfirmed && (wasBelow || !s.logHighSet) then
    s.handOn { plainRaising .logHigh with reqPort := reqPort }
  else s

/-- Step 1 of R102 with the loss steps of R105: a full ring loses its oldest record. The append of a LOG_LOSS record
(`silent`) hands on no further LOG_LOSS (R106). -/
def State.makeRoom (s : State) (silent : Bool) : State :=
  match s.log.ring with
  | [] => s
  | oldest :: rest =>
    if s.log.ring.length < Config.recordCapacity then s
    else if s.log.archive.isSome && seqAfter s.log.confirmed oldest.seq then
      let s1 := { s with log := { s.log with ring := rest, confirmed := oldest.seq } }
      if silent then s1 else s1.handOn (plainRaising .logLoss)
    else { s with log := { s.log with ring := rest } }

/-- Steps 2 and 3 of R102: the record takes the next number at the newest end. -/
def State.placeRecord (s : State) (d : RecordDraft) : State :=
  { s with log := { s.log with
      ring := s.log.ring ++ [d.numbered s.log.next]
      newest := s.log.next
      next := seqSucc s.log.next } }

/-- An append (R102). The number the record takes is `s.log.next`. -/
def State.append (s : State) (silent : Bool) (d : RecordDraft) : State :=
  ((s.makeRoom silent).placeRecord d).testLogHigh (decide (s.log.unconfirmed < s.log.threshold)) none

/-! ### Transmit arbiter -/

/-- A response is handed to the arbiter (R187). -/
def State.handResponse (s : State) (p : Port) (bytes : List Byte) : State :=
  let t := s.stn p
  match t.tx with
  | none => s.setStn p { t with tx := some (.response bytes) }
  | some _ => s.setStn p { t with waitResponse := some bytes }

/-- The NOTICE frame of an offer is handed to the arbiter (R77, R187). -/
def State.handNotice (s : State) (p : Port) (bytes : List Byte) : State :=
  let t := s.stn p
  match t.tx with
  | none => s.setStn p { t with tx := some (.notice bytes true) }
  | some _ => s.setStn p { t with waitNotice := some bytes }

/-- A frame in transmission whose offer is over. -/
def TxFrame.disown : TxFrame → TxFrame
  | .response b => .response b
  | .notice b _ => .notice b false

/-- The withdrawal of a NOTICE frame: unsent, it is dropped; begun, it is sent whole and starts no timer (R78). -/
def State.withdraw (s : State) (p : Port) : State :=
  let t := s.stn p
  s.setStn p { t with waitNotice := none, tx := t.tx.map TxFrame.disown }

/-! ### Selection (R75, R76) -/

/-- A class may be delivered: not masked, and as the nesting asks with the in-service set. -/
def Dispatch.classEligible (d : Dispatch) (c : PClass) : Bool :=
  !hasBit d.mask c.val &&
    match d.nesting with
    | .full => allClasses.all fun k => !hasBit d.inService k.val || rankOf d.lowest c < rankOf d.lowest k
    | .openNest => !hasBit d.inService c.val

/-- The better of the notice found so far and the next one in the queue: the higher class, and among equal classes
the earlier notice. -/
def betterNotice (lowest : PClass) (found : Option Notice) (n : Notice) : Option Notice :=
  match found with
  | none => some n
  | some m => if rankOf lowest n.cls < rankOf lowest m.cls then some n else some m

/-- The notice selected among those that `phaseOk` admits (R76). -/
def Dispatch.selectAmong (d : Dispatch) (phaseOk : Notice → Bool) : Option Notice :=
  (d.queue.filter fun n => phaseOk n && d.classEligible n.cls).foldl (betterNotice d.lowest) none

/-- Selection for an offer: among the WAITING notices (R76). -/
def Dispatch.select (d : Dispatch) : Option Notice := d.selectAmong fun n => !n.offered

/-- Selection for POLL: the OFFERED notice counts as WAITING (R86). -/
def Dispatch.selectPoll (d : Dispatch) : Option Notice := d.selectAmong fun _ => true

/-! ### The offer (R77) -/

/-- A notice as it stands at its offer: OFFERED, its count one higher, held at 8. -/
def Notice.offer (n : Notice) : Notice := { n with offered := true, count := if n.count < 8 then n.count + 1 else 8 }

/-- The queue with the notice of number `k` changed by `f`. -/
def updateNotice (k : Nat) (f : Notice → Notice) (q : List Notice) : List Notice :=
  q.map fun n => if n.number = k then f n else n

/-- The details a delivery failure record takes at an offer (R82). -/
def Notice.failureDetail (n : Notice) (stamp : TimeStamp) : FailureDetail :=
  { number := n.number, id := n.content.identity, cls := n.cls, count := n.count, stamp := stamp }

/-- An unlocked delivery failure record is loaded; a locked one is left (R77). -/
def FailureRec.load (f : FailureRec) (d : FailureDetail) : FailureRec :=
  if f.locked then f else { f with contents := some d }

/-- The Dispatch Controller after the offer of `n`. -/
def Dispatch.afterOffer (d : Dispatch) (n : Notice) (stamp : TimeStamp) : Dispatch :=
  { d with
    queue := updateNotice n.number Notice.offer d.queue
    state := .offering
    failure := d.failure.load (n.offer.failureDetail stamp) }

/-- The test of R77, at the end of every claim at the port's Dispatch Controller. -/
def State.testOffer (s : State) (p : Port) : State :=
  let d := s.dsp p
  if d.state = .idle ∧ d.polled = false then
    match d.select with
    | none => s
    | some n => (s.setDsp p (d.afterOffer n s.now)).handNotice p (noticeFrame n.offer)
  else s

/-! ### Placing (R70 to R72) -/

/-- The notice number after `n`, from 65535 to 1. -/
def noticeSucc (n : Nat) : Nat := if n = Config.noticeMax then 1 else n + 1

/-- The first number from `n` on that no queued notice holds; the queue is shorter than the search (R70). -/
def freshNumber (q : List Notice) : Nat → Nat → Nat
  | 0, n => n
  | k + 1, n => if q.any (fun m => m.number == n) then freshNumber q k (noticeSucc n) else n

/-- A new notice at the end of the queue, WAITING with offer count 0 and a number under R70. -/
def Dispatch.appendNotice (d : Dispatch) (c : NoticeContent) (cls : PClass) : Dispatch :=
  let number := freshNumber d.queue (Config.noticeCapacity + 1) d.nextNumber
  { d with
    queue := d.queue ++ [{ number := number, cls := cls, content := c, offered := false, count := 0 }]
    nextNumber := noticeSucc number }

/-- The queued notice that a new notice of identity `i` coalesces into. -/
def coalescesInto (i : NoticeId) (n : Notice) : Bool := n.neverOffered && n.content.identity == i

/-- A queued notice after a new notice of content `c` and class `cls` has come: it takes both if it is the one that
absorbs it, and keeps its place and number (R71). -/
def Notice.absorb (c : NoticeContent) (cls : PClass) (n : Notice) : Notice :=
  if coalescesInto c.identity n then { n with cls := cls, content := c } else n

/-- The claim of R71, without the test of R77 that ends it. -/
def State.enqueue (s : State) (p : Port) (c : NoticeContent) (cls : PClass) : State :=
  let d := s.dsp p
  if d.state = .detached then s
  else if d.queue.any (coalescesInto c.identity) then
    s.setDsp p { d with queue := d.queue.map (Notice.absorb c cls) }
  else if d.queue.length < Config.noticeCapacity then s.setDsp p (d.appendNotice c cls)
  else (s.setDsp p { d with resyncPending := true }).handOn { plainRaising .noticeOverrun with port := some p }

/-- A placement: the claim of R71 with the test of R77. -/
def State.place (s : State) (p : Port) (c : NoticeContent) (cls : PClass) : State := (s.enqueue p c cls).testOffer p

/-- MODE and RESYNC notices have class 0 (R69). -/
def controlClass : PClass := 0

/-- One MODE notice at every port (R94); the port order is the model's (log 31). -/
def State.placeMode (s : State) (m : Mode) : State :=
  allPorts.foldl (fun s p => s.place p (.mode m) controlClass) s

/-- A queue left empty while resync pending is set receives its RESYNC notice (R73). -/
def State.testResync (s : State) (p : Port) : State :=
  let d := s.dsp p
  if d.queue.isEmpty && d.resyncPending && d.state != .detached then
    (s.setDsp p { d with resyncPending := false }).enqueue p .resync controlClass
  else s

/-! ### Responses -/

/-- The response to `f` is formed, cached and handed to the arbiter; no request is in progress any more (R184,
R186). -/
def State.respond (s : State) (p : Port) (f : Frame) (status : Status) (results : List Byte) : State :=
  let bytes := stationFrame { f with body := b1 status.code ++ results }
  let t := s.stn p
  (s.setStn p { t with inProgress := none, cache := some { request := f, response := bytes } }).handResponse p bytes

end Sys2Proof.Machine
end

