-- ==== Sys2Proof/Machine/Flags.lean ====
section
/-! DEFINITION. The System Flag Unit (chapter 8): raising a flag, the capture records, and the AUDIBLE and FAULT
lines. -/

namespace Sys2Proof.Machine

/-- The flag is set. -/
def State.flagSet (s : State) (f : Flag) : Bool := hasBit s.flags f.code.val

/-- The SYSTEM record of a raising (R155, step 3). -/
def Raising.draft (r : Raising) (wasSet : Bool) (stamp : TimeStamp) : RecordDraft :=
  { stamp := stamp, body := .system wasSet r.flag r.unit r.port r.detail, point := none, input := r.input
    port := r.reqPort, cause := none }

/-- One raising, handled whole (R155). -/
def State.raise (s : State) (r : Raising) : State :=
  let wasSet := s.flagSet r.flag
  let s1 := { s with flags := joinBit s.flags r.flag.code.val }
  let s2 := s1.append (r.flag == .logLoss) (r.draft wasSet s.now)
  let route := s.route r.flag
  if !wasSet && route.enable then s2.place route.port (.system r.flag r.unit r.port s.log.next) route.cls else s2

/-- The waiting raisings are handled in the order they were handed on, `fuel` of them at most. The fuel of `settle` is
above what any chain can reach, so the first case drops nothing (log 11). -/
def State.drain : Nat → State → State
  | 0, s => { s with raisings := [] }
  | n + 1, s =>
    match s.raisings with
    | [] => s
    | r :: rest => State.drain n ({ s with raisings := rest }.raise r)

/-- More raisings than a chain can hold (R156): each one waiting hands on at most one LOG_LOSS, and the eleven flags
can each place one notice that overruns its port, so twice their number and 26 bound them all (log 11). -/
def State.drainFuel (s : State) : Nat := 4 * s.raisings.length + 64

/-- The end of a command: the raisings that its runs handed on are handled (R103). -/
def State.settle (s : State) : State := s.drain s.drainFuel

/-! ### Capture records -/

/-- The load of the command capture record by a request taken at the time `taken` (R161). -/
def State.loadCommandAt (s : State) (taken : TimeStamp) (p : Port) (f : Frame) : State :=
  if s.commandCapture.locked then s
  else
    let point := ((ReqKind.ofCode f.kind).bind ReqKind.pointOffset).bind fun i =>
      if i < f.body.length then some (f.point i) else none
    { s with commandCapture := { s.commandCapture with
        contents := some { port := p, tag := f.tag, kind := f.kind, point := point, stamp := taken } } }

/-- The load of the command capture record by a request taken now. -/
def State.loadCommand (s : State) (p : Port) (f : Frame) : State := s.loadCommandAt s.now p f

/-- A refusal FORMAT, UNKNOWN_KIND or RING locks the command capture record, or sets MULTIPLE (R162, step 1). -/
def State.lockCommand (s : State) : State :=
  if s.commandCapture.locked then { s with commandCapture := { s.commandCapture with multiple := true } }
  else { s with commandCapture := { s.commandCapture with locked := true } }

/-- The load of the input capture record at a LEVEL entry (R163). -/
def State.loadInput (s : State) (e : ChangeEntry) : State :=
  if s.inputCapture.locked then s
  else { s with inputCapture := { s.inputCapture with
    contents := some { input := e.input, level := e.level, stamp := e.stamp } } }

/-- A trap or unmapped change locks the input capture record, or sets MULTIPLE (R135, step 4). -/
def State.lockInput (s : State) : State :=
  if s.inputCapture.locked then { s with inputCapture := { s.inputCapture with multiple := true } }
  else { s with inputCapture := { s.inputCapture with locked := true } }

/-- Every capture record is unlocked and its MULTIPLE flag cleared; contents stay (R95, R161, R163, R175). -/
def State.unlockAll (s : State) : State :=
  { s with
    commandCapture := { s.commandCapture with locked := false, multiple := false }
    inputCapture := { s.inputCapture with locked := false, multiple := false }
    dispatch := mapEntries (fun d => { d with failure := { d.failure with locked := false, multiple := false } })
      s.dispatch }

/-! ### The lines -/

/-- A class qualifies for the audible output (spec 03, section 3.6). -/
def State.qualifies (s : State) (c : PClass) : Bool :=
  match s.audibleThreshold with
  | none => false
  | some t => c ≤ t

/-- The AUDIBLE line (R67); RESET_N low holds it off (R176). -/
def State.audibleLine (s : State) : Bool :=
  !s.inReset && s.audibleRequest && s.points.toArray.toList.any fun r =>
    r.service == .inService && r.seqState == .alert && s.qualifies r.cls

/-- The capture records that are locked, as the bit set of Table 10-13. -/
def State.lockedSet (s : State) : List Bool :=
  [s.commandCapture.locked, s.inputCapture.locked] ++ allPorts.map fun p => (s.dsp p).failure.locked

/-- The units in LOST, units 1 to 3. -/
def State.lostSet (s : State) : List Bool := allUnits.map fun u => (s.unit u).state == .lost

/-- The FAULT line (R165); RESET_N low holds it off (R176). -/
def State.faultLine (s : State) : Bool := !s.inReset && (s.lockedSet.any id || s.lostSet.any id)

/-- XL_DIR: high while the master sends (R137). -/
def State.xlDir (s : State) : Bool := s.link.exchange.any fun x => x.phase == .sending

end Sys2Proof.Machine
end

