-- ==== Sys2Proof/Machine/Requests.lean ====
section
/-! DEFINITION. The Request Decoder (R184 to R186, R188): which frame a port takes, and the checks before the owner. -/

namespace Sys2Proof.Machine

/-- The frame the decoder of a port takes next: none while a request is in progress or a response waits (R184). -/
def State.takeable (s : State) (p : Port) : Option Frame :=
  let t := s.stn p
  if t.inProgress.isNone && t.waitResponse.isNone then t.intake.head? else none

/-- The frame equals the cached request: TAG and all bytes from LEN to the end of BODY (R184). -/
def State.isRetransmission (s : State) (p : Port) (f : Frame) : Bool :=
  match (s.stn p).cache with
  | none => false
  | some c => c.request == f

/-- The head of the intake is removed. -/
def State.popIntake (s : State) (p : Port) : State :=
  let t := s.stn p
  s.setStn p { t with intake := t.intake.tail }

/-- A frame taken as a request: out of the intake, loaded into the command capture record, in progress (R184). -/
def State.beginRequest (s : State) (p : Port) (f : Frame) : State :=
  let s1 := (s.popIntake p).loadCommand p f
  let t := s1.stn p
  s1.setStn p { t with inProgress := some { frame := f, stage := .handling } }

/-- A request in progress at the port goes to a stage. -/
def State.setStage (s : State) (p : Port) (f : Frame) (stage : Stage) : State :=
  s.setStn p { s.stn p with inProgress := some { frame := f, stage := stage } }

/-- The ring by which the request in progress is judged: that of the port when the request was taken (R188). -/
def State.requestRing (s : State) (p : Port) : Ring :=
  match (s.stn p).inProgress with
  | some { frame := _, stage := .waiting r _ } => r
  | _ => (s.stn p).ring

/-- The time at which the request in progress was taken (R161). -/
def State.takenAt (s : State) (p : Port) : TimeStamp :=
  match (s.stn p).inProgress with
  | some { frame := _, stage := .waiting _ t } => t
  | _ => s.now

/-- A port of ring `r` is permitted to acknowledge or reset a point (R46). -/
def PointRec.permits (pt : PointRec) (r : Ring) : Bool := r ≤ pt.ackRing

/-- The ring check (R188, R46). -/
def State.ringOk (s : State) (p : Port) (k : ReqKind) (f : Frame) : Bool :=
  let r := s.requestRing p
  match k.ringRule with
  | .atMost m => r ≤ m
  | .permitted m => r ≤ m && (s.pt (f.point 0)).permits r

/-- The four values a SET_POINT in RUN may not change equal the point's present ones (R25). -/
def State.samePoint (s : State) (f : Frame) : Bool :=
  let r := s.pt (f.point 0)
  PointKind.ofCode (f.arg 1) == some r.kind && SeqType.ofCode (f.arg 2) == some r.seqType
    && f.optPoint 6 == some r.parent && choice (f.arg 8) == some r.firstOut

/-- The mode check (Table 9-2, R25). -/
def State.modeOk (s : State) (k : ReqKind) (f : Frame) : Bool :=
  k.modeRule s.mode && (k != .setPoint || s.mode != .run || s.samePoint f)

/-- First-out is asked of a GROUP alone, and the parent is a GROUP; the point itself is left to the chain test (R26). -/
def State.pointArgumentsOk (s : State) (q : PointNo) (c : PointConfig) : Bool :=
  (!c.firstOut || c.kind == .group) &&
    match c.parent with
    | none => true
    | some g => (s.pt g).kind == .group || g == q

/-- The decoder's own BAD_ARGUMENT check (R185) on a request that has to wait for its owner; it is true for a kind that
has no argument to check. -/
def State.argumentsOk (s : State) (k : ReqKind) (f : Frame) : Bool :=
  match k with
  | .setPoint => match f.pointConfig with
    | none => false
    | some c => s.pointArgumentsOk (f.point 0) c
  | .setMap => match choice (f.arg 1) with
    | none => false
    | some false => true
    | some true => (f.mapEntry MapEntry.powerOn).isSome && (s.pt (f.point 2)).kind == .field
  | .readPoint => (f.readRange 8).isSome
  | .readMap => (f.readRange 16).isSome
  | .setAudible => (thresholdOf (f.arg 0)).isSome
  | .enterRun => (choice (f.arg 0)).isSome
  | _ => true

/-- A refusal FORMAT, UNKNOWN_KIND or RING (R162, R186). -/
def State.refuseFault (s : State) (p : Port) (f : Frame) (status : Status) (detail : Detail) : State :=
  (s.lockCommand.respond p f status []).handOn
    { plainRaising .commandFault with detail := detail, reqPort := some p }

/-- The checks 3 and 4 of R185, and then what follows them. -/
def State.checkRights (s : State) (p : Port) (k : ReqKind) (f : Frame) (andThen : Frame → State → State) : State :=
  if s.ringOk p k f = false then s.refuseFault p f .ring .ring
  else if s.modeOk k f = false then s.respond p f .mode []
  else andThen f s

/-- The owner is busy with an ENTER_CONFIG claim: the request stays in progress until it is free (log 8). -/
def State.awaitOwner (s : State) (p : Port) (f : Frame) : State := s.setStage p f (.waiting (s.stn p).ring s.now)

/-- The checks of R185 on a frame taken, and then its owner. While the owner is busy with an ENTER_CONFIG claim, the decoder
makes the checks that are its own, and the request waits. -/
def State.checkRequest (s : State) (p : Port) (k : ReqKind) (f : Frame) (owner : Frame → State → State) : State :=
  if f.body.length ≠ k.bodyLength then s.refuseFault p f .format .format
  else if k.waitsForEngine && s.engineClaim.isSome then
    if k.checkedByEngine then s.awaitOwner p f
    else s.checkRights p k f fun f s =>
      if s.argumentsOk k f then s.awaitOwner p f else s.respond p f .badArgument []
  else s.checkRights p k f owner

/-- The owner takes a request that has waited for it: the Point Engine makes the checks left to it, and every other owner
makes the mode check again (R185). A refusal RING locks the command capture record on the refused request's own load, and
not on one that another port's request has made since (R162). -/
def State.ownerTakes (s : State) (p : Port) (k : ReqKind) (f : Frame) (owner : Frame → State → State) : State :=
  if k.checkedByEngine then
    (if s.ringOk p k f then s else s.loadCommandAt (s.takenAt p) p f).checkRights p k f owner
  else if s.modeOk k f = false then s.respond p f .mode []
  else owner f s

/-- The request in progress at a port waits for its owner, and the owner is free to take it. -/
def State.ownerDue (s : State) (p : Port) : Option Frame :=
  match (s.stn p).inProgress with
  | some { frame := f, stage := .waiting _ _ } => if s.engineClaim = none then some f else none
  | _ => none

/-- The frame `f` is one that the row of `k` stands for: of that kind and of the row's form. -/
def rowNames (k : ReqKind) (form : Frame → Bool) (f : Frame) : Bool := f.kind == k.code && form f

/-- A request row. The decoder of port `p` takes the frame at the head of its intake, and the request is checked and carried
out; or the owner takes the request of the row that waits for it in progress. Where there is no such frame or request,
the row's event does not occur and nothing changes (log 2). -/
def State.runRequest (s : State) (p : Port) (k : ReqKind) (form : Frame → Bool) (owner : Frame → State → State) :
    State :=
  match s.ownerDue p, s.takeable p with
  | some f, _ => if rowNames k form f then (s.ownerTakes p k f owner).settle else s
  | none, some f =>
    if rowNames k form f && !s.isRetransmission p f then ((s.beginRequest p f).checkRequest p k f owner).settle
    else s
  | none, none => s

/-- Every frame of the kind is of the row's form. -/
def anyForm (_ : Frame) : Bool := true

/-- An ACK_POINT frame with members set to yes. -/
def withMembers (f : Frame) : Bool := f.body.length == 2 && f.arg 1 == 1

/-- An ACK_POINT frame of any other content. -/
def withoutMembers (f : Frame) : Bool := !withMembers f

/-- A CLEAR_FAULT frame that names a port. -/
def namesPort (f : Frame) : Bool := f.body.length == 1 && (2 ≤ f.arg 0 && f.arg 0 ≤ 5)

/-- A CLEAR_FAULT frame of any other content. -/
def namesNoPort (f : Frame) : Bool := !namesPort f

/-- While RESET_N is low nothing happens (R176); otherwise `f` does. -/
def State.live (s : State) (f : State → State) : State := if s.inReset then s else f s

/-- The outcome type of a meaning. -/
abbrev Result := Host.Outcome State Fault Refusal

end Sys2Proof.Machine
end

