-- ==== Sys2Proof/Machine/Delivery.lean ====
section
/-! DEFINITION. The Dispatch Controllers (chapter 4): the take timer, the dispatch requests, CLEAR_FAULT naming a port,
and what a change of mode to CONFIG does at the ports. -/

namespace Sys2Proof.Machine

/-! ### The take timer (R79, R80) -/

/-- The OFFERED notice. -/
def Dispatch.offered (d : Dispatch) : Option Notice := d.queue.find? fun n => n.offered

/-- The controller with no notice OFFERED and the take timer stopped. -/
def Dispatch.unoffer (d : Dispatch) : Dispatch :=
  { d with queue := d.queue.map fun n => { n with offered := false }, takeTimer := none }

/-- A delivery failure record at a final expiry: it locks, or if locked sets MULTIPLE (R80). It keeps the contents it has,
also where the expired notice was offered while it was locked, and so did not load it (log 30). -/
def FailureRec.lock (f : FailureRec) : FailureRec :=
  if f.locked then { f with multiple := true } else { f with locked := true }

/-- The expiry of the take timer of a port. -/
def State.takeExpired (s : State) (p : Port) : State :=
  let d := s.dsp p
  match d.offered with
  | none => s
  | some n =>
    if n.count ≤ d.retries then (s.setDsp p { d.unoffer with state := .idle }).testOffer p
    else
      (s.setDsp p { d.unoffer with state := .stalled, stalled := some n.number, failure := d.failure.lock }).handOn
        { plainRaising .deliveryStall with port := some p }

/-! ### Taking a notice (R84, R86) -/

/-- The notice leaves the queue, and its class joins the in-service set or, with auto-done under AUTO rotation, becomes
L (R84, steps 1 and 2). -/
def Dispatch.taken (d : Dispatch) (n : Notice) : Dispatch :=
  { d with
    queue := d.queue.filter fun m => m.number != n.number
    inService := if d.autoDone then d.inService else joinBit d.inService n.cls.val
    lowest := if d.autoDone = true ∧ d.rotation = .auto then n.cls else d.lowest }

/-- A taken notice that was OFFERED ends its offer, and a stalled port is stalled no more (R84, step 3). -/
def State.takeNotice (s : State) (p : Port) (n : Notice) : State :=
  let d := s.dsp p
  let d1 := d.taken n
  if n.offered then (s.setDsp p { d1 with state := .idle, takeTimer := none }).withdraw p
  else if d.state = .stalled then s.setDsp p { d1 with state := .idle, stalled := none }
  else s.setDsp p d1

/-- A notice that POLL returns leaves the queue, any offer ends, and the port is IDLE (R86). -/
def State.pollNotice (s : State) (p : Port) (n : Notice) : State :=
  (s.setDsp p { (s.dsp p).unoffer.taken n with state := .idle, stalled := none }).withdraw p

/-- The response of a request at the port's own Dispatch Controller, and then the test of R77 (R186). -/
def State.respondThenOffer (s : State) (p : Port) (f : Frame) (status : Status) (results : List Byte) : State :=
  (s.respond p f status results).testOffer p

/-- The owner's part of TAKE (R84, R85). -/
def State.ownTake (s : State) (p : Port) (f : Frame) : State :=
  let k := f.arg2 0
  if k = 0 then s.respond p f .badArgument []
  else if (s.dsp p).state = .detached then s.respond p f .notAttached []
  else match (s.dsp p).queue.find? fun n => n.number == k && n.count != 0 with
    | none => s.respond p f .stale []
    | some n => ((s.takeNotice p n).testResync p).respondThenOffer p f .ok []

/-- The owner's part of POLL (R86). -/
def State.ownPoll (s : State) (p : Port) (f : Frame) : State :=
  if (s.dsp p).state = .detached then s.respond p f .notAttached []
  else match (s.dsp p).selectPoll with
    | none => s.respond p f .empty []
    | some n => ((s.pollNotice p n).testResync p).respondThenOffer p f .ok (bNotice n)

/-! ### Finishing classes (R87 to R89) -/

/-- The better of two classes in the priority order. -/
def betterClass (lowest : PClass) (found : Option PClass) (c : PClass) : Option PClass :=
  match found with
  | none => some c
  | some b => if rankOf lowest c < rankOf lowest b then some c else some b

/-- The highest-ranking class in service. -/
def Dispatch.topInService (d : Dispatch) : Option PClass :=
  (allClasses.filter fun c => hasBit d.inService c.val).foldl (betterClass d.lowest) none

/-- A class leaves the in-service set; L follows where `rotate` says so. -/
def Dispatch.finish (d : Dispatch) (c : PClass) (rotate : Bool) : Dispatch :=
  { d with inService := dropBit d.inService c.val, lowest := if rotate then c else d.lowest }

/-- A refusal that raises DONE_ERROR (R89). -/
def State.refuseDone (s : State) (p : Port) (f : Frame) (status : Status) : State :=
  (s.respond p f status []).handOn { plainRaising .doneError with port := some p, reqPort := some p }

/-- The owner's part of DONE (R87). -/
def State.ownDone (s : State) (p : Port) (f : Frame) : State :=
  let d := s.dsp p
  if d.state = .detached then s.respond p f .notAttached []
  else match d.topInService with
    | none => s.refuseDone p f .nothingInService
    | some c => (s.setDsp p (d.finish c (d.rotation == .auto))).respondThenOffer p f .ok (b1 c.val)

/-- The owner's part of DONE_CLASS (R88). -/
def State.ownDoneClass (s : State) (p : Port) (f : Frame) : State :=
  let d := s.dsp p
  match below 8 (f.arg 0), choice (f.arg 1) with
  | some c, some rotate =>
    if d.state = .detached then s.respond p f .notAttached []
    else if d.inService = 0 then s.refuseDone p f .nothingInService
    else if hasBit d.inService c.val = false then s.refuseDone p f .notInService
    else (s.setDsp p (d.finish c (rotate || d.rotation == .auto))).respondThenOffer p f .ok []
  | _, _ => s.respond p f .badArgument []

/-! ### Settings and attachment (R90 to R93) -/

/-- The owner's part of SET_LOWEST (R90). -/
def State.ownSetLowest (s : State) (p : Port) (f : Frame) : State :=
  match below 8 (f.arg 0) with
  | none => s.respond p f .badArgument []
  | some c => (s.setDsp p { s.dsp p with lowest := c }).respondThenOffer p f .ok []

/-- The five settings are stored (R91). -/
def Dispatch.configured (d : Dispatch) (c : DispatchConfig) : Dispatch :=
  { d with mask := c.mask, nesting := c.nesting, rotation := c.rotation, autoDone := c.autoDone, polled := c.polled }

/-- Settings stored; turning polled on while a notice is OFFERED cancels the offer (R91). -/
def State.storeDispatch (s : State) (p : Port) (c : DispatchConfig) : State :=
  let d := (s.dsp p).configured c
  if c.polled = true ∧ d.state = .offering then (s.setDsp p { d.unoffer with state := .idle }).withdraw p
  else s.setDsp p d

/-- The owner's part of SET_DISPATCH (R91). -/
def State.ownSetDispatch (s : State) (p : Port) (f : Frame) : State :=
  match f.dispatchConfig with
  | none => s.respond p f .badArgument []
  | some c => (s.storeDispatch p c).respondThenOffer p f .ok []

/-- The owner's part of ATTACH (R92). -/
def State.ownAttach (s : State) (p : Port) (f : Frame) : State :=
  if (s.dsp p).state = .detached then
    ((s.setDsp p { s.dsp p with state := .idle }).enqueue p .resync controlClass).respondThenOffer p f .ok []
  else s.respond p f .ok []

/-- The controller flushed: no notice, no class in service, nothing pending, no stall; the dispatch state is `st`
(R93, R94). -/
def Dispatch.flushed (d : Dispatch) (st : DispatchState) : Dispatch :=
  { d with queue := [], inService := 0, resyncPending := false, stalled := none, takeTimer := none, state := st }

/-- Any offer is abandoned and the port flushed. -/
def State.flushPort (s : State) (p : Port) (st : DispatchState) : State :=
  (s.setDsp p ((s.dsp p).flushed st)).withdraw p

/-- The owner's part of DETACH (R93). -/
def State.ownDetach (s : State) (p : Port) (f : Frame) : State :=
  if (s.dsp p).state = .detached then s.respond p f .ok []
  else (s.flushPort p .detached).respond p f .ok []

/-! ### The mode becomes CONFIG (R94) -/

/-- One port when the mode becomes CONFIG; a detached port is not touched. -/
def State.configPort (s : State) (p : Port) : State :=
  if (s.dsp p).state = .detached then s
  else (((s.flushPort p .idle).enqueue p .resync controlClass).enqueue p (.mode .config) controlClass).testOffer p

/-- Every port (R94), in the port order of log 31. -/
def State.configPorts (s : State) : State := allPorts.foldl State.configPort s

/-! ### CLEAR_FAULT naming a port (R83) -/

/-- The queue of a stalled port whose stalled notice, of number `k`, becomes never-offered again: it takes class and
content of another never-offered notice of its identity, which leaves the queue (R83, steps 1 and 2). -/
def reviveStalled (k : Nat) (q : List Notice) : List Notice :=
  match q.find? fun n => n.number == k with
  | none => q
  | some n =>
    match q.find? fun m => m.number != k && coalescesInto n.content.identity m with
    | none => updateNotice k (fun n => { n with count := 0 }) q
    | some m =>
      updateNotice k (fun n => { n with count := 0, cls := m.cls, content := m.content })
        (q.filter fun x => x.number != m.number)

/-- The delivery failure record is unlocked and MULTIPLE cleared, and a stall ends. -/
def Dispatch.faultCleared (d : Dispatch) : Dispatch :=
  let d1 := { d with failure := { d.failure with locked := false, multiple := false } }
  if d.state = .stalled then
    { d1 with queue := reviveStalled (d.stalled.getD 0) d.queue, stalled := none, state := .idle }
  else d1

/-- The CLEAR record of a CLEAR_FAULT (R98). -/
def clearFaultDraft (locked multiple : Bool) (name : CaptureName) (p : Port) (stamp : TimeStamp) : RecordDraft :=
  { stamp := stamp, body := .clearFault locked multiple name, point := none, input := none, port := some p
    cause := none }

/-- The owner's part of CLEAR_FAULT naming port `q`. -/
def State.ownClearFaultPort (s : State) (p : Port) (f : Frame) : State :=
  match below 4 (f.arg 0 - 2) with
  | none => s.respond p f .badArgument []
  | some q =>
    let d := s.dsp q
    let s1 := s.setDsp q d.faultCleared
    let s2 := s1.append false (clearFaultDraft d.failure.locked d.failure.multiple (.port q) p s.now)
    (s2.respond p f .ok []).testOffer q

/-! ### The events -/

/-- TAKE_TIMER_EXPIRY, R79 and R80. -/
def execTakeTimerExpiry (p : Port) (s : State) : Result :=
  .next (s.live fun s => if (s.dsp p).takeTimer = some 0 then (s.takeExpired p).settle else s)

/-- TAKE, R84 and R85. -/
def execTake (p : Port) (s : State) : Result :=
  .next (s.live fun s => s.runRequest p .take anyForm fun f t => t.ownTake p f)

/-- POLL, R86. -/
def execPoll (p : Port) (s : State) : Result :=
  .next (s.live fun s => s.runRequest p .poll anyForm fun f t => t.ownPoll p f)

/-- DONE, R87. -/
def execDone (p : Port) (s : State) : Result :=
  .next (s.live fun s => s.runRequest p .done anyForm fun f t => t.ownDone p f)

/-- DONE_CLASS, R88. -/
def execDoneClass (p : Port) (s : State) : Result :=
  .next (s.live fun s => s.runRequest p .doneClass anyForm fun f t => t.ownDoneClass p f)

/-- SET_LOWEST, R90. -/
def execSetLowest (p : Port) (s : State) : Result :=
  .next (s.live fun s => s.runRequest p .setLowest anyForm fun f t => t.ownSetLowest p f)

/-- SET_DISPATCH, R91. -/
def execSetDispatch (p : Port) (s : State) : Result :=
  .next (s.live fun s => s.runRequest p .setDispatch anyForm fun f t => t.ownSetDispatch p f)

/-- ATTACH, R92. -/
def execAttach (p : Port) (s : State) : Result :=
  .next (s.live fun s => s.runRequest p .attach anyForm fun f t => t.ownAttach p f)

/-- DETACH, R93. -/
def execDetach (p : Port) (s : State) : Result :=
  .next (s.live fun s => s.runRequest p .detach anyForm fun f t => t.ownDetach p f)

/-- CLEAR_FAULT naming a port, R83. -/
def execClearFaultPort (p : Port) (s : State) : Result :=
  .next (s.live fun s => s.runRequest p .clearFault namesPort fun f t => t.ownClearFaultPort p f)

end Sys2Proof.Machine
end

