-- ==== Sys2Proof/Machine/Engine.lean ====
section
/-! DEFINITION. The Point Engine's shared operations (chapters 1 to 3): the sequence tables, what a change emits,
re-evaluation and its way up the parent chain, acknowledgement, reset, shelving and return to service. -/

namespace Sys2Proof.Machine

/-- What the records of one handling have in common: stamp, input address and port (R19, R20, R35, R48). -/
structure Claim where
  stamp : TimeStamp
  input : Option InputNo
  port : Option Port
  deriving DecidableEq, Repr

/-! ### The sequence tables (R14 to R16) -/

/-- The events of a sequence machine (spec 01, section 1.6). -/
inductive SeqEvent where
  | up
  | down
  | ack
  | reset
  deriving DecidableEq, Repr

/-- Table 1-2. `none` is a refusal, or a cell marked n/a (log 16). -/
def autoTable (st : SeqState) (e : SeqEvent) : Option SeqState :=
  match st, e with
  | .normal, .up => some .alert
  | .alert, .down => some .returnUnacked
  | .alert, .ack => some .acked
  | .acked, .down => some .normal
  | .returnUnacked, .up => some .alert
  | .returnUnacked, .ack => some .normal
  | _, _ => none

/-- Table 1-3. -/
def ringbackTable (st : SeqState) (e : SeqEvent) : Option SeqState :=
  match st, e with
  | .normal, .up => some .alert
  | .alert, .down => some .returnUnacked
  | .alert, .ack => some .acked
  | .acked, .down => some .ringback
  | .returnUnacked, .up => some .alert
  | .returnUnacked, .ack => some .ringback
  | .ringback, .up => some .alert
  | .ringback, .reset => some .normal
  | _, _ => none

/-- Table 1-4; `c` is the condition before the event, which tells the two rows of ACKED apart. -/
def latchTable (st : SeqState) (c : Condition) (e : SeqEvent) : Option SeqState :=
  match st, e with
  | .normal, .up => some .alert
  | .alert, .down => some .returnUnacked
  | .alert, .ack => some .acked
  | .acked, .down => if c = .abnormal then some .acked else none
  | .acked, .up => if c = .normal then some .alert else none
  | .acked, .reset => if c = .normal then some .normal else none
  | .returnUnacked, .up => some .alert
  | .returnUnacked, .ack => some .acked
  | _, _ => none

/-- The cell of a point's sequence type. -/
def seqTable (t : SeqType) (st : SeqState) (c : Condition) (e : SeqEvent) : Option SeqState :=
  match t with
  | .auto => autoTable st e
  | .ringback => ringbackTable st e
  | .latch => latchTable st c e

/-! ### What a change emits (R19 to R24) -/

/-- The first-member flag of a point: its parent is a first-out group whose first member it is (R43). -/
def State.isFirstMember (s : State) (p : PointNo) : Bool :=
  match (s.pt p).parent with
  | none => false
  | some g => (s.pt g).firstOut && (s.pt g).firstMember == some p

/-- The picture of a point (R22). -/
def State.picture (s : State) (p : PointNo) : Picture :=
  let r := s.pt p
  { point := p, seqState := r.seqState, condition := r.condition, quality := r.quality, service := r.service
    firstMemberFlag := s.isFirstMember p
    groupFirstMember := if r.kind = .group ∧ r.firstOut = true then r.firstMember else none
    lastChange := r.lastChange }

/-- One POINT notice at each port of the subscriber mask, in port order (R22). -/
def State.placePoint (s : State) (p : PointNo) : State :=
  allPorts.foldl
    (fun t q => if hasBit (s.pt p).subs q.val then t.place q (.point (s.picture p)) (s.pt p).cls else t) s

/-- A point record is appended, the last change field follows, and the notices are placed (R19, R21, R22). -/
def State.emitPoint (s : State) (c : Claim) (p : PointNo) (cause : Cause) (body : RecordBody) : State :=
  let s1 := s.append false
    { stamp := c.stamp, body := body, point := some p, input := c.input, port := c.port, cause := some cause }
  let s2 := s1.setPt p { s1.pt p with lastChange := some (s.log.next, c.stamp) }
  s2.placePoint p

/-- A POINT_STATE record of the point as it now stands, from state `before` (R98). -/
def PointRec.stateBody (r : PointRec) (before : SeqState) : RecordBody :=
  .pointState before r.seqState r.condition
    (if r.kind = .group ∧ r.firstOut = true then r.firstMember else none)

/-- An IN_SERVICE point of a qualifying class that has entered ALERT sets the audible request (R24). -/
def State.testAudible (s : State) (p : PointNo) (before : SeqState) : State :=
  let r := s.pt p
  if r.service = .inService ∧ r.seqState = .alert ∧ before ≠ .alert ∧ s.qualifies r.cls = true then
    { s with audibleRequest := true }
  else s

/-- The point goes to sequence state `st` with its record and notices; an entry into ALERT then sets the audible
request if the class qualifies (R19, R24). -/
def State.transition (s : State) (c : Claim) (p : PointNo) (cause : Cause) (st : SeqState) : State :=
  let r := s.pt p
  let r1 := { r with seqState := st }
  ((s.setPt p r1).emitPoint c p cause (r1.stateBody r.seqState)).testAudible p r.seqState

/-- The first member of a group takes a value, with its record of cause MEMBER (R40). -/
def State.setFirstMember (s : State) (c : Claim) (p : PointNo) (m : Option PointNo) : State :=
  let r := { s.pt p with firstMember := m }
  (s.setPt p r).emitPoint c p .member (r.stateBody r.seqState)

/-- A first-out group whose sequence state is NORMAL has its first member cleared, if one is held (R42). -/
def State.clearFirstMember (s : State) (c : Claim) (p : PointNo) : State :=
  let r := s.pt p
  if r.firstOut = true ∧ r.seqState = .normal ∧ r.firstMember.isSome = true then s.setFirstMember c p none else s

/-- The quality step of a re-evaluation (R12): a quality that differs is recorded with its record and notices. -/
def State.recordQuality (s : State) (c : Claim) (p : PointNo) (cause : Cause) (q : PointQuality) : State :=
  let r := s.pt p
  if r.quality = q then s
  else (s.setPt p { r with quality := q }).emitPoint c p cause (.pointQuality r.quality q)

/-- The condition step of a re-evaluation (R12): a condition that differs is recorded, and becomes C↑ or C↓ of the
sequence machine of a point that is IN_SERVICE and not SPARE. -/
def State.recordCondition (s : State) (c : Claim) (p : PointNo) (cause : Cause) (cond : Condition) : State :=
  let r := s.pt p
  if r.condition = cond then s
  else
    let s1 := s.setPt p { r with condition := cond }
    let event := if cond = .abnormal then SeqEvent.up else SeqEvent.down
    match seqTable r.seqType r.seqState r.condition event with
    | none => s1
    | some st => if r.service = .inService ∧ r.kind ≠ .spare then s1.transition c p cause st else s1

/-! ### Condition and quality -/

/-- The entry binds its input to the point. -/
def MapEntry.names (e : MapEntry) (p : PointNo) : Bool := e.valid && e.point == some p

/-- The entry gives the point a contribution: valid and no trap entry (R5, R6). -/
def MapEntry.contributes (e : MapEntry) (p : PointNo) : Bool := e.names p && !e.trap

/-- The contribution of an entry is abnormal (R5, R6). -/
def MapEntry.abnormal (e : MapEntry) : Bool :=
  match e.mode with
  | .level => e.appliedLevel != e.normal
  | .pulse => e.latch

/-- The condition of a FIELD point from its contributions (R8). -/
def State.fieldCondition (s : State) (p : PointNo) : Condition :=
  if s.map.toArray.toList.any fun e => e.contributes p && e.abnormal then .abnormal else .normal

/-- The quality of a FIELD point from the applied qualities of its contributing entries, in the precedence
UNIT_LOST, DISCREPANT, CHATTER (R9). -/
def State.fieldQuality (s : State) (p : PointNo) : PointQuality :=
  let has := fun q => s.map.toArray.toList.any fun e => e.contributes p && e.appliedQuality == q
  if has .unitLost then .suspectUnitLost
  else if has .discrepant then .suspectDiscrepant
  else if has .chatter then .suspectChatter
  else .good

/-- The point is a child of `g` that counts: IN_SERVICE (spec 02, section 2.1). -/
def PointRec.countsIn (r : PointRec) (g : PointNo) : Bool := r.parent == some g && r.service == .inService

/-- The condition of a group from its children (R31). -/
def State.groupCondition (s : State) (g : PointNo) : Condition :=
  if s.points.toArray.toList.any fun r => r.countsIn g && r.condition == .abnormal then .abnormal else .normal

/-- The quality of a group from its children (R32). -/
def State.groupQuality (s : State) (g : PointNo) : PointQuality :=
  if s.points.toArray.toList.any fun r => r.countsIn g && r.quality != .good then .suspectMember else .good

/-! ### Re-evaluation (R12, R34) -/

/-- A FIELD point is re-evaluated: quality, and if it is GOOD the condition; a transition that follows a return of
quality carries QUALITY_RETURN (R8 to R12). -/
def State.reevalField (s : State) (c : Claim) (p : PointNo) (cause : Cause) : State :=
  let q := s.fieldQuality p
  let back := (s.pt p).quality != .good
  let s1 := s.recordQuality c p cause q
  if q = .good then s1.recordCondition c p (if back then .qualityReturn else cause) (s1.fieldCondition p) else s1

/-- A GROUP point is re-evaluated: quality, condition whatever the quality (R33), and then the first member. A group
that `child` takes from NORMAL to ABNORMAL while it is IN_SERVICE in sequence state NORMAL names that child (R41);
one whose sequence state is NORMAL holds none (R42). -/
def State.reevalGroup (s : State) (c : Claim) (g : PointNo) (child : Option PointNo) (cause : Cause) : State :=
  let r := s.pt g
  let s1 := s.recordQuality c g cause (s.groupQuality g)
  let cond := s1.groupCondition g
  let s2 := s1.recordCondition c g cause cond
  match child with
  | some m =>
    if r.firstOut = true ∧ r.service = .inService ∧ r.seqState = .normal ∧ r.condition = .normal ∧ cond = .abnormal then
      s2.setFirstMember c g (some m)
    else s2.clearFirstMember c g
  | none => s2.clearFirstMember c g

/-- Condition, quality or service of a point differ between two states: the test of R34. -/
def changedBetween (s t : State) (p : PointNo) : Bool :=
  !((s.pt p).condition == (t.pt p).condition && (s.pt p).quality == (t.pt p).quality
    && (s.pt p).service == (t.pt p).service)

/-- The parent of a point that has changed is re-evaluated with cause MEMBER, and so on up the chain, which has at
most three links (R34, R38). -/
def State.propagate : Nat → Claim → PointNo → State → State
  | 0, _, _, s => s
  | n + 1, c, p, s =>
    match (s.pt p).parent with
    | none => s
    | some g =>
      if (s.pt g).kind = .group then
        let t := s.reevalGroup c g (some p) .member
        if changedBetween s t g then State.propagate n c g t else t
      else s

/-- The parent chain of a changed point is brought up to date. -/
def State.carryUp (s : State) (c : Claim) (p : PointNo) : State := State.propagate Config.maxLinks c p s

/-- A point is re-evaluated because of a claim on itself, and a change of condition, quality or service is carried up
(R12). -/
def State.reevaluate (s : State) (c : Claim) (p : PointNo) (cause : Cause) : State :=
  let t := match (s.pt p).kind with
    | .field => s.reevalField c p cause
    | .group => s.reevalGroup c p none cause
    | .spare => s
  if changedBetween s t p then t.carryUp c p else t

/-! ### Acknowledgement and reset -/

/-- The point is in a state that an ACK takes (R49). -/
def PointRec.acknowledgeable (r : PointRec) : Bool := r.seqState == .alert || r.seqState == .returnUnacked

/-- The pulse latches of every map entry bound to the point are cleared (R7). -/
def State.clearLatches (s : State) (p : PointNo) : State :=
  { s with map := mapEntries (fun e => if e.names p then { e with latch := false } else e) s.map }

/-- The acknowledgement of one point in ALERT or RETURN_UNACKED (R49). -/
def State.acknowledge (s : State) (c : Claim) (p : PointNo) : State :=
  let r := s.pt p
  let s1 := match seqTable r.seqType r.seqState r.condition .ack with
    | none => s
    | some st => (s.transition c p .ack st).clearFirstMember c p
  (s1.clearLatches p).reevaluate c p .latchClear

/-- One point is offered to the acknowledgement from a port of ring `r`: the state, and the count (R51, R52). -/
def offerAck (c : Claim) (r : Ring) (acc : State × Nat) (p : PointNo) : State × Nat :=
  if (acc.1.pt p).permits r && (acc.1.pt p).acknowledgeable then (acc.1.acknowledge c p, acc.2 + 1) else acc

/-- The points of a list are offered in turn. -/
def State.ackList (s : State) (c : Claim) (r : Ring) (l : List PointNo) : State × Nat := l.foldl (offerAck c r) (s, 0)

/-- The RESET cell of a point is a transition (R53). -/
def PointRec.resetTo (r : PointRec) : Option SeqState := seqTable r.seqType r.seqState r.condition .reset

/-- The reset of one point whose RESET cell goes to `st` (R53). -/
def State.resetTo (s : State) (c : Claim) (p : PointNo) (st : SeqState) : State :=
  (s.transition c p .reset st).clearFirstMember c p

/-- One point is offered to the reset (R54). -/
def offerReset (c : Claim) (r : Ring) (acc : State × Nat) (p : PointNo) : State × Nat :=
  if (acc.1.pt p).permits r then
    match (acc.1.pt p).resetTo with
    | none => acc
    | some st => (acc.1.resetTo c p st, acc.2 + 1)
  else acc

/-! ### Chains (R38, R39) -/

/-- The number of links from a point to the top of its chain, held at `n` (spec 02, section 2.4). -/
def State.depth (s : State) : Nat → PointNo → Nat
  | 0, _ => 0
  | n + 1, p =>
    match (s.pt p).parent with
    | none => 0
    | some g => State.depth s n g + 1

/-- A depth that no admitted chain reaches: the search for depths and heights stops there. -/
def chainBound : Nat := Config.maxLinks + 1

/-- `g` lies at most `n` links above `p`, or is `p`. -/
def State.onChain (s : State) (g : PointNo) : Nat → PointNo → Bool
  | 0, p => p == g
  | n + 1, p =>
    p == g || match (s.pt p).parent with
      | none => false
      | some q => State.onChain s g n q

/-- The height of a point, held at `n`: the longest chain of links below it. -/
def State.height (s : State) : Nat → PointNo → Nat
  | 0, _ => 0
  | n + 1, p =>
    allPoints.foldl (fun m q => if (s.pt q).parent == some p then max m (State.height s n q + 1) else m) 0

/-- The chain test of R39 for point `p` and requested parent `g` fails; `p`'s present parent link is disregarded. -/
def State.chainRefused (s : State) (p g : PointNo) : Bool :=
  let t := s.setPt p { s.pt p with parent := none }
  t.onChain p chainBound g || Config.maxLinks < t.depth chainBound g + 1 + t.height chainBound p

/-- The descendants of a point in ascending order (R51). -/
def State.descendants (s : State) (p : PointNo) : List PointNo :=
  allPoints.filter fun q => q != p && s.onChain p Config.maxLinks q

/-! ### Service (R56 to R63) -/

/-- The service of a point changes, with its record and notices; the shelve timer follows. -/
def State.setService (s : State) (c : Claim) (p : PointNo) (cause : Cause) (v : Service) (timer : Option Nat) : State :=
  let r := s.pt p
  (s.setPt p { r with service := v, shelveTimer := timer }).emitPoint c p cause (.pointService r.service v)

/-- A sequence state other than NORMAL is forced to NORMAL (R56, step 1). -/
def State.forceNormal (s : State) (c : Claim) (p : PointNo) (cause : Cause) : State :=
  if (s.pt p).seqState = .normal then s else s.transition c p cause .normal

/-- The steps by which a point leaves annunciation in RUN (R56, R62). -/
def State.leaveService (s : State) (c : Claim) (p : PointNo) (cause : Cause) (v : Service) (timer : Option Nat) :
    State :=
  (((s.forceNormal c p cause).setService c p cause v timer).clearFirstMember c p).carryUp c p

/-- The steps by which a point returns to service in RUN (R59, R63). -/
def State.returnToService (s : State) (c : Claim) (p : PointNo) (cause : Cause) : State :=
  let s1 := s.setService c p cause .inService none
  let r := s1.pt p
  (if r.condition = .abnormal ∧ r.kind ≠ .spare then s1.transition c p cause .alert else s1).carryUp c p

/-! ### Applying a change entry (R4, R6, R133 to R136) -/

/-- The entry after an applied level: a PULSE-mode entry that is no trap entry sets its latch when the level moves
from the normal level to the other (R4, R6). -/
def MapEntry.applyLevel (e : MapEntry) (l : Level) : MapEntry :=
  { e with
    appliedLevel := l
    latch := e.latch || (!e.trap && e.mode == .pulse && e.appliedLevel == e.normal && l != e.normal) }

/-- The cause that a change entry carries (R12). -/
def ChangeEntry.cause (e : ChangeEntry) : Cause := if e.coalesced then .inputCoalesced else .input

/-- The claim that a change entry begins (R19, R20). -/
def ChangeEntry.claim (e : ChangeEntry) : Claim := { stamp := e.stamp, input := some e.input, port := none }

/-- The INPUT record of a change entry (R98, R100). -/
def State.recordInput (s : State) (e : ChangeEntry) (before : Option Level) (d : Disposition)
    (mapped : Option PointNo) : State :=
  s.append false
    { stamp := e.stamp, body := .input before e.level e.quality d mapped, point := none, input := some e.input
      port := none, cause := some e.cause }

/-- The level of a change entry is applied through a valid, non-trap map entry, with an INPUT record if it changed
and the record flag asks for one (R134, step 2; R136). -/
def State.applyThrough (s : State) (e : ChangeEntry) (m : MapEntry) : State :=
  let s1 := s.setEnt e.input m
  let m0 := s.ent e.input
  if m0.appliedLevel ≠ e.level ∧ m0.record = true then s1.recordInput e (some m0.appliedLevel) .recorded m0.point
  else s1

/-- The re-evaluation of the point that a map entry names. -/
def State.reevalMapped (s : State) (e : ChangeEntry) (m : MapEntry) : State :=
  match m.point with
  | none => s
  | some p => s.reevaluate e.claim p e.cause

/-- A LEVEL entry, after R133 (R134, R135). -/
def State.handleLevel (s : State) (e : ChangeEntry) : State :=
  let m := s.ent e.input
  let s1 := s.loadInput e
  if m.valid = true ∧ m.trap = false then
    let m1 := if e.level = m.appliedLevel then m else m.applyLevel e.level
    let s2 := s1.applyThrough e m1
    if m1 ≠ m ∨ e.quality ≠ m.appliedQuality then s2.reevalMapped e m else s2
  else if m.valid = true then
    let s2 := (s1.setEnt e.input { m with appliedLevel := e.level }).recordInput e (some m.appliedLevel) .trap m.point
    (s2.handOn { plainRaising .inputTrap with input := some e.input }).lockInput
  else
    let s2 := s1.recordInput e none .unmapped none
    (s2.handOn { plainRaising .unmappedInput with input := some e.input }).lockInput

/-- A QUALITY entry, after R133 (R136). -/
def State.handleQuality (s : State) (e : ChangeEntry) : State :=
  let m := s.ent e.input
  if m.valid = true ∧ m.trap = false then
    let m0 := if e.level = m.appliedLevel then m else m.applyLevel e.level
    let m1 := { m0 with appliedQuality := e.quality }
    let s2 := s.applyThrough e m1
    if m1 ≠ m then s2.reevalMapped e m else s2
  else if m.valid = true then s.setEnt e.input { m with appliedLevel := e.level, appliedQuality := e.quality }
  else s

end Sys2Proof.Machine
end

