-- ==== Sys2Proof/Machine/Field.lean ====
section
/-! DEFINITION. The field path (chapter 6): the Input Scanner, the Input Filter, the change queue, and the events of
both with the two events by which the Point Engine takes an entry. -/

namespace Sys2Proof.Machine

/-! ### The change queue (R123 to R126) -/

/-- An entry of the input's present level and reported quality (Table 6-2). -/
def State.entryOf (s : State) (kind : EntryKind) (i : InputNo) (stamp : TimeStamp) (coalesced : Bool) : ChangeEntry :=
  { kind := kind, input := i, level := (s.inp i).level, quality := (s.inp i).reported, stamp := stamp
    coalesced := coalesced }

/-- An entry goes to the tail, and the input's last queued level and quality follow it (R124). -/
def State.appendEntry (s : State) (e : ChangeEntry) : State :=
  let s1 := { s with changeQueue := s.changeQueue ++ [e] }
  s1.setInp e.input { s.inp e.input with queuedLevel := e.level, queuedQuality := e.quality }

/-- An input whose entry found the queue full (R125). -/
def State.deferInput (s : State) (i : InputNo) : State :=
  (s.setInp i { s.inp i with deferred := true }).handOn (plainRaising .changeDeferred)

/-- An entry produced: none in CONFIG (R123), none for a deferred input, appended while there is a place, and
otherwise the input is deferred (R124, R125). -/
def State.queueEntry (s : State) (e : ChangeEntry) : State :=
  if s.mode = .config ∨ (s.inp e.input).deferred = true then s
  else if s.changeQueue.length < Config.changeCapacity then s.appendEntry e
  else s.deferInput e.input

/-- The entry of an input at the end of a claim, judged against its record before the claim (R123). -/
def State.produce (s : State) (before : InputRec) (i : InputNo) (stamp : TimeStamp) : State :=
  let r := s.inp i
  if r.reported ≠ before.reported then s.queueEntry (s.entryOf .quality i stamp false)
  else if r.reported = .good ∧ r.level ≠ before.level then s.queueEntry (s.entryOf .level i stamp false)
  else s

/-- One deferred input is served: its mark is cleared, and an entry follows if what it reports differs from what was
last queued for it (R126). -/
def State.catchOne (s : State) (i : InputNo) : State :=
  let r := s.inp i
  let s1 := s.setInp i { r with deferred := false }
  if r.reported ≠ r.queuedQuality then
    s1.appendEntry (s1.entryOf .quality i (r.lastQualityChange.getD s.now) true)
  else if r.reported = .good ∧ r.level ≠ r.queuedLevel then
    s1.appendEntry (s1.entryOf .level i (r.lastChange.getD s.now) true)
  else s1

/-- The deferred input with the lowest address. -/
def State.lowestDeferred (s : State) : Option InputNo :=
  (s.inputs.toArray.toList.findIdx? fun r => r.deferred).map (Fin.ofNat 256)

/-- The catch-up (R126); each round clears one mark, so 256 rounds end it. -/
def State.catchUp : Nat → State → State
  | 0, s => s
  | n + 1, s =>
    if s.changeQueue.length < Config.changeCapacity then
      match s.lowestDeferred with
      | none => s
      | some i => State.catchUp n (s.catchOne i)
    else s

/-! ### Quality, chatter and pairs (R118 to R122) -/

/-- The quality that a record gives, by precedence (R122). -/
def InputRec.formed (r : InputRec) : InQuality :=
  if r.unitLost then .unitLost
  else if r.discrepant then .discrepant
  else if r.chatterActive then .chatter
  else .good

/-- The reported quality is formed afresh (R122). -/
def State.formQuality (s : State) (stamp : TimeStamp) (i : InputNo) : State :=
  let r := s.inp i
  if r.reported = r.formed then s
  else s.setInp i { r with reported := r.formed, lastQualityChange := some stamp }

/-- The history after an acceptance at `now` (R118, items 1 to 3). -/
def newHistory (f : FilterSettings) (now : Elapsed) (history : List Elapsed) : List Elapsed :=
  let h := (history.filter fun t => elapsedFrom t now ≤ 1000 * f.window) ++ [now]
  if f.threshold + 1 < h.length then h.tail else h

/-- The chatter test of an accepted change (R118). -/
def InputRec.countChange (r : InputRec) (f : FilterSettings) (now : Elapsed) : InputRec :=
  let h := newHistory f now r.history
  let active := r.chatterActive || f.threshold < h.length
  { r with
    history := h
    chatterActive := active
    chatterTimer := if active then some (1000 * f.window) else r.chatterTimer }

/-- Discrepancy active takes a value on both records of a pair (R120). -/
def State.setDiscrepant (s : State) (k : PairNo) (v : Bool) : State :=
  let s1 := s.setInp (evenInput k) { s.inp (evenInput k) with discrepant := v }
  s1.setInp (oddInput k) { s1.inp (oddInput k) with discrepant := v }

/-- The test of a complementary pair (R120). -/
def State.pairTest (s : State) (k : PairNo) : State :=
  if (s.inp (evenInput k)).level = (s.inp (oddInput k)).level then
    match s.pairTimer k with
    | none => s.setPairTimer k (some s.settings.discrepancyMs)
    | some _ => s
  else (s.setPairTimer k none).setDiscrepant k false

/-! ### Claims on the Input Filter -/

/-- An accepted qualified change (R117). -/
def State.acceptChange (s : State) (i : InputNo) (l : Level) (stamp : TimeStamp) : State :=
  let r := s.inp i
  let s1 := s.setInp i ({ r with level := l, lastChange := some stamp }.countChange s.settings s.elapsed)
  if s.paired (pairOf i) then
    let p := partnerOf i
    let s2 := ((s1.pairTest (pairOf i)).formQuality stamp i).formQuality stamp p
    (s2.produce r i stamp).produce (s.inp p) p stamp
  else (s1.formQuality stamp i).produce r i stamp

/-- A remote report: discarded where its level is the one the record holds (R117). -/
def State.remoteReport (s : State) (i : InputNo) (l : Level) (stamp : TimeStamp) : State :=
  if l = (s.inp i).level then s else s.acceptChange i l stamp

/-- The expiry of a chatter end timer (R119). -/
def State.endChatter (s : State) (i : InputNo) : State :=
  let r := s.inp i
  let s1 := s.setInp i { r with chatterActive := false, history := [], chatterTimer := none }
  (s1.formQuality s.now i).produce r i s.now

/-- The expiry of a discrepancy timer (R120). -/
def State.becomeDiscrepant (s : State) (k : PairNo) : State :=
  let e := evenInput k
  let o := oddInput k
  let s1 := (((s.setPairTimer k none).setDiscrepant k true).formQuality s.now e).formQuality s.now o
  (s1.produce (s.inp e) e s.now).produce (s.inp o) o s.now

/-- Unit lost takes a value on one record. -/
def setUnitLost (v : Bool) (s : State) (i : InputNo) : State := s.setInp i { s.inp i with unitLost := v }

/-- A lost-state claim (R121). -/
def State.lostClaim (s : State) (u : UnitNo) : State :=
  let is := unitInputs u
  let s1 := is.foldl (setUnitLost true) s
  let s2 := is.foldl (State.formQuality · s.now) s1
  is.foldl (fun t i => t.produce (s.inp i) i s.now) s2

/-- One line takes its level from a snapshot (R121). -/
def takeSnapshotLevel (levels : BitVec 64) (stamp : TimeStamp) (s : State) (i : InputNo) : State :=
  let r := s.inp i
  let l := levelOfBit (hasBit levels (i.val % 64))
  if l = r.level then s else s.setInp i { r with level := l, lastChange := some stamp }

/-- A pair of a pictured unit is tested, if it is complementary. -/
def testPairSet (s : State) (k : PairNo) : State := if s.paired k then s.pairTest k else s

/-- The QUALITY entry of one input in the first pass of a snapshot (R121). -/
def snapshotQuality (before : State) (stamp : TimeStamp) (s : State) (i : InputNo) : State :=
  if (s.inp i).reported ≠ (before.inp i).reported then s.queueEntry (s.entryOf .quality i stamp true) else s

/-- The LEVEL entry of one input in the second pass of a snapshot (R121). -/
def snapshotLevel (before : State) (stamp : TimeStamp) (s : State) (i : InputNo) : State :=
  if (s.inp i).level ≠ (before.inp i).level ∧ (s.inp i).reported = .good then
    s.queueEntry (s.entryOf .level i stamp true)
  else s

/-- A snapshot claim (R121). -/
def State.snapshotClaim (s : State) (u : UnitNo) (levels : BitVec 64) (stamp : TimeStamp) : State :=
  let is := unitInputs u
  let s1 := is.foldl (takeSnapshotLevel levels stamp) s
  let s2 := is.foldl (setUnitLost false) s1
  let s3 := (unitPairs u).foldl testPairSet s2
  let s4 := is.foldl (State.formQuality · stamp) s3
  let s5 := is.foldl (snapshotQuality s stamp) s4
  is.foldl (snapshotLevel s stamp) s5

/-! ### Sampling (R114, R115) -/

/-- The debounce time of a line's group. -/
def State.debounceTime (s : State) (l : LineNo) : Nat := s.settings.debounce[l.val / 16]'(by omega)

/-- One sample of a local line (R115). -/
def State.sampleLine (s : State) (l : LineNo) (level : Level) : State :=
  let r := s.line l
  if level = r.qualified then s.setLine l { r with raw := level, run := none }
  else
    let run := r.run.getD { stamp := s.now, since := s.elapsed }
    if s.debounceTime l ≤ elapsedFrom run.since s.elapsed then
      (s.setLine l { raw := level, qualified := level, run := none }).acceptChange (lineInput l) level run.stamp
    else s.setLine l { r with raw := level, run := some run }

/-! ### SET_INPUTS at the Input Filter (R128) -/

/-- A pair whose setting a SET_INPUTS has changed is dealt with under R120, and its qualities under R122. -/
def settlePair (before : State) (s : State) (k : PairNo) : State :=
  if before.paired k = s.paired k then s
  else
    let s1 := if s.paired k then s.pairTest k else (s.setPairTimer k none).setDiscrepant k false
    (s1.formQuality s.now (evenInput k)).formQuality s.now (oddInput k)

/-- Every pair, in unit and line order. -/
def allPairs : List PairNo := (List.range 128).map fun n => Fin.ofNat 128 n

/-- The settings are stored and every change of a pair setting is dealt with (R128). -/
def State.storeSettings (s : State) (f : FilterSettings) : State :=
  allPairs.foldl (settlePair s) { s with settings := f }

/-! ### Taking an entry (R127, R133) -/

/-- The input belongs to a remote unit that is not fitted. -/
def State.unfitted (s : State) (i : InputNo) : Bool :=
  if h : 1 ≤ unitOf i ∧ unitOf i ≤ 3 then (s.unit ⟨unitOf i - 1, by omega⟩).state == .notFitted else false

/-- The Point Engine in RUN takes the head entry if it is of the kind; the freed place is caught up, and an entry of an
unfitted unit is discarded (R126, R127, R133). -/
def State.takeEntry (s : State) (kind : EntryKind) (handle : ChangeEntry → State → State) : State :=
  match s.changeQueue with
  | [] => s
  | e :: rest =>
    if s.mode = .run ∧ e.kind = kind then
      let s1 := State.catchUp 256 { s with changeQueue := rest }
      (if s.unfitted e.input then s1 else handle e s1).settle
    else s

/-! ### The events -/

/-- LINE_SAMPLE, R115. -/
def execLineSample (l : LineNo) (level : Level) (s : State) : Result :=
  .next (s.live fun s => (s.sampleLine l level).settle)

/-- QUALIFIED_CHANGE, R115: the sample at which a run has lasted the debounce time (log 5). -/
def execQualifiedChange (l : LineNo) (level : Level) (s : State) : Result :=
  .next (s.live fun s => (s.sampleLine l level).settle)

/-- CHATTER_END_EXPIRY, R119. -/
def execChatterEndExpiry (i : InputNo) (s : State) : Result :=
  .next (s.live fun s => if (s.inp i).chatterTimer = some 0 then (s.endChatter i).settle else s)

/-- DISCREPANCY_EXPIRY, R120. -/
def execDiscrepancyExpiry (k : PairNo) (s : State) : Result :=
  .next (s.live fun s => if s.pairTimer k = some 0 then (s.becomeDiscrepant k).settle else s)

/-- LEVEL_ENTRY, R134 and R135. -/
def execLevelEntry (s : State) : Result :=
  .next (s.live fun s => s.takeEntry .level fun e t => t.handleLevel e)

/-- QUALITY_ENTRY, R136. -/
def execQualityEntry (s : State) : Result :=
  .next (s.live fun s => s.takeEntry .quality fun e t => t.handleQuality e)

end Sys2Proof.Machine
end

