-- ==== Sys2Proof/Machine/Link.lean ====
section
/-! DEFINITION. The Expansion Link Controller (chapter 7): the poll cycle, exchanges, the receive automaton of the
master, what each answer and each miss does, and the requests and the RESTART step that act on the unit records. -/

namespace Sys2Proof.Machine

/-! ### Cycle and turns (R139) -/

/-- The next unit at or above an index, in address order, that has a turn in the cycle: one that is fitted, and was so
when the cycle began (R139, R147). -/
def State.nextFitted (s : State) (start : Nat) : Option UnitNo :=
  allUnits.find? fun u => start ≤ u.val && (s.unit u).state != .notFitted && !(s.unit u).newlyFitted

/-- A cycle that begins takes in every fitted unit (R139). -/
def State.takeInUnits (s : State) : State :=
  { s with link := { s.link with units := mapEntries (fun r => { r with newlyFitted := false }) s.link.units } }

/-- The message chosen from the unit's state; a NOT_FITTED unit has no turn (R139). -/
def UnitRec.messageKind (r : UnitRec) : MessageKind :=
  match r.state with
  | .notFitted | .searching | .lost => .identify
  | .resync => .snapshot
  | .online => .poll

/-- The body of the message (Table 10-11). -/
def UnitRec.messageBody (r : UnitRec) : List Byte :=
  match r.messageKind with
  | .identify => []
  | .snapshot => b1 r.debounce
  | .poll => b1 r.lastSeq

/-- The master starts to send its message to a unit (R137). -/
def State.beginExchange (s : State) (u : UnitNo) : State :=
  let r := s.unit u
  let x : Exchange :=
    { unit := u, kind := r.messageKind, void := false, phase := .sending
      message := linkFrame (u.val + 1) r.messageKind.type r.messageBody }
  { s with link := { s.link with turn := some u, exchange := some x, rx := .hunting } }

/-- A unit's turn begins with its polls this turn at 0. -/
def State.beginTurn (s : State) (u : UnitNo) : State := (s.setUnit u { s.unit u with polls := 0 }).beginExchange u

/-- The line is left with no exchange and no turn. -/
def State.quietLink (s : State) : State :=
  { s with link := { s.link with turn := none, exchange := none, rx := .hunting } }

/-- A cycle starts; one that finds every unit NOT_FITTED ends at once. -/
def State.startCycle (s : State) : State :=
  let s1 := s.takeInUnits
  match s1.nextFitted 0 with
  | none => s1.quietLink
  | some u => s1.beginTurn u

/-- The last turn has ended: the cycle ends, and a cycle that is due starts at once. -/
def State.endCycle (s : State) : State :=
  if s.link.due then { s with link := { s.link with due := false } }.startCycle else s.quietLink

/-- A unit's turn has ended: the next fitted unit has its turn, or the cycle ends. -/
def State.endTurn (s : State) (u : UnitNo) : State :=
  match s.nextFitted (u.val + 1) with
  | none => s.endCycle
  | some v => s.beginTurn v

/-- The expiry of the poll cycle timer. -/
def State.pollExpiry (s : State) : State :=
  let s1 := { s with link := { s.link with pollTimer := some s.link.pollCycle } }
  match s.link.turn with
  | none => s1.startCycle
  | some _ => { s1 with link := { s1.link with due := true } }

/-! ### Answers (R140 to R144) -/

/-- UNIT_FAULT with the unit as subject and a detail. -/
def unitFault (u : UnitNo) (d : Detail) : Raising := { plainRaising .unitFault with unit := some u, detail := d }

/-- A good identity answer (R140). -/
def State.identityMatch (s : State) (u : UnitNo) (body : List Byte) : State :=
  let r := s.unit u
  if body = b2 Config.unitTypeCode ++ b1 Config.unitLines then
    s.setUnit u { r with state := .resync, misses := 0, mismatch := false }
  else if r.mismatch then s.setUnit u { r with misses := 0 }
  else (s.setUnit u { r with misses := 0, mismatch := true }).handOn (unitFault u .mismatch)

/-- The number that bytes make, the first byte lowest: the levels of a snapshot answer (Table 10-11). -/
def lowFirst (bytes : List Byte) : Nat := bytes.foldr (fun b n => b.toNat + 256 * n) 0

/-- A good snapshot answer, arriving at the Timebase's present time (R141). -/
def State.snapshotGood (s : State) (u : UnitNo) (body : List Byte) : State :=
  let s1 := s.setUnit u { s.unit u with lastSeq := (body.getD 0 0).toNat }
  let s2 := s1.snapshotClaim u (BitVec.ofNat 64 (lowFirst (body.drop 1))) s.now
  s2.setUnit u { s2.unit u with state := .online, misses := 0 }

/-- A report of a CHANGES answer (R142). -/
structure Report where
  line : Nat
  level : Level
  age : Nat
  deriving DecidableEq, Repr

/-- The reports of a CHANGES answer, three bytes each (Table 10-11). -/
def parseReports : List Byte → List Report
  | a :: b :: c :: rest =>
    { line := a.toNat % 64, level := levelOfBit a.msb, age := 256 * b.toNat + c.toNat } :: parseReports rest
  | _ => []

/-- A report is handed to the Input Filter with the stamp of R146. -/
def handReport (u : UnitNo) (arrival : TimeStamp) (s : State) (r : Report) : State :=
  s.remoteReport (remoteInput u r.line) r.level (arrival.subMs r.age)

/-- A good CHANGES answer (R142 to R144), with what it does to the turn. -/
def State.changesGood (s : State) (u : UnitNo) (body : List Byte) (arrival : TimeStamp) : State :=
  let r := { s.unit u with misses := 0 }
  let seq := (body.getD 0 0).toNat
  let flags := body.getD 1 0
  if seq = r.lastSeq then (s.setUnit u { r with repeatTotal := saturatingSucc r.repeatTotal }).endTurn u
  else if hasBit flags 1 then
    (((s.setUnit u { r with state := .resync }).lostClaim u).handOn (unitFault u .overflow)).endTurn u
  else
    let s1 := (parseReports (body.drop 3)).foldl (handReport u arrival) (s.setUnit u { r with lastSeq := seq })
    if hasBit flags 0 then
      let s2 := s1.setUnit u { s1.unit u with polls := r.polls + 1 }
      if r.polls + 1 < Config.pollLimit then s2.beginExchange u else s2.endTurn u
    else s1.endTurn u

/-- A good answer ends the exchange; a void one has no other effect (R137, R148). -/
def State.goodAnswer (s : State) (x : Exchange) (body : List Byte) (arrival : TimeStamp) : State :=
  if x.void then s.endTurn x.unit
  else match x.kind with
    | .identify => (s.identityMatch x.unit body).endTurn x.unit
    | .snapshot => (s.snapshotGood x.unit body).endTurn x.unit
    | .poll => s.changesGood x.unit body arrival

/-! ### Misses (R145) -/

/-- A miss that is counted. -/
def State.countMiss (s : State) (u : UnitNo) : State :=
  let r := { s.unit u with missTotal := saturatingSucc (s.unit u).missTotal }
  if r.state = .resync ∨ r.state = .online then
    if r.misses + 1 < Config.missLimit then s.setUnit u { r with misses := r.misses + 1 }
    else
      let s1 := s.setUnit u { r with misses := 0, state := .lost }
      (if r.state = .online then s1.lostClaim u else s1).handOn (unitFault u .lost)
  else s.setUnit u r

/-- The end of an exchange whose timeout has expired (R137, R145, R148). -/
def State.missedAnswer (s : State) (x : Exchange) : State :=
  (if x.void then s else s.countMiss x.unit).endTurn x.unit

/-! ### Reception at the master (R137) -/

/-- The body length that the bytes after 0xC3 so far ask for; `none` where they end the frame as a discard. -/
def linkBodyLength (bytes : List Byte) : Option Nat :=
  match bytes with
  | _ :: type :: body =>
    if type = 0x81#8 then some 3
    else if type = 0x82#8 then some 9
    else if type = 0x83#8 then
      match body with
      | _ :: _ :: count :: _ => if count.toNat ≤ 8 then some (3 + 3 * count.toNat) else none
      | _ => some 3
    else none
  | _ => some 3

/-- A completed frame is a good answer to the exchange: check, address and kind (R137). -/
def Exchange.accepts (x : Exchange) (bytes : List Byte) : Bool :=
  let n := bytes.length - 2
  bytes.drop n == checkBytes (bytes.take n)
    && bytes.getD 0 0 == BitVec.ofNat 8 (x.unit.val + 1)
    && bytes.getD 1 0 == BitVec.ofNat 8 x.kind.answerType

/-- The body of a completed frame. -/
def linkBody (bytes : List Byte) : List Byte := (bytes.take (bytes.length - 2)).drop 2

/-- The receive automaton is put at `rx`. -/
def State.setLinkRx (s : State) (rx : LinkRx) : State := { s with link := { s.link with rx := rx } }

/-- One byte while the master waits for the answer of exchange `x`. -/
def State.linkByteWaiting (s : State) (x : Exchange) (b : RxByte) : State :=
  match s.link.rx with
  | .hunting => if b.value = linkStart ∧ b.stopLow = false then s.setLinkRx (.partialFrame [] s.now) else s
  | .partialFrame bytes arrival =>
    let all := bytes ++ [b.value]
    if b.stopLow then s.setLinkRx .hunting
    else match linkBodyLength all with
      | none => s.setLinkRx .hunting
      | some n =>
        if all.length < n + 4 then s.setLinkRx (.partialFrame all arrival)
        else if x.accepts all then (s.setLinkRx .hunting).goodAnswer x (linkBody all) arrival
        else s.setLinkRx .hunting

/-- One byte on XL_D; while the master is not waiting it is discarded. -/
def State.linkByte (s : State) (b : RxByte) : State :=
  match s.link.exchange with
  | none => s
  | some x => if x.phase = .sending then s else s.linkByteWaiting x b

/-- Bytes on XL_D, one after another. -/
def State.linkBytes (s : State) (bytes : List RxByte) : State := bytes.foldl State.linkByte s

/-! ### The unit requests (R147 to R150) -/

/-- An exchange outstanding with a unit is marked void. -/
def State.voidExchange (s : State) (u : UnitNo) : State :=
  { s with link := { s.link with
      exchange := s.link.exchange.map fun x => if x.unit = u then { x with void := true } else x } }

/-- The unit record after an accepted SET_UNIT. -/
def UnitRec.configured (r : UnitRec) (fitted : Bool) (debounce : Nat) : UnitRec :=
  let r1 := { r with debounce := debounce, misses := 0, mismatch := false }
  if fitted = false then { r1 with state := .notFitted, lastSeq := 0, newlyFitted := false }
  else match r.state with
    | .notFitted => { r1 with state := .searching, newlyFitted := true }
    | .online => if debounce = r.debounce then r1 else { r1 with state := .resync }
    | .searching | .resync | .lost => r1

/-- An accepted SET_UNIT: a unit that leaves ONLINE hands on a lost-state claim (R147). -/
def State.configureUnit (s : State) (u : UnitNo) (fitted : Bool) (debounce : Nat) : State :=
  let r := s.unit u
  let r1 := r.configured fitted debounce
  let s1 := (s.setUnit u r1).voidExchange u
  if r.state = .online ∧ r1.state ≠ .online then s1.lostClaim u else s1

/-- The owner's part of SET_UNIT. -/
def State.ownSetUnit (s : State) (p : Port) (f : Frame) : State :=
  match below 3 (f.arg 0 - 1), choice (f.arg 1), debounceOf (f.arg 2) with
  | some u, some fitted, some debounce =>
    if 1 ≤ f.arg 0 then (s.configureUnit u fitted debounce).respond p f .ok [] else s.respond p f .badArgument []
  | _, _, _ => s.respond p f .badArgument []

/-- The owner's part of SET_LINK (R150). -/
def State.ownSetLink (s : State) (p : Port) (f : Frame) : State :=
  if 5 ≤ f.arg 0 ∧ f.arg 0 ≤ 100 then
    { s with link := { s.link with pollCycle := f.arg 0 } }.respond p f .ok []
  else s.respond p f .badArgument []

/-- The results of READ_UNIT (R150, Table 10-13). -/
def State.unitResults (s : State) : List Byte :=
  b1 s.link.pollCycle ++ allUnits.flatMap fun u => bUnitRec (s.unit u)

/-- One unit at a RESTART: it and its exchange (R149). -/
def restartUnit (s : State) (u : UnitNo) : State :=
  let r := s.unit u
  if r.state = .notFitted then s
  else (s.setUnit u { r with state := .searching, misses := 0, mismatch := false }).voidExchange u

/-- The units that are ONLINE. -/
def State.onlineUnits (s : State) : List UnitNo := allUnits.filter fun u => (s.unit u).state == .online

/-! ### The events -/

/-- POLL_CYCLE_EXPIRY, R139. -/
def execPollCycleExpiry (s : State) : Result :=
  .next (s.live fun s => if s.link.pollTimer = some 0 then s.pollExpiry else s)

/-- LINK_MESSAGE_END, R137: the answer timeout starts. -/
def execLinkMessageEnd (s : State) : Result :=
  .next (s.live fun s => match s.link.exchange with
    | none => s
    | some x =>
      if x.phase = .sending then
        { s with link := { s.link with
            exchange := some { x with phase := .awaiting Config.answerTimeoutMs }, rx := .hunting } }
      else s)

/-- IDENTITY_ANSWER, R140. -/
def execIdentityAnswer (bytes : List RxByte) (s : State) : Result :=
  .next (s.live fun s => (s.linkBytes bytes).settle)

/-- SNAPSHOT_ANSWER, R141. -/
def execSnapshotAnswer (bytes : List RxByte) (s : State) : Result :=
  .next (s.live fun s => (s.linkBytes bytes).settle)

/-- CHANGES_ANSWER, R142. -/
def execChangesAnswer (bytes : List RxByte) (s : State) : Result :=
  .next (s.live fun s => (s.linkBytes bytes).settle)

/-- LINK_FRAME_REJECTED, R137. -/
def execLinkFrameRejected (bytes : List RxByte) (s : State) : Result :=
  .next (s.live fun s => (s.linkBytes bytes).settle)

/-- ANSWER_TIMEOUT, R145. -/
def execAnswerTimeout (s : State) : Result :=
  .next (s.live fun s => match s.link.exchange with
    | none => s
    | some x => if x.phase = .awaiting 0 then (s.missedAnswer x).settle else s)

/-- LINK_GAP_EXPIRY, R137: a partial frame ends as a discard. -/
def execLinkGapExpiry (s : State) : Result := .next (s.live fun s => s.setLinkRx .hunting)

/-- SET_UNIT, R147. -/
def execSetUnit (p : Port) (s : State) : Result :=
  .next (s.live fun s => s.runRequest p .setUnit anyForm fun f t => t.ownSetUnit p f)

/-- SET_LINK, R150. -/
def execSetLink (p : Port) (s : State) : Result :=
  .next (s.live fun s => s.runRequest p .setLink anyForm fun f t => t.ownSetLink p f)

/-- READ_UNIT, R150. -/
def execReadUnit (p : Port) (s : State) : Result :=
  .next (s.live fun s => s.runRequest p .readUnit anyForm fun f t => t.respond p f .ok t.unitResults)

end Sys2Proof.Machine
end

