-- ==== Sys2Proof/Machine/Modes.lean ====
section
/-! DEFINITION. The Mode Controller (chapter 9, R167 to R175): entering RUN, the initial evaluation, returning to
CONFIG, SET_INPUTS and READ_INPUT (which CONFIG opens), and RESTART. -/

namespace Sys2Proof.Machine

/-! ### SET_INPUTS and READ_INPUT (R128, R129) -/

/-- The owner's part of SET_INPUTS. -/
def State.ownSetInputs (s : State) (p : Port) (f : Frame) : State :=
  match f.filterSettings with
  | none => s.respond p f .badArgument []
  | some c => (s.storeSettings c).respond p f .ok []

/-- The owner's part of READ_INPUT. -/
def State.ownReadInput (s : State) (p : Port) (f : Frame) : State :=
  let first := f.arg 0
  let count := f.arg 1
  if 1 ≤ count ∧ count ≤ 8 ∧ first + count ≤ 256 then
    s.respond p f .ok (bSettings s.settings ++ (rangeFrom first count).flatMap s.bInput)
  else s.respond p f .badArgument []

/-! ### Entering RUN (R168) -/

/-- The MODE record of a change of mode, stamped with its time (R98, R100). -/
def State.recordMode (s : State) (stamp : TimeStamp) (before after : Mode) (startAcked : Option Bool) (restart : Bool)
    (p : Option Port) : State :=
  s.append false
    { stamp := stamp, body := .mode before after startAcked restart, point := none, input := none, port := p
      cause := none }

/-- The lowest input whose valid map entry names a unit that is not fitted. -/
def State.failingEntry (s : State) : Option InputNo :=
  allInputs.find? fun i => (s.ent i).valid && s.unfitted i

/-- The points of the initial evaluation in its order: FIELD and SPARE points in ascending number, then the GROUP points
from the greatest depth (R169). -/
def State.evalOrder (s : State) : List PointNo :=
  let groups := allPoints.filter fun q => (s.pt q).kind == .group
  (allPoints.filter fun q => (s.pt q).kind != .group)
    ++ [3, 2, 1, 0].flatMap fun d => groups.filter fun q => s.depth Config.maxLinks q == d

/-- The next point of an order after `q`. -/
def nextAfter (q : PointNo) : List PointNo → Option PointNo
  | [] => none
  | x :: rest => if x = q then rest.head? else nextAfter q rest

/-- Every input's last queued level and quality take its present ones (R127). -/
def InputRec.requeue (r : InputRec) : InputRec := { r with queuedLevel := r.level, queuedQuality := r.reported }

/-- The mode becomes STARTING: steps 1 to 3 of R168, for port `p`. -/
def State.startRun (s : State) (p : Port) (startAcked restart : Bool) : State :=
  let s1 := { s with startAcked := startAcked, mode := .starting, inputs := mapEntries InputRec.requeue s.inputs }
  (s1.recordMode s.now s.mode .starting (some startAcked) restart (some p)).placeMode .starting

/-- The evaluation begins with the first point of its order (R168, step 5). -/
def State.beginEvaluation (s : State) : State := { s with evalPos := s.evalOrder.head? }

/-- The owner's part of ENTER_RUN (R168). -/
def State.ownEnterRun (s : State) (p : Port) (f : Frame) : State :=
  match choice (f.arg 0) with
  | none => s.respond p f .badArgument []
  | some startAcked =>
    match s.failingEntry with
    | some i => s.respond p f .badState (b1 i.val)
    | none => ((s.startRun p startAcked false).respond p f .ok []).beginEvaluation

/-! ### The initial evaluation (R169 to R172) -/

/-- A valid entry that names the point loads its applied values, and a PULSE-mode entry its latch (R170, step 1). -/
def MapEntry.load (e : MapEntry) (r : InputRec) (startAcked : Bool) : MapEntry :=
  { e with
    appliedLevel := r.level
    appliedQuality := r.reported
    latch := e.latch || (!startAcked && e.mode == .pulse && !e.trap && r.level != e.normal) }

/-- The entries that name a point are loaded. -/
def State.loadEntries (s : State) (p : PointNo) : State :=
  { s with map := ⟨⟨List.zipWith (fun e r => if e.names p then e.load r s.startAcked else e)
      s.map.toArray.toList s.inputs.toArray.toList⟩, by simp⟩ }

/-- The claim of one evaluation: cause START, the Timebase's time, no port and no input (R169). -/
def State.startClaim (s : State) : Claim := { stamp := s.now, input := none, port := none }

/-- Quality, condition and sequence state of a point at the initial evaluation (R170, steps 2 to 4; R171). -/
def State.startPoint (s : State) (p : PointNo) (q : PointQuality) (cond : Condition) : State :=
  let c := s.startClaim
  let s1 := s.recordQuality c p .start q
  let s2 := s1.setPt p { s1.pt p with condition := cond }
  if (s2.pt p).service = .inService ∧ cond = .abnormal then
    s2.transition c p .start (if s.startAcked then .acked else .alert)
  else s2

/-- The evaluation of one point by its kind. -/
def State.evaluatePoint (s : State) (p : PointNo) : State :=
  match (s.pt p).kind with
  | .spare => s.startPoint p .good .normal
  | .field =>
    let s1 := s.loadEntries p
    s1.startPoint p (s1.fieldQuality p) (s1.fieldCondition p)
  | .group => s.startPoint p (s.groupQuality p) (s.groupCondition p)

/-- The point at the evaluation position is evaluated, if it is a GROUP as the row asks, and the position advances. -/
def State.evaluateNext (s : State) (group : Bool) : State :=
  match s.evalPos with
  | none => s
  | some p =>
    if s.mode = .starting ∧ ((s.pt p).kind == .group) = group then
      ({ s.evaluatePoint p with evalPos := nextAfter p s.evalOrder }).settle
    else s

/-- The end of the initial evaluation (R172). -/
def State.endEvaluation (s : State) : State :=
  ({ s with mode := .run }.recordMode s.now .starting .run none false none).placeMode .run

/-! ### Returning to CONFIG (R174) -/

/-- Stage 1: the mode becomes CONFIG, and the claim is handed to the Point Engine. -/
def State.leaveRun (s : State) (p : Port) (restart : Bool) : State :=
  { s with
    mode := .config, evalPos := none
    engineClaim := some { port := p, before := s.mode, restart := restart, stamp := s.now } }

/-- A point in CONFIG: sequence state and condition NORMAL, shelving ended, no first member (R174, stage 2). -/
def PointRec.quiet (r : PointRec) : PointRec :=
  { r with
    seqState := .normal
    condition := .normal
    firstMember := none
    shelveTimer := none
    service := match r.service with
      | .inService => .inService
      | .shelved _ => .inService
      | .removed => .removed }

/-- Stage 2 at the Point Engine and the change queue, without the MODE record. -/
def State.quietPoints (s : State) : State :=
  { s with
    points := mapEntries PointRec.quiet s.points
    map := mapEntries (fun e => { e with latch := false }) s.map
    audibleRequest := false
    changeQueue := []
    inputs := mapEntries (fun r => { r with deferred := false }) s.inputs }

/-- What follows stage 3: ENTER_CONFIG is answered; RESTART is answered if it found CONFIG, and otherwise its ENTER_RUN
step follows (R174, R175). -/
def State.afterConfig (s : State) (p : Port) : State :=
  match (s.stn p).inProgress with
  | none => s
  | some r =>
    match r.stage with
    | .restartConfig found => if found = .config then s.respond p r.frame .ok [] else s.setStage p r.frame .restartRun
    | .enterConfig | .handling | .waiting _ _ | .restartRun => s.respond p r.frame .ok []

/-- Stages 2 and 3 (R174). The MODE record carries the time of stage 1, when the mode changed (R100). -/
def State.takeEngineClaim (s : State) (c : EngineClaim) : State :=
  let s1 := { s with engineClaim := none }.quietPoints
  ((s1.recordMode c.stamp c.before .config none c.restart (some c.port)).configPorts).afterConfig c.port

/-- The owner's part of ENTER_CONFIG: stage 1. -/
def State.ownEnterConfig (s : State) (p : Port) (f : Frame) : State := (s.leaveRun p false).setStage p f .enterConfig

/-! ### RESTART (R175) -/

/-- The lost-state claims of the units that were ONLINE (R149), in the order of `l`. The order of the units, 1, 2, 3, in which
a RESTART hands them on is the model's choice (log 33). -/
def State.lostClaims (s : State) (l : List UnitNo) : State := l.foldl State.lostClaim s

/-- Steps 1 and 2 and the first stage of step 3. The lost-state claims reach the Input Filter before or after the mode
becomes CONFIG: the order is a free value (log 10). -/
def State.ownRestart (s : State) (p : Port) (f : Frame) : State :=
  let online := s.onlineUnits
  let before := !online.isEmpty && Config.lostClaimsFirst s.freeCount
  let s1 := { s with flags := 0, freeCount := s.freeCount + 1 }.unlockAll
  let s2 := allUnits.foldl restartUnit s1
  let s3 := if before then (s2.lostClaims online).leaveRun p true else (s2.leaveRun p true).lostClaims online
  s3.setStage p f (.restartConfig s.mode)

/-- Step 4: the ENTER_RUN step of the RESTART in progress at a port. It looks at the present mode alone, so it is taken too
where another port's ENTER_RUN has come between and been undone by an ENTER_CONFIG (log 32). -/
def State.restartRun (s : State) (p : Port) (f : Frame) : State :=
  if s.mode = .config ∧ s.failingEntry = none then
    ((s.startRun p s.startAcked true).respond p f .ok []).beginEvaluation
  else s.respond p f .ok []

/-- The ENTER_RUN step of a RESTART is due at the port. -/
def State.restartDue (s : State) (p : Port) : Option Frame :=
  match (s.stn p).inProgress with
  | none => none
  | some r => if r.stage = .restartRun ∧ s.engineClaim = none then some r.frame else none

/-! ### The events -/

/-- SET_INPUTS, R128. -/
def execSetInputs (p : Port) (s : State) : Result :=
  .next (s.live fun s => s.runRequest p .setInputs anyForm fun f t => t.ownSetInputs p f)

/-- READ_INPUT, R129. -/
def execReadInput (p : Port) (s : State) : Result :=
  .next (s.live fun s => s.runRequest p .readInput anyForm fun f t => t.ownReadInput p f)

/-- ENTER_RUN, R168; at a port whose RESTART waits for its ENTER_RUN step, that step (R175). -/
def execEnterRun (p : Port) (s : State) : Result :=
  .next (s.live fun s => match s.restartDue p with
    | some f => (s.restartRun p f).settle
    | none => s.runRequest p .enterRun anyForm fun f t => t.ownEnterRun p f)

/-- FIELD_POINT_EVALUATION, R170. -/
def execFieldPointEvaluation (s : State) : Result := .next (s.live fun s => s.evaluateNext false)

/-- GROUP_POINT_EVALUATION, R171. -/
def execGroupPointEvaluation (s : State) : Result := .next (s.live fun s => s.evaluateNext true)

/-- END_OF_INITIAL_EVALUATION, R172. -/
def execEndOfInitialEvaluation (s : State) : Result :=
  .next (s.live fun s => if s.mode = .starting ∧ s.evalPos = none then s.endEvaluation.settle else s)

/-- ENTER_CONFIG, R174, stage 1. -/
def execEnterConfig (p : Port) (s : State) : Result :=
  .next (s.live fun s => s.runRequest p .enterConfig anyForm fun f t => t.ownEnterConfig p f)

/-- ENTER_CONFIG_ENGINE_CLAIM, R174, stages 2 and 3. -/
def execEnterConfigEngineClaim (s : State) : Result :=
  .next (s.live fun s => match s.engineClaim with
    | none => s
    | some c => (s.takeEngineClaim c).settle)

/-- RESTART, R175. -/
def execRestart (p : Port) (s : State) : Result :=
  .next (s.live fun s => s.runRequest p .restart anyForm fun f t => t.ownRestart p f)

end Sys2Proof.Machine
end

