-- ==== Sys2Proof/Machine/Points.lean ====
section
/-! DEFINITION. The requests of the Point Engine (chapters 1 to 3, and the input map of 6.9): configuration, reading,
acknowledgement, reset, shelving, removal, and the audible output; and the shelve expiry. -/

namespace Sys2Proof.Machine

/-- The claim that a request begins: its stamp is the Timebase's time when its handling begins (R20, R48). -/
def State.requestClaim (s : State) (p : Port) : Claim := { stamp := s.now, input := none, port := some p }

/-! ### SET_POINT (R25 to R29) -/

/-- The state checks on a SET_POINT, in order: the refusal, if one fails (R27). -/
def State.pointStateRefusal (s : State) (q : PointNo) (c : PointConfig) : Option Status :=
  let r := s.pt q
  if r.kind = .field ∧ c.kind ≠ .field ∧ s.map.toArray.toList.any (fun e => e.names q) = true then some .badState
  else if r.kind = .group ∧ c.kind ≠ .group ∧ s.points.toArray.toList.any (fun x => x.parent == some q) = true then
    some .badState
  else match c.parent with
    | none => none
    | some g => if r.parent ≠ some g ∧ s.chainRefused q g = true then some .chain else none

/-- The record with the seven configuration values stored (R28); in RUN four of them are its present ones (R29). -/
def PointRec.configured (r : PointRec) (c : PointConfig) : PointRec :=
  { r with
    kind := c.kind, seqType := c.seqType, cls := c.cls, subs := c.subs, ackRing := c.ackRing, parent := c.parent
    firstOut := c.firstOut }

/-- The owner's part of SET_POINT. On a request that has waited, it makes the argument check again (log 8). -/
def State.ownSetPoint (s : State) (p : Port) (f : Frame) : State :=
  let q := f.point 0
  match f.pointConfig with
  | none => s.respond p f .badArgument []
  | some c =>
    if s.pointArgumentsOk q c = false then s.respond p f .badArgument []
    else match s.pointStateRefusal q c with
      | some status => s.respond p f status []
      | none => (s.setPt q ((s.pt q).configured c)).respond p f .ok []

/-! ### Reading and the input map (R30, R131, R132) -/

/-- The owner's part of READ_POINT. -/
def State.ownReadPoint (s : State) (p : Port) (f : Frame) : State :=
  match f.readRange 8 with
  | none => s.respond p f .badArgument []
  | some l => s.respond p f .ok (b1 (f.arg 0) ++ b1 (f.arg 1) ++ l.flatMap fun q => bPointRec (s.pt q))

/-- An invalid entry: the configured fields at their power-on values, the runtime fields kept (R131). -/
def MapEntry.invalidated (e : MapEntry) : MapEntry :=
  { MapEntry.powerOn with appliedLevel := e.appliedLevel, appliedQuality := e.appliedQuality, latch := e.latch }

/-- The owner's part of SET_MAP. On a request that has waited, it makes the argument check again (log 8). -/
def State.ownSetMap (s : State) (p : Port) (f : Frame) : State :=
  let i := f.input 0
  match choice (f.arg 1) with
  | none => s.respond p f .badArgument []
  | some false => (s.setEnt i (s.ent i).invalidated).respond p f .ok []
  | some true =>
    match f.mapEntry (s.ent i) with
    | none => s.respond p f .badArgument []
    | some e =>
      if (s.pt (f.point 2)).kind = .field then (s.setEnt i e).respond p f .ok [] else s.respond p f .badArgument []

/-- The owner's part of READ_MAP. -/
def State.ownReadMap (s : State) (p : Port) (f : Frame) : State :=
  match f.readRange 16 with
  | none => s.respond p f .badArgument []
  | some l => s.respond p f .ok (l.flatMap fun i => bMapEntry (s.ent i))

/-! ### Acknowledgement and reset (R49 to R54) -/

/-- A response OK with a count of points. -/
def respondCount (p : Port) (f : Frame) (r : State × Nat) : State := r.1.respond p f .ok (b2 r.2)

/-- The owner's part of ACK_POINT with members no (R50); any other value is out of its set. -/
def State.ownAckPoint (s : State) (p : Port) (f : Frame) : State :=
  let q := f.point 0
  if f.arg 1 ≠ 0 then s.respond p f .badArgument []
  else if (s.pt q).acknowledgeable then (s.acknowledge (s.requestClaim p) q).respond p f .ok []
  else s.respond p f .badState []

/-- The owner's part of ACK_POINT with members yes (R51). -/
def State.ownAckMembers (s : State) (p : Port) (f : Frame) : State :=
  let q := f.point 0
  respondCount p f (s.ackList (s.requestClaim p) (s.requestRing p) (q :: s.descendants q))

/-- The owner's part of ACK_CLASS (R52): each point is judged, by class too, when its turn comes. -/
def State.ownAckClass (s : State) (p : Port) (f : Frame) : State :=
  match below 8 (f.arg 0) with
  | none => s.respond p f .badArgument []
  | some c =>
    respondCount p f
      (s.ackList (s.requestClaim p) (s.stn p).ring (allPoints.filter fun q => (s.pt q).cls == c))

/-- The owner's part of ACK_ALL (R52). -/
def State.ownAckAll (s : State) (p : Port) (f : Frame) : State :=
  respondCount p f (s.ackList (s.requestClaim p) (s.stn p).ring allPoints)

/-- The owner's part of RESET_POINT (R53). -/
def State.ownResetPoint (s : State) (p : Port) (f : Frame) : State :=
  let q := f.point 0
  match (s.pt q).resetTo with
  | none => s.respond p f .badState []
  | some st => (s.resetTo (s.requestClaim p) q st).respond p f .ok []

/-- The owner's part of RESET_ALL (R54). -/
def State.ownResetAll (s : State) (p : Port) (f : Frame) : State :=
  respondCount p f (allPoints.foldl (offerReset (s.requestClaim p) (s.stn p).ring) (s, 0))

/-! ### Shelving and removal (R55 to R63) -/

/-- Milliseconds of a minute. -/
def minuteMs : Nat := 60000

/-- The owner's part of SHELVE (R55 to R57). -/
def State.ownShelve (s : State) (p : Port) (f : Frame) : State :=
  let q := f.point 0
  let minutes := f.arg2 1
  let c := s.requestClaim p
  let v := Service.shelved (c.stamp.addMs (minutes * minuteMs))
  let timer := some (minutes * minuteMs)
  if minutes = 0 ∨ 1440 < minutes then s.respond p f .badArgument []
  else if (s.pt q).kind = .spare then s.respond p f .badState []
  else match (s.pt q).service with
    | .removed => s.respond p f .badState []
    | .shelved _ => (s.setService c q .shelve v timer).respond p f .ok []
    | .inService => (s.leaveService c q .shelve v timer).respond p f .ok []

/-- The owner's part of UNSHELVE (R60). -/
def State.ownUnshelve (s : State) (p : Port) (f : Frame) : State :=
  let q := f.point 0
  match (s.pt q).service with
  | .shelved _ => (s.returnToService (s.requestClaim p) q .unshelve).respond p f .ok []
  | .inService | .removed => s.respond p f .badState []

/-- The removal of a point that is not REMOVED (R62). -/
def State.removePoint (s : State) (c : Claim) (q : PointNo) : State :=
  if s.mode = .run ∧ (s.pt q).service = .inService then s.leaveService c q .remove .removed none
  else s.setService c q .remove .removed none

/-- The owner's part of REMOVE. -/
def State.ownRemove (s : State) (p : Port) (f : Frame) : State :=
  let q := f.point 0
  if (s.pt q).service = .removed then s.respond p f .badState []
  else (s.removePoint (s.requestClaim p) q).respond p f .ok []

/-- The restoring of a REMOVED point (R63). -/
def State.restorePoint (s : State) (c : Claim) (q : PointNo) : State :=
  if s.mode = .run then s.returnToService c q .restore else s.setService c q .restore .inService none

/-- The owner's part of RESTORE. -/
def State.ownRestore (s : State) (p : Port) (f : Frame) : State :=
  let q := f.point 0
  if (s.pt q).service = .removed then (s.restorePoint (s.requestClaim p) q).respond p f .ok []
  else s.respond p f .badState []

/-- The expiry of a shelve timer, with the end time as stamp (R20, R61). -/
def State.shelveExpired (s : State) (q : PointNo) : State :=
  match (s.pt q).service with
  | .shelved t => s.returnToService { stamp := t, input := none, port := none } q .shelveExpiry
  | .inService | .removed => s

/-! ### The audible output (R65, R66) -/

/-- The owner's part of SILENCE. -/
def State.ownSilence (s : State) (p : Port) (f : Frame) : State :=
  let s1 := { s with audibleRequest := false }
  (s1.append false
    { stamp := s.now, body := .operator s.audibleRequest, point := none, input := none, port := some p
      cause := none }).respond p f .ok []

/-- The owner's part of SET_AUDIBLE. -/
def State.ownSetAudible (s : State) (p : Port) (f : Frame) : State :=
  match thresholdOf (f.arg 0) with
  | none => s.respond p f .badArgument []
  | some t => { s with audibleThreshold := t }.respond p f .ok []

/-! ### The events -/

/-- SET_POINT, R25 to R29. -/
def execSetPoint (p : Port) (s : State) : Result :=
  .next (s.live fun s => s.runRequest p .setPoint anyForm fun f t => t.ownSetPoint p f)

/-- READ_POINT, R30. -/
def execReadPoint (p : Port) (s : State) : Result :=
  .next (s.live fun s => s.runRequest p .readPoint anyForm fun f t => t.ownReadPoint p f)

/-- SET_MAP, R131. -/
def execSetMap (p : Port) (s : State) : Result :=
  .next (s.live fun s => s.runRequest p .setMap anyForm fun f t => t.ownSetMap p f)

/-- READ_MAP, R132. -/
def execReadMap (p : Port) (s : State) : Result :=
  .next (s.live fun s => s.runRequest p .readMap anyForm fun f t => t.ownReadMap p f)

/-- ACK_POINT without members, R50. -/
def execAckPoint (p : Port) (s : State) : Result :=
  .next (s.live fun s => s.runRequest p .ackPoint withoutMembers fun f t => t.ownAckPoint p f)

/-- ACK_POINT with members, R51. -/
def execAckPointMembers (p : Port) (s : State) : Result :=
  .next (s.live fun s => s.runRequest p .ackPoint withMembers fun f t => t.ownAckMembers p f)

/-- ACK_CLASS, R52. -/
def execAckClass (p : Port) (s : State) : Result :=
  .next (s.live fun s => s.runRequest p .ackClass anyForm fun f t => t.ownAckClass p f)

/-- ACK_ALL, R52. -/
def execAckAll (p : Port) (s : State) : Result :=
  .next (s.live fun s => s.runRequest p .ackAll anyForm fun f t => t.ownAckAll p f)

/-- RESET_POINT, R53. -/
def execResetPoint (p : Port) (s : State) : Result :=
  .next (s.live fun s => s.runRequest p .resetPoint anyForm fun f t => t.ownResetPoint p f)

/-- RESET_ALL, R54. -/
def execResetAll (p : Port) (s : State) : Result :=
  .next (s.live fun s => s.runRequest p .resetAll anyForm fun f t => t.ownResetAll p f)

/-- SILENCE, R65. -/
def execSilence (p : Port) (s : State) : Result :=
  .next (s.live fun s => s.runRequest p .silence anyForm fun f t => t.ownSilence p f)

/-- SHELVE, R55 to R57. -/
def execShelve (p : Port) (s : State) : Result :=
  .next (s.live fun s => s.runRequest p .shelve anyForm fun f t => t.ownShelve p f)

/-- UNSHELVE, R60. -/
def execUnshelve (p : Port) (s : State) : Result :=
  .next (s.live fun s => s.runRequest p .unshelve anyForm fun f t => t.ownUnshelve p f)

/-- REMOVE, R62. -/
def execRemove (p : Port) (s : State) : Result :=
  .next (s.live fun s => s.runRequest p .remove anyForm fun f t => t.ownRemove p f)

/-- RESTORE, R63. -/
def execRestore (p : Port) (s : State) : Result :=
  .next (s.live fun s => s.runRequest p .restore anyForm fun f t => t.ownRestore p f)

/-- SET_AUDIBLE, R66. -/
def execSetAudible (p : Port) (s : State) : Result :=
  .next (s.live fun s => s.runRequest p .setAudible anyForm fun f t => t.ownSetAudible p f)

/-- SHELVE_EXPIRY, R61: taken in RUN alone (R174, stage 1). -/
def execShelveExpiry (q : PointNo) (s : State) : Result :=
  .next (s.live fun s =>
    if s.mode = .run ∧ (s.pt q).shelveTimer = some 0 then (s.shelveExpired q).settle else s)

end Sys2Proof.Machine
end

