-- ==== Sys2Proof/Machine/Stations.lean ====
section
/-! DEFINITION. The station ports (chapter 10): the receive assembly, the end of a frame in transmission, the
retransmission and the unknown kind at the Request Decoder, SET_PORT and READ_PORT. -/

namespace Sys2Proof.Machine

/-! ### Reception (R182, R183) -/

/-- START of a station frame. -/
def stationStart : Byte := 0x5A#8

/-- A discard: the count rises and the assembly hunts again. -/
def Station.discard (t : Station) : Station := { t with rx := .hunting, discards := saturatingSucc t.discards }

/-- A completed frame with a right check: TAG 0 and a full intake are discards (R182, R183). -/
def Station.complete (t : Station) (f : Frame) : Station :=
  if f.tag = 0 then t.discard
  else if t.intake.length < Config.intakeCapacity then { t with rx := .hunting, intake := t.intake ++ [f] }
  else t.discard

/-- The bytes after 0x5A, as far as they have come; the gap timer starts afresh at the end of each byte. -/
def Station.assemble (t : Station) (bytes : List Byte) : Station :=
  match bytes with
  | [] => { t with rx := .partialFrame bytes Config.stationGapMs }
  | len :: rest =>
    if len.toNat < 2 ∨ 242 < len.toNat then t.discard
    else if rest.length < len.toNat + 2 then { t with rx := .partialFrame bytes Config.stationGapMs }
    else match parseStationFrame bytes with
      | none => t.discard
      | some f => t.complete f

/-- One byte at the receive assembly. -/
def Station.receive (t : Station) (b : RxByte) : Station :=
  match t.rx with
  | .hunting => if b.value = stationStart ∧ b.stopLow = false then t.assemble [] else t
  | .partialFrame bytes _ => if b.stopLow then t.discard else t.assemble (bytes ++ [b.value])

/-- Bytes on the receive line of a port, one after another. -/
def State.stationBytes (s : State) (p : Port) (bytes : List RxByte) : State :=
  s.setStn p (bytes.foldl Station.receive (s.stn p))

/-- The gap timer of a partial frame has expired (R182). -/
def Station.gapExpired (t : Station) : Station :=
  match t.rx with
  | .hunting => t
  | .partialFrame _ gap => if gap = 0 then t.discard else t

/-! ### Transmission (R78, R187) -/

/-- The arbiter begins the waiting response, or else the waiting NOTICE frame. -/
def Station.nextFrame (t : Station) : Station :=
  match t.waitResponse with
  | some r => { t with tx := some (.response r), waitResponse := none }
  | none =>
    match t.waitNotice with
    | some n => { t with tx := some (.notice n true), waitNotice := none }
    | none => { t with tx := none }

/-- The take timer starts with the take timeout (R78). -/
def State.startTakeTimer (s : State) (p : Port) : State :=
  s.setDsp p { s.dsp p with takeTimer := some (s.dsp p).takeTimeout }

/-- The frame in transmission ends: the next one begins, and the Dispatch Controller learns the end of a NOTICE frame,
which starts the take timer if it is the frame of the present offer. -/
def State.frameEnded (s : State) (p : Port) : State :=
  let s1 := s.setStn p (s.stn p).nextFrame
  match (s.stn p).tx with
  | none => s
  | some (.response _) => s1
  | some (.notice _ present) => (if present then s1.startTakeTimer p else s1).testOffer p

/-! ### SET_PORT and READ_PORT (R189, R190) -/

/-- The named port takes the values of an accepted SET_PORT. -/
def State.storePort (s : State) (c : PortConfig) : State :=
  let t := s.stn c.port
  let s1 := s.setStn c.port { t with ring := c.ring, discards := if c.clearCount then 0 else t.discards }
  s1.setDsp c.port { s1.dsp c.port with takeTimeout := c.takeTimeout, retries := c.retries }

/-- The owner's part of SET_PORT. -/
def State.ownSetPort (s : State) (p : Port) (f : Frame) : State :=
  match f.portConfig with
  | none => s.respond p f .badArgument []
  | some c => (s.storePort c).respond p f .ok []

/-- The point or source flag of a delivery failure record, 0 for MODE and RESYNC. -/
def NoticeId.subject : NoticeId → Nat
  | .point p => p.val
  | .system f => f.code.val
  | .mode => 0
  | .resync => 0

/-- The contents of a delivery failure record, 14 bytes. -/
def bFailure : Option FailureDetail → List Byte
  | none => List.replicate 14 0
  | some d =>
    b1 1 ++ b2 d.number ++ b1 d.id.kindCode ++ b1 d.cls.val ++ b1 d.id.subject ++ b1 d.count ++ bStamp d.stamp

/-- The results of READ_PORT for port `q`, 36 bytes (Table 10-13). -/
def State.portResults (s : State) (q : Port) : List Byte :=
  let t := s.stn q
  let d := s.dsp q
  b1 t.ring.val ++ b2 t.discards ++ b1 d.state.code ++ b1 d.queue.length ++ bBool d.resyncPending
    ++ b1 d.inService.toNat ++ b1 d.lowest.val ++ b1 d.mask.toNat ++ b1 d.nesting.code ++ b1 d.rotation.code
    ++ bBool d.autoDone ++ bBool d.polled ++ b1 (d.takeTimeout / 10) ++ b1 d.retries ++ b2 d.nextNumber
    ++ bBool d.stalled.isSome ++ b2 (d.stalled.getD 0)
    ++ bFailure d.failure.contents ++ bBool d.failure.locked ++ bBool d.failure.multiple

/-- The owner's part of READ_PORT. -/
def State.ownReadPort (s : State) (p : Port) (f : Frame) : State :=
  match below 4 (f.arg 0) with
  | none => s.respond p f .badArgument []
  | some q => s.respond p f .ok (s.portResults q)

/-! ### The Request Decoder's own rows (R184, R185) -/

/-- The head of the intake is a retransmission: it is answered from the cache and discarded. -/
def State.answerFromCache (s : State) (p : Port) : State :=
  match s.takeable p, (s.stn p).cache with
  | some f, some c => if c.request = f then (s.popIntake p).handResponse p c.response else s
  | _, _ => s

/-- The head of the intake names no request: it is refused UNKNOWN_KIND. -/
def State.refuseUnknown (s : State) (p : Port) : State :=
  match s.takeable p with
  | none => s
  | some f =>
    if (ReqKind.ofCode f.kind).isNone && !s.isRetransmission p f then
      ((s.beginRequest p f).refuseFault p f .unknownKind .unknownKind).settle
    else s

/-! ### The events -/

/-- STATION_FRAME_RECEIVED, R182 and R183. -/
def execStationFrameReceived (p : Port) (bytes : List RxByte) (s : State) : Result :=
  .next (s.live fun s => s.stationBytes p bytes)

/-- STATION_FRAME_DISCARDED, R182. -/
def execStationFrameDiscarded (p : Port) (bytes : List RxByte) (s : State) : Result :=
  .next (s.live fun s => s.stationBytes p bytes)

/-- STATION_GAP_EXPIRY, R182. -/
def execStationGapExpiry (p : Port) (s : State) : Result :=
  .next (s.live fun s => s.setStn p (s.stn p).gapExpired)

/-- FRAME_END, R187. -/
def execFrameEnd (p : Port) (s : State) : Result := .next (s.live fun s => (s.frameEnded p).settle)

/-- RETRANSMISSION, R184. -/
def execRetransmission (p : Port) (s : State) : Result := .next (s.live fun s => s.answerFromCache p)

/-- UNKNOWN_KIND, R185. -/
def execUnknownKind (p : Port) (s : State) : Result := .next (s.live fun s => s.refuseUnknown p)

/-- SET_PORT, R189. -/
def execSetPort (p : Port) (s : State) : Result :=
  .next (s.live fun s => s.runRequest p .setPort anyForm fun f t => t.ownSetPort p f)

/-- READ_PORT, R190. -/
def execReadPort (p : Port) (s : State) : Result :=
  .next (s.live fun s => s.runRequest p .readPort anyForm fun f t => t.ownReadPort p f)

end Sys2Proof.Machine
end

