-- ==== Sys2Proof/Machine/System.lean ====
section
/-! DEFINITION. The requests of the Event Record (chapter 5) and of the System Flag Unit (chapter 8), with
READ_STATUS (R191). -/

namespace Sys2Proof.Machine

/-! ### Event Record (R104 to R112) -/

/-- The record block after an accepted SET_LOG, without the test of R107 (R104). -/
def EventLog.configured (l : EventLog) (archive : Option Port) (threshold : Nat) : EventLog :=
  { l with
    archive := archive
    threshold := threshold
    confirmed := if archive.isSome && archive != l.archive then l.newest else l.confirmed }

/-- The owner's part of SET_LOG. -/
def State.ownSetLog (s : State) (p : Port) (f : Frame) : State :=
  let t := f.arg2 1
  match archiveOf (f.arg 0) with
  | none => s.respond p f .badArgument []
  | some a =>
    if 256 ≤ t ∧ t ≤ 1008 ∧ t % 16 = 0 then
      ({ s with log := s.log.configured a t }.testLogHigh
        (decide (s.log.unconfirmed < s.log.threshold)) (some p)).respond p f .ok []
    else s.respond p f .badArgument []

/-- One number is at or before another (R101). -/
def seqAtOrBefore (a b : Nat) : Bool := a == b || seqAfter a b

/-- The results of CONFIRM_LOG (Table 10-13). -/
def EventLog.confirmResults (l : EventLog) : List Byte := b4 l.confirmed ++ b2 l.unconfirmed

/-- The owner's part of CONFIRM_LOG (R108). -/
def State.ownConfirmLog (s : State) (p : Port) (f : Frame) : State :=
  let n := f.arg4 0
  if n = 0 then s.respond p f .badArgument []
  else if s.log.archive ≠ some p then s.respond p f .badState []
  else if seqAtOrBefore n s.log.confirmed then s.respond p f .ok s.log.confirmResults
  else if seqAtOrBefore n s.log.newest then
    let l := { s.log with confirmed := n }
    { s with log := l }.respond p f .ok l.confirmResults
  else s.respond p f .badArgument []

/-- The records that a READ_LOG returns, and the GAP mark (R111, R112). -/
def EventLog.read (l : EventLog) (start count : Nat) : Bool × List EventRecord :=
  match l.ring.findIdx? fun r => r.seq == start with
  | some i => (false, (l.ring.drop i).take count)
  | none => if l.ring.isEmpty || seqAfter l.newest start then (false, []) else (true, l.ring.take count)

/-- The number of the oldest record held, 0 when none is held. -/
def EventLog.oldest (l : EventLog) : Nat := (l.ring.head?.map EventRecord.seq).getD 0

/-- The results of READ_LOG (10.8.4). -/
def EventLog.readResults (l : EventLog) (start count : Nat) : List Byte :=
  let r := l.read start count
  bBool r.1 ++ b4 l.next ++ b4 l.oldest ++ b1 (portCode l.archive) ++ b4 l.confirmed ++ b2 l.unconfirmed
    ++ b1 r.2.length ++ r.2.flatMap bRecord

/-- The owner's part of READ_LOG (R110). -/
def State.ownReadLog (s : State) (p : Port) (f : Frame) : State :=
  let start := f.arg4 0
  let count := f.arg 4
  if start = 0 ∨ count = 0 ∨ 8 < count then s.respond p f .badArgument []
  else s.respond p f .ok (s.log.readResults start count)

/-! ### System Flag Unit (R158 to R164) -/

/-- The owner's part of SET_ROUTE (R158). -/
def State.ownSetRoute (s : State) (p : Port) (f : Frame) : State :=
  match Flag.ofCode (f.arg 0), below 4 (f.arg 1), choice (f.arg 2), below 8 (f.arg 3) with
  | some flag, some port, some enable, some cls =>
    (s.setRoute flag { port := port, enable := enable, cls := cls }).respond p f .ok []
  | _, _, _, _ => s.respond p f .badArgument []

/-- The owner's part of CLEAR_FLAGS (R159). -/
def State.ownClearFlags (s : State) (p : Port) (f : Frame) : State :=
  let n := f.arg2 0
  if n = 0 ∨ 2048 ≤ n then s.respond p f .badArgument []
  else
    let named := BitVec.ofNat 11 n
    let s1 := { s with flags := s.flags &&& ~~~ named }
    (s1.append false
      { stamp := s.now, body := .clearFlags s.flags named, point := none, input := none, port := some p
        cause := none }).respond p f .ok []

/-- The owner's part of TEST_SOURCE (R160). -/
def State.ownTestSource (s : State) (p : Port) (f : Frame) : State :=
  match Flag.ofCode (f.arg 0) with
  | none => s.respond p f .badArgument []
  | some flag => (s.respond p f .ok []).handOn { plainRaising flag with detail := .test, reqPort := some p }

/-- The CLEAR record of a CLEAR_FAULT naming COMMAND or INPUT, and the response (R164). -/
def State.recordClearFault (s : State) (p : Port) (f : Frame) (locked multiple : Bool) (name : CaptureName) : State :=
  (s.append false
    { stamp := s.now, body := .clearFault locked multiple name, point := none, input := none, port := some p
      cause := none }).respond p f .ok []

/-- The owner's part of CLEAR_FAULT naming COMMAND or INPUT; another name that is no port is out of its set. -/
def State.ownClearFault (s : State) (p : Port) (f : Frame) : State :=
  if f.arg 0 = 0 then
    let c := s.commandCapture
    { s with commandCapture := { c with locked := false, multiple := false } }.recordClearFault p f c.locked c.multiple
      .command
  else if f.arg 0 = 1 then
    let c := s.inputCapture
    { s with inputCapture := { c with locked := false, multiple := false } }.recordClearFault p f c.locked c.multiple
      .input
  else s.respond p f .badArgument []

/-! ### READ_STATUS (R166, R191) -/

/-- The contents of the command capture record, 13 bytes. -/
def bCommandDetail : Option CommandDetail → List Byte
  | none => List.replicate 13 0
  | some d => b1 1 ++ b1 d.port.val ++ [d.tag, d.kind] ++ bOptPoint d.point ++ bStamp d.stamp

/-- The contents of the input capture record, 10 bytes. -/
def bInputDetail : Option InputDetail → List Byte
  | none => List.replicate 10 0
  | some d => b1 1 ++ b1 d.input.val ++ b1 (levelCode d.level) ++ bStamp d.stamp

/-- A route, 3 bytes. -/
def bRoute (r : Route) : List Byte := b1 r.port.val ++ bBool r.enable ++ b1 r.cls.val

/-- The audible threshold: a class, or 0xFF for OFF. -/
def thresholdCode : Option PClass → Nat
  | none => 0xFF
  | some c => c.val

/-- The results of READ_STATUS, 83 bytes (Table 10-13); unit u is bit u of the set of units LOST. -/
def State.statusResults (s : State) : List Byte :=
  b1 s.mode.code ++ bBool s.startAcked ++ bOptPoint s.evalPos ++ b2 s.day ++ b4 s.msOfDay ++ b1 s.timeQuality.code
    ++ bBool s.syncEnable ++ b2 s.flags.toNat ++ s.routes.toArray.toList.flatMap bRoute
    ++ bCommandDetail s.commandCapture.contents ++ bBool s.commandCapture.locked ++ bBool s.commandCapture.multiple
    ++ bInputDetail s.inputCapture.contents ++ bBool s.inputCapture.locked ++ bBool s.inputCapture.multiple
    ++ allUnits.flatMap (fun u => b1 (s.unit u).state.code)
    ++ bBool s.audibleRequest ++ b1 (thresholdCode s.audibleThreshold) ++ bBool s.audibleLine
    ++ bBool s.faultLine ++ bFlags s.lockedSet ++ bFlags (false :: s.lostSet)

/-! ### The events -/

/-- SET_LOG, R104. -/
def execSetLog (p : Port) (s : State) : Result :=
  .next (s.live fun s => s.runRequest p .setLog anyForm fun f t => t.ownSetLog p f)

/-- CONFIRM_LOG, R108. -/
def execConfirmLog (p : Port) (s : State) : Result :=
  .next (s.live fun s => s.runRequest p .confirmLog anyForm fun f t => t.ownConfirmLog p f)

/-- READ_LOG, R110 to R112. -/
def execReadLog (p : Port) (s : State) : Result :=
  .next (s.live fun s => s.runRequest p .readLog anyForm fun f t => t.ownReadLog p f)

/-- SET_ROUTE, R158. -/
def execSetRoute (p : Port) (s : State) : Result :=
  .next (s.live fun s => s.runRequest p .setRoute anyForm fun f t => t.ownSetRoute p f)

/-- CLEAR_FLAGS, R159. -/
def execClearFlags (p : Port) (s : State) : Result :=
  .next (s.live fun s => s.runRequest p .clearFlags anyForm fun f t => t.ownClearFlags p f)

/-- TEST_SOURCE, R160. -/
def execTestSource (p : Port) (s : State) : Result :=
  .next (s.live fun s => s.runRequest p .testSource anyForm fun f t => t.ownTestSource p f)

/-- CLEAR_FAULT naming COMMAND or INPUT, R164. -/
def execClearFault (p : Port) (s : State) : Result :=
  .next (s.live fun s => s.runRequest p .clearFault namesNoPort fun f t => t.ownClearFault p f)

/-- READ_STATUS, R191. -/
def execReadStatus (p : Port) (s : State) : Result :=
  .next (s.live fun s => s.runRequest p .readStatus anyForm fun f t => t.respond p f .ok t.statusResults)

end Sys2Proof.Machine
end

