-- ==== Sys2Proof/Machine/Timebase.lean ====
section
/-! DEFINITION. The Timebase (chapter 9, R177 to R180) with every timer that runs on elapsed time, and power-on and
reset (R176). -/

namespace Sys2Proof.Machine

/-! ### Elapsed time (R177) -/

/-- The time of day takes a value. -/
def State.setClock (s : State) (t : TimeStamp) : State :=
  { s with day := t.day, msOfDay := t.ms, timeQuality := t.quality }

/-- The answer timeout after `n` ms. -/
def ExchangePhase.runDown (n : Nat) : ExchangePhase → ExchangePhase
  | .sending => .sending
  | .awaiting left => .awaiting (left - n)

/-- The gap timer of a partial frame after `n` ms. -/
def StationRx.runDown (n : Nat) : StationRx → StationRx
  | .hunting => .hunting
  | .partialFrame bytes gap => .partialFrame bytes (gap - n)

/-- The poll cycle timer and the answer timeout after `n` ms. -/
def Link.runDown (n : Nat) (l : Link) : Link :=
  { l with
    pollTimer := Machine.runDown n l.pollTimer
    exchange := l.exchange.map fun x => { x with phase := x.phase.runDown n } }

/-- Every timer after `n` ms: each stands at 0 until its expiry is taken (log 6). -/
def State.runTimers (s : State) (n : Nat) : State :=
  { s with
    inputs := mapEntries (fun r => { r with chatterTimer := runDown n r.chatterTimer }) s.inputs
    pairTimers := mapEntries (runDown n) s.pairTimers
    points := mapEntries (fun r => { r with shelveTimer := runDown n r.shelveTimer }) s.points
    dispatch := mapEntries (fun d => { d with takeTimer := runDown n d.takeTimer }) s.dispatch
    link := s.link.runDown n
    stations := mapEntries (fun t => { t with rx := t.rx.runDown n }) s.stations
    watchdog := runDown n s.watchdog }

/-- `n` milliseconds pass: the clock, the elapsed count and every timer. -/
def State.passTime (s : State) (n : Nat) : State :=
  let s1 := (s.setClock (s.now.addMs n)).runTimers n
  { s1 with elapsed := s.elapsed + BitVec.ofNat 48 n }

/-! ### SET_TIME and SYNC (R178 to R180) -/

/-- The owner's part of SET_TIME. -/
def State.ownSetTime (s : State) (p : Port) (f : Frame) : State :=
  let t : TimeStamp := { day := f.arg2 0, ms := f.arg4 2, quality := .set }
  match choice (f.arg 6) with
  | none => s.respond p f .badArgument []
  | some sync =>
    if t.ms < Config.dayMs then
      let s1 := { s.setClock t with syncEnable := sync, watchdog := if sync then some Config.watchdogMs else none }
      (s1.append false
        { stamp := t, body := .time s.now t, point := none, input := none, port := some p
          cause := none }).respond p f .ok []
    else s.respond p f .badArgument []

/-- A time aligned to the whole second that a pulse marks (R179). -/
def TimeStamp.align (t : TimeStamp) : TimeStamp :=
  let r := t.ms % 1000
  if r < 500 then { t with ms := t.ms - r, quality := .synced } else { t.addMs (1000 - r) with quality := .synced }

/-- A pulse while sync is enabled (R179). -/
def State.syncPulse (s : State) : State :=
  if s.syncEnable then { s.setClock s.now.align with watchdog := some Config.watchdogMs } else s

/-- The expiry of the sync watchdog (R180). -/
def State.syncLost (s : State) : State :=
  let q := if s.timeQuality = .synced then TimeQuality.set else s.timeQuality
  { s with watchdog := none, timeQuality := q }.handOn (plainRaising .timeSync)

/-! ### RESET_N (R176) -/

/-- A station port with RESET_N low: no partial frame, no frame in transmission or waiting, no request in progress. -/
def Station.cutOff (t : Station) : Station :=
  { t with rx := .hunting, inProgress := none, tx := none, waitResponse := none, waitNotice := none }

/-- RESET_N low ends every handling, exchange, frame and timer in progress (log 14). -/
def State.resetLow (s : State) : State :=
  { s with
    inReset := true
    lines := mapEntries (fun r => { r with run := none }) s.lines
    inputs := mapEntries (fun r => { r with chatterTimer := none }) s.inputs
    pairTimers := mapEntries (fun _ => none) s.pairTimers
    points := mapEntries (fun r => { r with shelveTimer := none }) s.points
    dispatch := mapEntries (fun d => { d with takeTimer := none }) s.dispatch
    link := { s.link with pollTimer := none, turn := none, due := false, exchange := none, rx := .hunting }
    evalPos := none
    engineClaim := none
    raisings := []
    watchdog := none
    stations := mapEntries Station.cutOff s.stations }

/-! ### The events -/

/-- TIMEBASE_MILLISECOND, R177. -/
def execTimebaseMillisecond (n : Nat) (s : State) : Result := .next (s.live fun s => s.passTime n)

/-- SYNC_PULSE, R179. -/
def execSyncPulse (s : State) : Result := .next (s.live State.syncPulse)

/-- SYNC_WATCHDOG_EXPIRY, R180. -/
def execSyncWatchdogExpiry (s : State) : Result :=
  .next (s.live fun s => if s.watchdog = some 0 then s.syncLost.settle else s)

/-- SET_TIME, R178. -/
def execSetTime (p : Port) (s : State) : Result :=
  .next (s.live fun s => s.runRequest p .setTime anyForm fun f t => t.ownSetTime p f)

/-- POWER_ON, R176: every block takes its power-on values; the commands that wait still wait. -/
def execPowerOn (levels : Vector Level 64) (rate : Bool) (s : State) : Result :=
  .next { State.powerOn levels rate with pending := s.pending }

/-- RESET_N_LOW, R176. -/
def execResetNLow (s : State) : Result := .next s.resetLow

end Sys2Proof.Machine
end

