-- ==== Sys2Proof/Machine/Dispatch.lean ====
section
/-! DEFINITION. One arm for each command: the direct call of its meaning. -/

namespace Sys2Proof.Machine

/-- The effect of a command on everything but the queue of waiting commands. -/
def exec (i : Instr) (s : State) : Host.Outcome State Fault Refusal :=
  match i with
  | .powerOn levels rate => Sys2Proof.Machine.execPowerOn levels rate s
  | .resetNLow => Sys2Proof.Machine.execResetNLow s
  | .qualifiedChange line level => Sys2Proof.Machine.execQualifiedChange line level s
  | .chatterEndExpiry input => Sys2Proof.Machine.execChatterEndExpiry input s
  | .discrepancyExpiry pair => Sys2Proof.Machine.execDiscrepancyExpiry pair s
  | .levelEntry => Sys2Proof.Machine.execLevelEntry s
  | .qualityEntry => Sys2Proof.Machine.execQualityEntry s
  | .shelveExpiry point => Sys2Proof.Machine.execShelveExpiry point s
  | .pollCycleExpiry => Sys2Proof.Machine.execPollCycleExpiry s
  | .identityAnswer bytes => Sys2Proof.Machine.execIdentityAnswer bytes s
  | .snapshotAnswer bytes => Sys2Proof.Machine.execSnapshotAnswer bytes s
  | .changesAnswer bytes => Sys2Proof.Machine.execChangesAnswer bytes s
  | .answerTimeout => Sys2Proof.Machine.execAnswerTimeout s
  | .linkGapExpiry => Sys2Proof.Machine.execLinkGapExpiry s
  | .syncPulse => Sys2Proof.Machine.execSyncPulse s
  | .syncWatchdogExpiry => Sys2Proof.Machine.execSyncWatchdogExpiry s
  | .takeTimerExpiry port => Sys2Proof.Machine.execTakeTimerExpiry port s
  | .stationFrameReceived port bytes => Sys2Proof.Machine.execStationFrameReceived port bytes s
  | .stationGapExpiry port => Sys2Proof.Machine.execStationGapExpiry port s
  | .frameEnd port => Sys2Proof.Machine.execFrameEnd port s
  | .retransmission port => Sys2Proof.Machine.execRetransmission port s
  | .unknownKind port => Sys2Proof.Machine.execUnknownKind port s
  | .setPoint port => Sys2Proof.Machine.execSetPoint port s
  | .readPoint port => Sys2Proof.Machine.execReadPoint port s
  | .setMap port => Sys2Proof.Machine.execSetMap port s
  | .readMap port => Sys2Proof.Machine.execReadMap port s
  | .setInputs port => Sys2Proof.Machine.execSetInputs port s
  | .readInput port => Sys2Proof.Machine.execReadInput port s
  | .setUnit port => Sys2Proof.Machine.execSetUnit port s
  | .setLink port => Sys2Proof.Machine.execSetLink port s
  | .readUnit port => Sys2Proof.Machine.execReadUnit port s
  | .ackPoint port => Sys2Proof.Machine.execAckPoint port s
  | .ackPointMembers port => Sys2Proof.Machine.execAckPointMembers port s
  | .ackClass port => Sys2Proof.Machine.execAckClass port s
  | .ackAll port => Sys2Proof.Machine.execAckAll port s
  | .resetPoint port => Sys2Proof.Machine.execResetPoint port s
  | .resetAll port => Sys2Proof.Machine.execResetAll port s
  | .silence port => Sys2Proof.Machine.execSilence port s
  | .shelve port => Sys2Proof.Machine.execShelve port s
  | .unshelve port => Sys2Proof.Machine.execUnshelve port s
  | .remove port => Sys2Proof.Machine.execRemove port s
  | .restore port => Sys2Proof.Machine.execRestore port s
  | .setAudible port => Sys2Proof.Machine.execSetAudible port s
  | .take port => Sys2Proof.Machine.execTake port s
  | .poll port => Sys2Proof.Machine.execPoll port s
  | .done port => Sys2Proof.Machine.execDone port s
  | .doneClass port => Sys2Proof.Machine.execDoneClass port s
  | .setLowest port => Sys2Proof.Machine.execSetLowest port s
  | .setDispatch port => Sys2Proof.Machine.execSetDispatch port s
  | .attach port => Sys2Proof.Machine.execAttach port s
  | .detach port => Sys2Proof.Machine.execDetach port s
  | .readPort port => Sys2Proof.Machine.execReadPort port s
  | .setPort port => Sys2Proof.Machine.execSetPort port s
  | .setLog port => Sys2Proof.Machine.execSetLog port s
  | .confirmLog port => Sys2Proof.Machine.execConfirmLog port s
  | .readLog port => Sys2Proof.Machine.execReadLog port s
  | .setRoute port => Sys2Proof.Machine.execSetRoute port s
  | .clearFlags port => Sys2Proof.Machine.execClearFlags port s
  | .testSource port => Sys2Proof.Machine.execTestSource port s
  | .clearFault port => Sys2Proof.Machine.execClearFault port s
  | .clearFaultPort port => Sys2Proof.Machine.execClearFaultPort port s
  | .readStatus port => Sys2Proof.Machine.execReadStatus port s
  | .enterRun port => Sys2Proof.Machine.execEnterRun port s
  | .fieldPointEvaluation => Sys2Proof.Machine.execFieldPointEvaluation s
  | .groupPointEvaluation => Sys2Proof.Machine.execGroupPointEvaluation s
  | .endOfInitialEvaluation => Sys2Proof.Machine.execEndOfInitialEvaluation s
  | .enterConfig port => Sys2Proof.Machine.execEnterConfig port s
  | .enterConfigEngineClaim => Sys2Proof.Machine.execEnterConfigEngineClaim s
  | .restart port => Sys2Proof.Machine.execRestart port s
  | .setTime port => Sys2Proof.Machine.execSetTime port s
  | .lineSample line level => Sys2Proof.Machine.execLineSample line level s
  | .timebaseMillisecond ms => Sys2Proof.Machine.execTimebaseMillisecond ms s
  | .linkMessageEnd => Sys2Proof.Machine.execLinkMessageEnd s
  | .linkFrameRejected bytes => Sys2Proof.Machine.execLinkFrameRejected bytes s
  | .stationFrameDiscarded port bytes => Sys2Proof.Machine.execStationFrameDiscarded port bytes s

end Sys2Proof.Machine
end

