-- ==== Sys2Proof/Machine/RemoteUnit.lean ====
section
/-! DEFINITION. The unit's side of the link (R151 to R153). A remote input unit is a separate product and no part of
State: this file says what bytes it puts on XL_D for the bytes the master sends (log 18). -/

namespace Sys2Proof.Machine

/-- One line of a remote unit: its qualified level, and the unit's instant at which a debounce run began. -/
structure UnitLine where
  qualified : Level
  run : Option Nat
  deriving DecidableEq, Repr

/-- A report in the unit's list: line, new level, and the instant of its run's first sample (R151). -/
structure UnitReport where
  line : Nat
  level : Level
  since : Nat
  deriving DecidableEq, Repr

/-- What a unit has sent as its last answer, beside its number: a picture of its levels, or so many of the oldest reports
of its list, with the two flags (R152). -/
inductive LastAnswer where
  | snapshot (levels : List Byte)
  | changes (held : Nat) (more overflow : Bool)
  deriving DecidableEq, Repr

/-- A remote input unit, its clock in milliseconds. `debounce` is absent until its first SNAPSHOT; `seq` is the number of
its last answer, which is absent until the first answer to a SNAPSHOT or a POLL. -/
structure RemoteUnit where
  address : UnitNo
  clock : Nat
  debounce : Option Nat
  lines : Vector UnitLine 64
  reports : List UnitReport
  overflow : Bool
  seq : Nat
  last : Option LastAnswer
  deriving DecidableEq, Repr

/-- The unit at its own power-up: no debounce time, nothing listed, and numbers that start from 0, the one after 255
(R153). Before any sample its levels are OPEN, which is the model's choice (log 18). -/
def RemoteUnit.powerUp (address : UnitNo) : RemoteUnit :=
  { address := address, clock := 0, debounce := none
    lines := Vector.replicate 64 { qualified := .opened, run := none }
    reports := [], overflow := false, seq := 255, last := none }

/-- `n` milliseconds pass at the unit: it samples its lines once in each (R151, R114), so that a sample follows them. -/
def RemoteUnit.passTime (u : RemoteUnit) (n : Nat) : RemoteUnit := { u with clock := u.clock + n }

/-- Reports the list holds at most (R151). -/
def unitListCapacity : Nat := 16

/-- A qualified change is listed, or sets the overflow indication (R151). -/
def RemoteUnit.list (u : RemoteUnit) (r : UnitReport) : RemoteUnit :=
  if u.overflow then u
  else if u.reports.length < unitListCapacity then { u with reports := u.reports ++ [r] }
  else { u with overflow := true }

/-- A sample of one line, judged as R115 judges it; without a debounce time the level is kept and nothing is listed. -/
def RemoteUnit.sample (u : RemoteUnit) (l : LineNo) (level : Level) : RemoteUnit :=
  let r := u.lines[l.val]
  let put := fun x => { u with lines := u.lines.set l.val x }
  if level = r.qualified then put { r with run := none }
  else
    let since := r.run.getD u.clock
    match u.debounce with
    | none => put { qualified := level, run := none }
    | some d =>
      if d ≤ u.clock - since then
        (put { qualified := level, run := none }).list { line := l.val, level := level, since := since }
      else put { r with run := some since }

/-- A report in an answer, its age counted to the moment the answer begins (R152). -/
def RemoteUnit.bReport (u : RemoteUnit) (r : UnitReport) : List Byte :=
  b1 (r.line + 128 * (levelClosed r.level).toNat) ++ b2 (min (u.clock - r.since) Config.saturation)

/-- The last answer, each report's age counted afresh to this sending (R152); before the first answer there is none to
send (log 18). -/
def RemoteUnit.lastAnswer (u : RemoteUnit) : List Byte :=
  let send := fun (k : MessageKind) body => linkFrame (u.address.val + 1) k.answerType (b1 u.seq ++ body)
  match u.last with
  | none => []
  | some (.snapshot levels) => send .snapshot levels
  | some (.changes held more overflow) =>
    send .poll (bFlags [more, overflow] ++ b1 held ++ (u.reports.take held).flatMap u.bReport)

/-- The sequence number after `n`, from 255 to 0. -/
def answerSucc (n : Nat) : Nat := (n + 1) % 256

/-- The answer to IDENTIFY. -/
def RemoteUnit.identityAnswer (u : RemoteUnit) : List Byte :=
  linkFrame (u.address.val + 1) MessageKind.identify.answerType (b2 Config.unitTypeCode ++ b1 Config.unitLines)

/-- Eight levels as a byte, the first in bit 0. -/
def bLevels (l : List UnitLine) : List Byte := bFlags (l.map fun r => levelClosed r.qualified)

/-- The 64 present levels, eight bytes (Table 10-11). -/
def RemoteUnit.bPicture (u : RemoteUnit) : List Byte :=
  (List.range 8).flatMap fun k => bLevels ((u.lines.toArray.toList.drop (8 * k)).take 8)

/-- The unit after a SNAPSHOT that carries debounce time `d` (R152). -/
def RemoteUnit.pictured (u : RemoteUnit) (d : Nat) : RemoteUnit :=
  { u with
    debounce := some d, reports := [], overflow := false, seq := answerSucc u.seq
    last := some (.snapshot u.bPicture) }

/-- The reports of the last answer. -/
def RemoteUnit.held (u : RemoteUnit) : Nat :=
  match u.last with
  | some (.changes held _ _) => held
  | some (.snapshot _) => 0
  | none => 0

/-- A new answer to a POLL: the reports of the last one are receipted and leave the list (R152). Before the first SNAPSHOT
it holds no reports, as the list does, and carries OVERFLOW (R153). -/
def RemoteUnit.newAnswer (u : RemoteUnit) : RemoteUnit :=
  let rest := u.reports.drop u.held
  { u with
    reports := rest, seq := answerSucc u.seq
    last := some (.changes (min rest.length 8) (8 < rest.length) (u.overflow || u.debounce.isNone)) }

/-- A POLL that carries the number `n`: a new answer follows on the receipt of the last one, or where there is none yet
(R152, R153). -/
def RemoteUnit.polled (u : RemoteUnit) (n : Nat) : RemoteUnit :=
  if u.last = none ∨ n = u.seq then u.newAnswer else u

/-- A message on XL_D, from START to CHECK: the unit after it and the bytes it answers with. A message for another
address is not answered; one that fails its check is answered with the last answer (R152). -/
def RemoteUnit.receive (u : RemoteUnit) (message : List Byte) : RemoteUnit × List Byte :=
  let bytes := message.drop 1
  let n := bytes.length - 2
  let kind := (bytes.getD 1 0).toNat
  let value := (bytes.getD 2 0).toNat
  if bytes.getD 0 0 ≠ BitVec.ofNat 8 (u.address.val + 1) then (u, [])
  else if bytes.drop n ≠ checkBytes (bytes.take n) then (u, u.lastAnswer)
  else if kind = MessageKind.identify.type then (u, u.identityAnswer)
  else if kind = MessageKind.snapshot.type then (u.pictured value, (u.pictured value).lastAnswer)
  else if kind = MessageKind.poll.type then (u.polled value, (u.polled value).lastAnswer)
  else (u, [])

end Sys2Proof.Machine
end

