-- ==== Sys2Proof/Safety.lean ====
section
/-! DEFINITION. What counts as a safe run, the invariants of the machine, and the vocabulary in which statements about
requests are made. -/

namespace Sys2Proof.Machine

/-! ### Safe runs -/

/-- From `s`, `n` steps end in a next state: the machine neither faults nor is refused. -/
def SafeFor (n : Nat) (s : State) : Prop := ∃ t, Host.Core.run Sys2Proof.core n s = .next t

/-! ### Invariants -/

/-- The bounds of the queues: 24 notices a port (R71), 128 change entries (R124), two frames an intake (R183). -/
def State.Bounded (s : State) : Prop :=
  (∀ p, (s.dsp p).queue.length ≤ 24) ∧ s.changeQueue.length ≤ 128 ∧ ∀ p, (s.stn p).intake.length ≤ 2

/-- A DETACHED port has an empty notice queue, an empty in-service set and resync pending clear (R74). -/
def State.DetachedEmpty (s : State) : Prop :=
  ∀ p, (s.dsp p).state = .detached → (s.dsp p).queue = [] ∧ (s.dsp p).inService = 0 ∧ (s.dsp p).resyncPending = false

/-- Sequence numbers that follow one another (R102). -/
def Consecutive : List Nat → Prop
  | a :: b :: rest => b = seqSucc a ∧ Consecutive (b :: rest)
  | _ => True

/-- At most 1024 records, of consecutive numbers, the newest number the last of them and the next number its successor
(R96, R102). -/
def State.RecordInOrder (s : State) : Prop :=
  s.log.ring.length ≤ 1024 ∧ Consecutive (s.log.ring.map EventRecord.seq) ∧
    match s.log.ring.getLast? with
    | none => s.log.newest = 0 ∧ s.log.next = 1
    | some r => s.log.newest = r.seq ∧ s.log.next = seqSucc r.seq

/-- While the mode is CONFIG, and no ENTER_CONFIG claim still waits at the Point Engine, every point is in sequence
state NORMAL with condition NORMAL, none is SHELVED, no first member is held and no latch is set, and the change queue
is empty (R13, R174). -/
def State.QuietInConfig (s : State) : Prop :=
  s.inReset = false → s.mode = .config → s.engineClaim = none →
    (∀ p, (s.pt p).seqState = .normal ∧ (s.pt p).condition = .normal ∧ (s.pt p).service.endTime = none
      ∧ (s.pt p).firstMember = none) ∧ (∀ i, (s.ent i).latch = false) ∧ s.changeQueue = []

/-- The record of a unit-0 input keeps the qualified level of the scanner (R116). -/
def State.ScannerAgrees (s : State) : Prop := ∀ l : LineNo, (s.inp (lineInput l)).level = (s.line l).qualified

/-- Every reported quality is the one its record gives (R122). -/
def State.QualityFormed (s : State) : Prop := ∀ i, (s.inp i).reported = (s.inp i).formed

/-- The inputs of a unit that is not ONLINE are lost, and the exchange outstanding, unless void, is the one that its
unit's state chooses (R138, R139, R148). -/
def State.LostWhenNotOnline (s : State) : Prop :=
  (∀ u, (s.unit u).state ≠ .online → ∀ i ∈ unitInputs u, (s.inp i).unitLost = true) ∧
    ∀ x, s.link.exchange = some x → x.void = false →
      (s.unit x.unit).state ≠ .notFitted ∧ x.kind = (s.unit x.unit).messageKind

/-- The time of day lies in its range (R177). -/
def State.ClockInRange (s : State) : Prop := s.day < 65536 ∧ s.msOfDay < 86400000

/-- Every parent chain has at most three links, every parent is a GROUP, and every valid map entry names a FIELD point
(R38, R130). A point that were its own ancestor would have a chain of four links. -/
def State.HierarchySound (s : State) : Prop :=
  (∀ p, s.depth 4 p ≤ 3) ∧ (∀ p g, (s.pt p).parent = some g → (s.pt g).kind = .group) ∧
    ∀ i, (s.ent i).valid = true → ∃ p, (s.ent i).point = some p ∧ (s.pt p).kind = .field

/-- The recorded quality and condition of a point are the ones its entries or children give: a re-evaluation finds
nothing changed (R8, R9, R31, R32). -/
def State.UpToDate (s : State) (p : PointNo) : Prop :=
  match (s.pt p).kind with
  | .spare => True
  | .field => (s.pt p).quality = s.fieldQuality p ∧ ((s.pt p).quality = .good → (s.pt p).condition = s.fieldCondition p)
  | .group => (s.pt p).quality = s.groupQuality p ∧ (s.pt p).condition = s.groupCondition p

/-- The points that the initial evaluation has reached (R169). -/
def State.evaluated (s : State) : List PointNo :=
  match s.evalPos with
  | none => s.evalOrder
  | some p => s.evalOrder.takeWhile fun q => q ≠ p

/-- In RUN every point is up to date with its entries or children, and in STARTING every point evaluated is (R31, R32, R34,
R171). -/
def State.PointsInStep (s : State) : Prop :=
  s.inReset = false →
    (s.mode = .run → ∀ p, s.UpToDate p) ∧ (s.mode = .starting → ∀ p ∈ s.evaluated, s.UpToDate p)

/-- While an ENTER_CONFIG claim waits at the Point Engine the mode is CONFIG (R174). -/
def State.ClaimInConfig (s : State) : Prop := s.engineClaim ≠ none → s.mode = .config

/-- The point that lies `n` parent links above a point, where its chain goes so far (R38). -/
def State.ancestor (s : State) : Nat → PointNo → Option PointNo
  | 0, p => some p
  | n + 1, p =>
    match (s.pt p).parent with
    | none => none
    | some g => State.ancestor s n g

/-! ### The vocabulary of the statements about requests -/

/-- The frame `f` waits at the head of the intake of port `p`, the decoder is free to take it, it is no retransmission,
no ENTER_CONFIG claim holds it back, no raising waits, and it passes the checks FORMAT, UNKNOWN_KIND, RING and MODE as
a request of kind `k` (R184, R185; log 8, log 11). -/
structure State.Takes (s : State) (p : Port) (k : ReqKind) (f : Frame) : Prop where
  outOfReset : s.inReset = false
  noRaising : s.raisings = []
  engineFree : k.waitsForEngine = true → s.engineClaim = none
  head : s.takeable p = some f
  fresh : s.isRetransmission p f = false
  kind : f.kind = k.code
  length : f.body.length = k.bodyLength
  ring : s.ringOk p k f = true
  mode : s.modeOk k f = true

/-- The bytes of the response to `f` (R186). -/
def responseBytes (f : Frame) (status : Status) (results : List Byte) : List Byte :=
  stationFrame { tag := f.tag, kind := f.kind, body := b1 status.code ++ results }

/-- The point argument of a request, where it has one and its body is long enough to carry it (R161). -/
def Frame.pointArgument (f : Frame) : Option PointNo :=
  match ReqKind.ofCode f.kind with
  | none => none
  | some k => match k.pointOffset with
    | none => none
    | some i => if i < f.body.length then some (f.point i) else none

/-- The command capture record after the load of a request taken at port `p` at the time `taken`: a locked one stays
(R161). -/
def State.capturedAt (s : State) (taken : TimeStamp) (p : Port) (f : Frame) : CommandCapture :=
  if s.commandCapture.locked then s.commandCapture
  else
    { s.commandCapture with
      contents := some { port := p, tag := f.tag, kind := f.kind, point := f.pointArgument, stamp := taken } }

/-- The command capture record after a request taken at port `p` now. -/
def State.captured (s : State) (p : Port) (f : Frame) : CommandCapture := s.capturedAt s.now p f

/-- The command capture record after a refusal FORMAT, UNKNOWN_KIND or RING of a request taken at the time `taken`: locked
on that request's load, or with MULTIPLE set where it was locked (R162). -/
def State.faultCaptured (s : State) (taken : TimeStamp) (p : Port) (f : Frame) : CommandCapture :=
  if s.commandCapture.locked then { s.commandCapture with multiple := true }
  else { s.capturedAt taken p f with locked := true }

/-- A station port that has answered `f` with `bytes`: the frame is out of the intake, no request is in progress and
the response is cached; what the arbiter holds is as it was (R184, R186). -/
def Station.closed (t : Station) (f : Frame) (bytes : List Byte) : Station :=
  { t with intake := t.intake.tail, inProgress := none, cache := some { request := f, response := bytes } }

/-- The same with the response handed to the arbiter: it begins at once on a free line and waits on a busy one
(R187). -/
def Station.answered (t : Station) (f : Frame) (bytes : List Byte) : Station :=
  match t.tx with
  | none => { t.closed f bytes with tx := some (.response bytes) }
  | some _ => { t.closed f bytes with waitResponse := some bytes }

/-- A station port that has answered a request `f` in progress with `bytes` (R184, R186, R187). -/
def Station.replied (t : Station) (f : Frame) (bytes : List Byte) : Station :=
  let t1 := { t with inProgress := none, cache := some { request := f, response := bytes } }
  match t.tx with
  | none => { t1 with tx := some (.response bytes) }
  | some _ => { t1 with waitResponse := some bytes }

/-- `s` after the request `f` of port `p` has been taken and waits in progress for its owner, with the ring that the port
had then and the time of the taking (R184; log 8). -/
def State.held (s : State) (p : Port) (f : Frame) : State :=
  { s with
    commandCapture := s.captured p f
    stations := s.stations.set p.val
      { s.stn p with
        intake := (s.stn p).intake.tail
        inProgress := some { frame := f, stage := .waiting (s.stn p).ring s.now } } }

/-- `s` after the request `f` of port `p` has been taken and answered, and nothing else has been done. -/
def State.answered (s : State) (p : Port) (f : Frame) (status : Status) (results : List Byte) : State :=
  { s with
    commandCapture := s.captured p f
    stations := s.stations.set p.val ((s.stn p).answered f (responseBytes f status results)) }

/-- The same but for what the arbiter of port `p` holds: the response is cached, and `w` stands where a response
waits. -/
def State.closed (s : State) (p : Port) (f : Frame) (status : Status) (results : List Byte) (w : Option (List Byte)) :
    State :=
  { s with
    commandCapture := s.captured p f
    stations := s.stations.set p.val
      { (s.stn p).closed f (responseBytes f status results) with waitResponse := w } }

/-- The response to `f` is on its way: in transmission at port `p`, or waiting (R187). -/
def State.Responding (t : State) (p : Port) (f : Frame) (status : Status) (results : List Byte) : Prop :=
  (t.stn p).tx = some (.response (responseBytes f status results))
    ∨ (t.stn p).waitResponse = some (responseBytes f status results)

/-! ### The vocabulary of the statements about records and notices -/

/-- A queued notice after placements at its port, of which one may have offered the notice of number `k`: it keeps its
number and identity, the notice offered is OFFERED with its count one higher, held at 8, and only a never-offered
notice takes another class and content (R71, R77). -/
def Notice.Kept (k : Option Nat) (n m : Notice) : Prop :=
  m.number = n.number ∧ m.content.identity = n.content.identity
    ∧ (n.neverOffered = false → m.cls = n.cls ∧ m.content = n.content)
    ∧ if k = some n.number then m.offered = true ∧ m.count = min (n.count + 1) 8
      else m.offered = n.offered ∧ m.count = n.count

/-- From `d` to `e` notices have been placed at a Dispatch Controller, and `k` is the number of the one offered, if one was:
nothing happens at a detached port; the queued notices are kept and the new ones follow them under numbers of their
own; resync pending is set on a full queue alone; only an IDLE port that is not polled offers, and only an offer loads
the failure record, if that is unlocked (R70 to R72, R77, R82). -/
structure Dispatch.PlacedOnto (k : Option Nat) (d e : Dispatch) : Prop where
  rest : e = { d with
    queue := e.queue, nextNumber := e.nextNumber, state := e.state, resyncPending := e.resyncPending
    failure := e.failure }
  detached : d.state = .detached → e = d
  queue : ∃ old new, e.queue = old ++ new ∧ List.Forall₂ (Notice.Kept k) d.queue old
    ∧ (new = [] → e.nextNumber = d.nextNumber)
    ∧ ∀ m ∈ new, (∀ n ∈ d.queue, n.number ≠ m.number) ∧ m.offered = decide (k = some m.number)
      ∧ m.count = m.offered.toNat
  overrun : e.resyncPending = d.resyncPending ∨ e.resyncPending = true ∧ 24 ≤ e.queue.length
  noOffer : k = none → e.state = d.state ∧ e.failure = d.failure
  offer : ∀ j, k = some j → d.state = .idle ∧ d.polled = false ∧ e.state = .offering
    ∧ (∃ n ∈ e.queue, n.number = j)
    ∧ if d.failure.locked then e.failure = d.failure
      else e.failure = { d.failure with contents := e.failure.contents }
        ∧ e.failure.contents.map FailureDetail.number = some j

/-- The line of a port carries what it carried, or was free and carries a response. -/
def Station.SameLine (a b : Station) : Prop := b.tx = a.tx ∨ a.tx = none ∧ ∃ x, b.tx = some (.response x)

/-- What the arbiter has received from a Dispatch Controller whose queue is now `q`: the NOTICE frame of the notice of
number `k`, if that was offered, begins on a free line and otherwise waits; without an offer it has received nothing
(R77, R187). -/
def Station.Sent (k : Option Nat) (q : List Notice) (a b : Station) : Prop :=
  (k = none → b.waitNotice = a.waitNotice ∧ a.SameLine b)
    ∧ ∀ j, k = some j → ∃ n ∈ q, n.number = j ∧ n.offered = true
        ∧ (a.tx = none ∧ b.tx = some (.notice (noticeFrame n) true) ∧ b.waitNotice = a.waitNotice
          ∨ b.waitNotice = some (noticeFrame n) ∧ a.SameLine b)

/-- From `s` to `t` nothing has happened but appends, placements and raisings: every field outside the Event Record,
the Dispatch Controllers, the flags and the arbiters is as it was, each port has taken placements alone and its arbiter
the NOTICE frame of an offer alone, a frame in transmission stays so, no flag is cleared, and the settings of the Event
Record are kept (R102, R71, R155, R187). -/
structure OnlyEmits (s t : State) : Prop where
  rest : t = { s with
    dispatch := t.dispatch, log := t.log, flags := t.flags, stations := t.stations, raisings := t.raisings }
  ports : ∀ p, ∃ k, (s.dsp p).PlacedOnto k (t.dsp p) ∧ (s.stn p).Sent k (t.dsp p).queue (t.stn p)
  arbiters : ∀ p, t.stn p = { s.stn p with tx := (t.stn p).tx, waitNotice := (t.stn p).waitNotice }
  busy : ∀ p x, (s.stn p).tx = some x → (t.stn p).tx = some x
  flags : ∀ f, s.flagSet f = true → t.flagSet f = true
  archive : t.log.archive = s.log.archive
  threshold : t.log.threshold = s.log.threshold

/-- The flags that any append or placement can raise (R72, R105, R107). -/
def followingFlags : List Flag := [.noticeOverrun, .logLoss, .logHigh]

/-- Beside the flags of the base state, `t` has set `raised` and at most flags that follow from appends and placements;
without an archive port the Event Record raises none (R155, R156). -/
def FlagsOnly (base t : State) (raised : List Flag) : Prop :=
  (∀ f, t.flagSet f = true → base.flagSet f = true ∨ f ∈ raised ∨ f ∈ followingFlags)
    ∧ (base.log.archive = none → ∀ f, f = .logLoss ∨ f = .logHigh → f ∉ raised → t.flagSet f = base.flagSet f)

/-- Drafts numbered from `n` on (R101, R102). -/
def numberFrom : Nat → List RecordDraft → List EventRecord
  | _, [] => []
  | n, d :: rest => d.numbered n :: numberFrom (seqSucc n) rest

/-- The newest 1024 of a list of records, which the ring holds (R102). -/
def newestRecords (l : List EventRecord) : List EventRecord := l.drop (l.length - 1024)

/-- From `s` to `t` exactly the drafts `ds` have been appended, in their order, under the numbers that follow; the
oldest records give way where the ring is full (R102). -/
def Appends (s t : State) (ds : List RecordDraft) : Prop :=
  t.log.ring = newestRecords (s.log.ring ++ numberFrom s.log.next ds) ∧ t.log.next = Nat.repeat seqSucc ds.length s.log.next

/-- The record is the SYSTEM record of a raising (R155). -/
def RecordDraft.isSystem (d : RecordDraft) : Bool := d.body.kindCode == 5

/-- The first records appended are `ds`, and every later one is as `P` says. -/
def AppendsThen (s t : State) (ds : List RecordDraft) (P : RecordDraft → Prop) : Prop :=
  ∃ more : List RecordDraft, Appends s t (ds ++ more) ∧ ∀ d ∈ more, P d

/-- The first records appended are `ds`, and every later one is the SYSTEM record of a raising that they or their
notices led to (R155, R156). -/
def AppendsFirst (s t : State) (ds : List RecordDraft) : Prop := AppendsThen s t ds fun d => d.isSystem = true

/-- A record of a group above a point that has changed (cause MEMBER, R35), or the SYSTEM record of a raising. -/
def RecordDraft.follows (d : RecordDraft) : Prop := d.cause = some .member ∨ d.isSystem = true

/-- The draft of a point record (R19, R20). -/
def pointDraft (c : Claim) (p : PointNo) (cause : Cause) (body : RecordBody) : RecordDraft :=
  { stamp := c.stamp, body := body, point := some p, input := c.input, port := c.port, cause := some cause }

/-- The draft of a record that carries a port alone beside its values (R98, R100). -/
def otherDraft (stamp : TimeStamp) (body : RecordBody) (port : Option Port) : RecordDraft :=
  { stamp := stamp, body := body, point := none, input := none, port := port, cause := none }

/-- The draft of the SYSTEM record of a raising of flag `f` at state `s` (R155, step 3). -/
def State.systemDraft (s : State) (f : Flag) (unit : Option UnitNo) (port : Option Port) (input : Option InputNo)
    (detail : Detail) (reqPort : Option Port) : RecordDraft :=
  { stamp := s.now, body := .system (s.flagSet f) f unit port detail, point := none, input := input, port := reqPort
    cause := none }

/-- The first record appended is `d`, and the next ones are those of the raisings that it led to, of LOG_LOSS and then of
LOG_HIGH where it raised them, and `raised`, the SYSTEM record of a raising handed on behind them (R103, R105, R107, R155);
without an archive port `raised` follows at once. Every later record is that of a raising. -/
def AppendsRaising (s t : State) (d raised : RecordDraft) : Prop :=
  ∃ between : List RecordDraft,
    between.Sublist
        [s.systemDraft .logLoss none none none .none none, s.systemDraft .logHigh none none none .none none]
      ∧ (s.log.archive = none → between = []) ∧ AppendsFirst s t (d :: between ++ [raised])

/-! ### The vocabulary of the statements about the Point Engine -/

/-- The seven configuration values of a point (R1). -/
def PointRec.config (r : PointRec) : PointConfig :=
  { kind := r.kind, seqType := r.seqType, cls := r.cls, subs := r.subs, ackRing := r.ackRing, parent := r.parent
    firstOut := r.firstOut }

/-- The body of a SET_POINT carries the configuration `c` for point `q` (Table 10-12): the second byte of an absent
parent may be anything. -/
def Frame.CarriesPoint (f : Frame) (q : PointNo) (c : PointConfig) : Prop :=
  f.arg 0 = q.val ∧ f.arg 1 = c.kind.code ∧ f.arg 2 = c.seqType.code ∧ f.arg 3 = c.cls.val ∧ f.arg 4 = c.subs.toNat
    ∧ f.arg 5 = c.ackRing.val ∧ f.arg 6 = c.parent.isSome.toNat ∧ (∀ g, c.parent = some g → f.arg 7 = g.val)
    ∧ f.arg 8 = c.firstOut.toNat

/-- Every point that was up to date is so still: the groups above a changed point have been re-evaluated (R34, R36). -/
def KeepsUpToDate (s t : State) : Prop := ∀ x, s.UpToDate x → t.UpToDate x

/-- The audible request follows the entries into ALERT: an IN_SERVICE point of a qualifying class that has entered ALERT
has set it, and nothing else has (R24). -/
def AlertsAudibly (s t : State) : Prop :=
  (∀ x, (t.pt x).seqState = .alert → (s.pt x).seqState ≠ .alert → (t.pt x).service = .inService →
      s.qualifies (t.pt x).cls = true → t.audibleRequest = true)
    ∧ (t.audibleRequest = true → s.audibleRequest = true
      ∨ ∃ x, (t.pt x).seqState = .alert ∧ (t.pt x).service = .inService ∧ s.qualifies (t.pt x).cls = true)

/-- From `s` to `t` nothing has happened but what follows from a change of point `p`: points off its parent chain are
as they were, no configuration changes, and service changes at no point but `p` (R34, R36). -/
structure OnlyMoves (s t : State) (p : PointNo) : Prop where
  emits : OnlyEmits { s with points := t.points, audibleRequest := t.audibleRequest } t
  offChain : ∀ q, s.onChain q Config.maxLinks p = false → t.pt q = s.pt q
  config : ∀ q, (t.pt q).config = (s.pt q).config
  service : ∀ q, q ≠ p → (t.pt q).service = (s.pt q).service ∧ (t.pt q).shelveTimer = (s.pt q).shelveTimer
  request : s.audibleRequest = true → t.audibleRequest = true

/-- The first member that a record or a picture of the point shows: that of a first-out GROUP (R22, R98). -/
def PointRec.shownMember (r : PointRec) : Option PointNo :=
  if r.kind = .group ∧ r.firstOut = true then r.firstMember else none

/-- The sequence state that a condition formed drives the point to: the cell of its table where the condition changes and
the point is IN_SERVICE and not SPARE, and otherwise none (R12, R14 to R16). -/
def PointRec.driven (r : PointRec) (c : Condition) : Option SeqState :=
  if r.condition ≠ c ∧ r.service = .inService ∧ r.kind ≠ .spare then
    seqTable r.seqType r.seqState r.condition (if c = .abnormal then .up else .down)
  else none

/-- The sequence state after a condition formed. -/
def PointRec.stateAfter (r : PointRec) (c : Condition) : SeqState := (r.driven c).getD r.seqState

/-- The records of a point whose quality and condition have been formed (R12, R19, R23). -/
def formedDrafts (claim : Claim) (p : PointNo) (qualityCause stateCause : Cause) (r : PointRec) (q : PointQuality)
    (c : Condition) : List RecordDraft :=
  (if r.quality ≠ q then [pointDraft claim p qualityCause (.pointQuality r.quality q)] else [])
    ++ match r.driven c with
      | none => []
      | some st => [pointDraft claim p stateCause (.pointState r.seqState st c r.shownMember)]

/-- The first member that a group takes when its child has brought it to the condition `c`: that child at an entry from
NORMAL, none where the sequence state is NORMAL, and otherwise no other one (R41, R42). -/
def PointRec.memberTaken (r : PointRec) (child : PointNo) (c : Condition) : Option (Option PointNo) :=
  if r.firstOut = true ∧ r.service = .inService ∧ r.seqState = .normal ∧ r.condition = .normal ∧ c = .abnormal then
    some (some child)
  else if r.firstOut = true ∧ r.stateAfter c = .normal ∧ r.firstMember.isSome = true then some none
  else none

/-- The records of a group that its child has brought to quality `q` and condition `c` (R23, R35). -/
def groupDrafts (claim : Claim) (g child : PointNo) (r : PointRec) (q : PointQuality) (c : Condition) :
    List RecordDraft :=
  formedDrafts claim g .member .member r q c
    ++ match r.memberTaken child c with
      | none => []
      | some m => [pointDraft claim g .member (.pointState (r.stateAfter c) (r.stateAfter c) c m)]

/-- The parent group of point `p`, which has changed at `s` under `claim` with the records `own`, has followed by `t`: the
group has the quality and condition of its children, the state of its table and its first member, its records come next,
and only those of the groups above it and of flags after them (R34 to R36, R41, R42). -/
def ParentFollows (s t : State) (claim : Claim) (p : PointNo) (own : List RecordDraft) : Prop :=
  ((∀ g, (s.pt p).parent = some g → (s.pt g).kind ≠ .group) → AppendsFirst s t own)
    ∧ ∀ g, (s.pt p).parent = some g → (s.pt g).kind = .group →
        let h := s.pt g
        let c := t.groupCondition g
        t.pt g =
            { h with
              quality := t.groupQuality g, condition := c, seqState := h.stateAfter c
              firstMember := (h.memberTaken p c).getD h.firstMember, lastChange := (t.pt g).lastChange }
          ∧ AppendsThen s t (own ++ groupDrafts claim g p h (t.groupQuality g) c) RecordDraft.follows

/-- The state to which an acknowledgement takes a point in ALERT or RETURN_UNACKED (Tables 1-2 to 1-4, R49). -/
def PointRec.ackedState (r : PointRec) : SeqState :=
  if r.seqState = .alert then .acked
  else match r.seqType with
    | .auto => .normal
    | .ringback => .ringback
    | .latch => .acked

/-- A point without its first member, where it is a first-out one whose sequence state is NORMAL (R42). -/
def PointRec.memberCleared (r : PointRec) : PointRec :=
  if r.firstOut = true ∧ r.seqState = .normal then { r with firstMember := none } else r

/-- The record of that clearing, where a first member was held (R42). -/
def clearedDrafts (claim : Claim) (p : PointNo) (r : PointRec) : List RecordDraft :=
  if r.firstOut = true ∧ r.seqState = .normal ∧ r.firstMember.isSome = true then
    [pointDraft claim p .member (.pointState .normal .normal r.condition none)]
  else []

/-- The queue holds a notice of class `cls` whose content is as `C` says, or was found full by it (R71, R72). -/
def Dispatch.Holds (d : Dispatch) (cls : PClass) (C : NoticeContent → Prop) : Prop :=
  (∃ n ∈ d.queue, n.cls = cls ∧ C n.content) ∨ 24 ≤ d.queue.length ∧ d.resyncPending = true

/-- The queue holds a MODE notice of the mode (R94). -/
def Dispatch.HoldsMode (d : Dispatch) (m : Mode) : Prop := d.Holds 0 (· = .mode m)

/-- The content pictures the latest recorded change of the point, whose record is `r` (R22). -/
def NoticeContent.Shows (p : PointNo) (r : PointRec) (c : NoticeContent) : Prop :=
  ∃ x : Picture, c = .point x ∧ x.point = p ∧ x.seqState = r.seqState ∧ x.quality = r.quality ∧ x.service = r.service
    ∧ x.lastChange = r.lastChange

/-- The queue holds a notice that shows the point as its record `r` has it (R22). -/
def Dispatch.HoldsPoint (d : Dispatch) (p : PointNo) (r : PointRec) : Prop := d.Holds r.cls (NoticeContent.Shows p r)

/-- Every point with a new record has reached its subscribers: each attached port of its subscriber mask holds its notice
(R19, R21, R22). -/
def Announces (s t : State) : Prop :=
  ∀ x, (t.pt x).lastChange ≠ (s.pt x).lastChange → ∀ q : Port, (t.pt x).subs.getLsbD q.val = true →
    (s.dsp q).state ≠ .detached → (t.dsp q).HoldsPoint x (t.pt x)

/-! ### The vocabulary of the statements about the field path and the lines -/

/-- Of the entries `es`, of different inputs, those that reach the change queue at `s`: none in CONFIG, and none of a
deferred input (R123, R125). -/
def State.reaching (s : State) (es : List ChangeEntry) : List ChangeEntry :=
  es.filter fun e => s.mode != .config && !(s.inp e.input).deferred

/-- Those that find it full (R125). -/
def State.overflowing (s : State) (es : List ChangeEntry) : List ChangeEntry :=
  (s.reaching es).drop (128 - s.changeQueue.length)

/-- What the entries `es`, of different inputs, produced at `s` in this order, have done by `t` (R123 to R125): those that
reach the queue take the places left at its tail, the rest find it full and defer their inputs, and every other input
keeps what was last queued for it. -/
def EntriesProduced (s t : State) (es : List ChangeEntry) : Prop :=
  let placed := (s.reaching es).take (128 - s.changeQueue.length)
  t.changeQueue = s.changeQueue ++ placed
    ∧ (∀ e ∈ placed, (t.inp e.input).queuedLevel = e.level ∧ (t.inp e.input).queuedQuality = e.quality)
    ∧ (∀ i, (∀ e ∈ placed, e.input ≠ i) →
        (t.inp i).queuedLevel = (s.inp i).queuedLevel ∧ (t.inp i).queuedQuality = (s.inp i).queuedQuality)
    ∧ ∀ i, (t.inp i).deferred = true ↔ (s.inp i).deferred = true ∨ ∃ e ∈ s.overflowing es, e.input = i

/-- The entry that the catch-up appends for a deferred input (R126). -/
def State.catchUpEntry (s : State) (i : InputNo) : Option ChangeEntry :=
  let r := s.inp i
  if r.reported ≠ r.queuedQuality then
    some ⟨.quality, i, r.level, r.reported, r.lastQualityChange.getD s.now, true⟩
  else if r.reported = .good ∧ r.level ≠ r.queuedLevel then
    some ⟨.level, i, r.level, .good, r.lastChange.getD s.now, true⟩
  else none

/-- The catch-up from `s`, whose queue has lost its head, to `t` (R126): deferred inputs are served in the order of their
addresses while the queue has a place, each loses its mark, and those that do not report what was last queued for them
have an entry; it ends on a full queue or with no input deferred. -/
def CaughtUp (s t : State) : Prop :=
  ∃ served : List InputNo,
    served.Pairwise (· < ·) ∧ (∀ i ∈ served, (s.inp i).deferred = true)
      ∧ (∀ i ∈ served, ∀ j, j < i → (s.inp j).deferred = true → j ∈ served)
      ∧ t.changeQueue = s.changeQueue ++ served.filterMap s.catchUpEntry
      ∧ (∀ i, i ∉ served → t.inp i = s.inp i)
      ∧ (∀ i ∈ served, t.inp i = match s.catchUpEntry i with
        | none => { s.inp i with deferred := false }
        | some e => { s.inp i with deferred := false, queuedLevel := e.level, queuedQuality := e.quality })
      ∧ (∀ first last, served = first ++ [last] →
          s.changeQueue.length + (first.filterMap s.catchUpEntry).length < 128)
      ∧ ((∃ i, (t.inp i).deferred = true) → 128 ≤ t.changeQueue.length)

/-- The quality that the three marks of an input record give (R122). -/
def qualityOf (unitLost discrepant chatter : Bool) : InQuality :=
  if unitLost then .unitLost else if discrepant then .discrepant else if chatter then .chatter else .good

/-- The record of an input marked discrepant or not, with its reported quality formed afresh (R122). -/
def InputRec.formedWith (r : InputRec) (discrepant : Bool) (stamp : TimeStamp) : InputRec :=
  let quality := qualityOf r.unitLost discrepant r.chatterActive
  { r with
    discrepant := discrepant, reported := quality
    lastQualityChange := if quality = r.reported then r.lastQualityChange else some stamp }

/-- The QUALITY entries of a lost-state claim, in line order: those of the inputs not reported UNIT_LOST already (R121). -/
def State.lostEntries (s : State) (u : UnitNo) : List ChangeEntry :=
  ((unitInputs u).filter fun i => (s.inp i).reported != .unitLost).map fun i =>
    ⟨.quality, i, (s.inp i).level, .unitLost, s.now, false⟩

/-- The record of an input whose unit is lost, with its last queued values and its deferred mark as `q` has them (R121). -/
def InputRec.lost (r q : InputRec) (stamp : TimeStamp) : InputRec :=
  { r with
    unitLost := true, reported := .unitLost
    lastQualityChange := if r.reported = .unitLost then r.lastQualityChange else some stamp
    queuedLevel := q.queuedLevel, queuedQuality := q.queuedQuality, deferred := q.deferred }

/-- What a lost-state claim of unit `u` at `s` has done by `t` (R121): the unit's inputs are lost, every other input is as it
was, and the entries have been produced. -/
def InputsLost (s t : State) (u : UnitNo) : Prop :=
  (∀ i ∈ unitInputs u, t.inp i = (s.inp i).lost (t.inp i) s.now)
    ∧ (∀ i, i ∉ unitInputs u → t.inp i = s.inp i)
    ∧ EntriesProduced s t (s.lostEntries u)
    ∧ (s.overflowing (s.lostEntries u) ≠ [] → t.flagSet .changeDeferred = true)

/-- What two passes of entries, each of different inputs, produced at `s` one pass after the other, have done by `t` (R121,
R123 to R125). The state `m` stands between the passes. -/
def PassesProduced (s t : State) (first second : List ChangeEntry) : Prop :=
  ∃ m : State, m.mode = s.mode ∧ EntriesProduced s m first ∧ EntriesProduced m t second
    ∧ (s.overflowing first ≠ [] ∨ m.overflowing second ≠ [] → t.flagSet .changeDeferred = true)

/-- The state after the reports of a CHANGES answer have been handed on one by one: each is an accepted change, or is
discarded where its level is the one that the record holds (R142, R117). -/
def State.reportsApplied (s : State) (u : UnitNo) (arrival : TimeStamp) (reports : List Report) : State :=
  reports.foldl
    (fun m r =>
      let i := remoteInput u r.line
      if r.level = (m.inp i).level then m else m.acceptChange i r.level (arrival.subMs r.age)) s

/-- The input capture record with the contents of a LEVEL entry, unless it is locked (R163). -/
def State.inputLoaded (s : State) (e : ChangeEntry) : InputCapture :=
  if s.inputCapture.locked then s.inputCapture
  else { s.inputCapture with contents := some { input := e.input, level := e.level, stamp := e.stamp } }

/-- The same locked, or with MULTIPLE set where it was locked before (R135, step 4). -/
def State.inputLocked (s : State) (e : ChangeEntry) : InputCapture :=
  if s.inputCapture.locked then { s.inputCapture with multiple := true }
  else { s.inputLoaded e with locked := true }

/-- The draft of an INPUT record (R98, R134, R135). -/
def inputDraft (e : ChangeEntry) (before : Option Level) (d : Disposition) (mapped : Option PointNo) : RecordDraft :=
  { stamp := e.stamp, body := .input before e.level e.quality d mapped, point := none, input := some e.input
    port := none, cause := some (if e.coalesced then .inputCoalesced else .input) }

/-- The bytes as they arrive with good stop bits. -/
def goodBytes (l : List Byte) : List RxByte := l.map fun b => { value := b, stopLow := false }

/-- The turn of a unit has begun: its polls are 0 and the message of its state is on the line (R137, R139). -/
def State.TurnBegun (t : State) (u : UnitNo) : Prop :=
  t.link.turn = some u ∧ (t.unit u).polls = 0
    ∧ t.link.exchange = some
      { unit := u, kind := (t.unit u).messageKind, void := false, phase := .sending
        message := linkFrame (u.val + 1) (t.unit u).messageKind.type (t.unit u).messageBody }

/-- No unit has a turn. -/
def State.NoTurn (t : State) : Prop := t.link.turn = none ∧ t.link.exchange = none

/-- The turn of unit `u` has ended. The next fitted unit has its turn, but for one fitted since the cycle began; without one
the cycle has ended, and if another is due it starts at once with the first fitted unit and clears due (R139, R147). -/
def TurnEnded (s t : State) (u : UnitNo) : Prop :=
  let fitted := fun v => (t.unit v).state ≠ .notFitted
  let inCycle := fun v => fitted v ∧ (s.unit v).newlyFitted = false
  let last := ∀ v, u < v → ¬ inCycle v
  let sameCycle := t.link.due = s.link.due ∧ ∀ v, (t.unit v).newlyFitted = (s.unit v).newlyFitted
  t.link.pollCycle = s.link.pollCycle ∧ t.link.pollTimer = s.link.pollTimer ∧ t.link.rx = .hunting
    ∧ (∀ v, u < v → inCycle v → (∀ w, u < w → w < v → ¬ inCycle w) → t.TurnBegun v ∧ sameCycle)
    ∧ (last → s.link.due = false → t.NoTurn ∧ sameCycle)
    ∧ (last → s.link.due = true →
        t.link.due = false ∧ (∀ v, (t.unit v).newlyFitted = false) ∧ ((∀ v, ¬ fitted v) → t.NoTurn)
          ∧ ∀ v, fitted v → (∀ w, w < v → ¬ fitted w) → t.TurnBegun v)

/-- A unit record but for what the end of a turn may change: its polls this turn, and the mark of a unit newly fitted
(R139). -/
def SameUnit (r q : UnitRec) : Prop := q = { r with polls := q.polls, newlyFitted := q.newlyFitted }

/-- A void exchange with unit `u` has ended: the turn has ended and nothing else has happened (R148). -/
def VoidEnded (s t : State) (u : UnitNo) : Prop :=
  t = { s with link := t.link } ∧ TurnEnded s t u ∧ ∀ v, SameUnit (s.unit v) (t.unit v)

/-- Bytes that a hunting master discards: none is a START (R137), a START with a low stop bit not counting as one (log 4). -/
def NoStart (bytes : List RxByte) : Prop := ∀ b ∈ bytes, b.value ≠ 0xC3#8 ∨ b.stopLow = true

/-- A frame on the link by the length that its TYPE, and for CHANGES its report count, asks for (R137, Table 10-11). -/
def LinkLength (type : Byte) (body : List Byte) : Prop :=
  type = 0x81#8 ∧ body.length = 3 ∨ type = 0x82#8 ∧ body.length = 9
    ∨ type = 0x83#8 ∧ 3 ≤ body.length ∧ (body.getD 2 0).toNat ≤ 8 ∧ body.length = 3 + 3 * (body.getD 2 0).toNat

/-! ### The vocabulary of the statements about the ports -/

/-- The row that stands for the frame `f`, of kind `k`, at port `p`: ACK_POINT and CLEAR_FAULT have two rows each. -/
def rowFor (k : ReqKind) (p : Port) (f : Frame) : Instr :=
  match k with
  | .setPoint => .setPoint p
  | .readPoint => .readPoint p
  | .setMap => .setMap p
  | .readMap => .readMap p
  | .setInputs => .setInputs p
  | .readInput => .readInput p
  | .setUnit => .setUnit p
  | .setLink => .setLink p
  | .readUnit => .readUnit p
  | .ackPoint => if withMembers f then .ackPointMembers p else .ackPoint p
  | .ackClass => .ackClass p
  | .ackAll => .ackAll p
  | .resetPoint => .resetPoint p
  | .resetAll => .resetAll p
  | .silence => .silence p
  | .shelve => .shelve p
  | .unshelve => .unshelve p
  | .remove => .remove p
  | .restore => .restore p
  | .setAudible => .setAudible p
  | .take => .take p
  | .poll => .poll p
  | .done => .done p
  | .doneClass => .doneClass p
  | .setLowest => .setLowest p
  | .setDispatch => .setDispatch p
  | .attach => .attach p
  | .detach => .detach p
  | .readPort => .readPort p
  | .setPort => .setPort p
  | .setLog => .setLog p
  | .confirmLog => .confirmLog p
  | .readLog => .readLog p
  | .setRoute => .setRoute p
  | .clearFlags => .clearFlags p
  | .testSource => .testSource p
  | .clearFault => if namesPort f then .clearFaultPort p else .clearFault p
  | .readStatus => .readStatus p
  | .enterRun => .enterRun p
  | .enterConfig => .enterConfig p
  | .restart => .restart p
  | .setTime => .setTime p

/-- A request's row in Tables 10-12, 10-3 and 9-2: kind code, body length, highest ring, whether permission for the named
point is asked as well, and whether it is accepted in CONFIG, STARTING and RUN. -/
structure RequestRow where
  kind : ReqKind
  code : Nat
  length : Nat
  ring : Ring
  permission : Bool
  inConfig : Bool
  inStarting : Bool
  inRun : Bool
  deriving DecidableEq, Repr

/-- Tables 10-12, 10-3 and 9-2. -/
def requestTable : List RequestRow := List.flatten [
  [⟨.setPoint, 0x01, 9, 0, false, true, false, true⟩, ⟨.readPoint, 0x02, 2, 3, false, true, true, true⟩,
    ⟨.setMap, 0x03, 7, 0, false, true, false, false⟩, ⟨.readMap, 0x04, 2, 3, false, true, true, true⟩,
    ⟨.setInputs, 0x05, 23, 0, false, true, false, false⟩, ⟨.readInput, 0x06, 2, 3, false, true, true, true⟩,
    ⟨.setUnit, 0x07, 3, 0, false, true, false, false⟩, ⟨.setLink, 0x08, 1, 0, false, true, false, false⟩,
    ⟨.readUnit, 0x09, 0, 3, false, true, true, true⟩],
  [⟨.ackPoint, 0x10, 2, 3, true, false, false, true⟩, ⟨.ackClass, 0x11, 1, 3, false, false, false, true⟩,
    ⟨.ackAll, 0x12, 0, 3, false, false, false, true⟩, ⟨.resetPoint, 0x13, 1, 3, true, false, false, true⟩,
    ⟨.resetAll, 0x14, 0, 3, false, false, false, true⟩, ⟨.silence, 0x15, 0, 2, false, true, false, true⟩,
    ⟨.shelve, 0x16, 3, 1, true, false, false, true⟩, ⟨.unshelve, 0x17, 1, 1, true, false, false, true⟩,
    ⟨.remove, 0x18, 1, 0, false, true, false, true⟩, ⟨.restore, 0x19, 1, 0, false, true, false, true⟩,
    ⟨.setAudible, 0x1A, 1, 0, false, true, false, true⟩],
  [⟨.take, 0x20, 2, 3, false, true, true, true⟩, ⟨.poll, 0x21, 0, 3, false, true, true, true⟩,
    ⟨.done, 0x22, 0, 3, false, true, true, true⟩, ⟨.doneClass, 0x23, 2, 3, false, true, true, true⟩,
    ⟨.setLowest, 0x24, 1, 3, false, true, true, true⟩, ⟨.setDispatch, 0x25, 5, 3, false, true, true, true⟩,
    ⟨.attach, 0x26, 0, 3, false, true, true, true⟩, ⟨.detach, 0x27, 0, 3, false, true, true, true⟩,
    ⟨.readPort, 0x28, 1, 3, false, true, true, true⟩, ⟨.setPort, 0x29, 5, 0, false, true, true, true⟩],
  [⟨.setLog, 0x30, 3, 0, false, true, true, true⟩, ⟨.confirmLog, 0x31, 4, 3, false, true, true, true⟩,
    ⟨.readLog, 0x32, 5, 3, false, true, true, true⟩, ⟨.setRoute, 0x38, 4, 0, false, true, true, true⟩,
    ⟨.clearFlags, 0x39, 2, 1, false, true, true, true⟩, ⟨.testSource, 0x3A, 1, 0, false, true, true, true⟩,
    ⟨.clearFault, 0x3B, 1, 1, false, true, true, true⟩, ⟨.readStatus, 0x3C, 0, 3, false, true, true, true⟩],
  [⟨.enterRun, 0x40, 1, 0, false, true, false, false⟩, ⟨.enterConfig, 0x41, 0, 0, false, false, true, true⟩,
    ⟨.restart, 0x42, 0, 0, false, true, true, true⟩, ⟨.setTime, 0x43, 7, 1, false, true, true, true⟩]]

/-- `t` is `s` with another Dispatch Controller at port `p`, and other frames at its arbiter. -/
structure PortOnly (s t : State) (p : Port) : Prop where
  rest : t = { s with dispatch := t.dispatch, stations := t.stations }
  others : ∀ q, q ≠ p → t.dsp q = s.dsp q ∧ t.stn q = s.stn q
  arbiter : t.stn p =
    { s.stn p with
      tx := (t.stn p).tx, waitResponse := (t.stn p).waitResponse, waitNotice := (t.stn p).waitNotice }

/-- The request `f` of port `p` has been answered, and has changed nothing but the Dispatch Controller of the port, and
what its arbiter holds. -/
def ServedAtPort (s t : State) (p : Port) (f : Frame) (status : Status) (results : List Byte) : Prop :=
  PortOnly (s.closed p f status results none) t p ∧ t.Responding p f status results

/-- A Dispatch Controller after the test of R77: an IDLE port that is not polled offers the notice selected, and loads an
unlocked failure record with its details (R77, R82). -/
def Dispatch.tested (d : Dispatch) (stamp : TimeStamp) : Dispatch :=
  if d.state = .idle ∧ d.polled = false then
    match d.select with
    | none => d
    | some n =>
      let offer := fun m : Notice =>
        if m.number = n.number then { m with offered := true, count := min (m.count + 1) 8 } else m
      let detail : FailureDetail :=
        { number := n.number, id := n.content.identity, cls := n.cls, count := min (n.count + 1) 8, stamp := stamp }
      { d with
        queue := d.queue.map offer
        state := .offering
        failure := if d.failure.locked then d.failure else { d.failure with contents := some detail } }
  else d

/-- The notice that the test of R77 offers, as it stands at its offer. -/
def Dispatch.offerOf (d : Dispatch) : Option Notice :=
  if d.state = .idle ∧ d.polled = false then
    d.select.map fun n => { n with offered := true, count := min (n.count + 1) 8 }
  else none

/-- An arbiter after the test of R77: the NOTICE frame of an offer begins on a free line and waits on a busy one (R77,
R187). -/
def Station.noticed (a : Station) (offer : Option Notice) : Station :=
  match offer, a.tx with
  | none, _ => a
  | some n, none => { a with tx := some (.notice (noticeFrame n) true) }
  | some n, some _ => { a with waitNotice := some (noticeFrame n) }

/-- An arbiter whose offer has ended: a NOTICE frame that waits is dropped, and one begun is sent whole and starts no take
timer (R78). -/
def Station.withdrawn (a : Station) : Station :=
  { a with
    waitNotice := none
    tx := match a.tx with
      | some (.notice b _) => some (.notice b false)
      | x => x }

/-- The controller with a RESYNC notice as the only one in its queue (R73, R92, R94). -/
def Dispatch.resynced (d : Dispatch) : Dispatch :=
  { d with
    queue := [{ number := d.nextNumber, cls := 0, content := .resync, offered := false, count := 0 }]
    nextNumber := if d.nextNumber = 65535 then 1 else d.nextNumber + 1 }

/-- A queue left empty while resync pending is set receives a RESYNC notice (R73). -/
def Dispatch.refilled (d : Dispatch) : Dispatch :=
  if d.queue = [] ∧ d.resyncPending = true then { d with resyncPending := false }.resynced else d

end Sys2Proof.Machine
end

