-- ==== Sys2Proof/Certificates/Slice0/Obligations.lean ====
section
/-! DEFINITION. The statements for the provers. Each holds for every state and operand that meets its premises; the
premise `s.raisings = []` is kept by every step (QueuesKept), and the bound of the ring by RecordKept. -/

open Sys2Proof Sys2Proof.Machine

/-! ### The queue of commands -/

/-- A step takes the command at the front of the queue and carries it out on the queue's rest; with no command waiting the
block idles. The queue of commands is the model's (log 1). -/
def Obligations.StepTakesFront : Prop :=
  (∀ (c : Instr) (rest : List Instr) (s : State), s.pending = c :: rest → step s = exec c { s with pending := rest })
    ∧ ∀ s : State, s.pending = [] → step s = .next s

/-- No run faults and none is refused, from any state and for any number of steps: every trouble the spec describes is a
status, a flag, a capture record or the FAULT line. That a command leaves the queue of the commands behind it as it was is
the model's (log 1), and so is that a command whose event cannot occur is a next state with nothing changed, and no
refusal (log 2). -/
def Obligations.NoRunStops : Prop :=
  (∀ (n : Nat) (s : State), SafeFor n s)
    ∧ ∀ (c : Instr) (s : State), ∃ t, exec c s = .next t ∧ t.pending = s.pending

/-! ### Power-on and RESET_N (R176) -/

/-- Power-on: every block takes its power-on values, the local lines from their first samples (R176 and Tables 1-1, 4-1,
5-1, 6-1, 6-3, 6-4, 7-1 and 10-1; R4, R64, R66, R114, R124, R154, R158, R161, R163, R167, R177). That the first samples
stand in the command, that it acts from any state, RESET_N low or not, and that the queue of commands stays as it was
are the model's (log 1, log 13), as is the mark of a unit newly fitted (log 29). -/
def Obligations.PowerOnValues : Prop :=
  ∀ (levels : Vector Level 64) (rate : Bool) (s : State), ∃ t, exec (.powerOn levels rate) s = .next t
    ∧ t.inReset = false ∧ t.rate = rate ∧ t.mode = .config ∧ t.startAcked = false ∧ t.evalPos = none
    ∧ t.engineClaim = none ∧ t.day = 0 ∧ t.msOfDay = 0 ∧ t.timeQuality = .unset ∧ t.syncEnable = false
    ∧ t.watchdog = none ∧ t.elapsed = 0 ∧ (∀ f, t.flagSet f = false)
    ∧ (∀ f, t.route f = { port := 0, enable := false, cls := 0 })
    ∧ t.commandCapture = { contents := none, locked := false, multiple := false }
    ∧ t.inputCapture = { contents := none, locked := false, multiple := false }
    ∧ t.raisings = [] ∧ t.changeQueue = [] ∧ t.audibleRequest = false ∧ t.audibleThreshold = none
    ∧ t.audibleLine = false ∧ t.faultLine = false ∧ t.xlDir = false ∧ t.pending = s.pending
    ∧ (∀ p, t.pt p =
        { kind := .spare, seqType := .auto, cls := 7, subs := 0, ackRing := 1, parent := none, firstOut := false
          firstMember := none, condition := .normal, quality := .good, seqState := .normal, service := .inService
          shelveTimer := none, lastChange := none })
    ∧ (∀ i, t.ent i =
        { valid := false, point := none, normal := .opened, mode := .level, trap := false, record := false
          appliedLevel := .opened, appliedQuality := .good, latch := false })
    ∧ (∀ l : LineNo, t.line l = { raw := levels[l], qualified := levels[l], run := none })
    ∧ (∀ l : LineNo, t.inp (lineInput l) =
        { level := levels[l], lastChange := none, lastQualityChange := none, history := [], chatterActive := false
          chatterTimer := none, discrepant := false, unitLost := false, reported := .good, queuedLevel := levels[l]
          queuedQuality := .good, deferred := false })
    ∧ (∀ (u : UnitNo) (l : Nat), l < 64 → t.inp (remoteInput u l) =
        { level := .opened, lastChange := none, lastQualityChange := none, history := [], chatterActive := false
          chatterTimer := none, discrepant := false, unitLost := true, reported := .unitLost, queuedLevel := .opened
          queuedQuality := .unitLost, deferred := false })
    ∧ (∀ k, t.pairTimer k = none) ∧ (∀ k, t.paired k = false)
    ∧ t.settings.window = 10 ∧ t.settings.threshold = 8 ∧ t.settings.discrepancyMs = 200
    ∧ (∀ l : LineNo, t.debounceTime l = 8)
    ∧ (∀ p, t.dsp p =
        { queue := [], nextNumber := 1, inService := 0, mask := 0, nesting := .full, rotation := .manual, lowest := 7
          autoDone := false, polled := false, state := .detached, resyncPending := false, takeTimeout := 500
          retries := 3, takeTimer := none, stalled := none
          failure := { contents := none, locked := false, multiple := false } })
    ∧ t.log = { ring := [], next := 1, newest := 0, archive := none, threshold := 768, confirmed := 0 }
    ∧ t.log.unconfirmed = 0 ∧ t.link.pollCycle = 20 ∧ t.link.pollTimer = some 20 ∧ t.link.turn = none
    ∧ t.link.due = false ∧ t.link.exchange = none ∧ t.link.rx = .hunting
    ∧ (∀ u, t.unit u =
        { state := .notFitted, debounce := 8, lastSeq := 0, misses := 0, mismatch := false, polls := 0, missTotal := 0
          repeatTotal := 0, newlyFitted := false })
    ∧ ∀ p : Port, t.stn p =
        { ring := p, rx := .hunting, intake := [], inProgress := none, cache := none, tx := none, waitResponse := none
          waitNotice := none, discards := 0 }

/-- RESET_N low holds AUDIBLE and FAULT off and XL_DIR low, and ends every handling, exchange, frame and timer in
progress; while it is low the device takes no samples and answers no frames: no command but its release and RESET_N
itself does anything (R176). That the poll cycle ends with its exchange, and that every other field of every record, the
requests waiting in the intakes among them, is kept until the release, is the model's choice (log 14). -/
def Obligations.ResetNLowEndsAll : Prop :=
  (∀ (c : Instr) (s : State), s.inReset = true → c ≠ .resetNLow → (∀ levels rate, c ≠ .powerOn levels rate) →
    exec c s = .next s)
  ∧ ∀ s : State, ∃ t, exec .resetNLow s = .next t ∧ t.inReset = true ∧ t.audibleLine = false ∧ t.faultLine = false
    ∧ t.xlDir = false
    ∧ (∀ l, t.line l = { s.line l with run := none })
    ∧ (∀ i, t.inp i = { s.inp i with chatterTimer := none })
    ∧ (∀ k, t.pairTimer k = none)
    ∧ (∀ p, t.pt p = { s.pt p with shelveTimer := none })
    ∧ (∀ p, t.dsp p = { s.dsp p with takeTimer := none })
    ∧ (∀ p, t.stn p =
        { s.stn p with rx := .hunting, inProgress := none, tx := none, waitResponse := none, waitNotice := none })
    ∧ t = { s with
        inReset := true, lines := t.lines, inputs := t.inputs, pairTimers := t.pairTimers, points := t.points
        dispatch := t.dispatch, stations := t.stations
        link := { s.link with pollTimer := none, turn := none, due := false, exchange := none, rx := .hunting }
        evalPos := none, engineClaim := none, raisings := [], watchdog := none }

/-! ### The Timebase (R177 to R180) -/

/-- `n` milliseconds pass: the time of day and the elapsed count go on by `n`, round at their ends, every running timer
runs down by `n` and stands at 0, and nothing else changes (R177, R58; that a timer stands at 0 until its expiry is
taken is the model's, log 6). -/
def Obligations.MillisecondsPass : Prop :=
  ∀ (n : Nat) (s : State), s.inReset = false → s.ClockInRange →
    ∃ t, exec (.timebaseMillisecond n) s = .next t
      ∧ t.day < 65536 ∧ t.msOfDay < 86400000
      ∧ t.day * 86400000 + t.msOfDay = (s.day * 86400000 + s.msOfDay + n) % (65536 * 86400000)
      ∧ t.elapsed = s.elapsed + BitVec.ofNat 48 n
      ∧ (∀ p, t.pt p = { s.pt p with shelveTimer := (s.pt p).shelveTimer.map (· - n) })
      ∧ (∀ i, t.inp i = { s.inp i with chatterTimer := (s.inp i).chatterTimer.map (· - n) })
      ∧ (∀ k, t.pairTimer k = (s.pairTimer k).map (· - n))
      ∧ (∀ p, t.dsp p = { s.dsp p with takeTimer := (s.dsp p).takeTimer.map (· - n) })
      ∧ (∀ p, t.stn p = { s.stn p with rx := (t.stn p).rx })
      ∧ (∀ p, (s.stn p).rx = .hunting → (t.stn p).rx = .hunting)
      ∧ (∀ p bytes gap, (s.stn p).rx = .partialFrame bytes gap → (t.stn p).rx = .partialFrame bytes (gap - n))
      ∧ t.link = { s.link with pollTimer := s.link.pollTimer.map (· - n), exchange := t.link.exchange }
      ∧ (s.link.exchange = none → t.link.exchange = none)
      ∧ (∀ x, s.link.exchange = some x → x.phase = .sending → t.link.exchange = some x)
      ∧ (∀ x left, s.link.exchange = some x → x.phase = .awaiting left →
          t.link.exchange = some { x with phase := .awaiting (left - n) })
      ∧ t.watchdog = s.watchdog.map (· - n)
      ∧ t = { s with
          day := t.day, msOfDay := t.msOfDay, elapsed := t.elapsed, points := t.points, inputs := t.inputs
          pairTimers := t.pairTimers, dispatch := t.dispatch, stations := t.stations, link := t.link
          watchdog := t.watchdog }

/-- SYNC_PULSE, R179: with sync disabled nothing changes; otherwise the time of day goes to a whole second, back from
the milliseconds 0 to 499 and forward from 500 to 999, at midnight into the next day and from day 65535 into day 0, the
quality becomes SYNCED, the watchdog is restarted with 1500 ms, and nothing else changes. -/
def Obligations.SyncPulseAligns : Prop :=
  ∀ s : State, s.inReset = false → s.ClockInRange →
    (s.syncEnable = false → exec .syncPulse s = .next s)
    ∧ (s.syncEnable = true →
        ∃ t, exec .syncPulse s = .next t
          ∧ t = { s with day := t.day, msOfDay := t.msOfDay, timeQuality := .synced, watchdog := some 1500 }
          ∧ (s.msOfDay % 1000 ≤ 499 → t.day = s.day ∧ t.msOfDay = s.msOfDay - s.msOfDay % 1000)
          ∧ (500 ≤ s.msOfDay % 1000 → s.msOfDay + (1000 - s.msOfDay % 1000) < 86400000 →
              t.day = s.day ∧ t.msOfDay = s.msOfDay + (1000 - s.msOfDay % 1000))
          ∧ (500 ≤ s.msOfDay % 1000 → s.msOfDay + (1000 - s.msOfDay % 1000) = 86400000 →
              t.day = (s.day + 1) % 65536 ∧ t.msOfDay = 0))

/-- SYNC_WATCHDOG_EXPIRY, R180: the watchdog stops, the quality becomes SET if it was SYNCED, TIME_SYNC is set and its
SYSTEM record, with no subject, is stamped with the new quality; sync stays enabled. -/
def Obligations.SyncWatchdogExpires : Prop :=
  ∀ s : State, s.inReset = false → s.raisings = [] → s.watchdog = some 0 → s.log.ring.length ≤ 1024 →
    let q := if s.timeQuality = .synced then TimeQuality.set else s.timeQuality
    ∃ t, exec .syncWatchdogExpiry s = .next t ∧ OnlyEmits { s with watchdog := none, timeQuality := q } t
      ∧ t.flagSet .timeSync = true
      ∧ AppendsFirst s t [{ s.systemDraft .timeSync none none none .none none with stamp := { s.now with quality := q } }]

/-- SET_TIME, R178: a millisecond of day of 86 400 000 or more, or a sync option above 1, is refused BAD_ARGUMENT;
otherwise the clock takes the time with quality SET, sync and its watchdog follow the option, the response is OK, and a
TIME record stamped with the new time names the old and the port. -/
def Obligations.SetTimeSteps : Prop :=
  ∀ (s : State) (p : Port) (f : Frame), s.Takes p .setTime f →
    (86400000 ≤ f.arg4 2 ∨ 1 < f.arg 6 → exec (.setTime p) s = .next (s.answered p f .badArgument []))
    ∧ (f.arg4 2 < 86400000 → f.arg 6 ≤ 1 → s.log.ring.length ≤ 1024 →
        ∃ t, exec (.setTime p) s = .next t
          ∧ OnlyEmits
              { s.closed p f .ok [] (t.stn p).waitResponse with
                day := f.arg2 0, msOfDay := f.arg4 2, timeQuality := .set, syncEnable := f.arg 6 == 1
                watchdog := if f.arg 6 = 1 then some 1500 else none } t
          ∧ t.Responding p f .ok []
          ∧ AppendsFirst s t
              [otherDraft ⟨f.arg2 0, f.arg4 2, .set⟩ (.time s.now ⟨f.arg2 0, f.arg4 2, .set⟩) (some p)])

/-! ### The Input Scanner and the Input Filter (R114 to R126) -/

/-- LINE_SAMPLE and QUALIFIED_CHANGE, R115: one sample of a local line. That both rows stand for a sample, and that the
time a run has lasted is taken modulo 2^48, the width of the elapsed count, are the model's (logs 5, 15). -/
def Obligations.SampleJudged : Prop :=
  ∀ (c : Instr) (l : LineNo) (level : Level) (s : State),
    c = .lineSample l level ∨ c = .qualifiedChange l level → s.inReset = false → s.raisings = [] →
    let r := s.line l
    let run := r.run.getD { stamp := s.now, since := s.elapsed }
    let i := lineInput l
    (level = r.qualified → exec c s = .next (s.setLine l { raw := level, qualified := r.qualified, run := none }))
    ∧ (level ≠ r.qualified → (s.elapsed - run.since).toNat < s.debounceTime l →
        exec c s = .next (s.setLine l { raw := level, qualified := r.qualified, run := some run }))
    ∧ (level ≠ r.qualified → s.debounceTime l ≤ (s.elapsed - run.since).toNat →
        ∃ t, exec c s = .next t
          ∧ OnlyEmits
              { s with
                lines := (s.setLine l { raw := level, qualified := level, run := none }).lines
                inputs := t.inputs, pairTimers := t.pairTimers, changeQueue := t.changeQueue } t
          ∧ OnlyEmits
              ((s.setLine l { raw := level, qualified := level, run := none }).acceptChange i level run.stamp) t
          ∧ (t.inp i).level = level ∧ (t.inp i).lastChange = some run.stamp
          ∧ (∀ j, j ≠ i → j ≠ partnerOf i → t.inp j = s.inp j)
          ∧ ∃ more, t.changeQueue = s.changeQueue ++ more ∧ ∀ e ∈ more, e.input = i ∨ e.input = partnerOf i)

/-- An accepted change, of an input in a complementary pair or in none: the record with its chatter test and reported
quality (R117, R118, R122), the test of the pair and its partner's record (R120), and the entries that the two produce,
which CONFIG drops and a full queue defers (R123 to R125). That the age of a change in the history is taken modulo 2^48,
the width of the elapsed count, is the model's reading (log 15). -/
def Obligations.ChangeAccepted : Prop :=
  ∀ (s : State) (i : InputNo) (l : Level) (stamp : TimeStamp),
    let r := s.inp i
    let j := partnerOf i
    let q := s.inp j
    let k := pairOf i
    let kept := r.history.filter fun x => (s.elapsed - x).toNat ≤ 1000 * s.settings.window
    let grown := kept ++ [s.elapsed]
    let history := if s.settings.threshold + 1 < grown.length then grown.tail else grown
    let active := r.chatterActive || decide (s.settings.threshold < history.length)
    let apart := s.paired k = true ∧ l ≠ q.level
    let discrepant := if apart then false else r.discrepant
    let quality := qualityOf r.unitLost discrepant active
    let partnerDiscrepant := if apart then false else q.discrepant
    let partnerQuality := qualityOf q.unitLost partnerDiscrepant q.chatterActive
    let own : List ChangeEntry :=
      if quality ≠ r.reported then [⟨.quality, i, l, quality, stamp, false⟩]
      else if quality = .good ∧ l ≠ r.level then [⟨.level, i, l, .good, stamp, false⟩]
      else []
    let partner : List ChangeEntry :=
      if s.paired k = true ∧ partnerQuality ≠ q.reported then [⟨.quality, j, q.level, partnerQuality, stamp, false⟩]
      else []
    let t := s.acceptChange i l stamp
    t.inp i =
        { r with
          level := l, lastChange := some stamp, history := history, chatterActive := active
          chatterTimer := if active then some (1000 * s.settings.window) else r.chatterTimer
          discrepant := discrepant, reported := quality
          lastQualityChange := if quality ≠ r.reported then some stamp else r.lastQualityChange
          queuedLevel := (t.inp i).queuedLevel, queuedQuality := (t.inp i).queuedQuality
          deferred := (t.inp i).deferred }
      ∧ (s.paired k = true → t.inp j =
          { q with
            discrepant := partnerDiscrepant, reported := partnerQuality
            lastQualityChange := if partnerQuality ≠ q.reported then some stamp else q.lastQualityChange
            queuedLevel := (t.inp j).queuedLevel, queuedQuality := (t.inp j).queuedQuality
            deferred := (t.inp j).deferred })
      ∧ (∀ x, x ≠ i → (s.paired k = true → x ≠ j) → t.inp x = s.inp x)
      ∧ (s.paired k = true → l ≠ q.level → t.pairTimer k = none)
      ∧ (s.paired k = true → l = q.level →
          t.pairTimer k = some ((s.pairTimer k).getD s.settings.discrepancyMs))
      ∧ (∀ x, x ≠ k ∨ s.paired k = false → t.pairTimer x = s.pairTimer x)
      ∧ EntriesProduced s t (own ++ partner)
      ∧ t = { s with
          inputs := t.inputs, pairTimers := t.pairTimers, changeQueue := t.changeQueue
          raisings := s.raisings ++ (s.overflowing (own ++ partner)).map fun _ => plainRaising .changeDeferred }

/-- CHATTER_END_EXPIRY, R119: chatter active becomes no, the history is emptied, the timer stops and the reported
quality is formed afresh; if it changes, the last quality-change time is the present time (R122) and a QUALITY entry with
that time is produced, which CONFIG drops and a full queue defers (R123 to R125), and otherwise none. Every other field of
the input's record, and every other record, stays. -/
def Obligations.ChatterEnds : Prop :=
  ∀ (i : InputNo) (s : State), s.inReset = false → s.raisings = [] → (s.inp i).chatterTimer = some 0 →
    let r := s.inp i
    let quality := qualityOf r.unitLost r.discrepant false
    let ended : InputRec := { r with chatterActive := false, history := [], chatterTimer := none }
    let entries : List ChangeEntry :=
      if quality ≠ r.reported then [⟨.quality, i, r.level, quality, s.now, false⟩] else []
    ∃ t, exec (.chatterEndExpiry i) s = .next t
      ∧ OnlyEmits { s with inputs := t.inputs, changeQueue := t.changeQueue } t
      ∧ t.inp i =
          { ended.formedWith r.discrepant s.now with
            queuedLevel := (t.inp i).queuedLevel, queuedQuality := (t.inp i).queuedQuality
            deferred := (t.inp i).deferred }
      ∧ (∀ j, j ≠ i → t.inp j = s.inp j)
      ∧ EntriesProduced s t entries ∧ (s.overflowing entries ≠ [] → t.flagSet .changeDeferred = true)
      ∧ (quality = r.reported → t = { s with inputs := t.inputs })

/-- DISCREPANCY_EXPIRY, R120: the timer of the pair stops and both its records become discrepant with their qualities
formed afresh; a record whose quality changed takes the present time as its last quality-change time (R122). Every other
field of the two records, and every other record and pair, stays, and only QUALITY entries of the pair, stamped with the
present time, are produced, the even input's before the odd one's (R123 to R125). -/
def Obligations.PairBecomesDiscrepant : Prop :=
  ∀ (k : PairNo) (s : State), s.inReset = false → s.raisings = [] → s.pairTimer k = some 0 →
    ∃ t, exec (.discrepancyExpiry k) s = .next t
      ∧ OnlyEmits { s with inputs := t.inputs, pairTimers := t.pairTimers, changeQueue := t.changeQueue } t
      ∧ t.pairTimer k = none ∧ (∀ j, j ≠ k → t.pairTimer j = s.pairTimer j)
      ∧ (∀ i, i = evenInput k ∨ i = oddInput k →
          t.inp i =
            { (s.inp i).formedWith true s.now with
              queuedLevel := (t.inp i).queuedLevel, queuedQuality := (t.inp i).queuedQuality
              deferred := (t.inp i).deferred })
      ∧ (∀ i, i ≠ evenInput k → i ≠ oddInput k → t.inp i = s.inp i)
      ∧ (∃ more, t.changeQueue = s.changeQueue ++ more
          ∧ ∀ e ∈ more, e.kind = .quality ∧ e.stamp = s.now ∧ (e.input = evenInput k ∨ e.input = oddInput k))
      ∧ let entry := fun i : InputNo =>
          let q := qualityOf (s.inp i).unitLost true (s.inp i).chatterActive
          if q ≠ (s.inp i).reported then [(⟨.quality, i, (s.inp i).level, q, s.now, false⟩ : ChangeEntry)] else []
        let entries := entry (evenInput k) ++ entry (oddInput k)
        EntriesProduced s t entries ∧ (s.overflowing entries ≠ [] → t.flagSet .changeDeferred = true)

/-! ### Change entries at the Point Engine (R133 to R136) -/

/-- LEVEL_ENTRY and QUALITY_ENTRY through an invalid map entry and through a trap entry (R135, R136), and of an input whose
unit is not fitted (R133): a LEVEL entry loads and locks the input capture record, is recorded and raises its flag,
whose SYSTEM record carries the input address and nothing else beside the flag (R98, R155), after the record and the
raisings of LOG_LOSS and LOG_HIGH that the append of the INPUT record led to (R103); a QUALITY entry moves the applied values of a trap entry alone. The place freed in the change queue is caught up (R126). -/
def Obligations.EntrySetAside : Prop :=
  ∀ (s : State) (e : ChangeEntry) (rest : List ChangeEntry), s.inReset = false → s.raisings = [] → s.mode = .run →
    s.changeQueue = e :: rest → s.log.ring.length ≤ 1024 →
    let m := s.ent e.input
    ∃ t, exec (if e.kind = .level then .levelEntry else .qualityEntry) s = .next t
      ∧ CaughtUp { s with changeQueue := rest } t
      ∧ (s.unfitted e.input = true → t = { s with inputs := t.inputs, changeQueue := t.changeQueue })
      ∧ (e.kind = .level → s.unfitted e.input = false → m.valid = false →
          OnlyEmits { s with inputs := t.inputs, changeQueue := t.changeQueue, inputCapture := s.inputLocked e } t
            ∧ t.flagSet .unmappedInput = true
            ∧ AppendsRaising s t (inputDraft e none .unmapped none)
                (s.systemDraft .unmappedInput none none (some e.input) .none none))
      ∧ (e.kind = .level → s.unfitted e.input = false → m.valid = true → m.trap = true →
          OnlyEmits
              { s with
                inputs := t.inputs, changeQueue := t.changeQueue, inputCapture := s.inputLocked e
                map := (s.setEnt e.input { m with appliedLevel := e.level }).map } t
            ∧ t.flagSet .inputTrap = true
            ∧ AppendsRaising s t (inputDraft e (some m.appliedLevel) .trap m.point)
                (s.systemDraft .inputTrap none none (some e.input) .none none))
      ∧ (e.kind = .quality → s.unfitted e.input = false → m.valid = false →
          t = { s with inputs := t.inputs, changeQueue := t.changeQueue })
      ∧ (e.kind = .quality → s.unfitted e.input = false → m.valid = true → m.trap = true →
          t = { s with
            inputs := t.inputs, changeQueue := t.changeQueue
            map := (s.setEnt e.input { m with appliedLevel := e.level, appliedQuality := e.quality }).map })

/-- LEVEL_ENTRY and QUALITY_ENTRY through a valid entry that is no trap entry, for a FIELD point (R134, R136, R6, R12): the
applied values and the latch follow, and an INPUT record is appended where the record flag asks for one. The point takes
the quality its entries give, and at quality GOOD the condition, whose change takes an IN_SERVICE point to the state of
its sequence table, with a POINT_QUALITY and a POINT_STATE record of the entry's cause, QUALITY_RETURN where the quality
returns (R10 to R12, R14 to R19, R23). Where its condition or quality changes, its parent group takes the quality and
condition of its children, the state of its table and its first member, with records of cause MEMBER (R31 to R35, R40 to
R42), and so on up the chain: every point that was up to date stays so. Each new record reaches the point's subscribers
(R22), and entries into ALERT set the audible request (R24). The place freed in the change queue is caught up (R126).
That a change which finds a cell marked n/a makes no transition is the model's reading (log 16). -/
def Obligations.EntryApplied : Prop :=
  ∀ (s : State) (e : ChangeEntry) (rest : List ChangeEntry) (p : PointNo), s.inReset = false → s.raisings = [] →
    s.mode = .run → s.changeQueue = e :: rest → s.log.ring.length ≤ 1024 → s.unfitted e.input = false →
    (s.ent e.input).valid = true → (s.ent e.input).trap = false → (s.ent e.input).point = some p →
    (s.pt p).kind = .field → s.depth 4 p ≤ 3 →
    let m := s.ent e.input
    let r := s.pt p
    let moved := m.appliedLevel == m.normal && e.level != m.normal
    let m1 : MapEntry :=
      { m with
        appliedLevel := e.level, latch := m.latch || (m.mode == .pulse && moved)
        appliedQuality := if e.kind = .quality then e.quality else m.appliedQuality }
    let claim : Claim := { stamp := e.stamp, input := some e.input, port := none }
    let cause : Cause := if e.coalesced then .inputCoalesced else .input
    ∃ t, exec (if e.kind = .level then .levelEntry else .qualityEntry) s = .next t
      ∧ CaughtUp { s with changeQueue := rest } t
      ∧ OnlyMoves
          { s with
            inputs := t.inputs, changeQueue := t.changeQueue, map := (s.setEnt e.input m1).map
            inputCapture := if e.kind = .level then s.inputLoaded e else s.inputCapture } t p
      ∧ KeepsUpToDate s t ∧ AlertsAudibly s t ∧ Announces s t
      ∧ let recorded := if m.appliedLevel ≠ e.level ∧ m.record = true then
          [inputDraft e (some m.appliedLevel) .recorded (some p)] else []
        let quality := t.fieldQuality p
        let condition := if quality = .good then t.fieldCondition p else r.condition
        let changed := condition ≠ r.condition ∨ quality ≠ r.quality
        (m1 = m → e.quality = m.appliedQuality → t.points = s.points ∧ AppendsFirst s t recorded)
          ∧ (m1 ≠ m ∨ e.quality ≠ m.appliedQuality →
              let own := formedDrafts claim p cause (if r.quality = .good then cause else .qualityReturn) r quality
                condition
              t.pt p =
                  { r with
                    quality := quality, condition := condition, seqState := r.stateAfter condition
                    lastChange := (t.pt p).lastChange }
                ∧ (¬ changed → (∀ x, x ≠ p → t.pt x = s.pt x) ∧ AppendsFirst s t (recorded ++ own))
                ∧ (changed → ParentFollows s t claim p (recorded ++ own)))

/-! ### The expansion link (R137 to R150) -/

/-- POLL_CYCLE_EXPIRY, R139: the timer restarts with the poll cycle. A cycle in progress makes one due. Otherwise the
first fitted unit has its turn with polls 0 and the message of its state, IDENTIFY, SNAPSHOT with its debounce time or
POLL with its last number, is on the line; with no unit fitted no exchange begins. A cycle takes in every unit that is
fitted when it begins (R147). -/
def Obligations.PollCycleExpires : Prop :=
  ∀ s : State, s.inReset = false → s.link.pollTimer = some 0 →
    (∀ u, s.link.turn = some u →
      exec .pollCycleExpiry s =
        .next { s with link := { s.link with pollTimer := some s.link.pollCycle, due := true } })
    ∧ (s.link.turn = none →
        ∃ t, exec .pollCycleExpiry s = .next t ∧ t = { s with link := t.link }
          ∧ t.link.pollTimer = some s.link.pollCycle ∧ t.link.pollCycle = s.link.pollCycle ∧ t.link.due = s.link.due
          ∧ ((∀ u, (s.unit u).state = .notFitted) →
              (∀ u, t.unit u = { s.unit u with newlyFitted := false }) ∧ t.link.turn = none ∧ t.link.exchange = none)
          ∧ ∀ u, (s.unit u).state ≠ .notFitted → (∀ v, v < u → (s.unit v).state = .notFitted) →
              t.link.turn = some u ∧ t.xlDir = true ∧ t.unit u = { s.unit u with polls := 0, newlyFitted := false }
                ∧ (∀ v, v ≠ u → t.unit v = { s.unit v with newlyFitted := false })
                ∧ ∃ x, t.link.exchange = some x ∧ x.unit = u ∧ x.void = false ∧ x.phase = .sending
                  ∧ ((s.unit u).state = .searching ∨ (s.unit u).state = .lost →
                      x.kind = .identify ∧ x.message = linkFrame (u.val + 1) 0x01 [])
                  ∧ ((s.unit u).state = .resync →
                      x.kind = .snapshot ∧ x.message = linkFrame (u.val + 1) 0x02 (b1 (s.unit u).debounce))
                  ∧ ((s.unit u).state = .online →
                      x.kind = .poll ∧ x.message = linkFrame (u.val + 1) 0x03 (b1 (s.unit u).lastSeq)))

/-- IDENTITY_ANSWER, R140: a good identity answer to an IDENTIFY. A match puts the unit in RESYNC with misses 0 and
mismatch clear. Anything else sets misses to 0 and mismatch; the first time it raises UNIT_FAULT with detail MISMATCH, and
where mismatch was set already no record is appended. The turn ends: the next fitted unit has its turn, or the cycle ends,
and one that is due starts at once (R139). An answer to a void exchange ends the turn and does nothing else (R148). The
mark of a newly fitted unit, which a turn's end reads, is the model's own field (log 29). -/
def Obligations.IdentityAnswered : Prop :=
  ∀ (s : State) (x : Exchange) (left : Nat) (body : List Byte), s.inReset = false → s.raisings = [] →
    s.link.exchange = some x → x.phase = .awaiting left → x.kind = .identify →
    s.link.rx = .hunting → body.length = 3 → s.log.ring.length ≤ 1024 →
    let u := x.unit
    let matched : Prop := body = [0x0C#8, 0x41#8, 64#8]
    let answered := exec (.identityAnswer (goodBytes (linkFrame (u.val + 1) 0x81 body))) s
    (x.void = true → ∃ t, answered = .next t ∧ VoidEnded s t u)
    ∧ (x.void = false → ∃ t, answered = .next t
      ∧ OnlyEmits { s with link := t.link } t ∧ TurnEnded s t u
      ∧ (∀ v, v ≠ u → SameUnit (s.unit v) (t.unit v))
      ∧ (matched →
          SameUnit { s.unit u with state := .resync, misses := 0, mismatch := false } (t.unit u) ∧ t.log = s.log)
      ∧ (¬ matched → SameUnit { s.unit u with misses := 0, mismatch := true } (t.unit u))
      ∧ (¬ matched → (s.unit u).mismatch = true → t.log = s.log)
      ∧ (¬ matched → (s.unit u).mismatch = false →
          t.flagSet .unitFault = true
            ∧ AppendsFirst s t [s.systemDraft .unitFault (some u) none none .mismatch none]))

/-- SNAPSHOT_ANSWER, R141 and R121: a good snapshot answer, of number `seq` and eight bytes of levels. The unit becomes
ONLINE with misses 0 and last number `seq`. Its 64 inputs take their levels and are not lost, its complementary pairs are
tested (R120), each reported quality is formed afresh (R122), and the entries follow in two passes, each in line order:
QUALITY entries of the inputs whose quality changed, and LEVEL entries of those whose level changed and whose quality is
now GOOD, all with the present time and the coalesced flag (R123 to R125). The other inputs stay. The turn ends (R139). An
answer to a void exchange ends the turn and does nothing else (R148). The mark of a newly fitted unit, which a turn's end
reads, is the model's own field (log 29). -/
def Obligations.SnapshotAnswered : Prop :=
  ∀ (s : State) (x : Exchange) (left : Nat) (seq : Byte) (levels : List Byte), s.inReset = false → s.raisings = [] →
    s.link.exchange = some x → x.phase = .awaiting left → x.kind = .snapshot →
    s.link.rx = .hunting → levels.length = 8 →
    let u := x.unit
    let level := fun i : InputNo => levelOfBit ((levels.getD (i.val % 64 / 8) 0).getLsbD (i.val % 8))
    let apart := fun i => s.paired (pairOf i) = true ∧ level i ≠ level (partnerOf i)
    let discrepant := fun i => if apart i then false else (s.inp i).discrepant
    let quality := fun i => qualityOf false (discrepant i) (s.inp i).chatterActive
    let qualityEntries := ((unitInputs u).filter fun i => quality i != (s.inp i).reported).map fun i =>
      (⟨.quality, i, level i, quality i, s.now, true⟩ : ChangeEntry)
    let levelEntries := ((unitInputs u).filter fun i => level i != (s.inp i).level && quality i == .good).map fun i =>
      (⟨.level, i, level i, .good, s.now, true⟩ : ChangeEntry)
    let answered := exec (.snapshotAnswer (goodBytes (linkFrame (u.val + 1) 0x82 (seq :: levels)))) s
    (x.void = true → ∃ t, answered = .next t ∧ VoidEnded s t u)
    ∧ (x.void = false → ∃ t, answered = .next t
      ∧ OnlyEmits
          { s with link := t.link, inputs := t.inputs, pairTimers := t.pairTimers, changeQueue := t.changeQueue } t
      ∧ TurnEnded s t u
      ∧ SameUnit { s.unit u with state := .online, misses := 0, lastSeq := seq.toNat } (t.unit u)
      ∧ (∀ v, v ≠ u → SameUnit (s.unit v) (t.unit v))
      ∧ (∀ i ∈ unitInputs u,
          let pictured : InputRec :=
            { s.inp i with
              level := level i, lastChange := if level i = (s.inp i).level then (s.inp i).lastChange else some s.now
              unitLost := false }
          t.inp i =
            { pictured.formedWith (discrepant i) s.now with
              queuedLevel := (t.inp i).queuedLevel, queuedQuality := (t.inp i).queuedQuality
              deferred := (t.inp i).deferred })
      ∧ (∀ i, i ∉ unitInputs u → t.inp i = s.inp i)
      ∧ (∀ k, k ∈ unitPairs u → s.paired k = true → t.pairTimer k =
          if level (evenInput k) = level (oddInput k) then some ((s.pairTimer k).getD s.settings.discrepancyMs)
          else none)
      ∧ (∀ k, ¬ (k ∈ unitPairs u ∧ s.paired k = true) → t.pairTimer k = s.pairTimer k)
      ∧ PassesProduced s t qualityEntries levelEntries)

/-- CHANGES_ANSWER, R142 to R144. A repeat adds to the repeat total and does nothing else. An answer with OVERFLOW puts
the unit in RESYNC, its inputs are lost and UNIT_FAULT is raised. A new answer moves the last number; each line takes the
level of the last report that names it, and a single report that differs gives its input a stamp counted back by its age;
the reports are accepted one by one, with the entries that ChangeAccepted gives, behind those already queued, and the
inputs of other units keep their records; without MORE the turn ends, and with it the unit is polled again with the number
just recorded, up to four polls a turn. That bits 2 to 7 of the flags byte and bit 6 of a line byte are ignored, and do
not make the answer a bad one, is the model's reading (log 22), and so is that the chatter test of a report takes a time
that has passed modulo 2^48 (log 15). An answer to a void exchange ends the turn and does nothing else (R148). The mark of a newly fitted unit, which a turn's end reads, is the model's own field (log 29). -/
def Obligations.ChangesAnswered : Prop :=
  ∀ (s : State) (x : Exchange) (left : Nat) (seq flags : Byte) (reports : List Byte), s.inReset = false →
    s.raisings = [] → s.link.exchange = some x → x.phase = .awaiting left → x.kind = .poll →
    s.link.rx = .hunting → reports.length ≤ 24 → reports.length % 3 = 0 → s.log.ring.length ≤ 1024 →
    let u := x.unit
    let body := seq :: flags :: BitVec.ofNat 8 (reports.length / 3) :: reports
    let answered := exec (.changesAnswer (goodBytes (linkFrame (u.val + 1) 0x83 body))) s
    (x.void = true → ∃ t, answered = .next t ∧ VoidEnded s t u)
    ∧ (x.void = false → ∃ t, answered = .next t
      ∧ (∀ v, v ≠ u → SameUnit (s.unit v) (t.unit v))
      ∧ (seq.toNat = (s.unit u).lastSeq →
          t = { s with link := t.link } ∧ TurnEnded s t u
            ∧ SameUnit { s.unit u with misses := 0, repeatTotal := min ((s.unit u).repeatTotal + 1) 65535 } (t.unit u))
      ∧ (seq.toNat ≠ (s.unit u).lastSeq → flags.getLsbD 1 = true →
          OnlyEmits { s with link := t.link, inputs := t.inputs, changeQueue := t.changeQueue } t ∧ TurnEnded s t u
            ∧ SameUnit { s.unit u with state := .resync, misses := 0 } (t.unit u)
            ∧ InputsLost s t u ∧ t.flagSet .unitFault = true ∧ FlagsOnly s t [.changeDeferred, .unitFault]
            ∧ (s.overflowing (s.lostEntries u) = [] →
                AppendsFirst s t [s.systemDraft .unitFault (some u) none none .overflow none]))
      ∧ (seq.toNat ≠ (s.unit u).lastSeq → flags.getLsbD 1 = false →
          OnlyEmits
              { s with link := t.link, inputs := t.inputs, pairTimers := t.pairTimers, changeQueue := t.changeQueue } t
            ∧ OnlyEmits { s.reportsApplied u s.now (parseReports reports) with link := t.link } t
            ∧ (∀ i, i ∉ unitInputs u → t.inp i = s.inp i)
            ∧ (∃ more, t.changeQueue = s.changeQueue ++ more ∧ ∀ e ∈ more, e.input ∈ unitInputs u)
            ∧ ((∃ i, (s.inp i).deferred = false ∧ (t.inp i).deferred = true) → t.flagSet .changeDeferred = true)
            ∧ FlagsOnly s t [.changeDeferred]
            ∧ SameUnit { s.unit u with misses := 0, lastSeq := seq.toNat } (t.unit u)
            ∧ (∀ a b c, reports = [a, b, c] →
                (t.inp (remoteInput u (a.toNat % 64))).level = levelOfBit a.msb
                  ∧ ((s.inp (remoteInput u (a.toNat % 64))).level ≠ levelOfBit a.msb →
                      (t.inp (remoteInput u (a.toNat % 64))).lastChange =
                        some (s.now.subMs (256 * b.toNat + c.toNat))))
            ∧ (reports = [] → t.inputs = s.inputs ∧ t.changeQueue = s.changeQueue)
            ∧ (∀ l, l < 64 →
                (t.inp (remoteInput u l)).level =
                  match ((parseReports reports).filter fun r => r.line == l).getLast? with
                  | none => (s.inp (remoteInput u l)).level
                  | some r => r.level)
            ∧ (flags.getLsbD 0 = false → TurnEnded s t u)
            ∧ (flags.getLsbD 0 = true → (s.unit u).polls < 3 →
                (t.unit u).polls = (s.unit u).polls + 1 ∧ t.link.turn = some u ∧ t.link.due = s.link.due
                  ∧ (∀ v, (t.unit v).newlyFitted = (s.unit v).newlyFitted)
                  ∧ ∃ y, t.link.exchange = some y ∧ y.unit = u ∧ y.phase = .sending ∧ y.void = false
                      ∧ y.kind = (s.unit u).messageKind
                      ∧ y.message = linkFrame (u.val + 1) y.kind.type (t.unit u).messageBody
                      ∧ ((s.unit u).state = .online →
                          y.kind = .poll ∧ y.message = linkFrame (u.val + 1) 0x03 [seq]))
            ∧ (flags.getLsbD 0 = true → 3 ≤ (s.unit u).polls → TurnEnded s t u)))

/-- ANSWER_TIMEOUT, R145 and R148: the turn ends. A void exchange has no other effect; a miss counts in the miss total,
and in RESYNC and ONLINE in the misses; the third in a row loses the unit, with UNIT_FAULT set and the FAULT line on, and
from ONLINE its inputs are lost with their levels kept and their QUALITY entries produced in line order (R121). The mark
of a newly fitted unit, which a turn's end reads, is the model's own field (log 29). -/
def Obligations.AnswerTimesOut : Prop :=
  ∀ (s : State) (x : Exchange), s.inReset = false → s.raisings = [] → s.link.exchange = some x →
    x.phase = .awaiting 0 → s.log.ring.length ≤ 1024 →
    let u := x.unit
    let r := s.unit u
    let total := min (r.missTotal + 1) 65535
    let counted := r.state = .resync ∨ r.state = .online
    ∃ t, exec .answerTimeout s = .next t ∧ TurnEnded s t u ∧ (∀ v, v ≠ u → SameUnit (s.unit v) (t.unit v))
      ∧ (x.void = true → VoidEnded s t u)
      ∧ (x.void = false → ¬ counted → t = { s with link := t.link } ∧ SameUnit { r with missTotal := total } (t.unit u))
      ∧ (x.void = false → counted → r.misses < 2 →
          t = { s with link := t.link } ∧ SameUnit { r with missTotal := total, misses := r.misses + 1 } (t.unit u))
      ∧ (x.void = false → counted → 2 ≤ r.misses →
          OnlyEmits { s with link := t.link, inputs := t.inputs, changeQueue := t.changeQueue } t
            ∧ SameUnit { r with missTotal := total, misses := 0, state := .lost } (t.unit u) ∧ t.faultLine = true
            ∧ t.flagSet .unitFault = true ∧ FlagsOnly s t [.changeDeferred, .unitFault]
            ∧ (r.state = .resync →
                t.inputs = s.inputs ∧ t.changeQueue = s.changeQueue
                  ∧ AppendsFirst s t [s.systemDraft .unitFault (some u) none none .lost none])
            ∧ (r.state = .online →
                InputsLost s t u
                  ∧ (s.overflowing (s.lostEntries u) = [] →
                      AppendsFirst s t [s.systemDraft .unitFault (some u) none none .lost none])))

/-- LINK_MESSAGE_END, LINK_GAP_EXPIRY and LINK_FRAME_REJECTED, R137: at the end of a message XL_DIR goes low and the answer
timeout of 4 ms starts; a gap ends a partial frame as a discard; bytes are discarded while no exchange is outstanding or its
message is on the line. While an answer is awaited these are discarded, and the master hunts again, so that the bytes after
them are judged as if they came alone: bytes that are no START; a TYPE other than 0x81 to 0x83; a CHANGES count above 8; a
frame with a low stop bit inside it; and a whole frame whose check, address or kind does not fit. That a START with a low
stop bit starts no frame is the model's reading (log 4). -/
def Obligations.LinkLine : Prop :=
  ∀ s : State, s.inReset = false → s.raisings = [] →
    let hunting : State := { s with link := { s.link with rx := .hunting } }
    (∀ x, s.link.exchange = some x → x.phase = .sending →
      ∃ t, exec .linkMessageEnd s = .next t ∧ t.xlDir = false
        ∧ t = { s with link := { s.link with exchange := some { x with phase := .awaiting 4 }, rx := .hunting } })
    ∧ exec .linkGapExpiry s = .next hunting
    ∧ (∀ bytes : List RxByte, s.link.exchange = none → exec (.linkFrameRejected bytes) s = .next s)
    ∧ ∀ x, s.link.exchange = some x →
        (x.phase = .sending → ∀ bytes : List RxByte, exec (.linkFrameRejected bytes) s = .next s)
        ∧ ∀ left, x.phase = .awaiting left →
          (∀ (bytes : List Byte) (arrival : TimeStamp) (b : RxByte), s.link.rx = .partialFrame bytes arrival →
            b.stopLow = true → exec (.linkFrameRejected [b]) s = .next hunting)
          ∧ (s.link.rx = .hunting →
              let discarded := fun bytes : List RxByte =>
                exec (.linkFrameRejected bytes) s = .next s
                  ∧ ∀ more, exec (.linkFrameRejected (bytes ++ more)) s = exec (.linkFrameRejected more) s
              (∀ bytes, NoStart bytes → discarded bytes)
              ∧ (∀ address type : Byte, type ∉ [0x81#8, 0x82#8, 0x83#8] →
                  discarded (goodBytes [0xC3#8, address, type]))
              ∧ (∀ address seq flags count : Byte, 8 < count.toNat →
                  discarded (goodBytes [0xC3#8, address, 0x83#8, seq, flags, count]))
              ∧ ∀ (address type : Byte) (body check : List Byte), LinkLength type body → check.length = 2 →
                  let frame := 0xC3#8 :: address :: type :: body ++ check
                  (∀ (before after : List Byte) (b : RxByte), frame = before ++ after → after ≠ [] → b.stopLow = true →
                    discarded (goodBytes before ++ [b]))
                  ∧ (check ≠ checkBytes (address :: type :: body) ∨ address.toNat ≠ x.unit.val + 1
                        ∨ type.toNat ≠ x.kind.answerType →
                      discarded (goodBytes frame)))

/-- The unit's side of an exchange, R151 to R153. A change of a line is listed when its run has lasted the debounce time, with
the time of its first sample, while the list holds fewer than 16 reports and there is no overflow. To IDENTIFY the unit
answers type code and line count; SNAPSHOT sets its debounce time, empties its list and advances its number, and the
answer, which becomes its last answer, carries that number and the levels of its 64 lines. A POLL with the number of the
last answer receipts its reports and is answered with a new one; a POLL with another number, and a message that fails its
check, are answered with the last answer again. A unit after power-up answers a POLL with number 0, no report and
OVERFLOW. A message for another address is not answered. That a unit which has answered nothing yet has no last answer to
send, and that its samples follow the passing of its time, are the model's (log 18). -/
def Obligations.UnitAnswers : Prop :=
  ∀ u : RemoteUnit,
    let a := u.address.val + 1
    (∀ (l : LineNo) (level : Level) (d n : Nat), u.debounce = some d → 0 < d → level ≠ (u.lines[l.val]).qualified →
        (u.lines[l.val]).run = none →
        let v := ((u.sample l level).passTime n).sample l level
        v.clock = u.clock + n ∧ v.seq = u.seq ∧ v.last = u.last ∧ v.debounce = u.debounce
          ∧ (n < d → v.reports = u.reports ∧ v.overflow = u.overflow
              ∧ (v.lines[l.val]).qualified = (u.lines[l.val]).qualified)
          ∧ (d ≤ n → (v.lines[l.val]).qualified = level
              ∧ (u.overflow = false → u.reports.length < 16 →
                  v.reports = u.reports ++ [{ line := l.val, level := level, since := u.clock }] ∧ v.overflow = false)
              ∧ (u.overflow = true ∨ 16 ≤ u.reports.length → v.reports = u.reports ∧ v.overflow = true)))
    ∧ u.receive (linkFrame a 0x01 []) = (u, linkFrame a 0x81 [0x0C#8, 0x41#8, 64#8])
    ∧ (∀ d : Byte, ∃ levels : List Byte, levels.length = 8
        ∧ (∀ l : LineNo, levelOfBit ((levels.getD (l.val / 8) 0).getLsbD (l.val % 8)) = (u.lines[l.val]).qualified)
        ∧ let seq := (u.seq + 1) % 256
          let v : RemoteUnit :=
            { u with
              debounce := some d.toNat, reports := [], overflow := false, seq := seq, last := some (.snapshot levels) }
          u.receive (linkFrame a 0x02 [d]) = (v, linkFrame a 0x82 (BitVec.ofNat 8 seq :: levels))
            ∧ v.lastAnswer = linkFrame a 0x82 (BitVec.ofNat 8 seq :: levels))
    ∧ (∀ held more overflow, u.last = some (.changes held more overflow) →
        u.lastAnswer = linkFrame a 0x83
          (BitVec.ofNat 8 u.seq :: BitVec.ofNat 8 (more.toNat + 2 * overflow.toNat) :: BitVec.ofNat 8 held
            :: (u.reports.take held).flatMap u.bReport))
    ∧ (∀ n : Byte, n.toNat ≠ u.seq → u.last ≠ none → u.receive (linkFrame a 0x03 [n]) = (u, u.lastAnswer))
    ∧ (∀ n : Byte, n.toNat = u.seq → u.debounce ≠ none →
        let rest := match u.last with
          | some (.changes held _ _) => u.reports.drop held
          | _ => u.reports
        let v : RemoteUnit :=
          { u with
            reports := rest, seq := (u.seq + 1) % 256
            last := some (.changes (min rest.length 8) (decide (8 < rest.length)) u.overflow) }
        u.receive (linkFrame a 0x03 [n]) = (v, v.lastAnswer))
    ∧ (∀ n : Byte, ((RemoteUnit.powerUp u.address).receive (linkFrame a 0x03 [n])).2 = linkFrame a 0x83 [0#8, 2#8, 0#8])
    ∧ (∀ (type : Byte) (body check : List Byte), check.length = 2 →
        check ≠ checkBytes (BitVec.ofNat 8 a :: type :: body) →
        u.receive (0xC3#8 :: BitVec.ofNat 8 a :: type :: body ++ check) = (u, u.lastAnswer))
    ∧ ∀ (address : Byte) (rest : List Byte), address.toNat ≠ a → u.receive (0xC3#8 :: address :: rest) = (u, [])

/-! ### The station ports (R182 to R190) -/

/-- STATION_FRAME_RECEIVED, STATION_FRAME_DISCARDED and STATION_GAP_EXPIRY, R182 and R183: a frame with a right check that
arrives whole at a hunting assembly enters the intake; TAG 0, a full intake, a LEN out of range, a check that differs and a
low stop bit inside a frame each end the frame as a discard. A START and the first bytes of a frame leave a partial frame
whose gap timer has 5 ms to run; the bytes that follow are judged as if all had arrived at once; and the gap's expiry ends
the partial frame as a discard. Bytes other than 0x5A outside a frame, and bytes with a low stop bit there, are not
counted. That such a 0x5A starts no frame, and that the name of the row does not count, are the model's readings (log 4);
so is that the expiry of a timer which has not run down, or of none, is no event (log 2), and that a byte which comes
before an expiry is taken goes on with the frame (log 6). -/
def Obligations.StationReceives : Prop :=
  ∀ (s : State) (p : Port), s.inReset = false →
    let counted : Host.Outcome State Fault Refusal :=
      .next (s.setStn p { s.stn p with rx := .hunting, discards := min ((s.stn p).discards + 1) 65535 })
    (∀ bytes, (s.stn p).rx = .partialFrame bytes 0 → exec (.stationGapExpiry p) s = counted)
    ∧ ((∀ bytes, (s.stn p).rx ≠ .partialFrame bytes 0) → exec (.stationGapExpiry p) s = .next s)
    ∧ (∀ bytes, exec (.stationFrameDiscarded p bytes) s = exec (.stationFrameReceived p bytes) s)
    ∧ ((s.stn p).rx = .hunting →
        (∀ f : Frame, f.body.length ≤ 240 → f.tag ≠ 0 → (s.stn p).intake.length < 2 →
          exec (.stationFrameReceived p (goodBytes (stationFrame f))) s =
            .next (s.setStn p { s.stn p with intake := (s.stn p).intake ++ [f] }))
        ∧ (∀ f : Frame, f.body.length ≤ 240 → f.tag = 0 ∨ 2 ≤ (s.stn p).intake.length →
          exec (.stationFrameReceived p (goodBytes (stationFrame f))) s = counted)
        ∧ (∀ len : Byte, len.toNat < 2 ∨ 242 < len.toNat →
          exec (.stationFrameDiscarded p (goodBytes [0x5A#8, len])) s = counted)
        ∧ (∀ (len tag kind : Byte) (body check : List Byte), len.toNat = body.length + 2 → body.length ≤ 240 →
            check.length = 2 → check ≠ checkBytes (len :: tag :: kind :: body) →
            exec (.stationFrameDiscarded p (goodBytes (0x5A#8 :: len :: tag :: kind :: body ++ check))) s = counted)
        ∧ (∀ (len tag kind : Byte) (body check before after : List Byte) (b : RxByte),
            len.toNat = body.length + 2 → body.length ≤ 240 → check.length = 2 →
            len :: tag :: kind :: body ++ check = before ++ after → after ≠ [] → b.stopLow = true →
            exec (.stationFrameDiscarded p (goodBytes (0x5A#8 :: before) ++ [b])) s = counted)
        ∧ (∀ bytes : List Byte,
            (∀ len rest, bytes = len :: rest → 2 ≤ len.toNat ∧ len.toNat ≤ 242 ∧ rest.length < len.toNat + 2) →
            let begun := fun gap => s.setStn p { s.stn p with rx := .partialFrame bytes gap }
            exec (.stationFrameReceived p (goodBytes (0x5A#8 :: bytes))) s = .next (begun 5)
              ∧ ∀ (gap : Nat) (more : List RxByte), more ≠ [] →
                  exec (.stationFrameReceived p more) (begun gap) =
                    exec (.stationFrameReceived p (goodBytes (0x5A#8 :: bytes) ++ more)) s)
        ∧ ∀ bytes : List RxByte, (∀ b ∈ bytes, b.value ≠ 0x5A#8 ∨ b.stopLow = true) →
            exec (.stationFrameDiscarded p bytes) s = .next s)

/-- FRAME_END, R187 and R78: the next frame begins, a waiting response before a waiting NOTICE frame, and the end of the
frame of the present offer starts the take timer. The Dispatch Controller learns the end of a NOTICE frame alone. -/
def Obligations.FrameEnds : Prop :=
  ∀ (s : State) (p : Port), s.inReset = false → s.raisings = [] →
    let t0 := s.stn p
    let next : Station :=
      match t0.waitResponse, t0.waitNotice with
      | some r, _ => { t0 with tx := some (.response r), waitResponse := none }
      | none, some n => { t0 with tx := some (.notice n true), waitNotice := none }
      | none, none => { t0 with tx := none }
    (∀ b, t0.tx = some (.response b) → exec (.frameEnd p) s = .next (s.setStn p next))
    ∧ (∀ b, t0.tx = some (.notice b true) →
        ∃ t, exec (.frameEnd p) s = .next t
          ∧ OnlyEmits ((s.setStn p next).setDsp p { s.dsp p with takeTimer := some (s.dsp p).takeTimeout }) t)
    ∧ ∀ b, t0.tx = some (.notice b false) →
        ∃ t, exec (.frameEnd p) s = .next t ∧ OnlyEmits (s.setStn p next) t ∧ (t.dsp p).takeTimer = (s.dsp p).takeTimer

/-- RETRANSMISSION, R184: the cached response is handed to the arbiter again and the frame is discarded; no capture record
is loaded, no flag raised and no record appended. -/
def Obligations.RetransmissionAnswered : Prop :=
  ∀ (s : State) (p : Port) (f : Frame) (response : List Byte), s.inReset = false → s.takeable p = some f →
    (s.stn p).cache = some { request := f, response := response } →
    exec (.retransmission p) s = .next (s.setStn p
      (match (s.stn p).tx with
      | none => { s.stn p with intake := (s.stn p).intake.tail, tx := some (.response response) }
      | some _ => { s.stn p with intake := (s.stn p).intake.tail, waitResponse := some response }))

/-- UNKNOWN_KIND, and a request of any kind refused FORMAT, RING or MODE, R185, R161 and R162: a refusal FORMAT,
UNKNOWN_KIND or RING locks the command capture record on that request, or sets MULTIPLE, and raises COMMAND_FAULT; a
refusal MODE does neither. While an ENTER_CONFIG claim waits, only the checks 3 and 4 of the four requests whose checks
are the Point Engine's are put off, which is the model's (log 8). Kind codes and body lengths are those of Table 10-12,
rings those of Table 10-3, modes those of Table 9-2 and R25. That a parent present byte other than 0 and 1 differs from
the present parent, so that a SET_POINT with it in RUN is refused MODE, is the model's reading (log 21). -/
def Obligations.ChecksRefuse : Prop :=
  ((∀ r ∈ requestTable, r.kind.code = r.code ∧ r.kind.bodyLength = r.length
      ∧ (∀ (s : State) (p : Port) (f : Frame), (s.stn p).inProgress = none →
          (s.ringOk p r.kind f = true ↔ (s.stn p).ring ≤ r.ring
            ∧ (r.permission = true → (s.stn p).ring ≤ (s.pt (f.point 0)).ackRing)))
      ∧ ∀ (s : State) (f : Frame), (s.modeOk r.kind f = true ↔
          (match s.mode with | .config => r.inConfig | .starting => r.inStarting | .run => r.inRun) = true
            ∧ (r.kind = .setPoint → s.mode = .run →
                let q := s.pt (f.point 0)
                f.arg 1 = q.kind.code ∧ f.arg 2 = q.seqType.code ∧ f.arg 6 = q.parent.isSome.toNat
                  ∧ (∀ g, q.parent = some g → f.point 7 = g) ∧ f.arg 8 = q.firstOut.toNat)))
    ∧ ∀ k : ReqKind, ∃ r ∈ requestTable, r.kind = k)
  ∧ ∀ (s : State) (p : Port) (f : Frame) (c : Instr) (status : Status) (detail : Detail), s.inReset = false →
    s.raisings = [] →
    s.engineClaim = none ∨ f.kind ∉ [0x10#8, 0x13#8, 0x16#8, 0x17#8] ∨ status = .format →
    s.takeable p = some f → s.isRetransmission p f = false →
    s.log.ring.length ≤ 1024 →
    ((∀ k : ReqKind, k.code ≠ f.kind) ∧ c = .unknownKind p ∧ status = .unknownKind ∧ detail = .unknownKind
      ∨ ∃ k : ReqKind, f.kind = k.code ∧ c = rowFor k p f
        ∧ (f.body.length ≠ k.bodyLength ∧ status = .format ∧ detail = .format
          ∨ f.body.length = k.bodyLength ∧ s.ringOk p k f = false ∧ status = .ring ∧ detail = .ring
          ∨ f.body.length = k.bodyLength ∧ s.ringOk p k f = true ∧ s.modeOk k f = false ∧ status = .mode
            ∧ detail = .none)) →
    (status = .mode → exec c s = .next (s.answered p f .mode []))
    ∧ (status ≠ .mode →
        ∃ t, exec c s = .next t
          ∧ OnlyEmits
              { s.closed p f status [] (t.stn p).waitResponse with
                commandCapture := s.faultCaptured s.now p f } t
          ∧ t.Responding p f status [] ∧ t.flagSet .commandFault = true ∧ t.faultLine = true
          ∧ AppendsFirst s t [s.systemDraft .commandFault none none none detail (some p)])

/-- READ_POINT, READ_MAP and READ_INPUT, R30, R132 and R129: the records of the range in ascending order; a count of 0 or
above the most, or a range past 255, is refused BAD_ARGUMENT. -/
def Obligations.RangesRead : Prop :=
  ∀ (s : State) (p : Port) (f : Frame),
    let numbers := (List.range (f.arg 1)).map fun n => Fin.ofNat 256 (f.arg 0 + n)
    let bad := fun most => f.arg 1 = 0 ∨ most < f.arg 1 ∨ 256 < f.arg 0 + f.arg 1
    let refused : Host.Outcome State Fault Refusal := .next (s.answered p f .badArgument [])
    (s.Takes p .readPoint f → (bad 8 → exec (.readPoint p) s = refused) ∧
      (¬ bad 8 → exec (.readPoint p) s =
        .next (s.answered p f .ok (b1 (f.arg 0) ++ b1 (f.arg 1) ++ numbers.flatMap fun q => bPointRec (s.pt q)))))
    ∧ (s.Takes p .readMap f → (bad 16 → exec (.readMap p) s = refused) ∧
      (¬ bad 16 → exec (.readMap p) s = .next (s.answered p f .ok (numbers.flatMap fun i => bMapEntry (s.ent i)))))
    ∧ (s.Takes p .readInput f → (bad 8 → exec (.readInput p) s = refused) ∧
      (¬ bad 8 → exec (.readInput p) s =
        .next (s.answered p f .ok (bSettings s.settings ++ numbers.flatMap fun i => s.bInput i))))

/-- READ_UNIT, READ_PORT, READ_LOG and READ_STATUS, R150, R190, R110 to R112 and R191: each answers with its results and
changes nothing else. READ_LOG answers with the records from the start number on, as many as the count asks and are held;
from the oldest one with GAP where the start number is no longer held; and with none after the newest number or of an
empty ring. The command capture record that READ_STATUS shows has been loaded by the request itself (R161). In the bytes
answered, the bits of the units LOST (log 24), the unconfirmed count after a confirmed number never assigned (log 27) and
the absent port of a record as 0 (log 28) are the model's. -/
def Obligations.StateRead : Prop :=
  ∀ (s : State) (p : Port) (f : Frame),
    let refused : Host.Outcome State Fault Refusal := .next (s.answered p f .badArgument [])
    (s.Takes p .readUnit f → exec (.readUnit p) s = .next (s.answered p f .ok s.unitResults))
    ∧ (s.Takes p .readPort f →
        (4 ≤ f.arg 0 → exec (.readPort p) s = refused)
        ∧ ∀ q : Port, f.arg 0 = q.val → exec (.readPort p) s =
            .next (s.answered p f .ok (s.portResults q)))
    ∧ (s.Takes p .readLog f →
        (f.arg4 0 = 0 ∨ f.arg 4 = 0 ∨ 8 < f.arg 4 → exec (.readLog p) s = refused)
        ∧ (f.arg4 0 ≠ 0 → 1 ≤ f.arg 4 → f.arg 4 ≤ 8 →
            ∃ (gap : Bool) (l : List EventRecord),
              exec (.readLog p) s =
                .next (s.answered p f .ok (bBool gap ++ b4 s.log.next ++ b4 s.log.oldest ++ b1 (portCode s.log.archive)
                  ++ b4 s.log.confirmed ++ b2 s.log.unconfirmed ++ b1 l.length ++ l.flatMap bRecord))
              ∧ l.length ≤ f.arg 4 ∧ l <:+: s.log.ring
              ∧ (∀ before r after, s.log.ring = before ++ r :: after → r.seq = f.arg4 0 →
                  (∀ x ∈ before, x.seq ≠ f.arg4 0) → gap = false ∧ l = (r :: after).take (f.arg 4))
              ∧ ((∀ r ∈ s.log.ring, r.seq ≠ f.arg4 0) → s.log.ring ≠ [] → seqAfter s.log.newest (f.arg4 0) = false →
                  gap = true ∧ l = s.log.ring.take (f.arg 4))
              ∧ ((∀ r ∈ s.log.ring, r.seq ≠ f.arg4 0) → seqAfter s.log.newest (f.arg4 0) = true → gap = false ∧ l = [])
              ∧ (s.log.ring = [] → gap = false ∧ l = [])))
    ∧ (s.Takes p .readStatus f → exec (.readStatus p) s =
        .next (s.answered p f .ok ({ s with commandCapture := s.captured p f } : State).statusResults))

/-! ### Configuration (R25 to R29, R131, R128, R147, R150, R158, R66) -/

/-- SET_POINT, R26 to R29 and R39: an accepted request stores the seven values and nothing else; a parent and a kind are
checked as R26 and R27 say. A new parent is refused CHAIN where the point lies on its chain, and where the links above it,
the new link and the links below the point are together more than three, the point's present link apart. In RUN the mode
check has left kind, type, parent and first-out as they are (R25). That a parent present byte above 1 is refused
BAD_ARGUMENT is the model's reading (log 21). -/
def Obligations.SetPointStores : Prop :=
  ∀ (s : State) (p : Port) (f : Frame) (q : PointNo), s.Takes p .setPoint f → f.arg 0 = q.val →
    let r := s.pt q
    let refused := fun status => exec (.setPoint p) s = .next (s.answered p f status [])
    ((∀ c, ¬ f.CarriesPoint q c) → refused .badArgument)
    ∧ ∀ c : PointConfig, f.CarriesPoint q c →
        let badArgument : Prop :=
          c.firstOut = true ∧ c.kind ≠ .group
            ∨ ∃ g, c.parent = some g ∧ g ≠ q ∧ (s.pt g).kind ≠ .group
        let badState : Prop :=
          r.kind = .field ∧ c.kind ≠ .field ∧ (∃ i, (s.ent i).valid = true ∧ (s.ent i).point = some q)
            ∨ r.kind = .group ∧ c.kind ≠ .group ∧ ∃ x, (s.pt x).parent = some q
        let unlinked := s.setPt q { r with parent := none }
        let chain : Prop :=
          ∃ g, c.parent = some g ∧ r.parent ≠ some g
            ∧ ((∃ n, unlinked.ancestor n g = some q)
              ∨ ∃ above below top bottom, unlinked.ancestor above g = some top
                  ∧ unlinked.ancestor below bottom = some q ∧ 3 < above + 1 + below)
        (badArgument → refused .badArgument)
        ∧ (¬ badArgument → badState → refused .badState)
        ∧ (¬ badArgument → ¬ badState → chain → refused .chain)
        ∧ (¬ badArgument → ¬ badState → ¬ chain →
            exec (.setPoint p) s = .next
              { s.answered p f .ok [] with
                points := (s.setPt q
                  { r with
                    kind := c.kind, seqType := c.seqType, cls := c.cls, subs := c.subs, ackRing := c.ackRing
                    parent := c.parent, firstOut := c.firstOut }).points })

/-- SET_MAP, SET_LINK, SET_ROUTE and SET_AUDIBLE, R131, R150, R158 and R66: an accepted request stores its values, appends
no record and places no notice; a value outside its range is refused BAD_ARGUMENT and nothing is stored. -/
def Obligations.SettingsStored : Prop :=
  ∀ (s : State) (p : Port) (f : Frame),
    let refused : Host.Outcome State Fault Refusal := .next (s.answered p f .badArgument [])
    let i : InputNo := Fin.ofNat 256 (f.arg 0)
    let q : PointNo := Fin.ofNat 256 (f.arg 2)
    (s.Takes p .setMap f →
      (1 < f.arg 1 → exec (.setMap p) s = refused)
      ∧ (f.arg 1 = 0 → exec (.setMap p) s = .next
          { s.answered p f .ok [] with
            map := (s.setEnt i
              { s.ent i with
                valid := false, point := none, normal := .opened, mode := .level, trap := false
                record := false }).map })
      ∧ (f.arg 1 = 1 →
          (1 < f.arg 3 ∨ 1 < f.arg 4 ∨ 1 < f.arg 5 ∨ 1 < f.arg 6 ∨ (s.pt q).kind ≠ .field →
            exec (.setMap p) s = refused)
          ∧ (f.arg 3 ≤ 1 → f.arg 4 ≤ 1 → f.arg 5 ≤ 1 → f.arg 6 ≤ 1 → (s.pt q).kind = .field →
              exec (.setMap p) s = .next
                { s.answered p f .ok [] with
                  map := (s.setEnt i
                    { s.ent i with
                      valid := true, point := some q
                      normal := if f.arg 3 = 0 then .opened else .closed
                      mode := if f.arg 4 = 0 then .level else .pulse
                      trap := f.arg 5 == 1, record := f.arg 6 == 1 }).map })))
    ∧ (s.Takes p .setLink f →
        (f.arg 0 < 5 ∨ 100 < f.arg 0 → exec (.setLink p) s = refused)
        ∧ (5 ≤ f.arg 0 → f.arg 0 ≤ 100 → exec (.setLink p) s =
            .next { s.answered p f .ok [] with link := { s.link with pollCycle := f.arg 0 } }))
    ∧ (s.Takes p .setRoute f →
        (10 < f.arg 0 ∨ 3 < f.arg 1 ∨ 1 < f.arg 2 ∨ 7 < f.arg 3 → exec (.setRoute p) s = refused)
        ∧ ∀ (g : Flag) (port : Port) (cls : PClass), f.arg 0 = g.code.val → f.arg 1 = port.val → f.arg 2 ≤ 1 →
            f.arg 3 = cls.val → exec (.setRoute p) s =
              .next { s.answered p f .ok [] with
                routes := (s.setRoute g { port := port, enable := f.arg 2 == 1, cls := cls }).routes })
    ∧ (s.Takes p .setAudible f →
        (7 < f.arg 0 → f.arg 0 ≠ 255 → exec (.setAudible p) s = refused)
        ∧ (f.arg 0 = 255 → exec (.setAudible p) s = .next { s.answered p f .ok [] with audibleThreshold := none })
        ∧ ∀ c : PClass, f.arg 0 = c.val →
            exec (.setAudible p) s = .next { s.answered p f .ok [] with audibleThreshold := some c })

/-- SET_INPUTS, R128: an accepted request stores every setting; each pair newly made complementary, or newly made not
complementary, is dealt with (R120) and its reported qualities formed afresh (R122), and no entry is produced. -/
def Obligations.SetInputsStores : Prop :=
  ∀ (s : State) (p : Port) (f : Frame), s.Takes p .setInputs f →
    let debounceOk := fun x : Nat => x = 0 ∨ x = 1 ∨ x = 2 ∨ x = 4 ∨ x = 8 ∨ x = 16 ∨ x = 32 ∨ x = 64
    let ok : Prop :=
      1 ≤ f.arg 0 ∧ f.arg 0 ≤ 60 ∧ 3 ≤ f.arg 1 ∧ f.arg 1 ≤ 30 ∧ 1 ≤ f.arg 2 ∧ debounceOk (f.arg 3)
        ∧ debounceOk (f.arg 4) ∧ debounceOk (f.arg 5) ∧ debounceOk (f.arg 6)
    (¬ ok → exec (.setInputs p) s = .next (s.answered p f .badArgument []))
    ∧ (ok →
        ∃ t, exec (.setInputs p) s = .next t
          ∧ t = { s.answered p f .ok [] with
              settings := t.settings, inputs := t.inputs, pairTimers := t.pairTimers }
          ∧ t.settings.window = f.arg 0 ∧ t.settings.threshold = f.arg 1 ∧ t.settings.discrepancyMs = 10 * f.arg 2
          ∧ (∀ l : LineNo, t.debounceTime l = f.arg (3 + l.val / 16))
          ∧ (∀ k : PairNo, t.paired k = (f.arg4 (7 + 4 * (k.val / 32))).testBit (k.val % 32))
          ∧ ∀ k : PairNo,
              let e := evenInput k
              let o := oddInput k
              let formed := fun i discrepant => t.inp i = (s.inp i).formedWith discrepant s.now
              let stopped := t.pairTimer k = none ∧ formed e false ∧ formed o false
              (t.paired k = s.paired k →
                t.pairTimer k = s.pairTimer k ∧ t.inp e = s.inp e ∧ t.inp o = s.inp o)
              ∧ (t.paired k = false → s.paired k = true → stopped)
              ∧ (t.paired k = true → s.paired k = false → (s.inp e).level ≠ (s.inp o).level → stopped)
              ∧ (t.paired k = true → s.paired k = false → (s.inp e).level = (s.inp o).level →
                  t.pairTimer k = some ((s.pairTimer k).getD (10 * f.arg 2))
                    ∧ formed e (s.inp e).discrepant ∧ formed o (s.inp o).discrepant))

/-- SET_UNIT, R147: an accepted request stores the debounce time, resets misses and mismatch, voids the exchange with the
unit, and acts on its state; a unit that leaves ONLINE has its inputs lost, without entries in CONFIG (R121, R123), and
every other input keeps its record. A unit newly fitted is marked, so that it has its first turn in the next cycle; the
mark is the model's own field (log 29). -/
def Obligations.SetUnitStores : Prop :=
  ∀ (s : State) (p : Port) (f : Frame), s.Takes p .setUnit f →
    let d := f.arg 2
    let debounceOk := d = 0 ∨ d = 1 ∨ d = 2 ∨ d = 4 ∨ d = 8 ∨ d = 16 ∨ d = 32 ∨ d = 64
    (f.arg 0 = 0 ∨ 3 < f.arg 0 ∨ 1 < f.arg 1 ∨ ¬ debounceOk →
      exec (.setUnit p) s = .next (s.answered p f .badArgument []))
    ∧ ∀ u : UnitNo, f.arg 0 = u.val + 1 → f.arg 1 ≤ 1 → debounceOk →
        let r := s.unit u
        let state : UnitState :=
          if f.arg 1 = 0 then .notFitted
          else match r.state with
            | .notFitted => .searching
            | .online => if d = r.debounce then .online else .resync
            | .searching => .searching
            | .resync => .resync
            | .lost => .lost
        ∃ t, exec (.setUnit p) s = .next t
          ∧ t = { s.answered p f .ok [] with link := t.link, inputs := t.inputs }
          ∧ t.unit u =
              { r with
                state := state, debounce := d, misses := 0, mismatch := false
                lastSeq := if f.arg 1 = 0 then 0 else r.lastSeq
                newlyFitted := if f.arg 1 = 0 then false else r.newlyFitted || r.state == .notFitted }
          ∧ (∀ v, v ≠ u → t.unit v = s.unit v)
          ∧ t.link = { s.link with units := t.link.units, exchange := t.link.exchange }
          ∧ (s.link.exchange = none → t.link.exchange = none)
          ∧ (∀ x, s.link.exchange = some x →
              t.link.exchange = some { x with void := x.void || x.unit == u })
          ∧ (r.state = .online → state ≠ .online →
              (∀ i ∈ unitInputs u, t.inp i = (s.inp i).lost (s.inp i) s.now)
                ∧ ∀ i, i ∉ unitInputs u → t.inp i = s.inp i)
          ∧ (¬ (r.state = .online ∧ state ≠ .online) → t.inputs = s.inputs)

/-! ### Operator requests (R46 to R66) -/

/-- ACK_POINT without members, R49, R50 and R7: the transition with its record of cause ACK, then the clearing of the
point's pulse latches and its re-evaluation, which leaves the point, and every point that was so before, up to date. The
condition that the re-evaluation forms takes the point on from the state of the transition to the state of its table
(R17), with records of cause LATCH_CLEAR, or QUALITY_RETURN where the quality returns; a change of condition or quality
takes the parent group along with records of cause MEMBER; a first member goes where a first-out group comes to NORMAL
(R42). Where the re-evaluation finds nothing changed, the transition is all. Each record reaches the point's subscribers
(R22). A members value above 1 is refused BAD_ARGUMENT. That a change which finds a cell marked n/a makes no transition is
the model's reading (log 16). -/
def Obligations.AcknowledgesOne : Prop :=
  ∀ (s : State) (p : Port) (f : Frame), s.Takes p .ackPoint f → f.arg 1 ≠ 1 → s.log.ring.length ≤ 1024 →
    let q := f.point 0
    let r := s.pt q
    let member := if r.kind = .group ∧ r.firstOut = true then r.firstMember else none
    let record := pointDraft (s.requestClaim p) q .ack (.pointState r.seqState r.ackedState r.condition member)
    let moved : PointRec := { r with seqState := r.ackedState }
    let acked := moved.memberCleared
    let acknowledged := r.seqState = .alert ∨ r.seqState = .returnUnacked
    let claim := s.requestClaim p
    let cleared := mapEntries
      (fun e : MapEntry => if e.valid = true ∧ e.point = some q then { e with latch := false } else e) s.map
    (1 < f.arg 1 → exec (.ackPoint p) s = .next (s.answered p f .badArgument []))
    ∧ (f.arg 1 = 0 → ¬ acknowledged → exec (.ackPoint p) s = .next (s.answered p f .badState []))
    ∧ (f.arg 1 = 0 → acknowledged →
        ∃ t, exec (.ackPoint p) s = .next t ∧ t.Responding p f .ok []
          ∧ OnlyMoves { s.closed p f .ok [] (t.stn p).waitResponse with map := cleared } t q
          ∧ (∀ x, (t.pt x).service = (s.pt x).service)
          ∧ AppendsThen s t [record]
              (fun d => d.follows ∨ d.point = some q ∧ (d.cause = some .latchClear ∨ d.cause = some .qualityReturn))
          ∧ (s.depth 4 q ≤ 3 → t.UpToDate q ∧ KeepsUpToDate s t ∧ AlertsAudibly s t)
          ∧ Announces s t
          ∧ (s.depth 4 q ≤ 3 →
              let quality := match r.kind with
                | .spare => r.quality
                | .field => t.fieldQuality q
                | .group => t.groupQuality q
              let condition := match r.kind with
                | .spare => r.condition
                | .field => if quality = .good then t.fieldCondition q else r.condition
                | .group => t.groupCondition q
              let changed := condition ≠ r.condition ∨ quality ≠ r.quality
              let formed : PointRec :=
                { acked with quality := quality, condition := condition, seqState := acked.stateAfter condition }
              let own := record :: (clearedDrafts claim q moved
                ++ formedDrafts claim q .latchClear
                    (if r.kind = .field ∧ r.quality ≠ .good then .qualityReturn else .latchClear) acked quality condition
                ++ if r.kind = .group then clearedDrafts claim q formed else [])
              t.pt q =
                  { (if r.kind = .group then formed.memberCleared else formed) with lastChange := (t.pt q).lastChange }
                ∧ (¬ changed → (∀ x, x ≠ q → t.pt x = s.pt x) ∧ AppendsFirst s t own)
                ∧ (changed → ParentFollows s t claim q own))
          ∧ (r.firstOut = false → s.UpToDate q →
              (∀ i, (s.ent i).valid = true → (s.ent i).point = some q → (s.ent i).latch = false) →
                t.pt q = { r with seqState := r.ackedState, lastChange := some (s.log.next, s.now) }
                  ∧ (∀ x, x ≠ q → t.pt x = s.pt x) ∧ AppendsFirst s t [record]))

/-- ACK_POINT with members, ACK_CLASS and ACK_ALL, R51 and R52: the response is OK with a count. Configuration and service
stay, latches are only cleared, and a point moves only if it, or a point below it, is one that the request offers. Where
no point offered is permitted and in ALERT or RETURN_UNACKED, the count is 0 and nothing changes. Where every point is up
to date, as in RUN (HierarchyKept), each point offered, permitted and in ALERT or RETURN_UNACKED is acknowledged, with its
latches cleared, a FIELD point taken on by the condition that it forms then, and one record of cause ACK, in ascending
number with the named point of ACK_POINT first, no other point has such a record, the count is the number of those points,
and every point is up to date still. Every new record reaches its point's subscribers (R22). That a change which finds a
cell marked n/a makes no transition is the model's reading (log 16). -/
def Obligations.AcknowledgesMany : Prop :=
  ∀ (s : State) (p : Port) (f : Frame) (c : Instr) (k : ReqKind) (offered : PointNo → Prop), s.Takes p k f →
    (c = .ackPointMembers p ∧ k = .ackPoint ∧ f.arg 1 = 1
        ∧ (∀ x, offered x ↔ s.onChain (f.point 0) 3 x = true)
      ∨ c = .ackClass p ∧ k = .ackClass ∧ f.arg 0 < 8 ∧ (∀ x, offered x ↔ (s.pt x).cls.val = f.arg 0)
      ∨ c = .ackAll p ∧ k = .ackAll ∧ ∀ x, offered x) →
    let judged := fun x => offered x ∧ (s.stn p).ring ≤ (s.pt x).ackRing
    ∃ t n, exec c s = .next t ∧ t.Responding p f .ok (b2 n)
      ∧ OnlyEmits
          { s.closed p f .ok (b2 n) (t.stn p).waitResponse with
            points := t.points, map := t.map, audibleRequest := t.audibleRequest } t
      ∧ (s.audibleRequest = true → t.audibleRequest = true) ∧ Announces s t
      ∧ (∀ x, (t.pt x).config = (s.pt x).config ∧ (t.pt x).service = (s.pt x).service)
      ∧ (∀ i, t.ent i = { s.ent i with latch := (t.ent i).latch } ∧ ((t.ent i).latch = true → (s.ent i).latch = true))
      ∧ (∀ x, (∀ y, judged y → s.onChain x 3 y = false) → t.pt x = s.pt x)
      ∧ ((∀ x, judged x → (s.pt x).seqState ≠ .alert ∧ (s.pt x).seqState ≠ .returnUnacked) →
          n = 0 ∧ t = s.answered p f .ok (b2 0))
      ∧ (s.HierarchySound → (∀ x, s.UpToDate x) → s.log.ring.length ≤ 1024 →
          let acknowledged := fun x => judged x ∧ ((s.pt x).seqState = .alert ∨ (s.pt x).seqState = .returnUnacked)
          (∀ x, acknowledged x → (t.pt x).seqState ≠ .alert ∧ (t.pt x).seqState ≠ .returnUnacked)
            ∧ (∀ x, acknowledged x → (s.pt x).kind = .field →
                let acked := { s.pt x with seqState := (s.pt x).ackedState : PointRec }.memberCleared
                let condition := if t.fieldQuality x = .good then t.fieldCondition x else acked.condition
                t.pt x =
                  { acked with
                    quality := t.fieldQuality x, condition := condition, seqState := acked.stateAfter condition
                    lastChange := (t.pt x).lastChange })
            ∧ (∀ x i, acknowledged x → (s.ent i).valid = true → (s.ent i).point = some x → (t.ent i).latch = false)
            ∧ (∀ l : List PointNo, l.Nodup → (∀ x, x ∈ l ↔ acknowledged x) → n = l.length)
            ∧ (∃ ds : List RecordDraft, Appends s t ds
                ∧ (∀ x, (acknowledged x →
                      (ds.filter fun d => d.cause == some .ack && d.point == some x).length = 1)
                    ∧ (¬ acknowledged x → ∀ d ∈ ds, d.cause = some .ack → d.point ≠ some x))
                ∧ ∀ l : List PointNo, l.Pairwise (· < ·) → (∀ x, x ∈ l ↔ acknowledged x) →
                    ds.filterMap (fun d => if d.cause = some .ack then d.point else none) =
                      if k = .ackPoint then l.filter (· == f.point 0) ++ l.filter (· != f.point 0) else l)
            ∧ (∀ x, t.UpToDate x) ∧ t.audibleRequest = s.audibleRequest)

/-- A class above 7 is refused BAD_ARGUMENT (R52), and RESET_POINT and RESET_ALL reset points in RINGBACK under RINGBACK and
in ACKED with condition NORMAL under LATCH, and no others; a first-out point loses its first member, with its record
(R42), and RESET_ALL resets and records in ascending number (R53, R54). Every new record reaches its point's subscribers
(R22). -/
def Obligations.ResetsPoints : Prop :=
  ∀ (s : State) (p : Port) (f : Frame), s.log.ring.length ≤ 1024 →
    let resettable := fun x : PointNo =>
      (s.pt x).seqType = .ringback ∧ (s.pt x).seqState = .ringback
        ∨ (s.pt x).seqType = .latch ∧ (s.pt x).seqState = .acked ∧ (s.pt x).condition = .normal
    let claim := s.requestClaim p
    let q := f.point 0
    let resetOf := fun x : PointNo => ({ s.pt x with seqState := .normal } : PointRec).memberCleared
    let resetDrafts := fun x : PointNo =>
      let r := s.pt x
      let member := if r.kind = .group ∧ r.firstOut = true then r.firstMember else none
      pointDraft claim x .reset (.pointState r.seqState .normal r.condition member)
        :: clearedDrafts claim x { r with seqState := .normal }
    (s.Takes p .ackClass f → 7 < f.arg 0 → exec (.ackClass p) s = .next (s.answered p f .badArgument []))
    ∧ (s.Takes p .resetPoint f →
        (¬ resettable q → exec (.resetPoint p) s = .next (s.answered p f .badState []))
        ∧ (resettable q →
            ∃ t, exec (.resetPoint p) s = .next t ∧ t.Responding p f .ok []
              ∧ OnlyEmits { s.closed p f .ok [] (t.stn p).waitResponse with points := t.points } t ∧ Announces s t
              ∧ t.pt q = { resetOf q with lastChange := (t.pt q).lastChange }
              ∧ (∀ x, x ≠ q → t.pt x = s.pt x) ∧ AppendsFirst s t (resetDrafts q)))
    ∧ (s.Takes p .resetAll f →
        ∃ t n, exec (.resetAll p) s = .next t ∧ t.Responding p f .ok (b2 n)
          ∧ OnlyEmits { s.closed p f .ok (b2 n) (t.stn p).waitResponse with points := t.points } t ∧ Announces s t
          ∧ (∀ x, resettable x → (s.stn p).ring ≤ (s.pt x).ackRing →
              t.pt x = { resetOf x with lastChange := (t.pt x).lastChange })
          ∧ (∀ x, ¬ (resettable x ∧ (s.stn p).ring ≤ (s.pt x).ackRing) → t.pt x = s.pt x)
          ∧ (∀ l : List PointNo, l.Pairwise (· < ·) →
              (∀ x, x ∈ l ↔ resettable x ∧ (s.stn p).ring ≤ (s.pt x).ackRing) →
                n = l.length ∧ AppendsFirst s t (l.flatMap resetDrafts)))

/-- SHELVE and REMOVE, R55 to R57, R62 and R36: the sequence is forced to NORMAL with its record, the service changes with
its record, the first member goes with its record, and the parent group follows; in RUN every point that was up to date
stays so, the groups above with it; in CONFIG, and for a point that is SHELVED, the service alone changes. Every new
record reaches its point's subscribers (R22). That the end time has the quality of the request's stamp, and that a change
which finds a cell marked n/a makes no transition, are the model's (logs 17, 16). -/
def Obligations.LeavesService : Prop :=
  ∀ (s : State) (p : Port) (f : Frame) (c : Instr) (k : ReqKind) (cause : Cause) (service : Service)
    (timer : Option Nat), s.Takes p k f → s.log.ring.length ≤ 1024 →
    let q := f.point 0
    let r := s.pt q
    let minutes := 256 * f.arg 1 + f.arg 2
    (c = .shelve p ∧ k = .shelve ∧ cause = .shelve ∧ service = .shelved (s.now.addMs (minutes * 60000))
        ∧ timer = some (minutes * 60000)
      ∨ c = .remove p ∧ k = .remove ∧ cause = .remove ∧ service = .removed ∧ timer = none) →
    s.depth 4 q ≤ 3 →
    let claim := s.requestClaim p
    let whole := s.mode = .run ∧ r.service = .inService
    let member := if r.kind = .group ∧ r.firstOut = true then r.firstMember else none
    let forced := if whole ∧ r.seqState ≠ .normal then
        [pointDraft claim q cause (.pointState r.seqState .normal r.condition member)] else []
    let changed := pointDraft claim q cause (.pointService r.service service)
    let badState := r.service = .removed ∨ k = .shelve ∧ r.kind = .spare
    (k = .shelve → minutes = 0 ∨ 1440 < minutes → exec c s = .next (s.answered p f .badArgument []))
    ∧ ((k = .shelve → 1 ≤ minutes ∧ minutes ≤ 1440) → badState → exec c s = .next (s.answered p f .badState []))
    ∧ ((k = .shelve → 1 ≤ minutes ∧ minutes ≤ 1440) → ¬ badState →
        ∃ t, exec c s = .next t ∧ t.Responding p f .ok []
          ∧ OnlyMoves (s.closed p f .ok [] (t.stn p).waitResponse) t q
          ∧ (whole →
              t.pt q =
                  { r with
                    seqState := .normal, service := service, shelveTimer := timer
                    firstMember := if r.firstOut = true then none else r.firstMember
                    lastChange := (t.pt q).lastChange }
                ∧ ParentFollows s t claim q
                    (forced ++ changed :: clearedDrafts claim q { r with seqState := .normal }))
          ∧ (¬ whole →
              t.pt q = { r with service := service, shelveTimer := timer, lastChange := some (s.log.next, s.now) }
                ∧ (∀ x, x ≠ q → t.pt x = s.pt x) ∧ AppendsFirst s t [changed])
          ∧ (s.mode = .run → KeepsUpToDate s t) ∧ AlertsAudibly s t ∧ Announces s t
          ∧ AppendsThen s t (forced ++ [changed]) RecordDraft.follows)

/-- UNSHELVE, SHELVE_EXPIRY and RESTORE, R59 to R61 and R63: the point is IN_SERVICE again with its record and goes to
ALERT with a second record if its condition is ABNORMAL; the parent group follows, every point that was up to date stays
so, the groups above with it (R36), and entries into ALERT set the audible request (R24); in CONFIG a RESTORE changes the
service alone. Every new record reaches its point's subscribers (R22). The records of an expiry carry no port and the end
time. That a change which finds a cell marked n/a makes no transition is the model's reading (log 16). -/
def Obligations.ReturnsToService : Prop :=
  ∀ (s : State) (q : PointNo), s.log.ring.length ≤ 1024 → s.depth 4 q ≤ 3 →
    let r := s.pt q
    let returned := fun (base t : State) (claim : Claim) (cause : Cause) =>
      let back := pointDraft claim q cause (.pointService r.service .inService)
      let alerts := r.condition = .abnormal ∧ r.kind ≠ .spare
      let member := if r.kind = .group ∧ r.firstOut = true then r.firstMember else none
      let own := back :: if alerts then
        [pointDraft claim q cause (.pointState r.seqState .alert r.condition member)] else []
      OnlyMoves base t q
        ∧ t.pt q =
            { r with
              service := .inService, shelveTimer := none, seqState := if alerts then .alert else r.seqState
              lastChange := (t.pt q).lastChange }
        ∧ (alerts → s.qualifies r.cls = true → r.seqState ≠ .alert → t.audibleRequest = true)
        ∧ KeepsUpToDate s t ∧ AlertsAudibly s t ∧ Announces s t
        ∧ AppendsThen s t own RecordDraft.follows ∧ ParentFollows s t claim q own
    (∀ (p : Port) (f : Frame) (c : Instr) (k : ReqKind) (cause : Cause), s.Takes p k f → f.arg 0 = q.val →
      let ready := k = .unshelve ∧ r.service.endTime.isSome = true ∨ k = .restore ∧ r.service = .removed
      c = .unshelve p ∧ k = .unshelve ∧ cause = .unshelve ∨ c = .restore p ∧ k = .restore ∧ cause = .restore →
      (¬ ready → exec c s = .next (s.answered p f .badState []))
      ∧ (ready →
          ∃ t, exec c s = .next t ∧ t.Responding p f .ok []
            ∧ (s.mode = .run → returned (s.closed p f .ok [] (t.stn p).waitResponse) t (s.requestClaim p) cause)
            ∧ (s.mode ≠ .run →
                OnlyEmits
                    { s.closed p f .ok [] (t.stn p).waitResponse with
                      points := (s.setPt q
                        { r with
                          service := .inService, shelveTimer := none
                          lastChange := some (s.log.next, s.now) }).points } t
                  ∧ Announces s t
                  ∧ AppendsFirst s t
                      [pointDraft (s.requestClaim p) q cause (.pointService r.service .inService)])))
    ∧ ∀ endTime, s.inReset = false → s.raisings = [] → s.mode = .run → r.shelveTimer = some 0 →
        r.service = .shelved endTime →
        ∃ t, exec (.shelveExpiry q) s = .next t
          ∧ returned s t { stamp := endTime, input := none, port := none } .shelveExpiry

/-- SILENCE, CLEAR_FLAGS, TEST_SOURCE and CLEAR_FAULT naming COMMAND or INPUT, R65, R159, R160 and R164: each does its
work and appends its one record, and no flag is set or left set but as it says, the ones aside that its record or a notice
may raise in turn (LOG_LOSS and LOG_HIGH while an archive port is named, NOTICE_OVERRUN). Where TEST_SOURCE finds the flag
clear and its route enabled, a SYSTEM notice of the route's class with the record's number is placed at the routed port,
and otherwise none (R155, R156). A CLEAR_FAULT naming COMMAND unlocks the record that it has itself been loaded into. -/
def Obligations.RecordedRequests : Prop :=
  ∀ (s : State) (p : Port) (f : Frame), s.log.ring.length ≤ 1024 →
    let refused : Host.Outcome State Fault Refusal := .next (s.answered p f .badArgument [])
    let named := BitVec.ofNat 11 (f.arg2 0)
    let unlocked := { s.captured p f with locked := false, multiple := false }
    (s.Takes p .silence f →
      ∃ t, exec (.silence p) s = .next t ∧ t.Responding p f .ok []
        ∧ OnlyEmits { s.closed p f .ok [] (t.stn p).waitResponse with audibleRequest := false } t
        ∧ FlagsOnly s t []
        ∧ t.audibleLine = false ∧ AppendsFirst s t [otherDraft s.now (.operator s.audibleRequest) (some p)])
    ∧ (s.Takes p .clearFlags f →
        (f.arg2 0 = 0 ∨ 2048 ≤ f.arg2 0 → exec (.clearFlags p) s = refused)
        ∧ (1 ≤ f.arg2 0 → f.arg2 0 < 2048 →
            ∃ t, exec (.clearFlags p) s = .next t ∧ t.Responding p f .ok []
              ∧ OnlyEmits { s.closed p f .ok [] (t.stn p).waitResponse with flags := s.flags &&& ~~~ named } t
              ∧ FlagsOnly { s with flags := s.flags &&& ~~~ named } t []
              ∧ (∀ g : Flag, g ∉ followingFlags → (t.flagSet g = true ↔
                  s.flagSet g = true ∧ (f.arg2 0).testBit g.code.val = false))
              ∧ (s.log.archive = none → t.flags = s.flags &&& ~~~ named)
              ∧ AppendsFirst s t [otherDraft s.now (.clearFlags s.flags named) (some p)]))
    ∧ (s.Takes p .testSource f →
        (10 < f.arg 0 → exec (.testSource p) s = refused)
        ∧ ∀ g : Flag, f.arg 0 = g.code.val →
            ∃ t, exec (.testSource p) s = .next t ∧ t.Responding p f .ok []
              ∧ OnlyEmits (s.closed p f .ok [] (t.stn p).waitResponse) t ∧ t.flagSet g = true ∧ FlagsOnly s t [g]
              ∧ AppendsFirst s t [s.systemDraft g none none none .test (some p)]
              ∧ let notified := fun q : Port => s.flagSet g = false ∧ (s.route g).enable = true ∧ q = (s.route g).port
                ∀ q : Port,
                  (notified q → (s.dsp q).state ≠ .detached →
                      (t.dsp q).Holds (s.route g).cls (· = .system g none none s.log.next))
                    ∧ (¬ notified q → ∀ n ∈ (t.dsp q).queue, n.content.identity = .system g →
                        ∃ m ∈ (s.dsp q).queue, m.number = n.number ∧ m.cls = n.cls ∧ m.content = n.content))
    ∧ (s.Takes p .clearFault f →
        (5 < f.arg 0 → exec (.clearFault p) s = refused)
        ∧ (f.arg 0 = 0 →
            ∃ t, exec (.clearFault p) s = .next t ∧ t.Responding p f .ok []
              ∧ OnlyEmits { s.closed p f .ok [] (t.stn p).waitResponse with commandCapture := unlocked } t
              ∧ FlagsOnly s t []
              ∧ AppendsFirst s t
                  [otherDraft s.now (.clearFault s.commandCapture.locked s.commandCapture.multiple .command) (some p)])
        ∧ (f.arg 0 = 1 →
            ∃ t, exec (.clearFault p) s = .next t ∧ t.Responding p f .ok []
              ∧ OnlyEmits
                  { s.closed p f .ok [] (t.stn p).waitResponse with
                    inputCapture := { s.inputCapture with locked := false, multiple := false } } t
              ∧ FlagsOnly s t []
              ∧ AppendsFirst s t
                  [otherDraft s.now (.clearFault s.inputCapture.locked s.inputCapture.multiple .input) (some p)]))

/-! ### Notice dispatch (R71 to R95) -/

/-- What a change of a point emits, R19, R21 and R22: its record, the last change field, and one POINT notice of the
point's class with its picture at each port of the subscriber mask, in port order. And a placement, R71 and R72: dropped
at a detached port, coalesced into a never-offered notice of the same identity, appended while there is a place, with the
first number, counted on from the next notice number and from 65535 to 1, that no queued notice holds (R70), or dropped on
overrun; each but the first is followed by the test of R77, whose offer hands the notice's NOTICE frame to the arbiter of
the port. -/
def Obligations.NoticePlaced : Prop :=
  (∀ (s : State) (claim : Claim) (p : PointNo) (cause : Cause) (body : RecordBody),
    let r := s.pt p
    let latest := some (s.log.next, claim.stamp)
    let picture : Picture :=
      { point := p, seqState := r.seqState, condition := r.condition, quality := r.quality, service := r.service
        firstMemberFlag := match r.parent with
          | none => false
          | some g => (s.pt g).firstOut && (s.pt g).firstMember == some p
        groupFirstMember := r.shownMember, lastChange := latest }
    let recorded := (s.append false (pointDraft claim p cause body)).setPt p { r with lastChange := latest }
    let placed := fun (t : State) (q : Port) =>
      if r.subs.getLsbD q.val = true then t.place q (.point picture) r.cls else t
    s.emitPoint claim p cause body = placed (placed (placed (placed recorded 0) 1) 2) 3)
  ∧ ∀ (s : State) (p : Port) (c : NoticeContent) (cls : PClass),
    let d := s.dsp p
    let never := fun n : Notice => n.offered = false ∧ n.count = 0 ∧ n.content.identity = c.identity
    let succ := fun k : Nat => if k = 65535 then 1 else k + 1
    (d.state = .detached → s.place p c cls = s)
    ∧ (d.state ≠ .detached → (∃ n ∈ d.queue, never n) →
        s.enqueue p c cls = s.setDsp p
          { d with queue := d.queue.map fun n => if never n then { n with cls := cls, content := c } else n })
    ∧ (d.state ≠ .detached → (∀ n ∈ d.queue, ¬ never n) → d.queue.length < 24 →
        ∃ passed : Nat,
          let k := succ^[passed] d.nextNumber
          (∀ i, i < passed → ∃ n ∈ d.queue, n.number = succ^[i] d.nextNumber) ∧ (∀ n ∈ d.queue, n.number ≠ k)
            ∧ s.enqueue p c cls = s.setDsp p
              { d with
                queue := d.queue ++ [{ number := k, cls := cls, content := c, offered := false, count := 0 }]
                nextNumber := succ k })
    ∧ (d.state ≠ .detached → (∀ n ∈ d.queue, ¬ never n) → 24 ≤ d.queue.length →
        s.enqueue p c cls =
          (s.setDsp p { d with resyncPending := true }).handOn { plainRaising .noticeOverrun with port := some p })
    ∧ (s.place p c cls).dsp p = ((s.enqueue p c cls).dsp p).tested s.now
    ∧ (s.place p c cls).stn p = (s.stn p).noticed ((s.enqueue p c cls).dsp p).offerOf
    ∧ ∀ q, q ≠ p → (s.place p c cls).dsp q = s.dsp q ∧ (s.place p c cls).stn q = s.stn q

/-- Selection, R76: the notice selected is WAITING, its class unmasked and allowed by the nesting; no other such notice
ranks higher, and none of its class stands before it. -/
def Obligations.NoticeSelected : Prop :=
  ∀ (d : Dispatch),
    let rank := fun c : PClass => (c.val + 7 - d.lowest.val) % 8
    let eligible := fun n : Notice =>
      n.offered = false ∧ d.mask.getLsbD n.cls.val = false
        ∧ match d.nesting with
          | .full => ∀ k : PClass, d.inService.getLsbD k.val = true → rank n.cls < rank k
          | .openNest => d.inService.getLsbD n.cls.val = false
    (d.select = none → ∀ n ∈ d.queue, ¬ eligible n)
    ∧ ∀ n, d.select = some n →
        ∃ before after, d.queue = before ++ n :: after ∧ eligible n
          ∧ (∀ m ∈ before, eligible m → rank n.cls < rank m.cls)
          ∧ ∀ m ∈ after, eligible m → rank n.cls ≤ rank m.cls

/-- TAKE, R84 and R85: number 0 is refused BAD_ARGUMENT, a detached port NOT_ATTACHED, and a number that no notice of
offer count 1 or more has STALE. Otherwise the notice leaves the queue, its class goes in service or with auto-done
under AUTO rotation becomes the lowest, its own offer or a stall ends, an empty queue with resync pending takes its
RESYNC notice, the response is OK, and the test of R77 follows. The NOTICE frame of an offer that ends is withdrawn (R78),
and the one of a new offer goes to the arbiter behind the response (R77, R187). -/
def Obligations.TakesNotice : Prop :=
  ∀ (s : State) (p : Port) (f : Frame), s.Takes p .take f →
    let k := f.arg2 0
    let d := s.dsp p
    let refused := fun status => exec (.take p) s = .next (s.answered p f status [])
    (k = 0 → refused .badArgument)
    ∧ (k ≠ 0 → d.state = .detached → refused .notAttached)
    ∧ (k ≠ 0 → d.state ≠ .detached → (∀ n ∈ d.queue, n.number = k → n.count = 0) → refused .stale)
    ∧ ∀ n before after, k ≠ 0 → d.state ≠ .detached → d.queue = before ++ n :: after → n.number = k → 1 ≤ n.count →
        (∀ m ∈ before, m.number ≠ k) → (∀ m ∈ after, m.number ≠ k) →
        let d1 : Dispatch :=
          { d with
            queue := before ++ after
            inService := if d.autoDone then d.inService else d.inService ||| BitVec.twoPow 8 n.cls.val
            lowest := if d.autoDone = true ∧ d.rotation = .auto then n.cls else d.lowest }
        let d2 : Dispatch :=
          if n.offered then { d1 with state := .idle, takeTimer := none }
          else if d.state = .stalled then { d1 with state := .idle, stalled := none }
          else d1
        let a := if n.offered then (s.stn p).withdrawn else s.stn p
        ∃ t, exec (.take p) s = .next t ∧ ServedAtPort s t p f .ok [] ∧ t.dsp p = d2.refilled.tested s.now
          ∧ t.stn p = (a.answered f (responseBytes f .ok [])).noticed d2.refilled.offerOf

/-- POLL, R86: the selection with the OFFERED notice treated as WAITING; the notice selected leaves the queue whatever its
offer count, and any offer ends with its NOTICE frame withdrawn; the one of a new offer goes to the arbiter behind the
response (R77, R78, R187). -/
def Obligations.PollsNotice : Prop :=
  ∀ (s : State) (p : Port) (f : Frame), s.Takes p .poll f →
    let d := s.dsp p
    let waiting : Dispatch := { d with queue := d.queue.map fun n => { n with offered := false } }
    (d.state = .detached → exec (.poll p) s = .next (s.answered p f .notAttached []))
    ∧ (d.state ≠ .detached → waiting.select = none → exec (.poll p) s = .next (s.answered p f .empty []))
    ∧ ∀ n, d.state ≠ .detached → waiting.select = some n →
        let d1 : Dispatch :=
          { waiting with
            queue := waiting.queue.filter fun m => m.number ≠ n.number
            inService := if d.autoDone then d.inService else d.inService ||| BitVec.twoPow 8 n.cls.val
            lowest := if d.autoDone = true ∧ d.rotation = .auto then n.cls else d.lowest
            state := .idle, takeTimer := none, stalled := none }
        ∃ t, exec (.poll p) s = .next t ∧ ServedAtPort s t p f .ok (bNotice n) ∧ t.dsp p = d1.refilled.tested s.now
          ∧ t.stn p =
            ((s.stn p).withdrawn.answered f (responseBytes f .ok (bNotice n))).noticed d1.refilled.offerOf

/-- DONE and DONE_CLASS, R87 to R89: NOT_ATTACHED at a detached port; with no class in service, or not the one named, a
refusal that changes no dispatch state and raises DONE_ERROR naming the port; otherwise the highest-ranking class in
service, or the one named, leaves the set and becomes the lowest under AUTO rotation or at the request's wish, the
response is OK, and the test of R77 follows, whose NOTICE frame goes to the arbiter behind the response. -/
def Obligations.FinishesClass : Prop :=
  ∀ (s : State) (p : Port) (f : Frame) (c : Instr) (k : ReqKind), s.Takes p k f → s.log.ring.length ≤ 1024 →
    c = .done p ∧ k = .done ∨ c = .doneClass p ∧ k = .doneClass ∧ f.arg 0 < 8 ∧ f.arg 1 ≤ 1 →
    let d := s.dsp p
    let rank := fun x : PClass => (x.val + 7 - d.lowest.val) % 8
    let inService := fun x : PClass => d.inService.getLsbD x.val = true
    let raised := fun status =>
      ∃ t, exec c s = .next t ∧ t.Responding p f status []
        ∧ OnlyEmits (s.closed p f status [] (t.stn p).waitResponse) t ∧ t.flagSet .doneError = true
        ∧ AppendsFirst s t [s.systemDraft .doneError none (some p) none .none (some p)]
    let finished := fun (x : PClass) (rotate : Prop) (results : List Byte) =>
      ∃ t, exec c s = .next t ∧ ServedAtPort s t p f .ok results
        ∧ ∃ lowest, (rotate → lowest = x) ∧ (¬ rotate → lowest = d.lowest)
          ∧ let e : Dispatch := { d with inService := d.inService &&& ~~~ BitVec.twoPow 8 x.val, lowest := lowest }
            t.dsp p = e.tested s.now
              ∧ t.stn p = ((s.stn p).answered f (responseBytes f .ok results)).noticed e.offerOf
    (d.state = .detached → exec c s = .next (s.answered p f .notAttached []))
    ∧ (d.state ≠ .detached → d.inService = 0 → raised .nothingInService)
    ∧ (d.state ≠ .detached → k = .doneClass → d.inService ≠ 0 → ∀ x : PClass, x.val = f.arg 0 → ¬ inService x →
        raised .notInService)
    ∧ (d.state ≠ .detached → k = .done → ∀ x : PClass, inService x → (∀ y : PClass, inService y → rank x ≤ rank y) →
        finished x (d.rotation = .auto) (b1 x.val))
    ∧ (d.state ≠ .detached → k = .doneClass → ∀ x : PClass, x.val = f.arg 0 → inService x →
        finished x (f.arg 1 = 1 ∨ d.rotation = .auto) [])

/-- SET_LOWEST, SET_DISPATCH, ATTACH and DETACH, R90 to R93, and a DONE_CLASS with a bad argument (R88): values out of
range are refused BAD_ARGUMENT; the settings are stored and the test of R77 follows; turning polled on ends an offer; a
detached port that attaches becomes IDLE with a RESYNC notice; a port that detaches is flushed, and an unsent NOTICE
frame is dropped. The NOTICE frame of an offer that ends is withdrawn (R78), and the one of a new offer goes to the
arbiter behind the response. -/
def Obligations.PortSettings : Prop :=
  ∀ (s : State) (p : Port) (f : Frame),
    let d := s.dsp p
    let refused : Host.Outcome State Fault Refusal := .next (s.answered p f .badArgument [])
    let served := fun (c : Instr) (a : Station) (e : Dispatch) =>
      ∃ t, exec c s = .next t ∧ ServedAtPort s t p f .ok [] ∧ t.dsp p = e.tested s.now
        ∧ t.stn p = (a.answered f (responseBytes f .ok [])).noticed e.offerOf
    (s.Takes p .doneClass f → 7 < f.arg 0 ∨ 1 < f.arg 1 → exec (.doneClass p) s = refused)
    ∧ (s.Takes p .setLowest f →
        (7 < f.arg 0 → exec (.setLowest p) s = refused)
        ∧ ∀ x : PClass, x.val = f.arg 0 → served (.setLowest p) (s.stn p) { d with lowest := x })
    ∧ (s.Takes p .setDispatch f →
        (1 < f.arg 1 ∨ 1 < f.arg 2 ∨ 1 < f.arg 3 ∨ 1 < f.arg 4 → exec (.setDispatch p) s = refused)
        ∧ (f.arg 1 ≤ 1 → f.arg 2 ≤ 1 → f.arg 3 ≤ 1 → f.arg 4 ≤ 1 →
            let e : Dispatch :=
              { d with
                mask := BitVec.ofNat 8 (f.arg 0)
                nesting := if f.arg 1 = 0 then .full else .openNest
                rotation := if f.arg 2 = 0 then .manual else .auto
                autoDone := f.arg 3 == 1, polled := f.arg 4 == 1 }
            (f.arg 4 = 1 ∧ d.state = .offering →
              served (.setDispatch p) (s.stn p).withdrawn
                { e with
                  queue := d.queue.map fun n => { n with offered := false }
                  takeTimer := none, state := .idle })
            ∧ (¬ (f.arg 4 = 1 ∧ d.state = .offering) → served (.setDispatch p) (s.stn p) e)))
    ∧ (s.Takes p .attach f →
        (d.state ≠ .detached → exec (.attach p) s = .next (s.answered p f .ok []))
        ∧ (d.state = .detached → d.queue = [] → served (.attach p) (s.stn p) { d with state := .idle }.resynced))
    ∧ (s.Takes p .detach f →
        (d.state = .detached → exec (.detach p) s = .next (s.answered p f .ok []))
        ∧ (d.state ≠ .detached →
            ∃ t, exec (.detach p) s = .next t ∧ ServedAtPort s t p f .ok [] ∧ (t.stn p).waitNotice = none
              ∧ t.stn p = (s.stn p).withdrawn.answered f (responseBytes f .ok [])
              ∧ t.dsp p =
                { d with
                  queue := [], inService := 0, resyncPending := false, stalled := none, takeTimer := none
                  state := .detached }))

/-- TAKE_TIMER_EXPIRY, R79 and R80: a notice whose count is within the retries is offered afresh; otherwise it goes back to
WAITING with its count, the port stalls, the delivery failure record locks or sets MULTIPLE, and DELIVERY_STALL is
raised. That it locks with the contents it holds, where the notice was offered while the record was locked, is the model's
choice (log 30). -/
def Obligations.TakeTimerExpires : Prop :=
  ∀ (s : State) (p : Port) (n : Notice) (before after : List Notice), s.inReset = false → s.raisings = [] →
    s.log.ring.length ≤ 1024 → (s.dsp p).takeTimer = some 0 → (s.dsp p).queue = before ++ n :: after →
    n.offered = true → (∀ m ∈ before, m.offered = false) →
    let d := s.dsp p
    let waiting : Dispatch := { d with queue := d.queue.map fun n => { n with offered := false }, takeTimer := none }
    (n.count ≤ d.retries →
      ∃ t, exec (.takeTimerExpiry p) s = .next t ∧ PortOnly s t p
        ∧ t.dsp p = ({ waiting with state := .idle } : Dispatch).tested s.now
        ∧ t.stn p = (s.stn p).noticed ({ waiting with state := .idle } : Dispatch).offerOf)
    ∧ (d.retries < n.count →
        let failure : FailureRec :=
          if d.failure.locked then { d.failure with multiple := true } else { d.failure with locked := true }
        ∃ t, exec (.takeTimerExpiry p) s = .next t
          ∧ OnlyEmits
              (s.setDsp p { waiting with state := .stalled, stalled := some n.number, failure := failure }) t
          ∧ (t.dsp p).state = .stalled ∧ (t.dsp p).stalled = some n.number ∧ (t.dsp p).takeTimer = none
          ∧ (t.dsp p).failure = failure
          ∧ (∀ m ∈ (t.dsp p).queue, m.offered = false)
          ∧ (∃ m ∈ (t.dsp p).queue, m.number = n.number ∧ m.count = n.count)
          ∧ t.faultLine = true ∧ t.flagSet .deliveryStall = true ∧ FlagsOnly s t [.deliveryStall]
          ∧ AppendsFirst s t [s.systemDraft .deliveryStall none (some p) none .none none])

/-- CLEAR_FAULT naming a port, R83: the delivery failure record is unlocked with its CLEAR record, and a stall ends; the
stalled notice is never-offered again, and takes the picture of a later never-offered notice of its identity; the test
of R77 follows at the port. -/
def Obligations.ClearFaultAtPort : Prop :=
  ∀ (s : State) (p q : Port) (f : Frame), s.Takes p .clearFault f → f.arg 0 = q.val + 2 → s.log.ring.length ≤ 1024 →
    let d := s.dsp q
    let unlocked : Dispatch := { d with failure := { d.failure with locked := false, multiple := false } }
    let cleared := fun e : Dispatch =>
      ∃ t, exec (.clearFaultPort p) s = .next t ∧ t.Responding p f .ok []
        ∧ OnlyEmits { s.closed p f .ok [] (t.stn p).waitResponse with dispatch := (s.setDsp q e).dispatch } t
        ∧ (∃ k, (e.tested s.now).PlacedOnto k (t.dsp q))
        ∧ (t.dsp q).failure.locked = false ∧ (t.dsp q).failure.multiple = false
        ∧ (∀ m ∈ e.queue, ∃ o ∈ (t.dsp q).queue, o.number = m.number)
        ∧ FlagsOnly s t []
        ∧ AppendsFirst s t [otherDraft s.now (.clearFault d.failure.locked d.failure.multiple (.port q)) (some p)]
    let revived := fun queue => cleared { unlocked with queue := queue, stalled := none, state := .idle }
    (d.state ≠ .stalled → cleared unlocked)
    ∧ ∀ n before after, d.state = .stalled → d.stalled = some n.number → d.queue = before ++ n :: after →
        (∀ m ∈ before ++ after, m.number ≠ n.number) →
        let twin := fun m : Notice => m.offered = false ∧ m.count = 0 ∧ m.content.identity = n.content.identity
        ((∀ m ∈ before ++ after, ¬ twin m) → revived (before ++ { n with count := 0 } :: after))
        ∧ ∀ m x y, after = x ++ m :: y → twin m → (∀ o ∈ before ++ x ++ y, ¬ twin o ∧ o.number ≠ m.number) →
            revived (before ++ { n with count := 0, cls := m.cls, content := m.content } :: (x ++ y))

/-- SET_PORT, R189: it requires ring 0 and is accepted in every mode. Values out of range, and a ring other than 0 for S0,
are refused BAD_ARGUMENT and leave every item as it was; otherwise the named port takes ring, take timeout in units of 10 ms
and retries, its discard count is set to 0 if asked, the answer is OK, and nothing else changes: no record, no notice. The
named port's next request, of any kind, is judged by the new ring, also where the port has set its own. -/
def Obligations.SetPortStores : Prop :=
  ∀ (s : State) (p : Port) (f : Frame),
    s.modeOk .setPort f = true ∧ ((s.stn p).inProgress = none → (s.ringOk p .setPort f = true ↔ (s.stn p).ring = 0))
    ∧ (s.Takes p .setPort f →
        let bad := 3 < f.arg 0 ∨ 3 < f.arg 1 ∨ f.arg 2 = 0 ∨ 7 < f.arg 3 ∨ 1 < f.arg 4 ∨ f.arg 0 = 0 ∧ f.arg 1 ≠ 0
        (bad → exec (.setPort p) s = .next (s.answered p f .badArgument []))
        ∧ ∀ (q : Port) (r : Ring), ¬ bad → f.arg 0 = q.val → f.arg 1 = r.val →
            let a := s.answered p f .ok []
            let t :=
              (a.setStn q
                { a.stn q with ring := r, discards := if f.arg 4 = 1 then 0 else (s.stn q).discards }).setDsp q
                { s.dsp q with takeTimeout := 10 * f.arg 2, retries := f.arg 3 }
            exec (.setPort p) s = .next t
              ∧ ((t.stn q).inProgress = none → ∀ row ∈ requestTable, ∀ g : Frame,
                  (t.ringOk q row.kind g = true ↔
                    r ≤ row.ring ∧ (row.permission = true → r ≤ (s.pt (g.point 0)).ackRing))))

/-! ### The Event Record's settings (R104, R107, R108) -/

/-- SET_LOG and CONFIRM_LOG, R104, R107 and R108, and the append, R102 and R105 to R107: a full ring loses its oldest record,
and where that one comes after the confirmed number, that number moves over it and LOG_LOSS is handed on, but for the
append of a LOG_LOSS record; the new record takes the next number; LOG_HIGH is handed on where the unconfirmed count
crosses the threshold, or stands above it with the flag clear. That the count before a SET_LOG is compared with the
threshold before it is the model's reading of R107 (log 19), and so is the count after a CONFIRM_LOG of a number never
assigned (log 27). -/
def Obligations.LogSettings : Prop :=
  (∀ (s : State) (silent : Bool) (d : RecordDraft), s.log.ring.length ≤ 1024 →
    let l := s.log
    let count := fun l : EventLog => (l.ring.filter fun r => seqAfter l.confirmed r.seq).length
    let full := l.ring.length = 1024
    let lost := full ∧ l.archive ≠ none ∧ ∃ o, l.ring.head? = some o ∧ seqAfter l.confirmed o.seq = true
    let new : EventLog :=
      { l with
        ring := (if full then l.ring.tail else l.ring) ++ [d.numbered l.next]
        newest := l.next, next := seqSucc l.next
        confirmed := if lost then ((l.ring.head?).map EventRecord.seq).getD 0 else l.confirmed }
    let high := l.archive ≠ none ∧ l.threshold ≤ count new
      ∧ (count l < l.threshold ∨ s.flagSet .logHigh = false
          ∧ ∀ r ∈ s.raisings, ¬ (r.flag = .logHigh ∧ r.detail = .none))
    s.append silent d =
      { s with
        log := new
        raisings := s.raisings ++ (if lost ∧ silent = false then [plainRaising .logLoss] else [])
          ++ if high then [plainRaising .logHigh] else [] })
  ∧ ∀ (s : State) (p : Port) (f : Frame), s.log.ring.length ≤ 1024 →
    let l := s.log
    let threshold := f.arg2 1
    let bad := 3 < f.arg 0 ∧ f.arg 0 ≠ 255 ∨ threshold < 256 ∨ 1008 < threshold ∨ threshold % 16 ≠ 0
    let held := fun l : EventLog => (l.ring.filter fun r => seqAfter l.confirmed r.seq).length
    let n := f.arg4 0
    let confirmed := fun l : EventLog => b4 l.confirmed ++ b2 (held l)
    (s.Takes p .setLog f →
      (bad → exec (.setLog p) s = .next (s.answered p f .badArgument []))
      ∧ (¬ bad → f.arg 0 = 255 →
          exec (.setLog p) s =
            .next { s.answered p f .ok [] with log := { l with archive := none, threshold := threshold } })
      ∧ ∀ q : Port, ¬ bad → f.arg 0 = q.val →
          let new : EventLog :=
            { l with
              archive := some q, threshold := threshold
              confirmed := if l.archive = some q then l.confirmed else l.newest }
          let crossed := threshold ≤ held new ∧ (l.unconfirmed < l.threshold ∨ s.flagSet .logHigh = false)
          (¬ crossed → exec (.setLog p) s = .next { s.answered p f .ok [] with log := new })
          ∧ (crossed →
              ∃ t, exec (.setLog p) s = .next t ∧ t.Responding p f .ok []
                ∧ OnlyEmits { s.closed p f .ok [] (t.stn p).waitResponse with log := new } t
                ∧ t.flagSet .logHigh = true
                ∧ AppendsFirst s t [s.systemDraft .logHigh none none none .none (some p)]))
    ∧ (s.Takes p .confirmLog f →
        let refused := fun status => exec (.confirmLog p) s = .next (s.answered p f status [])
        (n = 0 → refused .badArgument)
        ∧ (n ≠ 0 → l.archive ≠ some p → refused .badState)
        ∧ (n ≠ 0 → l.archive = some p →
            (n = l.confirmed ∨ seqAfter n l.confirmed = true →
              exec (.confirmLog p) s = .next (s.answered p f .ok (confirmed l)))
            ∧ (¬ (n = l.confirmed ∨ seqAfter n l.confirmed = true) → n = l.newest ∨ seqAfter n l.newest = true →
                exec (.confirmLog p) s = .next
                  { s.answered p f .ok (confirmed { l with confirmed := n }) with log := { l with confirmed := n } })
            ∧ (¬ (n = l.confirmed ∨ seqAfter n l.confirmed = true) → ¬ (n = l.newest ∨ seqAfter n l.newest = true) →
                refused .badArgument)))

/-! ### Modes (R167 to R175) -/

/-- ENTER_RUN, R168: an option above 1 is refused BAD_ARGUMENT, and a valid map entry of an input whose unit is not
fitted BAD_STATE with the lowest such input. Otherwise the mode is STARTING with the option held, every input's last
queued level and quality take its present ones, a MODE record is appended, a MODE notice is placed at every attached port
(R94), the response is OK, and the evaluation stands at the first point of its order. -/
def Obligations.EntersRun : Prop :=
  ∀ (s : State) (p : Port) (f : Frame), s.Takes p .enterRun f → s.log.ring.length ≤ 1024 →
    let failing := fun i => (s.ent i).valid = true ∧ s.unfitted i = true
    (1 < f.arg 0 → exec (.enterRun p) s = .next (s.answered p f .badArgument []))
    ∧ (f.arg 0 ≤ 1 → ∀ i, failing i → (∀ j, j < i → ¬ failing j) →
        exec (.enterRun p) s = .next (s.answered p f .badState [BitVec.ofNat 8 i.val]))
    ∧ (f.arg 0 ≤ 1 → (∀ i, ¬ failing i) →
        ∃ t, exec (.enterRun p) s = .next t ∧ t.Responding p f .ok []
          ∧ OnlyEmits
              { s.closed p f .ok [] (t.stn p).waitResponse with
                mode := .starting, startAcked := f.arg 0 == 1, inputs := t.inputs, evalPos := t.evalPos } t
          ∧ (∀ i, t.inp i =
              { s.inp i with queuedLevel := (s.inp i).level, queuedQuality := (s.inp i).reported })
          ∧ t.evalPos = s.evalOrder.head?
          ∧ (∀ q, (s.dsp q).state ≠ .detached → (t.dsp q).HoldsMode .starting)
          ∧ FlagsOnly s t []
          ∧ AppendsFirst s t
              [otherDraft s.now (.mode .config .starting (some (f.arg 0 == 1)) false) (some p)])

/-- The initial evaluation: its order, R169 (every point once, FIELD and SPARE points in ascending number, then the GROUP
points from the greatest depth, and in ascending number among equal depths), and FIELD_POINT_EVALUATION,
GROUP_POINT_EVALUATION and END_OF_INITIAL_EVALUATION, R170 to R172: a point that starts ABNORMAL goes to ACKED or to
ALERT, where it sets the audible request if its class qualifies (R24), every new record reaches its point's subscribers
(R22), and at the end a MODE notice is placed at every attached port (R94). -/
def Obligations.Evaluates : Prop :=
  (∀ s : State, (∀ p, s.depth 4 p ≤ 3) →
    (∀ p, p ∈ s.evalOrder) ∧ s.evalOrder.Nodup
      ∧ s.evalOrder.Pairwise fun a b =>
          if (s.pt a).kind = .group then
            (s.pt b).kind = .group ∧ (s.depth 3 b < s.depth 3 a ∨ s.depth 3 b = s.depth 3 a ∧ a < b)
          else (s.pt b).kind = .group ∨ a < b)
  ∧ ∀ s : State, s.inReset = false → s.raisings = [] → s.mode = .starting → s.log.ring.length ≤ 1024 →
    (∀ p, s.evalPos = some p →
      let r := s.pt p
      let c : Instr := if r.kind = .group then .groupPointEvaluation else .fieldPointEvaluation
      ∃ t, exec c s = .next t
        ∧ OnlyEmits
            { s with
              points := t.points, map := t.map, audibleRequest := t.audibleRequest, evalPos := t.evalPos } t
        ∧ t.evalPos = nextAfter p s.evalOrder ∧ Announces s t
        ∧ (∀ x, x ≠ p → t.pt x = s.pt x)
        ∧ (∀ i, t.ent i =
            if r.kind = .field ∧ (s.ent i).valid = true ∧ (s.ent i).point = some p then
              { s.ent i with
                appliedLevel := (s.inp i).level, appliedQuality := (s.inp i).reported
                latch := (s.ent i).latch || (!s.startAcked && (s.ent i).mode == .pulse && !(s.ent i).trap
                  && (s.inp i).level != (s.ent i).normal) }
            else s.ent i)
        ∧ let quality := match r.kind with
            | .spare => .good
            | .field => t.fieldQuality p
            | .group => s.groupQuality p
          let condition := match r.kind with
            | .spare => .normal
            | .field => t.fieldCondition p
            | .group => s.groupCondition p
          let starts := r.service = .inService ∧ condition = .abnormal
          let member := if r.kind = .group ∧ r.firstOut = true then r.firstMember else none
          let goesTo : SeqState := if s.startAcked then .acked else .alert
          let claim : Claim := { stamp := s.now, input := none, port := none }
          t.pt p =
              { r with
                quality := quality, condition := condition
                seqState := if starts then goesTo else r.seqState, lastChange := (t.pt p).lastChange }
            ∧ t.audibleRequest = (s.audibleRequest || decide (starts ∧ s.startAcked = false ∧ r.seqState ≠ .alert)
                && s.qualifies r.cls)
            ∧ AppendsFirst s t
                ((if quality ≠ r.quality then [pointDraft claim p .start (.pointQuality r.quality quality)] else [])
                  ++ if starts then
                    [pointDraft claim p .start (.pointState r.seqState goesTo condition member)] else []))
    ∧ (s.evalPos = none →
        ∃ t, exec .endOfInitialEvaluation s = .next t ∧ OnlyEmits { s with mode := .run } t
          ∧ (∀ q, (s.dsp q).state ≠ .detached → (t.dsp q).HoldsMode .run) ∧ FlagsOnly s t []
          ∧ AppendsFirst s t [otherDraft s.now (.mode .starting .run none false) none])

/-- ENTER_CONFIG, R174, stage 1: the mode becomes CONFIG, the request stays in progress, and the claim waits at the Point
Engine with the time of the change. That the stages are commands of their own is the model's choice (log 7). While the
claim waits, the Point Engine and the Mode Controller take no request: the decoder takes it and makes the checks that
are its own (R184, R185), and it waits in progress, with the ring of its taking, until its row's event stands for the
owner's taking, which makes the mode check again, and where the checks are the Point Engine's, the ring check too
(log 8), whose refusal locks the command capture record on the load of the request itself, with the time of its taking
(R162). The argument and mode checks of a SET_POINT are those of logs 20 and 21. -/
def Obligations.EntersConfig : Prop :=
  (∀ (s : State) (p : Port) (f : Frame), s.Takes p .enterConfig f →
    exec (.enterConfig p) s = .next
      { s.setStn p
          { s.stn p with
            intake := (s.stn p).intake.tail, inProgress := some { frame := f, stage := .enterConfig } } with
        commandCapture := s.captured p f, mode := .config, evalPos := none
        engineClaim := some { port := p, before := s.mode, restart := false, stamp := s.now } })
  ∧ (∀ (s : State) (p : Port) (f : Frame) (k : ReqKind), s.inReset = false → s.raisings = [] →
      s.engineClaim ≠ none → s.takeable p = some f → s.isRetransmission p f = false → f.kind = k.code →
      f.body.length = k.bodyLength → k.waitsForEngine = true →
      (k.checkedByEngine = true → exec (rowFor k p f) s = .next (s.held p f))
      ∧ (k.checkedByEngine = false → s.ringOk p k f = true → s.modeOk k f = true →
          exec (rowFor k p f) s =
            .next (if s.argumentsOk k f = true then s.held p f else s.answered p f .badArgument [])))
  ∧ ∀ (s : State) (p : Port) (f : Frame) (k : ReqKind) (r : Ring) (taken : TimeStamp), s.inReset = false →
      s.raisings = [] → (s.stn p).inProgress = some { frame := f, stage := .waiting r taken } → f.kind = k.code →
      f.body.length = k.bodyLength →
      let replied := fun status results =>
        (.next (s.setStn p ((s.stn p).replied f (responseBytes f status results))) : Host.Outcome State Fault Refusal)
      (s.engineClaim ≠ none → exec (rowFor k p f) s = .next s)
      ∧ (s.engineClaim = none → s.modeOk k f = false → (k.checkedByEngine = true → s.ringOk p k f = true) →
          exec (rowFor k p f) s = replied .mode [])
      ∧ (s.engineClaim = none → k.checkedByEngine = true → s.ringOk p k f = false → s.log.ring.length ≤ 1024 →
          ∃ t, exec (rowFor k p f) s = .next t ∧ t.Responding p f .ring []
            ∧ OnlyEmits
                { s.setStn p
                    { s.stn p with
                      inProgress := none, cache := some { request := f, response := responseBytes f .ring [] }
                      waitResponse := (t.stn p).waitResponse } with
                  commandCapture := s.faultCaptured taken p f } t
            ∧ t.flagSet .commandFault = true ∧ t.faultLine = true
            ∧ AppendsFirst s t [s.systemDraft .commandFault none none none .ring (some p)])
      ∧ (s.engineClaim = none → k = .silence → s.modeOk k f = true → s.log.ring.length ≤ 1024 →
          ∃ t, exec (.silence p) s = .next t ∧ t.Responding p f .ok [] ∧ (t.stn p).inProgress = none
            ∧ t.audibleRequest = false ∧ t.audibleLine = false
            ∧ AppendsFirst s t [otherDraft s.now (.operator s.audibleRequest) (some p)])
      ∧ (s.engineClaim = none → k = .readPoint → ∀ q : PointNo, f.arg 0 = q.val → f.arg 1 = 1 →
          exec (.readPoint p) s = replied .ok (b1 q.val ++ b1 1 ++ bPointRec (s.pt q)))

/-- ENTER_CONFIG_ENGINE_CLAIM, R174, stages 2 and 3, and R94: every point and every latch is quiet, shelving has ended, the
audible request and the change queue are empty, the MODE record is appended with the time of the change of mode (R100),
every attached port is flushed with its NOTICE frame withdrawn, receives a RESYNC and a MODE notice and is tested
(R77), and the response follows; a RESTART goes on to its next step. That this one command does stage 3, the MODE record and
the response together with stage 2 is the model's choice (log 7), and so is that a RESTART's next step is a command of its
own (log 9). -/
def Obligations.EngineTakesClaim : Prop :=
  ∀ (s : State) (c : EngineClaim), s.inReset = false → s.raisings = [] → s.engineClaim = some c →
    s.log.ring.length ≤ 1024 →
    ∃ t, exec .enterConfigEngineClaim s = .next t
      ∧ t = { s with
          engineClaim := none, points := t.points, map := t.map, audibleRequest := false, changeQueue := []
          inputs := t.inputs, dispatch := t.dispatch, log := t.log, flags := t.flags, stations := t.stations
          raisings := t.raisings }
      ∧ (∀ x, t.pt x =
          { s.pt x with
            seqState := .normal, condition := .normal, firstMember := none, shelveTimer := none
            service := if (s.pt x).service = .removed then .removed else .inService })
      ∧ (∀ i, t.ent i = { s.ent i with latch := false }) ∧ (∀ i, t.inp i = { s.inp i with deferred := false })
      ∧ t.audibleLine = false ∧ FlagsOnly s t []
      ∧ AppendsFirst s t [otherDraft c.stamp (.mode c.before .config none c.restart) (some c.port)]
      ∧ (∀ q, (s.dsp q).state = .detached → t.dsp q = s.dsp q)
      ∧ (∀ q, (s.dsp q).state ≠ .detached →
          let after := fun n => if n = 65535 then 1 else n + 1
          let first := (s.dsp q).nextNumber
          let flushed : Dispatch :=
            { s.dsp q with
              inService := 0, resyncPending := false, stalled := none, takeTimer := none, state := .idle
              nextNumber := after (after first)
              queue :=
                [{ number := first, cls := 0, content := .resync, offered := false, count := 0 },
                  { number := after first, cls := 0, content := .mode .config, offered := false, count := 0 }] }
          (∃ k, (flushed.tested s.now).PlacedOnto k (t.dsp q)
              ∧ ((s.stn q).withdrawn.noticed flushed.offerOf).Sent k (t.dsp q).queue (t.stn q))
            ∧ ∃ a b new, (t.dsp q).queue = a :: b :: new ∧ a.number = first ∧ a.content = .resync
                ∧ b.number = after first ∧ b.content = .mode .config
                ∧ ∀ n ∈ new, n.content ≠ .resync ∧ n.content ≠ .mode .config)
      ∧ (∀ q, t.stn q =
          { s.stn q with
            tx := (t.stn q).tx, waitNotice := (t.stn q).waitNotice, waitResponse := (t.stn q).waitResponse
            inProgress := (t.stn q).inProgress, cache := (t.stn q).cache })
      ∧ (∀ q, q ≠ c.port → (t.stn q).inProgress = (s.stn q).inProgress ∧ (t.stn q).cache = (s.stn q).cache
          ∧ (t.stn q).waitResponse = (s.stn q).waitResponse)
      ∧ ∀ r, (s.stn c.port).inProgress = some r →
          (r.stage = .enterConfig ∨ r.stage = .restartConfig .config →
            (t.stn c.port).inProgress = none ∧ t.Responding c.port r.frame .ok [])
          ∧ ∀ m, r.stage = .restartConfig m → m ≠ .config →
              (t.stn c.port).inProgress = some { r with stage := .restartRun }

/-- RESTART, R175, R95 and R149: the flags, the locks of the captures and of the delivery failure records, and the fitted
units, with the first stage of its ENTER_CONFIG step; no flag is set after it but CHANGE_DEFERRED, by the entries of the
lost-state claims, and those that its records or notices raise in turn. Which of the lost-state claims and the change of
mode comes first is left open (a free value, log 10); the inputs end UNIT_LOST in either order, and those of unit 0 and of
units that were not ONLINE keep their records. An exchange outstanding with a fitted unit is marked void, and none begins
(R149). That this command stops after the first stage of the ENTER_CONFIG step,
with the request in progress and a claim waiting at the Point Engine, is the model's choice (log 9). -/
def Obligations.Restarts : Prop :=
  ∀ (s : State) (p : Port) (f : Frame), s.Takes p .restart f → s.log.ring.length ≤ 1024 →
    let unlock := fun d : Dispatch => { d with failure := { d.failure with locked := false, multiple := false } }
    let base : State :=
      { s.setStn p
          { s.stn p with
            intake := (s.stn p).intake.tail, inProgress := some { frame := f, stage := .restartConfig s.mode } } with
        commandCapture := { s.captured p f with locked := false, multiple := false }
        inputCapture := { s.inputCapture with locked := false, multiple := false }
        dispatch := mapEntries unlock s.dispatch
        flags := 0, mode := .config, evalPos := none
        engineClaim := some { port := p, before := s.mode, restart := true, stamp := s.now } }
    ∃ t, exec (.restart p) s = .next t
      ∧ OnlyEmits
          { base with
            link := t.link, inputs := t.inputs, changeQueue := t.changeQueue, freeCount := t.freeCount } t
      ∧ ((∀ u, (s.unit u).state ≠ .online) →
          t = { base with link := t.link, freeCount := t.freeCount } ∧ t.faultLine = false)
      ∧ FlagsOnly base t [.changeDeferred]
      ∧ (∀ g : Flag, g ≠ .changeDeferred → g ∉ followingFlags → t.flagSet g = false)
      ∧ (∀ q, (t.dsp q).failure.locked = false ∧ (t.dsp q).failure.multiple = false)
      ∧ (∀ u, (s.unit u).state = .notFitted → t.unit u = s.unit u)
      ∧ (∀ u, (s.unit u).state ≠ .notFitted →
          t.unit u = { s.unit u with state := .searching, misses := 0, mismatch := false })
      ∧ (∀ u, (s.unit u).state = .online → ∀ i ∈ unitInputs u, t.inp i = (s.inp i).lost (t.inp i) s.now)
      ∧ (∀ i, (∀ u, (s.unit u).state = .online → i ∉ unitInputs u) → t.inp i = s.inp i)
      ∧ (∃ more, t.changeQueue = s.changeQueue ++ more ∧ ∀ e ∈ more,
          e.kind = .quality ∧ e.quality = .unitLost ∧ e.stamp = s.now ∧ e.coalesced = false
            ∧ e.level = (s.inp e.input).level ∧ ∃ u, (s.unit u).state = .online ∧ e.input ∈ unitInputs u)
      ∧ t.link = { s.link with units := t.link.units, exchange := t.link.exchange }
      ∧ (s.link.exchange = none → t.link.exchange = none)
      ∧ ∀ x, s.link.exchange = some x →
          t.link.exchange = some { x with void := x.void || decide ((s.unit x.unit).state ≠ .notFitted) }

/-- The ENTER_RUN step of a RESTART, R175, step 4: as ENTER_RUN (R168) with the start option held and the restart mark, every
input's last queued level and quality taking its present ones (R127) and a MODE notice placed (R94); where the
validation fails, or another ENTER_RUN has been accepted, RESTART is answered OK and goes no further. That the row
ENTER_RUN stands for the step (log 9), and that the step is taken where the mode has become CONFIG again (log 32), are
the model's choices. -/
def Obligations.RestartEntersRun : Prop :=
  ∀ (s : State) (p : Port) (f : Frame), s.inReset = false → s.raisings = [] → s.engineClaim = none →
    (s.stn p).inProgress = some { frame := f, stage := .restartRun } → s.log.ring.length ≤ 1024 →
    let failing := fun i => (s.ent i).valid = true ∧ s.unfitted i = true
    ∃ t, exec (.enterRun p) s = .next t ∧ t.Responding p f .ok [] ∧ (t.stn p).inProgress = none
      ∧ (s.mode ≠ .config ∨ (∃ i, failing i) →
          PortOnly (s.setStn p
            { s.stn p with
              inProgress := none, cache := some { request := f, response := responseBytes f .ok [] } }) t p
            ∧ t.dispatch = s.dispatch)
      ∧ (s.mode = .config → (∀ i, ¬ failing i) →
          OnlyEmits
              { s.setStn p
                  { s.stn p with
                    inProgress := none, cache := some { request := f, response := responseBytes f .ok [] }
                    waitResponse := (t.stn p).waitResponse } with
                mode := .starting, inputs := t.inputs, evalPos := t.evalPos } t
            ∧ (∀ i, t.inp i =
                { s.inp i with queuedLevel := (s.inp i).level, queuedQuality := (s.inp i).reported })
            ∧ t.evalPos = s.evalOrder.head? ∧ FlagsOnly s t []
            ∧ (∀ q, (s.dsp q).state ≠ .detached → (t.dsp q).HoldsMode .starting)
            ∧ AppendsFirst s t
                [otherDraft s.now (.mode .config .starting (some s.startAcked) true) (some p)])

/-! ### The sequence tables (R14 to R16, R49, R53) -/

/-- Tables 1-2, 1-3 and 1-4 (R14 to R16), row by row: the cell of the condition change that can come (C↑ at condition
NORMAL, C↓ at ABNORMAL), of ACK and of RESET; `none` is a refusal. And a C↓ in ACKED under LATCH: a POINT_STATE record
with ACKED as from and to state, the condition NORMAL, and notices as for any transition (R16, R19, R22). And what a
condition formed does to any point: the same condition does nothing; another one takes an IN_SERVICE point that is not
SPARE to the state of its table's cell, with its record and notices and, at an entry into ALERT of a qualifying class, the
audible request (R12, R19, R24); at any other point it changes the condition alone. -/
def Obligations.SequencesMove : Prop :=
  let row := fun (t : SeqType) (st : SeqState) (c : Condition) (change ack reset : Option SeqState) =>
    seqTable t st c (if c = .normal then .up else .down) = change ∧ seqTable t st c .ack = ack
      ∧ seqTable t st c .reset = reset
  (row .auto .normal .normal (some .alert) none none
    ∧ row .auto .alert .abnormal (some .returnUnacked) (some .acked) none
    ∧ row .auto .acked .abnormal (some .normal) none none
    ∧ row .auto .returnUnacked .normal (some .alert) (some .normal) none)
  ∧ (row .ringback .normal .normal (some .alert) none none
    ∧ row .ringback .alert .abnormal (some .returnUnacked) (some .acked) none
    ∧ row .ringback .acked .abnormal (some .ringback) none none
    ∧ row .ringback .returnUnacked .normal (some .alert) (some .ringback) none
    ∧ row .ringback .ringback .normal (some .alert) none (some .normal))
  ∧ (row .latch .normal .normal (some .alert) none none
    ∧ row .latch .alert .abnormal (some .returnUnacked) (some .acked) none
    ∧ row .latch .acked .abnormal (some .acked) none none
    ∧ row .latch .acked .normal (some .alert) none (some .normal)
    ∧ row .latch .returnUnacked .normal (some .alert) (some .acked) none)
  ∧ (∀ (s : State) (claim : Claim) (p : PointNo) (cause : Cause),
      let r := s.pt p
      let member := if r.kind = .group ∧ r.firstOut = true then r.firstMember else none
      r.seqType = .latch → r.seqState = .acked → r.condition = .abnormal → r.service = .inService → r.kind ≠ .spare →
        s.recordCondition claim p cause .normal =
          (s.setPt p { r with condition := .normal }).emitPoint claim p cause
            (.pointState .acked .acked .normal member))
  ∧ ∀ (s : State) (claim : Claim) (p : PointNo) (cause : Cause) (c : Condition),
      let r := s.pt p
      let event := if c = .abnormal then SeqEvent.up else SeqEvent.down
      (r.condition = c → s.recordCondition claim p cause c = s)
        ∧ (r.condition ≠ c → r.service ≠ .inService ∨ r.kind = .spare →
            s.recordCondition claim p cause c = s.setPt p { r with condition := c })
        ∧ ∀ st, r.condition ≠ c → r.service = .inService → r.kind ≠ .spare →
            seqTable r.seqType r.seqState r.condition event = some st →
            let t := (s.setPt p { r with condition := c, seqState := st }).emitPoint claim p cause
              (.pointState r.seqState st c r.shownMember)
            s.recordCondition claim p cause c =
              if st = .alert ∧ r.seqState ≠ .alert ∧ s.qualifies r.cls = true then { t with audibleRequest := true }
              else t

/-! ### Invariants -/

/-- The invariants below hold right after reset, which is the machine after a power-on whose first samples are all OPEN,
with RATE low, and with no command waiting (the levels are the model's choice, log 13). -/
def Obligations.InvariantsAtReset : Prop :=
  exec (.powerOn (Vector.replicate 64 .opened) false) State.reset = .next State.reset ∧ State.reset.pending = []
    ∧ State.reset.Bounded ∧ State.reset.DetachedEmpty ∧ State.reset.RecordInOrder ∧ State.reset.QuietInConfig
    ∧ State.reset.HierarchySound ∧ State.reset.ScannerAgrees ∧ State.reset.QualityFormed ∧ State.reset.LostWhenNotOnline
    ∧ State.reset.ClockInRange ∧ State.reset.ClaimInConfig ∧ State.reset.PointsInStep ∧ State.reset.raisings = []

/-- Every step keeps the bounds of the queues (R71, R124, R183), the emptiness of a detached port (R74) and the range of the
time of day (R177), and no raising waits between two commands (log 11). -/
def Obligations.QueuesKept : Prop :=
  ∀ s t : State, step s = .next t →
    (s.raisings = [] → t.raisings = []) ∧ (s.Bounded → s.DetachedEmpty → t.Bounded ∧ t.DetachedEmpty)
      ∧ (s.ClockInRange → t.ClockInRange)

/-- Every step keeps the Event Record in order: at most 1024 records of consecutive numbers (R102). And while an archive
port is named, no step loses a record that comes after the confirmed number: the number moves over each one overwritten
(R105). -/
def Obligations.RecordKept : Prop :=
  ∀ s t : State, s.RecordInOrder → step s = .next t → t.RecordInOrder
    ∧ ((∀ r ∈ s.log.ring, r.seq ≤ 4294967295) → t.log.archive ≠ none →
        ∀ r ∈ s.log.ring, r ∉ t.log.ring → seqAfter t.log.confirmed r.seq = false)

/-- While the mode is CONFIG, RESET_N is high and no ENTER_CONFIG claim waits at the Point Engine, every point and every latch
is quiet and the change queue is empty (R13, R174); every step keeps this. Between the two stages of an ENTER_CONFIG, which
are commands of their own (log 7), the points are still as the mode left them. -/
def Obligations.QuietKept : Prop := ∀ s t : State, s.QuietInConfig → step s = .next t → t.QuietInConfig

/-- Every step keeps the records of the inputs in step with the scanner, the marks of quality and the units: a local input's
level is the scanner's qualified level (R116), the reported quality is the one that the marks give (R122), the inputs
of a unit that is not ONLINE are lost, and the exchange outstanding, unless void, is the one its unit's state chooses
(R139, R141, R145, R148). -/
def Obligations.FieldKept : Prop :=
  ∀ s t : State, s.ScannerAgrees → s.QualityFormed → s.LostWhenNotOnline → step s = .next t →
    t.ScannerAgrees ∧ t.QualityFormed ∧ t.LostWhenNotOnline

/-- Every parent chain keeps at most three links, every parent is a GROUP, and every valid map entry names a FIELD point
(R38, R130, R131). And every step keeps the points in step with what they are made of: in RUN the quality of every FIELD
point is the one its entries give, and its condition too where the quality is GOOD, and the condition and quality of
every GROUP point are the ones its children give (R8, R9, R31, R32, R34); in STARTING this holds of every point
evaluated. And that the mode is CONFIG while an ENTER_CONFIG claim waits at the Point Engine (R174), which this rests on. -/
def Obligations.HierarchyKept : Prop :=
  ∀ s t : State, s.HierarchySound → step s = .next t → t.HierarchySound
    ∧ (s.ClaimInConfig → t.ClaimInConfig ∧ (s.PointsInStep → t.PointsInStep))
end

