-- ==== Sys2Proof/Laws/State.lean ====
section
/-! SUPPORT. What each update of the state leaves unchanged, field by field, and what it reads back as: every lemma of
the first part is true by computation, so that no proof unfolds a record update. -/

namespace Sys2Proof.Machine

variable (s : State)

/-! ### setPt -/

@[simp] theorem State.setPt_inReset (p : PointNo) (r : PointRec) : (s.setPt p r).inReset = s.inReset := rfl
@[simp] theorem State.setPt_rate (p : PointNo) (r : PointRec) : (s.setPt p r).rate = s.rate := rfl
@[simp] theorem State.setPt_lines (p : PointNo) (r : PointRec) : (s.setPt p r).lines = s.lines := rfl
@[simp] theorem State.setPt_settings (p : PointNo) (r : PointRec) : (s.setPt p r).settings = s.settings := rfl
@[simp] theorem State.setPt_inputs (p : PointNo) (r : PointRec) : (s.setPt p r).inputs = s.inputs := rfl
@[simp] theorem State.setPt_pairTimers (p : PointNo) (r : PointRec) : (s.setPt p r).pairTimers = s.pairTimers := rfl
@[simp] theorem State.setPt_changeQueue (p : PointNo) (r : PointRec) : (s.setPt p r).changeQueue = s.changeQueue := rfl
@[simp] theorem State.setPt_map (p : PointNo) (r : PointRec) : (s.setPt p r).map = s.map := rfl
@[simp] theorem State.setPt_audibleRequest (p : PointNo) (r : PointRec) : (s.setPt p r).audibleRequest = s.audibleRequest := rfl
@[simp] theorem State.setPt_audibleThreshold (p : PointNo) (r : PointRec) : (s.setPt p r).audibleThreshold = s.audibleThreshold := rfl
@[simp] theorem State.setPt_dispatch (p : PointNo) (r : PointRec) : (s.setPt p r).dispatch = s.dispatch := rfl
@[simp] theorem State.setPt_log (p : PointNo) (r : PointRec) : (s.setPt p r).log = s.log := rfl
@[simp] theorem State.setPt_link (p : PointNo) (r : PointRec) : (s.setPt p r).link = s.link := rfl
@[simp] theorem State.setPt_flags (p : PointNo) (r : PointRec) : (s.setPt p r).flags = s.flags := rfl
@[simp] theorem State.setPt_routes (p : PointNo) (r : PointRec) : (s.setPt p r).routes = s.routes := rfl
@[simp] theorem State.setPt_commandCapture (p : PointNo) (r : PointRec) : (s.setPt p r).commandCapture = s.commandCapture := rfl
@[simp] theorem State.setPt_inputCapture (p : PointNo) (r : PointRec) : (s.setPt p r).inputCapture = s.inputCapture := rfl
@[simp] theorem State.setPt_raisings (p : PointNo) (r : PointRec) : (s.setPt p r).raisings = s.raisings := rfl
@[simp] theorem State.setPt_mode (p : PointNo) (r : PointRec) : (s.setPt p r).mode = s.mode := rfl
@[simp] theorem State.setPt_startAcked (p : PointNo) (r : PointRec) : (s.setPt p r).startAcked = s.startAcked := rfl
@[simp] theorem State.setPt_evalPos (p : PointNo) (r : PointRec) : (s.setPt p r).evalPos = s.evalPos := rfl
@[simp] theorem State.setPt_engineClaim (p : PointNo) (r : PointRec) : (s.setPt p r).engineClaim = s.engineClaim := rfl
@[simp] theorem State.setPt_day (p : PointNo) (r : PointRec) : (s.setPt p r).day = s.day := rfl
@[simp] theorem State.setPt_msOfDay (p : PointNo) (r : PointRec) : (s.setPt p r).msOfDay = s.msOfDay := rfl
@[simp] theorem State.setPt_timeQuality (p : PointNo) (r : PointRec) : (s.setPt p r).timeQuality = s.timeQuality := rfl
@[simp] theorem State.setPt_syncEnable (p : PointNo) (r : PointRec) : (s.setPt p r).syncEnable = s.syncEnable := rfl
@[simp] theorem State.setPt_watchdog (p : PointNo) (r : PointRec) : (s.setPt p r).watchdog = s.watchdog := rfl
@[simp] theorem State.setPt_elapsed (p : PointNo) (r : PointRec) : (s.setPt p r).elapsed = s.elapsed := rfl
@[simp] theorem State.setPt_stations (p : PointNo) (r : PointRec) : (s.setPt p r).stations = s.stations := rfl
@[simp] theorem State.setPt_freeCount (p : PointNo) (r : PointRec) : (s.setPt p r).freeCount = s.freeCount := rfl
@[simp] theorem State.setPt_pending (p : PointNo) (r : PointRec) : (s.setPt p r).pending = s.pending := rfl
@[simp] theorem State.setPt_ent (p : PointNo) (r : PointRec) (j : InputNo) : (s.setPt p r).ent j = s.ent j := rfl
@[simp] theorem State.setPt_inp (p : PointNo) (r : PointRec) (j : InputNo) : (s.setPt p r).inp j = s.inp j := rfl
@[simp] theorem State.setPt_pairTimer (p : PointNo) (r : PointRec) (j : PairNo) : (s.setPt p r).pairTimer j = s.pairTimer j := rfl
@[simp] theorem State.setPt_line (p : PointNo) (r : PointRec) (m : LineNo) : (s.setPt p r).line m = s.line m := rfl
@[simp] theorem State.setPt_dsp (p : PointNo) (r : PointRec) (q : Port) : (s.setPt p r).dsp q = s.dsp q := rfl
@[simp] theorem State.setPt_stn (p : PointNo) (r : PointRec) (q : Port) : (s.setPt p r).stn q = s.stn q := rfl
@[simp] theorem State.setPt_unit (p : PointNo) (r : PointRec) (v : UnitNo) : (s.setPt p r).unit v = s.unit v := rfl
@[simp] theorem State.setPt_route (p : PointNo) (r : PointRec) (g : Flag) : (s.setPt p r).route g = s.route g := rfl
@[simp] theorem State.setPt_now (p : PointNo) (r : PointRec) : (s.setPt p r).now = s.now := rfl
@[simp] theorem State.setPt_flagSet (p : PointNo) (r : PointRec) (g : Flag) : (s.setPt p r).flagSet g = s.flagSet g := rfl
@[simp] theorem State.setPt_paired (p : PointNo) (r : PointRec) (j : PairNo) : (s.setPt p r).paired j = s.paired j := rfl

/-! ### setEnt -/

@[simp] theorem State.setEnt_inReset (i : InputNo) (e : MapEntry) : (s.setEnt i e).inReset = s.inReset := rfl
@[simp] theorem State.setEnt_rate (i : InputNo) (e : MapEntry) : (s.setEnt i e).rate = s.rate := rfl
@[simp] theorem State.setEnt_lines (i : InputNo) (e : MapEntry) : (s.setEnt i e).lines = s.lines := rfl
@[simp] theorem State.setEnt_settings (i : InputNo) (e : MapEntry) : (s.setEnt i e).settings = s.settings := rfl
@[simp] theorem State.setEnt_inputs (i : InputNo) (e : MapEntry) : (s.setEnt i e).inputs = s.inputs := rfl
@[simp] theorem State.setEnt_pairTimers (i : InputNo) (e : MapEntry) : (s.setEnt i e).pairTimers = s.pairTimers := rfl
@[simp] theorem State.setEnt_changeQueue (i : InputNo) (e : MapEntry) : (s.setEnt i e).changeQueue = s.changeQueue := rfl
@[simp] theorem State.setEnt_points (i : InputNo) (e : MapEntry) : (s.setEnt i e).points = s.points := rfl
@[simp] theorem State.setEnt_audibleRequest (i : InputNo) (e : MapEntry) : (s.setEnt i e).audibleRequest = s.audibleRequest := rfl
@[simp] theorem State.setEnt_audibleThreshold (i : InputNo) (e : MapEntry) : (s.setEnt i e).audibleThreshold = s.audibleThreshold := rfl
@[simp] theorem State.setEnt_dispatch (i : InputNo) (e : MapEntry) : (s.setEnt i e).dispatch = s.dispatch := rfl
@[simp] theorem State.setEnt_log (i : InputNo) (e : MapEntry) : (s.setEnt i e).log = s.log := rfl
@[simp] theorem State.setEnt_link (i : InputNo) (e : MapEntry) : (s.setEnt i e).link = s.link := rfl
@[simp] theorem State.setEnt_flags (i : InputNo) (e : MapEntry) : (s.setEnt i e).flags = s.flags := rfl
@[simp] theorem State.setEnt_routes (i : InputNo) (e : MapEntry) : (s.setEnt i e).routes = s.routes := rfl
@[simp] theorem State.setEnt_commandCapture (i : InputNo) (e : MapEntry) : (s.setEnt i e).commandCapture = s.commandCapture := rfl
@[simp] theorem State.setEnt_inputCapture (i : InputNo) (e : MapEntry) : (s.setEnt i e).inputCapture = s.inputCapture := rfl
@[simp] theorem State.setEnt_raisings (i : InputNo) (e : MapEntry) : (s.setEnt i e).raisings = s.raisings := rfl
@[simp] theorem State.setEnt_mode (i : InputNo) (e : MapEntry) : (s.setEnt i e).mode = s.mode := rfl
@[simp] theorem State.setEnt_startAcked (i : InputNo) (e : MapEntry) : (s.setEnt i e).startAcked = s.startAcked := rfl
@[simp] theorem State.setEnt_evalPos (i : InputNo) (e : MapEntry) : (s.setEnt i e).evalPos = s.evalPos := rfl
@[simp] theorem State.setEnt_engineClaim (i : InputNo) (e : MapEntry) : (s.setEnt i e).engineClaim = s.engineClaim := rfl
@[simp] theorem State.setEnt_day (i : InputNo) (e : MapEntry) : (s.setEnt i e).day = s.day := rfl
@[simp] theorem State.setEnt_msOfDay (i : InputNo) (e : MapEntry) : (s.setEnt i e).msOfDay = s.msOfDay := rfl
@[simp] theorem State.setEnt_timeQuality (i : InputNo) (e : MapEntry) : (s.setEnt i e).timeQuality = s.timeQuality := rfl
@[simp] theorem State.setEnt_syncEnable (i : InputNo) (e : MapEntry) : (s.setEnt i e).syncEnable = s.syncEnable := rfl
@[simp] theorem State.setEnt_watchdog (i : InputNo) (e : MapEntry) : (s.setEnt i e).watchdog = s.watchdog := rfl
@[simp] theorem State.setEnt_elapsed (i : InputNo) (e : MapEntry) : (s.setEnt i e).elapsed = s.elapsed := rfl
@[simp] theorem State.setEnt_stations (i : InputNo) (e : MapEntry) : (s.setEnt i e).stations = s.stations := rfl
@[simp] theorem State.setEnt_freeCount (i : InputNo) (e : MapEntry) : (s.setEnt i e).freeCount = s.freeCount := rfl
@[simp] theorem State.setEnt_pending (i : InputNo) (e : MapEntry) : (s.setEnt i e).pending = s.pending := rfl
@[simp] theorem State.setEnt_pt (i : InputNo) (e : MapEntry) (q : PointNo) : (s.setEnt i e).pt q = s.pt q := rfl
@[simp] theorem State.setEnt_inp (i : InputNo) (e : MapEntry) (j : InputNo) : (s.setEnt i e).inp j = s.inp j := rfl
@[simp] theorem State.setEnt_pairTimer (i : InputNo) (e : MapEntry) (j : PairNo) : (s.setEnt i e).pairTimer j = s.pairTimer j := rfl
@[simp] theorem State.setEnt_line (i : InputNo) (e : MapEntry) (m : LineNo) : (s.setEnt i e).line m = s.line m := rfl
@[simp] theorem State.setEnt_dsp (i : InputNo) (e : MapEntry) (q : Port) : (s.setEnt i e).dsp q = s.dsp q := rfl
@[simp] theorem State.setEnt_stn (i : InputNo) (e : MapEntry) (q : Port) : (s.setEnt i e).stn q = s.stn q := rfl
@[simp] theorem State.setEnt_unit (i : InputNo) (e : MapEntry) (v : UnitNo) : (s.setEnt i e).unit v = s.unit v := rfl
@[simp] theorem State.setEnt_route (i : InputNo) (e : MapEntry) (g : Flag) : (s.setEnt i e).route g = s.route g := rfl
@[simp] theorem State.setEnt_now (i : InputNo) (e : MapEntry) : (s.setEnt i e).now = s.now := rfl
@[simp] theorem State.setEnt_flagSet (i : InputNo) (e : MapEntry) (g : Flag) : (s.setEnt i e).flagSet g = s.flagSet g := rfl
@[simp] theorem State.setEnt_paired (i : InputNo) (e : MapEntry) (j : PairNo) : (s.setEnt i e).paired j = s.paired j := rfl

/-! ### setInp -/

@[simp] theorem State.setInp_inReset (i : InputNo) (r : InputRec) : (s.setInp i r).inReset = s.inReset := rfl
@[simp] theorem State.setInp_rate (i : InputNo) (r : InputRec) : (s.setInp i r).rate = s.rate := rfl
@[simp] theorem State.setInp_lines (i : InputNo) (r : InputRec) : (s.setInp i r).lines = s.lines := rfl
@[simp] theorem State.setInp_settings (i : InputNo) (r : InputRec) : (s.setInp i r).settings = s.settings := rfl
@[simp] theorem State.setInp_pairTimers (i : InputNo) (r : InputRec) : (s.setInp i r).pairTimers = s.pairTimers := rfl
@[simp] theorem State.setInp_changeQueue (i : InputNo) (r : InputRec) : (s.setInp i r).changeQueue = s.changeQueue := rfl
@[simp] theorem State.setInp_points (i : InputNo) (r : InputRec) : (s.setInp i r).points = s.points := rfl
@[simp] theorem State.setInp_map (i : InputNo) (r : InputRec) : (s.setInp i r).map = s.map := rfl
@[simp] theorem State.setInp_audibleRequest (i : InputNo) (r : InputRec) : (s.setInp i r).audibleRequest = s.audibleRequest := rfl
@[simp] theorem State.setInp_audibleThreshold (i : InputNo) (r : InputRec) : (s.setInp i r).audibleThreshold = s.audibleThreshold := rfl
@[simp] theorem State.setInp_dispatch (i : InputNo) (r : InputRec) : (s.setInp i r).dispatch = s.dispatch := rfl
@[simp] theorem State.setInp_log (i : InputNo) (r : InputRec) : (s.setInp i r).log = s.log := rfl
@[simp] theorem State.setInp_link (i : InputNo) (r : InputRec) : (s.setInp i r).link = s.link := rfl
@[simp] theorem State.setInp_flags (i : InputNo) (r : InputRec) : (s.setInp i r).flags = s.flags := rfl
@[simp] theorem State.setInp_routes (i : InputNo) (r : InputRec) : (s.setInp i r).routes = s.routes := rfl
@[simp] theorem State.setInp_commandCapture (i : InputNo) (r : InputRec) : (s.setInp i r).commandCapture = s.commandCapture := rfl
@[simp] theorem State.setInp_inputCapture (i : InputNo) (r : InputRec) : (s.setInp i r).inputCapture = s.inputCapture := rfl
@[simp] theorem State.setInp_raisings (i : InputNo) (r : InputRec) : (s.setInp i r).raisings = s.raisings := rfl
@[simp] theorem State.setInp_mode (i : InputNo) (r : InputRec) : (s.setInp i r).mode = s.mode := rfl
@[simp] theorem State.setInp_startAcked (i : InputNo) (r : InputRec) : (s.setInp i r).startAcked = s.startAcked := rfl
@[simp] theorem State.setInp_evalPos (i : InputNo) (r : InputRec) : (s.setInp i r).evalPos = s.evalPos := rfl
@[simp] theorem State.setInp_engineClaim (i : InputNo) (r : InputRec) : (s.setInp i r).engineClaim = s.engineClaim := rfl
@[simp] theorem State.setInp_day (i : InputNo) (r : InputRec) : (s.setInp i r).day = s.day := rfl
@[simp] theorem State.setInp_msOfDay (i : InputNo) (r : InputRec) : (s.setInp i r).msOfDay = s.msOfDay := rfl
@[simp] theorem State.setInp_timeQuality (i : InputNo) (r : InputRec) : (s.setInp i r).timeQuality = s.timeQuality := rfl
@[simp] theorem State.setInp_syncEnable (i : InputNo) (r : InputRec) : (s.setInp i r).syncEnable = s.syncEnable := rfl
@[simp] theorem State.setInp_watchdog (i : InputNo) (r : InputRec) : (s.setInp i r).watchdog = s.watchdog := rfl
@[simp] theorem State.setInp_elapsed (i : InputNo) (r : InputRec) : (s.setInp i r).elapsed = s.elapsed := rfl
@[simp] theorem State.setInp_stations (i : InputNo) (r : InputRec) : (s.setInp i r).stations = s.stations := rfl
@[simp] theorem State.setInp_freeCount (i : InputNo) (r : InputRec) : (s.setInp i r).freeCount = s.freeCount := rfl
@[simp] theorem State.setInp_pending (i : InputNo) (r : InputRec) : (s.setInp i r).pending = s.pending := rfl
@[simp] theorem State.setInp_pt (i : InputNo) (r : InputRec) (q : PointNo) : (s.setInp i r).pt q = s.pt q := rfl
@[simp] theorem State.setInp_ent (i : InputNo) (r : InputRec) (j : InputNo) : (s.setInp i r).ent j = s.ent j := rfl
@[simp] theorem State.setInp_pairTimer (i : InputNo) (r : InputRec) (j : PairNo) : (s.setInp i r).pairTimer j = s.pairTimer j := rfl
@[simp] theorem State.setInp_line (i : InputNo) (r : InputRec) (m : LineNo) : (s.setInp i r).line m = s.line m := rfl
@[simp] theorem State.setInp_dsp (i : InputNo) (r : InputRec) (q : Port) : (s.setInp i r).dsp q = s.dsp q := rfl
@[simp] theorem State.setInp_stn (i : InputNo) (r : InputRec) (q : Port) : (s.setInp i r).stn q = s.stn q := rfl
@[simp] theorem State.setInp_unit (i : InputNo) (r : InputRec) (v : UnitNo) : (s.setInp i r).unit v = s.unit v := rfl
@[simp] theorem State.setInp_route (i : InputNo) (r : InputRec) (g : Flag) : (s.setInp i r).route g = s.route g := rfl
@[simp] theorem State.setInp_now (i : InputNo) (r : InputRec) : (s.setInp i r).now = s.now := rfl
@[simp] theorem State.setInp_flagSet (i : InputNo) (r : InputRec) (g : Flag) : (s.setInp i r).flagSet g = s.flagSet g := rfl
@[simp] theorem State.setInp_paired (i : InputNo) (r : InputRec) (j : PairNo) : (s.setInp i r).paired j = s.paired j := rfl

/-! ### setPairTimer -/

@[simp] theorem State.setPairTimer_inReset (k : PairNo) (t : Option Nat) : (s.setPairTimer k t).inReset = s.inReset := rfl
@[simp] theorem State.setPairTimer_rate (k : PairNo) (t : Option Nat) : (s.setPairTimer k t).rate = s.rate := rfl
@[simp] theorem State.setPairTimer_lines (k : PairNo) (t : Option Nat) : (s.setPairTimer k t).lines = s.lines := rfl
@[simp] theorem State.setPairTimer_settings (k : PairNo) (t : Option Nat) : (s.setPairTimer k t).settings = s.settings := rfl
@[simp] theorem State.setPairTimer_inputs (k : PairNo) (t : Option Nat) : (s.setPairTimer k t).inputs = s.inputs := rfl
@[simp] theorem State.setPairTimer_changeQueue (k : PairNo) (t : Option Nat) : (s.setPairTimer k t).changeQueue = s.changeQueue := rfl
@[simp] theorem State.setPairTimer_points (k : PairNo) (t : Option Nat) : (s.setPairTimer k t).points = s.points := rfl
@[simp] theorem State.setPairTimer_map (k : PairNo) (t : Option Nat) : (s.setPairTimer k t).map = s.map := rfl
@[simp] theorem State.setPairTimer_audibleRequest (k : PairNo) (t : Option Nat) : (s.setPairTimer k t).audibleRequest = s.audibleRequest := rfl
@[simp] theorem State.setPairTimer_audibleThreshold (k : PairNo) (t : Option Nat) : (s.setPairTimer k t).audibleThreshold = s.audibleThreshold := rfl
@[simp] theorem State.setPairTimer_dispatch (k : PairNo) (t : Option Nat) : (s.setPairTimer k t).dispatch = s.dispatch := rfl
@[simp] theorem State.setPairTimer_log (k : PairNo) (t : Option Nat) : (s.setPairTimer k t).log = s.log := rfl
@[simp] theorem State.setPairTimer_link (k : PairNo) (t : Option Nat) : (s.setPairTimer k t).link = s.link := rfl
@[simp] theorem State.setPairTimer_flags (k : PairNo) (t : Option Nat) : (s.setPairTimer k t).flags = s.flags := rfl
@[simp] theorem State.setPairTimer_routes (k : PairNo) (t : Option Nat) : (s.setPairTimer k t).routes = s.routes := rfl
@[simp] theorem State.setPairTimer_commandCapture (k : PairNo) (t : Option Nat) : (s.setPairTimer k t).commandCapture = s.commandCapture := rfl
@[simp] theorem State.setPairTimer_inputCapture (k : PairNo) (t : Option Nat) : (s.setPairTimer k t).inputCapture = s.inputCapture := rfl
@[simp] theorem State.setPairTimer_raisings (k : PairNo) (t : Option Nat) : (s.setPairTimer k t).raisings = s.raisings := rfl
@[simp] theorem State.setPairTimer_mode (k : PairNo) (t : Option Nat) : (s.setPairTimer k t).mode = s.mode := rfl
@[simp] theorem State.setPairTimer_startAcked (k : PairNo) (t : Option Nat) : (s.setPairTimer k t).startAcked = s.startAcked := rfl
@[simp] theorem State.setPairTimer_evalPos (k : PairNo) (t : Option Nat) : (s.setPairTimer k t).evalPos = s.evalPos := rfl
@[simp] theorem State.setPairTimer_engineClaim (k : PairNo) (t : Option Nat) : (s.setPairTimer k t).engineClaim = s.engineClaim := rfl
@[simp] theorem State.setPairTimer_day (k : PairNo) (t : Option Nat) : (s.setPairTimer k t).day = s.day := rfl
@[simp] theorem State.setPairTimer_msOfDay (k : PairNo) (t : Option Nat) : (s.setPairTimer k t).msOfDay = s.msOfDay := rfl
@[simp] theorem State.setPairTimer_timeQuality (k : PairNo) (t : Option Nat) : (s.setPairTimer k t).timeQuality = s.timeQuality := rfl
@[simp] theorem State.setPairTimer_syncEnable (k : PairNo) (t : Option Nat) : (s.setPairTimer k t).syncEnable = s.syncEnable := rfl
@[simp] theorem State.setPairTimer_watchdog (k : PairNo) (t : Option Nat) : (s.setPairTimer k t).watchdog = s.watchdog := rfl
@[simp] theorem State.setPairTimer_elapsed (k : PairNo) (t : Option Nat) : (s.setPairTimer k t).elapsed = s.elapsed := rfl
@[simp] theorem State.setPairTimer_stations (k : PairNo) (t : Option Nat) : (s.setPairTimer k t).stations = s.stations := rfl
@[simp] theorem State.setPairTimer_freeCount (k : PairNo) (t : Option Nat) : (s.setPairTimer k t).freeCount = s.freeCount := rfl
@[simp] theorem State.setPairTimer_pending (k : PairNo) (t : Option Nat) : (s.setPairTimer k t).pending = s.pending := rfl
@[simp] theorem State.setPairTimer_pt (k : PairNo) (t : Option Nat) (q : PointNo) : (s.setPairTimer k t).pt q = s.pt q := rfl
@[simp] theorem State.setPairTimer_ent (k : PairNo) (t : Option Nat) (j : InputNo) : (s.setPairTimer k t).ent j = s.ent j := rfl
@[simp] theorem State.setPairTimer_inp (k : PairNo) (t : Option Nat) (j : InputNo) : (s.setPairTimer k t).inp j = s.inp j := rfl
@[simp] theorem State.setPairTimer_line (k : PairNo) (t : Option Nat) (m : LineNo) : (s.setPairTimer k t).line m = s.line m := rfl
@[simp] theorem State.setPairTimer_dsp (k : PairNo) (t : Option Nat) (q : Port) : (s.setPairTimer k t).dsp q = s.dsp q := rfl
@[simp] theorem State.setPairTimer_stn (k : PairNo) (t : Option Nat) (q : Port) : (s.setPairTimer k t).stn q = s.stn q := rfl
@[simp] theorem State.setPairTimer_unit (k : PairNo) (t : Option Nat) (v : UnitNo) : (s.setPairTimer k t).unit v = s.unit v := rfl
@[simp] theorem State.setPairTimer_route (k : PairNo) (t : Option Nat) (g : Flag) : (s.setPairTimer k t).route g = s.route g := rfl
@[simp] theorem State.setPairTimer_now (k : PairNo) (t : Option Nat) : (s.setPairTimer k t).now = s.now := rfl
@[simp] theorem State.setPairTimer_flagSet (k : PairNo) (t : Option Nat) (g : Flag) : (s.setPairTimer k t).flagSet g = s.flagSet g := rfl
@[simp] theorem State.setPairTimer_paired (k : PairNo) (t : Option Nat) (j : PairNo) : (s.setPairTimer k t).paired j = s.paired j := rfl

/-! ### setLine -/

@[simp] theorem State.setLine_inReset (l : LineNo) (r : LineRec) : (s.setLine l r).inReset = s.inReset := rfl
@[simp] theorem State.setLine_rate (l : LineNo) (r : LineRec) : (s.setLine l r).rate = s.rate := rfl
@[simp] theorem State.setLine_settings (l : LineNo) (r : LineRec) : (s.setLine l r).settings = s.settings := rfl
@[simp] theorem State.setLine_inputs (l : LineNo) (r : LineRec) : (s.setLine l r).inputs = s.inputs := rfl
@[simp] theorem State.setLine_pairTimers (l : LineNo) (r : LineRec) : (s.setLine l r).pairTimers = s.pairTimers := rfl
@[simp] theorem State.setLine_changeQueue (l : LineNo) (r : LineRec) : (s.setLine l r).changeQueue = s.changeQueue := rfl
@[simp] theorem State.setLine_points (l : LineNo) (r : LineRec) : (s.setLine l r).points = s.points := rfl
@[simp] theorem State.setLine_map (l : LineNo) (r : LineRec) : (s.setLine l r).map = s.map := rfl
@[simp] theorem State.setLine_audibleRequest (l : LineNo) (r : LineRec) : (s.setLine l r).audibleRequest = s.audibleRequest := rfl
@[simp] theorem State.setLine_audibleThreshold (l : LineNo) (r : LineRec) : (s.setLine l r).audibleThreshold = s.audibleThreshold := rfl
@[simp] theorem State.setLine_dispatch (l : LineNo) (r : LineRec) : (s.setLine l r).dispatch = s.dispatch := rfl
@[simp] theorem State.setLine_log (l : LineNo) (r : LineRec) : (s.setLine l r).log = s.log := rfl
@[simp] theorem State.setLine_link (l : LineNo) (r : LineRec) : (s.setLine l r).link = s.link := rfl
@[simp] theorem State.setLine_flags (l : LineNo) (r : LineRec) : (s.setLine l r).flags = s.flags := rfl
@[simp] theorem State.setLine_routes (l : LineNo) (r : LineRec) : (s.setLine l r).routes = s.routes := rfl
@[simp] theorem State.setLine_commandCapture (l : LineNo) (r : LineRec) : (s.setLine l r).commandCapture = s.commandCapture := rfl
@[simp] theorem State.setLine_inputCapture (l : LineNo) (r : LineRec) : (s.setLine l r).inputCapture = s.inputCapture := rfl
@[simp] theorem State.setLine_raisings (l : LineNo) (r : LineRec) : (s.setLine l r).raisings = s.raisings := rfl
@[simp] theorem State.setLine_mode (l : LineNo) (r : LineRec) : (s.setLine l r).mode = s.mode := rfl
@[simp] theorem State.setLine_startAcked (l : LineNo) (r : LineRec) : (s.setLine l r).startAcked = s.startAcked := rfl
@[simp] theorem State.setLine_evalPos (l : LineNo) (r : LineRec) : (s.setLine l r).evalPos = s.evalPos := rfl
@[simp] theorem State.setLine_engineClaim (l : LineNo) (r : LineRec) : (s.setLine l r).engineClaim = s.engineClaim := rfl
@[simp] theorem State.setLine_day (l : LineNo) (r : LineRec) : (s.setLine l r).day = s.day := rfl
@[simp] theorem State.setLine_msOfDay (l : LineNo) (r : LineRec) : (s.setLine l r).msOfDay = s.msOfDay := rfl
@[simp] theorem State.setLine_timeQuality (l : LineNo) (r : LineRec) : (s.setLine l r).timeQuality = s.timeQuality := rfl
@[simp] theorem State.setLine_syncEnable (l : LineNo) (r : LineRec) : (s.setLine l r).syncEnable = s.syncEnable := rfl
@[simp] theorem State.setLine_watchdog (l : LineNo) (r : LineRec) : (s.setLine l r).watchdog = s.watchdog := rfl
@[simp] theorem State.setLine_elapsed (l : LineNo) (r : LineRec) : (s.setLine l r).elapsed = s.elapsed := rfl
@[simp] theorem State.setLine_stations (l : LineNo) (r : LineRec) : (s.setLine l r).stations = s.stations := rfl
@[simp] theorem State.setLine_freeCount (l : LineNo) (r : LineRec) : (s.setLine l r).freeCount = s.freeCount := rfl
@[simp] theorem State.setLine_pending (l : LineNo) (r : LineRec) : (s.setLine l r).pending = s.pending := rfl
@[simp] theorem State.setLine_pt (l : LineNo) (r : LineRec) (q : PointNo) : (s.setLine l r).pt q = s.pt q := rfl
@[simp] theorem State.setLine_ent (l : LineNo) (r : LineRec) (j : InputNo) : (s.setLine l r).ent j = s.ent j := rfl
@[simp] theorem State.setLine_inp (l : LineNo) (r : LineRec) (j : InputNo) : (s.setLine l r).inp j = s.inp j := rfl
@[simp] theorem State.setLine_pairTimer (l : LineNo) (r : LineRec) (j : PairNo) : (s.setLine l r).pairTimer j = s.pairTimer j := rfl
@[simp] theorem State.setLine_dsp (l : LineNo) (r : LineRec) (q : Port) : (s.setLine l r).dsp q = s.dsp q := rfl
@[simp] theorem State.setLine_stn (l : LineNo) (r : LineRec) (q : Port) : (s.setLine l r).stn q = s.stn q := rfl
@[simp] theorem State.setLine_unit (l : LineNo) (r : LineRec) (v : UnitNo) : (s.setLine l r).unit v = s.unit v := rfl
@[simp] theorem State.setLine_route (l : LineNo) (r : LineRec) (g : Flag) : (s.setLine l r).route g = s.route g := rfl
@[simp] theorem State.setLine_now (l : LineNo) (r : LineRec) : (s.setLine l r).now = s.now := rfl
@[simp] theorem State.setLine_flagSet (l : LineNo) (r : LineRec) (g : Flag) : (s.setLine l r).flagSet g = s.flagSet g := rfl
@[simp] theorem State.setLine_paired (l : LineNo) (r : LineRec) (j : PairNo) : (s.setLine l r).paired j = s.paired j := rfl

/-! ### setDsp -/

@[simp] theorem State.setDsp_inReset (p : Port) (d : Dispatch) : (s.setDsp p d).inReset = s.inReset := rfl
@[simp] theorem State.setDsp_rate (p : Port) (d : Dispatch) : (s.setDsp p d).rate = s.rate := rfl
@[simp] theorem State.setDsp_lines (p : Port) (d : Dispatch) : (s.setDsp p d).lines = s.lines := rfl
@[simp] theorem State.setDsp_settings (p : Port) (d : Dispatch) : (s.setDsp p d).settings = s.settings := rfl
@[simp] theorem State.setDsp_inputs (p : Port) (d : Dispatch) : (s.setDsp p d).inputs = s.inputs := rfl
@[simp] theorem State.setDsp_pairTimers (p : Port) (d : Dispatch) : (s.setDsp p d).pairTimers = s.pairTimers := rfl
@[simp] theorem State.setDsp_changeQueue (p : Port) (d : Dispatch) : (s.setDsp p d).changeQueue = s.changeQueue := rfl
@[simp] theorem State.setDsp_points (p : Port) (d : Dispatch) : (s.setDsp p d).points = s.points := rfl
@[simp] theorem State.setDsp_map (p : Port) (d : Dispatch) : (s.setDsp p d).map = s.map := rfl
@[simp] theorem State.setDsp_audibleRequest (p : Port) (d : Dispatch) : (s.setDsp p d).audibleRequest = s.audibleRequest := rfl
@[simp] theorem State.setDsp_audibleThreshold (p : Port) (d : Dispatch) : (s.setDsp p d).audibleThreshold = s.audibleThreshold := rfl
@[simp] theorem State.setDsp_log (p : Port) (d : Dispatch) : (s.setDsp p d).log = s.log := rfl
@[simp] theorem State.setDsp_link (p : Port) (d : Dispatch) : (s.setDsp p d).link = s.link := rfl
@[simp] theorem State.setDsp_flags (p : Port) (d : Dispatch) : (s.setDsp p d).flags = s.flags := rfl
@[simp] theorem State.setDsp_routes (p : Port) (d : Dispatch) : (s.setDsp p d).routes = s.routes := rfl
@[simp] theorem State.setDsp_commandCapture (p : Port) (d : Dispatch) : (s.setDsp p d).commandCapture = s.commandCapture := rfl
@[simp] theorem State.setDsp_inputCapture (p : Port) (d : Dispatch) : (s.setDsp p d).inputCapture = s.inputCapture := rfl
@[simp] theorem State.setDsp_raisings (p : Port) (d : Dispatch) : (s.setDsp p d).raisings = s.raisings := rfl
@[simp] theorem State.setDsp_mode (p : Port) (d : Dispatch) : (s.setDsp p d).mode = s.mode := rfl
@[simp] theorem State.setDsp_startAcked (p : Port) (d : Dispatch) : (s.setDsp p d).startAcked = s.startAcked := rfl
@[simp] theorem State.setDsp_evalPos (p : Port) (d : Dispatch) : (s.setDsp p d).evalPos = s.evalPos := rfl
@[simp] theorem State.setDsp_engineClaim (p : Port) (d : Dispatch) : (s.setDsp p d).engineClaim = s.engineClaim := rfl
@[simp] theorem State.setDsp_day (p : Port) (d : Dispatch) : (s.setDsp p d).day = s.day := rfl
@[simp] theorem State.setDsp_msOfDay (p : Port) (d : Dispatch) : (s.setDsp p d).msOfDay = s.msOfDay := rfl
@[simp] theorem State.setDsp_timeQuality (p : Port) (d : Dispatch) : (s.setDsp p d).timeQuality = s.timeQuality := rfl
@[simp] theorem State.setDsp_syncEnable (p : Port) (d : Dispatch) : (s.setDsp p d).syncEnable = s.syncEnable := rfl
@[simp] theorem State.setDsp_watchdog (p : Port) (d : Dispatch) : (s.setDsp p d).watchdog = s.watchdog := rfl
@[simp] theorem State.setDsp_elapsed (p : Port) (d : Dispatch) : (s.setDsp p d).elapsed = s.elapsed := rfl
@[simp] theorem State.setDsp_stations (p : Port) (d : Dispatch) : (s.setDsp p d).stations = s.stations := rfl
@[simp] theorem State.setDsp_freeCount (p : Port) (d : Dispatch) : (s.setDsp p d).freeCount = s.freeCount := rfl
@[simp] theorem State.setDsp_pending (p : Port) (d : Dispatch) : (s.setDsp p d).pending = s.pending := rfl
@[simp] theorem State.setDsp_pt (p : Port) (d : Dispatch) (q : PointNo) : (s.setDsp p d).pt q = s.pt q := rfl
@[simp] theorem State.setDsp_ent (p : Port) (d : Dispatch) (j : InputNo) : (s.setDsp p d).ent j = s.ent j := rfl
@[simp] theorem State.setDsp_inp (p : Port) (d : Dispatch) (j : InputNo) : (s.setDsp p d).inp j = s.inp j := rfl
@[simp] theorem State.setDsp_pairTimer (p : Port) (d : Dispatch) (j : PairNo) : (s.setDsp p d).pairTimer j = s.pairTimer j := rfl
@[simp] theorem State.setDsp_line (p : Port) (d : Dispatch) (m : LineNo) : (s.setDsp p d).line m = s.line m := rfl
@[simp] theorem State.setDsp_stn (p : Port) (d : Dispatch) (q : Port) : (s.setDsp p d).stn q = s.stn q := rfl
@[simp] theorem State.setDsp_unit (p : Port) (d : Dispatch) (v : UnitNo) : (s.setDsp p d).unit v = s.unit v := rfl
@[simp] theorem State.setDsp_route (p : Port) (d : Dispatch) (g : Flag) : (s.setDsp p d).route g = s.route g := rfl
@[simp] theorem State.setDsp_now (p : Port) (d : Dispatch) : (s.setDsp p d).now = s.now := rfl
@[simp] theorem State.setDsp_flagSet (p : Port) (d : Dispatch) (g : Flag) : (s.setDsp p d).flagSet g = s.flagSet g := rfl
@[simp] theorem State.setDsp_paired (p : Port) (d : Dispatch) (j : PairNo) : (s.setDsp p d).paired j = s.paired j := rfl

/-! ### setStn -/

@[simp] theorem State.setStn_inReset (p : Port) (t : Station) : (s.setStn p t).inReset = s.inReset := rfl
@[simp] theorem State.setStn_rate (p : Port) (t : Station) : (s.setStn p t).rate = s.rate := rfl
@[simp] theorem State.setStn_lines (p : Port) (t : Station) : (s.setStn p t).lines = s.lines := rfl
@[simp] theorem State.setStn_settings (p : Port) (t : Station) : (s.setStn p t).settings = s.settings := rfl
@[simp] theorem State.setStn_inputs (p : Port) (t : Station) : (s.setStn p t).inputs = s.inputs := rfl
@[simp] theorem State.setStn_pairTimers (p : Port) (t : Station) : (s.setStn p t).pairTimers = s.pairTimers := rfl
@[simp] theorem State.setStn_changeQueue (p : Port) (t : Station) : (s.setStn p t).changeQueue = s.changeQueue := rfl
@[simp] theorem State.setStn_points (p : Port) (t : Station) : (s.setStn p t).points = s.points := rfl
@[simp] theorem State.setStn_map (p : Port) (t : Station) : (s.setStn p t).map = s.map := rfl
@[simp] theorem State.setStn_audibleRequest (p : Port) (t : Station) : (s.setStn p t).audibleRequest = s.audibleRequest := rfl
@[simp] theorem State.setStn_audibleThreshold (p : Port) (t : Station) : (s.setStn p t).audibleThreshold = s.audibleThreshold := rfl
@[simp] theorem State.setStn_dispatch (p : Port) (t : Station) : (s.setStn p t).dispatch = s.dispatch := rfl
@[simp] theorem State.setStn_log (p : Port) (t : Station) : (s.setStn p t).log = s.log := rfl
@[simp] theorem State.setStn_link (p : Port) (t : Station) : (s.setStn p t).link = s.link := rfl
@[simp] theorem State.setStn_flags (p : Port) (t : Station) : (s.setStn p t).flags = s.flags := rfl
@[simp] theorem State.setStn_routes (p : Port) (t : Station) : (s.setStn p t).routes = s.routes := rfl
@[simp] theorem State.setStn_commandCapture (p : Port) (t : Station) : (s.setStn p t).commandCapture = s.commandCapture := rfl
@[simp] theorem State.setStn_inputCapture (p : Port) (t : Station) : (s.setStn p t).inputCapture = s.inputCapture := rfl
@[simp] theorem State.setStn_raisings (p : Port) (t : Station) : (s.setStn p t).raisings = s.raisings := rfl
@[simp] theorem State.setStn_mode (p : Port) (t : Station) : (s.setStn p t).mode = s.mode := rfl
@[simp] theorem State.setStn_startAcked (p : Port) (t : Station) : (s.setStn p t).startAcked = s.startAcked := rfl
@[simp] theorem State.setStn_evalPos (p : Port) (t : Station) : (s.setStn p t).evalPos = s.evalPos := rfl
@[simp] theorem State.setStn_engineClaim (p : Port) (t : Station) : (s.setStn p t).engineClaim = s.engineClaim := rfl
@[simp] theorem State.setStn_day (p : Port) (t : Station) : (s.setStn p t).day = s.day := rfl
@[simp] theorem State.setStn_msOfDay (p : Port) (t : Station) : (s.setStn p t).msOfDay = s.msOfDay := rfl
@[simp] theorem State.setStn_timeQuality (p : Port) (t : Station) : (s.setStn p t).timeQuality = s.timeQuality := rfl
@[simp] theorem State.setStn_syncEnable (p : Port) (t : Station) : (s.setStn p t).syncEnable = s.syncEnable := rfl
@[simp] theorem State.setStn_watchdog (p : Port) (t : Station) : (s.setStn p t).watchdog = s.watchdog := rfl
@[simp] theorem State.setStn_elapsed (p : Port) (t : Station) : (s.setStn p t).elapsed = s.elapsed := rfl
@[simp] theorem State.setStn_freeCount (p : Port) (t : Station) : (s.setStn p t).freeCount = s.freeCount := rfl
@[simp] theorem State.setStn_pending (p : Port) (t : Station) : (s.setStn p t).pending = s.pending := rfl
@[simp] theorem State.setStn_pt (p : Port) (t : Station) (q : PointNo) : (s.setStn p t).pt q = s.pt q := rfl
@[simp] theorem State.setStn_ent (p : Port) (t : Station) (j : InputNo) : (s.setStn p t).ent j = s.ent j := rfl
@[simp] theorem State.setStn_inp (p : Port) (t : Station) (j : InputNo) : (s.setStn p t).inp j = s.inp j := rfl
@[simp] theorem State.setStn_pairTimer (p : Port) (t : Station) (j : PairNo) : (s.setStn p t).pairTimer j = s.pairTimer j := rfl
@[simp] theorem State.setStn_line (p : Port) (t : Station) (m : LineNo) : (s.setStn p t).line m = s.line m := rfl
@[simp] theorem State.setStn_dsp (p : Port) (t : Station) (q : Port) : (s.setStn p t).dsp q = s.dsp q := rfl
@[simp] theorem State.setStn_unit (p : Port) (t : Station) (v : UnitNo) : (s.setStn p t).unit v = s.unit v := rfl
@[simp] theorem State.setStn_route (p : Port) (t : Station) (g : Flag) : (s.setStn p t).route g = s.route g := rfl
@[simp] theorem State.setStn_now (p : Port) (t : Station) : (s.setStn p t).now = s.now := rfl
@[simp] theorem State.setStn_flagSet (p : Port) (t : Station) (g : Flag) : (s.setStn p t).flagSet g = s.flagSet g := rfl
@[simp] theorem State.setStn_paired (p : Port) (t : Station) (j : PairNo) : (s.setStn p t).paired j = s.paired j := rfl

/-! ### setUnit -/

@[simp] theorem State.setUnit_inReset (u : UnitNo) (r : UnitRec) : (s.setUnit u r).inReset = s.inReset := rfl
@[simp] theorem State.setUnit_rate (u : UnitNo) (r : UnitRec) : (s.setUnit u r).rate = s.rate := rfl
@[simp] theorem State.setUnit_lines (u : UnitNo) (r : UnitRec) : (s.setUnit u r).lines = s.lines := rfl
@[simp] theorem State.setUnit_settings (u : UnitNo) (r : UnitRec) : (s.setUnit u r).settings = s.settings := rfl
@[simp] theorem State.setUnit_inputs (u : UnitNo) (r : UnitRec) : (s.setUnit u r).inputs = s.inputs := rfl
@[simp] theorem State.setUnit_pairTimers (u : UnitNo) (r : UnitRec) : (s.setUnit u r).pairTimers = s.pairTimers := rfl
@[simp] theorem State.setUnit_changeQueue (u : UnitNo) (r : UnitRec) : (s.setUnit u r).changeQueue = s.changeQueue := rfl
@[simp] theorem State.setUnit_points (u : UnitNo) (r : UnitRec) : (s.setUnit u r).points = s.points := rfl
@[simp] theorem State.setUnit_map (u : UnitNo) (r : UnitRec) : (s.setUnit u r).map = s.map := rfl
@[simp] theorem State.setUnit_audibleRequest (u : UnitNo) (r : UnitRec) : (s.setUnit u r).audibleRequest = s.audibleRequest := rfl
@[simp] theorem State.setUnit_audibleThreshold (u : UnitNo) (r : UnitRec) : (s.setUnit u r).audibleThreshold = s.audibleThreshold := rfl
@[simp] theorem State.setUnit_dispatch (u : UnitNo) (r : UnitRec) : (s.setUnit u r).dispatch = s.dispatch := rfl
@[simp] theorem State.setUnit_log (u : UnitNo) (r : UnitRec) : (s.setUnit u r).log = s.log := rfl
@[simp] theorem State.setUnit_flags (u : UnitNo) (r : UnitRec) : (s.setUnit u r).flags = s.flags := rfl
@[simp] theorem State.setUnit_routes (u : UnitNo) (r : UnitRec) : (s.setUnit u r).routes = s.routes := rfl
@[simp] theorem State.setUnit_commandCapture (u : UnitNo) (r : UnitRec) : (s.setUnit u r).commandCapture = s.commandCapture := rfl
@[simp] theorem State.setUnit_inputCapture (u : UnitNo) (r : UnitRec) : (s.setUnit u r).inputCapture = s.inputCapture := rfl
@[simp] theorem State.setUnit_raisings (u : UnitNo) (r : UnitRec) : (s.setUnit u r).raisings = s.raisings := rfl
@[simp] theorem State.setUnit_mode (u : UnitNo) (r : UnitRec) : (s.setUnit u r).mode = s.mode := rfl
@[simp] theorem State.setUnit_startAcked (u : UnitNo) (r : UnitRec) : (s.setUnit u r).startAcked = s.startAcked := rfl
@[simp] theorem State.setUnit_evalPos (u : UnitNo) (r : UnitRec) : (s.setUnit u r).evalPos = s.evalPos := rfl
@[simp] theorem State.setUnit_engineClaim (u : UnitNo) (r : UnitRec) : (s.setUnit u r).engineClaim = s.engineClaim := rfl
@[simp] theorem State.setUnit_day (u : UnitNo) (r : UnitRec) : (s.setUnit u r).day = s.day := rfl
@[simp] theorem State.setUnit_msOfDay (u : UnitNo) (r : UnitRec) : (s.setUnit u r).msOfDay = s.msOfDay := rfl
@[simp] theorem State.setUnit_timeQuality (u : UnitNo) (r : UnitRec) : (s.setUnit u r).timeQuality = s.timeQuality := rfl
@[simp] theorem State.setUnit_syncEnable (u : UnitNo) (r : UnitRec) : (s.setUnit u r).syncEnable = s.syncEnable := rfl
@[simp] theorem State.setUnit_watchdog (u : UnitNo) (r : UnitRec) : (s.setUnit u r).watchdog = s.watchdog := rfl
@[simp] theorem State.setUnit_elapsed (u : UnitNo) (r : UnitRec) : (s.setUnit u r).elapsed = s.elapsed := rfl
@[simp] theorem State.setUnit_stations (u : UnitNo) (r : UnitRec) : (s.setUnit u r).stations = s.stations := rfl
@[simp] theorem State.setUnit_freeCount (u : UnitNo) (r : UnitRec) : (s.setUnit u r).freeCount = s.freeCount := rfl
@[simp] theorem State.setUnit_pending (u : UnitNo) (r : UnitRec) : (s.setUnit u r).pending = s.pending := rfl
@[simp] theorem State.setUnit_pt (u : UnitNo) (r : UnitRec) (q : PointNo) : (s.setUnit u r).pt q = s.pt q := rfl
@[simp] theorem State.setUnit_ent (u : UnitNo) (r : UnitRec) (j : InputNo) : (s.setUnit u r).ent j = s.ent j := rfl
@[simp] theorem State.setUnit_inp (u : UnitNo) (r : UnitRec) (j : InputNo) : (s.setUnit u r).inp j = s.inp j := rfl
@[simp] theorem State.setUnit_pairTimer (u : UnitNo) (r : UnitRec) (j : PairNo) : (s.setUnit u r).pairTimer j = s.pairTimer j := rfl
@[simp] theorem State.setUnit_line (u : UnitNo) (r : UnitRec) (m : LineNo) : (s.setUnit u r).line m = s.line m := rfl
@[simp] theorem State.setUnit_dsp (u : UnitNo) (r : UnitRec) (q : Port) : (s.setUnit u r).dsp q = s.dsp q := rfl
@[simp] theorem State.setUnit_stn (u : UnitNo) (r : UnitRec) (q : Port) : (s.setUnit u r).stn q = s.stn q := rfl
@[simp] theorem State.setUnit_route (u : UnitNo) (r : UnitRec) (g : Flag) : (s.setUnit u r).route g = s.route g := rfl
@[simp] theorem State.setUnit_now (u : UnitNo) (r : UnitRec) : (s.setUnit u r).now = s.now := rfl
@[simp] theorem State.setUnit_flagSet (u : UnitNo) (r : UnitRec) (g : Flag) : (s.setUnit u r).flagSet g = s.flagSet g := rfl
@[simp] theorem State.setUnit_paired (u : UnitNo) (r : UnitRec) (j : PairNo) : (s.setUnit u r).paired j = s.paired j := rfl

/-! ### setLinkRx -/

@[simp] theorem State.setLinkRx_inReset (rx : LinkRx) : (s.setLinkRx rx).inReset = s.inReset := rfl
@[simp] theorem State.setLinkRx_rate (rx : LinkRx) : (s.setLinkRx rx).rate = s.rate := rfl
@[simp] theorem State.setLinkRx_lines (rx : LinkRx) : (s.setLinkRx rx).lines = s.lines := rfl
@[simp] theorem State.setLinkRx_settings (rx : LinkRx) : (s.setLinkRx rx).settings = s.settings := rfl
@[simp] theorem State.setLinkRx_inputs (rx : LinkRx) : (s.setLinkRx rx).inputs = s.inputs := rfl
@[simp] theorem State.setLinkRx_pairTimers (rx : LinkRx) : (s.setLinkRx rx).pairTimers = s.pairTimers := rfl
@[simp] theorem State.setLinkRx_changeQueue (rx : LinkRx) : (s.setLinkRx rx).changeQueue = s.changeQueue := rfl
@[simp] theorem State.setLinkRx_points (rx : LinkRx) : (s.setLinkRx rx).points = s.points := rfl
@[simp] theorem State.setLinkRx_map (rx : LinkRx) : (s.setLinkRx rx).map = s.map := rfl
@[simp] theorem State.setLinkRx_audibleRequest (rx : LinkRx) : (s.setLinkRx rx).audibleRequest = s.audibleRequest := rfl
@[simp] theorem State.setLinkRx_audibleThreshold (rx : LinkRx) : (s.setLinkRx rx).audibleThreshold = s.audibleThreshold := rfl
@[simp] theorem State.setLinkRx_dispatch (rx : LinkRx) : (s.setLinkRx rx).dispatch = s.dispatch := rfl
@[simp] theorem State.setLinkRx_log (rx : LinkRx) : (s.setLinkRx rx).log = s.log := rfl
@[simp] theorem State.setLinkRx_flags (rx : LinkRx) : (s.setLinkRx rx).flags = s.flags := rfl
@[simp] theorem State.setLinkRx_routes (rx : LinkRx) : (s.setLinkRx rx).routes = s.routes := rfl
@[simp] theorem State.setLinkRx_commandCapture (rx : LinkRx) : (s.setLinkRx rx).commandCapture = s.commandCapture := rfl
@[simp] theorem State.setLinkRx_inputCapture (rx : LinkRx) : (s.setLinkRx rx).inputCapture = s.inputCapture := rfl
@[simp] theorem State.setLinkRx_raisings (rx : LinkRx) : (s.setLinkRx rx).raisings = s.raisings := rfl
@[simp] theorem State.setLinkRx_mode (rx : LinkRx) : (s.setLinkRx rx).mode = s.mode := rfl
@[simp] theorem State.setLinkRx_startAcked (rx : LinkRx) : (s.setLinkRx rx).startAcked = s.startAcked := rfl
@[simp] theorem State.setLinkRx_evalPos (rx : LinkRx) : (s.setLinkRx rx).evalPos = s.evalPos := rfl
@[simp] theorem State.setLinkRx_engineClaim (rx : LinkRx) : (s.setLinkRx rx).engineClaim = s.engineClaim := rfl
@[simp] theorem State.setLinkRx_day (rx : LinkRx) : (s.setLinkRx rx).day = s.day := rfl
@[simp] theorem State.setLinkRx_msOfDay (rx : LinkRx) : (s.setLinkRx rx).msOfDay = s.msOfDay := rfl
@[simp] theorem State.setLinkRx_timeQuality (rx : LinkRx) : (s.setLinkRx rx).timeQuality = s.timeQuality := rfl
@[simp] theorem State.setLinkRx_syncEnable (rx : LinkRx) : (s.setLinkRx rx).syncEnable = s.syncEnable := rfl
@[simp] theorem State.setLinkRx_watchdog (rx : LinkRx) : (s.setLinkRx rx).watchdog = s.watchdog := rfl
@[simp] theorem State.setLinkRx_elapsed (rx : LinkRx) : (s.setLinkRx rx).elapsed = s.elapsed := rfl
@[simp] theorem State.setLinkRx_stations (rx : LinkRx) : (s.setLinkRx rx).stations = s.stations := rfl
@[simp] theorem State.setLinkRx_freeCount (rx : LinkRx) : (s.setLinkRx rx).freeCount = s.freeCount := rfl
@[simp] theorem State.setLinkRx_pending (rx : LinkRx) : (s.setLinkRx rx).pending = s.pending := rfl
@[simp] theorem State.setLinkRx_pt (rx : LinkRx) (q : PointNo) : (s.setLinkRx rx).pt q = s.pt q := rfl
@[simp] theorem State.setLinkRx_ent (rx : LinkRx) (j : InputNo) : (s.setLinkRx rx).ent j = s.ent j := rfl
@[simp] theorem State.setLinkRx_inp (rx : LinkRx) (j : InputNo) : (s.setLinkRx rx).inp j = s.inp j := rfl
@[simp] theorem State.setLinkRx_pairTimer (rx : LinkRx) (j : PairNo) : (s.setLinkRx rx).pairTimer j = s.pairTimer j := rfl
@[simp] theorem State.setLinkRx_line (rx : LinkRx) (m : LineNo) : (s.setLinkRx rx).line m = s.line m := rfl
@[simp] theorem State.setLinkRx_dsp (rx : LinkRx) (q : Port) : (s.setLinkRx rx).dsp q = s.dsp q := rfl
@[simp] theorem State.setLinkRx_stn (rx : LinkRx) (q : Port) : (s.setLinkRx rx).stn q = s.stn q := rfl
@[simp] theorem State.setLinkRx_route (rx : LinkRx) (g : Flag) : (s.setLinkRx rx).route g = s.route g := rfl
@[simp] theorem State.setLinkRx_now (rx : LinkRx) : (s.setLinkRx rx).now = s.now := rfl
@[simp] theorem State.setLinkRx_flagSet (rx : LinkRx) (g : Flag) : (s.setLinkRx rx).flagSet g = s.flagSet g := rfl
@[simp] theorem State.setLinkRx_paired (rx : LinkRx) (j : PairNo) : (s.setLinkRx rx).paired j = s.paired j := rfl

/-! ### setRoute -/

@[simp] theorem State.setRoute_inReset (f : Flag) (r : Route) : (s.setRoute f r).inReset = s.inReset := rfl
@[simp] theorem State.setRoute_rate (f : Flag) (r : Route) : (s.setRoute f r).rate = s.rate := rfl
@[simp] theorem State.setRoute_lines (f : Flag) (r : Route) : (s.setRoute f r).lines = s.lines := rfl
@[simp] theorem State.setRoute_settings (f : Flag) (r : Route) : (s.setRoute f r).settings = s.settings := rfl
@[simp] theorem State.setRoute_inputs (f : Flag) (r : Route) : (s.setRoute f r).inputs = s.inputs := rfl
@[simp] theorem State.setRoute_pairTimers (f : Flag) (r : Route) : (s.setRoute f r).pairTimers = s.pairTimers := rfl
@[simp] theorem State.setRoute_changeQueue (f : Flag) (r : Route) : (s.setRoute f r).changeQueue = s.changeQueue := rfl
@[simp] theorem State.setRoute_points (f : Flag) (r : Route) : (s.setRoute f r).points = s.points := rfl
@[simp] theorem State.setRoute_map (f : Flag) (r : Route) : (s.setRoute f r).map = s.map := rfl
@[simp] theorem State.setRoute_audibleRequest (f : Flag) (r : Route) : (s.setRoute f r).audibleRequest = s.audibleRequest := rfl
@[simp] theorem State.setRoute_audibleThreshold (f : Flag) (r : Route) : (s.setRoute f r).audibleThreshold = s.audibleThreshold := rfl
@[simp] theorem State.setRoute_dispatch (f : Flag) (r : Route) : (s.setRoute f r).dispatch = s.dispatch := rfl
@[simp] theorem State.setRoute_log (f : Flag) (r : Route) : (s.setRoute f r).log = s.log := rfl
@[simp] theorem State.setRoute_link (f : Flag) (r : Route) : (s.setRoute f r).link = s.link := rfl
@[simp] theorem State.setRoute_flags (f : Flag) (r : Route) : (s.setRoute f r).flags = s.flags := rfl
@[simp] theorem State.setRoute_commandCapture (f : Flag) (r : Route) : (s.setRoute f r).commandCapture = s.commandCapture := rfl
@[simp] theorem State.setRoute_inputCapture (f : Flag) (r : Route) : (s.setRoute f r).inputCapture = s.inputCapture := rfl
@[simp] theorem State.setRoute_raisings (f : Flag) (r : Route) : (s.setRoute f r).raisings = s.raisings := rfl
@[simp] theorem State.setRoute_mode (f : Flag) (r : Route) : (s.setRoute f r).mode = s.mode := rfl
@[simp] theorem State.setRoute_startAcked (f : Flag) (r : Route) : (s.setRoute f r).startAcked = s.startAcked := rfl
@[simp] theorem State.setRoute_evalPos (f : Flag) (r : Route) : (s.setRoute f r).evalPos = s.evalPos := rfl
@[simp] theorem State.setRoute_engineClaim (f : Flag) (r : Route) : (s.setRoute f r).engineClaim = s.engineClaim := rfl
@[simp] theorem State.setRoute_day (f : Flag) (r : Route) : (s.setRoute f r).day = s.day := rfl
@[simp] theorem State.setRoute_msOfDay (f : Flag) (r : Route) : (s.setRoute f r).msOfDay = s.msOfDay := rfl
@[simp] theorem State.setRoute_timeQuality (f : Flag) (r : Route) : (s.setRoute f r).timeQuality = s.timeQuality := rfl
@[simp] theorem State.setRoute_syncEnable (f : Flag) (r : Route) : (s.setRoute f r).syncEnable = s.syncEnable := rfl
@[simp] theorem State.setRoute_watchdog (f : Flag) (r : Route) : (s.setRoute f r).watchdog = s.watchdog := rfl
@[simp] theorem State.setRoute_elapsed (f : Flag) (r : Route) : (s.setRoute f r).elapsed = s.elapsed := rfl
@[simp] theorem State.setRoute_stations (f : Flag) (r : Route) : (s.setRoute f r).stations = s.stations := rfl
@[simp] theorem State.setRoute_freeCount (f : Flag) (r : Route) : (s.setRoute f r).freeCount = s.freeCount := rfl
@[simp] theorem State.setRoute_pending (f : Flag) (r : Route) : (s.setRoute f r).pending = s.pending := rfl
@[simp] theorem State.setRoute_pt (f : Flag) (r : Route) (q : PointNo) : (s.setRoute f r).pt q = s.pt q := rfl
@[simp] theorem State.setRoute_ent (f : Flag) (r : Route) (j : InputNo) : (s.setRoute f r).ent j = s.ent j := rfl
@[simp] theorem State.setRoute_inp (f : Flag) (r : Route) (j : InputNo) : (s.setRoute f r).inp j = s.inp j := rfl
@[simp] theorem State.setRoute_pairTimer (f : Flag) (r : Route) (j : PairNo) : (s.setRoute f r).pairTimer j = s.pairTimer j := rfl
@[simp] theorem State.setRoute_line (f : Flag) (r : Route) (m : LineNo) : (s.setRoute f r).line m = s.line m := rfl
@[simp] theorem State.setRoute_dsp (f : Flag) (r : Route) (q : Port) : (s.setRoute f r).dsp q = s.dsp q := rfl
@[simp] theorem State.setRoute_stn (f : Flag) (r : Route) (q : Port) : (s.setRoute f r).stn q = s.stn q := rfl
@[simp] theorem State.setRoute_unit (f : Flag) (r : Route) (v : UnitNo) : (s.setRoute f r).unit v = s.unit v := rfl
@[simp] theorem State.setRoute_now (f : Flag) (r : Route) : (s.setRoute f r).now = s.now := rfl
@[simp] theorem State.setRoute_flagSet (f : Flag) (r : Route) (g : Flag) : (s.setRoute f r).flagSet g = s.flagSet g := rfl
@[simp] theorem State.setRoute_paired (f : Flag) (r : Route) (j : PairNo) : (s.setRoute f r).paired j = s.paired j := rfl

/-! ### handOn -/

@[simp] theorem State.handOn_inReset (r : Raising) : (s.handOn r).inReset = s.inReset := rfl
@[simp] theorem State.handOn_rate (r : Raising) : (s.handOn r).rate = s.rate := rfl
@[simp] theorem State.handOn_lines (r : Raising) : (s.handOn r).lines = s.lines := rfl
@[simp] theorem State.handOn_settings (r : Raising) : (s.handOn r).settings = s.settings := rfl
@[simp] theorem State.handOn_inputs (r : Raising) : (s.handOn r).inputs = s.inputs := rfl
@[simp] theorem State.handOn_pairTimers (r : Raising) : (s.handOn r).pairTimers = s.pairTimers := rfl
@[simp] theorem State.handOn_changeQueue (r : Raising) : (s.handOn r).changeQueue = s.changeQueue := rfl
@[simp] theorem State.handOn_points (r : Raising) : (s.handOn r).points = s.points := rfl
@[simp] theorem State.handOn_map (r : Raising) : (s.handOn r).map = s.map := rfl
@[simp] theorem State.handOn_audibleRequest (r : Raising) : (s.handOn r).audibleRequest = s.audibleRequest := rfl
@[simp] theorem State.handOn_audibleThreshold (r : Raising) : (s.handOn r).audibleThreshold = s.audibleThreshold := rfl
@[simp] theorem State.handOn_dispatch (r : Raising) : (s.handOn r).dispatch = s.dispatch := rfl
@[simp] theorem State.handOn_log (r : Raising) : (s.handOn r).log = s.log := rfl
@[simp] theorem State.handOn_link (r : Raising) : (s.handOn r).link = s.link := rfl
@[simp] theorem State.handOn_flags (r : Raising) : (s.handOn r).flags = s.flags := rfl
@[simp] theorem State.handOn_routes (r : Raising) : (s.handOn r).routes = s.routes := rfl
@[simp] theorem State.handOn_commandCapture (r : Raising) : (s.handOn r).commandCapture = s.commandCapture := rfl
@[simp] theorem State.handOn_inputCapture (r : Raising) : (s.handOn r).inputCapture = s.inputCapture := rfl
@[simp] theorem State.handOn_mode (r : Raising) : (s.handOn r).mode = s.mode := rfl
@[simp] theorem State.handOn_startAcked (r : Raising) : (s.handOn r).startAcked = s.startAcked := rfl
@[simp] theorem State.handOn_evalPos (r : Raising) : (s.handOn r).evalPos = s.evalPos := rfl
@[simp] theorem State.handOn_engineClaim (r : Raising) : (s.handOn r).engineClaim = s.engineClaim := rfl
@[simp] theorem State.handOn_day (r : Raising) : (s.handOn r).day = s.day := rfl
@[simp] theorem State.handOn_msOfDay (r : Raising) : (s.handOn r).msOfDay = s.msOfDay := rfl
@[simp] theorem State.handOn_timeQuality (r : Raising) : (s.handOn r).timeQuality = s.timeQuality := rfl
@[simp] theorem State.handOn_syncEnable (r : Raising) : (s.handOn r).syncEnable = s.syncEnable := rfl
@[simp] theorem State.handOn_watchdog (r : Raising) : (s.handOn r).watchdog = s.watchdog := rfl
@[simp] theorem State.handOn_elapsed (r : Raising) : (s.handOn r).elapsed = s.elapsed := rfl
@[simp] theorem State.handOn_stations (r : Raising) : (s.handOn r).stations = s.stations := rfl
@[simp] theorem State.handOn_freeCount (r : Raising) : (s.handOn r).freeCount = s.freeCount := rfl
@[simp] theorem State.handOn_pending (r : Raising) : (s.handOn r).pending = s.pending := rfl
@[simp] theorem State.handOn_pt (r : Raising) (q : PointNo) : (s.handOn r).pt q = s.pt q := rfl
@[simp] theorem State.handOn_ent (r : Raising) (j : InputNo) : (s.handOn r).ent j = s.ent j := rfl
@[simp] theorem State.handOn_inp (r : Raising) (j : InputNo) : (s.handOn r).inp j = s.inp j := rfl
@[simp] theorem State.handOn_pairTimer (r : Raising) (j : PairNo) : (s.handOn r).pairTimer j = s.pairTimer j := rfl
@[simp] theorem State.handOn_line (r : Raising) (m : LineNo) : (s.handOn r).line m = s.line m := rfl
@[simp] theorem State.handOn_dsp (r : Raising) (q : Port) : (s.handOn r).dsp q = s.dsp q := rfl
@[simp] theorem State.handOn_stn (r : Raising) (q : Port) : (s.handOn r).stn q = s.stn q := rfl
@[simp] theorem State.handOn_unit (r : Raising) (v : UnitNo) : (s.handOn r).unit v = s.unit v := rfl
@[simp] theorem State.handOn_route (r : Raising) (g : Flag) : (s.handOn r).route g = s.route g := rfl
@[simp] theorem State.handOn_now (r : Raising) : (s.handOn r).now = s.now := rfl
@[simp] theorem State.handOn_flagSet (r : Raising) (g : Flag) : (s.handOn r).flagSet g = s.flagSet g := rfl
@[simp] theorem State.handOn_paired (r : Raising) (j : PairNo) : (s.handOn r).paired j = s.paired j := rfl

/-! ### setClock -/

@[simp] theorem State.setClock_inReset (t : TimeStamp) : (s.setClock t).inReset = s.inReset := rfl
@[simp] theorem State.setClock_rate (t : TimeStamp) : (s.setClock t).rate = s.rate := rfl
@[simp] theorem State.setClock_lines (t : TimeStamp) : (s.setClock t).lines = s.lines := rfl
@[simp] theorem State.setClock_settings (t : TimeStamp) : (s.setClock t).settings = s.settings := rfl
@[simp] theorem State.setClock_inputs (t : TimeStamp) : (s.setClock t).inputs = s.inputs := rfl
@[simp] theorem State.setClock_pairTimers (t : TimeStamp) : (s.setClock t).pairTimers = s.pairTimers := rfl
@[simp] theorem State.setClock_changeQueue (t : TimeStamp) : (s.setClock t).changeQueue = s.changeQueue := rfl
@[simp] theorem State.setClock_points (t : TimeStamp) : (s.setClock t).points = s.points := rfl
@[simp] theorem State.setClock_map (t : TimeStamp) : (s.setClock t).map = s.map := rfl
@[simp] theorem State.setClock_audibleRequest (t : TimeStamp) : (s.setClock t).audibleRequest = s.audibleRequest := rfl
@[simp] theorem State.setClock_audibleThreshold (t : TimeStamp) : (s.setClock t).audibleThreshold = s.audibleThreshold := rfl
@[simp] theorem State.setClock_dispatch (t : TimeStamp) : (s.setClock t).dispatch = s.dispatch := rfl
@[simp] theorem State.setClock_log (t : TimeStamp) : (s.setClock t).log = s.log := rfl
@[simp] theorem State.setClock_link (t : TimeStamp) : (s.setClock t).link = s.link := rfl
@[simp] theorem State.setClock_flags (t : TimeStamp) : (s.setClock t).flags = s.flags := rfl
@[simp] theorem State.setClock_routes (t : TimeStamp) : (s.setClock t).routes = s.routes := rfl
@[simp] theorem State.setClock_commandCapture (t : TimeStamp) : (s.setClock t).commandCapture = s.commandCapture := rfl
@[simp] theorem State.setClock_inputCapture (t : TimeStamp) : (s.setClock t).inputCapture = s.inputCapture := rfl
@[simp] theorem State.setClock_raisings (t : TimeStamp) : (s.setClock t).raisings = s.raisings := rfl
@[simp] theorem State.setClock_mode (t : TimeStamp) : (s.setClock t).mode = s.mode := rfl
@[simp] theorem State.setClock_startAcked (t : TimeStamp) : (s.setClock t).startAcked = s.startAcked := rfl
@[simp] theorem State.setClock_evalPos (t : TimeStamp) : (s.setClock t).evalPos = s.evalPos := rfl
@[simp] theorem State.setClock_engineClaim (t : TimeStamp) : (s.setClock t).engineClaim = s.engineClaim := rfl
@[simp] theorem State.setClock_syncEnable (t : TimeStamp) : (s.setClock t).syncEnable = s.syncEnable := rfl
@[simp] theorem State.setClock_watchdog (t : TimeStamp) : (s.setClock t).watchdog = s.watchdog := rfl
@[simp] theorem State.setClock_elapsed (t : TimeStamp) : (s.setClock t).elapsed = s.elapsed := rfl
@[simp] theorem State.setClock_stations (t : TimeStamp) : (s.setClock t).stations = s.stations := rfl
@[simp] theorem State.setClock_freeCount (t : TimeStamp) : (s.setClock t).freeCount = s.freeCount := rfl
@[simp] theorem State.setClock_pending (t : TimeStamp) : (s.setClock t).pending = s.pending := rfl
@[simp] theorem State.setClock_pt (t : TimeStamp) (q : PointNo) : (s.setClock t).pt q = s.pt q := rfl
@[simp] theorem State.setClock_ent (t : TimeStamp) (j : InputNo) : (s.setClock t).ent j = s.ent j := rfl
@[simp] theorem State.setClock_inp (t : TimeStamp) (j : InputNo) : (s.setClock t).inp j = s.inp j := rfl
@[simp] theorem State.setClock_pairTimer (t : TimeStamp) (j : PairNo) : (s.setClock t).pairTimer j = s.pairTimer j := rfl
@[simp] theorem State.setClock_line (t : TimeStamp) (m : LineNo) : (s.setClock t).line m = s.line m := rfl
@[simp] theorem State.setClock_dsp (t : TimeStamp) (q : Port) : (s.setClock t).dsp q = s.dsp q := rfl
@[simp] theorem State.setClock_stn (t : TimeStamp) (q : Port) : (s.setClock t).stn q = s.stn q := rfl
@[simp] theorem State.setClock_unit (t : TimeStamp) (v : UnitNo) : (s.setClock t).unit v = s.unit v := rfl
@[simp] theorem State.setClock_route (t : TimeStamp) (g : Flag) : (s.setClock t).route g = s.route g := rfl
@[simp] theorem State.setClock_flagSet (t : TimeStamp) (g : Flag) : (s.setClock t).flagSet g = s.flagSet g := rfl
@[simp] theorem State.setClock_paired (t : TimeStamp) (j : PairNo) : (s.setClock t).paired j = s.paired j := rfl

/-! ### Reading back -/

@[simp] theorem State.pt_setPt_self (p : PointNo) (r : PointRec) : (s.setPt p r).pt p = r := by
  simp [State.pt, State.setPt]

theorem State.pt_setPt_of_ne {p q : PointNo} (r : PointRec) (h : q ≠ p) : (s.setPt p r).pt q = s.pt q := by
  have : p.val ≠ q.val := fun e => h (Fin.ext e.symm)
  simp [State.pt, State.setPt, this]

theorem State.pt_setPt (p q : PointNo) (r : PointRec) : (s.setPt p r).pt q = if q = p then r else s.pt q := by
  split
  · next h => subst h; simp
  · next h => exact s.pt_setPt_of_ne r h

@[simp] theorem State.ent_setEnt_self (i : InputNo) (e : MapEntry) : (s.setEnt i e).ent i = e := by
  simp [State.ent, State.setEnt]

theorem State.ent_setEnt_of_ne {i j : InputNo} (e : MapEntry) (h : j ≠ i) :
    (s.setEnt i e).ent j = s.ent j := by
  have : i.val ≠ j.val := fun e => h (Fin.ext e.symm)
  simp [State.ent, State.setEnt, this]

theorem State.ent_setEnt (i j : InputNo) (e : MapEntry) :
    (s.setEnt i e).ent j = if j = i then e else s.ent j := by
  split
  · next h => subst h; simp
  · next h => exact s.ent_setEnt_of_ne e h

@[simp] theorem State.inp_setInp_self (i : InputNo) (r : InputRec) : (s.setInp i r).inp i = r := by
  simp [State.inp, State.setInp]

theorem State.inp_setInp_of_ne {i j : InputNo} (r : InputRec) (h : j ≠ i) :
    (s.setInp i r).inp j = s.inp j := by
  have : i.val ≠ j.val := fun e => h (Fin.ext e.symm)
  simp [State.inp, State.setInp, this]

theorem State.inp_setInp (i j : InputNo) (r : InputRec) :
    (s.setInp i r).inp j = if j = i then r else s.inp j := by
  split
  · next h => subst h; simp
  · next h => exact s.inp_setInp_of_ne r h

@[simp] theorem State.pairTimer_setPairTimer_self (k : PairNo) (t : Option Nat) : (s.setPairTimer k t).pairTimer k = t := by
  simp [State.pairTimer, State.setPairTimer]

theorem State.pairTimer_setPairTimer_of_ne {k j : PairNo} (t : Option Nat) (h : j ≠ k) :
    (s.setPairTimer k t).pairTimer j = s.pairTimer j := by
  have : k.val ≠ j.val := fun e => h (Fin.ext e.symm)
  simp [State.pairTimer, State.setPairTimer, this]

theorem State.pairTimer_setPairTimer (k j : PairNo) (t : Option Nat) :
    (s.setPairTimer k t).pairTimer j = if j = k then t else s.pairTimer j := by
  split
  · next h => subst h; simp
  · next h => exact s.pairTimer_setPairTimer_of_ne t h

@[simp] theorem State.line_setLine_self (l : LineNo) (r : LineRec) : (s.setLine l r).line l = r := by
  simp [State.line, State.setLine]

theorem State.line_setLine_of_ne {l m : LineNo} (r : LineRec) (h : m ≠ l) :
    (s.setLine l r).line m = s.line m := by
  have : l.val ≠ m.val := fun e => h (Fin.ext e.symm)
  simp [State.line, State.setLine, this]

theorem State.line_setLine (l m : LineNo) (r : LineRec) :
    (s.setLine l r).line m = if m = l then r else s.line m := by
  split
  · next h => subst h; simp
  · next h => exact s.line_setLine_of_ne r h

@[simp] theorem State.dsp_setDsp_self (p : Port) (d : Dispatch) : (s.setDsp p d).dsp p = d := by
  simp [State.dsp, State.setDsp]

theorem State.dsp_setDsp_of_ne {p q : Port} (d : Dispatch) (h : q ≠ p) :
    (s.setDsp p d).dsp q = s.dsp q := by
  have : p.val ≠ q.val := fun e => h (Fin.ext e.symm)
  simp [State.dsp, State.setDsp, this]

theorem State.dsp_setDsp (p q : Port) (d : Dispatch) :
    (s.setDsp p d).dsp q = if q = p then d else s.dsp q := by
  split
  · next h => subst h; simp
  · next h => exact s.dsp_setDsp_of_ne d h

@[simp] theorem State.dsp_setStn (p q : Port) (t : Station) : (s.setStn p t).dsp q = s.dsp q := rfl

@[simp] theorem State.stn_setDsp (p q : Port) (d : Dispatch) : (s.setDsp p d).stn q = s.stn q := rfl

@[simp] theorem State.stn_setStn_self (p : Port) (t : Station) : (s.setStn p t).stn p = t := by
  simp [State.stn, State.setStn]

theorem State.stn_setStn_of_ne {p q : Port} (t : Station) (h : q ≠ p) :
    (s.setStn p t).stn q = s.stn q := by
  have : p.val ≠ q.val := fun e => h (Fin.ext e.symm)
  simp [State.stn, State.setStn, this]

theorem State.stn_setStn (p q : Port) (t : Station) :
    (s.setStn p t).stn q = if q = p then t else s.stn q := by
  split
  · next h => subst h; simp
  · next h => exact s.stn_setStn_of_ne t h

@[simp] theorem State.unit_setUnit_self (u : UnitNo) (r : UnitRec) : (s.setUnit u r).unit u = r := by
  simp [State.unit, State.setUnit]

theorem State.unit_setUnit_of_ne {u v : UnitNo} (r : UnitRec) (h : v ≠ u) :
    (s.setUnit u r).unit v = s.unit v := by
  have : u.val ≠ v.val := fun e => h (Fin.ext e.symm)
  simp [State.unit, State.setUnit, this]

theorem State.unit_setUnit (u v : UnitNo) (r : UnitRec) :
    (s.setUnit u r).unit v = if v = u then r else s.unit v := by
  split
  · next h => subst h; simp
  · next h => exact s.unit_setUnit_of_ne r h

@[simp] theorem State.setStn_setStn (p : Port) (a b : Station) : (s.setStn p a).setStn p b = s.setStn p b := by
  simp [State.setStn]

@[simp] theorem State.setDsp_setDsp (p : Port) (a b : Dispatch) : (s.setDsp p a).setDsp p b = s.setDsp p b := by
  simp [State.setDsp]

@[simp] theorem State.setPt_setPt (p : PointNo) (a b : PointRec) : (s.setPt p a).setPt p b = s.setPt p b := by
  simp [State.setPt]

@[simp] theorem State.setInp_setInp (i : InputNo) (a b : InputRec) : (s.setInp i a).setInp i b = s.setInp i b := by
  simp [State.setInp]

@[simp] theorem State.raisings_handOn (r : Raising) : (s.handOn r).raisings = s.raisings ++ [r] := rfl

@[simp] theorem State.now_setClock (t : TimeStamp) : (s.setClock t).now = t := rfl

/-! ### Entries of vectors held over lists -/

@[simp] theorem getElem_mapEntries {α β : Type} {n : Nat} (f : α → β) (v : Vector α n) (i : Nat) (h : i < n) :
    (mapEntries f v)[i] = f v[i] := by
  simp [mapEntries]

@[simp] theorem getElem_padEntries_lt {α : Type} {n : Nat} (v : Vector α n) (m : Nat) (a : α) (i : Nat) (h : i < n) :
    (padEntries v m a)[i] = v[i] := by
  simp [padEntries, h]

@[simp] theorem getElem_padEntries_ge {α : Type} {n : Nat} (v : Vector α n) (m : Nat) (a : α) (i : Nat) (h : n ≤ i)
    (hi : i < n + m) : (padEntries v m a)[i] = a := by
  simp [padEntries, List.getElem_append, Nat.not_lt.mpr h]

/-- Two states that agree on every point agree on the point table. -/
theorem State.points_ext {s t : State} (h : ∀ p, s.pt p = t.pt p) : s.points = t.points := by
  apply Vector.ext
  intro i hi
  exact h ⟨i, hi⟩

/-- Two states that agree on every input record agree on the records. -/
theorem State.inputs_ext {s t : State} (h : ∀ i, s.inp i = t.inp i) : s.inputs = t.inputs := by
  apply Vector.ext
  intro i hi
  exact h ⟨i, hi⟩

/-- Two states that agree on every map entry agree on the map. -/
theorem State.map_ext {s t : State} (h : ∀ i, s.ent i = t.ent i) : s.map = t.map := by
  apply Vector.ext
  intro i hi
  exact h ⟨i, hi⟩

end Sys2Proof.Machine
end

