-- ==== Sys2Proof/Laws/Chain.lean ====
section
/-! SUPPORT. Chains: depth, height and the chain test, said in terms of the points that lie above one another. -/

namespace Sys2Proof.Machine

variable {s : State}

@[simp] theorem ancestor_zero (p : PointNo) : s.ancestor 0 p = some p := rfl

/-- One link up, and then `n` more. -/
theorem ancestor_succ {n : Nat} {p q : PointNo} :
    s.ancestor (n + 1) p = some q ↔ ∃ g, (s.pt p).parent = some g ∧ s.ancestor n g = some q := by
  simp only [State.ancestor]
  cases (s.pt p).parent <;> simp

/-- A chain may be cut short. -/
theorem ancestor_of_le {n m : Nat} (h : m ≤ n) {p q : PointNo} (hq : s.ancestor n p = some q) :
    ∃ x, s.ancestor m p = some x := by
  induction m generalizing n p with
  | zero => exact ⟨p, rfl⟩
  | succ m ih =>
    obtain ⟨n, rfl⟩ : ∃ k, n = k + 1 := ⟨n - 1, by omega⟩
    obtain ⟨g, hg, ha⟩ := ancestor_succ.1 hq
    obtain ⟨x, hx⟩ := ih (Nat.le_of_succ_le_succ h) ha
    exact ⟨x, ancestor_succ.2 ⟨g, hg, hx⟩⟩

/-- A chain splits where it is cut. -/
theorem ancestor_add {m n : Nat} {p q : PointNo} :
    s.ancestor (m + n) p = some q ↔ ∃ x, s.ancestor m p = some x ∧ s.ancestor n x = some q := by
  induction m generalizing p with
  | zero => simp
  | succ m ih =>
    rw [Nat.succ_add, ancestor_succ]
    constructor
    · rintro ⟨g, hg, h⟩
      obtain ⟨x, hx, hq⟩ := ih.1 h
      exact ⟨x, ancestor_succ.2 ⟨g, hg, hx⟩, hq⟩
    · rintro ⟨x, hx, hq⟩
      obtain ⟨g, hg, h⟩ := ancestor_succ.1 hx
      exact ⟨g, hg, ih.2 ⟨x, h, hq⟩⟩

/-- The depth held at `n` is at least `k` where `k` links lead up. -/
theorem le_depth_iff {n k : Nat} (hk : k ≤ n) {p : PointNo} :
    k ≤ s.depth n p ↔ ∃ q, s.ancestor k p = some q := by
  induction n generalizing k p with
  | zero => obtain rfl : k = 0 := by omega
            simp [State.depth]
  | succ n ih =>
    cases k with
    | zero => simp
    | succ k =>
      simp only [State.depth, State.ancestor]
      cases hg : (s.pt p).parent with
      | none => simp
      | some g => simpa [hg] using ih (Nat.le_of_succ_le_succ hk) (p := g)

/-- The least upper bound that a fold of `max` finds. -/
theorem le_foldl_max_iff {α : Type} (c : α → Bool) (f : α → Nat) (l : List α) (m k : Nat) :
    k ≤ l.foldl (fun m x => if c x then max m (f x) else m) m ↔ k ≤ m ∨ ∃ x ∈ l, c x = true ∧ k ≤ f x := by
  induction l generalizing m with
  | nil => simp
  | cons a l ih =>
    rw [List.foldl_cons, ih]
    by_cases h : c a = true
    · simp only [h, if_true, List.mem_cons, exists_eq_or_imp, true_and]
      rw [show (k ≤ max m (f a)) ↔ (k ≤ m ∨ k ≤ f a) by omega, or_assoc]
    · simp only [h, List.mem_cons, exists_eq_or_imp, false_and, false_or, Bool.false_eq_true, if_false]

/-- Every point is listed. -/
theorem mem_allPoints (p : PointNo) : p ∈ allPoints :=
  List.mem_map.2 ⟨p.val, List.mem_range.2 p.isLt, Fin.ofNat_val_eq_self p⟩

/-- The height held at `n` is at least `k` where `k` links lead up to the point. -/
theorem le_height_iff {n k : Nat} (hk : k ≤ n) {q : PointNo} :
    k ≤ s.height n q ↔ ∃ p, s.ancestor k p = some q := by
  induction n generalizing k q with
  | zero => obtain rfl : k = 0 := by omega
            simp [State.height]
  | succ n ih =>
    cases k with
    | zero => simp
    | succ k =>
      rw [State.height, le_foldl_max_iff]
      constructor
      · rintro (h | ⟨x, -, hx, h⟩)
        · omega
        · obtain ⟨p, hp⟩ := (ih (Nat.le_of_succ_le_succ hk)).1 (Nat.le_of_succ_le_succ h)
          exact ⟨p, ancestor_add.2 ⟨x, hp, ancestor_succ.2 ⟨q, by simpa using hx, rfl⟩⟩⟩
      · rintro ⟨p, hp⟩
        obtain ⟨x, hx, h⟩ := ancestor_add.1 hp
        obtain ⟨g, hg, h⟩ := ancestor_succ.1 h
        obtain rfl : g = q := by simpa using h
        exact Or.inr ⟨x, mem_allPoints x, by simpa using hg,
          Nat.succ_le_succ ((ih (Nat.le_of_succ_le_succ hk)).2 ⟨p, hx⟩)⟩

/-- A point lies on a chain where links lead up to it. -/
theorem onChain_iff {n : Nat} {p q : PointNo} :
    s.onChain q n p = true ↔ ∃ k, k ≤ n ∧ s.ancestor k p = some q := by
  induction n generalizing p with
  | zero => simp [State.onChain]
  | succ n ih =>
    have h : s.onChain q (n + 1) p = true ↔ p = q ∨ ∃ g, (s.pt p).parent = some g ∧ s.onChain q n g = true := by
      simp only [State.onChain]
      cases (s.pt p).parent <;> simp
    rw [h]
    constructor
    · rintro (rfl | ⟨g, hg, hc⟩)
      · exact ⟨0, by omega, rfl⟩
      · obtain ⟨k, hk, ha⟩ := ih.1 hc
        exact ⟨k + 1, by omega, ancestor_succ.2 ⟨g, hg, ha⟩⟩
    · rintro ⟨k, hk, ha⟩
      cases k with
      | zero => exact Or.inl (by simpa using ha)
      | succ k =>
        obtain ⟨g, hg, ha⟩ := ancestor_succ.1 ha
        exact Or.inr ⟨g, hg, ih.2 ⟨k, by omega, ha⟩⟩

/-- The chain test of R39, spelled out: the point lies on the chain of the requested parent, or the links above that
parent, the new one and those below the point are more than three, the point's present link apart. -/
theorem chainRefused_iff {p g : PointNo} :
    s.chainRefused p g = true ↔
      let t := s.setPt p { s.pt p with parent := none }
      (∃ n, t.ancestor n g = some p)
        ∨ ∃ above below top bottom, t.ancestor above g = some top ∧ t.ancestor below bottom = some p
            ∧ 3 < above + 1 + below := by
  unfold State.chainRefused
  rw [Bool.or_eq_true, decide_eq_true_eq]
  generalize s.setPt p { s.pt p with parent := none } = t
  have longer {above below : Nat} {top bottom : PointNo} (ha : t.ancestor above g = some top)
      (hb : t.ancestor below bottom = some p) (h : 3 < above + 1 + below) :
      3 < t.depth chainBound g + 1 + t.height chainBound p := by
    have h1 : min above 4 ≤ t.depth chainBound g :=
      (le_depth_iff (Nat.min_le_right _ _)).2 (ancestor_of_le (Nat.min_le_left _ _) ha)
    have h2 : min below 4 ≤ t.height chainBound p := by
      refine (le_height_iff (Nat.min_le_right _ _)).2 ?_
      have e : below = (below - min below 4) + min below 4 := by omega
      rw [e] at hb
      obtain ⟨x, -, hx⟩ := ancestor_add.1 hb
      exact ⟨x, hx⟩
    omega
  constructor
  · rintro (h | h)
    · obtain ⟨k, -, hk⟩ := onChain_iff.1 h
      exact Or.inl ⟨k, hk⟩
    · obtain ⟨top, ht⟩ := (le_depth_iff (s := t) (k := min (t.depth chainBound g) 4) (n := chainBound) (p := g)
        (Nat.min_le_right _ _)).1 (Nat.min_le_left _ _)
      obtain ⟨bottom, hb⟩ := (le_height_iff (s := t) (k := min (t.height chainBound p) 4) (n := chainBound) (q := p)
        (Nat.min_le_right _ _)).1 (Nat.min_le_left _ _)
      refine Or.inr ⟨_, _, top, bottom, ht, hb, ?_⟩
      change 3 < _ at h
      omega
  · rintro (⟨n, h⟩ | ⟨above, below, top, bottom, ha, hb, h⟩)
    · by_cases hn : n ≤ chainBound
      · exact Or.inl (onChain_iff.2 ⟨n, hn, h⟩)
      · exact Or.inr (longer (below := 0) (bottom := p) h rfl (by
          have : chainBound = 4 := rfl
          omega))
    · exact Or.inr (longer ha hb h)

end Sys2Proof.Machine
end

