-- ==== Sys2Proof/Laws/Emit.lean ====
section
/-! SUPPORT. What appends, placements, offers and raisings can do, said once: `OnlyEmits` for the state around them and
`Appends` for the ring. -/

namespace Sys2Proof.Machine

/-! ### Placements at one Dispatch Controller -/

theorem Notice.Kept.refl (n : Notice) : n.Kept none n :=
  ⟨rfl, rfl, fun _ => ⟨rfl, rfl⟩, by simp⟩

theorem keptAll_refl (l : List Notice) : List.Forall₂ (Notice.Kept none) l l :=
  List.forall₂_same.mpr fun n _ => .refl n

theorem Notice.Kept.neverOffered {k : Option Nat} {n m : Notice} (h : n.Kept k m) (hn : n.neverOffered = false) :
    m.neverOffered = false := by
  obtain ⟨_, _, _, h⟩ := h
  unfold Notice.neverOffered at *
  split at h
  · simp [h.1]
  · rw [h.1, h.2]; exact hn

/-- An OFFERED notice stays as it is while nothing else is offered. -/
theorem Notice.Kept.same {n m : Notice} (h : n.Kept none m) (ho : n.offered = true) : m = n := by
  obtain ⟨h1, _, h3, h4⟩ := h
  obtain ⟨h5, h6⟩ := h3 (by simp [Notice.neverOffered, ho])
  simp only [reduceCtorEq, if_false] at h4
  cases n; cases m
  simp_all

theorem Notice.Kept.trans {j k : Option Nat} {n m o : Notice} (h : n.Kept j m) (g : m.Kept k o)
    (hjk : j = none ∨ k = none) : n.Kept (j.or k) o := by
  have hn := h.neverOffered
  obtain ⟨h1, h2, h3, h4⟩ := h
  obtain ⟨g1, g2, g3, g4⟩ := g
  refine ⟨g1.trans h1, g2.trans h2, fun e => ⟨(g3 (hn e)).1.trans (h3 e).1, (g3 (hn e)).2.trans (h3 e).2⟩, ?_⟩
  rcases hjk with rfl | rfl
  · rw [Option.none_or]
    rw [if_neg (by simp)] at h4
    rw [h1] at g4
    by_cases e : k = some n.number
    · rw [if_pos e] at g4 ⊢
      rw [← h4.2]; exact g4
    · rw [if_neg e] at g4 ⊢
      rw [g4.1, g4.2]; exact h4
  · rw [Option.or_none]
    rw [if_neg (by simp)] at g4
    rw [g4.1, g4.2]; exact h4

/-- Two lists that agree element by element, the first of them an append. -/
theorem forall₂_append_left {α : Type} {R : α → α → Prop} {a b l : List α} (h : List.Forall₂ R (a ++ b) l) :
    ∃ x y, List.Forall₂ R a x ∧ List.Forall₂ R b y ∧ l = x ++ y := by
  induction a generalizing l with
  | nil => exact ⟨[], l, .nil, h, rfl⟩
  | cons c a ih =>
    cases h with
    | cons g h =>
      obtain ⟨x, y, h1, h2, rfl⟩ := ih h
      exact ⟨_ :: x, y, .cons g h1, h2, rfl⟩

theorem forall₂_mem_left {α : Type} {R : α → α → Prop} {l m : List α} (h : List.Forall₂ R l m) {a : α} (ha : a ∈ l) :
    ∃ b ∈ m, R a b := by
  induction h with
  | nil => cases ha
  | cons g _ ih =>
    rcases List.mem_cons.mp ha with rfl | ha
    · exact ⟨_, by simp, g⟩
    · obtain ⟨b, hb, h⟩ := ih ha
      exact ⟨b, List.mem_cons_of_mem _ hb, h⟩

theorem forall₂_mem_right {α : Type} {R : α → α → Prop} {l m : List α} (h : List.Forall₂ R l m) {b : α} (hb : b ∈ m) :
    ∃ a ∈ l, R a b := by
  induction h with
  | nil => cases hb
  | cons g _ ih =>
    rcases List.mem_cons.mp hb with rfl | hb
    · exact ⟨_, by simp, g⟩
    · obtain ⟨a, ha, h⟩ := ih hb
      exact ⟨a, List.mem_cons_of_mem _ ha, h⟩

theorem forall₂_trans {α : Type} {R S T : α → α → Prop} (h : ∀ a b c, R a b → S b c → T a c) {l m n : List α}
    (h1 : List.Forall₂ R l m) (h2 : List.Forall₂ S m n) : List.Forall₂ T l n := by
  induction h1 generalizing n with
  | nil => cases h2; exact .nil
  | cons a _ ih =>
    cases h2 with
    | cons b h2 => exact .cons (h _ _ _ a b) (ih h2)

theorem Dispatch.PlacedOnto.refl (d : Dispatch) : d.PlacedOnto none d where
  rest := rfl
  detached _ := rfl
  queue := ⟨d.queue, [], (List.append_nil _).symm, keptAll_refl _, fun _ => rfl, by simp⟩
  overrun := Or.inl rfl
  noOffer _ := ⟨rfl, rfl⟩
  offer _ h := by cases h

theorem Dispatch.PlacedOnto.oneOffer {j k : Option Nat} {d e f : Dispatch} (h : d.PlacedOnto j e)
    (g : e.PlacedOnto k f) : j = none ∨ k = none := by
  cases j with
  | none => exact Or.inl rfl
  | some x =>
    cases k with
    | none => exact Or.inr rfl
    | some y =>
      have a := (h.offer x rfl).2.2.1
      have b := (g.offer y rfl).1
      rw [a] at b; cases b

/-- A number in the queue is still there after placements. -/
theorem Dispatch.PlacedOnto.number {k : Option Nat} {d e : Dispatch} (h : d.PlacedOnto k e) {n : Notice}
    (hn : n ∈ d.queue) : ∃ m ∈ e.queue, m.number = n.number := by
  obtain ⟨old, new, hq, hk, _, _⟩ := h.queue
  obtain ⟨m, hm, h⟩ := forall₂_mem_left hk hn
  exact ⟨m, by rw [hq]; exact List.mem_append_left _ hm, h.1⟩

theorem Dispatch.PlacedOnto.length {k : Option Nat} {d e : Dispatch} (h : d.PlacedOnto k e) :
    d.queue.length ≤ e.queue.length := by
  obtain ⟨old, new, hq, hk, _, _⟩ := h.queue
  rw [hq, List.length_append, hk.length_eq]
  omega

theorem Dispatch.PlacedOnto.trans {j k : Option Nat} {d e f : Dispatch} (h : d.PlacedOnto j e)
    (g : e.PlacedOnto k f) : d.PlacedOnto (j.or k) f := by
  have hjk := h.oneOffer g
  refine ⟨?_, ?_, ?_, ?_, ?_, ?_⟩
  · rw [g.rest, h.rest]
  · intro hd
    have he := h.detached hd
    subst he
    exact g.detached hd
  · obtain ⟨old, new, hq, hk, hn, hf⟩ := h.queue
    obtain ⟨old', new', gq, gk, gn, gf⟩ := g.queue
    rw [hq] at gk
    obtain ⟨a, b, ha, hb, rfl⟩ := forall₂_append_left gk
    refine ⟨a, b ++ new', by rw [gq, List.append_assoc],
      forall₂_trans (fun _ _ _ x y => x.trans y hjk) hk ha, ?_, ?_⟩
    · intro e
      obtain ⟨e1, e2⟩ := List.append_eq_nil_iff.mp e
      subst e1
      have : new = [] := by cases hb; rfl
      exact (gn e2).trans (hn this)
    · intro m hm
      rcases List.mem_append.mp hm with hm | hm
      · obtain ⟨n, hnm, hkp⟩ := forall₂_mem_right hb hm
        obtain ⟨f1, f2, f3⟩ := hf n hnm
        obtain ⟨k1, _, _, k4⟩ := hkp
        refine ⟨fun x hx => by rw [k1]; exact f1 x hx, ?_⟩
        rcases hjk with rfl | rfl
        · rw [Option.none_or, k1]
          rw [decide_eq_false (by simp)] at f2
          rw [f2] at f3 k4
          split at k4
          · next e => rw [k4.1, k4.2, f3]; simp [e]
          · next e => rw [k4.1, k4.2, f3]; simp [e]
        · rw [if_neg (by simp)] at k4
          rw [Option.or_none, k4.1, k4.2, k1]
          exact ⟨f2, f3⟩
      · obtain ⟨f1, f2, f3⟩ := gf m hm
        refine ⟨fun x hx => ?_, ?_, f3⟩
        · obtain ⟨y, hy, e⟩ := h.number hx
          rw [← e]; exact f1 y hy
        · cases j with
          | none => rw [Option.none_or]; exact f2
          | some x =>
            rcases hjk with h0 | rfl
            · cases h0
            · obtain ⟨y, hy, e⟩ := (h.offer x rfl).2.2.2.1
              have : x ≠ m.number := e ▸ f1 y hy
              rw [f2, decide_eq_false (by simp), decide_eq_false (by simpa using this)]
  · rcases g.overrun with o | o
    · rcases h.overrun with o' | ⟨o', ho⟩
      · exact Or.inl (o.trans o')
      · exact Or.inr ⟨o.trans o', ho.trans g.length⟩
    · exact Or.inr o
  · intro e
    obtain ⟨rfl, rfl⟩ : j = none ∧ k = none := by cases j <;> simp_all
    exact ⟨(g.noOffer rfl).1.trans (h.noOffer rfl).1, (g.noOffer rfl).2.trans (h.noOffer rfl).2⟩
  · intro x e
    cases j with
    | none =>
      simp only [Option.none_or] at e
      obtain ⟨a1, a2, a3, a4, a5⟩ := g.offer x e
      obtain ⟨b1, b2⟩ := h.noOffer rfl
      have hr := h.rest
      refine ⟨b1 ▸ a1, ?_, a3, a4, b2 ▸ a5⟩
      rw [hr] at a2; exact a2
    | some y =>
      rcases hjk with h0 | rfl
      · cases h0
      · have : y = x := by simpa using e
        subst this
        obtain ⟨a1, a2, a3, ⟨n, hn, hy⟩, a5⟩ := h.offer y rfl
        obtain ⟨b1, b2⟩ := g.noOffer rfl
        obtain ⟨m, hm, hmn⟩ := g.number hn
        refine ⟨a1, a2, b1.trans a3, ⟨m, hm, hmn.trans hy⟩, ?_⟩
        rw [b2]; exact a5

/-! ### What an arbiter receives -/

theorem Station.SameLine.refl (a : Station) : a.SameLine a := Or.inl rfl

theorem Station.SameLine.trans {a b c : Station} (h : a.SameLine b) (g : b.SameLine c) : a.SameLine c := by
  rcases h with h | ⟨h, x, hx⟩
  · rcases g with g | ⟨g, y, hy⟩
    · exact Or.inl (g.trans h)
    · exact Or.inr ⟨h ▸ g, y, hy⟩
  · rcases g with g | ⟨g, _, _⟩
    · exact Or.inr ⟨h, x, g.trans hx⟩
    · rw [hx] at g; cases g

theorem Station.SameLine.free {a b : Station} (h : a.SameLine b) (hb : b.tx = none) : a.tx = none := by
  rcases h with h | ⟨h, _⟩
  · exact h ▸ hb
  · exact h

theorem Station.SameLine.busy {a b : Station} (h : a.SameLine b) {x : TxFrame} (ha : a.tx = some x) : b.tx = some x := by
  rcases h with h | ⟨h, _⟩
  · exact h.trans ha
  · rw [h] at ha; cases ha

theorem Station.Sent.refl (q : List Notice) (a : Station) : a.Sent none q a :=
  ⟨fun _ => ⟨rfl, .refl a⟩, fun _ h => by cases h⟩

/-- Nothing has been offered: the arbiter may have received a response. -/
theorem Station.Sent.of_line {q : List Notice} {a b : Station} (hw : b.waitNotice = a.waitNotice) (h : a.SameLine b) :
    a.Sent none q b := ⟨fun _ => ⟨hw, h⟩, fun _ h => by cases h⟩

/-- An OFFERED notice stays in the queue while nothing else is offered. -/
theorem Dispatch.PlacedOnto.offeredStays {d e : Dispatch} (h : d.PlacedOnto none e) {n : Notice} (hn : n ∈ d.queue)
    (ho : n.offered = true) : n ∈ e.queue := by
  obtain ⟨old, new, hq, hk, _, _⟩ := h.queue
  obtain ⟨m, hm, h⟩ := forall₂_mem_left hk hn
  rw [hq, ← h.same ho]
  exact List.mem_append_left _ hm

theorem Station.Sent.trans {j k : Option Nat} {d e f : Dispatch} {a b c : Station} (h : a.Sent j e.queue b)
    (g : b.Sent k f.queue c) (hd : d.PlacedOnto j e) (gd : e.PlacedOnto k f) : a.Sent (j.or k) f.queue c := by
  have hjk := hd.oneOffer gd
  refine ⟨fun e => ?_, fun x e => ?_⟩
  · obtain ⟨rfl, rfl⟩ : j = none ∧ k = none := by cases j <;> simp_all
    exact ⟨(g.1 rfl).1.trans (h.1 rfl).1, (h.1 rfl).2.trans (g.1 rfl).2⟩
  · cases j with
    | none =>
      simp only [Option.none_or] at e
      obtain ⟨n, hn, h1, h2, h3⟩ := g.2 x e
      obtain ⟨w, l⟩ := h.1 rfl
      refine ⟨n, hn, h1, h2, ?_⟩
      rcases h3 with ⟨f1, f2, f3⟩ | ⟨f1, f2⟩
      · exact Or.inl ⟨l.free f1, f2, f3.trans w⟩
      · exact Or.inr ⟨f1, l.trans f2⟩
    | some y =>
      rcases hjk with h0 | rfl
      · cases h0
      · have : y = x := by simpa using e
        subst this
        obtain ⟨n, hn, h1, h2, h3⟩ := h.2 y rfl
        obtain ⟨w, l⟩ := g.1 rfl
        refine ⟨n, gd.offeredStays hn h2, h1, h2, ?_⟩
        rcases h3 with ⟨f1, f2, f3⟩ | ⟨f1, f2⟩
        · exact Or.inl ⟨f1, l.busy f2, w.trans f3⟩
        · exact Or.inr ⟨w.trans f1, f2.trans l⟩

/-- A response that takes a free line changes nothing of what the arbiter has received from the controller. -/
theorem Station.Sent.line {k : Option Nat} {q : List Notice} {a b c : Station} (h : a.Sent k q b)
    (hw : c.waitNotice = b.waitNotice) (hl : b.SameLine c) : a.Sent k q c := by
  refine ⟨fun e => ⟨hw.trans (h.1 e).1, (h.1 e).2.trans hl⟩, fun j e => ?_⟩
  obtain ⟨n, hn, h1, h2, h3⟩ := h.2 j e
  refine ⟨n, hn, h1, h2, ?_⟩
  rcases h3 with ⟨f1, f2, f3⟩ | ⟨f1, f2⟩
  · exact Or.inl ⟨f1, hl.busy f2, hw.trans f3⟩
  · exact Or.inr ⟨hw.trans f1, f2.trans hl⟩

/-- Of the arbiter before, only the line and the notice waiting matter. -/
theorem Station.Sent.congr {k : Option Nat} {q : List Notice} {a a' b : Station} (h : a.Sent k q b)
    (ht : a'.tx = a.tx) (hw : a'.waitNotice = a.waitNotice) : a'.Sent k q b := by
  unfold Station.Sent Station.SameLine at *
  rw [ht, hw]
  exact h

/-! ### OnlyEmits -/

/-- A port that has received nothing. -/
theorem port_refl (d : Dispatch) (a : Station) : ∃ k, d.PlacedOnto k d ∧ a.Sent k d.queue a :=
  ⟨none, .refl d, .refl _ a⟩

namespace OnlyEmits

theorem refl (s : State) : OnlyEmits s s where
  rest := rfl
  ports _ := port_refl _ _
  arbiters _ := rfl
  busy _ _ h := h
  flags _ h := h
  archive := rfl
  threshold := rfl

theorem trans {s t u : State} (h : OnlyEmits s t) (k : OnlyEmits t u) : OnlyEmits s u where
  rest := by rw [k.rest, h.rest]
  ports p := by
    obtain ⟨x, h1, h2⟩ := h.ports p
    obtain ⟨y, k1, k2⟩ := k.ports p
    exact ⟨x.or y, h1.trans k1, h2.trans k2 h1 k1⟩
  arbiters p := by rw [k.arbiters p, h.arbiters p]
  busy p x hx := k.busy p x (h.busy p x hx)
  flags f hf := k.flags f (h.flags f hf)
  archive := k.archive.trans h.archive
  threshold := k.threshold.trans h.threshold

/-- A fold of operations that only emit only emits. -/
theorem foldl {α : Type} {f : State → α → State} (hf : ∀ s a, OnlyEmits s (f s a)) (l : List α) (s : State) :
    OnlyEmits s (l.foldl f s) := by
  induction l generalizing s with
  | nil => exact refl s
  | cons a l ih => exact (hf s a).trans (ih _)

theorem points {s t : State} (h : OnlyEmits s t) : t.points = s.points := by
  have e := congrArg State.points h.rest; exact e
theorem map {s t : State} (h : OnlyEmits s t) : t.map = s.map := by
  have e := congrArg State.map h.rest; exact e
theorem inputs {s t : State} (h : OnlyEmits s t) : t.inputs = s.inputs := by
  have e := congrArg State.inputs h.rest; exact e
theorem mode {s t : State} (h : OnlyEmits s t) : t.mode = s.mode := by
  have e := congrArg State.mode h.rest; exact e
theorem link {s t : State} (h : OnlyEmits s t) : t.link = s.link := by
  have e := congrArg State.link h.rest; exact e
theorem inReset {s t : State} (h : OnlyEmits s t) : t.inReset = s.inReset := by
  have e := congrArg State.inReset h.rest; exact e
theorem changeQueue {s t : State} (h : OnlyEmits s t) : t.changeQueue = s.changeQueue := by
  have e := congrArg State.changeQueue h.rest; exact e
theorem engineClaim {s t : State} (h : OnlyEmits s t) : t.engineClaim = s.engineClaim := by
  have e := congrArg State.engineClaim h.rest; exact e
theorem commandCapture {s t : State} (h : OnlyEmits s t) : t.commandCapture = s.commandCapture := by
  have e := congrArg State.commandCapture h.rest; exact e
theorem pending {s t : State} (h : OnlyEmits s t) : t.pending = s.pending := by
  have e := congrArg State.pending h.rest; exact e

theorem now {s t : State} (h : OnlyEmits s t) : t.now = s.now := by rw [h.rest]; rfl
theorem pt {s t : State} (h : OnlyEmits s t) (p : PointNo) : t.pt p = s.pt p := by rw [h.rest]; rfl
theorem ent {s t : State} (h : OnlyEmits s t) (i : InputNo) : t.ent i = s.ent i := by rw [h.rest]; rfl
theorem route {s t : State} (h : OnlyEmits s t) (f : Flag) : t.route f = s.route f := by rw [h.rest]; rfl
theorem paired {s t : State} (h : OnlyEmits s t) (k : PairNo) : t.paired k = s.paired k := by rw [h.rest]; rfl

end OnlyEmits

theorem onlyEmits_handOn (s : State) (r : Raising) : OnlyEmits s (s.handOn r) where
  rest := rfl
  ports _ := port_refl _ _
  arbiters _ := rfl
  busy _ _ h := h
  flags _ h := h
  archive := rfl
  threshold := rfl

/-- Placements without an offer at one port. -/
theorem onlyEmits_setDsp {s : State} {p : Port} {d : Dispatch} (h : (s.dsp p).PlacedOnto none d) :
    OnlyEmits s (s.setDsp p d) where
  rest := rfl
  ports q := by
    rw [s.dsp_setDsp p q d]
    split
    · next e => subst e; exact ⟨none, h, .refl _ _⟩
    · exact port_refl _ _
  arbiters _ := rfl
  busy _ _ h := h
  flags _ h := h
  archive := rfl
  threshold := rfl

theorem onlyEmits_log {s : State} {l : EventLog} (ha : l.archive = s.log.archive) (ht : l.threshold = s.log.threshold) :
    OnlyEmits s { s with log := l } where
  rest := rfl
  ports _ := port_refl _ _
  arbiters _ := rfl
  busy _ _ h := h
  flags _ h := h
  archive := ha
  threshold := ht

theorem onlyEmits_ite {s t u : State} {c : Prop} [Decidable c] (h : OnlyEmits s t) (k : OnlyEmits s u) :
    OnlyEmits s (if c then t else u) := by
  split
  · exact h
  · exact k

/-! ### Event Record -/

theorem onlyEmits_testLogHigh (s : State) (b : Bool) (r : Option Port) : OnlyEmits s (s.testLogHigh b r) := by
  unfold State.testLogHigh
  exact onlyEmits_ite (onlyEmits_handOn _ _) (.refl _)

theorem onlyEmits_makeRoom (s : State) (silent : Bool) : OnlyEmits s (s.makeRoom silent) := by
  unfold State.makeRoom
  split
  · exact .refl _
  · refine onlyEmits_ite (.refl _) (onlyEmits_ite ?_ (onlyEmits_log rfl rfl))
    refine onlyEmits_ite (onlyEmits_log rfl rfl) (.trans ?_ (onlyEmits_handOn _ _))
    exact onlyEmits_log rfl rfl

theorem onlyEmits_append (s : State) (silent : Bool) (d : RecordDraft) : OnlyEmits s (s.append silent d) := by
  refine .trans ?_ (onlyEmits_testLogHigh _ _ _)
  exact (onlyEmits_makeRoom s silent).trans (onlyEmits_log rfl rfl)

/-! ### Notices -/

/-- The number that `noticeSucc` reaches from `n` in `i` steps, of fewer than a round. -/
def numberAfter (n i : Nat) : Nat := if 65535 < n then n + i else if n + i ≤ 65535 then n + i else n + i - 65535

theorem numberAfter_succ (n i : Nat) (hi : i < 65534) : numberAfter (noticeSucc n) i = numberAfter n (i + 1) := by
  unfold numberAfter noticeSucc Config.noticeMax
  split_ifs <;> omega

theorem numberAfter_inj {n i j : Nat} (hi : i < 65534) (hj : j < 65534) (h : numberAfter n i = numberAfter n j) :
    i = j := by
  unfold numberAfter at h
  split_ifs at h <;> omega

/-- The search for a number tests one after another, and answers with one that is not queued unless all of them are. -/
theorem freshNumber_spec (q : List Notice) (k n : Nat) (hk : k < 65534) :
    (∀ m ∈ q, m.number ≠ freshNumber q k n) ∨ ∀ i, i < k → ∃ m ∈ q, m.number = numberAfter n i := by
  induction k generalizing n with
  | zero => exact Or.inr fun i hi => by omega
  | succ k ih =>
    unfold freshNumber
    split
    · next h =>
      rcases ih (noticeSucc n) (by omega) with g | g
      · exact Or.inl g
      · refine Or.inr fun i hi => ?_
        cases i with
        | zero =>
          obtain ⟨m, hm, e⟩ := List.any_eq_true.mp h
          refine ⟨m, hm, ?_⟩
          rw [beq_iff_eq.mp e]
          unfold numberAfter
          split_ifs <;> omega
        | succ i =>
          obtain ⟨m, hm, e⟩ := g i (by omega)
          exact ⟨m, hm, by rw [e, numberAfter_succ _ _ (by omega)]⟩
    · next h =>
      refine Or.inl fun m hm e => h (List.any_eq_true.mpr ⟨m, hm, by simp [e]⟩)

/-- The number found is the one to which the count has come after passing over numbers that are queued, each of them (R70). -/
theorem freshNumber_passed (q : List Notice) (k n : Nat) :
    ∃ i, freshNumber q k n = noticeSucc^[i] n ∧ ∀ j, j < i → ∃ m ∈ q, m.number = noticeSucc^[j] n := by
  induction k generalizing n with
  | zero => exact ⟨0, rfl, fun j hj => absurd hj (Nat.not_lt_zero j)⟩
  | succ k ih =>
    unfold freshNumber
    split
    · next h =>
      obtain ⟨i, h1, h2⟩ := ih (noticeSucc n)
      refine ⟨i + 1, h1, fun j hj => ?_⟩
      cases j with
      | zero =>
        obtain ⟨m, hm, e⟩ := List.any_eq_true.mp h
        exact ⟨m, hm, beq_iff_eq.mp e⟩
      | succ j => exact h2 j (by omega)
    · exact ⟨0, rfl, fun j hj => absurd hj (Nat.not_lt_zero j)⟩

/-- A new notice takes a number that no queued notice holds (R70). -/
theorem freshNumber_fresh {q : List Notice} (hq : q.length < Config.noticeCapacity) (n : Nat) :
    ∀ m ∈ q, m.number ≠ freshNumber q (Config.noticeCapacity + 1) n := by
  rcases freshNumber_spec q (Config.noticeCapacity + 1) n (by decide) with h | h
  · exact h
  · exfalso
    have hnd : ((List.range (Config.noticeCapacity + 1)).map (numberAfter n)).Nodup := by
      refine List.Nodup.map_on (fun i hi j hj e => ?_) List.nodup_range
      have hi := List.mem_range.mp hi
      have hj := List.mem_range.mp hj
      simp only [Config.noticeCapacity] at hi hj
      exact numberAfter_inj (by omega) (by omega) e
    have hsub : ((List.range (Config.noticeCapacity + 1)).map (numberAfter n)) ⊆ q.map Notice.number := by
      intro x hx
      obtain ⟨i, hi, rfl⟩ := List.mem_map.mp hx
      obtain ⟨m, hm, e⟩ := h i (List.mem_range.mp hi)
      exact List.mem_map.mpr ⟨m, hm, e⟩
    have := (List.subperm_of_subset hnd hsub).length_le
    simp at this
    omega

/-- A notice selected is in the queue and WAITING. -/
theorem selectAmong_mem {d : Dispatch} {ok : Notice → Bool} {n : Notice} (h : d.selectAmong ok = some n) :
    n ∈ d.queue ∧ ok n = true := by
  have key : ∀ (l : List Notice) (f : Option Notice), l.foldl (betterNotice d.lowest) f = some n →
      f = some n ∨ n ∈ l := by
    intro l
    induction l with
    | nil => intro f h; exact Or.inl h
    | cons a l ih =>
      intro f h
      rcases ih _ h with h | h
      · unfold betterNotice at h
        split at h
        · exact Or.inr (by simp [Option.some.inj h])
        · split at h
          · exact Or.inr (by simp [Option.some.inj h])
          · exact Or.inl h
      · exact Or.inr (List.mem_cons_of_mem _ h)
  rcases key _ _ h with h | h
  · cases h
  · have := List.mem_filter.mp h
    simp only [Bool.and_eq_true] at this
    exact ⟨this.1, this.2.1⟩

theorem offer_count (n : Notice) : n.offer.count = min (n.count + 1) 8 := by
  unfold Notice.offer
  dsimp only
  split <;> omega

/-- The offer of a queued notice is a placement with an offer. -/
theorem placedOnto_afterOffer {d : Dispatch} {n : Notice} (hs : d.state = .idle) (hp : d.polled = false)
    (hn : n ∈ d.queue) (stamp : TimeStamp) : d.PlacedOnto (some n.number) (d.afterOffer n stamp) where
  rest := rfl
  detached h := by rw [hs] at h; cases h
  queue := by
    refine ⟨updateNotice n.number Notice.offer d.queue, [], (List.append_nil _).symm, ?_, fun _ => rfl, by simp⟩
    unfold updateNotice
    rw [List.forall₂_map_right_iff]
    refine List.forall₂_same.mpr fun m _ => ?_
    split
    · next e =>
      refine ⟨rfl, rfl, fun _ => ⟨rfl, rfl⟩, ?_⟩
      rw [if_pos (by rw [e])]
      exact ⟨rfl, offer_count m⟩
    · next e =>
      refine ⟨rfl, rfl, fun _ => ⟨rfl, rfl⟩, ?_⟩
      rw [if_neg (by simpa using fun h : n.number = m.number => e h.symm)]
      exact ⟨rfl, rfl⟩
  overrun := Or.inl rfl
  noOffer h := by cases h
  offer j h := by
    have : n.number = j := Option.some.inj h
    subst this
    refine ⟨hs, hp, rfl, ⟨n.offer, ?_, rfl⟩, ?_⟩
    · show n.offer ∈ updateNotice n.number Notice.offer d.queue
      exact List.mem_map.mpr ⟨n, hn, by simp⟩
    · show if d.failure.locked = true then _ else _
      unfold Dispatch.afterOffer FailureRec.load
      dsimp only
      split
      · rfl
      · exact ⟨rfl, rfl⟩

theorem onlyEmits_testOffer (s : State) (p : Port) : OnlyEmits s (s.testOffer p) := by
  unfold State.testOffer
  dsimp only
  split
  · next h =>
    split
    · exact .refl _
    · next n hs =>
      have hn := (selectAmong_mem hs).1
      have hp := placedOnto_afterOffer h.1 h.2 hn s.now
      have hm : n.offer ∈ ((s.dsp p).afterOffer n s.now).queue := List.mem_map.mpr ⟨n, hn, by simp⟩
      unfold State.handNotice
      dsimp only
      rw [State.stn_setDsp]
      split
      · next htx =>
        refine ⟨rfl, fun q => ?_, fun q => ?_, fun q x hx => ?_, fun _ h => h, rfl, rfl⟩
        · rw [State.dsp_setStn, State.dsp_setDsp, State.stn_setStn]
          split
          · next e =>
            subst e
            refine ⟨_, hp, (fun h => by cases h), fun j hj => ?_⟩
            exact ⟨n.offer, hm, Option.some.inj hj, rfl, Or.inl ⟨htx, rfl, rfl⟩⟩
          · exact port_refl _ _
        · rw [State.stn_setStn]
          split
          · next e => subst e; rfl
          · rfl
        · rw [State.stn_setStn]
          split
          · next e => subst e; rw [htx] at hx; cases hx
          · exact hx
      · next y htx =>
        refine ⟨rfl, fun q => ?_, fun q => ?_, fun q x hx => ?_, fun _ h => h, rfl, rfl⟩
        · rw [State.dsp_setStn, State.dsp_setDsp, State.stn_setStn]
          split
          · next e =>
            subst e
            refine ⟨_, hp, (fun h => by cases h), fun j hj => ?_⟩
            exact ⟨n.offer, hm, Option.some.inj hj, rfl, Or.inr ⟨rfl, Or.inl rfl⟩⟩
          · exact port_refl _ _
        · rw [State.stn_setStn]
          split
          · next e => subst e; rfl
          · rfl
        · rw [State.stn_setStn]
          split
          · next e => subst e; exact hx
          · exact hx
  · exact .refl _

theorem absorb_kept (c : NoticeContent) (cls : PClass) (n : Notice) : n.Kept none (n.absorb c cls) := by
  unfold Notice.absorb
  split
  · next h =>
    unfold coalescesInto at h
    simp only [Bool.and_eq_true, beq_iff_eq] at h
    exact ⟨rfl, h.2.symm, (fun e => by rw [h.1] at e; cases e), by simp⟩
  · exact .refl n

theorem onlyEmits_enqueue (s : State) (p : Port) (c : NoticeContent) (k : PClass) : OnlyEmits s (s.enqueue p c k) := by
  unfold State.enqueue
  dsimp only
  split
  · exact .refl _
  · next h =>
    have hd : ∀ {d : Dispatch}, (s.dsp p).state = .detached → d = s.dsp p := fun e => absurd e h
    split
    · refine onlyEmits_setDsp ⟨rfl, hd, ⟨_, [], (List.append_nil _).symm, ?_, fun _ => rfl, by simp⟩, Or.inl rfl, fun _ => ⟨rfl, rfl⟩,
        fun _ e => by cases e⟩
      rw [List.forall₂_map_right_iff]
      exact List.forall₂_same.mpr fun n _ => absorb_kept c k n
    · split
      · next hl =>
        refine onlyEmits_setDsp ⟨rfl, hd, ⟨_, [_], rfl, keptAll_refl _, (fun e => nomatch e), ?_⟩, Or.inl rfl,
          fun _ => ⟨rfl, rfl⟩, fun _ e => by cases e⟩
        intro m hm
        rw [List.mem_singleton] at hm
        subst hm
        exact ⟨freshNumber_fresh hl _, by simp, rfl⟩
      · next hl =>
        refine .trans ?_ (onlyEmits_handOn _ _)
        refine onlyEmits_setDsp ⟨rfl, hd, ⟨_, [], (List.append_nil _).symm, keptAll_refl _, fun _ => rfl, by simp⟩,
          Or.inr ⟨rfl, ?_⟩, fun _ => ⟨rfl, rfl⟩, fun _ e => by cases e⟩
        simp only [Config.noticeCapacity] at hl
        show 24 ≤ (s.dsp p).queue.length
        omega

theorem onlyEmits_place (s : State) (p : Port) (c : NoticeContent) (k : PClass) : OnlyEmits s (s.place p c k) :=
  (onlyEmits_enqueue s p c k).trans (onlyEmits_testOffer _ _)

theorem onlyEmits_placeMode (s : State) (m : Mode) : OnlyEmits s (s.placeMode m) :=
  .foldl (fun s p => onlyEmits_place s p _ _) _ _

/-! ### Raisings -/

theorem hasBit_joinBit_of {w : Nat} {m : BitVec w} {n k : Nat} (h : hasBit m k = true) : hasBit (joinBit m n) k = true := by
  simp [hasBit, joinBit] at *
  exact Or.inl h

theorem onlyEmits_raise (s : State) (r : Raising) : OnlyEmits s (s.raise r) := by
  unfold State.raise
  dsimp only
  have h1 : OnlyEmits s { s with flags := joinBit s.flags r.flag.code.val } :=
    { rest := rfl, ports := fun _ => port_refl _ _, arbiters := fun _ => rfl, busy := fun _ _ h => h
      flags := fun _ h => hasBit_joinBit_of h, archive := rfl, threshold := rfl }
  have h2 := h1.trans (onlyEmits_append _ (r.flag == .logLoss) (r.draft (s.flagSet r.flag)
    ({ s with flags := joinBit s.flags r.flag.code.val } : State).now))
  exact onlyEmits_ite (h2.trans (onlyEmits_place _ _ _ _)) h2

theorem onlyEmits_raisings (s : State) (l : List Raising) : OnlyEmits s { s with raisings := l } where
  rest := rfl
  ports _ := port_refl _ _
  arbiters _ := rfl
  busy _ _ h := h
  flags _ h := h
  archive := rfl
  threshold := rfl

theorem onlyEmits_drain (n : Nat) (s : State) : OnlyEmits s (s.drain n) := by
  induction n generalizing s with
  | zero => exact onlyEmits_raisings _ _
  | succ n ih =>
    unfold State.drain
    split
    · exact .refl _
    · exact ((onlyEmits_raisings _ _).trans (onlyEmits_raise _ _)).trans (ih _)

theorem onlyEmits_settle (s : State) : OnlyEmits s s.settle := onlyEmits_drain _ _

/-- Where no raising waits the end of a command does nothing. -/
@[simp] theorem settle_of_none {s : State} (h : s.raisings = []) : s.settle = s := by
  unfold State.settle State.drainFuel
  rw [h]
  show State.drain (63 + 1) s = s
  unfold State.drain
  rw [h]

theorem drain_raisings (n : Nat) (s : State) : (s.drain n).raisings = [] := by
  induction n generalizing s with
  | zero => rfl
  | succ n ih =>
    unfold State.drain
    split
    · next h => exact h
    · exact ih _

/-- No raising waits at the end of a command. -/
@[simp] theorem settle_raisings (s : State) : s.settle.raisings = [] := drain_raisings _ _

end Sys2Proof.Machine
end

