-- ==== Sys2Proof/Laws/Record.lean ====
section
/-! SUPPORT. What reaches the ring of the Event Record: `Appends` is kept by every operation that appends, places or
raises, and adds up along a command. -/

namespace Sys2Proof.Machine

/-! ### Drafts and numbers -/

theorem repeat_add {α : Type} (f : α → α) (m n : Nat) (a : α) :
    Nat.repeat f (m + n) a = Nat.repeat f n (Nat.repeat f m a) := by
  induction n with
  | zero => rfl
  | succ n ih =>
    show f (Nat.repeat f (m + n) a) = f (Nat.repeat f n (Nat.repeat f m a))
    rw [ih]

theorem numberFrom_append (n : Nat) (a b : List RecordDraft) :
    numberFrom n (a ++ b) = numberFrom n a ++ numberFrom (Nat.repeat seqSucc a.length n) b := by
  induction a generalizing n with
  | nil => rfl
  | cons d a ih =>
    have h : Nat.repeat seqSucc (d :: a).length n = Nat.repeat seqSucc a.length (seqSucc n) := by
      rw [List.length_cons, Nat.add_comm, repeat_add]; rfl
    rw [h]
    simp [numberFrom, ih]

theorem length_newestRecords (l : List EventRecord) : (newestRecords l).length ≤ 1024 := by
  simp [newestRecords]; omega

theorem newestRecords_of_le {l : List EventRecord} (h : l.length ≤ 1024) : newestRecords l = l := by
  have : l.length - 1024 = 0 := by omega
  simp [newestRecords, this]

/-- Keeping the newest twice is keeping them once. -/
theorem newestRecords_append (a b : List EventRecord) :
    newestRecords (newestRecords a ++ b) = newestRecords (a ++ b) := by
  unfold newestRecords
  by_cases h : a.length ≤ 1024
  · have : a.length - 1024 = 0 := by omega
    simp [this]
  · have hl : (a.drop (a.length - 1024)).length = 1024 := by simp; omega
    rw [List.length_append, hl, List.length_append]
    have e1 : a.drop (a.length - 1024) ++ b = (a ++ b).drop (a.length - 1024) := by
      rw [List.drop_append_of_le_length (by omega)]
    have e2 : a.length - 1024 + (1024 + b.length - 1024) = a.length + b.length - 1024 := by omega
    rw [e1, List.drop_drop, e2]

/-! ### Appends -/

theorem appends_nil {s t : State} (h : t.log = s.log) (hb : s.log.ring.length ≤ 1024) : Appends s t [] := by
  refine ⟨?_, ?_⟩
  · simp [h, numberFrom, newestRecords_of_le hb]
  · simp [h, Nat.repeat]

theorem Appends.length {s t : State} {ds : List RecordDraft} (h : Appends s t ds) : t.log.ring.length ≤ 1024 := by
  rw [h.1]; exact length_newestRecords _

theorem Appends.trans {s t u : State} {a b : List RecordDraft} (h : Appends s t a) (k : Appends t u b) :
    Appends s u (a ++ b) := by
  refine ⟨?_, ?_⟩
  · rw [k.1, h.1, h.2, newestRecords_append, numberFrom_append, List.append_assoc]
  · rw [k.2, h.2, List.length_append, repeat_add]

/-- Only the log of the two states counts. -/
theorem Appends.congr {s t s' t' : State} {ds : List RecordDraft} (h : Appends s t ds) (hs : s'.log = s.log)
    (ht : t'.log = t.log) : Appends s' t' ds := by
  unfold Appends at *
  rw [hs, ht]; exact h

theorem testLogHigh_log (s : State) (b : Bool) (r : Option Port) : (s.testLogHigh b r).log = s.log := by
  unfold State.testLogHigh
  split <;> rfl

theorem makeRoom_next (s : State) (silent : Bool) : (s.makeRoom silent).log.next = s.log.next := by
  unfold State.makeRoom
  split
  · rfl
  · dsimp only
    split
    · rfl
    · split
      · split <;> rfl
      · rfl

theorem makeRoom_ring (s : State) (silent : Bool) :
    (s.makeRoom silent).log.ring = if s.log.ring.length < 1024 then s.log.ring else s.log.ring.tail := by
  unfold State.makeRoom Config.recordCapacity
  split
  · next h => simp [h]
  · next h =>
    rw [h]
    dsimp only [List.tail_cons]
    split
    · exact h
    · split
      · split <;> rfl
      · rfl

/-- An append puts the draft into the ring under the next number (R102). -/
theorem appends_append {s : State} (hb : s.log.ring.length ≤ 1024) (silent : Bool) (d : RecordDraft) :
    Appends s (s.append silent d) [d] := by
  refine ⟨?_, ?_⟩
  · show (State.testLogHigh _ _ _).log.ring = _
    rw [testLogHigh_log]
    show (s.makeRoom silent).log.ring ++ [d.numbered (s.makeRoom silent).log.next] = _
    rw [makeRoom_next, makeRoom_ring]
    unfold newestRecords
    simp only [numberFrom, List.length_append, List.length_cons, List.length_nil]
    split
    · next h =>
      have : s.log.ring.length + (0 + 1) - 1024 = 0 := by omega
      rw [this, List.drop_zero]
    · next h =>
      have : s.log.ring.length + (0 + 1) - 1024 = 1 := by omega
      rw [this, List.drop_append_of_le_length (by omega), List.drop_one]
  · show (State.testLogHigh _ _ _).log.next = _
    rw [testLogHigh_log]
    show seqSucc (s.makeRoom silent).log.next = _
    rw [makeRoom_next]; rfl

/-! ### What leaves the Event Record alone -/

@[simp] theorem handNotice_log (s : State) (p : Port) (b : List Byte) : (s.handNotice p b).log = s.log := by
  unfold State.handNotice
  dsimp only
  split <;> rfl

@[simp] theorem handResponse_log (s : State) (p : Port) (b : List Byte) : (s.handResponse p b).log = s.log := by
  unfold State.handResponse
  dsimp only
  split <;> rfl

@[simp] theorem respond_log (s : State) (p : Port) (f : Frame) (st : Status) (r : List Byte) :
    (s.respond p f st r).log = s.log := by
  unfold State.respond
  exact (handResponse_log _ _ _).trans rfl

@[simp] theorem testOffer_log (s : State) (p : Port) : (s.testOffer p).log = s.log := by
  unfold State.testOffer
  dsimp only
  split
  · split
    · rfl
    · exact (handNotice_log _ _ _).trans rfl
  · rfl

@[simp] theorem enqueue_log (s : State) (p : Port) (c : NoticeContent) (k : PClass) : (s.enqueue p c k).log = s.log := by
  unfold State.enqueue
  dsimp only
  split
  · rfl
  · split
    · rfl
    · split <;> rfl

@[simp] theorem place_log (s : State) (p : Port) (c : NoticeContent) (k : PClass) : (s.place p c k).log = s.log :=
  (testOffer_log _ _).trans (enqueue_log _ _ _ _)

/-- A fold of operations that leave the Event Record alone leaves it alone. -/
theorem foldl_log {α : Type} {f : State → α → State} (hf : ∀ s a, (f s a).log = s.log) (l : List α) (s : State) :
    (l.foldl f s).log = s.log := by
  induction l generalizing s with
  | nil => rfl
  | cons a l ih => exact (ih _).trans (hf s a)

@[simp] theorem placeMode_log (s : State) (m : Mode) : (s.placeMode m).log = s.log :=
  foldl_log (fun s p => place_log s p _ _) _ _

/-! ### Records that follow -/

namespace AppendsThen

variable {s t u : State} {P Q : RecordDraft → Prop} {ds : List RecordDraft}

theorem none (h : t.log = s.log) (hb : s.log.ring.length ≤ 1024) : AppendsThen s t [] P :=
  ⟨[], appends_nil h hb, by simp⟩

theorem one {d : RecordDraft} (h : Appends s t [d]) (hd : P d) : AppendsThen s t [] P :=
  ⟨[d], h, by simpa using hd⟩

theorem length (h : AppendsThen s t ds P) : t.log.ring.length ≤ 1024 := by
  obtain ⟨_, h, _⟩ := h
  exact h.length

theorem mono (h : AppendsThen s t ds P) (k : ∀ d, P d → Q d) : AppendsThen s t ds Q := by
  obtain ⟨m, h1, h2⟩ := h
  exact ⟨m, h1, fun d hd => k d (h2 d hd)⟩

theorem trans (h : AppendsThen s t ds P) (k : AppendsThen t u [] P) : AppendsThen s u ds P := by
  obtain ⟨a, h1, h2⟩ := h
  obtain ⟨b, k1, k2⟩ := k
  refine ⟨a ++ b, ?_, ?_⟩
  · rw [← List.append_assoc]; exact h1.trans k1
  · intro d hd
    rcases List.mem_append.mp hd with hd | hd
    · exact h2 d hd
    · exact k2 d hd

theorem congr {s' t' : State} (h : AppendsThen s t ds P) (hs : s'.log = s.log) (ht : t'.log = t.log) :
    AppendsThen s' t' ds P := by
  obtain ⟨m, h1, h2⟩ := h
  exact ⟨m, h1.congr hs ht, h2⟩

end AppendsThen

theorem Appends.followed {s t u : State} {ds : List RecordDraft} {P : RecordDraft → Prop} (h : Appends s t ds)
    (k : AppendsThen t u [] P) : AppendsThen s u ds P := by
  obtain ⟨m, k1, k2⟩ := k
  exact ⟨m, h.trans k1, k2⟩

theorem Appends.prepend {s t u : State} {ds es : List RecordDraft} {P : RecordDraft → Prop} (h : Appends s t ds)
    (k : AppendsThen t u es P) : AppendsThen s u (ds ++ es) P := by
  obtain ⟨m, k1, k2⟩ := k
  refine ⟨m, ?_, k2⟩
  rw [List.append_assoc]; exact h.trans k1

/-! ### Raisings -/

/-- One raising appends its SYSTEM record (R155). -/
theorem appends_raise {s : State} (hb : s.log.ring.length ≤ 1024) (r : Raising) :
    Appends s (s.raise r) [r.draft (s.flagSet r.flag) s.now] := by
  have h : Appends s (({ s with flags := joinBit s.flags r.flag.code.val } : State).append (r.flag == .logLoss)
      (r.draft (s.flagSet r.flag) s.now)) [r.draft (s.flagSet r.flag) s.now] :=
    (appends_append (s := { s with flags := joinBit s.flags r.flag.code.val }) hb (r.flag == .logLoss)
      (r.draft (s.flagSet r.flag) s.now)).congr rfl rfl
  unfold State.raise
  dsimp only
  split
  · exact h.congr rfl (place_log _ _ _ _)
  · exact h

theorem appendsFirst_drain (n : Nat) {s : State} (hb : s.log.ring.length ≤ 1024) : AppendsFirst s (s.drain n) [] := by
  induction n generalizing s with
  | zero => exact .none rfl hb
  | succ n ih =>
    unfold State.drain
    split
    · exact .none rfl hb
    · next r rest _ =>
      have h := appends_raise (s := { s with raisings := rest }) hb r
      have h' : AppendsFirst s (({ s with raisings := rest } : State).raise r) [] :=
        .one (h.congr rfl rfl) rfl
      exact h'.trans (ih h.length)

/-- The end of a command appends the SYSTEM records of raisings alone (R155, R156). -/
theorem appendsFirst_settle {s : State} (hb : s.log.ring.length ≤ 1024) : AppendsFirst s s.settle [] :=
  appendsFirst_drain _ hb

end Sys2Proof.Machine
end

