-- ==== Sys2Proof/Laws/Raise.lean ====
section
/-! SUPPORT. What the end of a command does with the raisings that wait: they only grow while a block emits, each one that
waits sets its flag, and those of different flags at the head append the first records in their order (`drain_firsts`). -/

namespace Sys2Proof.Machine

/-- Raisings have been handed on, behind those that waited. -/
def Grows (s t : State) : Prop := ∃ more, t.raisings = s.raisings ++ more

namespace Grows

variable {s t u : State}

theorem refl (s : State) : Grows s s := ⟨[], by simp⟩

theorem same (h : t.raisings = s.raisings) : Grows s t := ⟨[], by simp [h]⟩

theorem trans (h : Grows s t) (k : Grows t u) : Grows s u := by
  obtain ⟨a, h⟩ := h
  obtain ⟨b, k⟩ := k
  exact ⟨a ++ b, by rw [k, h, List.append_assoc]⟩

theorem handOn (s : State) (r : Raising) : Grows s (s.handOn r) := ⟨[r], rfl⟩

theorem ite {c : Prop} [Decidable c] (h : Grows s t) (k : Grows s u) : Grows s (if c then t else u) := by
  split
  · exact h
  · exact k

end Grows

@[simp] theorem handNotice_raisings (s : State) (p : Port) (b : List Byte) :
    (s.handNotice p b).raisings = s.raisings := by
  unfold State.handNotice
  dsimp only
  split <;> rfl

@[simp] theorem handResponse_raisings (s : State) (p : Port) (b : List Byte) :
    (s.handResponse p b).raisings = s.raisings := by
  unfold State.handResponse
  dsimp only
  split <;> rfl

@[simp] theorem respond_raisings (s : State) (p : Port) (f : Frame) (st : Status) (r : List Byte) :
    (s.respond p f st r).raisings = s.raisings := by
  unfold State.respond
  exact (handResponse_raisings _ _ _).trans rfl

@[simp] theorem testOffer_raisings (s : State) (p : Port) : (s.testOffer p).raisings = s.raisings := by
  unfold State.testOffer
  dsimp only
  split
  · split
    · rfl
    · exact (handNotice_raisings _ _ _).trans rfl
  · rfl

theorem grows_testLogHigh (s : State) (b : Bool) (r : Option Port) : Grows s (s.testLogHigh b r) := by
  unfold State.testLogHigh
  exact .ite (.handOn _ _) (.refl _)

theorem grows_makeRoom (s : State) (silent : Bool) : Grows s (s.makeRoom silent) := by
  unfold State.makeRoom
  split
  · exact .refl _
  · refine .ite (.refl _) (.ite ?_ (.same rfl))
    exact .ite (.same rfl) (.trans (.same rfl) (.handOn _ _))

theorem grows_append (s : State) (silent : Bool) (d : RecordDraft) : Grows s (s.append silent d) := by
  refine .trans ?_ (grows_testLogHigh _ _ _)
  exact (grows_makeRoom s silent).trans (.same rfl)

theorem grows_enqueue (s : State) (p : Port) (c : NoticeContent) (k : PClass) : Grows s (s.enqueue p c k) := by
  unfold State.enqueue
  dsimp only
  exact .ite (.refl _) (.ite (.same rfl) (.ite (.same rfl) (.trans (.same rfl) (.handOn _ _))))

theorem grows_place (s : State) (p : Port) (c : NoticeContent) (k : PClass) : Grows s (s.place p c k) :=
  (grows_enqueue s p c k).trans (.same (testOffer_raisings _ _))

theorem grows_raise (s : State) (r : Raising) : Grows s (s.raise r) := by
  have h : Grows s (({ s with flags := joinBit s.flags r.flag.code.val } : State).append (r.flag == .logLoss)
      (r.draft (s.flagSet r.flag) s.now)) := .trans (.same rfl) (grows_append _ _ _)
  unfold State.raise
  dsimp only
  exact .ite (h.trans (grows_place _ _ _ _)) h

/-- A raising sets its flag (R155). -/
theorem raise_flagSet (s : State) (r : Raising) : (s.raise r).flagSet r.flag = true := by
  have h0 : ({ s with flags := joinBit s.flags r.flag.code.val } : State).flagSet r.flag = true := by
    simp [State.flagSet, hasBit, joinBit]
  have h1 := (onlyEmits_append { s with flags := joinBit s.flags r.flag.code.val } (r.flag == .logLoss)
    (r.draft (s.flagSet r.flag) s.now)).flags _ h0
  unfold State.raise
  dsimp only
  split
  · exact (onlyEmits_place _ _ _ _).flags _ h1
  · exact h1

/-- Every raising that waits within the fuel has set its flag at the end. -/
theorem drain_flagSet {r : Raising} (n : Nat) (s : State) (h : r ∈ s.raisings.take n) :
    (s.drain n).flagSet r.flag = true := by
  induction n generalizing s with
  | zero => simp at h
  | succ n ih =>
    unfold State.drain
    split
    · next e => rw [e] at h; simp at h
    · next q rest e =>
      rw [e, List.take_succ_cons, List.mem_cons] at h
      rcases h with h | h
      · subst h
        exact (onlyEmits_drain _ _).flags _ (raise_flagSet _ _)
      · refine ih _ ?_
        obtain ⟨more, hm⟩ := grows_raise { s with raisings := rest } q
        rw [hm, List.take_append]
        exact List.mem_append_left _ h

/-- A raising that waits at the end of a command sets its flag (R155). -/
theorem settle_flagSet {s : State} {r : Raising} (h : r ∈ s.raisings) : s.settle.flagSet r.flag = true := by
  refine drain_flagSet _ _ ?_
  rw [List.take_of_length_le (by unfold State.drainFuel; omega)]
  exact h

/-- The first raising that waits appends the first record at the end of a command. -/
theorem settle_first {s : State} {r : Raising} {rest : List Raising} (h : s.raisings = r :: rest)
    (hb : s.log.ring.length ≤ 1024) : AppendsFirst s s.settle [r.draft (s.flagSet r.flag) s.now] := by
  have e : s.drainFuel = (4 * rest.length + 67) + 1 := by unfold State.drainFuel; rw [h, List.length_cons]; omega
  unfold State.settle
  rw [e]
  unfold State.drain
  rw [h]
  dsimp only
  have h1 := appends_raise (s := { s with raisings := rest }) hb r
  refine Appends.followed (h1.congr rfl rfl) (appendsFirst_drain _ h1.length)

/-! ### Several raisings -/

@[simp] theorem testLogHigh_flags (s : State) (b : Bool) (r : Option Port) : (s.testLogHigh b r).flags = s.flags := by
  unfold State.testLogHigh
  split <;> rfl

@[simp] theorem makeRoom_flags (s : State) (silent : Bool) : (s.makeRoom silent).flags = s.flags := by
  unfold State.makeRoom
  split
  · rfl
  · dsimp only
    split
    · rfl
    · split
      · split <;> rfl
      · rfl

@[simp] theorem append_flags (s : State) (silent : Bool) (d : RecordDraft) : (s.append silent d).flags = s.flags := by
  unfold State.append
  rw [testLogHigh_flags]
  exact makeRoom_flags s silent

@[simp] theorem place_flags (s : State) (p : Port) (c : NoticeContent) (k : PClass) :
    (s.place p c k).flags = s.flags := by
  have h1 : (s.enqueue p c k).flags = s.flags := by
    unfold State.enqueue
    dsimp only
    split
    · rfl
    · split
      · rfl
      · split <;> rfl
  have h2 : ∀ (t : State) (b : List Byte), (t.handNotice p b).flags = t.flags := by
    intro t b
    unfold State.handNotice
    dsimp only
    split <;> rfl
  refine Eq.trans ?_ h1
  show ((s.enqueue p c k).testOffer p).flags = _
  unfold State.testOffer
  dsimp only
  split
  · split
    · rfl
    · exact (h2 _ _).trans rfl
  · rfl

/-- A raising changes no flag but its own (R155). -/
theorem raise_flagSet_of_ne (s : State) (r : Raising) {f : Flag} (h : f ≠ r.flag) :
    (s.raise r).flagSet f = s.flagSet f := by
  have hc : f.code.val ≠ r.flag.code.val := by
    generalize r.flag = g at h
    cases f <;> cases g <;> first | exact absurd rfl h | decide
  have hj : hasBit (joinBit s.flags r.flag.code.val) f.code.val = s.flagSet f := by
    simp [State.flagSet, hasBit, joinBit, hc]
  unfold State.raise
  dsimp only
  split <;> simpa [State.flagSet] using hj

/-- Raisings of different flags at the head of those that wait append the first records, in their order (R103, R155). -/
theorem drain_firsts (l : List Raising) (hn : (l.map Raising.flag).Nodup) (n : Nat) (hl : l.length ≤ n) {s : State}
    {more : List Raising} (h : s.raisings = l ++ more) (hb : s.log.ring.length ≤ 1024) :
    AppendsFirst s (s.drain n) (l.map fun r => r.draft (s.flagSet r.flag) s.now) := by
  induction l generalizing s n more with
  | nil => exact appendsFirst_drain n hb
  | cons r l ih =>
    rw [List.map_cons, List.nodup_cons] at hn
    cases n with
    | zero => simp at hl
    | succ n =>
      have hs : s.raisings = r :: (l ++ more) := h
      unfold State.drain
      rw [hs]
      dsimp only
      generalize hm : ({ s with raisings := l ++ more } : State).raise r = m
      have h1 : Appends s m [r.draft (s.flagSet r.flag) s.now] := by
        subst hm
        exact (appends_raise (s := { s with raisings := l ++ more }) hb r).congr rfl rfl
      obtain ⟨new, hg⟩ : Grows { s with raisings := l ++ more } m := hm ▸ grows_raise _ r
      have hnow : m.now = s.now := by
        have e := (onlyEmits_raise ({ s with raisings := l ++ more } : State) r).rest
        rw [hm] at e
        rw [e]; rfl
      have h2 := ih hn.2 n (by simpa using hl) (s := m) (more := more ++ new) (by rw [hg]; simp) h1.length
      have e : (l.map fun q => q.draft (m.flagSet q.flag) m.now) = l.map fun q => q.draft (s.flagSet q.flag) s.now := by
        refine List.map_congr_left fun q hq => ?_
        have hf : q.flag ≠ r.flag := fun he => hn.1 (he ▸ List.mem_map_of_mem hq)
        have := raise_flagSet_of_ne ({ s with raisings := l ++ more } : State) r hf
        rw [hm] at this
        rw [hnow, this]; rfl
      rw [e] at h2
      exact h1.prepend h2

/-- What an append hands on: LOG_LOSS and LOG_HIGH at most, in this order, and nothing without an archive port (R105,
R107). -/
theorem append_handsOn (s : State) (d : RecordDraft) :
    ∃ l : List Raising, (s.append false d).raisings = s.raisings ++ l
      ∧ l.Sublist [plainRaising .logLoss, plainRaising .logHigh] ∧ (s.log.archive = none → l = []) := by
  have room : ∃ l : List Raising, (s.makeRoom false).raisings = s.raisings ++ l ∧ (l = [] ∨ l = [plainRaising .logLoss])
      ∧ (s.log.archive = none → l = []) ∧ (s.makeRoom false).log.archive = s.log.archive := by
    unfold State.makeRoom
    split
    · exact ⟨[], by simp, .inl rfl, fun _ => rfl, rfl⟩
    · dsimp only
      split
      · exact ⟨[], by simp, .inl rfl, fun _ => rfl, rfl⟩
      · split
        · next h =>
          refine ⟨[plainRaising .logLoss], rfl, .inr rfl, fun ha => ?_, rfl⟩
          simp [ha] at h
        · exact ⟨[], by simp, .inl rfl, fun _ => rfl, rfl⟩
  obtain ⟨l, h1, h2, h3, h4⟩ := room
  unfold State.append State.testLogHigh
  split
  · next h =>
    refine ⟨l ++ [plainRaising .logHigh], ?_, ?_, fun ha => ?_⟩
    · show (s.makeRoom false).raisings ++ [plainRaising .logHigh] = _
      rw [h1, List.append_assoc]
    · rcases h2 with rfl | rfl
      · exact .cons _ (.refl _)
      · exact .refl _
    · have : ((s.makeRoom false).placeRecord d).log.archive = none := h4.trans ha
      simp [this] at h
  · refine ⟨l, h1, ?_, h3⟩
    rcases h2 with rfl | rfl
    · exact List.nil_sublist _
    · exact .cons_cons _ (List.nil_sublist _)

/-- Only the records, the flags and the time of the first state count, and the records of the second. -/
theorem AppendsRaising.congr {s t s' t' : State} {d e : RecordDraft} (h : AppendsRaising s t d e) (hs : s'.log = s.log)
    (hf : s'.flags = s.flags) (hn : s'.now = s.now) (ht : t'.log = t.log) : AppendsRaising s' t' d e := by
  have hsys : ∀ g, s'.systemDraft g none none none .none none = s.systemDraft g none none none .none none := fun g => by
    unfold State.systemDraft State.flagSet
    rw [hf, hn]
  obtain ⟨m, h1, h2, h3⟩ := h
  exact ⟨m, by rw [hsys, hsys]; exact h1, by rw [hs]; exact h2, h3.congr hs ht⟩

/-- A record and a raising handed on behind it, at the end of a command: the record, the records of LOG_LOSS and LOG_HIGH
where the append raised them, and that of the raising (R103). -/
theorem appendsRaising_settle {s w : State} {d : RecordDraft} {r : Raising} (hr : s.raisings = [])
    (hb : s.log.ring.length ≤ 1024) (hf : r.flag ≠ .logLoss ∧ r.flag ≠ .logHigh)
    (hw : w.log = (s.append false d).log) (hq : w.raisings = (s.append false d).raisings ++ [r])
    (hg : w.flags = s.flags) (hnow : w.now = s.now) :
    AppendsRaising s w.settle d (r.draft (s.flagSet r.flag) s.now) := by
  obtain ⟨l, h1, h2, h3⟩ := append_handsOn s d
  rw [h1, hr, List.nil_append] at hq
  have ha := (appends_append hb false d).congr (t' := w) rfl hw
  have hflags : ∀ g, w.flagSet g = s.flagSet g := fun g => by unfold State.flagSet; rw [hg]
  have hl : l.length ≤ 2 := h2.length_le
  have hn : ((l ++ [r]).map Raising.flag).Nodup := by
    have hs : (l.map Raising.flag).Sublist [.logLoss, .logHigh] := h2.map _
    rw [List.map_append, List.nodup_append]
    refine ⟨hs.nodup (by decide), by simp, fun a ha b hb => ?_⟩
    rw [List.map_singleton, List.mem_singleton] at hb
    have := hs.subset ha
    simp only [List.mem_cons, List.not_mem_nil, or_false] at this
    subst hb
    rcases this with rfl | rfl
    · exact fun e => hf.1 e.symm
    · exact fun e => hf.2 e.symm
  have hfuel : (l ++ [r]).length ≤ w.drainFuel := by unfold State.drainFuel; rw [hq]; omega
  have k := drain_firsts (l ++ [r]) hn w.drainFuel hfuel (more := []) (by rw [hq, List.append_nil]) ha.length
  simp only [hflags, hnow, List.map_append, List.map_cons, List.map_nil] at k
  have hsub : (l.map fun q => q.draft (s.flagSet q.flag) s.now).Sublist
      [s.systemDraft .logLoss none none none .none none, s.systemDraft .logHigh none none none .none none] :=
    h2.map fun q => q.draft (s.flagSet q.flag) s.now
  exact ⟨_, hsub, fun e => by rw [h3 e]; rfl, ha.prepend k⟩

end Sys2Proof.Machine
end

