-- ==== Sys2Proof/Laws/Requests.lean ====
section
/-! SUPPORT. Taking a request and answering it, said once: a request row at a state that takes it is the owner's part
on the state with the request begun, and what the owner leaves is answered as `State.answered` and `State.closed`
say. -/

namespace Sys2Proof.Machine

/-! ### Taking -/

theorem pointArgument_eq (f : Frame) :
    f.pointArgument = ((ReqKind.ofCode f.kind).bind ReqKind.pointOffset).bind fun i =>
      if i < f.body.length then some (f.point i) else none := by
  unfold Frame.pointArgument
  cases ReqKind.ofCode f.kind with
  | none => rfl
  | some k =>
    rw [Option.bind_some]
    dsimp only
    cases k.pointOffset <;> rfl

theorem loadCommandAt_eq (s : State) (taken : TimeStamp) (p : Port) (f : Frame) :
    s.loadCommandAt taken p f = { s with commandCapture := s.capturedAt taken p f } := by
  unfold State.loadCommandAt State.capturedAt
  split
  · rfl
  · rw [pointArgument_eq]

theorem loadCommand_eq (s : State) (p : Port) (f : Frame) :
    s.loadCommand p f = { s with commandCapture := s.captured p f } := loadCommandAt_eq _ _ _ _

/-- The port with the request begun. -/
def Station.begun (t : Station) (f : Frame) : Station :=
  { t with intake := t.intake.tail, inProgress := some { frame := f, stage := .handling } }

theorem beginRequest_eq (s : State) (p : Port) (f : Frame) :
    s.beginRequest p f =
      { s with commandCapture := s.captured p f, stations := s.stations.set p.val ((s.stn p).begun f) } := by
  unfold State.beginRequest
  dsimp only
  have hc : (s.popIntake p).captured p f = s.captured p f := rfl
  rw [loadCommand_eq, hc]
  simp [State.popIntake, State.setStn, State.stn, Station.begun]

@[simp] theorem ofCode_code (k : ReqKind) : ReqKind.ofCode k.code = some k := by cases k <;> decide

/-- A port whose head frame can be taken has no request in progress. -/
theorem inProgress_of_takeable {s : State} {p : Port} {f : Frame} (h : s.takeable p = some f) :
    (s.stn p).inProgress = none := by
  unfold State.takeable at h
  dsimp only at h
  split at h
  · next e =>
    simp only [Bool.and_eq_true, Option.isNone_iff_eq_none] at e
    exact e.1
  · cases h

/-- A port with no request in progress has none waiting for its owner. -/
theorem ownerDue_of_free {s : State} {p : Port} (h : (s.stn p).inProgress = none) : s.ownerDue p = none := by
  unfold State.ownerDue
  rw [h]

/-- With no request in progress, and with one just begun, the ring asked is that of the port. -/
theorem requestRing_of_free {s : State} {p : Port} (h : (s.stn p).inProgress = none) :
    s.requestRing p = (s.stn p).ring := by
  unfold State.requestRing
  rw [h]

theorem requestRing_begun (s : State) (p : Port) (f : Frame) : (s.beginRequest p f).requestRing p = (s.stn p).ring := by
  rw [beginRequest_eq]
  simp [State.requestRing, State.stn, Station.begun]

/-- A request row at a state that takes the request: the owner's part, and then the raisings it handed on. -/
theorem runRequest_of_takes {s : State} {p : Port} {k : ReqKind} {f : Frame} (h : s.Takes p k f)
    {form : Frame → Bool} (hf : form f = true) (owner : Frame → State → State) :
    s.runRequest p k form owner = (owner f (s.beginRequest p f)).settle := by
  have hi := inProgress_of_takeable h.head
  have h1 : rowNames k form f = true := by
    unfold rowNames
    rw [h.kind, hf]
    simp
  have he : (k.waitsForEngine && (s.beginRequest p f).engineClaim.isSome) = false := by
    rw [beginRequest_eq]
    cases hw : k.waitsForEngine with
    | false => rfl
    | true => simp [h.engineFree hw]
  have hr : (s.beginRequest p f).ringOk p k f = true := by
    have h := h.ring
    have e2 : (s.beginRequest p f).pt (f.point 0) = s.pt (f.point 0) := by rw [beginRequest_eq]; rfl
    unfold State.ringOk at *
    dsimp only at *
    rw [requestRing_begun, e2, ← requestRing_of_free hi]
    exact h
  have hm : (s.beginRequest p f).modeOk k f = true := by
    have := h.mode
    rw [beginRequest_eq]
    exact this
  unfold State.runRequest State.checkRequest State.checkRights
  rw [ownerDue_of_free hi, h.head]
  simp [h1, h.fresh, h.length, he, hr, hm]

theorem live_of {s : State} (h : s.inReset = false) (f : State → State) : s.live f = f s := by
  simp [State.live, h]

/-! ### Answering -/

/-- The answer to a request whose port still stands as it did when the request was begun. -/
theorem respond_begun {s u : State} {p : Port} {f : Frame} (hu : u.stations = (s.beginRequest p f).stations)
    (st : Status) (r : List Byte) :
    u.respond p f st r =
      { u with stations := s.stations.set p.val ((s.stn p).answered f (responseBytes f st r)) } := by
  have hs : u.stations = s.stations.set p.val ((s.stn p).begun f) := by rw [hu, beginRequest_eq]
  have hp : u.stn p = (s.stn p).begun f := by simp [State.stn, hs]
  unfold State.respond State.handResponse
  dsimp only
  rw [State.stn_setStn_self, hp]
  have htx : ((s.stn p).begun f).tx = (s.stn p).tx := rfl
  dsimp only [Station.begun] at htx ⊢
  cases hx : (s.stn p).tx <;>
    simp [hx, State.setStn, hs, Station.answered, Station.closed, Station.begun, responseBytes]

/-- A request answered with nothing else done. -/
theorem respond_beginRequest (s : State) (p : Port) (f : Frame) (st : Status) (r : List Byte) :
    (s.beginRequest p f).respond p f st r = s.answered p f st r := by
  rw [respond_begun (s := s) rfl, beginRequest_eq]
  rfl

/-- The answer to a request after its owner has emitted. -/
theorem respond_emitted {s u v : State} {p : Port} {f : Frame} (hu : u.stations = (s.beginRequest p f).stations)
    (h : OnlyEmits u v) (st : Status) (r : List Byte) :
    OnlyEmits
        { u with
          stations := s.stations.set p.val
            ({ (s.stn p).closed f (responseBytes f st r) with
              waitResponse := ((v.respond p f st r).stn p).waitResponse }) }
        (v.respond p f st r)
      ∧ (v.respond p f st r).Responding p f st r := by
  have hs : u.stations = s.stations.set p.val ((s.stn p).begun f) := by rw [hu, beginRequest_eq]
  have hp : u.stn p = (s.stn p).begun f := by simp [State.stn, hs]
  have hq : ∀ q, q ≠ p → u.stn q = s.stn q := by
    intro q hq
    have : p.val ≠ q.val := fun e => hq (Fin.ext e.symm)
    simp [State.stn, hs, this]
  have hvp := h.arbiters p
  rw [hp] at hvp
  have hb := h.busy p
  rw [hp] at hb
  have key : ∃ t', v.respond p f st r = v.setStn p t' ∧
      t' = { (s.stn p).closed f (responseBytes f st r) with
        waitResponse := t'.waitResponse, tx := t'.tx, waitNotice := t'.waitNotice } ∧
      (t'.tx = some (.response (responseBytes f st r)) ∨ t'.waitResponse = some (responseBytes f st r)) ∧
      (∀ x, (s.stn p).tx = some x → t'.tx = some x) ∧
      t'.waitNotice = (v.stn p).waitNotice ∧ (v.stn p).SameLine t' := by
    unfold State.respond State.handResponse
    dsimp only
    rw [State.stn_setStn_self]
    dsimp only
    cases hx : (v.stn p).tx with
    | none =>
      refine ⟨_, State.setStn_setStn _ _ _ _, ?_, Or.inl rfl, ?_, rfl, Or.inr ⟨hx, _, rfl⟩⟩
      · rw [hvp]; rfl
      · intro x hx'
        have := hb x hx'
        rw [hx] at this; cases this
    | some y =>
      refine ⟨_, State.setStn_setStn _ _ _ _, ?_, Or.inr rfl, ?_, rfl, Or.inl hx.symm⟩
      · rw [hvp]; rfl
      · intro x hx'
        have := hb x hx'
        rw [hx] at this
        exact this
  obtain ⟨t', e, ht, hr, hbz, hw, hl⟩ := key
  rw [e]
  have hself : (v.setStn p t').stn p = t' := State.stn_setStn_self _ _ _
  refine ⟨⟨?_, ?_, ?_, ?_, ?_, ?_, ?_⟩, ?_⟩
  · show { v with stations := _ } = _
    rw [h.rest]
    rfl
  · intro q
    obtain ⟨k, h1, h2⟩ := h.ports q
    refine ⟨k, h1, ?_⟩
    by_cases e : q = p
    · subst e
      rw [hself]
      rw [hp] at h2
      exact (h2.line hw hl).congr (by simp [State.stn, Station.closed, Station.begun])
        (by simp [State.stn, Station.closed, Station.begun])
    · rw [State.stn_setStn_of_ne _ _ e]
      have : p.val ≠ q.val := fun e' => e (Fin.ext e'.symm)
      rw [hq q e] at h2
      exact h2.congr (by simp [State.stn, this]) (by simp [State.stn, this])
  · intro q
    by_cases e : q = p
    · subst e
      rw [hself]
      have : (State.stn { u with
            stations := s.stations.set q.val
              ({ (s.stn q).closed f (responseBytes f st r) with waitResponse := t'.waitResponse }) } q)
          = { (s.stn q).closed f (responseBytes f st r) with waitResponse := t'.waitResponse } := by
        simp [State.stn]
      rw [this]
      exact ht
    · rw [State.stn_setStn_of_ne _ _ e, h.arbiters q, hq q e]
      have : p.val ≠ q.val := fun e' => e (Fin.ext e'.symm)
      simp [State.stn, this]
  · intro q x hx
    by_cases e : q = p
    · subst e
      rw [hself]
      apply hbz
      simpa [State.stn, Station.closed] using hx
    · rw [State.stn_setStn_of_ne _ _ e]
      apply h.busy
      rw [hq q e]
      have : p.val ≠ q.val := fun e' => e (Fin.ext e'.symm)
      simpa [State.stn, this] using hx
  · exact h.flags
  · exact h.archive
  · exact h.threshold
  · unfold State.Responding
    rw [hself]
    exact hr

/-- A response on its way stays on its way while others only emit. -/
theorem State.Responding.emits {s t : State} {p : Port} {f : Frame} {st : Status} {r : List Byte}
    (h : s.Responding p f st r) (k : OnlyEmits s t) : t.Responding p f st r := by
  rcases h with h | h
  · exact Or.inl (k.busy p _ h)
  · refine Or.inr ?_
    rw [k.arbiters p]; exact h

/-- What a wait at the arbiter holds for a response is untouched while others only emit. -/
theorem OnlyEmits.waitResponse {s t : State} (h : OnlyEmits s t) (p : Port) :
    (t.stn p).waitResponse = (s.stn p).waitResponse := by rw [h.arbiters p]

/-- The answer to a request after its owner has emitted, with the end of the command. -/
theorem respond_settled {s u v t : State} {p : Port} {f : Frame} {st : Status} {r : List Byte}
    (hu : u.stations = (s.beginRequest p f).stations) (h : OnlyEmits u v) (ht : t = (v.respond p f st r).settle) :
    OnlyEmits { u with stations := (s.closed p f st r (t.stn p).waitResponse).stations } t ∧ t.Responding p f st r := by
  subst ht
  obtain ⟨h1, h2⟩ := respond_emitted hu h st r
  have h3 := onlyEmits_settle (v.respond p f st r)
  refine ⟨.trans ?_ h3, h2.emits h3⟩
  rw [h3.waitResponse]
  exact h1

/-- The records that a request's owner has appended first stand first at the end of the command. -/
theorem appendsThen_settled {s u v : State} {p : Port} {f : Frame} {st : Status} {r : List Byte}
    {ds : List RecordDraft} {P : RecordDraft → Prop} (hP : ∀ d : RecordDraft, d.isSystem = true → P d)
    (hl : u.log = s.log) (h : AppendsThen u v ds P) : AppendsThen s (v.respond p f st r).settle ds P := by
  have h1 : AppendsThen s (v.respond p f st r) ds P := h.congr hl.symm (respond_log _ _ _ _ _)
  exact h1.trans ((appendsFirst_settle h1.length).mono hP)

/-- A request that is answered with nothing else done leaves no raising. -/
theorem answered_settled {s : State} {p : Port} {k : ReqKind} {f : Frame} (h : s.Takes p k f) (st : Status)
    (r : List Byte) : ((s.beginRequest p f).respond p f st r).settle = s.answered p f st r := by
  rw [respond_beginRequest]
  exact settle_of_none (s := s.answered p f st r) h.noRaising

end Sys2Proof.Machine
end

