-- ==== Sys2Proof/Laws/Engine.lean ====
section
/-! SUPPORT. What the shared operations of the Point Engine can change, said once: `Moves s t P S` bounds the points that
change by `P`, the points whose service changes by `S`, and lets nothing else happen but what is emitted. -/

namespace Sys2Proof.Machine

/-- From `s` to `t` the Point Engine has changed points of `P` alone, the service of points of `S` alone, no
configuration, possibly the map and the audible request, and emitted. -/
structure Moves (s t : State) (P S : PointNo → Prop) : Prop where
  emits : OnlyEmits { s with points := t.points, map := t.map, audibleRequest := t.audibleRequest } t
  off : ∀ q, ¬ P q → t.pt q = s.pt q
  config : ∀ q, (t.pt q).config = (s.pt q).config
  service : ∀ q, ¬ S q → (t.pt q).service = (s.pt q).service ∧ (t.pt q).shelveTimer = (s.pt q).shelveTimer
  request : s.audibleRequest = true → t.audibleRequest = true

namespace Moves

variable {s t u : State} {P S P' S' : PointNo → Prop}

theorem refl (s : State) (P S : PointNo → Prop) : Moves s s P S :=
  ⟨.refl _, fun _ _ => rfl, fun _ => rfl, fun _ _ => ⟨rfl, rfl⟩, id⟩

theorem trans (h : Moves s t P S) (k : Moves t u P S) : Moves s u P S where
  emits := by
    have e : OnlyEmits { s with points := u.points, map := u.map, audibleRequest := u.audibleRequest }
        { t with points := u.points, map := u.map, audibleRequest := u.audibleRequest } :=
      { rest := by rw [h.emits.rest], ports := h.emits.ports, arbiters := h.emits.arbiters, busy := h.emits.busy
        flags := h.emits.flags, archive := h.emits.archive, threshold := h.emits.threshold }
    exact e.trans k.emits
  off q hq := (k.off q hq).trans (h.off q hq)
  config q := (k.config q).trans (h.config q)
  service q hq := ⟨(k.service q hq).1.trans (h.service q hq).1, (k.service q hq).2.trans (h.service q hq).2⟩
  request hr := k.request (h.request hr)

theorem mono (h : Moves s t P S) (hP : ∀ q, P q → P' q) (hS : ∀ q, S q → S' q) : Moves s t P' S' :=
  ⟨h.emits, fun q hq => h.off q fun hp => hq (hP q hp), h.config, fun q hq => h.service q fun hp => hq (hS q hp),
    h.request⟩

theorem of_emits (h : OnlyEmits s t) (P S : PointNo → Prop) : Moves s t P S where
  emits := by
    have e1 : t.points = s.points := h.points
    have e2 : t.map = s.map := h.map
    have e3 : t.audibleRequest = s.audibleRequest := by rw [h.rest]
    rw [e1, e2, e3]; exact h
  off q _ := h.pt q
  config q := by rw [h.pt q]
  service q _ := by rw [h.pt q]; exact ⟨rfl, rfl⟩
  request hr := by rw [h.rest]; exact hr

/-- A fold of such operations is one. -/
theorem foldl {α : Type} {f : State → α → State} (hf : ∀ s a, Moves s (f s a) P S) (l : List α) (s : State) :
    Moves s (l.foldl f s) P S := by
  induction l generalizing s with
  | nil => exact refl s P S
  | cons a l ih => exact (hf s a).trans (ih _)

theorem parent (h : Moves s t P S) (q : PointNo) : (t.pt q).parent = (s.pt q).parent :=
  congrArg PointConfig.parent (h.config q)
theorem kind (h : Moves s t P S) (q : PointNo) : (t.pt q).kind = (s.pt q).kind :=
  congrArg PointConfig.kind (h.config q)
theorem firstOut (h : Moves s t P S) (q : PointNo) : (t.pt q).firstOut = (s.pt q).firstOut :=
  congrArg PointConfig.firstOut (h.config q)

theorem onChain (h : Moves s t P S) (g : PointNo) (n : Nat) (p : PointNo) : t.onChain g n p = s.onChain g n p := by
  induction n generalizing p with
  | zero => rfl
  | succ n ih =>
    unfold State.onChain
    rw [h.parent p]
    cases (s.pt p).parent with
    | none => rfl
    | some q => simp [ih]

end Moves

theorem moves_setPt {s : State} {p : PointNo} {r : PointRec} {S : PointNo → Prop} (hc : r.config = (s.pt p).config)
    (hs : ¬ S p → r.service = (s.pt p).service ∧ r.shelveTimer = (s.pt p).shelveTimer) :
    Moves s (s.setPt p r) (· = p) S where
  emits := .refl _
  off q hq := State.pt_setPt_of_ne _ _ hq
  config q := by
    rw [State.pt_setPt]; split
    · next e => subst e; exact hc
    · rfl
  service q hq := by
    rw [State.pt_setPt]; split
    · next e => subst e; exact hs hq
    · exact ⟨rfl, rfl⟩
  request := id

theorem moves_map {s : State} (m : Vector MapEntry 256) (P S : PointNo → Prop) : Moves s { s with map := m } P S :=
  ⟨.refl _, fun _ _ => rfl, fun _ => rfl, fun _ _ => ⟨rfl, rfl⟩, id⟩

theorem onlyEmits_placePoint (s : State) (p : PointNo) : OnlyEmits s (s.placePoint p) :=
  .foldl (fun t q => onlyEmits_ite (onlyEmits_place t q _ _) (.refl _)) _ _

section
variable {S : PointNo → Prop} (s : State) (c : Claim) (p : PointNo) (cause : Cause)

theorem moves_emitPoint (body : RecordBody) : Moves s (s.emitPoint c p cause body) (· = p) S := by
  unfold State.emitPoint
  dsimp only
  refine .trans ?_ (.of_emits (onlyEmits_placePoint _ _) _ _)
  have h := onlyEmits_append s false ⟨c.stamp, body, some p, c.input, c.port, some cause⟩
  refine Moves.trans (.of_emits h _ _) ?_
  exact moves_setPt rfl fun _ => ⟨rfl, rfl⟩

theorem moves_testAudible (before : SeqState) : Moves s (s.testAudible p before) (· = p) S := by
  unfold State.testAudible
  dsimp only
  split
  · exact ⟨.refl _, fun _ _ => rfl, fun _ => rfl, fun _ _ => ⟨rfl, rfl⟩, fun _ => rfl⟩
  · exact .refl _ _ _

theorem moves_transition (st : SeqState) : Moves s (s.transition c p cause st) (· = p) S := by
  unfold State.transition
  dsimp only
  refine .trans ?_ (moves_testAudible _ _ _)
  refine .trans ?_ (moves_emitPoint _ _ _ _ _)
  exact moves_setPt rfl fun _ => ⟨rfl, rfl⟩

theorem moves_setFirstMember (m : Option PointNo) : Moves s (s.setFirstMember c p m) (· = p) S := by
  unfold State.setFirstMember
  dsimp only
  refine .trans ?_ (moves_emitPoint _ _ _ _ _)
  exact moves_setPt rfl fun _ => ⟨rfl, rfl⟩

theorem moves_clearFirstMember : Moves s (s.clearFirstMember c p) (· = p) S := by
  unfold State.clearFirstMember
  dsimp only
  split
  · exact moves_setFirstMember _ _ _ _
  · exact .refl _ _ _

theorem moves_recordQuality (q : PointQuality) : Moves s (s.recordQuality c p cause q) (· = p) S := by
  unfold State.recordQuality
  dsimp only
  split
  · exact .refl _ _ _
  · refine .trans ?_ (moves_emitPoint _ _ _ _ _)
    exact moves_setPt rfl fun _ => ⟨rfl, rfl⟩

theorem moves_recordCondition (cond : Condition) : Moves s (s.recordCondition c p cause cond) (· = p) S := by
  have h1 : Moves s (s.setPt p { s.pt p with condition := cond }) (· = p) S :=
    moves_setPt rfl fun _ => ⟨rfl, rfl⟩
  unfold State.recordCondition
  dsimp only
  split
  · exact .refl _ _ _
  · split
    · exact h1
    · split
      · exact h1.trans (moves_transition _ _ _ _ _)
      · exact h1

theorem moves_reevalField : Moves s (s.reevalField c p cause) (· = p) S := by
  unfold State.reevalField
  dsimp only
  split
  · exact (moves_recordQuality s c p cause _).trans (moves_recordCondition _ _ _ _ _)
  · exact moves_recordQuality s c p cause _

theorem moves_reevalGroup (child : Option PointNo) : Moves s (s.reevalGroup c p child cause) (· = p) S := by
  have h2 := (moves_recordQuality (S := S) s c p cause (s.groupQuality p)).trans
    (moves_recordCondition _ c p cause ((s.recordQuality c p cause (s.groupQuality p)).groupCondition p))
  unfold State.reevalGroup
  dsimp only
  split
  · split
    · exact h2.trans (moves_setFirstMember _ _ _ _)
    · exact h2.trans (moves_clearFirstMember _ _ _)
  · exact h2.trans (moves_clearFirstMember _ _ _)

theorem moves_setService (v : Service) (timer : Option Nat) :
    Moves s (s.setService c p cause v timer) (· = p) (· = p) := by
  unfold State.setService
  dsimp only
  refine .trans ?_ (moves_emitPoint _ _ _ _ _)
  exact moves_setPt rfl fun h => absurd rfl h

theorem moves_forceNormal : Moves s (s.forceNormal c p cause) (· = p) S := by
  unfold State.forceNormal
  split
  · exact .refl _ _ _
  · exact moves_transition _ _ _ _ _

theorem moves_clearLatches : Moves s (s.clearLatches p) (· = p) S := moves_map _ _ _

theorem moves_resetTo (st : SeqState) : Moves s (s.resetTo c p st) (· = p) S :=
  (moves_transition _ _ _ _ _).trans (moves_clearFirstMember _ _ _)

end

/-- `q` lies above `p`, at most `n` links away. -/
def State.Above (s : State) (n : Nat) (q p : PointNo) : Prop :=
  ∃ m g, n = m + 1 ∧ (s.pt p).parent = some g ∧ s.onChain q m g = true

/-- The points above `p`, at most `n` links away, and no others, move as a change of `p` is carried up (R34, R38). -/
theorem moves_propagate {S : PointNo → Prop} (n : Nat) (c : Claim) (p : PointNo) (s : State) :
    Moves s (s.propagate n c p) (fun q => s.Above n q p) S := by
  induction n generalizing p s with
  | zero => exact .refl _ _ _
  | succ n ih =>
    unfold State.propagate
    split
    · exact .refl _ _ _
    · next g hg =>
      split
      · have h := moves_reevalGroup (S := S) s c g .member (some p)
        have h' : Moves s (s.reevalGroup c g (some p) .member) (fun q => s.Above (n + 1) q p) S := by
          refine h.mono (fun q e => ?_) (fun _ => id)
          subst e
          exact ⟨n, q, rfl, hg, by cases n <;> simp [State.onChain]⟩
        dsimp only
        split
        · refine h'.trans ((ih g _).mono (fun q hq => ?_) fun _ => id)
          obtain ⟨m, g', hm, hg', hq⟩ := hq
          rw [h.onChain] at hq
          rw [h.parent] at hg'
          refine ⟨n, g, rfl, hg, ?_⟩
          subst hm
          unfold State.onChain
          rw [hg']
          simp [hq]
        · exact h'
      · exact .refl _ _ _

theorem moves_carryUp {S : PointNo → Prop} (c : Claim) (p : PointNo) (s : State) :
    Moves s (s.carryUp c p) (fun q => s.Above Config.maxLinks q p) S :=
  moves_propagate _ _ _ _

/-- A point above `p` is on its chain. -/
theorem State.Above.onChain {s : State} {n : Nat} {q p : PointNo} (h : s.Above n q p) : s.onChain q n p = true := by
  obtain ⟨m, g, rfl, hg, hq⟩ := h
  unfold State.onChain
  rw [hg]
  simp [hq]

/-- No point is above itself where its chain ends within the links searched (R38). -/
theorem not_above_of_depth {s : State} {n : Nat} {p : PointNo} (h : s.depth (n + 1) p ≤ n) : ¬ s.Above n p p := by
  rintro ⟨m, g, rfl, hg, hq⟩
  obtain ⟨k, -, hk⟩ := onChain_iff.1 hq
  have round : s.ancestor (k + 1) p = some p := ancestor_succ.2 ⟨g, hg, hk⟩
  have rounds : ∀ j, s.ancestor (j * (k + 1)) p = some p := by
    intro j
    induction j with
    | zero => simp
    | succ j ih => rw [Nat.succ_mul]; exact ancestor_add.2 ⟨p, ih, round⟩
  have hle : m + 2 ≤ (m + 2) * (k + 1) := Nat.le_mul_of_pos_right _ (Nat.succ_pos k)
  have : m + 2 ≤ s.depth (m + 2) p := (le_depth_iff (Nat.le_refl _)).2 (ancestor_of_le hle (rounds (m + 2)))
  exact absurd (this.trans h) (by omega)

/-- No point is above itself where its chain has at most three links (R38). -/
theorem not_above_self {s : State} {p : PointNo} (h : s.depth 4 p ≤ 3) : ¬ s.Above Config.maxLinks p p :=
  not_above_of_depth h

/-- A change carried up leaves the point it began at as it was. -/
theorem carryUp_pt_self {s : State} {p : PointNo} (c : Claim) (h : s.depth 4 p ≤ 3) : (s.carryUp c p).pt p = s.pt p :=
  (moves_carryUp (S := fun _ => False) c p s).off p (not_above_self h)

theorem onChain_self (s : State) (n : Nat) (p : PointNo) : s.onChain p n p = true := by cases n <;> simp [State.onChain]

/-- What moves at `p` first and is then carried up moves on the chain of `p`. -/
theorem Moves.carriedUp {s t : State} {p : PointNo} {S : PointNo → Prop} (c : Claim) (h : Moves s t (· = p) S) :
    Moves s (t.carryUp c p) (fun q => s.onChain q Config.maxLinks p = true) S := by
  have h' : Moves s t (fun q => s.onChain q Config.maxLinks p = true) S :=
    h.mono (fun q e => by subst e; exact onChain_self _ _ _) fun _ => id
  refine h'.trans ((moves_carryUp c p t).mono (fun q hq => ?_) fun _ => id)
  have hq := hq.onChain
  rw [h.onChain] at hq
  exact hq

theorem moves_reevaluate {S : PointNo → Prop} (s : State) (c : Claim) (p : PointNo) (cause : Cause) :
    Moves s (s.reevaluate c p cause) (fun q => s.onChain q Config.maxLinks p = true) S := by
  have key : ∀ t, Moves s t (· = p) S →
      Moves s (if changedBetween s t p then t.carryUp c p else t) (fun q => s.onChain q Config.maxLinks p = true) S := by
    intro t h
    split
    · exact h.carriedUp c
    · exact h.mono (fun q e => by subst e; exact onChain_self _ _ _) fun _ => id
  unfold State.reevaluate
  dsimp only
  cases (s.pt p).kind with
  | spare => exact key _ (.refl _ _ _)
  | field => exact key _ (moves_reevalField _ _ _ _)
  | group => exact key _ (moves_reevalGroup _ _ _ _ _)

theorem moves_acknowledge {S : PointNo → Prop} (s : State) (c : Claim) (p : PointNo) :
    Moves s (s.acknowledge c p) (fun q => s.onChain q Config.maxLinks p = true) S := by
  have key : ∀ t, Moves s t (· = p) S →
      Moves s ((t.clearLatches p).reevaluate c p .latchClear) (fun q => s.onChain q Config.maxLinks p = true) S := by
    intro t h
    have h1 := h.trans (moves_clearLatches t p)
    have h' : Moves s (t.clearLatches p) (fun q => s.onChain q Config.maxLinks p = true) S :=
      h1.mono (fun q e => by subst e; exact onChain_self _ _ _) fun _ => id
    refine h'.trans ((moves_reevaluate _ c p .latchClear).mono (fun q hq => ?_) fun _ => id)
    rw [h1.onChain] at hq
    exact hq
  unfold State.acknowledge
  dsimp only
  split
  · exact key _ (.refl _ _ _)
  · exact key _ ((moves_transition _ _ _ _ _).trans (moves_clearFirstMember _ _ _))

theorem moves_leaveService (s : State) (c : Claim) (p : PointNo) (cause : Cause) (v : Service) (timer : Option Nat) :
    Moves s (s.leaveService c p cause v timer) (fun q => s.onChain q Config.maxLinks p = true) (· = p) :=
  Moves.carriedUp c (((moves_forceNormal s c p cause).trans (moves_setService _ c p cause v timer)).trans
    (moves_clearFirstMember _ c p))

theorem moves_returnToService (s : State) (c : Claim) (p : PointNo) (cause : Cause) :
    Moves s (s.returnToService c p cause) (fun q => s.onChain q Config.maxLinks p = true) (· = p) := by
  unfold State.returnToService
  dsimp only
  refine Moves.carriedUp c ?_
  split
  · exact (moves_setService s c p cause .inService none).trans (moves_transition _ _ _ _ _)
  · exact moves_setService s c p cause .inService none

/-- What moves on the chain of `p` alone, at the service of `p` alone, as the statements say it. -/
theorem Moves.onlyMoves {s t : State} {p : PointNo} {S : PointNo → Prop} (hS : ∀ q, S q → q = p)
    (h : Moves s t (fun q => s.onChain q Config.maxLinks p = true) S) : OnlyMoves { s with map := t.map } t p where
  emits := h.emits
  offChain q hq := h.off q (by
    have : s.onChain q Config.maxLinks p = false := by
      rw [← hq]
      have : Moves s { s with map := t.map } (fun _ => True) (fun _ => True) := moves_map _ _ _
      exact (this.onChain _ _ _).symm
    rw [this]; exact Bool.false_ne_true)
  config q := h.config q
  service q hq := h.service q fun e => hq (hS q e)
  request hr := h.request hr

end Sys2Proof.Machine
end

