-- ==== Sys2Proof/Laws/EngineRecord.lean ====
section
/-! SUPPORT. What the shared operations of the Point Engine append, and what they leave at the point itself. -/

namespace Sys2Proof.Machine

@[simp] theorem placePoint_log (s : State) (p : PointNo) : (s.placePoint p).log = s.log :=
  foldl_log (fun t q => by split <;> simp) _ _

@[simp] theorem testAudible_log (s : State) (p : PointNo) (b : SeqState) : (s.testAudible p b).log = s.log := by
  unfold State.testAudible
  dsimp only
  split <;> rfl

@[simp] theorem testAudible_pt (s : State) (p q : PointNo) (b : SeqState) : (s.testAudible p b).pt q = s.pt q := by
  unfold State.testAudible
  dsimp only
  split <;> rfl

theorem Moves.depth {s t : State} {P S : PointNo → Prop} (h : Moves s t P S) (n : Nat) (p : PointNo) :
    t.depth n p = s.depth n p := by
  induction n generalizing p with
  | zero => rfl
  | succ n ih =>
    unfold State.depth
    rw [h.parent p]
    cases (s.pt p).parent with
    | none => rfl
    | some q => simp [ih]

section
variable {s : State} (c : Claim) (p : PointNo) (cause : Cause)

/-! ### At the point itself -/

@[simp] theorem emitPoint_pt_self (body : RecordBody) :
    (s.emitPoint c p cause body).pt p = { s.pt p with lastChange := some (s.log.next, c.stamp) } := by
  unfold State.emitPoint
  dsimp only
  rw [(onlyEmits_placePoint _ p).pt, State.pt_setPt_self, (onlyEmits_append _ _ _).pt]

@[simp] theorem transition_pt_self (st : SeqState) :
    (s.transition c p cause st).pt p =
      { s.pt p with seqState := st, lastChange := some (s.log.next, c.stamp) } := by
  unfold State.transition
  dsimp only
  rw [testAudible_pt, emitPoint_pt_self, State.pt_setPt_self]
  rfl

@[simp] theorem setService_pt_self (v : Service) (timer : Option Nat) :
    (s.setService c p cause v timer).pt p =
      { s.pt p with service := v, shelveTimer := timer, lastChange := some (s.log.next, c.stamp) } := by
  unfold State.setService
  dsimp only
  rw [emitPoint_pt_self, State.pt_setPt_self]
  rfl

@[simp] theorem setFirstMember_pt_self (m : Option PointNo) :
    (s.setFirstMember c p m).pt p =
      { s.pt p with firstMember := m, lastChange := some (s.log.next, c.stamp) } := by
  unfold State.setFirstMember
  dsimp only
  rw [emitPoint_pt_self, State.pt_setPt_self]
  rfl

/-- The quality step leaves the quality formed, and the rest of the record but its last change (R12). -/
theorem recordQuality_pt_self (q : PointQuality) :
    (s.recordQuality c p cause q).pt p =
      { s.pt p with quality := q, lastChange := ((s.recordQuality c p cause q).pt p).lastChange } := by
  unfold State.recordQuality
  dsimp only
  split
  · next h => rw [← h]
  · rw [emitPoint_pt_self, State.pt_setPt_self]

/-- The condition step leaves the condition formed, and moves the sequence state at most (R12). -/
theorem recordCondition_pt_self (cond : Condition) :
    (s.recordCondition c p cause cond).pt p =
      { s.pt p with
        condition := cond, seqState := ((s.recordCondition c p cause cond).pt p).seqState
        lastChange := ((s.recordCondition c p cause cond).pt p).lastChange } := by
  unfold State.recordCondition
  dsimp only
  split
  · next h => rw [← h]
  · split
    · simp
    · split
      · rw [transition_pt_self, State.pt_setPt_self]
      · simp

/-! ### Records -/

theorem appends_emitPoint (hb : s.log.ring.length ≤ 1024) (body : RecordBody) :
    Appends s (s.emitPoint c p cause body) [pointDraft c p cause body] := by
  unfold State.emitPoint
  dsimp only
  exact (appends_append hb false (pointDraft c p cause body)).congr rfl (placePoint_log _ _)

theorem appends_transition (hb : s.log.ring.length ≤ 1024) (st : SeqState) :
    Appends s (s.transition c p cause st)
      [pointDraft c p cause (PointRec.stateBody { s.pt p with seqState := st } (s.pt p).seqState)] := by
  unfold State.transition
  dsimp only
  exact (appends_emitPoint (s := s.setPt p { s.pt p with seqState := st }) c p cause hb _).congr rfl
    (testAudible_log _ _ _)

theorem appends_setService (hb : s.log.ring.length ≤ 1024) (v : Service) (timer : Option Nat) :
    Appends s (s.setService c p cause v timer) [pointDraft c p cause (.pointService (s.pt p).service v)] := by
  unfold State.setService
  dsimp only
  exact (appends_emitPoint (s := s.setPt p { s.pt p with service := v, shelveTimer := timer }) c p cause hb _).congr
    rfl rfl

theorem appends_setFirstMember (hb : s.log.ring.length ≤ 1024) (m : Option PointNo) :
    Appends s (s.setFirstMember c p m)
      [pointDraft c p .member (PointRec.stateBody { s.pt p with firstMember := m } (s.pt p).seqState)] := by
  unfold State.setFirstMember
  dsimp only
  exact (appends_emitPoint (s := s.setPt p { s.pt p with firstMember := m }) c p .member hb _).congr rfl rfl

/-- The records of one cause, or of cause MEMBER. -/
def RecordDraft.causedBy (cause : Cause) (d : RecordDraft) : Prop := d.cause = some cause ∨ d.cause = some .member

theorem appendsThen_clearFirstMember (hb : s.log.ring.length ≤ 1024) :
    AppendsThen s (s.clearFirstMember c p) [] (fun d => d.cause = some .member) := by
  unfold State.clearFirstMember
  dsimp only
  split
  · exact .one (appends_setFirstMember c p hb none) rfl
  · exact .none rfl hb

theorem appendsThen_recordQuality (hb : s.log.ring.length ≤ 1024) (q : PointQuality) :
    AppendsThen s (s.recordQuality c p cause q) [] (fun d => d.cause = some cause) := by
  unfold State.recordQuality
  dsimp only
  split
  · exact .none rfl hb
  · exact .one ((appends_emitPoint (s := s.setPt p { s.pt p with quality := q }) c p cause hb _).congr rfl rfl) rfl

theorem appendsThen_recordCondition (hb : s.log.ring.length ≤ 1024) (cond : Condition) :
    AppendsThen s (s.recordCondition c p cause cond) [] (fun d => d.cause = some cause) := by
  unfold State.recordCondition
  dsimp only
  split
  · exact .none rfl hb
  · split
    · exact .none rfl hb
    · split
      · exact .one ((appends_transition (s := s.setPt p { s.pt p with condition := cond }) c p cause hb _).congr
          rfl rfl) rfl
      · exact .none rfl hb

theorem appendsThen_reevalGroup (hb : s.log.ring.length ≤ 1024) (child : Option PointNo) :
    AppendsThen s (s.reevalGroup c p child cause) [] (RecordDraft.causedBy cause) := by
  have h1 := appendsThen_recordQuality c p cause hb (s.groupQuality p)
  have h2 := appendsThen_recordCondition c p cause h1.length
    ((s.recordQuality c p cause (s.groupQuality p)).groupCondition p)
  have h3 : AppendsThen s _ [] (RecordDraft.causedBy cause) :=
    (h1.mono fun _ h => Or.inl h).trans (h2.mono fun _ h => Or.inl h)
  unfold State.reevalGroup
  dsimp only
  split
  · split
    · exact h3.trans (.one (appends_setFirstMember c p h3.length _) (Or.inr rfl))
    · exact h3.trans ((appendsThen_clearFirstMember c p h3.length).mono fun _ h => Or.inr h)
  · exact h3.trans ((appendsThen_clearFirstMember c p h3.length).mono fun _ h => Or.inr h)

theorem appendsThen_propagate (n : Nat) (hb : s.log.ring.length ≤ 1024) :
    AppendsThen s (s.propagate n c p) [] (fun d => d.cause = some .member) := by
  induction n generalizing p s with
  | zero => exact .none rfl hb
  | succ n ih =>
    unfold State.propagate
    split
    · exact .none rfl hb
    · next g _ =>
      split
      · have h := (appendsThen_reevalGroup c g .member hb (some p)).mono (Q := fun d => d.cause = some .member)
          fun _ h => h.elim id id
        dsimp only
        split
        · exact h.trans (ih g h.length)
        · exact h
      · exact .none rfl hb

/-- What is carried up is recorded with cause MEMBER (R35). -/
theorem appendsThen_carryUp (hb : s.log.ring.length ≤ 1024) :
    AppendsThen s (s.carryUp c p) [] (fun d => d.cause = some .member) :=
  appendsThen_propagate c p _ hb

/-- A FIELD point re-evaluated appends records of the point alone (R12). -/
theorem appendsThen_reevalField (hb : s.log.ring.length ≤ 1024) :
    AppendsThen s (s.reevalField c p cause) [] (fun d => d.point = some p) := by
  have h1 : AppendsThen s (s.recordQuality c p cause (s.fieldQuality p)) [] (fun d => d.point = some p) := by
    unfold State.recordQuality
    dsimp only
    split
    · exact .none rfl hb
    · exact .one ((appends_emitPoint (s := s.setPt p { s.pt p with quality := _ }) c p cause hb _).congr rfl rfl) rfl
  have h2 : ∀ {u : State} (cause : Cause) (cond : Condition), u.log.ring.length ≤ 1024 →
      AppendsThen u (u.recordCondition c p cause cond) [] (fun d => d.point = some p) := by
    intro u cause cond hb
    unfold State.recordCondition
    dsimp only
    split
    · exact .none rfl hb
    · split
      · exact .none rfl hb
      · split
        · exact .one ((appends_transition (s := u.setPt p { u.pt p with condition := cond }) c p cause hb _).congr
            rfl rfl) rfl
        · exact .none rfl hb
  unfold State.reevalField
  dsimp only
  split
  · exact h1.trans (h2 _ _ h1.length)
  · exact h1

end

/-- Only the map decides the condition and the quality of a FIELD point (R8, R9). -/
theorem fieldQuality_congr {s t : State} (h : t.map = s.map) (p : PointNo) : t.fieldQuality p = s.fieldQuality p := by
  unfold State.fieldQuality; rw [h]

theorem fieldCondition_congr {s t : State} (h : t.map = s.map) (p : PointNo) :
    t.fieldCondition p = s.fieldCondition p := by unfold State.fieldCondition; rw [h]

/-- A re-evaluation leaves the map as it was. -/
theorem emitPoint_map (s : State) (c : Claim) (p : PointNo) (cause : Cause) (b : RecordBody) :
    (s.emitPoint c p cause b).map = s.map := by
  unfold State.emitPoint
  dsimp only
  rw [(onlyEmits_placePoint _ p).map]
  exact (onlyEmits_append _ _ _).map

theorem transition_map (s : State) (c : Claim) (p : PointNo) (cause : Cause) (st : SeqState) :
    (s.transition c p cause st).map = s.map := by
  have h : ∀ (t : State) b, (t.testAudible p b).map = t.map := by
    intro t b; unfold State.testAudible; dsimp only; split <;> rfl
  unfold State.transition
  dsimp only
  rw [h, emitPoint_map]; rfl

theorem recordQuality_map (s : State) (c : Claim) (p : PointNo) (cause : Cause) (q : PointQuality) :
    (s.recordQuality c p cause q).map = s.map := by
  unfold State.recordQuality
  dsimp only
  split
  · rfl
  · rw [emitPoint_map]; rfl

theorem recordCondition_map (s : State) (c : Claim) (p : PointNo) (cause : Cause) (cond : Condition) :
    (s.recordCondition c p cause cond).map = s.map := by
  unfold State.recordCondition
  dsimp only
  split
  · rfl
  · split
    · rfl
    · split
      · rw [transition_map]; rfl
      · rfl

theorem setFirstMember_map (s : State) (c : Claim) (p : PointNo) (m : Option PointNo) :
    (s.setFirstMember c p m).map = s.map := by
  unfold State.setFirstMember
  dsimp only
  rw [emitPoint_map]; rfl

theorem clearFirstMember_map (s : State) (c : Claim) (p : PointNo) : (s.clearFirstMember c p).map = s.map := by
  unfold State.clearFirstMember
  dsimp only
  split
  · exact setFirstMember_map _ _ _ _
  · rfl

theorem reevalField_map (s : State) (c : Claim) (p : PointNo) (cause : Cause) :
    (s.reevalField c p cause).map = s.map := by
  unfold State.reevalField
  dsimp only
  split
  · rw [recordCondition_map, recordQuality_map]
  · exact recordQuality_map _ _ _ _ _

theorem reevalGroup_map (s : State) (c : Claim) (p : PointNo) (ch : Option PointNo) (cause : Cause) :
    (s.reevalGroup c p ch cause).map = s.map := by
  unfold State.reevalGroup
  dsimp only
  split
  · split
    · rw [setFirstMember_map, recordCondition_map, recordQuality_map]
    · rw [clearFirstMember_map, recordCondition_map, recordQuality_map]
  · rw [clearFirstMember_map, recordCondition_map, recordQuality_map]

theorem propagate_map (n : Nat) (c : Claim) (p : PointNo) (s : State) : (s.propagate n c p).map = s.map := by
  induction n generalizing p s with
  | zero => rfl
  | succ n ih =>
    unfold State.propagate
    split
    · rfl
    · split
      · dsimp only
        split
        · rw [ih, reevalGroup_map]
        · exact reevalGroup_map _ _ _ _ _
      · rfl

theorem carryUp_map (s : State) (c : Claim) (p : PointNo) : (s.carryUp c p).map = s.map := propagate_map _ _ _ _

theorem reevaluate_map (s : State) (c : Claim) (p : PointNo) (cause : Cause) : (s.reevaluate c p cause).map = s.map := by
  have key : ∀ t : State, t.map = s.map → (if changedBetween s t p then t.carryUp c p else t).map = s.map := by
    intro t h
    split
    · rw [carryUp_map, h]
    · exact h
  unfold State.reevaluate
  dsimp only
  cases (s.pt p).kind with
  | spare => exact key _ rfl
  | field => exact key _ (reevalField_map _ _ _ _)
  | group => exact key _ (reevalGroup_map _ _ _ _ _)

/-- A FIELD point re-evaluated holds the quality its entries give, and at GOOD quality the condition (R8 to R12). -/
theorem reevalField_upToDate (s : State) (c : Claim) (p : PointNo) (cause : Cause) :
    ((s.reevalField c p cause).pt p).quality = s.fieldQuality p
      ∧ (s.fieldQuality p = .good → ((s.reevalField c p cause).pt p).condition = s.fieldCondition p) := by
  unfold State.reevalField
  dsimp only
  split
  · rw [recordCondition_pt_self, recordQuality_pt_self]
    refine ⟨rfl, fun _ => ?_⟩
    exact fieldCondition_congr (recordQuality_map _ _ _ _ _) p
  · next h =>
    rw [recordQuality_pt_self]
    exact ⟨rfl, fun e => absurd e h⟩

end Sys2Proof.Machine
end

