-- ==== Sys2Proof/Laws/UpToDate.lean ====
section
/-! SUPPORT. That the Point Engine brings points up to date, said once: what a change of one point, carried up its chain,
leaves of `State.UpToDate` (R12, R31 to R36). -/

namespace Sys2Proof.Machine

theorem points_any (s : State) (f : PointRec → Bool) : s.points.toArray.toList.any f = true ↔ ∃ q, f (s.pt q) = true := by
  rw [List.any_eq_true]
  constructor
  · rintro ⟨r, hr, h⟩
    obtain ⟨i, hi, rfl⟩ := List.mem_iff_getElem.1 hr
    exact ⟨⟨i, by simpa using hi⟩, by simpa [State.pt] using h⟩
  · rintro ⟨q, h⟩
    exact ⟨s.pt q, by simp [State.pt], h⟩

theorem map_any (s : State) (f : MapEntry → Bool) : s.map.toArray.toList.any f = true ↔ ∃ i, f (s.ent i) = true := by
  rw [List.any_eq_true]
  constructor
  · rintro ⟨r, hr, h⟩
    obtain ⟨i, hi, rfl⟩ := List.mem_iff_getElem.1 hr
    exact ⟨⟨i, by simpa using hi⟩, by simpa [State.ent] using h⟩
  · rintro ⟨i, h⟩
    exact ⟨s.ent i, by simp [State.ent], h⟩

theorem points_any_congr {s t : State} {f : PointRec → Bool} (h : ∀ q, f (t.pt q) = f (s.pt q)) :
    t.points.toArray.toList.any f = s.points.toArray.toList.any f := by
  rw [Bool.eq_iff_iff, points_any, points_any]
  simp only [h]

/-- The entries that contribute to a point are as they were, and no others contribute. -/
def SameEntries (s t : State) (x : PointNo) : Prop :=
  ∀ i, t.ent i = s.ent i ∨ (t.ent i).contributes x = false ∧ (s.ent i).contributes x = false

/-- Condition, quality and service of a point, its kind and its parent are as they were. -/
structure SameFace (r q : PointRec) : Prop where
  kind : q.kind = r.kind
  parent : q.parent = r.parent
  condition : q.condition = r.condition
  quality : q.quality = r.quality
  service : q.service = r.service

theorem SameFace.refl (r : PointRec) : SameFace r r := ⟨rfl, rfl, rfl, rfl, rfl⟩

theorem field_congr {s t : State} {x : PointNo} (h : SameEntries s t x) :
    t.fieldQuality x = s.fieldQuality x ∧ t.fieldCondition x = s.fieldCondition x := by
  have key : ∀ f : MapEntry → Bool, t.map.toArray.toList.any (fun e => e.contributes x && f e) =
      s.map.toArray.toList.any fun e => e.contributes x && f e := by
    intro f
    rw [Bool.eq_iff_iff, map_any, map_any]
    refine exists_congr fun i => ?_
    rcases h i with e | ⟨e1, e2⟩
    · rw [e]
    · rw [e1, e2]; simp
  constructor
  · unfold State.fieldQuality
    simp only [key fun e => e.appliedQuality == _]
  · unfold State.fieldCondition
    rw [key]

theorem group_congr {s t : State} {x : PointNo}
    (h : ∀ q, (s.pt q).parent = some x ∨ (t.pt q).parent = some x → SameFace (s.pt q) (t.pt q)) :
    t.groupQuality x = s.groupQuality x ∧ t.groupCondition x = s.groupCondition x := by
  have key : ∀ f : PointRec → Bool, (∀ r q : PointRec, SameFace r q → f q = f r) →
      t.points.toArray.toList.any (fun r => r.countsIn x && f r) =
        s.points.toArray.toList.any fun r => r.countsIn x && f r := by
    intro f hf
    refine points_any_congr fun q => ?_
    by_cases hq : (s.pt q).parent = some x ∨ (t.pt q).parent = some x
    · have := h q hq
      simp only [PointRec.countsIn, this.parent, this.service, hf _ _ this]
    · rw [not_or] at hq
      have h1 : ((s.pt q).parent == some x) = false := beq_eq_false_iff_ne.2 hq.1
      have h2 : ((t.pt q).parent == some x) = false := beq_eq_false_iff_ne.2 hq.2
      simp only [PointRec.countsIn, h1, h2, Bool.false_and]
  constructor
  · unfold State.groupQuality
    rw [key (fun r => r.quality != .good) fun r q h => by rw [h.quality]]
  · unfold State.groupCondition
    rw [key (fun r => r.condition == .abnormal) fun r q h => by rw [h.condition]]

/-- A point stays up to date where neither it, nor what it is made of, changes. -/
theorem State.UpToDate.congr {s t : State} {x : PointNo} (hu : s.UpToDate x) (hk : (t.pt x).kind = (s.pt x).kind)
    (hq : (t.pt x).quality = (s.pt x).quality) (hc : (t.pt x).condition = (s.pt x).condition)
    (hm : (s.pt x).kind = .field → SameEntries s t x)
    (hg : (s.pt x).kind = .group →
      ∀ q, (s.pt q).parent = some x ∨ (t.pt q).parent = some x → SameFace (s.pt q) (t.pt q)) :
    t.UpToDate x := by
  unfold State.UpToDate at *
  rw [hk, hq, hc]
  cases e : (s.pt x).kind with
  | spare => trivial
  | field =>
    rw [e] at hu
    rw [(field_congr (hm e)).1, (field_congr (hm e)).2]
    exact hu
  | group =>
    rw [e] at hu
    rw [(group_congr (hg e)).1, (group_congr (hg e)).2]
    exact hu

theorem sameEntries_of_map {s t : State} (h : t.map = s.map) (x : PointNo) : SameEntries s t x :=
  fun i => Or.inl (by unfold State.ent; simp only [h])

variable {S : PointNo → Prop}

/-- The face of a point that has changed in neither condition, quality nor service. -/
theorem Moves.sameFace {s t : State} {P S : PointNo → Prop} (h : Moves s t P S) {p : PointNo}
    (hc : changedBetween s t p = false) : SameFace (s.pt p) (t.pt p) := by
  simp only [changedBetween, Bool.not_eq_false', Bool.and_eq_true, beq_iff_eq] at hc
  exact ⟨h.kind p, h.parent p, hc.1.1.symm, hc.1.2.symm, hc.2.symm⟩

/-- Where one point has moved, every other point is as far up to date as it was, but the parent. -/
theorem Moves.others {s t : State} {p x : PointNo} (h : Moves s t (· = p) S) (hu : s.UpToDate x) (hx : x ≠ p)
    (hm : SameEntries s t x)
    (hp : (s.pt x).kind = .group → (s.pt p).parent = some x → changedBetween s t p = false) : t.UpToDate x := by
  have e := h.off x hx
  refine hu.congr (by rw [e]) (by rw [e]) (by rw [e]) (fun _ => hm) fun hg q hq => ?_
  rw [h.parent q, or_self] at hq
  by_cases hqp : q = p
  · subst hqp; exact h.sameFace (hp hg hq)
  · rw [h.off q hqp]; exact .refl _

/-- A point that is its own parent has a chain without end. -/
theorem parent_ne_self {s : State} {n : Nat} {p : PointNo} (h : s.depth (n + 1) p ≤ n) : (s.pt p).parent ≠ some p := by
  intro e
  have : ∀ m, s.depth m p = m := by
    intro m
    induction m with
    | zero => rfl
    | succ m ih => unfold State.depth; rw [e]; simp [ih]
  rw [this] at h
  omega

/-- A GROUP point re-evaluated has the condition and the quality that its children give (R31 to R33). -/
theorem reevalGroup_upToDate {s : State} {g : PointNo} (c : Claim) (child : Option PointNo) (cause : Cause)
    (hk : (s.pt g).kind = .group) (hp : (s.pt g).parent ≠ some g) : (s.reevalGroup c g child cause).UpToDate g := by
  have hm : Moves s (s.reevalGroup c g child cause) (· = g) (fun _ => False) := moves_reevalGroup _ _ _ _ _
  have same : ∀ {t : State}, Moves s t (· = g) (fun _ => False) →
      t.groupQuality g = s.groupQuality g ∧ t.groupCondition g = s.groupCondition g := by
    intro t h
    refine group_congr fun q hq => ?_
    rw [h.parent q, or_self] at hq
    have hqg : q ≠ g := by rintro rfl; exact hp hq
    rw [h.off q hqg]
    exact .refl _
  unfold State.UpToDate
  rw [hm.kind, hk]
  dsimp only
  rw [(same hm).1, (same hm).2]
  have h1 : Moves s (s.recordQuality c g cause (s.groupQuality g)) (· = g) (fun _ => False) :=
    moves_recordQuality _ _ _ _ _
  have key : ∀ t : State, (t.pt g).quality = s.groupQuality g →
      (t.pt g).condition = (s.recordQuality c g cause (s.groupQuality g)).groupCondition g →
      (t.pt g).quality = s.groupQuality g ∧ (t.pt g).condition = s.groupCondition g :=
    fun t hq hc => ⟨hq, hc.trans (same h1).2⟩
  have hclear : ∀ t : State, ((t.clearFirstMember c g).pt g).quality = (t.pt g).quality
      ∧ ((t.clearFirstMember c g).pt g).condition = (t.pt g).condition := by
    intro t
    unfold State.clearFirstMember
    dsimp only
    split
    · rw [setFirstMember_pt_self]; exact ⟨rfl, rfl⟩
    · exact ⟨rfl, rfl⟩
  have h2q : ∀ cond, (((s.recordQuality c g cause (s.groupQuality g)).recordCondition c g cause cond).pt g).quality =
      s.groupQuality g := fun cond => by rw [recordCondition_pt_self, recordQuality_pt_self]
  have h2c : ∀ cond,
      (((s.recordQuality c g cause (s.groupQuality g)).recordCondition c g cause cond).pt g).condition = cond :=
    fun cond => by rw [recordCondition_pt_self]
  unfold State.reevalGroup
  dsimp only
  split
  · split
    · refine key _ ?_ ?_ <;> rw [setFirstMember_pt_self]
      · exact h2q _
      · exact h2c _
    · exact key _ ((hclear _).1.trans (h2q _)) ((hclear _).2.trans (h2c _))
  · exact key _ ((hclear _).1.trans (h2q _)) ((hclear _).2.trans (h2c _))

/-- A change carried up the chain: the parent is brought up to date, and every point that was so stays so (R34). -/
theorem propagate_upToDate (n : Nat) (c : Claim) (p : PointNo) (s : State) (hd : s.depth (n + 1) p ≤ n) :
    (∀ g, (s.pt p).parent = some g → (s.pt g).kind = .group → (s.propagate n c p).UpToDate g)
      ∧ KeepsUpToDate s (s.propagate n c p) := by
  induction n generalizing p s with
  | zero =>
    refine ⟨fun g hg => ?_, fun _ h => h⟩
    simp [State.depth, hg] at hd
  | succ n ih =>
    unfold State.propagate
    split
    · next e => exact ⟨fun g hg => absurd (hg.symm.trans e) (by simp), fun _ h => h⟩
    · next g hg =>
      split
      · next hk =>
        have hdg : s.depth (n + 1) g ≤ n := by
          rw [State.depth, hg] at hd
          simpa using hd
        have hpg := parent_ne_self hdg
        have hm : Moves s (s.reevalGroup c g (some p) .member) (· = g) (fun _ => False) := moves_reevalGroup _ _ _ _ _
        have hme : (s.reevalGroup c g (some p) .member).map = s.map := reevalGroup_map _ _ _ _ _
        have hug := reevalGroup_upToDate c (some p) .member hk hpg
        dsimp only
        split
        · have h := ih g (s.reevalGroup c g (some p) .member) (by rw [hm.depth]; exact hdg)
          refine ⟨fun x hx _ => ?_, fun x hx => ?_⟩
          · rw [hg, Option.some.injEq] at hx
            subst hx
            exact h.2 g hug
          · by_cases hxg : x = g
            · subst hxg; exact h.2 x hug
            · by_cases hxp : (s.pt g).parent = some x ∧ (s.pt x).kind = .group
              · exact h.1 x (by rw [hm.parent]; exact hxp.1) (by rw [hm.kind]; exact hxp.2)
              · exact h.2 x (hm.others hx hxg (sameEntries_of_map hme x) fun a b => absurd ⟨b, a⟩ hxp)
        · next hch =>
          rw [Bool.not_eq_true] at hch
          refine ⟨fun x hx _ => ?_, fun x hx => ?_⟩
          · rw [hg, Option.some.injEq] at hx
            subst hx
            exact hug
          · by_cases hxg : x = g
            · subst hxg; exact hug
            · exact hm.others hx hxg (sameEntries_of_map hme x) fun _ _ => hch
      · next hk =>
        refine ⟨fun x hx h => ?_, fun _ h => h⟩
        rw [hg, Option.some.injEq] at hx
        subst hx
        exact absurd h hk

theorem carryUp_upToDate {s : State} {p : PointNo} (c : Claim) (hd : s.depth 4 p ≤ 3) :
    (∀ g, (s.pt p).parent = some g → (s.pt g).kind = .group → (s.carryUp c p).UpToDate g)
      ∧ KeepsUpToDate s (s.carryUp c p) :=
  propagate_upToDate 3 c p s hd

/-- A point has moved, with the map entries of no other, and the change is carried up: every other point that was up to date
stays so, and the parent is up to date (R34, R36). -/
theorem Moves.carried {s t : State} {p : PointNo} (h : Moves s t (· = p) S) (c : Claim) (hd : s.depth 4 p ≤ 3)
    (hm : ∀ x, x ≠ p → SameEntries s t x) (hp : s.UpToDate p → t.UpToDate p) : KeepsUpToDate s (t.carryUp c p) := by
  have k := carryUp_upToDate (s := t) c (by rw [h.depth]; exact hd)
  intro x hx
  by_cases hxp : x = p
  · subst hxp; exact k.2 x (hp hx)
  · by_cases hg : (s.pt p).parent = some x ∧ (s.pt x).kind = .group
    · exact k.1 x (by rw [h.parent]; exact hg.1) (by rw [h.kind]; exact hg.2)
    · exact k.2 x (h.others hx hxp (hm x hxp) fun a b => absurd ⟨b, a⟩ hg)

/-- A re-evaluation brings the point up to date, and keeps every point so that was (R12, R34). -/
theorem reevaluate_upToDate {s : State} {p : PointNo} (c : Claim) (cause : Cause) (hd : s.depth 4 p ≤ 3) :
    (s.reevaluate c p cause).UpToDate p ∧ KeepsUpToDate s (s.reevaluate c p cause) := by
  have hps := parent_ne_self hd
  have key : ∀ t : State, Moves s t (· = p) (fun _ => False) → t.map = s.map → t.UpToDate p →
      (if changedBetween s t p then t.carryUp c p else t).UpToDate p
        ∧ KeepsUpToDate s (if changedBetween s t p then t.carryUp c p else t) := by
    intro t h hme ht
    split
    · exact ⟨(carryUp_upToDate (s := t) c (by rw [h.depth]; exact hd)).2 p ht,
        h.carried c hd (fun x _ => sameEntries_of_map hme x) fun _ => ht⟩
    · next hch =>
      rw [Bool.not_eq_true] at hch
      refine ⟨ht, fun x hx => ?_⟩
      by_cases hxp : x = p
      · subst hxp; exact ht
      · exact h.others hx hxp (sameEntries_of_map hme x) fun _ _ => hch
  unfold State.reevaluate
  dsimp only
  cases e : (s.pt p).kind with
  | spare => exact key _ (.refl _ _ _) rfl (by unfold State.UpToDate; rw [e]; trivial)
  | field =>
    refine key _ (moves_reevalField _ _ _ _) (reevalField_map _ _ _ _) ?_
    have hm : Moves s (s.reevalField c p cause) (· = p) (fun _ => False) := moves_reevalField _ _ _ _
    have hu := reevalField_upToDate s c p cause
    unfold State.UpToDate
    rw [hm.kind, e, fieldQuality_congr (reevalField_map _ _ _ _), fieldCondition_congr (reevalField_map _ _ _ _)]
    exact ⟨hu.1, fun hg => hu.2 (hu.1.symm.trans hg)⟩
  | group => exact key _ (moves_reevalGroup _ _ _ _ _) (reevalGroup_map _ _ _ _ _) (reevalGroup_upToDate c none cause e hps)

/-- The parent of a point whose re-evaluation has changed it is up to date (R34). -/
theorem reevaluate_parent {s : State} {p g : PointNo} (c : Claim) (cause : Cause) (hd : s.depth 4 p ≤ 3)
    (hg : (s.pt p).parent = some g) (hk : (s.pt g).kind = .group)
    (hch : changedBetween s (s.reevaluate c p cause) p = true) : (s.reevaluate c p cause).UpToDate g := by
  have key : ∀ t : State, Moves s t (· = p) (fun _ => False) →
      changedBetween s (if changedBetween s t p then t.carryUp c p else t) p = true →
      (if changedBetween s t p then t.carryUp c p else t).UpToDate g := by
    intro t h hc
    split
    · exact (carryUp_upToDate (s := t) c (by rw [h.depth]; exact hd)).1 g (by rw [h.parent]; exact hg)
        (by rw [h.kind]; exact hk)
    · next hn => rw [if_neg hn] at hc; exact absurd hc hn
  unfold State.reevaluate at *
  dsimp only at *
  cases e : (s.pt p).kind with
  | spare => rw [e] at hch; exact key _ (.refl _ _ _) hch
  | field => rw [e] at hch; exact key _ (moves_reevalField _ _ _ _) hch
  | group => rw [e] at hch; exact key _ (moves_reevalGroup _ _ _ _ _) hch

/-- What a point keeps of being up to date where its condition, its quality and its own entries stay. -/
theorem Moves.self {s t : State} {p : PointNo} (h : Moves s t (· = p) S) (hps : (s.pt p).parent ≠ some p)
    (hm : t.map = s.map) (hq : (t.pt p).quality = (s.pt p).quality) (hc : (t.pt p).condition = (s.pt p).condition)
    (hu : s.UpToDate p) : t.UpToDate p := by
  refine hu.congr (h.kind p) hq hc (fun _ => sameEntries_of_map hm p) fun _ q hqp => ?_
  rw [h.parent q, or_self] at hqp
  have : q ≠ p := by rintro rfl; exact hps hqp
  rw [h.off q this]
  exact .refl _

theorem setService_map (s : State) (c : Claim) (p : PointNo) (cause : Cause) (v : Service) (timer : Option Nat) :
    (s.setService c p cause v timer).map = s.map := by
  unfold State.setService
  dsimp only
  rw [emitPoint_map]; rfl

theorem clearFirstMember_face (s : State) (c : Claim) (p : PointNo) :
    ((s.clearFirstMember c p).pt p).quality = (s.pt p).quality
      ∧ ((s.clearFirstMember c p).pt p).condition = (s.pt p).condition := by
  unfold State.clearFirstMember
  dsimp only
  split
  · rw [setFirstMember_pt_self]; exact ⟨rfl, rfl⟩
  · exact ⟨rfl, rfl⟩

/-- SHELVE and REMOVE in RUN keep every point up to date that was so, the groups above included (R36). -/
theorem leaveService_upToDate {s : State} {p : PointNo} (c : Claim) (cause : Cause) (v : Service) (timer : Option Nat)
    (hd : s.depth 4 p ≤ 3) : KeepsUpToDate s (s.leaveService c p cause v timer) := by
  have hf : Moves s (s.forceNormal c p cause) (· = p) (· = p) := moves_forceNormal _ _ _ _
  have hm := (hf.trans (moves_setService _ c p cause v timer)).trans (moves_clearFirstMember _ c p)
  have fq : ((s.forceNormal c p cause).pt p).quality = (s.pt p).quality
      ∧ ((s.forceNormal c p cause).pt p).condition = (s.pt p).condition ∧ (s.forceNormal c p cause).map = s.map := by
    unfold State.forceNormal
    split
    · exact ⟨rfl, rfl, rfl⟩
    · rw [transition_pt_self]; exact ⟨rfl, rfl, transition_map _ _ _ _ _⟩
  have hmap : (((s.forceNormal c p cause).setService c p cause v timer).clearFirstMember c p).map = s.map := by
    rw [clearFirstMember_map, setService_map, fq.2.2]
  refine hm.carried c hd (fun x _ => sameEntries_of_map hmap x) (hm.self (parent_ne_self hd) hmap ?_ ?_)
  · rw [(clearFirstMember_face _ _ _).1, setService_pt_self]; exact fq.1
  · rw [(clearFirstMember_face _ _ _).2, setService_pt_self]; exact fq.2.1

/-- UNSHELVE, RESTORE and a shelve expiry keep every point up to date that was so (R36). -/
theorem returnToService_upToDate {s : State} {p : PointNo} (c : Claim) (cause : Cause) (hd : s.depth 4 p ≤ 3) :
    KeepsUpToDate s (s.returnToService c p cause) := by
  have hm : Moves s (s.setService c p cause .inService none) (· = p) (· = p) := moves_setService _ _ _ _ _ _
  have key : ∀ t : State, Moves s t (· = p) (· = p) → t.map = s.map → (t.pt p).quality = (s.pt p).quality →
      (t.pt p).condition = (s.pt p).condition → KeepsUpToDate s (t.carryUp c p) := fun t h h1 h2 h3 =>
    h.carried c hd (fun x _ => sameEntries_of_map h1 x) (h.self (parent_ne_self hd) h1 h2 h3)
  unfold State.returnToService
  dsimp only
  split
  · refine key _ (hm.trans (moves_transition _ _ _ _ _)) ?_ ?_ ?_
    · rw [transition_map, setService_map]
    · rw [transition_pt_self, setService_pt_self]
    · rw [transition_pt_self, setService_pt_self]
  · refine key _ hm (setService_map _ _ _ _ _ _) ?_ ?_
    · rw [setService_pt_self]
    · rw [setService_pt_self]

/-- The clearing of a point's latches leaves the entries of every other point (R7). -/
theorem clearLatches_sameEntries (s : State) {p x : PointNo} (h : x ≠ p) : SameEntries s (s.clearLatches p) x := by
  intro i
  have e : (s.clearLatches p).ent i = if (s.ent i).names p then { s.ent i with latch := false } else s.ent i := by
    unfold State.clearLatches State.ent
    simp
  rw [e]
  split
  · next hn =>
    right
    have hv : (s.ent i).names x = false := by
      simp only [MapEntry.names, Bool.and_eq_true, beq_iff_eq] at hn
      simp only [MapEntry.names, hn.1, hn.2, Bool.true_and, beq_eq_false_iff_ne, ne_eq, Option.some.injEq]
      exact fun e => h e.symm
    have hv' : ({ s.ent i with latch := false } : MapEntry).names x = false := hv
    simp only [MapEntry.contributes, hv, hv', Bool.false_and, and_self]
  · exact Or.inl rfl

/-- A new map entry for the same point leaves the entries of every other point (R134, R136). -/
theorem setEnt_sameEntries (s : State) {i : InputNo} {m : MapEntry} {p x : PointNo} (h0 : (s.ent i).point = some p)
    (h1 : m.point = some p) (h : x ≠ p) : SameEntries s (s.setEnt i m) x := by
  have other : ∀ e : MapEntry, e.point = some p → e.contributes x = false := by
    intro e he
    have hx : (some p == some x) = false := beq_eq_false_iff_ne.2 fun e => h (Option.some.inj e).symm
    simp only [MapEntry.contributes, MapEntry.names, he, hx, Bool.and_false, Bool.false_and]
  intro j
  rw [State.ent_setEnt]
  split
  · next e => subst e; exact Or.inr ⟨other m h1, other _ h0⟩
  · exact Or.inl rfl

/-- An acknowledgement brings the point up to date, and keeps every point so that was (R49). -/
theorem acknowledge_upToDate {s : State} {p : PointNo} (c : Claim) (hd : s.depth 4 p ≤ 3) :
    (s.acknowledge c p).UpToDate p ∧ KeepsUpToDate s (s.acknowledge c p) := by
  have key : ∀ t : State, Moves s t (· = p) (fun _ => False) → t.map = s.map →
      (t.pt p).quality = (s.pt p).quality → (t.pt p).condition = (s.pt p).condition →
      ((t.clearLatches p).reevaluate c p .latchClear).UpToDate p
        ∧ KeepsUpToDate s ((t.clearLatches p).reevaluate c p .latchClear) := by
    intro t h hmap hq hc
    have h1 := h.trans (moves_clearLatches (S := fun _ => False) t p)
    have k := reevaluate_upToDate (s := t.clearLatches p) c .latchClear (by rw [h1.depth]; exact hd)
    refine ⟨k.1, fun x hx => ?_⟩
    by_cases hxp : x = p
    · subst hxp; exact k.1
    · refine k.2 x (h1.others hx hxp ?_ fun _ _ => ?_)
      · intro i
        have := clearLatches_sameEntries t hxp i
        have e : t.ent i = s.ent i := by unfold State.ent; simp only [hmap]
        rw [e] at this
        exact this
      · have hs := h.service p (fun e => e)
        have e : (t.clearLatches p).pt p = t.pt p := rfl
        simp [changedBetween, e, hq, hc, hs.1]
  unfold State.acknowledge
  dsimp only
  split
  · exact key _ (.refl _ _ _) rfl rfl rfl
  · refine key _ ((moves_transition _ _ _ _ _).trans (moves_clearFirstMember _ _ _)) ?_ ?_ ?_
    · rw [clearFirstMember_map, transition_map]
    · rw [(clearFirstMember_face _ _ _).1, transition_pt_self]
    · rw [(clearFirstMember_face _ _ _).2, transition_pt_self]

end Sys2Proof.Machine
end

