-- ==== Sys2Proof/Laws/Formed.lean ====
section
/-! SUPPORT. What a re-evaluation makes of a point and of its parent group, field by field, and the records that it appends,
in their order: `PointRec.driven`, `formedDrafts` and `groupDrafts` say it once. -/

namespace Sys2Proof.Machine

/-- Appends of nothing, for a state of the same Event Record. -/
theorem Appends.of_log {s t u : State} {ds : List RecordDraft} (h : Appends s t ds) (e : u.log = t.log) : Appends s u ds :=
  h.congr rfl e

theorem driven_same (r : PointRec) : r.driven r.condition = none := by simp [PointRec.driven]

theorem stateAfter_same (r : PointRec) : r.stateAfter r.condition = r.seqState := by
  simp [PointRec.stateAfter, driven_same]

/-- Only the type, the sequence state, the condition, the service and the kind decide where a condition drives a point. -/
theorem driven_congr {r q : PointRec} (h : q.seqType = r.seqType) (h1 : q.seqState = r.seqState)
    (h2 : q.condition = r.condition) (h3 : q.service = r.service) (h4 : q.kind = r.kind) (c : Condition) :
    q.driven c = r.driven c := by
  unfold PointRec.driven
  rw [h, h1, h2, h3, h4]

section
variable {s : State} (c : Claim) (p : PointNo) (cause : Cause)

/-- The quality step is a record and its notices, or nothing (R12). -/
theorem appends_recordQuality (hb : s.log.ring.length ≤ 1024) (q : PointQuality) :
    Appends s (s.recordQuality c p cause q)
      (if (s.pt p).quality ≠ q then [pointDraft c p cause (.pointQuality (s.pt p).quality q)] else []) := by
  unfold State.recordQuality
  dsimp only
  by_cases h : (s.pt p).quality = q
  · rw [if_pos h, if_neg fun k => k h]; exact appends_nil rfl hb
  · rw [if_neg h, if_pos h]
    exact (appends_emitPoint (s := s.setPt p { s.pt p with quality := q }) c p cause hb _).congr rfl rfl

/-- The condition step, by where the condition drives the point: a transition to the state of the table's cell, or the
condition alone (R12, R14 to R16). -/
theorem recordCondition_eq (cond : Condition) :
    s.recordCondition c p cause cond =
      match (s.pt p).driven cond with
      | none => if (s.pt p).condition = cond then s else s.setPt p { s.pt p with condition := cond }
      | some st => (s.setPt p { s.pt p with condition := cond }).transition c p cause st := by
  unfold State.recordCondition
  dsimp only
  by_cases h : (s.pt p).condition = cond
  · have hd : (s.pt p).driven cond = none := if_neg fun k => k.1 h
    rw [hd]
    exact (if_pos h).trans (if_pos h).symm
  · refine (if_neg h).trans ?_
    by_cases hs : (s.pt p).service = .inService ∧ (s.pt p).kind ≠ .spare
    · have hd : (s.pt p).driven cond = seqTable (s.pt p).seqType (s.pt p).seqState (s.pt p).condition
        (if cond = .abnormal then .up else .down) := if_pos ⟨h, hs⟩
      rw [hd]
      generalize seqTable _ _ _ _ = cell
      cases cell with
      | none => exact (if_neg h).symm
      | some st => exact if_pos hs
    · have hd : (s.pt p).driven cond = none := if_neg fun k => hs k.2
      rw [hd]
      generalize seqTable _ _ _ _ = cell
      cases cell with
      | none => exact (if_neg h).symm
      | some st => exact (if_neg hs).trans (if_neg h).symm

theorem recordCondition_pt (cond : Condition) :
    (s.recordCondition c p cause cond).pt p =
      { s.pt p with
        condition := cond, seqState := (s.pt p).stateAfter cond
        lastChange := ((s.recordCondition c p cause cond).pt p).lastChange } := by
  rw [recordCondition_eq]
  unfold PointRec.stateAfter
  cases h : (s.pt p).driven cond with
  | none =>
    dsimp only [Option.getD_none]
    split
    · next e => rw [← e]
    · rw [State.pt_setPt_self]
  | some st =>
    dsimp only [Option.getD_some]
    rw [transition_pt_self, State.pt_setPt_self]

theorem appends_recordCondition (hb : s.log.ring.length ≤ 1024) (cond : Condition) :
    Appends s (s.recordCondition c p cause cond)
      (match (s.pt p).driven cond with
      | none => []
      | some st => [pointDraft c p cause (.pointState (s.pt p).seqState st cond (s.pt p).shownMember)]) := by
  rw [recordCondition_eq]
  cases (s.pt p).driven cond with
  | none =>
    dsimp only
    split
    · exact appends_nil rfl hb
    · exact appends_nil rfl hb
  | some st =>
    have h := appends_transition (s := s.setPt p { s.pt p with condition := cond }) c p cause hb st
    rw [State.pt_setPt_self] at h
    exact h.congr rfl rfl

/-- Quality and then condition: the record of the point, and its records in order. -/
theorem formed_spec (hb : s.log.ring.length ≤ 1024) (stateCause : Cause) (q : PointQuality) (cond : Condition) :
    let t := (s.recordQuality c p cause q).recordCondition c p stateCause cond
    t.pt p =
        { s.pt p with
          quality := q, condition := cond, seqState := (s.pt p).stateAfter cond, lastChange := (t.pt p).lastChange }
      ∧ Appends s t (formedDrafts c p cause stateCause (s.pt p) q cond) := by
  intro t
  have h1 := recordQuality_pt_self (s := s) c p cause q
  have hd : ((s.recordQuality c p cause q).pt p).driven cond = (s.pt p).driven cond := by
    rw [h1]; exact driven_congr rfl rfl rfl rfl rfl cond
  have hp : t.pt p = _ := recordCondition_pt (s := s.recordQuality c p cause q) c p stateCause cond
  have hq := appends_recordQuality c p cause hb q
  have hc := appends_recordCondition (s := s.recordQuality c p cause q) c p stateCause hq.length cond
  have hs : ((s.recordQuality c p cause q).pt p).stateAfter cond = (s.pt p).stateAfter cond := by
    unfold PointRec.stateAfter; rw [hd, h1]
  refine ⟨?_, ?_⟩
  · rw [hs, h1] at hp; exact hp
  · have := hq.trans hc
    rw [hd, h1] at this
    exact this

/-- A FIELD point re-evaluated (R8 to R12). -/
theorem reevalField_spec (hb : s.log.ring.length ≤ 1024) :
    let t := s.reevalField c p cause
    let r := s.pt p
    let q := s.fieldQuality p
    let cond := if q = .good then s.fieldCondition p else r.condition
    t.pt p =
        { r with quality := q, condition := cond, seqState := r.stateAfter cond, lastChange := (t.pt p).lastChange }
      ∧ Appends s t (formedDrafts c p cause (if r.quality = .good then cause else .qualityReturn) r q cond) := by
  have hback : (if ((s.pt p).quality != .good) = true then Cause.qualityReturn else cause)
      = if (s.pt p).quality = .good then cause else .qualityReturn := by
    cases (s.pt p).quality <;> rfl
  unfold State.reevalField
  dsimp only
  by_cases hq : s.fieldQuality p = .good
  · rw [if_pos hq, if_pos hq, hback, fieldCondition_congr (recordQuality_map _ _ _ _ _)]
    exact formed_spec c p cause hb _ _ _
  · rw [if_neg hq, if_neg hq]
    refine ⟨?_, ?_⟩
    · rw [stateAfter_same]
      exact recordQuality_pt_self c p cause _
    · have h := appends_recordQuality c p cause hb (s.fieldQuality p)
      unfold formedDrafts
      rw [driven_same]
      dsimp only
      rw [List.append_nil]
      exact h

end

/-- A GROUP point re-evaluated because of a change of its child, with the condition that its children give (R31 to R35, R40 to
R42). -/
theorem reevalGroup_spec {s : State} (c : Claim) (g child : PointNo) (hb : s.log.ring.length ≤ 1024)
    (hk : (s.pt g).kind = .group) :
    let t := s.reevalGroup c g (some child) .member
    let r := s.pt g
    ∃ cond : Condition, t.pt g =
        { r with
          quality := s.groupQuality g, condition := cond, seqState := r.stateAfter cond
          firstMember := (r.memberTaken child cond).getD r.firstMember, lastChange := (t.pt g).lastChange }
      ∧ Appends s t (groupDrafts c g child r (s.groupQuality g) cond) := by
  intro t r
  refine ⟨(s.recordQuality c g .member (s.groupQuality g)).groupCondition g, ?_⟩
  generalize hcond : (s.recordQuality c g .member (s.groupQuality g)).groupCondition g = cond
  have h := formed_spec (s := s) c g .member hb .member (s.groupQuality g) cond
  dsimp only at h
  generalize hu : (s.recordQuality c g .member (s.groupQuality g)).recordCondition c g .member cond = u at h
  have ht : t = if r.firstOut = true ∧ r.service = .inService ∧ r.seqState = .normal ∧ r.condition = .normal
      ∧ cond = .abnormal then u.setFirstMember c g (some child) else u.clearFirstMember c g := by
    show s.reevalGroup c g (some child) .member = _
    unfold State.reevalGroup
    dsimp only
    rw [hcond, hu]
  have hset : ∀ m : Option PointNo,
      (u.setFirstMember c g m).pt g =
          { r with
            quality := s.groupQuality g, condition := cond, seqState := r.stateAfter cond, firstMember := m
            lastChange := ((u.setFirstMember c g m).pt g).lastChange }
        ∧ (r.firstOut = true → Appends s (u.setFirstMember c g m)
            (formedDrafts c g .member .member r (s.groupQuality g) cond
              ++ [pointDraft c g .member (.pointState (r.stateAfter cond) (r.stateAfter cond) cond m)])) := by
    intro m
    refine ⟨?_, fun hf => ?_⟩
    · rw [setFirstMember_pt_self, h.1]
    · have ha := appends_setFirstMember (s := u) c g h.2.length m
      rw [h.1] at ha
      have e : (PointRec.stateBody
          { s.pt g with
            quality := s.groupQuality g, condition := cond, seqState := (s.pt g).stateAfter cond, firstMember := m
            lastChange := (u.pt g).lastChange } ((s.pt g).stateAfter cond))
          = .pointState (r.stateAfter cond) (r.stateAfter cond) cond m := by
        show RecordBody.pointState _ _ _ (if (s.pt g).kind = .group ∧ (s.pt g).firstOut = true then m else none) = _
        rw [if_pos ⟨hk, hf⟩]
      have h2 := h.2.trans ha
      rw [e] at h2
      exact h2
  have hug := congrArg PointRec.firstOut h.1
  have hus := congrArg PointRec.seqState h.1
  have hum := congrArg PointRec.firstMember h.1
  dsimp only at hug hus hum
  unfold groupDrafts PointRec.memberTaken
  rw [ht]
  split
  · next h1 =>
    exact ⟨(hset _).1, (hset _).2 h1.1⟩
  · unfold State.clearFirstMember
    dsimp only
    rw [hug, hus, hum]
    split
    · next h1 => exact ⟨(hset _).1, (hset _).2 h1.1⟩
    · refine ⟨?_, by rw [List.append_nil]; exact h.2⟩
      exact h.1

/-- A change carried up from `p` re-evaluates the parent group of `p` first, and nothing that follows touches it: its record
and its records, in terms of the state it ends in (R34, R35). -/
theorem carryUp_parent {s : State} {p g : PointNo} (c : Claim) (hd : s.depth 4 p ≤ 3) (hb : s.log.ring.length ≤ 1024)
    (hp : (s.pt p).parent = some g) (hk : (s.pt g).kind = .group) :
    let t := s.carryUp c p
    let r := s.pt g
    let cond := t.groupCondition g
    t.pt g =
        { r with
          quality := t.groupQuality g, condition := cond, seqState := r.stateAfter cond
          firstMember := (r.memberTaken p cond).getD r.firstMember, lastChange := (t.pt g).lastChange }
      ∧ AppendsThen s t (groupDrafts c g p r (t.groupQuality g) cond) fun d => d.cause = some .member := by
  intro t r cond
  obtain ⟨cnd, h1, h2⟩ := reevalGroup_spec (s := s) c g p hb hk
  have hup := (carryUp_upToDate c hd).1 g hp hk
  have ht : t = if changedBetween s (s.reevalGroup c g (some p) .member) g then
      State.propagate 2 c g (s.reevalGroup c g (some p) .member) else s.reevalGroup c g (some p) .member := by
    show State.propagate 3 c p s = _
    rw [State.propagate]
    simp only [hp, hk, if_true]
  have hm : Moves s (s.reevalGroup c g (some p) .member) (· = g) (fun _ => False) := moves_reevalGroup _ _ _ _ _
  have hdg : (s.reevalGroup c g (some p) .member).depth 3 g ≤ 2 := by
    rw [hm.depth]
    have : s.depth 4 p = s.depth 3 g + 1 := by simp [State.depth, hp]
    omega
  have hg : t.pt g = (s.reevalGroup c g (some p) .member).pt g := by
    rw [ht]
    split
    · exact (moves_propagate (S := fun _ => False) 2 c g _).off g (not_above_of_depth hdg)
    · rfl
  have happ : AppendsThen s t (groupDrafts c g p r (s.groupQuality g) cnd) fun d => d.cause = some .member := by
    rw [ht]
    split
    · exact h2.followed (appendsThen_propagate c g 2 h2.length)
    · exact ⟨[], by rw [List.append_nil]; exact h2, by simp⟩
  have hkt : (t.pt g).kind = .group := by rw [hg, hm.kind]; exact hk
  unfold State.UpToDate at hup
  have hup : (t.pt g).quality = t.groupQuality g ∧ (t.pt g).condition = t.groupCondition g := by
    change match (t.pt g).kind with
      | .spare => True
      | .field => _
      | .group => _ at hup
    rw [hkt] at hup
    exact hup
  have hq : s.groupQuality g = t.groupQuality g := by rw [← hup.1, hg, h1]
  have hc : cnd = cond := by
    show cnd = t.groupCondition g
    rw [← hup.2, hg, h1]
  subst hc
  rw [← hq]
  refine ⟨?_, happ⟩
  rw [hg]
  exact h1

/-- LEVEL and QUALITY entries lead here: a FIELD point re-evaluated, with what its change does to its parent group (R12,
R34). -/
theorem reevaluate_field_spec {s : State} {p : PointNo} (c : Claim) (cause : Cause) (hb : s.log.ring.length ≤ 1024)
    (hd : s.depth 4 p ≤ 3) (hk : (s.pt p).kind = .field) :
    let t := s.reevaluate c p cause
    let r := s.pt p
    let q := s.fieldQuality p
    let cond := if q = .good then s.fieldCondition p else r.condition
    let own := formedDrafts c p cause (if r.quality = .good then cause else .qualityReturn) r q cond
    let changed := cond ≠ r.condition ∨ q ≠ r.quality
    t.pt p =
        { r with quality := q, condition := cond, seqState := r.stateAfter cond, lastChange := (t.pt p).lastChange }
      ∧ (¬ changed → (∀ x, x ≠ p → t.pt x = s.pt x) ∧ Appends s t own)
      ∧ (changed → (∀ g, r.parent = some g → (s.pt g).kind ≠ .group) → Appends s t own)
      ∧ ∀ g, changed → r.parent = some g → (s.pt g).kind = .group →
          let h := s.pt g
          let cg := t.groupCondition g
          t.pt g =
              { h with
                quality := t.groupQuality g, condition := cg, seqState := h.stateAfter cg
                firstMember := (h.memberTaken p cg).getD h.firstMember, lastChange := (t.pt g).lastChange }
            ∧ AppendsThen s t (own ++ groupDrafts c g p h (t.groupQuality g) cg) fun d => d.cause = some .member := by
  intro t r q cond own changed
  obtain ⟨h1, h2⟩ := reevalField_spec (s := s) c p cause hb
  have hm : Moves s (s.reevalField c p cause) (· = p) (fun _ => False) := moves_reevalField _ _ _ _
  have hps := parent_ne_self hd
  have hdu : (s.reevalField c p cause).depth 4 p ≤ 3 := by rw [hm.depth]; exact hd
  have hch : changedBetween s (s.reevalField c p cause) p = true ↔ changed := by
    show _ ↔ cond ≠ r.condition ∨ q ≠ r.quality
    unfold changedBetween
    rw [h1]
    simp only [Bool.not_eq_true', Bool.and_eq_false_iff, beq_eq_false_iff_ne, ne_eq, not_true_eq_false, or_false]
    exact or_congr (not_congr eq_comm) (not_congr eq_comm)
  have ht : t = if changedBetween s (s.reevalField c p cause) p then (s.reevalField c p cause).carryUp c p
      else s.reevalField c p cause := by
    show s.reevaluate c p cause = _
    unfold State.reevaluate
    rw [hk]
  have hpt : t.pt p = (s.reevalField c p cause).pt p := by
    rw [ht]
    split
    · exact carryUp_pt_self c hdu
    · rfl
  refine ⟨by rw [hpt]; exact h1, fun hn => ?_, fun hy hg => ?_, fun g hy hpar hkg => ?_⟩
  · rw [ht, if_neg (fun e => hn (hch.1 e))]
    exact ⟨fun x hx => hm.off x hx, h2⟩
  · rw [ht, if_pos (hch.2 hy)]
    have hstop : (s.reevalField c p cause).carryUp c p = s.reevalField c p cause := by
      show State.propagate 3 c p _ = _
      rw [State.propagate, hm.parent]
      cases e : (s.pt p).parent with
      | none => rfl
      | some g => dsimp only; rw [hm.kind, if_neg (hg g e)]
    rw [hstop]
    exact h2
  · have hgp : g ≠ p := fun e => hps (by rw [← e]; exact e ▸ hpar)
    have h := carryUp_parent (s := s.reevalField c p cause) c hdu h2.length (by rw [hm.parent]; exact hpar)
      (by rw [hm.kind]; exact hkg)
    rw [hm.off g hgp] at h
    rw [ht, if_pos (hch.2 hy)]
    exact ⟨h.1, h2.prepend h.2⟩

end Sys2Proof.Machine
end

