-- ==== Sys2Proof/Laws/Holds.lean ====
section
/-! SUPPORT. What a queue holds: a notice placed at an attached port is in its queue or the queue is full, and it stays so
under every later placement of another identity, append and raising. -/

namespace Sys2Proof.Machine

/-- What a port holds depends on the queue and resync pending alone, and on the notices' classes and contents. -/
theorem Dispatch.Holds.congr {d e : Dispatch} {cls : PClass} {C : NoticeContent → Prop} (h : d.Holds cls C)
    (hl : e.queue.length = d.queue.length) (hr : e.resyncPending = d.resyncPending)
    (hq : ∀ n ∈ d.queue, ∃ m ∈ e.queue, m.cls = n.cls ∧ m.content = n.content) : e.Holds cls C := by
  rcases h with ⟨n, hn, hc, hC⟩ | ⟨h24, hp⟩
  · obtain ⟨m, hm, h1, h2⟩ := hq n hn
    exact Or.inl ⟨m, hm, h1.trans hc, by rw [h2]; exact hC⟩
  · exact Or.inr ⟨by rw [hl]; exact h24, by rw [hr]; exact hp⟩

@[simp] theorem handNotice_dsp (s : State) (p q : Port) (b : List Byte) : (s.handNotice p b).dsp q = s.dsp q := by
  unfold State.handNotice
  dsimp only
  split <;> rfl

section
variable {s : State} {p q : Port} {cls : PClass} {C : NoticeContent → Prop}

/-- The test of R77 keeps every notice with its class and content. -/
theorem Dispatch.Holds.testOffer (h : (s.dsp q).Holds cls C) : ((s.testOffer p).dsp q).Holds cls C := by
  unfold State.testOffer
  dsimp only
  split
  · split
    · exact h
    · next n _ =>
      rw [handNotice_dsp, State.dsp_setDsp]
      split
      · next e =>
        subst e
        refine h.congr (by simp [Dispatch.afterOffer, updateNotice]) rfl fun m hm => ?_
        refine ⟨_, List.mem_map.mpr ⟨m, hm, rfl⟩, ?_⟩
        split <;> exact ⟨rfl, rfl⟩
      · exact h
  · exact h

/-- A placement of an identity that `C` shuts out takes nothing away. -/
theorem Dispatch.Holds.place {c : NoticeContent} {k : PClass} (h : (s.dsp q).Holds cls C)
    (hc : ∀ c', C c' → c'.identity ≠ c.identity) : ((s.place p c k).dsp q).Holds cls C := by
  refine Dispatch.Holds.testOffer ?_
  unfold State.enqueue
  dsimp only
  split
  · exact h
  · split
    · rw [State.dsp_setDsp]
      split
      · next e =>
        subst e
        rcases h with ⟨n, hn, h1, h2⟩ | ⟨h1, h2⟩
        · refine Or.inl ⟨n, List.mem_map.mpr ⟨n, hn, ?_⟩, h1, h2⟩
          unfold Notice.absorb
          rw [if_neg]
          simp only [coalescesInto, Bool.and_eq_true, beq_iff_eq, not_and]
          exact fun _ => hc _ h2
        · exact Or.inr ⟨by simpa using h1, h2⟩
      · exact h
    · split
      · rw [State.dsp_setDsp]
        split
        · next e =>
          subst e
          rcases h with ⟨n, hn, h1, h2⟩ | ⟨h1, h2⟩
          · exact Or.inl ⟨n, List.mem_append_left _ hn, h1, h2⟩
          · exact Or.inr ⟨by simp [Dispatch.appendNotice]; omega, h2⟩
        · exact h
      · rw [State.handOn_dsp, State.dsp_setDsp]
        split
        · next e =>
          subst e
          rcases h with h | ⟨h1, h2⟩
          · exact Or.inl h
          · exact Or.inr ⟨h1, rfl⟩
        · exact h

/-- A notice placed at an attached port is held there. -/
theorem holds_place {c : NoticeContent} (hd : (s.dsp p).state ≠ .detached) (hc : C c) :
    ((s.place p c cls).dsp p).Holds cls C := by
  refine Dispatch.Holds.testOffer ?_
  unfold State.enqueue
  dsimp only
  rw [if_neg hd]
  split
  · next h =>
    obtain ⟨n, hn, hi⟩ := List.any_eq_true.1 h
    rw [State.dsp_setDsp_self]
    exact Or.inl ⟨_, List.mem_map.mpr ⟨n, hn, rfl⟩, by simp [Notice.absorb, hi], by simpa [Notice.absorb, hi] using hc⟩
  · split
    · rw [State.dsp_setDsp_self]
      exact Or.inl ⟨_, List.mem_append_right _ (List.mem_singleton.2 rfl), rfl, hc⟩
    · next h =>
      rw [State.handOn_dsp, State.dsp_setDsp_self]
      exact Or.inr ⟨by simp only [Config.noticeCapacity] at h; show 24 ≤ (s.dsp p).queue.length; omega, rfl⟩

theorem Dispatch.Holds.of_dsp {t : State} (h : (s.dsp q).Holds cls C) (e : t.dsp q = s.dsp q) : (t.dsp q).Holds cls C :=
  e ▸ h

end

/-- A placement touches one Dispatch Controller. -/
theorem place_dsp_of_ne (s : State) {p q : Port} (c : NoticeContent) (k : PClass) (h : q ≠ p) :
    (s.place p c k).dsp q = s.dsp q := by
  have h1 : ∀ t : State, (t.testOffer p).dsp q = t.dsp q := by
    intro t
    unfold State.testOffer
    dsimp only
    split
    · split
      · rfl
      · rw [handNotice_dsp, State.dsp_setDsp_of_ne _ _ h]
    · rfl
  refine (h1 _).trans ?_
  unfold State.enqueue
  dsimp only
  split
  · rfl
  · split
    · rw [State.dsp_setDsp_of_ne _ _ h]
    · split
      · rw [State.dsp_setDsp_of_ne _ _ h]
      · rw [State.handOn_dsp, State.dsp_setDsp_of_ne _ _ h]

/-- An append touches no Dispatch Controller. -/
@[simp] theorem append_dsp (s : State) (silent : Bool) (d : RecordDraft) (q : Port) :
    (s.append silent d).dsp q = s.dsp q := by
  have h1 : ∀ (t : State) b r, (t.testLogHigh b r).dsp q = t.dsp q := by
    intro t b r; unfold State.testLogHigh; split <;> rfl
  have h2 : (s.makeRoom silent).dsp q = s.dsp q := by
    unfold State.makeRoom
    split
    · rfl
    · dsimp only
      split
      · rfl
      · split
        · split <;> rfl
        · rfl
  unfold State.append
  exact (h1 _ _ _).trans h2

/-- The notice of a raising is a SYSTEM notice of its flag: any other notice is held after it as before (R155). -/
theorem Dispatch.Holds.raise {s : State} {q : Port} {cls : PClass} {C : NoticeContent → Prop} (r : Raising)
    (h : (s.dsp q).Holds cls C) (hc : s.flagSet r.flag = true ∨ ∀ c, C c → c.identity ≠ .system r.flag) :
    ((s.raise r).dsp q).Holds cls C := by
  unfold State.raise
  dsimp only
  have h1 : ((State.append { s with flags := joinBit s.flags r.flag.code.val } (r.flag == .logLoss)
      (r.draft (s.flagSet r.flag) s.now)).dsp q).Holds cls C := h.of_dsp (append_dsp _ _ _ _)
  split
  · next hr =>
    refine h1.place fun c' hc' => ?_
    rcases hc with hf | hc
    · rw [hf] at hr; exact absurd hr (by simp)
    · exact hc c' hc'
  · exact h1

/-- A raising of a flag that is clear, on an enabled route to an attached port, leaves its SYSTEM notice there (R155,
R156). -/
theorem holds_raise {s : State} (r : Raising) (hf : s.flagSet r.flag = false) (he : (s.route r.flag).enable = true)
    (hd : (s.dsp (s.route r.flag).port).state ≠ .detached) :
    ((s.raise r).dsp (s.route r.flag).port).Holds (s.route r.flag).cls
      (· = .system r.flag r.unit r.port s.log.next) := by
  unfold State.raise
  dsimp only
  simp only [hf, he, Bool.not_false, Bool.and_self, if_true]
  exact holds_place (by rw [append_dsp]; exact hd) rfl

/-- The raisings still waiting take nothing of another identity away, nor anything of a flag that is set. -/
theorem Dispatch.Holds.drain {q : Port} {cls : PClass} {C : NoticeContent → Prop} (n : Nat) {s : State}
    (h : (s.dsp q).Holds cls C) (hc : ∀ f, s.flagSet f = true ∨ ∀ c, C c → c.identity ≠ .system f) :
    ((s.drain n).dsp q).Holds cls C := by
  induction n generalizing s with
  | zero => exact h
  | succ n ih =>
    unfold State.drain
    split
    · exact h
    · next r rest _ =>
      refine ih (Dispatch.Holds.raise r (s := { s with raisings := rest }) h (hc r.flag)) fun f => ?_
      refine (hc f).imp (fun hf => ?_) id
      exact (onlyEmits_raise { s with raisings := rest } r).flags f hf

theorem Dispatch.Holds.settle {q : Port} {cls : PClass} {C : NoticeContent → Prop} {s : State}
    (h : (s.dsp q).Holds cls C) (hc : ∀ f, s.flagSet f = true ∨ ∀ c, C c → c.identity ≠ .system f) :
    (s.settle.dsp q).Holds cls C := h.drain _ hc

/-! ### Nothing new of an identity -/

/-- Every notice of identity `i` that the queue holds stood in the queue of `d` with its number, class and content. -/
def Dispatch.NoNew (i : NoticeId) (d e : Dispatch) : Prop :=
  ∀ n ∈ e.queue, n.content.identity = i → ∃ m ∈ d.queue, m.number = n.number ∧ m.cls = n.cls ∧ m.content = n.content

theorem Dispatch.NoNew.refl (i : NoticeId) (d : Dispatch) : Dispatch.NoNew i d d :=
  fun n hn _ => ⟨n, hn, rfl, rfl, rfl⟩

theorem Dispatch.NoNew.trans {i : NoticeId} {d e f : Dispatch} (h : Dispatch.NoNew i d e) (k : Dispatch.NoNew i e f) :
    Dispatch.NoNew i d f := by
  intro n hn hi
  obtain ⟨m, hm, h1, h2, h3⟩ := k n hn hi
  obtain ⟨l, hl, g1, g2, g3⟩ := h m hm (by rw [h3]; exact hi)
  exact ⟨l, hl, g1.trans h1, g2.trans h2, g3.trans h3⟩

section
variable {s : State} {i : NoticeId} (p q : Port)

theorem noNew_testOffer : Dispatch.NoNew i (s.dsp q) ((s.testOffer p).dsp q) := by
  unfold State.testOffer
  dsimp only
  split
  · split
    · exact .refl _ _
    · next n _ =>
      rw [handNotice_dsp, State.dsp_setDsp]
      split
      · next e =>
        subst e
        intro m hm _
        obtain ⟨l, hl, rfl⟩ := List.mem_map.mp hm
        refine ⟨l, hl, ?_⟩
        split <;> exact ⟨rfl, rfl, rfl⟩
      · exact .refl _ _
  · exact .refl _ _

/-- A placement brings no notice of another identity. -/
theorem noNew_place {c : NoticeContent} (k : PClass) (hc : c.identity ≠ i) :
    Dispatch.NoNew i (s.dsp q) ((s.place p c k).dsp q) := by
  refine .trans ?_ (noNew_testOffer p q)
  unfold State.enqueue
  dsimp only
  split
  · exact .refl _ _
  · split
    · rw [State.dsp_setDsp]
      split
      · next e =>
        subst e
        intro m hm hi
        obtain ⟨l, hl, rfl⟩ := List.mem_map.mp hm
        refine ⟨l, hl, ?_⟩
        unfold Notice.absorb at hi ⊢
        split
        · next h => rw [if_pos h] at hi; exact absurd hi hc
        · exact ⟨rfl, rfl, rfl⟩
      · exact .refl _ _
    · split
      · rw [State.dsp_setDsp]
        split
        · next e =>
          subst e
          intro m hm hi
          rcases List.mem_append.1 hm with hm | hm
          · exact ⟨m, hm, rfl, rfl, rfl⟩
          · obtain rfl := List.mem_singleton.1 hm
            exact absurd hi hc
        · exact .refl _ _
      · rw [State.handOn_dsp, State.dsp_setDsp]
        split
        · next e => subst e; exact .refl _ _
        · exact .refl _ _

/-- A raising places no SYSTEM notice but its own flag's, at its route's port, and none where the flag was set or its
route is disabled (R155, R156). -/
theorem noNew_raise (r : Raising)
    (h : s.flagSet r.flag = true ∨ (s.route r.flag).enable = false ∨ i ≠ .system r.flag) :
    Dispatch.NoNew i (s.dsp q) ((s.raise r).dsp q) := by
  have h1 : Dispatch.NoNew i (s.dsp q) ((State.append { s with flags := joinBit s.flags r.flag.code.val }
      (r.flag == .logLoss) (r.draft (s.flagSet r.flag) s.now)).dsp q) := by
    rw [append_dsp]; exact .refl _ _
  unfold State.raise
  dsimp only
  split
  · next hr =>
    refine h1.trans (noNew_place _ q _ ?_)
    rcases h with h | h | h
    · rw [h] at hr; exact absurd hr (by simp)
    · rw [h] at hr; exact absurd hr (by simp)
    · exact Ne.symm h
  · exact h1

theorem noNew_drain (n : Nat) {s : State} (h : ∀ f, i = .system f → s.flagSet f = true ∨ (s.route f).enable = false) :
    Dispatch.NoNew i (s.dsp q) ((s.drain n).dsp q) := by
  induction n generalizing s with
  | zero => exact .refl _ _
  | succ n ih =>
    unfold State.drain
    split
    · exact .refl _ _
    · next r rest _ =>
      have e := onlyEmits_raise { s with raisings := rest } r
      have hr : Dispatch.NoNew i (s.dsp q) (((State.raise { s with raisings := rest } r)).dsp q) := by
        refine noNew_raise (s := { s with raisings := rest }) q r ?_
        by_cases hi : i = .system r.flag
        · exact (h r.flag hi).imp id Or.inl
        · exact Or.inr (Or.inr hi)
      exact hr.trans (ih fun f hf => (h f hf).imp (e.flags f) fun k => by rw [e.route]; exact k)

/-- The end of a command brings no SYSTEM notice of a flag that is set or whose route is disabled. -/
theorem noNew_settle (h : ∀ f, i = .system f → s.flagSet f = true ∨ (s.route f).enable = false) :
    Dispatch.NoNew i (s.dsp q) (s.settle.dsp q) := noNew_drain q _ h

end

end Sys2Proof.Machine
end

