-- ==== Sys2Proof/Laws/Announce.lean ====
section
/-! SUPPORT. That every new record of a point reaches its subscribers (`Announces`), along a whole re-evaluation. -/

namespace Sys2Proof.Machine

/-- `Announces`, with point `p` left out: its record has changed, and its notices are still to be placed. -/
def AnnouncesBut (p : PointNo) (s t : State) : Prop :=
  ∀ x, x ≠ p → (t.pt x).lastChange ≠ (s.pt x).lastChange → ∀ q : Port, (t.pt x).subs.getLsbD q.val = true →
    (s.dsp q).state ≠ .detached → (t.dsp q).HoldsPoint x (t.pt x)

/-- No port is detached on the way. -/
def StayAttached (s t : State) : Prop := ∀ q, (s.dsp q).state ≠ .detached → (t.dsp q).state ≠ .detached

theorem OnlyEmits.stayAttached {s t : State} (h : OnlyEmits s t) : StayAttached s t := by
  intro q hq
  obtain ⟨k, hp, -⟩ := h.ports q
  cases k with
  | none => rw [(hp.noOffer rfl).1]; exact hq
  | some j => rw [(hp.offer j rfl).2.2.1]; simp

theorem StayAttached.trans {s t u : State} (h : StayAttached s t) (k : StayAttached t u) : StayAttached s u :=
  fun q hq => k q (h q hq)

theorem Moves.stayAttached {s t : State} {P S : PointNo → Prop} (h : Moves s t P S) : StayAttached s t :=
  fun q hq => h.emits.stayAttached q hq

theorem shows_identity {p : PointNo} {r : PointRec} {c : NoticeContent} (h : c.Shows p r) : c.identity = .point p := by
  obtain ⟨x, rfl, rfl, -⟩ := h
  rfl

/-- Only five fields of a record count. -/
theorem Dispatch.HoldsPoint.congr {d : Dispatch} {p : PointNo} {r r' : PointRec} (h : d.HoldsPoint p r)
    (h1 : r'.cls = r.cls) (h2 : r'.seqState = r.seqState) (h3 : r'.quality = r.quality) (h4 : r'.service = r.service)
    (h5 : r'.lastChange = r.lastChange) : d.HoldsPoint p r' := by
  unfold Dispatch.HoldsPoint NoticeContent.Shows at *
  rw [h1, h2, h3, h4, h5]
  exact h

theorem Announces.refl (s : State) : Announces s s := fun _ h => absurd rfl h

theorem Announces.but {s t : State} (h : Announces s t) (p : PointNo) : AnnouncesBut p s t := fun x _ => h x

/-- A record may change at the point left out. -/
theorem AnnouncesBut.setPt {s t : State} {p : PointNo} (h : AnnouncesBut p s t) (r : PointRec) :
    AnnouncesBut p s (t.setPt p r) := by
  intro x hx
  rw [State.pt_setPt_of_ne _ _ hx]
  exact h x hx

/-- A change that a notice does not show, or shows from another record on, needs none. -/
theorem Announces.setPt {s t : State} {p : PointNo} {r : PointRec} (h : Announces s t) (h0 : r.subs = (t.pt p).subs)
    (h1 : r.cls = (t.pt p).cls) (h2 : r.seqState = (t.pt p).seqState) (h3 : r.quality = (t.pt p).quality)
    (h4 : r.service = (t.pt p).service) (h5 : r.lastChange = (t.pt p).lastChange) : Announces s (t.setPt p r) := by
  intro x hl q hs hd
  by_cases hx : x = p
  · subst hx
    rw [State.pt_setPt_self] at hl hs ⊢
    rw [h5] at hl
    rw [h0] at hs
    exact (h x hl q hs hd).congr h1 h2 h3 h4 h5
  · rw [State.pt_setPt_of_ne _ _ hx] at hl hs ⊢
    exact h x hl q hs hd

/-- The notices of one point, placed in port order: each attached port of the mask ends holding the picture, and whatever was
held of another identity is held still. -/
theorem placeEach_holds (c : NoticeContent) (cls : PClass) (mask : Nat → Bool) (l : List Port) (s : State) :
    let t := l.foldl (fun t q => if mask q.val then t.place q c cls else t) s
    (∀ q k C, (s.dsp q).Holds k C → (∀ c', C c' → c'.identity ≠ c.identity) → (t.dsp q).Holds k C)
      ∧ ∀ q, mask q.val = true → (s.dsp q).state ≠ .detached → (q ∈ l ∨ (s.dsp q).Holds cls (· = c)) →
          (t.dsp q).Holds cls (· = c) := by
  induction l generalizing s with
  | nil => exact ⟨fun q k C h _ => h, fun q _ _ h => h.resolve_left (by simp)⟩
  | cons a l ih =>
    dsimp only [List.foldl_cons]
    by_cases ha : mask a.val = true
    · rw [if_pos ha]
      obtain ⟨i1, i2⟩ := ih (s.place a c cls)
      refine ⟨fun q k C h hC => i1 q k C (h.place hC) hC, fun q hm hd hq => ?_⟩
      refine i2 q hm ((onlyEmits_place s a c cls).stayAttached q hd) ?_
      by_cases hqa : q = a
      · subst hqa; exact Or.inr (holds_place hd rfl)
      · refine hq.imp (fun h => (List.mem_cons.1 h).resolve_left hqa) fun h => ?_
        have : (s.place a c cls).dsp q = s.dsp q := place_dsp_of_ne s c cls hqa
        rw [this]; exact h
    · rw [if_neg ha]
      obtain ⟨i1, i2⟩ := ih s
      refine ⟨i1, fun q hm hd hq => i2 q hm hd ?_⟩
      refine hq.imp (fun h => (List.mem_cons.1 h).resolve_left fun e => ?_) id
      subst e; exact ha hm

section
variable {s t : State} {p : PointNo} (c : Claim) (cause : Cause)

/-- A change emitted reaches the point's subscribers (R19, R21, R22). -/
theorem announces_emitPoint (h : AnnouncesBut p s t) (ha : StayAttached s t) (body : RecordBody) :
    Announces s (t.emitPoint c p cause body) := by
  unfold State.emitPoint
  dsimp only
  generalize hu : (State.setPt _ p _) = u
  have hdsp : ∀ q, u.dsp q = t.dsp q := fun q => by rw [← hu, State.setPt_dsp, append_dsp]
  have hpt : ∀ x, x ≠ p → u.pt x = t.pt x := fun x hx => by
    rw [← hu, State.pt_setPt_of_ne _ _ hx, (onlyEmits_append _ _ _).pt]
  obtain ⟨keep, new⟩ := placeEach_holds (.point (u.picture p)) (u.pt p).cls (fun n => hasBit (u.pt p).subs n) allPorts u
  intro x hl q hs hd
  rw [(onlyEmits_placePoint u p).pt] at hl hs ⊢
  by_cases hx : x = p
  · subst hx
    have hq : q ∈ allPorts := (by decide : ∀ q : Port, q ∈ allPorts) q
    have := new q hs (by rw [hdsp]; exact ha q hd) (Or.inl hq)
    rcases this with ⟨n, hn, h1, h2⟩ | h
    · exact Or.inl ⟨n, hn, h1, _, h2, rfl, rfl, rfl, rfl, rfl⟩
    · exact Or.inr h
  · rw [hpt x hx] at hl hs ⊢
    refine keep q _ (NoticeContent.Shows x (t.pt x)) (by rw [hdsp]; exact h x hx hl q hs hd) fun c' hc' => ?_
    rw [shows_identity hc']
    show NoticeId.point x ≠ .point p
    simpa using hx

theorem announces_testAudible (h : Announces s t) (b : SeqState) : Announces s (t.testAudible p b) := by
  unfold State.testAudible
  dsimp only
  split <;> exact h

theorem announces_transition (h : AnnouncesBut p s t) (ha : StayAttached s t) (st : SeqState) :
    Announces s (t.transition c p cause st) :=
  announces_testAudible (announces_emitPoint c cause (h.setPt _) ha _) _

theorem announces_setFirstMember (h : Announces s t) (ha : StayAttached s t) (m : Option PointNo) :
    Announces s (t.setFirstMember c p m) := announces_emitPoint c _ ((h.but p).setPt _) ha _

theorem announces_clearFirstMember (h : Announces s t) (ha : StayAttached s t) :
    Announces s (t.clearFirstMember c p) := by
  unfold State.clearFirstMember
  dsimp only
  split
  · exact announces_setFirstMember c h ha _
  · exact h

theorem announces_setService (h : Announces s t) (ha : StayAttached s t) (v : Service) (timer : Option Nat) :
    Announces s (t.setService c p cause v timer) := announces_emitPoint c _ ((h.but p).setPt _) ha _

theorem announces_recordQuality (h : Announces s t) (ha : StayAttached s t) (q : PointQuality) :
    Announces s (t.recordQuality c p cause q) := by
  unfold State.recordQuality
  dsimp only
  split
  · exact h
  · exact announces_emitPoint c _ ((h.but p).setPt _) ha _

theorem announces_recordCondition (h : Announces s t) (ha : StayAttached s t) (cond : Condition) :
    Announces s (t.recordCondition c p cause cond) := by
  rw [recordCondition_eq]
  split
  · split
    · exact h
    · exact h.setPt rfl rfl rfl rfl rfl rfl
  · exact announces_transition c _ ((h.but p).setPt _) ha _

theorem announces_reevalField (h : Announces s t) (ha : StayAttached s t) :
    Announces s (t.reevalField c p cause) := by
  unfold State.reevalField
  dsimp only
  have h1 := announces_recordQuality (p := p) c cause h ha (t.fieldQuality p)
  split
  · refine announces_recordCondition c _ h1 (ha.trans ?_) _
    exact (moves_recordQuality (S := fun _ => False) t c p cause _).stayAttached
  · exact h1

theorem announces_reevalGroup (h : Announces s t) (ha : StayAttached s t) (child : Option PointNo) :
    Announces s (t.reevalGroup c p child cause) := by
  unfold State.reevalGroup
  dsimp only
  have h1 := announces_recordQuality (p := p) c cause h ha (t.groupQuality p)
  have a1 := ha.trans (moves_recordQuality (S := fun _ => False) t c p cause (t.groupQuality p)).stayAttached
  have h2 := announces_recordCondition (p := p) c cause h1 a1
    ((t.recordQuality c p cause (t.groupQuality p)).groupCondition p)
  have a2 := a1.trans (moves_recordCondition (S := fun _ => False) _ c p cause
    ((t.recordQuality c p cause (t.groupQuality p)).groupCondition p)).stayAttached
  split
  · split
    · exact announces_setFirstMember c h2 a2 _
    · exact announces_clearFirstMember c h2 a2
  · exact announces_clearFirstMember c h2 a2

theorem announces_propagate (n : Nat) (h : Announces s t) (ha : StayAttached s t) : Announces s (t.propagate n c p) := by
  induction n generalizing p t with
  | zero => exact h
  | succ n ih =>
    unfold State.propagate
    split
    · exact h
    · next g _ =>
      split
      · have h1 := announces_reevalGroup (p := g) c .member h ha (some p)
        dsimp only
        split
        · exact ih h1 (ha.trans (moves_reevalGroup (S := fun _ => False) t c g .member (some p)).stayAttached)
        · exact h1
      · exact h

theorem announces_carryUp (h : Announces s t) (ha : StayAttached s t) : Announces s (t.carryUp c p) :=
  announces_propagate c _ h ha

/-- Every record of a whole re-evaluation reaches its point's subscribers (R22, R34). -/
theorem announces_reevaluate (h : Announces s t) (ha : StayAttached s t) : Announces s (t.reevaluate c p cause) := by
  have key : ∀ u, Announces s u → StayAttached s u →
      Announces s (if changedBetween t u p then u.carryUp c p else u) := by
    intro u h1 a1
    split
    · exact announces_carryUp c h1 a1
    · exact h1
  unfold State.reevaluate
  dsimp only
  split
  · exact key _ (announces_reevalField c cause h ha)
      (ha.trans (moves_reevalField (S := fun _ => False) t c p cause).stayAttached)
  · exact key _ (announces_reevalGroup c cause h ha none)
      (ha.trans (moves_reevalGroup (S := fun _ => False) t c p cause none).stayAttached)
  · exact key _ h ha

theorem announces_forceNormal (h : Announces s t) (ha : StayAttached s t) : Announces s (t.forceNormal c p cause) := by
  unfold State.forceNormal
  split
  · exact h
  · exact announces_transition c cause (h.but p) ha _

/-- A point that leaves annunciation is shown to its subscribers, and the groups above it to theirs (R22, R56). -/
theorem announces_leaveService (h : Announces s t) (ha : StayAttached s t) (v : Service) (timer : Option Nat) :
    Announces s (t.leaveService c p cause v timer) := by
  have m1 := moves_forceNormal (S := (· = p)) t c p cause
  have m2 := m1.trans (moves_setService _ c p cause v timer)
  exact announces_carryUp c
    (announces_clearFirstMember c
      (announces_setService c cause (announces_forceNormal c cause h ha) (ha.trans m1.stayAttached) v timer)
      (ha.trans m2.stayAttached))
    (ha.trans (m2.trans (moves_clearFirstMember _ c p)).stayAttached)

/-- And one that returns to service (R22, R59). -/
theorem announces_returnToService (h : Announces s t) (ha : StayAttached s t) :
    Announces s (t.returnToService c p cause) := by
  have h1 := announces_setService (p := p) c cause h ha .inService none
  have a1 := ha.trans (moves_setService t c p cause .inService none).stayAttached
  unfold State.returnToService
  dsimp only
  split
  · exact announces_carryUp c (announces_transition c cause (h1.but p) a1 _)
      (a1.trans (moves_transition (S := fun _ => False) _ c p cause .alert).stayAttached)
  · exact announces_carryUp c h1 a1

theorem announces_resetTo (h : Announces s t) (ha : StayAttached s t) (st : SeqState) :
    Announces s (t.resetTo c p st) :=
  announces_clearFirstMember c (announces_transition c .reset (h.but p) ha st)
    (ha.trans (moves_transition (S := fun _ => False) t c p .reset st).stayAttached)

/-- Every record of an acknowledgement reaches its point's subscribers (R22, R49). -/
theorem announces_acknowledge (h : Announces s t) (ha : StayAttached s t) : Announces s (t.acknowledge c p) := by
  unfold State.acknowledge
  dsimp only
  split
  · exact announces_reevaluate c .latchClear h ha
  · next st _ =>
    have m := moves_transition (S := fun _ => False) t c p .ack st
    exact announces_reevaluate c .latchClear
      (announces_clearFirstMember c (announces_transition c .ack (h.but p) ha st) (ha.trans m.stayAttached))
      (ha.trans (m.trans (moves_clearFirstMember _ c p)).stayAttached)

/-- Every record of a pass of acknowledgements reaches its point's subscribers (R22, R51, R52). -/
theorem announces_ackList (r : Ring) (l : List PointNo) (h : Announces s t) (ha : StayAttached s t) :
    Announces s (t.ackList c r l).1 := by
  suffices key : ∀ acc : State × Nat, Announces s acc.1 → StayAttached s acc.1 →
      Announces s (l.foldl (offerAck c r) acc).1 from key (t, 0) h ha
  induction l with
  | nil => exact fun acc h _ => h
  | cons q l ih =>
    intro acc h ha
    refine ih (offerAck c r acc q) ?_ ?_ <;> unfold offerAck <;> split
    · exact announces_acknowledge c h ha
    · exact h
    · exact ha.trans (moves_acknowledge (S := fun _ => False) acc.1 c q).stayAttached
    · exact ha

/-- Every record of a pass of resets reaches its point's subscribers (R22, R54). -/
theorem announces_offerReset (r : Ring) (l : List PointNo) (acc : State × Nat) (h : Announces s acc.1)
    (ha : StayAttached s acc.1) : Announces s (l.foldl (offerReset c r) acc).1 := by
  induction l generalizing acc with
  | nil => exact h
  | cons q l ih =>
    refine ih (offerReset c r acc q) ?_ ?_ <;> unfold offerReset <;> split
    · split
      · exact h
      · exact announces_resetTo c h ha _
    · exact h
    · split
      · exact ha
      · exact ha.trans (moves_resetTo (S := fun _ => False) _ c q _).stayAttached
    · exact ha

/-- Every record of the initial evaluation of a point reaches its subscribers (R22, R170). -/
theorem announces_startPoint (h : Announces s t) (ha : StayAttached s t) (q : PointQuality) (cond : Condition) :
    Announces s (t.startPoint p q cond) := by
  have h1 := announces_recordQuality (p := p) t.startClaim .start h ha q
  have a1 := ha.trans (moves_recordQuality (S := fun _ => False) t t.startClaim p .start q).stayAttached
  have h2 := h1.setPt (p := p) (r := { (t.recordQuality t.startClaim p .start q).pt p with condition := cond })
    rfl rfl rfl rfl rfl rfl
  unfold State.startPoint
  dsimp only
  split
  · exact announces_transition _ .start (h2.but p) a1 _
  · exact h2

end

/-- What the raisings of a command place takes no picture away (R155). -/
theorem Announces.settle {s t : State} (h : Announces s t) : Announces s t.settle := by
  intro x hl q hs hd
  rw [(onlyEmits_settle t).pt] at hl hs ⊢
  exact Dispatch.Holds.settle (C := NoticeContent.Shows x (t.pt x)) (h x hl q hs hd) fun f => Or.inr fun c hc => by rw [shows_identity hc]; simp

/-- Only the points and the Dispatch Controllers count. -/
theorem Announces.congr {s t s' t' : State} (h : Announces s t) (h1 : ∀ x, s'.pt x = s.pt x) (h2 : ∀ x, t'.pt x = t.pt x)
    (h3 : ∀ q, s'.dsp q = s.dsp q) (h4 : ∀ q, t'.dsp q = t.dsp q) : Announces s' t' := by
  intro x hl q hs hd
  rw [h1, h2] at hl
  rw [h2] at hs ⊢
  rw [h3] at hd
  rw [h4]
  exact h x hl q hs hd

end Sys2Proof.Machine
end

