-- ==== Sys2Proof/Laws/Field.lean ====
section
/-! SUPPORT. What the claims of the Input Filter can change, said once: `Filters s t I` bounds the inputs concerned by
`I` and lets nothing change but input records, pair timers, the change queue and the raisings of CHANGE_DEFERRED. -/

namespace Sys2Proof.Machine

/-- From `s` to `t` the Input Filter has handled claims on inputs of `I` alone. -/
structure Filters (s t : State) (I : InputNo → Prop) : Prop where
  rest : t = { s with
    inputs := t.inputs, pairTimers := t.pairTimers, changeQueue := t.changeQueue, raisings := t.raisings }
  off : ∀ j, ¬ I j → t.inp j = s.inp j
  queue : ∃ more, t.changeQueue = s.changeQueue ++ more ∧ ∀ e ∈ more, I e.input
  bound : s.changeQueue.length ≤ 128 → t.changeQueue.length ≤ 128
  raisings : ∃ more, t.raisings = s.raisings ++ more ∧ ∀ r ∈ more, r = plainRaising .changeDeferred

namespace Filters

variable {s t u : State} {I J : InputNo → Prop}

theorem refl (s : State) (I : InputNo → Prop) : Filters s s I :=
  ⟨rfl, fun _ _ => rfl, ⟨[], by simp, by simp⟩, id, ⟨[], by simp, by simp⟩⟩

theorem trans (h : Filters s t I) (k : Filters t u I) : Filters s u I where
  rest := by rw [k.rest, h.rest]
  off j hj := (k.off j hj).trans (h.off j hj)
  queue := by
    obtain ⟨a, h1, h2⟩ := h.queue
    obtain ⟨b, k1, k2⟩ := k.queue
    refine ⟨a ++ b, by rw [k1, h1, List.append_assoc], fun e he => ?_⟩
    exact (List.mem_append.mp he).elim (h2 e) (k2 e)
  bound hb := k.bound (h.bound hb)
  raisings := by
    obtain ⟨a, h1, h2⟩ := h.raisings
    obtain ⟨b, k1, k2⟩ := k.raisings
    refine ⟨a ++ b, by rw [k1, h1, List.append_assoc], fun e he => ?_⟩
    exact (List.mem_append.mp he).elim (h2 e) (k2 e)

theorem mono (h : Filters s t I) (hI : ∀ j, I j → J j) : Filters s t J where
  rest := h.rest
  off j hj := h.off j fun e => hj (hI j e)
  queue := by
    obtain ⟨a, h1, h2⟩ := h.queue
    exact ⟨a, h1, fun e he => hI _ (h2 e he)⟩
  bound := h.bound
  raisings := h.raisings

theorem foldl {α : Type} {f : State → α → State} {l : List α} (hf : ∀ s, ∀ a ∈ l, Filters s (f s a) I) (s : State) :
    Filters s (l.foldl f s) I := by
  induction l generalizing s with
  | nil => exact refl s I
  | cons a l ih =>
    exact (hf s a List.mem_cons_self).trans (ih (fun s b hb => hf s b (List.mem_cons_of_mem _ hb)) _)

theorem log (h : Filters s t I) : t.log = s.log := by have e := congrArg State.log h.rest; exact e
theorem mode (h : Filters s t I) : t.mode = s.mode := by have e := congrArg State.mode h.rest; exact e
theorem link (h : Filters s t I) : t.link = s.link := by have e := congrArg State.link h.rest; exact e
theorem stations (h : Filters s t I) : t.stations = s.stations := by have e := congrArg State.stations h.rest; exact e
theorem dispatch (h : Filters s t I) : t.dispatch = s.dispatch := by have e := congrArg State.dispatch h.rest; exact e
theorem pending (h : Filters s t I) : t.pending = s.pending := by have e := congrArg State.pending h.rest; exact e
theorem settings (h : Filters s t I) : t.settings = s.settings := by have e := congrArg State.settings h.rest; exact e
theorem now (h : Filters s t I) : t.now = s.now := by rw [h.rest]; rfl
theorem paired (h : Filters s t I) (k : PairNo) : t.paired k = s.paired k := by rw [h.rest]; rfl

end Filters

theorem filters_setInp (s : State) (i : InputNo) (r : InputRec) : Filters s (s.setInp i r) (· = i) :=
  ⟨rfl, fun _ hj => State.inp_setInp_of_ne _ _ hj, ⟨[], by simp, by simp⟩, id, ⟨[], by simp, by simp⟩⟩

theorem filters_setPairTimer (s : State) (k : PairNo) (t : Option Nat) (I : InputNo → Prop) :
    Filters s (s.setPairTimer k t) I :=
  ⟨rfl, fun _ _ => rfl, ⟨[], by simp, by simp⟩, id, ⟨[], by simp, by simp⟩⟩

theorem filters_ite {s t u : State} {I : InputNo → Prop} {c : Prop} [Decidable c] (h : Filters s t I)
    (k : Filters s u I) : Filters s (if c then t else u) I := by
  split
  · exact h
  · exact k

/-! ### The change queue -/

theorem filters_appendEntry (s : State) (e : ChangeEntry) (h : s.changeQueue.length < 128) :
    Filters s (s.appendEntry e) (· = e.input) := by
  unfold State.appendEntry
  dsimp only
  have h1 : Filters s { s with changeQueue := s.changeQueue ++ [e] } (· = e.input) :=
    ⟨rfl, fun _ _ => rfl, ⟨[e], rfl, by simp⟩, fun _ => by simp; omega, ⟨[], by simp, by simp⟩⟩
  exact h1.trans (filters_setInp _ _ _)

theorem filters_deferInput (s : State) (i : InputNo) : Filters s (s.deferInput i) (· = i) := by
  have h : Filters (s.setInp i { s.inp i with deferred := true }) (s.deferInput i) (· = i) :=
    ⟨rfl, fun _ _ => rfl, ⟨[], by simp [State.deferInput], by simp⟩, id, ⟨_, rfl, by simp⟩⟩
  exact (filters_setInp _ _ _).trans h

theorem filters_queueEntry (s : State) (e : ChangeEntry) : Filters s (s.queueEntry e) (· = e.input) := by
  unfold State.queueEntry
  split
  · exact .refl _ _
  · split
    · next h => exact filters_appendEntry s e (by simpa [Config.changeCapacity] using h)
    · exact filters_deferInput s _

theorem filters_produce (s : State) (r : InputRec) (i : InputNo) (t : TimeStamp) :
    Filters s (s.produce r i t) (· = i) := by
  unfold State.produce
  dsimp only
  exact filters_ite (filters_queueEntry _ _) (filters_ite (filters_queueEntry _ _) (.refl _ _))

theorem filters_catchOne (s : State) (i : InputNo) (h : s.changeQueue.length < 128) :
    Filters s (s.catchOne i) (· = i) := by
  unfold State.catchOne
  dsimp only
  have h1 := filters_setInp s i { s.inp i with deferred := false }
  split
  · exact h1.trans (filters_appendEntry _ _ h)
  · split
    · exact h1.trans (filters_appendEntry _ _ h)
    · exact h1

theorem filters_catchUp (n : Nat) (s : State) : Filters s (s.catchUp n) (fun _ => True) := by
  induction n generalizing s with
  | zero => exact .refl _ _
  | succ n ih =>
    unfold State.catchUp
    split
    · next h =>
      split
      · exact .refl _ _
      · next i _ =>
        exact ((filters_catchOne s i (by simpa [Config.changeCapacity] using h)).mono fun _ _ => trivial).trans (ih _)
    · exact .refl _ _

/-! ### Quality and pairs -/

theorem filters_formQuality (s : State) (t : TimeStamp) (i : InputNo) : Filters s (s.formQuality t i) (· = i) := by
  unfold State.formQuality
  dsimp only
  exact filters_ite (.refl _ _) (filters_setInp _ _ _)

/-- The two inputs of a pair. -/
def OfPair (k : PairNo) (j : InputNo) : Prop := j = evenInput k ∨ j = oddInput k

theorem filters_setDiscrepant (s : State) (k : PairNo) (v : Bool) : Filters s (s.setDiscrepant k v) (OfPair k) := by
  unfold State.setDiscrepant
  dsimp only
  exact ((filters_setInp _ _ _).mono fun _ e => Or.inl e).trans ((filters_setInp _ _ _).mono fun _ e => Or.inr e)

theorem filters_pairTest (s : State) (k : PairNo) : Filters s (s.pairTest k) (OfPair k) := by
  unfold State.pairTest
  split
  · split
    · exact filters_setPairTimer _ _ _ _
    · exact .refl _ _
  · exact (filters_setPairTimer _ _ _ _).trans (filters_setDiscrepant _ _ _)

theorem evenInput_pairOf (i : InputNo) : evenInput (pairOf i) = i ∨ evenInput (pairOf i) = partnerOf i := by
  revert i; decide +kernel

theorem oddInput_pairOf (i : InputNo) : oddInput (pairOf i) = i ∨ oddInput (pairOf i) = partnerOf i := by
  revert i; decide +kernel

theorem ofPair_pairOf {i j : InputNo} (h : OfPair (pairOf i) j) : j = i ∨ j = partnerOf i := by
  rcases h with h | h
  · rw [h]; exact evenInput_pairOf i
  · rw [h]; exact oddInput_pairOf i

/-! ### Claims -/

/-- An accepted change concerns the input and its partner (R117). -/
theorem filters_acceptChange (s : State) (i : InputNo) (l : Level) (t : TimeStamp) :
    Filters s (s.acceptChange i l t) (fun j => j = i ∨ j = partnerOf i) := by
  have hi : ∀ {a b : State}, Filters a b (· = i) → Filters a b (fun j => j = i ∨ j = partnerOf i) :=
    fun h => h.mono fun _ e => Or.inl e
  have hp : ∀ {a b : State}, Filters a b (· = partnerOf i) → Filters a b (fun j => j = i ∨ j = partnerOf i) :=
    fun h => h.mono fun _ e => Or.inr e
  unfold State.acceptChange
  dsimp only
  have h1 := hi (filters_setInp s i
    (InputRec.countChange { s.inp i with level := l, lastChange := some t } s.settings s.elapsed))
  split
  · refine ((((h1.trans ((filters_pairTest _ _).mono fun _ => ofPair_pairOf)).trans
      (hi (filters_formQuality _ _ _))).trans (hp (filters_formQuality _ _ _))).trans
      (hi (filters_produce _ _ _ _))).trans (hp (filters_produce _ _ _ _))
  · exact (h1.trans (hi (filters_formQuality _ _ _))).trans (hi (filters_produce _ _ _ _))

theorem filters_remoteReport (s : State) (i : InputNo) (l : Level) (t : TimeStamp) :
    Filters s (s.remoteReport i l t) (fun j => j = i ∨ j = partnerOf i) :=
  filters_ite (.refl _ _) (filters_acceptChange _ _ _ _)

theorem filters_endChatter (s : State) (i : InputNo) : Filters s (s.endChatter i) (· = i) := by
  unfold State.endChatter
  dsimp only
  exact ((filters_setInp _ _ _).trans (filters_formQuality _ _ _)).trans (filters_produce _ _ _ _)

theorem filters_becomeDiscrepant (s : State) (k : PairNo) : Filters s (s.becomeDiscrepant k) (OfPair k) := by
  have he : ∀ {a b : State}, Filters a b (· = evenInput k) → Filters a b (OfPair k) :=
    fun h => h.mono fun _ e => Or.inl e
  have ho : ∀ {a b : State}, Filters a b (· = oddInput k) → Filters a b (OfPair k) :=
    fun h => h.mono fun _ e => Or.inr e
  unfold State.becomeDiscrepant
  dsimp only
  exact (((((filters_setPairTimer _ _ _ _).trans (filters_setDiscrepant _ _ _)).trans
    (he (filters_formQuality _ _ _))).trans (ho (filters_formQuality _ _ _))).trans
    (he (filters_produce _ _ _ _))).trans (ho (filters_produce _ _ _ _))

theorem filters_lostClaim (s : State) (u : UnitNo) : Filters s (s.lostClaim u) (· ∈ unitInputs u) := by
  have hm : ∀ {a b : State} {i : InputNo}, i ∈ unitInputs u → Filters a b (· = i) →
      Filters a b (· ∈ unitInputs u) := fun hi h => h.mono fun _ e => e ▸ hi
  unfold State.lostClaim
  dsimp only
  refine (Filters.trans ?_ (.foldl (fun t i hi => hm hi (filters_formQuality t _ i)) _)).trans
    (.foldl (fun t i hi => hm hi (filters_produce t _ i _)) _)
  exact .foldl (fun t i hi => hm hi (filters_setInp t i _)) _

theorem ofPair_unitPairs {u : UnitNo} {k : PairNo} (hk : k ∈ unitPairs u) {j : InputNo} (h : OfPair k j) :
    j ∈ unitInputs u := by
  have : ∀ u : UnitNo, ∀ k ∈ unitPairs u, evenInput k ∈ unitInputs u ∧ oddInput k ∈ unitInputs u := by decide +kernel
  rcases h with h | h
  · rw [h]; exact (this u k hk).1
  · rw [h]; exact (this u k hk).2

theorem filters_snapshotClaim (s : State) (u : UnitNo) (levels : BitVec 64) (st : TimeStamp) :
    Filters s (s.snapshotClaim u levels st) (· ∈ unitInputs u) := by
  have hm : ∀ {a b : State} {i : InputNo}, i ∈ unitInputs u → Filters a b (· = i) →
      Filters a b (· ∈ unitInputs u) := fun hi h => h.mono fun _ e => e ▸ hi
  unfold State.snapshotClaim
  dsimp only
  have h1 : Filters s ((unitInputs u).foldl (takeSnapshotLevel levels st) s) (· ∈ unitInputs u) :=
    .foldl (fun t i hi => by
      unfold takeSnapshotLevel
      dsimp only
      exact filters_ite (.refl _ _) (hm hi (filters_setInp _ _ _))) _
  have h2 := h1.trans (.foldl (f := setUnitLost false) (fun t i hi => hm hi (filters_setInp t i _)) _)
  have h3 := h2.trans (.foldl (l := unitPairs u) (f := testPairSet)
    (fun t k hk => filters_ite ((filters_pairTest t k).mono fun _ => ofPair_unitPairs hk) (.refl _ _)) _)
  have h4 := h3.trans (.foldl (l := unitInputs u) (f := fun t i => t.formQuality st i)
    (fun t i hi => hm hi (filters_formQuality t _ i)) _)
  have h5 := h4.trans (.foldl (l := unitInputs u) (f := snapshotQuality s st)
    (fun t i hi => hm hi (filters_ite (filters_queueEntry _ _) (.refl _ _))) _)
  exact h5.trans (.foldl (l := unitInputs u) (f := snapshotLevel s st)
    (fun t i hi => hm hi (filters_ite (filters_queueEntry _ _) (.refl _ _))) _)

theorem filters_settlePair (b s : State) (k : PairNo) : Filters s (settlePair b s k) (OfPair k) := by
  unfold settlePair
  refine filters_ite (.refl _ _) ?_
  dsimp only
  refine Filters.trans (.trans ?_ ((filters_formQuality _ _ _).mono fun _ e => Or.inl e))
    ((filters_formQuality _ _ _).mono fun _ e => Or.inr e)
  exact filters_ite (filters_pairTest _ _) ((filters_setPairTimer _ _ _ _).trans (filters_setDiscrepant _ _ _))

theorem filters_storeSettings (s : State) (f : FilterSettings) :
    Filters { s with settings := f } (s.storeSettings f) (fun _ => True) :=
  .foldl (fun t k _ => (filters_settlePair s t k).mono fun _ _ => trivial) _

end Sys2Proof.Machine
end

