-- ==== Sys2Proof/Laws/FieldRecord.lean ====
section
/-! SUPPORT. What the operations of the Input Filter leave of the input records: producing entries touches what is queued and
deferred alone, and the forming of qualities touches the quality alone. -/

namespace Sys2Proof.Machine

/-- The end of a command after claims on the Input Filter. -/
theorem Filters.settled {s t : State} {I : InputNo → Prop} (h : Filters s t I) :
    OnlyEmits
      { s with inputs := t.settle.inputs, pairTimers := t.settle.pairTimers, changeQueue := t.settle.changeQueue }
      t.settle := by
  have h1 := onlyEmits_settle t
  have e1 : t.settle.inputs = t.inputs := h1.inputs
  have e2 : t.settle.changeQueue = t.changeQueue := h1.changeQueue
  have e3 : t.settle.pairTimers = t.pairTimers := by have e := congrArg State.pairTimers h1.rest; exact e
  rw [e1, e2, e3]
  refine .trans ?_ h1
  have h2 := onlyEmits_raisings
    { s with inputs := t.inputs, pairTimers := t.pairTimers, changeQueue := t.changeQueue } t.raisings
  have : t = { ({ s with inputs := t.inputs, pairTimers := t.pairTimers, changeQueue := t.changeQueue } : State) with
      raisings := t.raisings } := h.rest
  rw [this]
  exact h2

/-! ### Producing entries -/

/-- From `s` to `t` the input records have changed in what is queued and deferred alone, and no pair timer has. -/
structure Queues (s t : State) : Prop where
  inp : ∀ j, t.inp j =
    { s.inp j with
      queuedLevel := (t.inp j).queuedLevel, queuedQuality := (t.inp j).queuedQuality, deferred := (t.inp j).deferred }
  timers : t.pairTimers = s.pairTimers

namespace Queues

variable {s t u : State}

theorem refl (s : State) : Queues s s := ⟨fun _ => rfl, rfl⟩

theorem trans (h : Queues s t) (k : Queues t u) : Queues s u :=
  ⟨fun j => by rw [k.inp j, h.inp j], k.timers.trans h.timers⟩

theorem ite {c : Prop} [Decidable c] (h : Queues s t) (k : Queues s u) : Queues s (if c then t else u) := by
  split
  · exact h
  · exact k

theorem foldl {α : Type} {f : State → α → State} (hf : ∀ s a, Queues s (f s a)) (l : List α) (s : State) :
    Queues s (l.foldl f s) := by
  induction l generalizing s with
  | nil => exact refl s
  | cons a l ih => exact (hf s a).trans (ih _)

theorem level (h : Queues s t) (j : InputNo) : (t.inp j).level = (s.inp j).level := by rw [h.inp j]
theorem reported (h : Queues s t) (j : InputNo) : (t.inp j).reported = (s.inp j).reported := by rw [h.inp j]

end Queues

theorem queues_setInp {s : State} {i : InputNo} {r : InputRec}
    (h : r = { s.inp i with queuedLevel := r.queuedLevel, queuedQuality := r.queuedQuality, deferred := r.deferred }) :
    Queues s (s.setInp i r) := by
  refine ⟨fun j => ?_, rfl⟩
  rw [State.inp_setInp]
  split
  · next e => subst e; exact h
  · rfl

theorem queues_appendEntry (s : State) (e : ChangeEntry) : Queues s (s.appendEntry e) := by
  have h : Queues s { s with changeQueue := s.changeQueue ++ [e] } := ⟨fun _ => rfl, rfl⟩
  refine h.trans ?_
  unfold State.appendEntry
  dsimp only
  exact queues_setInp rfl

theorem queues_deferInput (s : State) (i : InputNo) : Queues s (s.deferInput i) :=
  Queues.trans (t := s.setInp i { s.inp i with deferred := true }) (queues_setInp rfl) ⟨fun _ => rfl, rfl⟩

theorem queues_queueEntry (s : State) (e : ChangeEntry) : Queues s (s.queueEntry e) := by
  unfold State.queueEntry
  exact .ite (.refl _) (.ite (queues_appendEntry _ _) (queues_deferInput _ _))

theorem queues_produce (s : State) (r : InputRec) (i : InputNo) (t : TimeStamp) : Queues s (s.produce r i t) := by
  unfold State.produce
  dsimp only
  exact .ite (queues_queueEntry _ _) (.ite (queues_queueEntry _ _) (.refl _))

theorem queues_catchOne (s : State) (i : InputNo) : Queues s (s.catchOne i) := by
  unfold State.catchOne
  dsimp only
  have h : Queues s (s.setInp i { s.inp i with deferred := false }) := queues_setInp rfl
  exact .ite (h.trans (queues_appendEntry _ _)) (.ite (h.trans (queues_appendEntry _ _)) h)

theorem queues_catchUp (n : Nat) (s : State) : Queues s (s.catchUp n) := by
  induction n generalizing s with
  | zero => exact .refl _
  | succ n ih =>
    unfold State.catchUp
    split
    · split
      · exact .refl _
      · exact (queues_catchOne _ _).trans (ih _)
    · exact .refl _

/-- The catch-up hands on nothing. -/
@[simp] theorem catchUp_raisings (n : Nat) (s : State) : (s.catchUp n).raisings = s.raisings := by
  have h1 : ∀ (s : State) i, (s.catchOne i).raisings = s.raisings := by
    intro s i
    unfold State.catchOne
    dsimp only
    split
    · rfl
    · split <;> rfl
  induction n generalizing s with
  | zero => rfl
  | succ n ih =>
    unfold State.catchUp
    split
    · split
      · rfl
      · rw [ih, h1]
    · rfl

/-! ### Qualities -/

/-- The formed quality, as the statements write it. -/
theorem formed_eq (r : InputRec) : r.formed = qualityOf r.unitLost r.discrepant r.chatterActive := rfl

/-- The record after its quality has been formed. -/
theorem formQuality_inp_self (s : State) (st : TimeStamp) (i : InputNo) :
    (s.formQuality st i).inp i =
      { s.inp i with
        reported := (s.inp i).formed
        lastQualityChange := if (s.inp i).reported = (s.inp i).formed then (s.inp i).lastQualityChange else some st } := by
  unfold State.formQuality
  dsimp only
  split
  · next h => rw [← h]
  · simp

theorem formQuality_inp_of_ne (s : State) (st : TimeStamp) {i j : InputNo} (h : j ≠ i) :
    (s.formQuality st i).inp j = s.inp j := (filters_formQuality s st i).off j h

/-- Forming a quality changes no pair timer, and no change entry. -/
theorem formQuality_rest (s : State) (st : TimeStamp) (i : InputNo) :
    s.formQuality st i = { s with inputs := (s.formQuality st i).inputs } := by
  unfold State.formQuality
  dsimp only
  split <;> rfl

/-! ### Level, change time, history and marks -/

/-- From `s` to `t` the input records have kept level, change time, chatter and unit-lost mark. -/
def Judges (s t : State) : Prop := ∀ j, t.inp j =
  { s.inp j with
    discrepant := (t.inp j).discrepant, reported := (t.inp j).reported
    lastQualityChange := (t.inp j).lastQualityChange, queuedLevel := (t.inp j).queuedLevel
    queuedQuality := (t.inp j).queuedQuality, deferred := (t.inp j).deferred }

namespace Judges

variable {s t u : State}

theorem refl (s : State) : Judges s s := fun _ => rfl

theorem trans (h : Judges s t) (k : Judges t u) : Judges s u := fun j => by rw [k j, h j]

theorem of_queues (h : Queues s t) : Judges s t := fun j => by rw [h.inp j]

theorem ite {c : Prop} [Decidable c] (h : Judges s t) (k : Judges s u) : Judges s (if c then t else u) := by
  split
  · exact h
  · exact k

theorem foldl {α : Type} {f : State → α → State} (hf : ∀ s a, Judges s (f s a)) (l : List α) (s : State) :
    Judges s (l.foldl f s) := by
  induction l generalizing s with
  | nil => exact refl s
  | cons a l ih => exact (hf s a).trans (ih _)

theorem level (h : Judges s t) (j : InputNo) : (t.inp j).level = (s.inp j).level := by rw [h j]
theorem lastChange (h : Judges s t) (j : InputNo) : (t.inp j).lastChange = (s.inp j).lastChange := by rw [h j]
theorem unitLost (h : Judges s t) (j : InputNo) : (t.inp j).unitLost = (s.inp j).unitLost := by rw [h j]

end Judges

theorem judges_setInp {s : State} {i : InputNo} {r : InputRec}
    (h : r =
      { s.inp i with
        discrepant := r.discrepant, reported := r.reported, lastQualityChange := r.lastQualityChange
        queuedLevel := r.queuedLevel, queuedQuality := r.queuedQuality, deferred := r.deferred }) :
    Judges s (s.setInp i r) := by
  intro j
  rw [State.inp_setInp]
  split
  · next e => subst e; exact h
  · rfl

theorem judges_formQuality (s : State) (st : TimeStamp) (i : InputNo) : Judges s (s.formQuality st i) := by
  unfold State.formQuality
  dsimp only
  exact .ite (.refl _) (judges_setInp rfl)

theorem judges_setDiscrepant (s : State) (k : PairNo) (v : Bool) : Judges s (s.setDiscrepant k v) := by
  unfold State.setDiscrepant
  dsimp only
  exact .trans (judges_setInp rfl) (judges_setInp rfl)

theorem judges_pairTest (s : State) (k : PairNo) : Judges s (s.pairTest k) := by
  unfold State.pairTest
  split
  · split
    · exact fun _ => rfl
    · exact .refl _
  · exact .trans (t := s.setPairTimer k none) (fun _ => rfl) (judges_setDiscrepant _ _ _)

/-- After an accepted change the record holds the level and the time of the change (R117). -/
theorem acceptChange_judges (s : State) (i : InputNo) (l : Level) (st : TimeStamp) :
    Judges (s.setInp i ({ s.inp i with level := l, lastChange := some st }.countChange s.settings s.elapsed))
      (s.acceptChange i l st) := by
  unfold State.acceptChange
  dsimp only
  split
  · refine .trans ?_ (.of_queues (queues_produce _ _ _ _))
    refine .trans ?_ (.of_queues (queues_produce _ _ _ _))
    refine .trans ?_ (judges_formQuality _ _ _)
    exact (judges_pairTest _ _).trans (judges_formQuality _ _ _)
  · exact (judges_formQuality _ _ _).trans (.of_queues (queues_produce _ _ _ _))

theorem acceptChange_level (s : State) (i : InputNo) (l : Level) (st : TimeStamp) :
    ((s.acceptChange i l st).inp i).level = l ∧ ((s.acceptChange i l st).inp i).lastChange = some st := by
  have h := acceptChange_judges s i l st
  rw [h.level, h.lastChange, State.inp_setInp_self]
  exact ⟨rfl, rfl⟩

end Sys2Proof.Machine
end

