-- ==== Sys2Proof/Laws/CatchUp.lean ====
section
/-! SUPPORT. What the catch-up of deferred inputs does, said once: `caughtUp_catchUp`. -/

namespace Sys2Proof.Machine

/-- Serving one deferred input: its entry, if it has one, goes to the tail of the queue. -/
theorem catchOne_changeQueue (s : State) (i : InputNo) :
    (s.catchOne i).changeQueue = s.changeQueue ++ (s.catchUpEntry i).toList := by
  unfold State.catchOne State.catchUpEntry
  dsimp only
  split
  · simp [State.appendEntry, State.entryOf]
  · split
    · simp_all [State.appendEntry, State.entryOf]
    · simp

theorem appendEntry_inp (s : State) (e : ChangeEntry) (j : InputNo) :
    (s.appendEntry e).inp j =
      if j = e.input then { s.inp e.input with queuedLevel := e.level, queuedQuality := e.quality } else s.inp j :=
  State.inp_setInp _ _ _ _

theorem catchOne_inp (s : State) (i j : InputNo) :
    (s.catchOne i).inp j =
      if j = i then
        match s.catchUpEntry i with
        | none => { s.inp i with deferred := false }
        | some e => { s.inp i with deferred := false, queuedLevel := e.level, queuedQuality := e.quality }
      else s.inp j := by
  unfold State.catchOne State.catchUpEntry
  dsimp only
  split
  · rw [appendEntry_inp]
    by_cases h : j = i
    · simp [State.entryOf, h]
    · simp [State.entryOf, h, State.inp_setInp_of_ne]
  · split
    · next h2 =>
      rw [appendEntry_inp]
      by_cases h : j = i
      · simp [State.entryOf, h, h2.1]
      · simp [State.entryOf, h, State.inp_setInp_of_ne]
    · exact State.inp_setInp _ _ _ _

theorem catchOne_now (s : State) (i : InputNo) : (s.catchOne i).now = s.now := by
  unfold State.catchOne
  dsimp only
  split
  · rfl
  · split <;> rfl

/-- The lowest deferred input, where there is one. -/
theorem lowestDeferred_some {s : State} {i : InputNo} (h : s.lowestDeferred = some i) :
    (s.inp i).deferred = true ∧ ∀ j, j < i → (s.inp j).deferred = false := by
  unfold State.lowestDeferred at h
  obtain ⟨n, hn, rfl⟩ := Option.map_eq_some_iff.1 h
  obtain ⟨hl, hd, hb⟩ := List.findIdx?_eq_some_iff_getElem.1 hn
  have hl' : n < 256 := by simpa using hl
  have hf : (Fin.ofNat 256 n).val = n := Nat.mod_eq_of_lt hl'
  refine ⟨?_, fun j hj => ?_⟩
  · simpa [State.inp, Nat.mod_eq_of_lt hl'] using hd
  · have := hb j.val (by rw [← hf]; exact hj)
    simpa [State.inp] using this

theorem lowestDeferred_none {s : State} (h : s.lowestDeferred = none) (i : InputNo) : (s.inp i).deferred = false := by
  unfold State.lowestDeferred at h
  have hn := List.findIdx?_eq_none_iff.1 (Option.map_eq_none_iff.1 h)
  have := hn s.inputs[i.val] (by simp)
  simpa [State.inp] using this

/-- The inputs deferred. -/
def State.deferredSet (s : State) : Finset InputNo := Finset.univ.filter fun i => (s.inp i).deferred = true

/-- As many rounds of the catch-up as there are deferred inputs, or more, are the whole of it (R126). -/
theorem caughtUp_rounds (n : Nat) (s : State) (hn : s.deferredSet.card ≤ n) : CaughtUp s (s.catchUp n) := by
  have nothing : ∀ s : State, ((∃ i, (s.inp i).deferred = true) → 128 ≤ s.changeQueue.length) → CaughtUp s s :=
    fun s h => ⟨[], List.Pairwise.nil, by simp, by simp, by simp, fun _ _ => rfl, by simp, by simp, h⟩
  induction n generalizing s with
  | zero =>
    refine nothing s fun ⟨i, hi⟩ => ?_
    have : i ∈ s.deferredSet := by simp [State.deferredSet, hi]
    simp [Finset.card_eq_zero.1 (Nat.le_zero.1 hn)] at this
  | succ n ih =>
    unfold State.catchUp
    split
    · next hq =>
      split
      · next hl =>
        exact nothing s fun ⟨i, hi⟩ => by rw [lowestDeferred_none hl] at hi; cases hi
      · next i hl =>
        obtain ⟨hi, hlow⟩ := lowestDeferred_some hl
        have hself : ((s.catchOne i).inp i).deferred = false := by
          rw [catchOne_inp, if_pos rfl]; split <;> rfl
        have hoff : ∀ j, j ≠ i → (s.catchOne i).inp j = s.inp j := fun j hj => by rw [catchOne_inp, if_neg hj]
        have hsub : (s.catchOne i).deferredSet ⊆ s.deferredSet.erase i := by
          intro j hj
          simp only [State.deferredSet, Finset.mem_filter, Finset.mem_univ, true_and, Finset.mem_erase] at *
          have : j ≠ i := by rintro rfl; rw [hself] at hj; cases hj
          exact ⟨this, by rwa [hoff j this] at hj⟩
        have hcard : (s.catchOne i).deferredSet.card ≤ n := by
          have h1 := Finset.card_le_card hsub
          have h2 : i ∈ s.deferredSet := by simp [State.deferredSet, hi]
          rw [Finset.card_erase_of_mem h2] at h1
          omega
        obtain ⟨l, h1, h2, h3, h4, h5, h6, h7, h8⟩ := ih _ hcard
        have hne : ∀ j ∈ l, j ≠ i := by rintro j hj rfl; have := h2 j hj; rw [hself] at this; cases this
        have hent : ∀ j ∈ l, (s.catchOne i).catchUpEntry j = s.catchUpEntry j := fun j hj => by
          unfold State.catchUpEntry; rw [hoff j (hne j hj), catchOne_now]
        have hmap : ∀ m : List InputNo, (∀ j ∈ m, j ∈ l) →
            m.filterMap (s.catchOne i).catchUpEntry = m.filterMap s.catchUpEntry := fun m hm =>
          List.filterMap_congr fun j hj => hent j (hm j hj)
        have hlist : ∀ m : List InputNo, (∀ j ∈ m, j ∈ l) → (i :: m).filterMap s.catchUpEntry =
            (s.catchUpEntry i).toList ++ m.filterMap (s.catchOne i).catchUpEntry := fun m hm => by
          rw [hmap m hm, List.filterMap_cons]; cases s.catchUpEntry i <;> rfl
        refine ⟨i :: l, ?_, ?_, ?_, ?_, ?_, ?_, ?_, h8⟩
        · refine List.pairwise_cons.2 ⟨fun j hj => ?_, h1⟩
          have hd := h2 j hj
          rw [hoff j (hne j hj)] at hd
          rcases Nat.lt_trichotomy i.val j.val with h | h | h
          · exact h
          · exact absurd (Fin.ext h.symm) (hne j hj)
          · rw [hlow j h] at hd; cases hd
        · intro j hj
          rcases List.mem_cons.1 hj with rfl | hj
          · exact hi
          · rw [← hoff j (hne j hj)]; exact h2 j hj
        · intro j hj k hk hd
          by_cases hki : k = i
          · subst hki; exact List.mem_cons_self ..
          · rcases List.mem_cons.1 hj with rfl | hj
            · rw [hlow k hk] at hd; cases hd
            · exact List.mem_cons_of_mem _ (h3 j hj k hk (by rwa [hoff k hki]))
        · rw [h4, catchOne_changeQueue, hlist l fun _ h => h, List.append_assoc]
        · intro j hj
          rw [List.mem_cons, not_or] at hj
          rw [h5 j hj.2, hoff j hj.1]
        · intro j hj
          rcases List.mem_cons.1 hj with rfl | hj
          · refine (h5 j fun h => hne j h rfl).trans ((catchOne_inp s j j).trans ?_)
            cases s.catchUpEntry j <;> simp
          · rw [h6 j hj, hent j hj, hoff j (hne j hj)]
        · intro first last e
          cases first with
          | nil => simpa [Config.changeCapacity] using hq
          | cons x m =>
            rw [List.cons_append, List.cons.injEq] at e
            obtain ⟨rfl, e⟩ := e
            have h := h7 m last e
            rw [hlist m fun j hj => by rw [e]; exact List.mem_append_left _ hj, List.length_append]
            rw [catchOne_changeQueue, List.length_append] at h
            omega
    · next hq =>
      refine nothing s fun _ => ?_
      simp only [Config.changeCapacity] at hq
      omega

/-- The catch-up after a place of the queue has become free (R126). -/
theorem caughtUp_catchUp (s : State) : CaughtUp s (s.catchUp 256) :=
  caughtUp_rounds 256 s ((Finset.card_le_univ _).trans (by simp))

end Sys2Proof.Machine
end

