-- ==== Sys2Proof/Laws/Entries.lean ====
section
/-! SUPPORT. What taking a change entry does, said once: the state with the place freed and caught up, and what each way of
handling the entry changes of it. -/

namespace Sys2Proof.Machine

/-- The state with the head entry removed and the freed place caught up (R126). -/
def State.freed (s : State) (rest : List ChangeEntry) : State := State.catchUp 256 { s with changeQueue := rest }

theorem takeEntry_eq {s : State} {e : ChangeEntry} {rest : List ChangeEntry} (hq : s.changeQueue = e :: rest)
    (hm : s.mode = .run) (handle : ChangeEntry → State → State) :
    s.takeEntry e.kind handle = (if s.unfitted e.input then s.freed rest else handle e (s.freed rest)).settle := by
  unfold State.takeEntry State.freed
  rw [hq]
  dsimp only
  rw [if_pos ⟨hm, rfl⟩]

/-- The catch-up changes what is queued and deferred, and appends to the queue, and does nothing else. -/
theorem freed_eq (s : State) (rest : List ChangeEntry) :
    ∃ more, s.freed rest = { s with inputs := (s.freed rest).inputs, changeQueue := rest ++ more } := by
  have hf := filters_catchUp 256 { s with changeQueue := rest }
  have hq := queues_catchUp 256 { s with changeQueue := rest }
  obtain ⟨m, h1, _⟩ := hf.queue
  refine ⟨m, ?_⟩
  have h2 : (s.freed rest).pairTimers = s.pairTimers := hq.timers
  have h3 : (s.freed rest).raisings = s.raisings := catchUp_raisings _ _
  have h4 : (s.freed rest).changeQueue = rest ++ m := h1
  have e : s.freed rest =
      { ({ s with changeQueue := rest } : State) with
        inputs := (s.freed rest).inputs, pairTimers := (s.freed rest).pairTimers
        changeQueue := (s.freed rest).changeQueue, raisings := (s.freed rest).raisings } := hf.rest
  rw [h2, h3, h4] at e
  exact e

theorem loadInput_eq (s : State) (e : ChangeEntry) : s.loadInput e = { s with inputCapture := s.inputLoaded e } := by
  unfold State.loadInput State.inputLoaded
  split <;> rfl

/-- The input capture record after a load and the lock of R135. -/
theorem lockInput_eq {s t : State} (e : ChangeEntry) (h : t.inputCapture = s.inputLoaded e) :
    t.lockInput = { t with inputCapture := s.inputLocked e } := by
  have hl : (s.inputLoaded e).locked = s.inputCapture.locked := by unfold State.inputLoaded; split <;> simp_all
  unfold State.lockInput State.inputLocked
  rw [h, hl]
  split
  · next hk =>
    have : s.inputLoaded e = s.inputCapture := by unfold State.inputLoaded; rw [if_pos hk]
    rw [this]
  · rfl

theorem recordInput_eq (s : State) (e : ChangeEntry) (b : Option Level) (d : Disposition) (m : Option PointNo) :
    s.recordInput e b d m = s.append false (inputDraft e b d m) := rfl

/-- The set-aside of a LEVEL entry: record, raising and lock (R135). -/
theorem lockedOut {s u : State} (e : ChangeEntry) (f : Flag) (d : RecordDraft) (hu : u.inputCapture = s.inputLoaded e)
    (hf : f ≠ .logLoss ∧ f ≠ .logHigh) (hr : u.raisings = []) (hl : u.log = s.log) (hg : u.flags = s.flags)
    (hn : u.now = s.now) (hb : s.log.ring.length ≤ 1024) :
    let t := ((u.append false d).handOn { plainRaising f with input := some e.input }).lockInput.settle
    OnlyEmits { u with inputCapture := s.inputLocked e } t ∧ t.flagSet f = true
      ∧ AppendsRaising s t d (s.systemDraft f none none (some e.input) .none none) := by
  dsimp only
  have h1 := onlyEmits_append u false d
  have h2 := h1.trans (onlyEmits_handOn _ { plainRaising f with input := some e.input })
  have hc : ((u.append false d).handOn { plainRaising f with input := some e.input }).inputCapture =
      s.inputLoaded e := by
    have := congrArg State.inputCapture h2.rest
    exact this.trans hu
  rw [lockInput_eq e hc]
  have h3 : OnlyEmits { u with inputCapture := s.inputLocked e }
      { (u.append false d).handOn { plainRaising f with input := some e.input } with
        inputCapture := s.inputLocked e } :=
    { rest := by rw [h2.rest], ports := h2.ports, arbiters := h2.arbiters, busy := h2.busy, flags := h2.flags
      archive := h2.archive, threshold := h2.threshold }
  refine ⟨h3.trans (onlyEmits_settle _), ?_, ?_⟩
  · exact settle_flagSet (r := { plainRaising f with input := some e.input }) (by simp [State.handOn])
  · have k := appendsRaising_settle (s := u) (d := d) (r := { plainRaising f with input := some e.input })
      (w := { (u.append false d).handOn { plainRaising f with input := some e.input } with
        inputCapture := s.inputLocked e })
      hr (by rw [hl]; exact hb) hf rfl rfl (append_flags _ _ _) (by rw [h1.rest]; rfl)
    have hd : ({ plainRaising f with input := some e.input } : Raising).draft (u.flagSet f) u.now =
        s.systemDraft f none none (some e.input) .none none := by
      rw [show u.flagSet f = s.flagSet f by unfold State.flagSet; rw [hg], hn]; rfl
    exact hd ▸ k.congr hl.symm hg.symm hn.symm rfl

end Sys2Proof.Machine
end

