-- ==== Sys2Proof/Laws/Flags.lean ====
section
/-! SUPPORT. Which flags an operation can set or hand on, said once: `RaisesOnly s t more` bounds them by what was set or
waited before, by `more`, and by what appends and placements raise. -/

namespace Sys2Proof.Machine

/-- The flag is set, or a raising of it waits. -/
def State.flagOrWaiting (s : State) (f : Flag) : Prop := s.flagSet f = true ∨ ∃ r ∈ s.raisings, r.flag = f

/-- The flag is one that an append or a placement can raise: LOG_LOSS and LOG_HIGH with an archive port alone (R72, R105,
R107). -/
def State.follows (s : State) (f : Flag) : Prop :=
  f = .noticeOverrun ∨ s.log.archive ≠ none ∧ (f = .logLoss ∨ f = .logHigh)

/-- From `s` to `t` no flag has been set or handed on but those of `more` and those that follow. -/
structure RaisesOnly (s t : State) (more : List Flag) : Prop where
  flags : ∀ f, t.flagOrWaiting f → s.flagOrWaiting f ∨ f ∈ more ∨ s.follows f
  archive : t.log.archive = s.log.archive

namespace RaisesOnly

variable {s t u : State} {a b : List Flag}

theorem refl (s : State) : RaisesOnly s s a := ⟨fun _ h => Or.inl h, rfl⟩

theorem follows (h : RaisesOnly s t a) (f : Flag) : t.follows f ↔ s.follows f := by
  unfold State.follows
  rw [h.archive]

theorem trans (h : RaisesOnly s t a) (k : RaisesOnly t u a) : RaisesOnly s u a := by
  refine ⟨fun f hf => ?_, k.archive.trans h.archive⟩
  rcases k.flags f hf with g | g | g
  · exact h.flags f g
  · exact Or.inr (Or.inl g)
  · exact Or.inr (Or.inr ((h.follows f).1 g))

theorem mono (h : RaisesOnly s t a) (k : ∀ f ∈ a, f ∈ b) : RaisesOnly s t b :=
  ⟨fun f hf => (h.flags f hf).imp id (Or.imp (k f) id), h.archive⟩

theorem same (hf : t.flags = s.flags) (hr : t.raisings = s.raisings) (ha : t.log.archive = s.log.archive) :
    RaisesOnly s t a :=
  ⟨fun f h => Or.inl (by unfold State.flagOrWaiting State.flagSet at *; rwa [hf, hr] at h), ha⟩

theorem ite {c : Prop} [Decidable c] (h : RaisesOnly s t a) (k : RaisesOnly s u a) :
    RaisesOnly s (if c then t else u) a := by
  split
  · exact h
  · exact k

theorem foldl {α : Type} {f : State → α → State} (hf : ∀ s x, RaisesOnly s (f s x) a) (l : List α) (s : State) :
    RaisesOnly s (l.foldl f s) a := by
  induction l generalizing s with
  | nil => exact refl s
  | cons x l ih => exact (hf s x).trans (ih _)

/-- A raising handed on, of a flag that is named or that follows. -/
theorem handOn (s : State) {r : Raising} (h : r.flag ∈ a ∨ s.follows r.flag) : RaisesOnly s (s.handOn r) a := by
  refine ⟨fun f hf => ?_, rfl⟩
  rcases hf with hf | ⟨q, hq, rfl⟩
  · exact Or.inl (Or.inl hf)
  · simp only [State.handOn, List.mem_append, List.mem_singleton] at hq
    rcases hq with hq | rfl
    · exact Or.inl (Or.inr ⟨q, hq, rfl⟩)
    · exact Or.inr h

/-- What `RaisesOnly` says of a whole command: before it no raising waits. -/
theorem flagsOnly (h : RaisesOnly s t a) (hr : s.raisings = []) (hk : ∀ f, s.flagSet f = true → t.flagSet f = true) :
    FlagsOnly s t a := by
  have hs : ∀ f, s.flagOrWaiting f → s.flagSet f = true := by
    rintro f (g | ⟨r, g, _⟩)
    · exact g
    · rw [hr] at g; cases g
  refine ⟨fun f hf => ?_, fun ha f hf hn => ?_⟩
  · rcases h.flags f (Or.inl hf) with g | g | g
    · exact Or.inl (hs f g)
    · exact Or.inr (Or.inl g)
    · refine Or.inr (Or.inr ?_)
      rcases g with rfl | ⟨_, rfl | rfl⟩ <;> simp [followingFlags]
  · cases hsf : s.flagSet f with
    | true => exact hk f hsf
    | false =>
      cases htf : t.flagSet f with
      | false => rfl
      | true =>
        rcases h.flags f (Or.inl htf) with g | g | g
        · rw [hs f g] at hsf; cases hsf
        · exact absurd g hn
        · rcases g with rfl | ⟨g, _⟩
          · rcases hf with hf | hf <;> cases hf
          · exact absurd ha g

end RaisesOnly

variable {a : List Flag}

theorem raisesOnly_testLogHigh (s : State) (b : Bool) (r : Option Port) : RaisesOnly s (s.testLogHigh b r) a := by
  unfold State.testLogHigh
  split
  · next h =>
    refine .handOn s (Or.inr (Or.inr ⟨?_, Or.inr rfl⟩))
    intro e
    simp [e] at h
  · exact .refl s

theorem raisesOnly_makeRoom (s : State) (silent : Bool) : RaisesOnly s (s.makeRoom silent) a := by
  unfold State.makeRoom
  split
  · exact .refl s
  · refine .ite (.refl s) ?_
    split
    · next h =>
      refine .ite (.same rfl rfl rfl) (.trans ?_ (.handOn _ (Or.inr (Or.inr ⟨?_, Or.inl rfl⟩))))
      · exact .same rfl rfl rfl
      intro e
      simp [show s.log.archive = none from e] at h
    · exact .same rfl rfl rfl

/-- An append hands on LOG_LOSS and LOG_HIGH at most, and those with an archive port alone (R105, R107). -/
theorem raisesOnly_append (s : State) (silent : Bool) (d : RecordDraft) : RaisesOnly s (s.append silent d) a := by
  refine .trans ?_ (raisesOnly_testLogHigh _ _ _)
  exact (raisesOnly_makeRoom s silent).trans (.same rfl rfl rfl)

theorem handNotice_flags (s : State) (p : Port) (b : List Byte) :
    (s.handNotice p b).flags = s.flags ∧ (s.handNotice p b).log = s.log := by
  unfold State.handNotice
  dsimp only
  split <;> exact ⟨rfl, rfl⟩

theorem handResponse_flags (s : State) (p : Port) (b : List Byte) :
    (s.handResponse p b).flags = s.flags ∧ (s.handResponse p b).log = s.log := by
  unfold State.handResponse
  dsimp only
  split <;> exact ⟨rfl, rfl⟩

theorem raisesOnly_respond (s : State) (p : Port) (f : Frame) (st : Status) (r : List Byte) :
    RaisesOnly s (s.respond p f st r) a := by
  refine .same ?_ (respond_raisings _ _ _ _ _) ?_ <;> unfold State.respond
  · exact (handResponse_flags _ _ _).1
  · exact congrArg EventLog.archive (handResponse_flags _ _ _).2

theorem raisesOnly_testOffer (s : State) (p : Port) : RaisesOnly s (s.testOffer p) a := by
  unfold State.testOffer
  dsimp only
  refine .ite ?_ (.refl s)
  split
  · exact .refl s
  · exact .trans (.same rfl rfl rfl)
      (.same (handNotice_flags _ _ _).1 (handNotice_raisings _ _ _) (congrArg _ (handNotice_flags _ _ _).2))

/-- A placement hands on NOTICE_OVERRUN at most (R72). -/
theorem raisesOnly_place (s : State) (p : Port) (c : NoticeContent) (k : PClass) : RaisesOnly s (s.place p c k) a := by
  refine .trans ?_ (raisesOnly_testOffer _ _)
  unfold State.enqueue
  dsimp only
  refine .ite (.refl s) (.ite (.same rfl rfl rfl) (.ite (.same rfl rfl rfl) ?_))
  refine .trans ?_ (.handOn _ (Or.inr (Or.inl rfl)))
  exact .same rfl rfl rfl

theorem raisesOnly_placeMode (s : State) (m : Mode) : RaisesOnly s (s.placeMode m) a :=
  .foldl (fun s p => raisesOnly_place s p _ _) _ _

/-- A bit joined to a set of flags is that of the flag alone. -/
theorem flagSet_joinBit {s : State} {f g : Flag}
    (h : ({ s with flags := joinBit s.flags g.code.val } : State).flagSet f = true) : s.flagSet f = true ∨ f = g := by
  by_cases e : f = g
  · exact Or.inr e
  · refine Or.inl ?_
    have hc : f.code.val ≠ g.code.val := by cases f <;> cases g <;> first | exact absurd rfl e | decide
    simpa [State.flagSet, hasBit, joinBit, hc] using h

/-- A raising that waited, handled: its flag was counted, and only what follows is new (R155, R156). -/
theorem raisesOnly_raise {s : State} {r : Raising} (h : s.flagOrWaiting r.flag ∨ r.flag ∈ a ∨ s.follows r.flag) :
    RaisesOnly s (s.raise r) a := by
  have h1 : RaisesOnly s { s with flags := joinBit s.flags r.flag.code.val } a := by
    refine ⟨fun f hf => ?_, rfl⟩
    rcases hf with hf | hf
    · rcases flagSet_joinBit hf with g | rfl
      · exact Or.inl (Or.inl g)
      · exact h
    · exact Or.inl (Or.inr hf)
  have h2 := h1.trans (raisesOnly_append _ (r.flag == .logLoss) (r.draft (s.flagSet r.flag) s.now))
  unfold State.raise
  dsimp only
  exact .ite (h2.trans (raisesOnly_place _ _ _ _)) h2

theorem raisesOnly_drain (n : Nat) (s : State) : RaisesOnly s (s.drain n) a := by
  induction n generalizing s with
  | zero => exact ⟨fun f hf => Or.inl (hf.imp id fun ⟨r, hr, _⟩ => by cases hr), rfl⟩
  | succ n ih =>
    unfold State.drain
    split
    · exact .refl s
    · next r rest e =>
      refine .trans ?_ (ih _)
      refine ⟨fun f hf => ?_, ?_⟩
      · have k : RaisesOnly { s with raisings := rest } (({ s with raisings := rest } : State).raise r) (r.flag :: a) :=
          raisesOnly_raise (Or.inr (Or.inl (List.mem_cons_self ..)))
        have waits : ∀ {g}, r.flag = g → s.flagOrWaiting g := fun hg => Or.inr ⟨r, by rw [e]; simp, hg⟩
        rcases k.flags f hf with (g | ⟨q, hq, rfl⟩) | g | g
        · exact Or.inl (Or.inl g)
        · exact Or.inl (Or.inr ⟨q, by rw [e]; exact List.mem_cons_of_mem _ hq, rfl⟩)
        · rcases List.mem_cons.1 g with rfl | g
          · exact Or.inl (waits rfl)
          · exact Or.inr (Or.inl g)
        · exact Or.inr (Or.inr g)
      · exact (onlyEmits_raise _ _).archive

/-- The end of a command sets what waits, and what follows (R155, R156). -/
theorem raisesOnly_settle (s : State) : RaisesOnly s s.settle a := raisesOnly_drain _ _

end Sys2Proof.Machine
end

