-- ==== Sys2Proof/Laws/Link.lean ====
section
/-! SUPPORT. What the Expansion Link Controller can change, said once: `Links s t` lets nothing change but the link, what
the Input Filter's claims change, and the raisings handed on. -/

namespace Sys2Proof.Machine

/-- From `s` to `t` the Expansion Link Controller has worked, with claims on the Input Filter. -/
structure Links (s t : State) : Prop where
  rest : t = { s with
    link := t.link, inputs := t.inputs, pairTimers := t.pairTimers, changeQueue := t.changeQueue
    raisings := t.raisings }
  queue : ∃ more, t.changeQueue = s.changeQueue ++ more
  bound : s.changeQueue.length ≤ 128 → t.changeQueue.length ≤ 128
  raisings : ∃ more, t.raisings = s.raisings ++ more
  cycle : t.link.pollCycle = s.link.pollCycle

namespace Links

variable {s t u : State}

theorem refl (s : State) : Links s s := ⟨rfl, ⟨[], by simp⟩, id, ⟨[], by simp⟩, rfl⟩

theorem trans (h : Links s t) (k : Links t u) : Links s u where
  rest := by rw [k.rest, h.rest]
  queue := by
    obtain ⟨a, h1⟩ := h.queue
    obtain ⟨b, k1⟩ := k.queue
    exact ⟨a ++ b, by rw [k1, h1, List.append_assoc]⟩
  bound hb := k.bound (h.bound hb)
  raisings := by
    obtain ⟨a, h1⟩ := h.raisings
    obtain ⟨b, k1⟩ := k.raisings
    exact ⟨a ++ b, by rw [k1, h1, List.append_assoc]⟩
  cycle := k.cycle.trans h.cycle

theorem of_filters {I : InputNo → Prop} (h : Filters s t I) : Links s t where
  rest := by rw [h.rest]
  queue := by obtain ⟨m, e, _⟩ := h.queue; exact ⟨m, e⟩
  bound := h.bound
  raisings := by obtain ⟨m, e, _⟩ := h.raisings; exact ⟨m, e⟩
  cycle := by rw [h.link]

theorem of_link {l : Link} (h : l.pollCycle = s.link.pollCycle) : Links s { s with link := l } :=
  ⟨rfl, ⟨[], by simp⟩, id, ⟨[], by simp⟩, h⟩

theorem of_handOn (s : State) (r : Raising) : Links s (s.handOn r) :=
  ⟨rfl, ⟨[], by simp⟩, id, ⟨[r], rfl⟩, rfl⟩

theorem of_setUnit (s : State) (u : UnitNo) (r : UnitRec) : Links s (s.setUnit u r) := of_link rfl

theorem ite {c : Prop} [Decidable c] (h : Links s t) (k : Links s u) : Links s (if c then t else u) := by
  split
  · exact h
  · exact k

theorem foldl {α : Type} {f : State → α → State} (hf : ∀ s a, Links s (f s a)) (l : List α) (s : State) :
    Links s (l.foldl f s) := by
  induction l generalizing s with
  | nil => exact refl s
  | cons a l ih => exact (hf s a).trans (ih _)

theorem log (h : Links s t) : t.log = s.log := by have e := congrArg State.log h.rest; exact e
theorem mode (h : Links s t) : t.mode = s.mode := by have e := congrArg State.mode h.rest; exact e
theorem stations (h : Links s t) : t.stations = s.stations := by have e := congrArg State.stations h.rest; exact e
theorem pending (h : Links s t) : t.pending = s.pending := by have e := congrArg State.pending h.rest; exact e
theorem now (h : Links s t) : t.now = s.now := by rw [h.rest]; rfl

end Links

/-! ### Cycle and turns -/

theorem links_beginExchange (s : State) (u : UnitNo) : Links s (s.beginExchange u) := .of_link rfl

theorem links_beginTurn (s : State) (u : UnitNo) : Links s (s.beginTurn u) :=
  (Links.of_setUnit s u _).trans (links_beginExchange _ u)

theorem links_quietLink (s : State) : Links s s.quietLink := .of_link rfl

theorem links_startCycle (s : State) : Links s s.startCycle := by
  have h : Links s s.takeInUnits := .of_link rfl
  unfold State.startCycle
  dsimp only
  split
  · exact h.trans (links_quietLink _)
  · exact h.trans (links_beginTurn _ _)

theorem links_endCycle (s : State) : Links s s.endCycle := by
  unfold State.endCycle
  split
  · have h : Links s { s with link := { s.link with due := false } } := .of_link rfl
    exact h.trans (links_startCycle _)
  · exact links_quietLink s

theorem links_endTurn (s : State) (u : UnitNo) : Links s (s.endTurn u) := by
  unfold State.endTurn
  split
  · exact links_endCycle s
  · exact links_beginTurn s _

theorem links_pollExpiry (s : State) : Links s s.pollExpiry := by
  unfold State.pollExpiry
  dsimp only
  have h : Links s { s with link := { s.link with pollTimer := some s.link.pollCycle } } := .of_link rfl
  split
  · exact h.trans (links_startCycle _)
  · exact .of_link rfl

/-! ### Answers and misses -/

theorem links_identityMatch (s : State) (u : UnitNo) (b : List Byte) : Links s (s.identityMatch u b) := by
  unfold State.identityMatch
  dsimp only
  exact .ite (.of_setUnit _ _ _) (.ite (.of_setUnit _ _ _) ((Links.of_setUnit _ _ _).trans (.of_handOn _ _)))

theorem links_snapshotGood (s : State) (u : UnitNo) (b : List Byte) : Links s (s.snapshotGood u b) := by
  unfold State.snapshotGood
  dsimp only
  exact ((Links.of_setUnit _ _ _).trans (.of_filters (filters_snapshotClaim _ _ _ _))).trans (.of_setUnit _ _ _)

theorem links_changesGood (s : State) (u : UnitNo) (b : List Byte) (a : TimeStamp) :
    Links s (s.changesGood u b a) := by
  unfold State.changesGood
  dsimp only
  refine .ite ((Links.of_setUnit _ _ _).trans (links_endTurn _ _)) (.ite ?_ ?_)
  · exact (((Links.of_setUnit _ _ _).trans (.of_filters (filters_lostClaim _ _))).trans (.of_handOn _ _)).trans
      (links_endTurn _ _)
  · have h := (Links.of_setUnit s u
        ({ s.unit u with misses := 0, lastSeq := (b.getD 0 0).toNat })).trans
      (.foldl (f := handReport u a) (fun t r => .of_filters (filters_remoteReport t _ _ _)) (parseReports (b.drop 3)) _)
    refine .ite (.ite ?_ ?_) (h.trans (links_endTurn _ _))
    · exact (h.trans (.of_setUnit _ _ _)).trans (links_beginExchange _ _)
    · exact (h.trans (.of_setUnit _ _ _)).trans (links_endTurn _ _)

theorem links_goodAnswer (s : State) (x : Exchange) (b : List Byte) (a : TimeStamp) : Links s (s.goodAnswer x b a) := by
  unfold State.goodAnswer
  split
  · exact links_endTurn _ _
  · split
    · exact (links_identityMatch _ _ _).trans (links_endTurn _ _)
    · exact (links_snapshotGood _ _ _).trans (links_endTurn _ _)
    · exact links_changesGood _ _ _ _

theorem links_countMiss (s : State) (u : UnitNo) : Links s (s.countMiss u) := by
  unfold State.countMiss
  dsimp only
  refine .ite (.ite (.of_setUnit _ _ _) (.trans ?_ (.of_handOn _ _))) (.of_setUnit _ _ _)
  exact .ite ((Links.of_setUnit _ _ _).trans (.of_filters (filters_lostClaim _ _))) (.of_setUnit _ _ _)

theorem links_missedAnswer (s : State) (x : Exchange) : Links s (s.missedAnswer x) :=
  (Links.ite (.refl _) (links_countMiss _ _)).trans (links_endTurn _ _)

/-! ### Reception -/

theorem links_setLinkRx (s : State) (rx : LinkRx) : Links s (s.setLinkRx rx) := .of_link rfl

theorem links_linkByte (s : State) (b : RxByte) : Links s (s.linkByte b) := by
  unfold State.linkByte
  split
  · exact .refl _
  · refine .ite (.refl _) ?_
    unfold State.linkByteWaiting
    split
    · exact .ite (links_setLinkRx _ _) (.refl _)
    · dsimp only
      refine .ite (links_setLinkRx _ _) ?_
      split
      · exact links_setLinkRx _ _
      · exact .ite (links_setLinkRx _ _)
          (.ite ((links_setLinkRx _ _).trans (links_goodAnswer _ _ _ _)) (links_setLinkRx _ _))

theorem links_linkBytes (s : State) (l : List RxByte) : Links s (s.linkBytes l) := .foldl links_linkByte l s

/-! ### Requests -/

theorem links_voidExchange (s : State) (u : UnitNo) : Links s (s.voidExchange u) := .of_link rfl

theorem links_configureUnit (s : State) (u : UnitNo) (f : Bool) (d : Nat) : Links s (s.configureUnit u f d) := by
  unfold State.configureUnit
  dsimp only
  have h := (Links.of_setUnit s u ((s.unit u).configured f d)).trans (links_voidExchange _ u)
  exact .ite (h.trans (.of_filters (filters_lostClaim _ _))) h

theorem links_restartUnit (s : State) (u : UnitNo) : Links s (restartUnit s u) :=
  .ite (.refl _) ((Links.of_setUnit s u _).trans (links_voidExchange _ u))

end Sys2Proof.Machine
end

