-- ==== Sys2Proof/Laws/LinkFrame.lean ====
section
/-! SUPPORT. The receive automaton of the master on a whole frame (R137): while an answer is awaited and the assembly hunts,
the bytes of an answer frame are judged once, at the last of them (`linkBytes_frame`), a frame cut short by a low stop bit
is discarded (`linkBytes_cut`), and bytes that are no START change nothing (`linkBytes_noStart`). -/

namespace Sys2Proof.Machine

/-- The master waits for the answer of exchange `x`. -/
def State.Waiting (s : State) (x : Exchange) : Prop := s.link.exchange = some x ∧ x.phase ≠ .sending

theorem linkByte_waiting {s : State} {x : Exchange} (h : s.Waiting x) (b : RxByte) :
    s.linkByte b = s.linkByteWaiting x b := by
  unfold State.linkByte
  rw [h.1]
  exact if_neg h.2

theorem linkBytes_append (s : State) (a b : List RxByte) : s.linkBytes (a ++ b) = (s.linkBytes a).linkBytes b := by
  simp [State.linkBytes]

theorem waiting_setLinkRx {s : State} {x : Exchange} (h : s.Waiting x) (rx : LinkRx) : (s.setLinkRx rx).Waiting x := h

@[simp] theorem setLinkRx_setLinkRx (s : State) (a b : LinkRx) : (s.setLinkRx a).setLinkRx b = s.setLinkRx b := rfl

theorem setLinkRx_self {s : State} {rx : LinkRx} (h : s.link.rx = rx) : s.setLinkRx rx = s := by
  subst h; rfl

/-- Bytes that leave the frame unfinished are kept. -/
theorem linkBytes_partial {s : State} {x : Exchange} (hw : s.Waiting x) (l pre : List Byte) (arr : TimeStamp)
    (h : ∀ k, k < l.length →
      ∃ n, linkBodyLength (pre ++ l.take (k + 1)) = some n ∧ pre.length + (k + 1) < n + 4) :
    (s.setLinkRx (.partialFrame pre arr)).linkBytes (goodBytes l) = s.setLinkRx (.partialFrame (pre ++ l) arr) := by
  induction l generalizing pre with
  | nil => simp [State.linkBytes, goodBytes]
  | cons b l ih =>
    obtain ⟨n, h1, h2⟩ := h 0 (by simp)
    have hstep : (s.setLinkRx (.partialFrame pre arr)).linkByte ⟨b, false⟩ =
        s.setLinkRx (.partialFrame (pre ++ [b]) arr) := by
      rw [linkByte_waiting (waiting_setLinkRx hw _)]
      unfold State.linkByteWaiting
      have hrx : (s.setLinkRx (.partialFrame pre arr)).link.rx = .partialFrame pre arr := rfl
      rw [hrx]
      simp only [List.take_succ_cons, List.take_zero] at h1
      dsimp only
      rw [h1]
      dsimp only
      rw [if_neg (by simp), if_pos (by simp; omega)]
      rfl
    show (goodBytes l).foldl State.linkByte ((s.setLinkRx (.partialFrame pre arr)).linkByte ⟨b, false⟩) = _
    rw [hstep]
    have := ih (pre ++ [b]) (fun k hk => by
      obtain ⟨n, h1, h2⟩ := h (k + 1) (by simp; omega)
      refine ⟨n, ?_, ?_⟩
      · rw [List.append_assoc]; exact h1
      · rw [List.length_append]; simp at h2 ⊢; omega)
    rw [List.append_assoc] at this
    exact this

/-- A frame that is complete at its last byte is judged there. -/
theorem linkBytes_whole {s : State} {x : Exchange} (hw : s.Waiting x) (hr : s.link.rx = .hunting) (l : List Byte)
    (last : Byte) (n : Nat)
    (h : ∀ k, k < l.length → ∃ n, linkBodyLength (l.take (k + 1)) = some n ∧ k + 1 < n + 4)
    (hn : linkBodyLength (l ++ [last]) = some n) (hl : l.length + 1 = n + 4) :
    s.linkBytes (goodBytes (linkStart :: (l ++ [last]))) =
      if x.accepts (l ++ [last]) then s.goodAnswer x (linkBody (l ++ [last])) s.now else s := by
  have h0 : s.linkByte ⟨linkStart, false⟩ = s.setLinkRx (.partialFrame [] s.now) := by
    rw [linkByte_waiting hw]
    unfold State.linkByteWaiting
    rw [hr]
    simp
  have e : goodBytes (linkStart :: (l ++ [last])) = ⟨linkStart, false⟩ :: (goodBytes l ++ [⟨last, false⟩]) := by
    simp [goodBytes]
  rw [e]
  show (s.linkByte ⟨linkStart, false⟩).linkBytes (goodBytes l ++ [⟨last, false⟩]) = _
  rw [h0, linkBytes_append, linkBytes_partial hw l [] s.now (by simpa using h)]
  show (s.setLinkRx (.partialFrame ([] ++ l) s.now)).linkByte ⟨last, false⟩ = _
  rw [linkByte_waiting (waiting_setLinkRx hw _)]
  unfold State.linkByteWaiting
  have hrx : (s.setLinkRx (.partialFrame ([] ++ l) s.now)).link.rx = .partialFrame l s.now := rfl
  rw [hrx]
  dsimp only
  rw [hn]
  dsimp only
  rw [if_neg (by simp), if_neg (by simp; omega)]
  have hs : (s.setLinkRx (.partialFrame ([] ++ l) s.now)).setLinkRx .hunting = s := setLinkRx_self hr
  rw [hs]

theorem length_checkBytes (l : List Byte) : (checkBytes l).length = 2 := rfl

/-- The lengths that an answer of type 0x81 or 0x82 asks for at each of its bytes. -/
theorem linkBodyLength_plain {type : Byte} {m : Nat} (ht : type = 0x81#8 ∧ m = 3 ∨ type = 0x82#8 ∧ m = 9)
    (address : Byte) (rest : List Byte) (k : Nat) :
    linkBodyLength ((address :: type :: rest).take (k + 2)) = some m ∧ linkBodyLength [address] = some 3 := by
  refine ⟨?_, rfl⟩
  rw [List.take_succ_cons, List.take_succ_cons]
  unfold linkBodyLength
  rcases ht with ⟨h, h'⟩ | ⟨h, h'⟩ <;> subst h <;> subst h' <;> rfl

/-- The lengths that a CHANGES answer of `n` reports asks for at each of its bytes. -/
theorem linkBodyLength_changes (address seq flags : Byte) (n : Nat) (hn : n ≤ 8) (rest : List Byte) (k : Nat) :
    ∃ m, linkBodyLength ((address :: 0x83#8 :: seq :: flags :: BitVec.ofNat 8 n :: rest).take (k + 1)) = some m
      ∧ (k < 4 → m = 3) ∧ (4 ≤ k → m = 3 + 3 * n) := by
  have h8 : (BitVec.ofNat 8 n).toNat = n := by simp; omega
  match k with
  | 0 => exact ⟨3, rfl, fun _ => rfl, fun h => by omega⟩
  | 1 => exact ⟨3, rfl, fun _ => rfl, fun h => by omega⟩
  | 2 => exact ⟨3, rfl, fun _ => rfl, fun h => by omega⟩
  | 3 => exact ⟨3, rfl, fun _ => rfl, fun h => by omega⟩
  | k + 4 =>
    refine ⟨3 + 3 * n, ?_, fun h => by omega, fun _ => rfl⟩
    simp only [List.take_succ_cons]
    unfold linkBodyLength
    simp [h8, hn]

/-! ### Frames of every TYPE, whole, cut short and discarded -/

/-- The length that a frame asks for is known at each of its bytes, and is its own at the last. -/
theorem linkBodyLength_frame {type : Byte} {body : List Byte} (h : LinkLength type body) (address : Byte)
    (check : List Byte) (k : Nat) :
    ∃ n, linkBodyLength ((address :: type :: body ++ check).take (k + 1)) = some n
      ∧ (k < body.length + 3 → k + 1 < n + 4) ∧ (body.length + 3 ≤ k → n = body.length) := by
  have plain : ∀ m, type = 0x81#8 ∧ m = 3 ∨ type = 0x82#8 ∧ m = 9 → body.length = m →
      ∃ n, linkBodyLength ((address :: type :: body ++ check).take (k + 1)) = some n
        ∧ (k < body.length + 3 → k + 1 < n + 4) ∧ (body.length + 3 ≤ k → n = body.length) := by
    intro m ht hm
    match k with
    | 0 => exact ⟨3, rfl, fun _ => by omega, fun h => by omega⟩
    | k + 1 => exact ⟨m, (linkBodyLength_plain ht address (body ++ check) k).1, fun h => by omega, fun _ => hm.symm⟩
  rcases h with ⟨rfl, hl⟩ | ⟨rfl, hl⟩ | ⟨rfl, h3, h8, hl⟩
  · exact plain 3 (Or.inl ⟨rfl, rfl⟩) hl
  · exact plain 9 (Or.inr ⟨rfl, rfl⟩) hl
  · match body, h3 with
    | seq :: flags :: count :: rest, _ =>
      simp only [List.getD_cons_succ, List.getD_cons_zero] at h8 hl
      obtain ⟨n, h1, h2, h4⟩ := linkBodyLength_changes address seq flags count.toNat h8 (rest ++ check) k
      rw [BitVec.ofNat_toNat, BitVec.setWidth_eq] at h1
      refine ⟨n, h1, fun hk => ?_, fun hk => ?_⟩
      · by_cases hk4 : k < 4
        · rw [h2 hk4]; omega
        · rw [h4 (by omega)]; omega
      · rw [hl, h4 (by simp only [List.length_cons] at hk; omega)]

theorem linkByte_start {s : State} {x : Exchange} (hw : s.Waiting x) (hr : s.link.rx = .hunting) :
    s.linkByte ⟨linkStart, false⟩ = s.setLinkRx (.partialFrame [] s.now) := by
  rw [linkByte_waiting hw]
  unfold State.linkByteWaiting
  rw [hr]
  simp

/-- A byte that is no START leaves the hunting master as it is. -/
theorem linkBytes_noStart {s : State} (hr : s.link.rx = .hunting) (l : List RxByte) (h : NoStart l) :
    s.linkBytes l = s := by
  induction l with
  | nil => rfl
  | cons b l ih =>
    have hb : s.linkByte b = s := by
      unfold State.linkByte
      split
      · rfl
      · split
        · rfl
        · unfold State.linkByteWaiting
          rw [hr]
          dsimp only
          rw [if_neg]
          rintro ⟨h1, h2⟩
          rcases h b (List.mem_cons_self ..) with h' | h'
          · exact h' h1
          · rw [h2] at h'; cases h'
    show (s.linkByte b).linkBytes l = s
    rw [hb]
    exact ih fun c hc => h c (List.mem_cons_of_mem _ hc)

/-- A byte with a low stop bit ends a partial frame as a discard. -/
theorem linkByte_low {s : State} {x : Exchange} (hw : s.Waiting x) {bytes : List Byte} {arrival : TimeStamp}
    (hr : s.link.rx = .partialFrame bytes arrival) {b : RxByte} (hb : b.stopLow = true) :
    s.linkByte b = s.setLinkRx .hunting := by
  rw [linkByte_waiting hw]
  unfold State.linkByteWaiting
  rw [hr]
  dsimp only
  rw [if_pos hb]

/-- A frame cut short by a low stop bit is discarded (R137). -/
theorem linkBytes_cut {s : State} {x : Exchange} (hw : s.Waiting x) (hr : s.link.rx = .hunting) {address type : Byte}
    {body check before after : List Byte} (hl : LinkLength type body) (hc : check.length = 2)
    (hf : linkStart :: address :: type :: body ++ check = before ++ after) (ha : after ≠ []) {b : RxByte}
    (hb : b.stopLow = true) : s.linkBytes (goodBytes before ++ [b]) = s := by
  cases before with
  | nil => exact linkBytes_noStart hr [b] fun c hc => Or.inr (by rw [List.mem_singleton.mp hc]; exact hb)
  | cons c before =>
    obtain ⟨hs, hrest⟩ := List.cons.inj hf
    subst hs
    have hf : address :: type :: body ++ check = before ++ after := hrest
    have hlen : before.length < body.length + 4 := by
      have := congrArg List.length hf
      have := List.length_pos_iff.mpr ha
      simp [hc] at *
      omega
    have hpre := linkBytes_partial hw before [] s.now fun k hk => by
      obtain ⟨n, h1, h2, -⟩ := linkBodyLength_frame hl address check k
      refine ⟨n, ?_, by simpa using h2 (by omega)⟩
      rw [hf, List.take_append_of_le_length (by omega)] at h1
      simpa using h1
    show (s.linkByte ⟨linkStart, false⟩).linkBytes (goodBytes before ++ [b]) = s
    rw [linkByte_start hw hr, linkBytes_append, hpre]
    show (s.setLinkRx (.partialFrame ([] ++ before) s.now)).linkByte b = s
    rw [linkByte_low (waiting_setLinkRx hw _) rfl hb, setLinkRx_setLinkRx]
    exact setLinkRx_self hr

/-- A whole frame is judged at its last byte (R137). -/
theorem linkBytes_frame {s : State} {x : Exchange} (hw : s.Waiting x) (hr : s.link.rx = .hunting) (address : Byte)
    {type : Byte} {body check : List Byte} (hl : LinkLength type body) (hc : check.length = 2) :
    s.linkBytes (goodBytes (linkStart :: address :: type :: body ++ check)) =
      if x.accepts (address :: type :: (body ++ check)) then s.goodAnswer x body s.now else s := by
  obtain ⟨c1, c2, rfl⟩ : ∃ a b, check = [a, b] := by
    match check, hc with
    | [a, b], _ => exact ⟨a, b, rfl⟩
  have hk := linkBodyLength_frame hl address [c1, c2]
  have h := linkBytes_whole (x := x) hw hr (address :: type :: (body ++ [c1])) c2 body.length ?_ ?_ ?_
  · have e : linkStart :: address :: type :: body ++ [c1, c2] =
        linkStart :: (address :: type :: (body ++ [c1]) ++ [c2]) := by simp
    have e2 : address :: type :: (body ++ [c1]) ++ [c2] = address :: type :: (body ++ [c1, c2]) := by simp
    have e3 : linkBody (address :: type :: (body ++ [c1, c2])) = body := by simp [linkBody]
    rw [e, h, e2, e3]
  · intro k hlt
    obtain ⟨n, h1, h2, -⟩ := hk k
    simp only [List.length_cons, List.length_append, List.length_nil] at hlt
    refine ⟨n, ?_, h2 (by omega)⟩
    rw [← h1, show address :: type :: body ++ [c1, c2] = (address :: type :: (body ++ [c1])) ++ [c2] by simp,
      List.take_append_of_le_length (by simp; omega)]
  · obtain ⟨n, h1, -, h3⟩ := hk (body.length + 3)
    rw [List.take_of_length_le (by simp), h3 (le_refl _)] at h1
    simpa using h1
  · simp

/-- A frame as the unit forms it is accepted if address and kind fit (R137). -/
theorem accepts_linkFrame (x : Exchange) (address type : Byte) (body check : List Byte) (hc : check.length = 2) :
    x.accepts (address :: type :: (body ++ check)) = true ↔
      check = checkBytes (address :: type :: body) ∧ address.toNat = x.unit.val + 1
        ∧ type.toNat = x.kind.answerType := by
  have e : (address :: type :: (body ++ check)).length - 2 = body.length + 2 := by simp [hc]
  have e1 : (address :: type :: (body ++ check)).take (body.length + 2) = address :: type :: body := by
    simp
  have e2 : (address :: type :: (body ++ check)).drop (body.length + 2) = check := by
    simp
  unfold Exchange.accepts
  rw [e]
  dsimp only
  rw [e1, e2]
  have ha : (address == BitVec.ofNat 8 (x.unit.val + 1)) = true ↔ address.toNat = x.unit.val + 1 := by
    have := x.unit.isLt
    rw [beq_iff_eq]
    constructor
    · intro h; rw [h]; simp; omega
    · intro h; rw [← h]; simp
  have ht : (type == BitVec.ofNat 8 x.kind.answerType) = true ↔ type.toNat = x.kind.answerType := by
    rw [beq_iff_eq]
    constructor
    · intro h; rw [h]; cases x.kind <;> rfl
    · intro h; rw [← h]; simp
  simp only [List.getD_cons_zero, List.getD_cons_succ, Bool.and_eq_true, ha, ht]
  rw [beq_iff_eq]
  tauto

/-- A good answer to the exchange awaited (R137). -/
theorem linkBytes_good {s : State} {x : Exchange} (hw : s.Waiting x) (hr : s.link.rx = .hunting) {body : List Byte}
    (hl : LinkLength (BitVec.ofNat 8 x.kind.answerType) body) :
    s.linkBytes (goodBytes (linkFrame (x.unit.val + 1) x.kind.answerType body)) = s.goodAnswer x body s.now := by
  let a := BitVec.ofNat 8 (x.unit.val + 1)
  let ty := BitVec.ofNat 8 x.kind.answerType
  have hu : a.toNat = x.unit.val + 1 := by
    have := x.unit.isLt
    simp [a]; omega
  have hty : ty.toNat = x.kind.answerType := by
    simp only [ty]; cases x.kind <;> rfl
  have h := linkBytes_frame hw hr a (check := checkBytes (a :: ty :: body)) hl rfl
  rw [if_pos ((accepts_linkFrame x a ty body _ rfl).mpr ⟨rfl, hu, hty⟩)] at h
  exact h

end Sys2Proof.Machine
end

