-- ==== Sys2Proof/Laws/Turn.lean ====
section
/-! SUPPORT. The end of a turn on the expansion link (R139), said once: only the link changes, every unit record stays but for
its polls this turn and its mark of a unit newly fitted, and the exchange that may begin is chosen from its unit's state. -/

namespace Sys2Proof.Machine

theorem sameUnit_refl (r : UnitRec) : SameUnit r r := rfl

theorem SameUnit.trans {a b c : UnitRec} (h : SameUnit a b) (k : SameUnit b c) : SameUnit a c := by
  unfold SameUnit at *
  rw [k, h]

theorem SameUnit.state {a b : UnitRec} (h : SameUnit a b) : b.state = a.state := by rw [h]
theorem SameUnit.kind {a b : UnitRec} (h : SameUnit a b) : b.messageKind = a.messageKind := by
  unfold UnitRec.messageKind; rw [h.state]

/-- The unit has a turn in the cycle: it is fitted, and was so when the cycle began. -/
def State.inCycle (s : State) (u : UnitNo) : Prop := (s.unit u).state ≠ .notFitted ∧ (s.unit u).newlyFitted = false

theorem mem_allUnits (u : UnitNo) : u ∈ allUnits := by revert u; decide

theorem allUnits_sorted : allUnits.Pairwise (· < ·) := by decide

/-- The unit found is the first of those in the cycle. -/
theorem nextFitted_some {s : State} {n : Nat} {u : UnitNo} (h : s.nextFitted n = some u) :
    n ≤ u.val ∧ s.inCycle u ∧ ∀ w : UnitNo, n ≤ w.val → w < u → ¬ s.inCycle w := by
  obtain ⟨hp, as, bs, e, ha⟩ := List.find?_eq_some_iff_append.mp h
  simp only [Bool.and_eq_true, decide_eq_true_eq, bne_iff_ne, Bool.not_eq_true'] at hp
  refine ⟨hp.1.1, ⟨hp.1.2, hp.2⟩, fun w hw hlt hc => ?_⟩
  have hm := mem_allUnits w
  have hs := allUnits_sorted
  rw [e] at hm hs
  rcases List.mem_append.mp hm with hm | hm
  · have := ha w hm
    simp [hw, hc.1, hc.2] at this
  · have hs := (List.pairwise_append.mp hs).2.1
    rcases List.mem_cons.mp hm with rfl | hm
    · exact absurd hlt (lt_irrefl _)
    · exact absurd (hlt.trans ((List.pairwise_cons.mp hs).1 w hm)) (lt_irrefl _)

theorem nextFitted_none {s : State} {n : Nat} (h : s.nextFitted n = none) (u : UnitNo) (hu : n ≤ u.val) :
    ¬ s.inCycle u := by
  intro hc
  have h := List.find?_eq_none.mp h u (mem_allUnits u)
  simp [hu, hc.1, hc.2] at h

@[simp] theorem unit_takeInUnits (s : State) (u : UnitNo) :
    s.takeInUnits.unit u = { s.unit u with newlyFitted := false } := by
  simp [State.takeInUnits, State.unit, mapEntries]

/-! ### Turns and cycles that begin -/

theorem unit_beginTurn (s : State) (u v : UnitNo) :
    (s.beginTurn u).unit v = if v = u then { s.unit u with polls := 0 } else s.unit v := State.unit_setUnit _ _ _ _

theorem turnBegun_beginTurn (s : State) (u : UnitNo) : (s.beginTurn u).TurnBegun u := by
  have h : (s.beginTurn u).unit u = { s.unit u with polls := 0 } := by rw [unit_beginTurn, if_pos rfl]
  refine ⟨rfl, by rw [h], ?_⟩
  rw [h]
  show some ({ unit := u, kind := ((s.setUnit u { s.unit u with polls := 0 }).unit u).messageKind, void := false
               phase := .sending, message := _ } : Exchange) = _
  rw [State.unit_setUnit_self]

/-- What a turn's end and a cycle's begin do to everything but the turn. -/
structure Turns (s t : State) : Prop where
  rest : t = { s with link := t.link }
  units : ∀ v, SameUnit (s.unit v) (t.unit v)
  cycle : t.link.pollCycle = s.link.pollCycle
  timer : t.link.pollTimer = s.link.pollTimer
  rx : t.link.rx = .hunting

theorem turns_beginTurn (s : State) (u : UnitNo) : Turns s (s.beginTurn u) where
  rest := rfl
  units v := by
    rw [unit_beginTurn]
    split
    · next e => subst e; rfl
    · rfl
  cycle := rfl
  timer := rfl
  rx := rfl

theorem turns_quietLink (s : State) : Turns s s.quietLink := ⟨rfl, fun _ => rfl, rfl, rfl, rfl⟩

/-- A cycle that begins takes in every fitted unit, and the first of them has its turn (R139). -/
theorem turns_startCycle (s : State) :
    Turns s s.startCycle ∧ s.startCycle.link.due = s.link.due ∧ (∀ v, (s.startCycle.unit v).newlyFitted = false)
      ∧ ((∀ v, (s.unit v).state = .notFitted) → s.startCycle.NoTurn)
      ∧ ∀ v, (s.unit v).state ≠ .notFitted → (∀ w, w < v → (s.unit w).state = .notFitted) → s.startCycle.TurnBegun v := by
  have hin : ∀ v, s.takeInUnits.inCycle v ↔ (s.unit v).state ≠ .notFitted := by
    intro v
    simp [State.inCycle]
  have hs : ∀ {t}, Turns s.takeInUnits t → Turns s t := fun h =>
    ⟨h.rest, fun v => .trans (b := s.takeInUnits.unit v) (by rw [unit_takeInUnits]; rfl) (h.units v), h.cycle, h.timer,
      h.rx⟩
  unfold State.startCycle
  dsimp only
  split
  · next h =>
    have hn : ∀ v, (s.unit v).state = .notFitted := fun v => by
      have := nextFitted_none h v (Nat.zero_le _)
      rwa [hin, not_not] at this
    refine ⟨hs (turns_quietLink _), rfl, fun v => ?_, fun _ => ⟨rfl, rfl⟩, fun v hv => absurd (hn v) hv⟩
    show (s.takeInUnits.unit v).newlyFitted = false
    rw [unit_takeInUnits]
  · next u h =>
    obtain ⟨_, h1, h2⟩ := nextFitted_some h
    rw [hin] at h1
    refine ⟨hs (turns_beginTurn _ u), rfl, fun v => ?_, fun hn => absurd (hn u) h1, fun v hv hw => ?_⟩
    · rw [unit_beginTurn, unit_takeInUnits, unit_takeInUnits]
      split <;> rfl
    · rcases lt_trichotomy u v with hlt | rfl | hlt
      · exact absurd (hw u hlt) h1
      · exact turnBegun_beginTurn _ _
      · have := h2 v (Nat.zero_le _) hlt
        rw [hin] at this
        exact absurd hv this

/-- The end of a turn, its cases told by the units before it. -/
theorem TurnEnded.intro {s t : State} {u : UnitNo} (h : Turns s t)
    (next : ∀ v, u < v → s.inCycle v → (∀ w, u < w → w < v → ¬ s.inCycle w) →
      t.TurnBegun v ∧ t.link.due = s.link.due ∧ ∀ v, (t.unit v).newlyFitted = (s.unit v).newlyFitted)
    (none : (∀ v, u < v → ¬ s.inCycle v) → s.link.due = false →
      t.NoTurn ∧ t.link.due = s.link.due ∧ ∀ v, (t.unit v).newlyFitted = (s.unit v).newlyFitted)
    (due : (∀ v, u < v → ¬ s.inCycle v) → s.link.due = true →
      t.link.due = false ∧ (∀ v, (t.unit v).newlyFitted = false)
        ∧ ((∀ v, (s.unit v).state = .notFitted) → t.NoTurn)
        ∧ ∀ v, (s.unit v).state ≠ .notFitted → (∀ w, w < v → (s.unit w).state = .notFitted) → t.TurnBegun v) :
    TurnEnded s t u := by
  have hf : ∀ v, (t.unit v).state = (s.unit v).state := fun v => (h.units v).state
  unfold State.inCycle at *
  unfold TurnEnded
  simp only [hf, ne_eq, not_not] at *
  exact ⟨h.cycle, h.timer, h.rx, next, none, due⟩

/-- The end of a turn (R139). -/
theorem turns_endTurn (s : State) (u : UnitNo) : Turns s (s.endTurn u) ∧ TurnEnded s (s.endTurn u) u := by
  unfold State.endTurn
  split
  · next h =>
    have hl : ∀ v : UnitNo, u < v → ¬ s.inCycle v := fun v hv => nextFitted_none h v (Nat.succ_le_of_lt hv)
    have no : ∀ {P : Prop}, ∀ v, u < v → s.inCycle v → P := fun v hv hc => absurd hc (hl v hv)
    unfold State.endCycle
    split
    · next hd =>
      obtain ⟨h1, h2, h3, h4, h5⟩ := turns_startCycle { s with link := { s.link with due := false } }
      have h : Turns s ({ s with link := { s.link with due := false } } : State).startCycle :=
        ⟨h1.rest, h1.units, h1.cycle, h1.timer, h1.rx⟩
      exact ⟨h, .intro h (fun v hv hc _ => no v hv hc) (fun _ e => by rw [hd] at e; cases e)
        fun _ _ => ⟨h2, h3, h4, h5⟩⟩
    · next hd =>
      exact ⟨turns_quietLink s, .intro (turns_quietLink s) (fun v hv hc _ => no v hv hc)
        (fun _ _ => ⟨⟨rfl, rfl⟩, rfl, fun _ => rfl⟩) fun _ e => absurd e hd⟩
  · next v h =>
    obtain ⟨h1, h2, h3⟩ := nextFitted_some h
    have hn : ∀ w, ((s.beginTurn v).unit w).newlyFitted = (s.unit w).newlyFitted := by
      intro w
      rw [unit_beginTurn]
      split
      · next e => subst e; rfl
      · rfl
    have ht := turns_beginTurn s v
    refine ⟨ht, .intro ht (fun w hw hc hx => ⟨?_, rfl, hn⟩) (fun h => absurd h2 (h v h1)) fun h => absurd h2 (h v h1)⟩
    rcases lt_trichotomy v w with hlt | rfl | hlt
    · exact absurd h2 (hx v h1 hlt)
    · exact turnBegun_beginTurn _ _
    · exact absurd hc (h3 w hw hlt)

/-- The end of a turn after work of the link that leaves the cycle, the due state and the marks as they were, at the end of
the command. -/
theorem TurnEnded.settled {s t : State} (hc : t.link.pollCycle = s.link.pollCycle)
    (hp : t.link.pollTimer = s.link.pollTimer) (hd : t.link.due = s.link.due)
    (hn : ∀ v, (t.unit v).newlyFitted = (s.unit v).newlyFitted) (u : UnitNo) :
    TurnEnded s (t.endTurn u).settle u := by
  have h := (turns_endTurn t u).2
  have e : (t.endTurn u).settle.link = (t.endTurn u).link := (onlyEmits_settle _).link
  have hu : ∀ v, (s.unit v).newlyFitted = (t.unit v).newlyFitted := fun v => (hn v).symm
  unfold TurnEnded State.TurnBegun State.NoTurn at *
  have eu : ∀ v, (t.endTurn u).settle.unit v = (t.endTurn u).unit v := fun v => by unfold State.unit; rw [e]
  simp only [e, eu, ← hd, ← hp, ← hc, hu]
  exact h

/-- A good answer to a void exchange ends the turn and does nothing else (R148). -/
theorem voidEnded_goodAnswer {s : State} {x : Exchange} (hv : x.void = true) (hr : s.raisings = []) (body : List Byte)
    (arrival : TimeStamp) : VoidEnded s (s.goodAnswer x body arrival).settle x.unit := by
  obtain ⟨h, he⟩ := turns_endTurn s x.unit
  have e : s.goodAnswer x body arrival = s.endTurn x.unit := if_pos hv
  have hq : (s.endTurn x.unit).raisings = [] := by rw [h.rest]; exact hr
  rw [e, settle_of_none hq]
  exact ⟨h.rest, he, h.units⟩

/-- A lost-state claim changes no pair timer. -/
theorem lostClaim_pairTimers (s : State) (u : UnitNo) : (s.lostClaim u).pairTimers = s.pairTimers := by
  have hq : ∀ (t : State) e, (t.queueEntry e).pairTimers = t.pairTimers := by
    intro t e
    unfold State.queueEntry
    split
    · rfl
    · split <;> rfl
  have hp : ∀ (t : State) r i st, (t.produce r i st).pairTimers = t.pairTimers := by
    intro t r i st
    unfold State.produce
    dsimp only
    split
    · exact hq _ _
    · split
      · exact hq _ _
      · rfl
  have hf : ∀ (t : State) st i, (t.formQuality st i).pairTimers = t.pairTimers := by
    intro t st i
    unfold State.formQuality
    dsimp only
    split <;> rfl
  have fold : ∀ {f : State → InputNo → State} (l : List InputNo) (t : State),
      (∀ t i, (f t i).pairTimers = t.pairTimers) → (l.foldl f t).pairTimers = t.pairTimers := by
    intro f l t h
    induction l generalizing t with
    | nil => rfl
    | cons a l ih => exact (ih _).trans (h _ _)
  unfold State.lostClaim
  dsimp only
  rw [fold _ _ fun t i => hp t _ i _, fold _ _ fun t i => hf t _ i]
  exact fold _ _ fun t i => rfl

/-- Every input of a list takes the mark, and keeps the rest of its record. -/
theorem setUnitLost_inp (v : Bool) (l : List InputNo) (s : State) (j : InputNo) :
    (l.foldl (setUnitLost v) s).inp j = if j ∈ l then { s.inp j with unitLost := v } else s.inp j := by
  induction l generalizing s with
  | nil => simp
  | cons i l ih =>
    show (l.foldl (setUnitLost v) (setUnitLost v s i)).inp j = _
    rw [ih]
    unfold setUnitLost
    rw [State.inp_setInp]
    by_cases h : j = i
    · subst h; simp
    · simp [h]

/-- After a lost-state claim every input of the unit is marked, and keeps its level (R121). -/
theorem lostClaim_inp (s : State) (u : UnitNo) {i : InputNo} (hi : i ∈ unitInputs u) :
    ((s.lostClaim u).inp i).unitLost = true ∧ ((s.lostClaim u).inp i).level = (s.inp i).level := by
  have h : Judges ((unitInputs u).foldl (setUnitLost true) s) (s.lostClaim u) := by
    unfold State.lostClaim
    dsimp only
    refine Judges.trans ?_ (.foldl (fun t i => .of_queues (queues_produce _ _ _ _)) _ _)
    exact .foldl (fun t i => judges_formQuality _ _ _) _ _
  rw [h.unitLost, h.level, setUnitLost_inp, if_pos hi]
  exact ⟨rfl, rfl⟩

/-! ### Snapshots -/

/-- The bits of a number held low byte first (Table 10-11). -/
theorem testBit_lowFirst (bytes : List Byte) (n : Nat) :
    (lowFirst bytes).testBit n = (bytes.getD (n / 8) 0).getLsbD (n % 8) := by
  induction bytes generalizing n with
  | nil => simp [lowFirst]
  | cons b l ih =>
    have e : lowFirst (b :: l) = 2 ^ 8 * lowFirst l + b.toNat := by
      show b.toNat + 256 * lowFirst l = _
      omega
    rw [e, Nat.testBit_two_pow_mul_add _ b.isLt]
    split
    · next h =>
      have h1 : n / 8 = 0 := by omega
      have h2 : n % 8 = n := by omega
      rw [h1, h2]
      rfl
    · next h =>
      have h1 : n / 8 = (n - 8) / 8 + 1 := by omega
      have h2 : n % 8 = (n - 8) % 8 := by omega
      rw [ih, h1, h2, List.getD_cons_succ]

/-- The level that a snapshot gives a line. -/
theorem snapshot_bit (bytes : List Byte) (l : Nat) (hl : l < 64) :
    hasBit (BitVec.ofNat 64 (lowFirst bytes)) l = (bytes.getD (l / 8) 0).getLsbD (l % 8) := by
  unfold hasBit
  rw [BitVec.getLsbD_ofNat, testBit_lowFirst]
  simp [hl]

theorem takeSnapshotLevel_fold (levels : BitVec 64) (st : TimeStamp) (l : List InputNo) (s : State) {i : InputNo}
    (hi : i ∈ l) :
    ((l.foldl (takeSnapshotLevel levels st) s).inp i).level = levelOfBit (hasBit levels (i.val % 64)) := by
  have keep : ∀ (l : List InputNo) (s : State),
      (s.inp i).level = levelOfBit (hasBit levels (i.val % 64)) →
      ((l.foldl (takeSnapshotLevel levels st) s).inp i).level = levelOfBit (hasBit levels (i.val % 64)) := by
    intro l
    induction l with
    | nil => intro s h; exact h
    | cons a l ih =>
      intro s h
      refine ih _ ?_
      unfold takeSnapshotLevel
      dsimp only
      split
      · exact h
      · rw [State.inp_setInp]
        split
        · next e => subst e; rfl
        · exact h
  induction l generalizing s with
  | nil => simp at hi
  | cons a l ih =>
    rcases List.mem_cons.mp hi with h | h
    · subst h
      refine keep l _ ?_
      unfold takeSnapshotLevel
      dsimp only
      split
      · next e => exact e.symm
      · rw [State.inp_setInp_self]
    · exact ih _ h

/-- After a snapshot claim every input of the unit has its pictured level and is not lost (R121). -/
theorem snapshotClaim_inp (s : State) (u : UnitNo) (levels : BitVec 64) (st : TimeStamp) {i : InputNo}
    (hi : i ∈ unitInputs u) :
    ((s.snapshotClaim u levels st).inp i).level = levelOfBit (hasBit levels (i.val % 64))
      ∧ ((s.snapshotClaim u levels st).inp i).unitLost = false := by
  have h : Judges ((unitInputs u).foldl (setUnitLost false) ((unitInputs u).foldl (takeSnapshotLevel levels st) s))
      (s.snapshotClaim u levels st) := by
    unfold State.snapshotClaim
    dsimp only
    have h1 : ∀ t k, Judges t (testPairSet t k) := fun t k => .ite (judges_pairTest _ _) (.refl _)
    have h2 : ∀ t i, Judges t (snapshotQuality s st t i) := fun t i =>
      .ite (.of_queues (queues_queueEntry _ _)) (.refl _)
    have h3 : ∀ t i, Judges t (snapshotLevel s st t i) := fun t i =>
      .ite (.of_queues (queues_queueEntry _ _)) (.refl _)
    exact ((Judges.foldl h1 _ _).trans (.foldl (fun t i => judges_formQuality t st i) _ _)).trans
      ((Judges.foldl h2 _ _).trans (.foldl h3 _ _))
  rw [h.level, h.unitLost, setUnitLost_inp, if_pos hi]
  exact ⟨takeSnapshotLevel_fold levels st _ s hi, rfl⟩

/-- Every entry of a snapshot claim is a coalesced entry of the unit, stamped with the claim's time (R121). -/
theorem snapshotClaim_queue (s : State) (u : UnitNo) (levels : BitVec 64) (st : TimeStamp) :
    ∃ more, (s.snapshotClaim u levels st).changeQueue = s.changeQueue ++ more
      ∧ ∀ e ∈ more, e.input ∈ unitInputs u ∧ e.stamp = st ∧ e.coalesced = true := by
  have fold : ∀ {α : Type} {f : State → α → State} (l : List α) (t : State),
      (∀ t, ∀ a ∈ l, ∃ more, (f t a).changeQueue = t.changeQueue ++ more
        ∧ ∀ e ∈ more, e.input ∈ unitInputs u ∧ e.stamp = st ∧ e.coalesced = true) →
      ∃ more, (l.foldl f t).changeQueue = t.changeQueue ++ more
        ∧ ∀ e ∈ more, e.input ∈ unitInputs u ∧ e.stamp = st ∧ e.coalesced = true := by
    intro α f l
    induction l with
    | nil => intro t _; exact ⟨[], by simp, by simp⟩
    | cons a l ih =>
      intro t h
      obtain ⟨m1, h1, k1⟩ := h t a List.mem_cons_self
      obtain ⟨m2, h2, k2⟩ := ih (f t a) fun t b hb => h t b (List.mem_cons_of_mem _ hb)
      refine ⟨m1 ++ m2, by rw [List.foldl_cons, h2, h1, List.append_assoc], fun e he => ?_⟩
      exact (List.mem_append.mp he).elim (k1 e) (k2 e)
  have same : ∀ {α : Type} {f : State → α → State} (l : List α) (t : State),
      (∀ t a, (f t a).changeQueue = t.changeQueue) → (l.foldl f t).changeQueue = t.changeQueue := by
    intro α f l
    induction l with
    | nil => intro t _; rfl
    | cons a l ih => intro t h; exact (ih _ h).trans (h _ _)
  have one : ∀ (t : State) k i, i ∈ unitInputs u →
      ∃ more, (t.queueEntry (t.entryOf k i st true)).changeQueue = t.changeQueue ++ more
        ∧ ∀ e ∈ more, e.input ∈ unitInputs u ∧ e.stamp = st ∧ e.coalesced = true := by
    intro t k i hi
    unfold State.queueEntry
    split
    · exact ⟨[], by simp, by simp⟩
    · split
      · exact ⟨[t.entryOf k i st true], rfl, by simpa [State.entryOf] using hi⟩
      · exact ⟨[], by simp [State.deferInput, State.handOn, State.setInp], by simp⟩
  unfold State.snapshotClaim
  dsimp only
  obtain ⟨m2, h2, k2⟩ := fold (f := snapshotLevel s st) (unitInputs u) _ (fun t i hi => by
    unfold snapshotLevel
    split
    · exact one t .level i hi
    · exact ⟨[], by simp, by simp⟩)
  rw [h2]
  obtain ⟨m1, h1, k1⟩ := fold (f := snapshotQuality s st) (unitInputs u) _ (fun t i hi => by
    unfold snapshotQuality
    split
    · exact one t .quality i hi
    · exact ⟨[], by simp, by simp⟩)
  rw [h1, same _ _ (fun t i => by rw [formQuality_rest]),
    same (f := testPairSet) _ _ (fun t k => by
      unfold testPairSet State.pairTest State.setDiscrepant
      split
      · split
        · split <;> rfl
        · rfl
      · rfl),
    same (f := setUnitLost false) _ _ (fun t i => rfl),
    same (f := takeSnapshotLevel levels st) _ _ (fun t i => by
      unfold takeSnapshotLevel
      dsimp only
      split <;> rfl)]
  refine ⟨m1 ++ m2, by rw [List.append_assoc], fun e he => ?_⟩
  exact (List.mem_append.mp he).elim (k1 e) (k2 e)

theorem mem_unitInputs (u : UnitNo) {l : Nat} (hl : l < 64) : remoteInput u l ∈ unitInputs u :=
  List.mem_map.mpr ⟨l, List.mem_range.mpr hl, rfl⟩

theorem remoteInput_mod (u : UnitNo) {l : Nat} (hl : l < 64) : (remoteInput u l).val % 64 = l := by
  have := u.isLt
  simp [remoteInput]
  omega

end Sys2Proof.Machine
end

