-- ==== Sys2Proof/Laws/Passes.lean ====
section
/-! SUPPORT. What a pass of entries does, said once (`entriesProduced_pass`, `overflow_waits`), what the two expiries of the
Input Filter and a lost-state claim do (`endChatter_spec`, `becomeDiscrepant_spec`, `lostClaim_spec`), and that the reports
of a CHANGES answer are handed on as the statements fold them. -/

namespace Sys2Proof.Machine

theorem queueEntry_mode (s : State) (e : ChangeEntry) : (s.queueEntry e).mode = s.mode := (filters_queueEntry s e).mode

theorem queueEntry_inp_of_ne (s : State) (e : ChangeEntry) {j : InputNo} (h : j ≠ e.input) :
    (s.queueEntry e).inp j = s.inp j := (filters_queueEntry s e).off j h

theorem reaching_cons (s : State) (e : ChangeEntry) (es : List ChangeEntry) :
    s.reaching (e :: es) =
      if s.mode = .config ∨ (s.inp e.input).deferred = true then s.reaching es else e :: s.reaching es := by
  unfold State.reaching
  rw [List.filter_cons]
  by_cases h1 : s.mode = .config <;> cases h2 : (s.inp e.input).deferred <;> simp [h1]

theorem reaching_congr {s m : State} {es : List ChangeEntry} (hm : m.mode = s.mode)
    (hi : ∀ e ∈ es, m.inp e.input = s.inp e.input) : m.reaching es = s.reaching es :=
  List.filter_congr fun e he => by rw [hm, hi e he]

/-- Entries of different inputs, produced one after the other, are produced as a whole (R123 to R125). -/
theorem entriesProduced_pass (es : List ChangeEntry) (hn : (es.map ChangeEntry.input).Nodup) (s : State) :
    EntriesProduced s (es.foldl State.queueEntry s) es := by
  induction es generalizing s with
  | nil => simp [EntriesProduced, State.reaching, State.overflowing]
  | cons e es ih =>
    rw [List.map_cons, List.nodup_cons] at hn
    have hne : ∀ x ∈ es, x.input ≠ e.input := fun x hx h => hn.1 (List.mem_map.2 ⟨x, hx, h⟩)
    have hr : (s.queueEntry e).reaching es = s.reaching es :=
      reaching_congr (queueEntry_mode s e) fun x hx => queueEntry_inp_of_ne s e (hne x hx)
    have hsub : ∀ x ∈ s.reaching es, x.input ≠ e.input := fun x hx => hne x (List.mem_filter.1 hx).1
    rw [List.foldl_cons]
    obtain ⟨h1, h2, h3, h4⟩ := ih hn.2 (s.queueEntry e)
    have hc := reaching_cons s e es
    unfold State.overflowing at h4
    unfold EntriesProduced State.overflowing
    rw [hr] at h1 h2 h3 h4
    generalize es.foldl State.queueEntry (s.queueEntry e) = t at h1 h2 h3 h4
    by_cases hp : s.mode = .config ∨ (s.inp e.input).deferred = true
    · have hm : s.queueEntry e = s := by unfold State.queueEntry; rw [if_pos hp]
      rw [if_pos hp] at hc
      rw [hm] at h1 h2 h3 h4
      rw [hc]
      exact ⟨h1, h2, h3, h4⟩
    · rw [if_neg hp] at hc
      rw [hc]
      by_cases hl : s.changeQueue.length < 128
      · have hm : s.queueEntry e = s.appendEntry e := by
          unfold State.queueEntry Config.changeCapacity; rw [if_neg hp, if_pos hl]
        have hq : (s.appendEntry e).changeQueue = s.changeQueue ++ [e] := by simp [State.appendEntry]
        have hi : ∀ j, (s.appendEntry e).inp j =
            if j = e.input then { s.inp e.input with queuedLevel := e.level, queuedQuality := e.quality } else s.inp j :=
          fun j => State.inp_setInp _ _ _ _
        obtain ⟨k, hk⟩ : ∃ k, 128 - s.changeQueue.length = k + 1 := ⟨127 - s.changeQueue.length, by omega⟩
        have hk' : 128 - (s.changeQueue ++ [e]).length = k := by rw [List.length_append, List.length_singleton]; omega
        rw [hm, hq, hk'] at h1 h2 h3 h4
        have hself : (t.inp e.input).queuedLevel = e.level ∧ (t.inp e.input).queuedQuality = e.quality := by
          have := h3 e.input fun x hx => hsub x (List.mem_of_mem_take hx)
          rw [hi, if_pos rfl] at this
          exact this
        rw [hk, List.take_succ_cons, List.drop_succ_cons]
        refine ⟨by rw [h1]; simp, ?_, fun j hj => ?_, fun j => ?_⟩
        · intro x hx
          rcases List.mem_cons.1 hx with rfl | hx
          · exact hself
          · exact h2 x hx
        · have hj0 : j ≠ e.input := fun h => hj e (List.mem_cons_self ..) h.symm
          have := h3 j fun x hx => hj x (List.mem_cons_of_mem _ hx)
          rwa [hi, if_neg hj0] at this
        · rw [h4 j, hi]
          split
          · next h => subst h; rfl
          · rfl
      · have hm : s.queueEntry e = s.deferInput e.input := by
          unfold State.queueEntry Config.changeCapacity; rw [if_neg hp, if_neg hl]
        have hq : (s.deferInput e.input).changeQueue = s.changeQueue := rfl
        have hi : ∀ j, (s.deferInput e.input).inp j =
            if j = e.input then { s.inp e.input with deferred := true } else s.inp j := fun j => by
          have := State.inp_setInp s e.input j { s.inp e.input with deferred := true }
          simpa [State.deferInput, State.handOn, State.inp] using this
        have h0 : 128 - s.changeQueue.length = 0 := by omega
        rw [hm, hq, h0, List.take_zero] at h1 h2 h3
        rw [hm, hq, h0, List.drop_zero] at h4
        rw [h0, List.take_zero, List.drop_zero]
        refine ⟨h1, fun x hx => absurd hx (List.not_mem_nil), fun j _ => ?_, fun j => ?_⟩
        · have := h3 j fun x hx => absurd hx (List.not_mem_nil)
          rw [hi] at this
          split at this
          · next h => subst h; exact this
          · exact this
        · rw [h4 j, hi]
          by_cases hj : j = e.input
          · subst hj; simp
          · rw [if_neg hj]
            have : e.input ≠ j := fun h => hj h.symm
            simp [this]

/-- Where an entry finds the queue full, CHANGE_DEFERRED waits (R125). -/
theorem overflow_waits (es : List ChangeEntry) (hn : (es.map ChangeEntry.input).Nodup) {s : State}
    (h : s.overflowing es ≠ []) : plainRaising .changeDeferred ∈ (es.foldl State.queueEntry s).raisings := by
  -- an input that a pass has deferred has had its raising handed on
  have waits : ∀ (es : List ChangeEntry) (s : State) (j : InputNo),
      ((es.foldl State.queueEntry s).inp j).deferred = true → (s.inp j).deferred = true
        ∨ plainRaising .changeDeferred ∈ (es.foldl State.queueEntry s).raisings := by
    intro es
    induction es with
    | nil => exact fun s j hj => .inl hj
    | cons e es ih =>
      intro s j hj
      rw [List.foldl_cons] at hj ⊢
      rcases ih _ _ hj with h1 | h1
      · unfold State.queueEntry at h1
        split at h1
        · exact .inl h1
        · split at h1
          · refine .inl ?_
            unfold State.appendEntry at h1
            dsimp only at h1
            rw [State.inp_setInp] at h1
            split at h1
            · next he => subst he; exact h1
            · exact h1
          · next hc hl =>
            refine .inr ?_
            have hf : Filters (s.deferInput e.input) (es.foldl State.queueEntry (s.deferInput e.input)) (fun _ => True) :=
              .foldl (fun t a _ => (filters_queueEntry t a).mono fun _ _ => trivial) _
            have he : s.queueEntry e = s.deferInput e.input := by
              unfold State.queueEntry; rw [if_neg hc, if_neg hl]
            obtain ⟨m, hm, _⟩ := hf.raisings
            rw [he, hm]
            exact List.mem_append_left _ (by simp [State.deferInput, State.handOn])
      · exact .inr h1
  obtain ⟨e, he⟩ := List.exists_mem_of_ne_nil _ h
  have hr : e ∈ s.reaching es := List.mem_of_mem_drop he
  have hd : (s.inp e.input).deferred = false := by
    have := (List.mem_filter.1 hr).2
    simp only [Bool.and_eq_true, Bool.not_eq_true'] at this
    exact this.2
  have ht := ((entriesProduced_pass es hn s).2.2.2 e.input).2 (.inr ⟨e, he, rfl⟩)
  rcases waits es s e.input ht with h1 | h1
  · rw [hd] at h1; cases h1
  · exact h1

/-- What a pass produced reads the same from another state that has queued and deferred the same. -/
theorem EntriesProduced.congr {s m t : State} {es : List ChangeEntry} (h : EntriesProduced m t es) (hm : m.mode = s.mode)
    (hq : m.changeQueue = s.changeQueue)
    (hi : ∀ j, (m.inp j).queuedLevel = (s.inp j).queuedLevel ∧ (m.inp j).queuedQuality = (s.inp j).queuedQuality
      ∧ (m.inp j).deferred = (s.inp j).deferred) : EntriesProduced s t es ∧ m.overflowing es = s.overflowing es := by
  have hr : m.reaching es = s.reaching es := List.filter_congr fun e _ => by rw [hm, (hi _).2.2]
  have ho : m.overflowing es = s.overflowing es := by unfold State.overflowing; rw [hr, hq]
  obtain ⟨h1, h2, h3, h4⟩ := h
  rw [hr, hq] at h1 h2 h3
  refine ⟨⟨h1, h2, fun i hp => ?_, fun i => ?_⟩, ho⟩
  · rw [← (hi i).1, ← (hi i).2.1]; exact h3 i hp
  · rw [← (hi i).2.2, ← ho]; exact h4 i

/-- The end of a command leaves input records and change queue alone. -/
theorem EntriesProduced.settled {s t : State} {es : List ChangeEntry} (h : EntriesProduced s t es) :
    EntriesProduced s t.settle es := by
  have h1 := onlyEmits_settle t
  have hi : ∀ j, t.settle.inp j = t.inp j := fun j => by unfold State.inp; simp only [h1.inputs]
  unfold EntriesProduced
  simp only [hi, h1.changeQueue]
  exact h

/-! ### The two expiries (R119, R120) -/

/-- Forming a quality is forming it with the mark that the record has (R122). -/
theorem formQuality_inp (s : State) (st : TimeStamp) (i j : InputNo) :
    (s.formQuality st i).inp j = if j = i then (s.inp j).formedWith (s.inp j).discrepant st else s.inp j := by
  split
  · next h =>
    subst h
    rw [formQuality_inp_self]
    unfold InputRec.formedWith
    rw [← formed_eq]
    dsimp only
    by_cases h : (s.inp j).reported = (s.inp j).formed
    · rw [if_pos h, if_pos h.symm]
    · rw [if_neg h, if_neg (Ne.symm h)]
  · next h => exact formQuality_inp_of_ne _ _ h

/-- The QUALITY entry of an input whose reported quality a claim at `st` has made `q` (R123). -/
def qualityEntry (r : InputRec) (i : InputNo) (q : InQuality) (st : TimeStamp) : List ChangeEntry :=
  if q ≠ r.reported then [⟨.quality, i, r.level, q, st, false⟩] else []

/-- An input whose level a claim has left alone has a QUALITY entry at most. -/
theorem produce_sameLevel {s : State} {r : InputRec} {i : InputNo} {st : TimeStamp} (h : (s.inp i).level = r.level) :
    s.produce r i st = (qualityEntry r i (s.inp i).reported st).foldl State.queueEntry s := by
  unfold State.produce qualityEntry State.entryOf
  dsimp only
  rw [h]
  split
  · rfl
  · rw [if_neg fun e => e.2 rfl]; rfl

/-- What the expiry of a chatter end timer does (R119, R122 to R125). -/
theorem endChatter_spec (s : State) (i : InputNo) :
    let r := s.inp i
    let ended : InputRec := { r with chatterActive := false, history := [], chatterTimer := none }
    let entries := qualityEntry r i (qualityOf r.unitLost r.discrepant false) s.now
    let t := s.endChatter i
    t.inp i =
        { ended.formedWith r.discrepant s.now with
          queuedLevel := (t.inp i).queuedLevel, queuedQuality := (t.inp i).queuedQuality
          deferred := (t.inp i).deferred }
      ∧ EntriesProduced s t entries
      ∧ (s.overflowing entries ≠ [] → plainRaising .changeDeferred ∈ t.raisings)
      ∧ (entries = [] → t = { s with inputs := t.inputs }) := by
  intro r ended entries t
  have ht : t = (((s.setInp i ended).formQuality s.now i).produce r i s.now) := rfl
  generalize hm : (s.setInp i ended).formQuality s.now i = m at ht
  have hinp : ∀ j, m.inp j = if j = i then ended.formedWith r.discrepant s.now else s.inp j := by
    intro j
    rw [← hm, formQuality_inp]
    split
    · next h => subst h; rw [State.inp_setInp_self]
    · next h => exact State.inp_setInp_of_ne _ _ h
  have hi := hinp i
  rw [if_pos rfl] at hi
  have hrest : m = { s with inputs := m.inputs } := by rw [← hm, formQuality_rest]; rfl
  have hp : t = entries.foldl State.queueEntry m := by
    rw [ht, produce_sameLevel (by rw [hi]; rfl), hi]; rfl
  have hn : (entries.map ChangeEntry.input).Nodup := by
    show ((qualityEntry _ _ _ _).map _).Nodup
    unfold qualityEntry; split <;> simp
  have key := EntriesProduced.congr (s := s) (entriesProduced_pass entries hn m) (by rw [hrest]) (by rw [hrest])
    fun j => by
      rw [hinp]
      split
      · next h => subst h; exact ⟨rfl, rfl, rfl⟩
      · exact ⟨rfl, rfl, rfl⟩
  rw [← hp] at key
  refine ⟨?_, key.1, fun ho => ?_, fun he => ?_⟩
  · have hq : Queues m t := ht ▸ queues_produce _ _ _ _
    refine (hq.inp i).trans ?_
    rw [hi]
  · rw [hp]; exact overflow_waits entries hn (key.2 ▸ ho)
  · rw [hp, he]; exact hrest

theorem evenInput_ne_oddInput (k : PairNo) : evenInput k ≠ oddInput k := by revert k; decide

/-- What the expiry of a discrepancy timer does (R120, R122 to R125). -/
theorem becomeDiscrepant_spec (s : State) (k : PairNo) :
    let entry := fun i => qualityEntry (s.inp i) i (qualityOf (s.inp i).unitLost true (s.inp i).chatterActive) s.now
    let entries := entry (evenInput k) ++ entry (oddInput k)
    let t := s.becomeDiscrepant k
    (∀ i, i = evenInput k ∨ i = oddInput k →
        t.inp i =
          { (s.inp i).formedWith true s.now with
            queuedLevel := (t.inp i).queuedLevel, queuedQuality := (t.inp i).queuedQuality
            deferred := (t.inp i).deferred })
      ∧ EntriesProduced s t entries
      ∧ (s.overflowing entries ≠ [] → plainRaising .changeDeferred ∈ t.raisings) := by
  intro entry entries t
  have ht : t = (((((s.setPairTimer k none).setDiscrepant k true).formQuality s.now (evenInput k)).formQuality s.now
      (oddInput k)).produce (s.inp (evenInput k)) (evenInput k) s.now).produce (s.inp (oddInput k)) (oddInput k)
      s.now := rfl
  generalize hm : (((s.setPairTimer k none).setDiscrepant k true).formQuality s.now (evenInput k)).formQuality s.now
    (oddInput k) = m at ht
  have hne := evenInput_ne_oddInput k
  have hmark : ∀ j, ((s.setPairTimer k none).setDiscrepant k true).inp j =
      if j = evenInput k ∨ j = oddInput k then { s.inp j with discrepant := true } else s.inp j := by
    intro j
    unfold State.setDiscrepant
    simp only [State.inp_setInp, if_neg hne.symm]
    by_cases h1 : j = oddInput k
    · subst h1; rw [if_pos rfl, if_pos (.inr rfl)]; rfl
    · by_cases h2 : j = evenInput k
      · subst h2; rw [if_neg h1, if_pos rfl, if_pos (.inl rfl)]; rfl
      · rw [if_neg h1, if_neg h2, if_neg (not_or.2 ⟨h2, h1⟩)]; rfl
  have hinp : ∀ j, m.inp j = if j = evenInput k ∨ j = oddInput k then (s.inp j).formedWith true s.now else s.inp j := by
    intro j
    rw [← hm, formQuality_inp, formQuality_inp, hmark]
    by_cases h1 : j = oddInput k
    · rw [if_pos h1, if_neg (fun h => hne (h.symm.trans h1)), if_pos (.inr h1), if_pos (.inr h1)]; rfl
    · by_cases h2 : j = evenInput k
      · rw [if_neg h1, if_pos h2, if_pos (.inl h2), if_pos (.inl h2)]; rfl
      · rw [if_neg h1, if_neg h2, if_neg (not_or.2 ⟨h2, h1⟩), if_neg (not_or.2 ⟨h2, h1⟩)]
  have hrest : m.mode = s.mode ∧ m.changeQueue = s.changeQueue := by
    rw [← hm, formQuality_rest, formQuality_rest]; exact ⟨rfl, rfl⟩
  have hlevel : ∀ j, (m.inp j).level = (s.inp j).level := fun j => by rw [hinp]; split <;> rfl
  have he : (m.inp (evenInput k)).reported =
      qualityOf (s.inp (evenInput k)).unitLost true (s.inp (evenInput k)).chatterActive := by
    rw [hinp, if_pos (.inl rfl)]; rfl
  have ho : (m.inp (oddInput k)).reported =
      qualityOf (s.inp (oddInput k)).unitLost true (s.inp (oddInput k)).chatterActive := by
    rw [hinp, if_pos (.inr rfl)]; rfl
  have hp : t = entries.foldl State.queueEntry m := by
    have hq := queues_produce m (s.inp (evenInput k)) (evenInput k) s.now
    rw [ht, produce_sameLevel (by rw [hq.level, hlevel]), hq.reported, produce_sameLevel (hlevel _), he, ho,
      ← List.foldl_append]
  have hn : (entries.map ChangeEntry.input).Nodup := by
    show ((qualityEntry _ _ _ _ ++ qualityEntry _ _ _ _).map _).Nodup
    unfold qualityEntry
    split <;> split <;> simp [hne]
  have key := EntriesProduced.congr (s := s) (entriesProduced_pass entries hn m) hrest.1 hrest.2
    fun j => by rw [hinp]; split <;> exact ⟨rfl, rfl, rfl⟩
  rw [← hp] at key
  refine ⟨fun i hi => ?_, key.1, fun h => ?_⟩
  · have hq : Queues m t := ht ▸ (queues_produce _ _ _ _).trans (queues_produce _ _ _ _)
    refine (hq.inp i).trans ?_
    rw [hinp, if_pos hi]
  · rw [hp]; exact overflow_waits entries hn (key.2 ▸ h)

/-! ### The lost-state claim (R121) -/

/-- The qualities of different inputs formed in one pass (R122). -/
theorem formPass_inp (st : TimeStamp) (l : List InputNo) (hn : l.Nodup) (s : State) (j : InputNo) :
    (l.foldl (State.formQuality · st) s).inp j =
      if j ∈ l then (s.inp j).formedWith (s.inp j).discrepant st else s.inp j := by
  induction l generalizing s with
  | nil => simp
  | cons i l ih =>
    rw [List.nodup_cons] at hn
    rw [List.foldl_cons, ih hn.2, formQuality_inp]
    by_cases hj : j = i
    · subst hj
      rw [if_neg hn.1, if_pos rfl, if_pos (List.mem_cons_self ..)]
    · simp [hj]

theorem unitInputs_nodup (u : UnitNo) : (unitInputs u).Nodup := by revert u; decide +kernel

/-- The entries of a lost-state claim are the statements' (R121). -/
theorem lostPass_eq {s s2 : State} (h2 : ∀ i, s2.now = s.now ∧ (s2.inp i).level = (s.inp i).level) (l : List InputNo)
    (hl : ∀ i ∈ l, (s2.inp i).reported = .unitLost) (t : State) (hq : Queues s2 t) :
    l.foldl (fun t i => t.produce (s.inp i) i s.now) t =
      ((l.filter fun i => (s.inp i).reported != .unitLost).map fun i =>
        (⟨.quality, i, (s.inp i).level, .unitLost, s.now, false⟩ : ChangeEntry)).foldl State.queueEntry t := by
  induction l generalizing t with
  | nil => rfl
  | cons i l ih =>
    have hi : (t.inp i).reported = .unitLost := by rw [hq.reported]; exact hl i (List.mem_cons_self ..)
    have hv : (t.inp i).level = (s.inp i).level := by rw [hq.level]; exact (h2 i).2
    have step := ih (fun j hj => hl j (List.mem_cons_of_mem _ hj)) (t.produce (s.inp i) i s.now)
      (hq.trans (queues_produce _ _ _ _))
    rw [List.foldl_cons, step, List.filter_cons]
    unfold State.produce State.entryOf
    dsimp only
    rw [hi, hv]
    by_cases hr : (s.inp i).reported = .unitLost
    · simp [hr]
    · rw [if_pos (Ne.symm hr), if_pos (by simpa using hr), List.map_cons, List.foldl_cons]

/-- What a lost-state claim does: the unit's inputs are lost, every other input keeps its record, and the QUALITY entries are
produced in line order (R121, R123 to R125). -/
theorem lostClaim_spec (s : State) (u : UnitNo) :
    (∀ i ∈ unitInputs u, (s.lostClaim u).inp i = (s.inp i).lost ((s.lostClaim u).inp i) s.now)
      ∧ (∀ i, i ∉ unitInputs u → (s.lostClaim u).inp i = s.inp i)
      ∧ EntriesProduced s (s.lostClaim u) (s.lostEntries u) := by
  refine ⟨?_, (filters_lostClaim s u).off, ?_⟩ <;> unfold State.lostClaim <;> dsimp only
  all_goals
    generalize hs2 : (unitInputs u).foldl (State.formQuality · s.now) ((unitInputs u).foldl (setUnitLost true) s) = s2
  all_goals
    have hinp : ∀ j, s2.inp j = if j ∈ unitInputs u then (s.inp j).lost (s.inp j) s.now else s.inp j := by
      intro j
      rw [← hs2, formPass_inp _ _ (unitInputs_nodup u), setUnitLost_inp]
      split
      · unfold InputRec.formedWith InputRec.lost qualityOf
        simp [eq_comm]
      · rfl
  · intro i hi
    have hq : Queues s2 ((unitInputs u).foldl (fun t i => t.produce (s.inp i) i s.now) s2) :=
      Queues.foldl (fun t i => queues_produce t (s.inp i) i s.now) _ _
    generalize (unitInputs u).foldl (fun t i => t.produce (s.inp i) i s.now) s2 = t at hq ⊢
    refine (hq.inp i).trans ?_
    rw [hinp, if_pos hi]
    rfl
  · have f2 : Filters s s2 (fun _ => True) := by
      rw [← hs2]
      refine Filters.trans (Filters.foldl (fun t i _ => ?_) s) (Filters.foldl (fun t i _ => ?_) _)
      · exact (filters_setInp t i _).mono fun _ _ => trivial
      · exact (filters_formQuality t s.now i).mono fun _ _ => trivial
    have hcq : s2.changeQueue = s.changeQueue := by
      have fold : ∀ {f : State → InputNo → State} (l : List InputNo) (t : State),
          (∀ t i, (f t i).changeQueue = t.changeQueue) → (l.foldl f t).changeQueue = t.changeQueue := by
        intro f l t h
        induction l generalizing t with
        | nil => rfl
        | cons a l ih => exact (ih _).trans (h _ _)
      rw [← hs2, fold _ _ fun t i => by rw [formQuality_rest]]
      exact fold _ _ fun t i => rfl
    rw [lostPass_eq (s2 := s2) (fun i => ⟨f2.now, by rw [hinp]; split <;> rfl⟩) _
      (fun i hi => by rw [hinp, if_pos hi]; rfl) s2 (.refl _)]
    have hn : ((s.lostEntries u).map ChangeEntry.input).Nodup := by
      unfold State.lostEntries
      rw [List.map_map]
      exact (List.map_id _).symm ▸ (unitInputs_nodup u).filter _
    refine (EntriesProduced.congr (entriesProduced_pass (s.lostEntries u) hn s2) f2.mode hcq fun j => ?_).1
    rw [hinp]
    split <;> exact ⟨rfl, rfl, rfl⟩

/-- The reports are handed on as the statements fold them (R142, R117). -/
theorem handReports_eq (s : State) (u : UnitNo) (arrival : TimeStamp) (reports : List Report) :
    reports.foldl (handReport u arrival) s = s.reportsApplied u arrival reports := rfl

end Sys2Proof.Machine
end

