-- ==== Sys2Proof/WellFormed.lean ====
section
/-! DEFINITION. What makes a command a command of the table: an event of reception carries at least one byte, and
time passes by at least one millisecond. The other operands are bounded by their types. -/

namespace Sys2Proof

/-- Bytes arrive: the list of a reception row is not empty, and is no longer than a whole frame (R182: 246 bytes). -/
def RxByte.chunkOk (bytes : List RxByte) : Bool :=
  !bytes.isEmpty && bytes.length ≤ 246

/-- The check of a command. -/
def Instr.wellFormed : Instr → Bool
  | .powerOn _ _ => true
  | .resetNLow => true
  | .qualifiedChange _ _ => true
  | .chatterEndExpiry _ => true
  | .discrepancyExpiry _ => true
  | .levelEntry => true
  | .qualityEntry => true
  | .shelveExpiry _ => true
  | .pollCycleExpiry => true
  | .identityAnswer bytes => RxByte.chunkOk bytes
  | .snapshotAnswer bytes => RxByte.chunkOk bytes
  | .changesAnswer bytes => RxByte.chunkOk bytes
  | .answerTimeout => true
  | .linkGapExpiry => true
  | .syncPulse => true
  | .syncWatchdogExpiry => true
  | .takeTimerExpiry _ => true
  | .stationFrameReceived _ bytes => RxByte.chunkOk bytes
  | .stationGapExpiry _ => true
  | .frameEnd _ => true
  | .retransmission _ => true
  | .unknownKind _ => true
  | .setPoint _ => true
  | .readPoint _ => true
  | .setMap _ => true
  | .readMap _ => true
  | .setInputs _ => true
  | .readInput _ => true
  | .setUnit _ => true
  | .setLink _ => true
  | .readUnit _ => true
  | .ackPoint _ => true
  | .ackPointMembers _ => true
  | .ackClass _ => true
  | .ackAll _ => true
  | .resetPoint _ => true
  | .resetAll _ => true
  | .silence _ => true
  | .shelve _ => true
  | .unshelve _ => true
  | .remove _ => true
  | .restore _ => true
  | .setAudible _ => true
  | .take _ => true
  | .poll _ => true
  | .done _ => true
  | .doneClass _ => true
  | .setLowest _ => true
  | .setDispatch _ => true
  | .attach _ => true
  | .detach _ => true
  | .readPort _ => true
  | .setPort _ => true
  | .setLog _ => true
  | .confirmLog _ => true
  | .readLog _ => true
  | .setRoute _ => true
  | .clearFlags _ => true
  | .testSource _ => true
  | .clearFault _ => true
  | .clearFaultPort _ => true
  | .readStatus _ => true
  | .enterRun _ => true
  | .fieldPointEvaluation => true
  | .groupPointEvaluation => true
  | .endOfInitialEvaluation => true
  | .enterConfig _ => true
  | .enterConfigEngineClaim => true
  | .restart _ => true
  | .setTime _ => true
  | .lineSample _ _ => true
  | .timebaseMillisecond ms => 0 < ms
  | .linkMessageEnd => true
  | .linkFrameRejected bytes => RxByte.chunkOk bytes
  | .stationFrameDiscarded _ bytes => RxByte.chunkOk bytes

end Sys2Proof
end

