-- ==== Sys2Proof/Laws/PerInstr.lean ====
section
/-! SUPPORT. One statement about every command as syntax: a well-formed row that carries bytes carries at least one and at
most 246 of them, and a well-formed row that carries milliseconds carries at least one (log 4, log 6). -/

namespace Sys2Proof.Laws.Reception

/-- The bytes that arrive with a command. -/
def bytesOf : Instr → List RxByte
  | .identityAnswer bytes => bytes
  | .snapshotAnswer bytes => bytes
  | .changesAnswer bytes => bytes
  | .stationFrameReceived _ bytes => bytes
  | .linkFrameRejected bytes => bytes
  | .stationFrameDiscarded _ bytes => bytes
  | _ => []

/-- The milliseconds that pass with a command. -/
def millisecondsOf : Instr → Option Nat
  | .timebaseMillisecond ms => some ms
  | _ => none

/-- The rows of reception. -/
def receives : Instr → Bool
  | .identityAnswer _ => true
  | .snapshotAnswer _ => true
  | .changesAnswer _ => true
  | .stationFrameReceived _ _ => true
  | .linkFrameRejected _ => true
  | .stationFrameDiscarded _ _ => true
  | _ => false

/-- A well-formed command carries bytes exactly if it is a row of reception, 246 at most, and no row lets no time pass. -/
def Statement (i : Instr) : Prop :=
  i.wellFormed = true →
    (receives i = true ↔ bytesOf i ≠ []) ∧ (bytesOf i).length ≤ 246 ∧ ∀ ms, millisecondsOf i = some ms → 1 ≤ ms

/-- The check on the bytes of a reception row, read as a proposition. -/
theorem chunkOk_iff (bytes : List RxByte) :
    RxByte.chunkOk bytes = true ↔ bytes ≠ [] ∧ bytes.length ≤ 246 := by
  cases bytes <;> simp [RxByte.chunkOk]

/-- A row that carries no bytes and no milliseconds. -/
theorem of_plain {i : Instr} (h1 : receives i = false) (h2 : bytesOf i = []) (h3 : millisecondsOf i = none) :
    Statement i := by
  intro _
  rw [h1, h2, h3]
  simp

/-- A row of reception. -/
theorem of_bytes {i : Instr} {bytes : List RxByte} (h1 : receives i = true) (h2 : bytesOf i = bytes)
    (h3 : millisecondsOf i = none) (h4 : i.wellFormed = RxByte.chunkOk bytes) : Statement i := by
  intro h
  rw [h4, chunkOk_iff] at h
  rw [h1, h2, h3]
  simp [h.1, h.2]

theorem powerOn (levels : Vector Level 64) (rate : Bool) : Statement (.powerOn levels rate) := of_plain rfl rfl rfl
theorem resetNLow : Statement .resetNLow := of_plain rfl rfl rfl
theorem qualifiedChange (line : LineNo) (level : Level) : Statement (.qualifiedChange line level) := of_plain rfl rfl rfl
theorem chatterEndExpiry (input : InputNo) : Statement (.chatterEndExpiry input) := of_plain rfl rfl rfl
theorem discrepancyExpiry (pair : PairNo) : Statement (.discrepancyExpiry pair) := of_plain rfl rfl rfl
theorem levelEntry : Statement .levelEntry := of_plain rfl rfl rfl
theorem qualityEntry : Statement .qualityEntry := of_plain rfl rfl rfl
theorem shelveExpiry (point : PointNo) : Statement (.shelveExpiry point) := of_plain rfl rfl rfl
theorem pollCycleExpiry : Statement .pollCycleExpiry := of_plain rfl rfl rfl
theorem identityAnswer (bytes : List RxByte) : Statement (.identityAnswer bytes) := of_bytes rfl rfl rfl rfl
theorem snapshotAnswer (bytes : List RxByte) : Statement (.snapshotAnswer bytes) := of_bytes rfl rfl rfl rfl
theorem changesAnswer (bytes : List RxByte) : Statement (.changesAnswer bytes) := of_bytes rfl rfl rfl rfl
theorem answerTimeout : Statement .answerTimeout := of_plain rfl rfl rfl
theorem linkGapExpiry : Statement .linkGapExpiry := of_plain rfl rfl rfl
theorem syncPulse : Statement .syncPulse := of_plain rfl rfl rfl
theorem syncWatchdogExpiry : Statement .syncWatchdogExpiry := of_plain rfl rfl rfl
theorem takeTimerExpiry (port : Port) : Statement (.takeTimerExpiry port) := of_plain rfl rfl rfl
theorem stationFrameReceived (port : Port) (bytes : List RxByte) : Statement (.stationFrameReceived port bytes) := of_bytes rfl rfl rfl rfl
theorem stationGapExpiry (port : Port) : Statement (.stationGapExpiry port) := of_plain rfl rfl rfl
theorem frameEnd (port : Port) : Statement (.frameEnd port) := of_plain rfl rfl rfl
theorem retransmission (port : Port) : Statement (.retransmission port) := of_plain rfl rfl rfl
theorem unknownKind (port : Port) : Statement (.unknownKind port) := of_plain rfl rfl rfl
theorem setPoint (port : Port) : Statement (.setPoint port) := of_plain rfl rfl rfl
theorem readPoint (port : Port) : Statement (.readPoint port) := of_plain rfl rfl rfl
theorem setMap (port : Port) : Statement (.setMap port) := of_plain rfl rfl rfl
theorem readMap (port : Port) : Statement (.readMap port) := of_plain rfl rfl rfl
theorem setInputs (port : Port) : Statement (.setInputs port) := of_plain rfl rfl rfl
theorem readInput (port : Port) : Statement (.readInput port) := of_plain rfl rfl rfl
theorem setUnit (port : Port) : Statement (.setUnit port) := of_plain rfl rfl rfl
theorem setLink (port : Port) : Statement (.setLink port) := of_plain rfl rfl rfl
theorem readUnit (port : Port) : Statement (.readUnit port) := of_plain rfl rfl rfl
theorem ackPoint (port : Port) : Statement (.ackPoint port) := of_plain rfl rfl rfl
theorem ackPointMembers (port : Port) : Statement (.ackPointMembers port) := of_plain rfl rfl rfl
theorem ackClass (port : Port) : Statement (.ackClass port) := of_plain rfl rfl rfl
theorem ackAll (port : Port) : Statement (.ackAll port) := of_plain rfl rfl rfl
theorem resetPoint (port : Port) : Statement (.resetPoint port) := of_plain rfl rfl rfl
theorem resetAll (port : Port) : Statement (.resetAll port) := of_plain rfl rfl rfl
theorem silence (port : Port) : Statement (.silence port) := of_plain rfl rfl rfl
theorem shelve (port : Port) : Statement (.shelve port) := of_plain rfl rfl rfl
theorem unshelve (port : Port) : Statement (.unshelve port) := of_plain rfl rfl rfl
theorem remove (port : Port) : Statement (.remove port) := of_plain rfl rfl rfl
theorem restore (port : Port) : Statement (.restore port) := of_plain rfl rfl rfl
theorem setAudible (port : Port) : Statement (.setAudible port) := of_plain rfl rfl rfl
theorem take (port : Port) : Statement (.take port) := of_plain rfl rfl rfl
theorem poll (port : Port) : Statement (.poll port) := of_plain rfl rfl rfl
theorem done (port : Port) : Statement (.done port) := of_plain rfl rfl rfl
theorem doneClass (port : Port) : Statement (.doneClass port) := of_plain rfl rfl rfl
theorem setLowest (port : Port) : Statement (.setLowest port) := of_plain rfl rfl rfl
theorem setDispatch (port : Port) : Statement (.setDispatch port) := of_plain rfl rfl rfl
theorem attach (port : Port) : Statement (.attach port) := of_plain rfl rfl rfl
theorem detach (port : Port) : Statement (.detach port) := of_plain rfl rfl rfl
theorem readPort (port : Port) : Statement (.readPort port) := of_plain rfl rfl rfl
theorem setPort (port : Port) : Statement (.setPort port) := of_plain rfl rfl rfl
theorem setLog (port : Port) : Statement (.setLog port) := of_plain rfl rfl rfl
theorem confirmLog (port : Port) : Statement (.confirmLog port) := of_plain rfl rfl rfl
theorem readLog (port : Port) : Statement (.readLog port) := of_plain rfl rfl rfl
theorem setRoute (port : Port) : Statement (.setRoute port) := of_plain rfl rfl rfl
theorem clearFlags (port : Port) : Statement (.clearFlags port) := of_plain rfl rfl rfl
theorem testSource (port : Port) : Statement (.testSource port) := of_plain rfl rfl rfl
theorem clearFault (port : Port) : Statement (.clearFault port) := of_plain rfl rfl rfl
theorem clearFaultPort (port : Port) : Statement (.clearFaultPort port) := of_plain rfl rfl rfl
theorem readStatus (port : Port) : Statement (.readStatus port) := of_plain rfl rfl rfl
theorem enterRun (port : Port) : Statement (.enterRun port) := of_plain rfl rfl rfl
theorem fieldPointEvaluation : Statement .fieldPointEvaluation := of_plain rfl rfl rfl
theorem groupPointEvaluation : Statement .groupPointEvaluation := of_plain rfl rfl rfl
theorem endOfInitialEvaluation : Statement .endOfInitialEvaluation := of_plain rfl rfl rfl
theorem enterConfig (port : Port) : Statement (.enterConfig port) := of_plain rfl rfl rfl
theorem enterConfigEngineClaim : Statement .enterConfigEngineClaim := of_plain rfl rfl rfl
theorem restart (port : Port) : Statement (.restart port) := of_plain rfl rfl rfl
theorem setTime (port : Port) : Statement (.setTime port) := of_plain rfl rfl rfl
theorem lineSample (line : LineNo) (level : Level) : Statement (.lineSample line level) := of_plain rfl rfl rfl
theorem timebaseMillisecond (ms : Nat) : Statement (.timebaseMillisecond ms) := by
  intro h
  simp [Instr.wellFormed] at h
  simp [receives, bytesOf, millisecondsOf]
  omega
theorem linkMessageEnd : Statement .linkMessageEnd := of_plain rfl rfl rfl
theorem linkFrameRejected (bytes : List RxByte) : Statement (.linkFrameRejected bytes) := of_bytes rfl rfl rfl rfl
theorem stationFrameDiscarded (port : Port) (bytes : List RxByte) : Statement (.stationFrameDiscarded port bytes) := of_bytes rfl rfl rfl rfl

end Sys2Proof.Laws.Reception
end

