-- ==== Sys2Proof/Tests/Slice0.lean ====
section
/-! SUPPORT. Tests: the check of a command, single steps on small states, and for each statement of
Certificates/Slice0/Obligations.lean a witness: concrete states and operands that meet its premises, clause by clause. -/

namespace Sys2Proof.Tests

open Sys2Proof.Machine

set_option Elab.async false

/-! ### Helpers -/

/-- The state after a command. -/
def after (c : Instr) (s : State) : State :=
  match exec c s with
  | .next t => t
  | .fault _ => s
  | .refused _ => s

/-- A request of kind `k` with TAG 7. -/
def request (k : ReqKind) (args : List Nat) : Frame :=
  { tag := 7#8, kind := k.code, body := args.map (BitVec.ofNat 8) }

/-- `s` with a frame as the only one in the intake of port `p`. -/
def arrived (s : State) (p : Port) (f : Frame) : State := s.setStn p { s.stn p with intake := [f] }

/-- `s` with a request of port `p`. -/
def sent (s : State) (p : Port) (k : ReqKind) (args : List Nat) : State := arrived s p (request k args)

/-- The body of the last response of port `p`. -/
def answer (s : State) (p : Port) : List Byte :=
  match (s.stn p).cache with
  | none => []
  | some c => (c.response.drop 4).take (c.response.length - 6)

/-- The premise `Takes`, as a check. -/
def takes (s : State) (p : Port) (k : ReqKind) (f : Frame) : Bool :=
  !s.inReset && s.raisings.isEmpty && (!k.waitsForEngine || s.engineClaim.isNone) && s.takeable p == some f
    && !s.isRetransmission p f && f.kind == k.code && f.body.length == k.bodyLength && s.ringOk p k f && s.modeOk k f

/-- The check says what the premise says. -/
theorem takes_iff (s : State) (p : Port) (k : ReqKind) (f : Frame) : takes s p k f = true ↔ s.Takes p k f := by
  constructor
  · intro h
    simp only [takes, Bool.and_eq_true, Bool.not_eq_true', List.isEmpty_iff, Bool.or_eq_true, beq_iff_eq] at h
    obtain ⟨⟨⟨⟨⟨⟨⟨⟨h1, h2⟩, h3⟩, h4⟩, h5⟩, h6⟩, h7⟩, h8⟩, h9⟩ := h
    refine ⟨h1, h2, fun hk => ?_, h4, h5, h6, h7, h8, h9⟩
    cases h3 with
    | inl h => rw [hk] at h; exact absurd h (by decide)
    | inr h => simpa using h
  · rintro ⟨h1, h2, h3, h4, h5, h6, h7, h8, h9⟩
    have h3' : (!k.waitsForEngine || s.engineClaim.isNone) = true := by
      cases hk : k.waitsForEngine
      · rfl
      · simp [h3 hk]
    simp only [takes, h1, h2, h3', h4, h5, h6, h7, h8, h9]
    simp

/-- The machine in RUN, with no point configured. -/
def running : State := { State.reset with mode := .run }

/-- The machine in STARTING. -/
def starting : State := { State.reset with mode := .starting }

/-- `s` with point `p` a FIELD point as `r` says. -/
def withPoint (s : State) (p : PointNo) (r : PointRec) : State := s.setPt p r

/-- A FIELD point of type `t`, class 0, that a port of any ring may acknowledge. -/
def fieldPoint (t : SeqType) : PointRec :=
  { PointRec.powerOn with kind := .field, seqType := t, cls := 0, subs := 1, ackRing := 3 }

/-- A first-out GROUP point. -/
def groupPoint : PointRec := { PointRec.powerOn with kind := .group, cls := 0, subs := 1, ackRing := 3, firstOut := true }

/-- A valid map entry for point `p`. -/
def entryFor (p : PointNo) : MapEntry := { MapEntry.powerOn with valid := true, point := some p }

/-- Port 0 attached, as `f` makes its Dispatch Controller. -/
def attached (s : State) (f : Dispatch → Dispatch) : State := s.setDsp 0 (f { Dispatch.powerOn with state := .idle })

/-- A MODE notice of number `k`. -/
def notice (k : Nat) (offered : Bool) (count : Nat) : Notice :=
  { number := k, cls := 2, content := .mode .run, offered := offered, count := count }

/-! ### Commands -/

theorem test_noBytes_refused : (Instr.identityAnswer []).wellFormed = false := by decide
theorem test_noBytes_station_refused : (Instr.stationFrameReceived 0 []).wellFormed = false := by decide
theorem test_tooManyBytes_refused :
    (Instr.stationFrameDiscarded 1 (List.replicate 247 { value := 0#8, stopLow := false })).wellFormed = false := by
  decide +kernel
theorem test_wholeFrame_accepted :
    (Instr.stationFrameReceived 1 (List.replicate 246 { value := 0#8, stopLow := false })).wellFormed = true := by
  decide +kernel
theorem test_noTime_refused : (Instr.timebaseMillisecond 0).wellFormed = false := by decide
theorem test_oneMillisecond_accepted : (Instr.timebaseMillisecond 1).wellFormed = true := by decide
theorem test_noWord_spells_a_command : decodeTableWord 8 0x5A = none := by decide
theorem test_fetchWord_changes_nothing : State.reset.withFetchWord 8 1 = State.reset := rfl

/-! ### The check and the frames (R192) -/

theorem test_crc_of_digits : crc16 ((List.range 9).map fun n => BitVec.ofNat 8 (0x31 + n)) = 0x29B1#16 := by
  decide +kernel
theorem test_frame_comes_back :
    parseStationFrame ((stationFrame (request .readPoint [1, 2])).drop 1) = some (request .readPoint [1, 2]) := by
  decide +kernel
theorem test_record_is_26_bytes :
    (bRecord { seq := 1, stamp := ⟨212, 1000, .set⟩, body := .pointService .inService (.shelved ⟨1, 2, .set⟩)
               point := some 3, input := none, port := some 0, cause := some .shelve }).length = 26 := by
  decide +kernel
theorem test_point_is_29_bytes : (bPointRec (fieldPoint .latch)).length = 29 := by decide +kernel
theorem test_input_is_21_bytes : (State.reset.bInput 5).length = 21 := by decide +kernel
theorem test_status_is_83_bytes : State.reset.statusResults.length = 83 := by decide +kernel
theorem test_port_is_36_bytes : (State.reset.portResults 2).length = 36 := by decide +kernel

/-! ### Single steps -/

theorem test_idle_step : step State.reset = .next State.reset := rfl

theorem test_frame_enters_intake :
    ((after (.stationFrameReceived 1 (goodBytes (stationFrame (request .attach [])))) State.reset).stn 1).intake
      = [request .attach []] := by
  decide +kernel

theorem test_attach_offers_resync :
    let t := after (.attach 1) (sent State.reset 1 .attach [])
    answer t 1 = [0#8] ∧ (t.dsp 1).state = .offering
      ∧ (t.stn 1).waitNotice
          = some (noticeFrame { number := 1, cls := 0, content := .resync, offered := true, count := 1 }) := by
  decide +kernel

theorem test_shelve_refused_in_config : answer (after (.unknownKind 0) (arrived State.reset 0 ⟨1#8, 0x7F#8, []⟩)) 0 = [3#8] := by
  decide +kernel

theorem test_alarm_from_contact :
    let m : MapEntry := entryFor 5
    let s := { (withPoint running 5 (fieldPoint .auto)).setEnt 0 m with changeQueue := [⟨.level, 0, .closed, .good, ⟨0, 9, .set⟩, false⟩] }
    let t := after .levelEntry s
    (t.pt 5).seqState = .alert ∧ (t.pt 5).lastChange = some (1, ⟨0, 9, .set⟩) ∧ (t.log.ring.length = 1) := by
  decide +kernel

theorem test_acknowledged :
    let r : PointRec := { fieldPoint .ringback with condition := .normal, seqState := .returnUnacked }
    let t := after (.ackPoint 0) (sent (withPoint running 5 r) 0 .ackPoint [5, 0])
    (t.pt 5).seqState = .ringback ∧ answer t 0 = [0#8] := by
  decide +kernel

theorem test_unshelved_end_time :
    let t := after (.shelve 0) (sent { withPoint running 5 (fieldPoint .auto) with msOfDay := 86399999, timeQuality := .set }
      0 .shelve [5, 0, 1])
    (t.pt 5).service = .shelved ⟨1, 59999, .set⟩ ∧ (t.pt 5).shelveTimer = some 60000 := by
  decide +kernel

theorem test_done_without_class :
    let t := after (.done 0) (sent (attached State.reset id) 0 .done [])
    answer t 0 = [0x0C#8] ∧ t.flagSet .doneError = true := by
  decide +kernel

theorem test_enter_run_refused_by_unfitted_unit :
    answer (after (.enterRun 0) (sent (State.reset.setEnt 65 (entryFor 5)) 0 .enterRun [0])) 0 = [7#8, 65#8] := by
  decide +kernel

theorem test_restart_in_config_answered :
    let t := after .enterConfigEngineClaim (after (.restart 0) (sent State.reset 0 .restart []))
    answer t 0 = [0#8] ∧ t.mode = .config ∧ t.engineClaim = none := by
  decide +kernel

theorem test_remote_line_stamped :
    let r : UnitRec := { UnitRec.powerOn with state := .online, lastSeq := 3 }
    let x : Exchange := { unit := 0, kind := .poll, message := [], void := false, phase := .awaiting 4 }
    let s := { running.setUnit 0 r with msOfDay := 500, inputs := running.inputs.set 64 (InputRec.powerOn .opened false) }
    let t := after (.changesAnswer (goodBytes (linkFrame 1 0x83 [4#8, 0#8, 1#8, 0x80#8, 0#8, 20#8])))
      { s with link := { s.link with turn := some 0, exchange := some x } }
    (t.inp 64).level = .closed ∧ (t.inp 64).lastChange = some ⟨0, 480, .unset⟩ ∧ t.changeQueue.length = 1 := by
  decide +kernel


/-! ### Witnesses: queue, power, Timebase -/

theorem witness_StepTakesFront :
    ({ State.reset with pending := [.syncPulse, .levelEntry] } : State).pending = .syncPulse :: [.levelEntry]
      ∧ State.reset.pending = [] := ⟨rfl, rfl⟩

theorem witness_ResetNLowEndsAll :
    State.reset.resetLow.inReset = true ∧ Instr.syncPulse ≠ .resetNLow ∧ ∀ levels rate, Instr.syncPulse ≠ .powerOn levels rate := by
  refine ⟨rfl, by decide, fun _ _ h => by cases h⟩

/-- An exchange with unit `u`. -/
def exchangeWith (u : UnitNo) (kind : MessageKind) (phase : ExchangePhase) : Exchange :=
  { unit := u, kind := kind, message := [], void := false, phase := phase }

/-- `s` with the exchange outstanding and its unit's turn. -/
def exchanging (s : State) (x : Exchange) : State := { s with link := { s.link with turn := some x.unit, exchange := some x } }

/-- The last millisecond of the last day, with a partial frame at port 0 and an exchange in its wait. -/
def clockEdge : State :=
  exchanging { State.reset.setStn 0 { Station.powerOn 0 with rx := .partialFrame [2#8] 5 } with day := 65535, msOfDay := 86399999 }
    (exchangeWith 1 .poll (.awaiting 4))

theorem witness_MillisecondsPass :
    clockEdge.inReset = false ∧ clockEdge.ClockInRange ∧ (clockEdge.stn 0).rx = .partialFrame [2#8] 5
      ∧ (clockEdge.stn 1).rx = .hunting ∧ clockEdge.link.exchange = some (exchangeWith 1 .poll (.awaiting 4))
      ∧ State.reset.link.exchange = none ∧ (exchangeWith 0 .identify .sending).phase = .sending := by
  refine ⟨rfl, ⟨?_, ?_⟩, rfl, rfl, rfl, rfl, rfl⟩ <;> decide +kernel

theorem test_midnight :
    let t := after (.timebaseMillisecond 1) clockEdge
    t.day = 0 ∧ t.msOfDay = 0 ∧ (t.stn 0).rx = .partialFrame [2#8] 4
      ∧ t.link.exchange = some (exchangeWith 1 .poll (.awaiting 3)) := by
  decide +kernel

/-- Sync enabled at the millisecond `ms` of day 65535. -/
def syncAt (ms : Nat) : State := { State.reset with day := 65535, msOfDay := ms, syncEnable := true }

theorem witness_SyncPulseAligns :
    State.reset.syncEnable = false ∧ State.reset.ClockInRange ∧ (syncAt 499).ClockInRange ∧ (syncAt 86398500).ClockInRange
      ∧ (syncAt 86399500).ClockInRange ∧ (syncAt 499).syncEnable = true ∧ (syncAt 499).msOfDay % 1000 ≤ 499
      ∧ 500 ≤ (syncAt 86398500).msOfDay % 1000 ∧ 86398500 + (1000 - 86398500 % 1000) < 86400000
      ∧ 86399500 + (1000 - 86399500 % 1000) = 86400000 := by
  refine ⟨rfl, ⟨?_, ?_⟩, ⟨?_, ?_⟩, ⟨?_, ?_⟩, ⟨?_, ?_⟩, rfl, ?_, ?_, ?_, ?_⟩ <;> decide +kernel

theorem test_pulse_at_midnight :
    let t := after .syncPulse (syncAt 86399500)
    t.day = 0 ∧ t.msOfDay = 0 ∧ t.timeQuality = .synced ∧ t.watchdog = some 1500 := by
  decide +kernel

theorem witness_SyncWatchdogExpires :
    let s := { syncAt 0 with watchdog := some 0 }
    s.inReset = false ∧ s.raisings = [] ∧ s.watchdog = some 0 ∧ s.log.ring.length ≤ 1024 := by
  decide +kernel

/-- A request of port 0 with its premise. -/
def asked (s : State) (k : ReqKind) (args : List Nat) : Bool := takes (sent s 0 k args) 0 k (request k args)

/-- What `asked` checks. -/
theorem asked_takes {s : State} {k : ReqKind} {args : List Nat} (h : asked s k args = true) :
    (sent s 0 k args).Takes 0 k (request k args) := (takes_iff _ _ _ _).1 h

theorem witness_SetTimeSteps :
    (asked State.reset .setTime [0, 1, 5, 0x26, 0x5C, 0, 0] = true
        ∧ 86400000 ≤ (request .setTime [0, 1, 5, 0x26, 0x5C, 0, 0]).arg4 2)
      ∧ (asked State.reset .setTime [0, 1, 0, 0, 0, 0, 2] = true ∧ 1 < (request .setTime [0, 1, 0, 0, 0, 0, 2]).arg 6)
      ∧ asked State.reset .setTime [0, 1, 5, 0x26, 0x5B, 0xFF, 1] = true
      ∧ (request .setTime [0, 1, 5, 0x26, 0x5B, 0xFF, 1]).arg4 2 < 86400000
      ∧ (request .setTime [0, 1, 5, 0x26, 0x5B, 0xFF, 1]).arg 6 ≤ 1 := by
  decide +kernel

/-! ### Witnesses: the field path -/

theorem witness_SampleJudged :
    let s := State.reset
    let t := { s.setLine 3 { raw := .closed, qualified := .opened, run := some ⟨⟨0, 0, .unset⟩, 0⟩ } with elapsed := 8 }
    s.inReset = false ∧ s.raisings = [] ∧ Level.opened = (s.line 3).qualified ∧ Level.closed ≠ (s.line 3).qualified
      ∧ (s.elapsed - s.elapsed).toNat < s.debounceTime 3 ∧ (t.line 3).run = some ⟨⟨0, 0, .unset⟩, 0⟩
      ∧ Level.closed ≠ (t.line 3).qualified ∧ t.debounceTime 3 ≤ (t.elapsed - 0).toNat := by
  decide +kernel

/-- Input 0 one change below the chatter threshold. -/
def nearChatter : State := running.setInp 0 { InputRec.powerOn .opened false with history := List.replicate 8 0 }

/-- RUN with pair 0, inputs 0 and 1, complementary, the levels apart and the timer running. -/
def pairedRun : State :=
  { (running.setInp 1 (InputRec.powerOn .closed false)).setPairTimer 0 (some 200) with
    settings := { FilterSettings.powerOn with pairs := ⟨#[1, 0, 0, 0], rfl⟩ } }

theorem witness_ChangeAccepted :
    pairedRun.paired (pairOf 0) = true ∧ partnerOf 0 = 1 ∧ Level.closed = (pairedRun.inp 1).level
      ∧ Level.opened ≠ (pairedRun.inp 1).level ∧ pairedRun.pairTimer 0 = some 200
      ∧ ({ running with mode := .config } : State).reaching [⟨.level, 0, .closed, .good, ⟨0, 0, .set⟩, false⟩] = []
      ∧ ({ running with changeQueue := List.replicate 128 ⟨.level, 1, .closed, .good, ⟨0, 0, .set⟩, false⟩ } : State).overflowing
          [⟨.level, 0, .closed, .good, ⟨0, 0, .set⟩, false⟩] = [⟨.level, 0, .closed, .good, ⟨0, 0, .set⟩, false⟩]
      ∧ running.paired (pairOf 0) = false ∧ (running.inp 0).reported = .good ∧ (running.inp 0).level ≠ .closed
      ∧ running.mode ≠ .config ∧ (running.inp 0).deferred = false ∧ running.changeQueue.length < 128
      ∧ nearChatter.paired (pairOf 0) = false ∧ (nearChatter.acceptChange 0 .closed ⟨0, 0, .set⟩).changeQueue
          = [⟨.quality, 0, .closed, .chatter, ⟨0, 0, .set⟩, false⟩]
      ∧ (running.inp 64).reported = .unitLost := by
  decide +kernel

theorem witness_ChatterEnds :
    let r : InputRec := { InputRec.powerOn .closed false with chatterActive := true, chatterTimer := some 0, reported := .chatter }
    let s := running.setInp 7 r
    let l := running.setInp 70 { r with unitLost := true, reported := .unitLost }
    s.inReset = false ∧ s.raisings = [] ∧ (s.inp 7).chatterTimer = some 0
      ∧ qualityOf r.unitLost r.discrepant false ≠ (s.inp 7).reported
      ∧ (l.inp 70).chatterTimer = some 0 ∧ qualityOf true false false = (l.inp 70).reported
      ∧ ({ s with changeQueue := List.replicate 128 ⟨.level, 1, .closed, .good, ⟨0, 0, .set⟩, false⟩ } : State).overflowing
          [⟨.quality, 7, .closed, .good, s.now, false⟩] ≠ [] := by
  decide +kernel

/-- The end of chatter dates the change of quality and keeps the time of the last change (R119, R122). -/
theorem test_chatter_ends :
    let r : InputRec :=
      { InputRec.powerOn .closed false with
        lastChange := some ⟨0, 3, .set⟩, chatterActive := true, chatterTimer := some 0, reported := .chatter }
    let t := after (.chatterEndExpiry 7) { running.setInp 7 r with msOfDay := 9, timeQuality := .set }
    t.inp 7 =
      { r with
        chatterActive := false, chatterTimer := none, reported := .good, lastQualityChange := some ⟨0, 9, .set⟩
        queuedLevel := .closed, queuedQuality := .good } := by
  decide +kernel

theorem witness_PairBecomesDiscrepant :
    let s := running.setPairTimer 127 (some 0)
    let apart := pairedRun.setPairTimer 0 (some 0)
    s.inReset = false ∧ s.raisings = [] ∧ s.pairTimer 127 = some 0
      ∧ qualityOf (s.inp (evenInput 127)).unitLost true (s.inp (evenInput 127)).chatterActive
          = (s.inp (evenInput 127)).reported
      ∧ apart.pairTimer 0 = some 0 ∧ evenInput 0 = 0 ∧ oddInput 0 = 1
      ∧ qualityOf (apart.inp 1).unitLost true (apart.inp 1).chatterActive ≠ (apart.inp 1).reported
      ∧ ({ apart with changeQueue := List.replicate 128 ⟨.level, 9, .closed, .good, ⟨0, 0, .set⟩, false⟩ } : State).overflowing
          [⟨.quality, 1, .closed, .discrepant, apart.now, false⟩] ≠ [] := by
  decide +kernel

/-- The odd input's quality changes at the time of the expiry, and its entry follows the even one's (R120, R122). -/
theorem test_pair_discrepant :
    let t := after (.discrepancyExpiry 0) { pairedRun.setPairTimer 0 (some 0) with msOfDay := 9, timeQuality := .set }
    (t.inp 1).lastQualityChange = some ⟨0, 9, .set⟩ ∧ (t.inp 1).discrepant = true ∧ t.pairTimer 0 = none
      ∧ t.changeQueue.map (fun e => (e.input, e.quality)) = [(0, .discrepant), (1, .discrepant)] := by
  decide +kernel

/-- A change entry for input `i`. -/
def change (kind : EntryKind) (i : InputNo) : ChangeEntry := ⟨kind, i, .closed, .good, ⟨0, 9, .set⟩, false⟩

/-- RUN with point 5 a FIELD point named by the entry of input 0, and one change entry waiting. -/
def changed (m : MapEntry) (e : ChangeEntry) : State :=
  { (withPoint running 5 (fieldPoint .auto)).setEnt 0 m with changeQueue := [e] }

theorem witness_EntrySetAside :
    let trap := { entryFor 5 with trap := true }
    (changed trap (change .level 64)).unfitted 64 = true ∧ (changed trap (change .level 0)).unfitted 0 = false
      ∧ ((changed trap (change .level 0)).ent 0).trap = true ∧ ((changed trap (change .level 0)).ent 0).valid = true
      ∧ ((changed MapEntry.powerOn (change .quality 0)).ent 0).valid = false
      ∧ (changed trap (change .level 0)).mode = .run ∧ (changed trap (change .level 0)).raisings = []
      ∧ (changed trap (change .level 0)).inReset = false
      ∧ (changed trap (change .level 0)).changeQueue = [change .level 0]
      ∧ (changed trap (change .level 0)).log.archive = none := by
  decide +kernel

/-- The SYSTEM record of an unmapped change carries the input, behind that of the LOG_HIGH which the INPUT record raised
(R103, R135). -/
theorem test_unmapped_behind_log_high :
    let s := changed MapEntry.powerOn (change .level 0)
    let t := after .levelEntry { s with log := { s.log with archive := some 0, threshold := 1 } }
    t.log.ring.map (fun r => (r.body.kindCode, r.input)) = [(4, some 0), (5, none), (5, some 0)]
      ∧ t.flagSet .logHigh = true ∧ t.flagSet .unmappedInput = true := by
  decide +kernel

theorem test_trap_change :
    let t := after .levelEntry (changed { entryFor 5 with trap := true } (change .level 0))
    t.flagSet .inputTrap = true ∧ t.inputCapture.locked = true ∧ (t.pt 5).seqState = .normal ∧ t.log.ring.length = 2 := by
  decide +kernel

theorem test_deferred_input_catches_up :
    let d : InputRec := { InputRec.powerOn .closed false with queuedLevel := .opened, deferred := true, lastChange := some ⟨0, 7, .set⟩ }
    let t := after .levelEntry ((changed (entryFor 5) (change .level 0)).setInp 9 d)
    t.changeQueue = [⟨.level, 9, .closed, .good, ⟨0, 7, .set⟩, true⟩] ∧ (t.inp 9).deferred = false := by
  decide +kernel

/-- The same under first-out GROUP point 9. -/
def changedMember : State :=
  let s := changed (entryFor 5) (change .level 0)
  withPoint (withPoint s 5 { fieldPoint .auto with parent := some 9 }) 9 groupPoint

theorem test_group_follows_member :
    let t := after .levelEntry changedMember
    (t.pt 9).condition = .abnormal ∧ (t.pt 9).seqState = .alert ∧ (t.pt 9).firstMember = some 5 := by
  decide +kernel

/-- Each of the two changes reaches port 0, which both points name as a subscriber. -/
theorem test_changes_reach_subscriber :
    let t := after .levelEntry (attached changedMember id)
    (t.dsp 0).queue.map (fun n => (n.cls, n.content.identity, n.offered))
        = [(0, .point 5, true), (0, .point 9, false)]
      ∧ (t.dsp 0).state = .offering ∧ t.log.ring.map (fun r => (r.point, r.cause)) =
        [(some 5, some .input), (some 9, some .member), (some 9, some .member)] := by
  decide +kernel

theorem witness_EntryApplied_member :
    let loose := withPoint changedMember 9 PointRec.powerOn
    (changedMember.pt 5).parent = some 9 ∧ (changedMember.pt 9).kind = .group ∧ (changedMember.pt 5).kind = .field
      ∧ changedMember.depth 4 5 ≤ 3 ∧ changedMember.changeQueue = [change .level 0]
      ∧ ((after .levelEntry changedMember).pt 5).condition ≠ (changedMember.pt 5).condition
      ∧ ((attached changedMember id).dsp 0).state ≠ .detached ∧ (changedMember.pt 5).subs.getLsbD 0 = true
      ∧ ((after .levelEntry changedMember).pt 5).lastChange ≠ (changedMember.pt 5).lastChange
      ∧ (loose.pt 5).parent = some 9 ∧ (loose.pt 9).kind ≠ .group := by
  decide +kernel

theorem witness_EntryApplied :
    let s := changed (entryFor 5) (change .level 0)
    let same := changed { entryFor 5 with appliedLevel := .closed } (change .quality 0)
    s.inReset = false ∧ s.raisings = [] ∧ s.mode = .run ∧ s.changeQueue = [change .level 0] ∧ s.unfitted 0 = false
      ∧ (s.ent 0).valid = true ∧ (s.ent 0).trap = false ∧ (s.ent 0).point = some 5 ∧ (s.pt 5).kind = .field
      ∧ s.depth 4 5 ≤ 3 ∧ (s.ent 0).appliedLevel ≠ .closed ∧ (same.ent 0).appliedLevel = .closed
      ∧ (same.ent 0).appliedQuality = (change .quality 0).quality ∧ (same.ent 0).latch = false
      ∧ (same.ent 0).mode ≠ .pulse := by
  decide +kernel

/-! ### Witnesses: the expansion link -/

/-- Unit `u` in state `st`, with its inputs not lost. -/
def unitIn (u : UnitNo) (st : UnitState) : State :=
  (running.setUnit u { UnitRec.powerOn with state := st }).setInp (remoteInput u 0) (InputRec.powerOn .opened false)

/-- `s` with the poll cycle timer run down. -/
def cycleDue (s : State) : State := { s with link := { s.link with pollTimer := some 0 } }

theorem witness_PollCycleExpires :
    (cycleDue running).link.pollTimer = some 0 ∧ (cycleDue running).link.turn = none
      ∧ (∀ u, ((cycleDue running).unit u).state = .notFitted)
      ∧ (∀ st ∈ [UnitState.searching, .resync, .online, .lost], ((cycleDue (unitIn 2 st)).unit 2).state = st
          ∧ ∀ v : UnitNo, v < 2 → ((cycleDue (unitIn 2 st)).unit v).state = .notFitted)
      ∧ (cycleDue (exchanging (unitIn 1 .online) (exchangeWith 1 .poll .sending))).link.turn = some 1 := by
  decide +kernel

theorem test_unit_fitted_in_a_cycle_waits :
    let s := exchanging ((unitIn 0 .online).setUnit 2 { UnitRec.powerOn with state := .searching, newlyFitted := true })
      (exchangeWith 0 .poll (.awaiting 0))
    let t := after .answerTimeout s
    let next := after .pollCycleExpiry (cycleDue (t.setUnit 0 UnitRec.powerOn))
    t.link.turn = none ∧ next.link.turn = some 2 ∧ (next.unit 2).newlyFitted = false := by
  decide +kernel

/-- The master waits for the answer of unit `u`. -/
def waitingFor (u : UnitNo) (kind : MessageKind) (s : State) (left : Nat) : State :=
  exchanging s (exchangeWith u kind (.awaiting left))

theorem witness_IdentityAnswered :
    let s := waitingFor 0 .identify (unitIn 0 .searching) 4
    let known := waitingFor 0 .identify ((unitIn 0 .searching).setUnit 0 { UnitRec.powerOn with state := .searching, mismatch := true }) 1
    s.inReset = false ∧ s.raisings = [] ∧ s.link.exchange = some (exchangeWith 0 .identify (.awaiting 4))
      ∧ s.link.rx = .hunting ∧ [0x0C#8, 0x41#8, 64#8].length = 3 ∧ [0#8, 0#8, 0#8] ≠ [0x0C#8, 0x41#8, 64#8]
      ∧ (s.unit 0).mismatch = false ∧ (known.unit 0).mismatch = true := by
  decide +kernel

/-- The master waits for the answer of an exchange with unit `u` that has been marked void. -/
def waitingVoid (u : UnitNo) (kind : MessageKind) (s : State) : State :=
  exchanging s { exchangeWith u kind (.awaiting 4) with void := true }

theorem witness_voidAnswers :
    (∀ kind ∈ [MessageKind.identify, .snapshot, .poll],
      (waitingVoid 1 kind (unitIn 1 .searching)).link.exchange.map (fun x => (x.unit, x.kind, x.void, x.phase))
        = some (1, kind, true, .awaiting 4) ∧ (waitingVoid 1 kind (unitIn 1 .searching)).link.rx = .hunting)
      ∧ (exchangeWith 0 .identify (.awaiting 4)).void = false := by
  decide +kernel

/-- A good answer to a void exchange moves no unit and ends the turn (R148). -/
theorem test_void_answer :
    let s := waitingVoid 1 .identify (unitIn 1 .searching)
    let t := after (.identityAnswer (goodBytes (linkFrame 2 0x81 [0x0C#8, 0x41#8, 64#8]))) s
    t.link.exchange = none ∧ t.link.turn = none ∧ t.unit 1 = s.unit 1 ∧ t.log = s.log := by
  decide +kernel

theorem test_unit_identified :
    ((after (.identityAnswer (goodBytes (linkFrame 1 0x81 [0x0C#8, 0x41#8, 64#8])))
      (waitingFor 0 .identify (unitIn 0 .searching) 4)).unit 0).state = .resync := by
  decide +kernel

theorem witness_SnapshotAnswered :
    let s := waitingFor 2 .snapshot (unitIn 2 .resync) 4
    let pairs := { s with settings := { FilterSettings.powerOn with pairs := ⟨#[0, 0, 0, 1], rfl⟩ } }
    s.inReset = false ∧ s.raisings = [] ∧ s.link.exchange = some (exchangeWith 2 .snapshot (.awaiting 4))
      ∧ s.link.rx = .hunting ∧ (List.replicate 8 0xFF#8).length = 8
      ∧ pairOf (remoteInput 2 0) ∈ unitPairs 2 ∧ pairs.paired (pairOf (remoteInput 2 0)) = true
      ∧ s.paired (pairOf (remoteInput 2 0)) = false ∧ remoteInput 2 0 ∈ unitInputs 2 ∧ (5 : InputNo) ∉ unitInputs 2 := by
  decide +kernel

/-- The 63 inputs that were lost have their QUALITY entries first, and the two that have closed their LEVEL entries after. -/
theorem test_snapshot_entries :
    let t := after (.snapshotAnswer (goodBytes (linkFrame 3 0x82 (9#8 :: 3#8 :: List.replicate 7 0#8))))
      (waitingFor 2 .snapshot (unitIn 2 .resync) 4)
    t.changeQueue.map ChangeEntry.kind = List.replicate 63 .quality ++ [.level, .level]
      ∧ (t.changeQueue.drop 62).map ChangeEntry.input = [remoteInput 2 63, remoteInput 2 0, remoteInput 2 1] := by
  decide +kernel

/-- `s` with a full change queue. -/
def crammed (s : State) : State := { s with changeQueue := List.replicate 128 (change .level 1) }

theorem witness_ChangesAnswered :
    let s := waitingFor 1 .poll (unitIn 1 .online) 4
    let last := waitingFor 1 .poll ((unitIn 1 .online).setUnit 1 { UnitRec.powerOn with state := .online, polls := 3 }) 4
    s.inReset = false ∧ s.raisings = [] ∧ s.link.exchange = some (exchangeWith 1 .poll (.awaiting 4)) ∧ s.link.rx = .hunting
      ∧ (List.replicate 24 0#8).length ≤ 24 ∧ (List.replicate 24 0#8).length % 3 = 0 ∧ (0#8).toNat = (s.unit 1).lastSeq
      ∧ (1#8).toNat ≠ (s.unit 1).lastSeq ∧ (2#8).getLsbD 1 = true ∧ (1#8).getLsbD 1 = false ∧ (1#8).getLsbD 0 = true
      ∧ (0#8).getLsbD 0 = false ∧ (s.unit 1).polls < 3 ∧ 3 ≤ (last.unit 1).polls
      ∧ (s.inp (remoteInput 1 0)).level ≠ levelOfBit (0x80#8).msb ∧ (s.unit 1).state = .online ∧ (5 : InputNo) ∉ unitInputs 1
      ∧ s.overflowing (s.lostEntries 1) = [] ∧ (crammed s).overflowing ((crammed s).lostEntries 1) ≠ []
      ∧ (s.inp (remoteInput 1 0)).deferred = false
      ∧ (((crammed s).reportsApplied 1 s.now [⟨0, .closed, 0⟩]).inp (remoteInput 1 0)).deferred = true := by
  decide +kernel

/-- Two reports of one line give two entries, each with the time of its change, behind the entry already queued. -/
theorem test_reports_queued :
    let s := waitingFor 1 .poll (unitIn 1 .online) 4
    let t := after (.changesAnswer (goodBytes (linkFrame 2 0x83 [1#8, 1#8, 2#8, 0x80#8, 0#8, 9#8, 0#8, 0#8, 4#8])))
      { s with day := 1, changeQueue := [change .level 1] }
    t.changeQueue.map (fun e => (e.kind, e.input, e.level, e.stamp.ms))
        = [(.level, 1, .closed, 9), (.level, 128, .closed, 86399991), (.level, 128, .opened, 86399996)]
      ∧ t.link.exchange.map Exchange.message = some (linkFrame 2 0x03 [1#8]) := by
  decide +kernel

theorem witness_AnswerTimesOut :
    let missed := fun st => waitingFor 0 .poll ((unitIn 0 st).setUnit 0 { UnitRec.powerOn with state := st, misses := 2 }) 0
    let s := waitingFor 0 .poll (unitIn 0 .online) 0
    s.inReset = false ∧ s.raisings = [] ∧ s.link.exchange = some (exchangeWith 0 .poll (.awaiting 0))
      ∧ (s.unit 0).misses < 2 ∧ ((waitingFor 0 .identify (unitIn 0 .searching) 0).unit 0).state = .searching
      ∧ ({ exchangeWith 0 .poll (.awaiting 0) with void := true } : Exchange).void = true
      ∧ (∀ st ∈ [UnitState.resync, .online], 2 ≤ ((missed st).unit 0).misses ∧ ((missed st).unit 0).state = st)
      ∧ (missed .online).overflowing ((missed .online).lostEntries 0) = []
      ∧ (crammed (missed .online)).overflowing ((crammed (missed .online)).lostEntries 0) ≠ [] := by
  decide +kernel

theorem witness_LinkLine :
    (exchanging running (exchangeWith 0 .poll .sending)).link.exchange = some (exchangeWith 0 .poll .sending)
      ∧ running.link.exchange = none ∧ [0#8, 0#8] ≠ checkBytes [1#8, 0x81#8, 0#8, 0#8, 0#8] ∧ (2#8).toNat ≠ (0 : UnitNo).val + 1
      ∧ (0x81#8).toNat ≠ MessageKind.snapshot.answerType ∧ (checkBytes [2#8, 0x81#8, 0#8, 0#8, 0#8]).length = 2
      ∧ (waitingFor 0 .poll (unitIn 0 .online) 4).link.exchange = some (exchangeWith 0 .poll (.awaiting 4))
      ∧ (waitingFor 0 .poll (unitIn 0 .online) 4).link.rx = .hunting ∧ 0x84#8 ∉ [0x81#8, 0x82#8, 0x83#8] ∧ 8 < (9#8).toNat
      ∧ [0xC3#8, 1#8, 0x81#8, 0#8, 0#8, 0#8, 0#8, 0#8] = [0xC3#8, 1#8] ++ [0x81#8, 0#8, 0#8, 0#8, 0#8, 0#8]
      ∧ (((waitingFor 0 .poll (unitIn 0 .online) 4).setLinkRx (.partialFrame [1#8] ⟨0, 0, .set⟩)).link.rx
        = .partialFrame [1#8] ⟨0, 0, .set⟩) := by
  decide +kernel

/-- Frames of each TYPE, with no report and with eight, and bytes that start none. -/
theorem witness_LinkLine_lengths :
    LinkLength 0x81#8 [0#8, 0#8, 0#8] ∧ LinkLength 0x82#8 (List.replicate 9 0#8) ∧ LinkLength 0x83#8 [0#8, 0#8, 0#8]
      ∧ LinkLength 0x83#8 ([0#8, 0#8, 8#8] ++ List.replicate 24 0#8) ∧ NoStart [⟨0#8, false⟩, ⟨0xC3#8, true⟩] :=
  ⟨.inl (by decide), .inr (.inl (by decide)), .inr (.inr (by decide)), .inr (.inr (by decide)),
    fun b hb => by simp at hb; rcases hb with rfl | rfl <;> simp⟩

/-- After a discarded frame the next one is taken: a CHANGES count of 9, a frame cut short, and then a good answer. -/
theorem test_answer_after_discards :
    let s := waitingFor 0 .poll (unitIn 0 .online) 4
    let bad := goodBytes [0xC3#8, 1#8, 0x83#8, 1#8, 0#8, 9#8, 0xC3#8, 1#8] ++ [⟨0x83#8, true⟩]
    let t := after (.linkFrameRejected (bad ++ goodBytes (linkFrame 1 0x83 [1#8, 0#8, 0#8]))) s
    after (.linkFrameRejected bad) s = s ∧ (t.unit 0).lastSeq = 1 := by
  decide +kernel

/-- Unit 3 with debounce time 8 after its picture. -/
def remote : RemoteUnit := { RemoteUnit.powerUp 2 with debounce := some 8, seq := 4, last := some (.snapshot (List.replicate 8 0#8)) }

theorem witness_UnitAnswers :
    remote.debounce = some 8 ∧ Level.closed ≠ (remote.lines[63]).qualified ∧ (remote.lines[63]).run = none
      ∧ (3#8).toNat ≠ remote.seq ∧ (4#8).toNat = remote.seq ∧ remote.last ≠ none
      ∧ ({ remote with last := some (.changes 2 true false) } : RemoteUnit).last = some (.changes 2 true false)
      ∧ [0#8, 0#8] ≠ checkBytes [3#8, 1#8] ∧ (1#8).toNat ≠ remote.address.val + 1 := by
  decide +kernel

theorem test_unit_change_qualifies :
    let once := remote.sample 63 .closed
    ((once.passTime 7).sample 63 .closed).reports = []
      ∧ ((once.passTime 8).sample 63 .closed).reports = [{ line := 63, level := .closed, since := 0 }] := by
  decide +kernel

theorem test_unit_sends_its_picture_again :
    let r := (RemoteUnit.powerUp 2).receive (linkFrame 3 0x02 [8#8])
    r.1.seq = 0 ∧ (r.1.receive (linkFrame 3 0x03 [9#8])).2 = r.2 ∧ r.2 = linkFrame 3 0x82 (List.replicate 9 0#8) := by
  decide +kernel

/-! ### Witnesses: the station ports -/

/-- Port 0 with its assembly at `rx` and `n` frames in its intake. -/
def receiving (rx : StationRx) (n : Nat) : State :=
  State.reset.setStn 0 { Station.powerOn 0 with rx := rx, intake := List.replicate n (request .ackAll []) }

theorem witness_StationReceives :
    ((receiving (.partialFrame [2#8] 0) 0).stn 0).rx = .partialFrame [2#8] 0 ∧ ((receiving .hunting 1).stn 0).rx = .hunting
      ∧ ((receiving .hunting 1).stn 0).intake.length < 2 ∧ 2 ≤ ((receiving .hunting 2).stn 0).intake.length
      ∧ (request .setPoint (List.replicate 240 0)).body.length ≤ 240 ∧ (request .setPoint []).tag ≠ 0
      ∧ (1#8).toNat < 2 ∧ 242 < (243#8).toNat ∧ (242#8).toNat = (List.replicate 240 0#8).length + 2
      ∧ [0#8, 0#8] ≠ checkBytes [2#8, 1#8, 1#8] ∧ [2#8, 1#8, 1#8, 0#8, 0#8] = [2#8, 1#8] ++ [1#8, 0#8, 0#8] := by
  decide +kernel

/-- What may stand behind a START in a partial frame: no byte, and all but the last byte of the shortest and of the longest
frame. -/
theorem witness_StationReceives_begun :
    (∀ len rest, ([] : List Byte) = len :: rest → 2 ≤ len.toNat ∧ len.toNat ≤ 242 ∧ rest.length < len.toNat + 2)
      ∧ (∀ n ∈ [2, 242], ∀ len rest, BitVec.ofNat 8 n :: List.replicate (n + 1) 0#8 = len :: rest →
          2 ≤ len.toNat ∧ len.toNat ≤ 242 ∧ rest.length < len.toNat + 2)
      ∧ (∀ bytes, ((receiving (.partialFrame [2#8] 1) 0).stn 0).rx ≠ .partialFrame bytes 0) := by
  refine ⟨fun _ _ h => (nomatch h), fun n hn len rest h => ?_, fun bytes h => ?_⟩
  · cases h
    simp only [List.mem_cons, List.not_mem_nil, or_false] at hn
    rcases hn with rfl | rfl <;> decide +kernel
  · have e : ((receiving (.partialFrame [2#8] 1) 0).stn 0).rx = .partialFrame [2#8] 1 := by decide
    rw [e] at h
    cases h

/-- A frame in two parts 4 ms apart is taken, and after 5 ms its first part is a discard (R182). -/
theorem test_frame_in_two_parts :
    let bytes := goodBytes (stationFrame (request .attach []))
    let begun := after (.stationFrameReceived 0 (bytes.take 3)) State.reset
    let waited := fun n => after (.stationGapExpiry 0) (after (.timebaseMillisecond n) begun)
    (begun.stn 0).rx = .partialFrame [2#8, 7#8] 5 ∧ ((waited 4).stn 0).discards = 0
      ∧ ((after (.stationFrameReceived 0 (bytes.drop 3)) (waited 4)).stn 0).intake = [request .attach []]
      ∧ ((waited 5).stn 0).rx = .hunting ∧ ((waited 5).stn 0).discards = 1 := by
  decide +kernel

theorem test_243_is_discarded :
    ((after (.stationFrameDiscarded 0 (goodBytes [0x5A#8, 243#8])) (receiving .hunting 0)).stn 0).discards = 1 := by
  decide +kernel

/-- Port 0 attached and sending, with a response and a NOTICE frame waiting. -/
def sendingAt (tx : TxFrame) : State :=
  (attached State.reset id).setStn 0 { Station.powerOn 0 with tx := some tx, waitResponse := some [1#8], waitNotice := some [2#8] }

theorem witness_FrameEnds :
    ((sendingAt (.response [0#8])).stn 0).tx = some (.response [0#8])
      ∧ ((sendingAt (.notice [0#8] true)).stn 0).tx = some (.notice [0#8] true)
      ∧ ((sendingAt (.notice [0#8] false)).stn 0).tx = some (.notice [0#8] false)
      ∧ (sendingAt (.response [0#8])).inReset = false ∧ (sendingAt (.response [0#8])).raisings = [] := by
  decide +kernel

theorem test_response_before_notice :
    let t := after (.frameEnd 0) (sendingAt (.notice [0#8] true))
    (t.stn 0).tx = some (.response [1#8]) ∧ (t.stn 0).waitNotice = some [2#8] ∧ (t.dsp 0).takeTimer = some 500 := by
  decide +kernel

theorem witness_RetransmissionAnswered :
    let f := request .ackAll []
    let s := (sent State.reset 0 .ackAll []).setStn 0
      { Station.powerOn 0 with intake := [f], cache := some { request := f, response := [1#8] } }
    s.inReset = false ∧ s.takeable 0 = some f ∧ (s.stn 0).cache = some { request := f, response := [1#8] } := by
  decide +kernel

theorem witness_ChecksRefuse :
    let s := State.reset
    (∀ k : ReqKind, k.code ≠ 0x7F#8) ∧ (arrived s 3 ⟨1#8, 0x7F#8, []⟩).takeable 3 = some ⟨1#8, 0x7F#8, []⟩
      ∧ (arrived s 3 ⟨1#8, 0x7F#8, []⟩).isRetransmission 3 ⟨1#8, 0x7F#8, []⟩ = false ∧ s.engineClaim = none
      ∧ (request .ackPoint [1]).body.length ≠ ReqKind.ackPoint.bodyLength
      ∧ (sent s 3 .setAudible [1]).ringOk 3 .setAudible (request .setAudible [1]) = false
      ∧ (sent s 0 .ackAll []).ringOk 0 .ackAll (request .ackAll []) = true
      ∧ (sent s 0 .ackAll []).modeOk .ackAll (request .ackAll []) = false
      ∧ (request .ackAll []).body.length = ReqKind.ackAll.bodyLength
      ∧ (request .setAudible [1]).kind ∉ [0x10#8, 0x13#8, 0x16#8, 0x17#8] ∧ (s.stn 3).inProgress = none := by
  refine ⟨fun k => ?_, ?_⟩
  · cases k <;> decide
  · decide +kernel

theorem test_ring_refusal :
    let t := after (.setAudible 3) (sent State.reset 3 .setAudible [1])
    answer t 3 = [4#8] ∧ t.commandCapture.locked = true ∧ t.flagSet .commandFault = true ∧ t.faultLine = true := by
  decide +kernel

theorem witness_RangesRead :
    asked State.reset .readPoint [248, 8] = true ∧ asked State.reset .readPoint [249, 8] = true
      ∧ asked State.reset .readPoint [0, 0] = true ∧ asked State.reset .readPoint [0, 9] = true
      ∧ asked State.reset .readMap [240, 16] = true ∧ asked State.reset .readMap [0, 17] = true
      ∧ asked State.reset .readInput [255, 1] = true ∧ asked State.reset .readInput [255, 2] = true := by
  decide +kernel

/-- The Event Record with the records 5 and 6. -/
def twoRecords : State :=
  let d : RecordDraft := otherDraft ⟨0, 0, .set⟩ (.operator true) none
  { State.reset with
    log := { EventLog.powerOn with ring := [d.numbered 5, d.numbered 6], newest := 6, next := 7, archive := some 0 } }

theorem witness_StateRead :
    asked State.reset .readUnit [] = true ∧ asked State.reset .readPort [4] = true ∧ asked State.reset .readPort [3] = true
      ∧ asked twoRecords .readLog [0, 0, 0, 0, 8] = true ∧ asked twoRecords .readLog [0, 0, 0, 5, 9] = true
      ∧ asked twoRecords .readLog [0, 0, 0, 6, 8] = true ∧ (∃ r ∈ twoRecords.log.ring, r.seq = 6)
      ∧ asked twoRecords .readLog [0, 0, 0, 4, 1] = true ∧ (∀ r ∈ twoRecords.log.ring, r.seq ≠ 4)
      ∧ seqAfter twoRecords.log.newest 4 = false ∧ asked twoRecords .readLog [0, 0, 0, 7, 1] = true
      ∧ seqAfter twoRecords.log.newest 7 = true ∧ (∀ r ∈ twoRecords.log.ring, r.seq ≠ 7) ∧ State.reset.log.ring = []
      ∧ asked State.reset .readStatus [] = true := by
  decide +kernel

/-! ### Witnesses: configuration -/

/-- A configuration that makes a point a FIELD point of class 2. -/
def fieldConfig (parent : Option PointNo) : PointConfig :=
  { kind := .field, seqType := .ringback, cls := 2, subs := 9, ackRing := 1, parent := parent, firstOut := false }

/-- A chain of three links under point 9, and a GROUP point 20. -/
def chained : State :=
  let link := fun (s : State) (p g : PointNo) => withPoint s p { groupPoint with parent := some g }
  withPoint (withPoint (link (link (link State.reset 6 7) 7 8) 8 9) 9 groupPoint) 20 groupPoint

theorem witness_SetPointStores :
    asked State.reset .setPoint [255, 3, 0, 0, 0, 0, 0, 0, 0] = true
      ∧ (∀ c, ¬ (request .setPoint [255, 3, 0, 0, 0, 0, 0, 0, 0]).CarriesPoint 255 c)
      ∧ (request .setPoint [1, 1, 1, 2, 9, 1, 1, 10, 0]).CarriesPoint 1 (fieldConfig (some 10))
      ∧ asked State.reset .setPoint [1, 1, 1, 2, 9, 1, 1, 10, 0] = true
      ∧ (State.reset.pt 10).kind ≠ .group
      ∧ (request .setPoint [9, 1, 1, 2, 9, 1, 0, 33, 0]).CarriesPoint 9 (fieldConfig none)
      ∧ asked chained .setPoint [9, 1, 1, 2, 9, 1, 0, 33, 0] = true ∧ (chained.pt 8).parent = some 9
      ∧ (request .setPoint [1, 1, 1, 2, 9, 1, 1, 6, 0]).CarriesPoint 1 (fieldConfig (some 6))
      ∧ asked chained .setPoint [1, 1, 1, 2, 9, 1, 1, 6, 0] = true
      ∧ (chained.setPt 1 { chained.pt 1 with parent := none }).ancestor 3 6 = some 9 ∧ chained.chainRefused 1 6 = true
      ∧ (chained.setPt 9 { chained.pt 9 with parent := none }).ancestor 2 7 = some 9 ∧ chained.chainRefused 1 7 = false
      ∧ (request .setPoint [1, 1, 1, 2, 9, 1, 1, 7, 0]).CarriesPoint 1 (fieldConfig (some 7))
      ∧ asked chained .setPoint [1, 1, 1, 2, 9, 1, 1, 7, 0] = true := by
  refine ⟨?_, fun c h => ?_, ?_, ?_, ?_, ?_, ?_, ?_, ?_, ?_, ?_, ?_, ?_, ?_, ?_, ?_⟩
  any_goals decide +kernel
  · have h1 : (3 : Nat) = c.kind.code := h.2.1
    cases hk : c.kind <;> rw [hk] at h1 <;> exact absurd h1 (by decide)
  all_goals
    refine ⟨by decide, by decide, by decide, by decide, by decide, by decide, by decide, fun g h => ?_, by decide⟩
    simp only [fieldConfig, reduceCtorEq, Option.some.injEq] at h
    try (subst h; decide)

/-- A chain of four links, a cycle, and a chain of three. -/
theorem test_chain_of_four_refused :
    answer (after (.setPoint 0) (sent chained 0 .setPoint [1, 1, 1, 2, 9, 1, 1, 6, 0])) 0 = [8#8]
      ∧ answer (after (.setPoint 0) (sent chained 0 .setPoint [9, 2, 1, 2, 9, 1, 1, 7, 0])) 0 = [8#8]
      ∧ answer (after (.setPoint 0) (sent chained 0 .setPoint [1, 1, 1, 2, 9, 1, 1, 7, 0])) 0 = [0#8] := by
  decide +kernel

/-- CONFIG with point 5 a FIELD point. -/
def configured5 : State := withPoint State.reset 5 (fieldPoint .latch)

theorem witness_SettingsStored :
    asked configured5 .setMap [255, 2, 5, 0, 0, 0, 0] = true ∧ asked configured5 .setMap [255, 0, 5, 9, 9, 9, 9] = true
      ∧ asked configured5 .setMap [0, 1, 5, 1, 1, 1, 2] = true ∧ asked configured5 .setMap [0, 1, 6, 1, 1, 1, 1] = true
      ∧ (configured5.pt 6).kind ≠ .field ∧ asked configured5 .setMap [0, 1, 5, 1, 1, 1, 1] = true
      ∧ (configured5.pt 5).kind = .field ∧ asked State.reset .setLink [4] = true ∧ asked State.reset .setLink [100] = true
      ∧ asked State.reset .setRoute [11, 0, 0, 0] = true ∧ asked State.reset .setRoute [10, 3, 1, 7] = true
      ∧ Flag.commandFault.code.val = 10 ∧ asked State.reset .setAudible [8] = true ∧ asked State.reset .setAudible [255] = true
      ∧ asked State.reset .setAudible [7] = true := by
  decide +kernel

/-- The arguments of a SET_INPUTS that makes pair 31 of unit 3 complementary and sets window `w` and threshold `t`. -/
def inputArguments (w t d : Nat) : List Nat := [w, t, d, 0, 64, 8, 1] ++ List.replicate 12 0 ++ [0x80, 0, 0, 0]

theorem witness_SetInputsStores :
    asked State.reset .setInputs (inputArguments 60 30 255) = true ∧ asked State.reset .setInputs (inputArguments 61 30 255) = true
      ∧ asked State.reset .setInputs (inputArguments 1 3 1) = true ∧ State.reset.paired 127 = false
      ∧ (request .setInputs (inputArguments 1 3 1)).arg4 (7 + 4 * (127 / 32)) = 2147483648
      ∧ (State.reset.inp 254).level = (State.reset.inp 255).level ∧ State.reset.pairTimer 127 = none := by
  decide +kernel

theorem test_pair_made_complementary :
    let t := after (.setInputs 0) (sent State.reset 0 .setInputs (inputArguments 1 3 1))
    t.paired 127 = true ∧ t.pairTimer 127 = some 10 ∧ t.debounceTime 16 = 64 := by
  decide +kernel

/-- CONFIG with unit `u` in state `st`. -/
def unitInConfig (u : UnitNo) (st : UnitState) : State := { unitIn u st with mode := .config }

theorem witness_SetUnitStores :
    asked State.reset .setUnit [0, 1, 8] = true ∧ asked State.reset .setUnit [4, 1, 8] = true
      ∧ asked State.reset .setUnit [1, 1, 3] = true ∧ asked (unitInConfig 2 .online) .setUnit [3, 0, 64] = true
      ∧ asked (unitInConfig 2 .online) .setUnit [3, 1, 0] = true ∧ ((unitInConfig 2 .online).unit 2).state = .online
      ∧ asked (unitInConfig 1 .lost) .setUnit [2, 1, 8] = true := by
  decide +kernel

/-! ### Witnesses: operator requests -/

/-- RUN with point 5 a FIELD point of type `t` in sequence state `st`, its condition as an entry of input 0 gives it. -/
def pointAt (t : SeqType) (st : SeqState) (c : Condition) : State :=
  (withPoint running 5 { fieldPoint t with seqState := st, condition := c }).setEnt 0
    { entryFor 5 with appliedLevel := if c = .abnormal then .closed else .opened }

theorem witness_AcknowledgesOne :
    asked (pointAt .auto .alert .abnormal) .ackPoint [5, 2] = true ∧ asked (pointAt .auto .acked .abnormal) .ackPoint [5, 0] = true
      ∧ asked (pointAt .auto .alert .abnormal) .ackPoint [5, 0] = true ∧ ((pointAt .auto .alert .abnormal).pt 5).seqState = .alert
      ∧ ((pointAt .auto .alert .abnormal).pt 5).firstOut = false
      ∧ ((pointAt .auto .alert .abnormal).pt 5).quality = (pointAt .auto .alert .abnormal).fieldQuality 5
      ∧ ((pointAt .auto .alert .abnormal).pt 5).condition = (pointAt .auto .alert .abnormal).fieldCondition 5
      ∧ (∀ i, ((pointAt .auto .alert .abnormal).ent i).valid = true → ((pointAt .auto .alert .abnormal).ent i).point = some 5 →
          ((pointAt .auto .alert .abnormal).ent i).latch = false)
      ∧ asked (pointAt .latch .returnUnacked .normal) .ackPoint [5, 0] = true := by
  decide +kernel

/-- Point 5 in ALERT by the pulse latch of its entry alone, under first-out GROUP point 9 in ALERT, with port 0 attached. -/
def latched : State :=
  let s := withPoint running 5 { fieldPoint .auto with seqState := .alert, condition := .abnormal, parent := some 9 }
  let m := { entryFor 5 with mode := .pulse, latch := true }
  attached ((withPoint s 9 { groupPoint with seqState := .alert, condition := .abnormal, firstMember := some 5 }).setEnt 0 m) id

/-- The clearing of the latch takes the point on to NORMAL and its group to RETURN_UNACKED, with their records and notices. -/
theorem test_acknowledged_pulse :
    let t := after (.ackPoint 0) (sent latched 0 .ackPoint [5, 0])
    (t.pt 5).seqState = .normal ∧ (t.pt 5).condition = .normal ∧ (t.pt 9).seqState = .returnUnacked
      ∧ t.log.ring.map (fun r => (r.point, r.cause)) =
        [(some 5, some .ack), (some 5, some .latchClear), (some 9, some .member)]
      ∧ (t.dsp 0).queue.map (fun n => (n.content.identity, n.offered)) =
        [(.point 5, true), (.point 5, false), (.point 9, false)] := by
  decide +kernel

theorem witness_AcknowledgesOne_latch :
    let t := after (.ackPoint 0) (sent latched 0 .ackPoint [5, 0])
    let loose := withPoint latched 9 PointRec.powerOn
    asked latched .ackPoint [5, 0] = true ∧ (latched.pt 5).seqState = .alert ∧ latched.depth 4 5 ≤ 3
      ∧ t.fieldQuality 5 = .good ∧ t.fieldCondition 5 ≠ (latched.pt 5).condition ∧ (latched.pt 5).parent = some 9
      ∧ (latched.pt 9).kind = .group ∧ (loose.pt 5).parent = some 9 ∧ (loose.pt 9).kind ≠ .group
      ∧ (latched.dsp 0).state ≠ .detached ∧ (t.pt 5).subs.getLsbD 0 = true
      ∧ (t.pt 5).lastChange ≠ (latched.pt 5).lastChange := by
  decide +kernel

theorem witness_AcknowledgesMany :
    asked (pointAt .auto .alert .abnormal) .ackPoint [5, 1] = true ∧ asked (pointAt .auto .alert .abnormal) .ackClass [7] = true
      ∧ asked (pointAt .auto .alert .abnormal) .ackAll [] = true ∧ (pointAt .auto .alert .abnormal).onChain 5 3 5 = true
      ∧ asked running .ackAll [] = true ∧ (∀ x, (running.pt x).seqState ≠ .alert ∧ (running.pt x).seqState ≠ .returnUnacked)
      ∧ (0 : Ring) ≤ ((pointAt .auto .alert .abnormal).pt 5).ackRing := by
  decide +kernel

/-- RUN with point 5 in ALERT, ABNORMAL as its entry has it. -/
def alarmed : State := pointAt .auto .alert .abnormal

theorem pt_alarmed (x : PointNo) (h : x ≠ 5) : alarmed.pt x = PointRec.powerOn := by
  have : alarmed.pt x = State.reset.pt x := State.pt_setPt_of_ne _ _ h
  rw [this]
  simp [State.reset, State.powerOn, State.pt]

theorem ent_alarmed (i : InputNo) (h : i ≠ 0) : alarmed.ent i = MapEntry.powerOn := by
  have : alarmed.ent i = State.reset.ent i := State.ent_setEnt_of_ne _ _ h
  rw [this]
  simp [State.reset, State.powerOn, State.ent]

theorem upToDate_alarmed (x : PointNo) : alarmed.UpToDate x := by
  by_cases h : x = 5
  · subst h
    have hk : (alarmed.pt 5).kind = .field := by decide +kernel
    unfold State.UpToDate
    rw [hk]
    show (alarmed.pt 5).quality = _ ∧ ((alarmed.pt 5).quality = _ → (alarmed.pt 5).condition = _)
    decide +kernel
  · unfold State.UpToDate
    rw [pt_alarmed x h]
    trivial

theorem sound_alarmed : alarmed.HierarchySound := by
  have hp : ∀ x, (alarmed.pt x).parent = none := by
    intro x
    by_cases h : x = 5
    · subst h; decide +kernel
    · rw [pt_alarmed x h]; rfl
  refine ⟨fun p => ?_, fun p g h => ?_, fun i h => ?_⟩
  · simp [State.depth, hp]
  · rw [hp] at h; cases h
  · by_cases e : i = 0
    · subst e; exact ⟨5, by decide +kernel, by decide +kernel⟩
    · rw [ent_alarmed i e] at h; cases h

theorem witness_AcknowledgesMany_upToDate :
    (sent alarmed 0 .ackAll []).HierarchySound ∧ (∀ x, (sent alarmed 0 .ackAll []).UpToDate x)
      ∧ asked alarmed .ackAll [] = true ∧ (alarmed.pt 5).seqState = .alert ∧ alarmed.log.ring.length ≤ 1024 :=
  ⟨sound_alarmed, upToDate_alarmed, by decide +kernel, by decide +kernel, by decide⟩

/-- In RUN every point of it is in step, and a step can be taken. -/
theorem witness_HierarchyKept :
    ({ alarmed with pending := [.syncPulse] } : State).HierarchySound ∧ ({ alarmed with pending := [.syncPulse] } : State).PointsInStep
      ∧ ({ alarmed with pending := [.syncPulse] } : State).ClaimInConfig ∧ alarmed.mode = .run
      ∧ ∃ t, step { alarmed with pending := [.syncPulse] } = .next t :=
  ⟨sound_alarmed, fun _ => ⟨fun _ => upToDate_alarmed, fun h => nomatch h⟩, fun h => absurd rfl h, rfl, _, rfl⟩

theorem test_acknowledged_all :
    let t := after (.ackAll 0) (sent (pointAt .auto .alert .abnormal) 0 .ackAll [])
    answer t 0 = [0#8, 0#8, 1#8] ∧ (t.pt 5).seqState = .acked := by
  decide +kernel

theorem witness_ResetsPoints :
    asked running .ackClass [8] = true ∧ asked (pointAt .latch .acked .abnormal) .resetPoint [5] = true
      ∧ asked (pointAt .latch .acked .normal) .resetPoint [5] = true ∧ asked (pointAt .ringback .ringback .normal) .resetPoint [5] = true
      ∧ ((pointAt .ringback .ringback .normal).pt 5).seqType = .ringback
      ∧ ((pointAt .ringback .ringback .normal).pt 5).seqState = .ringback
      ∧ asked (pointAt .ringback .ringback .normal) .resetAll [] = true
      ∧ (∀ x, x ∈ [(5 : PointNo)] ↔ ((pointAt .ringback .ringback .normal).pt x).seqState = .ringback) := by
  decide +kernel

/-- `s` with point 5 in the service `v`. -/
def servedAs (s : State) (v : Service) (timer : Option Nat) : State :=
  s.setPt 5 { s.pt 5 with service := v, shelveTimer := timer }

theorem witness_LeavesService :
    asked (pointAt .auto .alert .abnormal) .shelve [5, 0, 0] = true ∧ asked (pointAt .auto .alert .abnormal) .shelve [5, 5, 0xA1] = true
      ∧ asked (pointAt .auto .alert .abnormal) .shelve [5, 5, 0xA0] = true ∧ (pointAt .auto .alert .abnormal).depth 4 5 ≤ 3
      ∧ asked running .shelve [5, 0, 1] = true ∧ (running.pt 5).kind = .spare
      ∧ asked (servedAs (pointAt .auto .normal .abnormal) .removed none) .remove [5] = true
      ∧ asked (servedAs (pointAt .auto .normal .abnormal) (.shelved ⟨0, 1, .set⟩) (some 9)) .shelve [5, 0, 1] = true
      ∧ asked (pointAt .auto .alert .abnormal) .remove [5] = true ∧ asked configured5 .remove [5] = true
      ∧ asked latched .shelve [5, 0, 1] = true ∧ latched.depth 4 5 ≤ 3 ∧ (latched.pt 5).parent = some 9
      ∧ (latched.pt 9).kind = .group := by
  decide +kernel

theorem witness_ReturnsToService :
    asked (pointAt .auto .alert .abnormal) .unshelve [5] = true
      ∧ asked (servedAs (pointAt .auto .normal .abnormal) (.shelved ⟨0, 1, .set⟩) (some 9)) .unshelve [5] = true
      ∧ asked (servedAs (pointAt .auto .normal .normal) .removed none) .restore [5] = true
      ∧ asked (servedAs configured5 .removed none) .restore [5] = true
      ∧ ((servedAs (pointAt .auto .normal .abnormal) (.shelved ⟨0, 1, .set⟩) (some 0)).pt 5).shelveTimer = some 0
      ∧ (servedAs (pointAt .auto .normal .abnormal) (.shelved ⟨0, 1, .set⟩) (some 0)).mode = .run
      ∧ (pointAt .auto .normal .abnormal).depth 4 5 ≤ 3
      ∧ asked (servedAs latched .removed none) .restore [5] = true
      ∧ ((servedAs latched .removed none).pt 5).parent = some 9 := by
  decide +kernel

theorem test_shelving_ends :
    let t := after (.shelveExpiry 5) (servedAs (pointAt .auto .normal .abnormal) (.shelved ⟨0, 1, .set⟩) (some 0))
    (t.pt 5).service = .inService ∧ (t.pt 5).seqState = .alert ∧ t.log.ring.length = 2 := by
  decide +kernel

/-- Port 0 attached, and the route of DONE_ERROR enabled to it with class 3. -/
def routed : State :=
  { attached running id with routes := running.routes.set Flag.doneError.code.val { port := 0, enable := true, cls := 3 } }

theorem witness_RecordedRequests :
    asked running .silence [] = true ∧ asked running .clearFlags [0, 0] = true ∧ asked running .clearFlags [8, 0] = true
      ∧ asked running .clearFlags [7, 255] = true ∧ asked running .testSource [11] = true ∧ asked running .testSource [10] = true
      ∧ asked running .clearFault [6] = true ∧ asked running .clearFault [0] = true ∧ asked running .clearFault [1] = true
      ∧ asked routed .testSource [6] = true ∧ asked { routed with flags := 2047 } .testSource [6] = true
      ∧ routed.flagSet .doneError = false ∧ (routed.route .doneError).enable = true
      ∧ (routed.dsp (routed.route .doneError).port).state ≠ .detached ∧ (running.route .doneError).enable = false := by
  decide +kernel

/-- The SYSTEM notice carries the record's number, and a flag that is set already places none. -/
theorem test_source_places_its_notice :
    let tested := fun s => after (.testSource 0) (sent s 0 .testSource [Flag.doneError.code.val])
    ((tested routed).dsp 0).queue.map (fun n => (n.cls, n.content)) = [(3, .system .doneError none none 1)]
      ∧ ((tested { routed with flags := 2047 }).dsp 0).queue = [] := by
  decide +kernel

/-! ### Witnesses: notice dispatch -/

/-- A full queue of offered notices. -/
def fullQueue : List Notice := (List.range 24).map fun n => notice (n + 1) false 1

theorem witness_NoticePlaced :
    (State.reset.dsp 0).state = .detached ∧ ((attached State.reset id).dsp 0).state ≠ .detached
      ∧ (∀ n ∈ ((attached State.reset id).dsp 0).queue, n.number ≠ 1)
      ∧ ((attached State.reset fun d => { d with queue := [notice 1 false 0] }).dsp 0).queue = [notice 1 false 0]
      ∧ (notice 1 false 0).content.identity = (NoticeContent.mode .config).identity
      ∧ 24 ≤ ((attached State.reset fun d => { d with queue := fullQueue }).dsp 0).queue.length
      ∧ (∀ n ∈ fullQueue, n.count ≠ 0) ∧ (1 : Port) ≠ 0 := by
  decide +kernel

/-- A number that a queued notice holds is passed over, from 65535 to 1 (R70). -/
theorem test_number_passed_over :
    let s := attached State.reset fun d => { d with queue := [notice 65535 false 1, notice 1 false 1], nextNumber := 65535 }
    let t := s.enqueue 0 .resync 0
    (t.dsp 0).queue.map Notice.number = [65535, 1, 2] ∧ (t.dsp 0).nextNumber = 3 := by
  decide +kernel

theorem test_overrun :
    let t := (attached State.reset fun d => { d with queue := fullQueue, polled := true }).place 0 .resync 0
    (t.dsp 0).resyncPending = true ∧ t.raisings.length = 1 ∧ (t.dsp 0).queue.length = 24 := by
  decide +kernel

theorem witness_NoticeSelected :
    Dispatch.powerOn.select = none
      ∧ ({ Dispatch.powerOn with queue := [notice 1 false 1, notice 2 false 0] } : Dispatch).select = some (notice 1 false 1)
      ∧ ({ Dispatch.powerOn with queue := [notice 1 true 1, notice 2 false 0], nesting := .openNest } : Dispatch).select
          = some (notice 2 false 0) := by
  decide +kernel

/-- Port 0 offering notice 4, with notice 65535 never offered behind it. -/
def offering : State :=
  attached running fun d => { d with queue := [notice 4 true 1, notice 65535 false 0], state := .offering, takeTimer := some 0 }

theorem witness_TakesNotice :
    asked offering .take [0, 0] = true ∧ asked State.reset .take [0, 1] = true ∧ (State.reset.dsp 0).state = .detached
      ∧ asked offering .take [255, 255] = true ∧ (request .take [255, 255]).arg2 0 = 65535
      ∧ (∀ n ∈ (offering.dsp 0).queue, n.number = 65535 → n.count = 0) ∧ asked offering .take [0, 4] = true
      ∧ (offering.dsp 0).queue = [] ++ notice 4 true 1 :: [notice 65535 false 0] ∧ 1 ≤ (notice 4 true 1).count
      ∧ (∀ m ∈ [notice 65535 false 0], m.number ≠ 4) ∧ (offering.dsp 0).state ≠ .detached := by
  decide +kernel

theorem test_taken :
    let t := after (.take 0) (sent offering 0 .take [0, 4])
    answer t 0 = [0#8] ∧ (t.dsp 0).inService = 4#8 ∧ (t.dsp 0).state = .idle ∧ (t.dsp 0).queue = [notice 65535 false 0] := by
  decide +kernel

theorem witness_PollsNotice :
    asked State.reset .poll [] = true ∧ asked (attached running id) .poll [] = true
      ∧ ((attached running id).dsp 0).select = none ∧ asked offering .poll [] = true
      ∧ ({ offering.dsp 0 with queue := (offering.dsp 0).queue.map fun n => { n with offered := false } } : Dispatch).select
          = some (notice 4 false 1) := by
  decide +kernel

/-- Port 0 attached with classes 0 and 7 in service. -/
def serving : State := attached running fun d => { d with inService := 0x81#8, rotation := .auto }

theorem witness_FinishesClass :
    asked State.reset .done [] = true ∧ asked (attached running id) .done [] = true
      ∧ ((attached running id).dsp 0).inService = 0 ∧ asked serving .doneClass [1, 0] = true
      ∧ (serving.dsp 0).inService.getLsbD 1 = false ∧ (serving.dsp 0).inService ≠ 0 ∧ asked serving .done [] = true
      ∧ (serving.dsp 0).inService.getLsbD 0 = true ∧ asked serving .doneClass [7, 1] = true
      ∧ (serving.dsp 0).inService.getLsbD 7 = true
      ∧ (∀ y : PClass, (serving.dsp 0).inService.getLsbD y.val = true → (0 + 7 - 7) % 8 ≤ (y.val + 7 - 7) % 8) := by
  decide +kernel

theorem witness_PortSettings :
    asked serving .doneClass [8, 0] = true ∧ asked serving .doneClass [7, 2] = true ∧ asked serving .setLowest [8] = true
      ∧ asked serving .setLowest [7] = true ∧ asked serving .setDispatch [255, 2, 0, 0, 0] = true
      ∧ asked offering .setDispatch [255, 1, 1, 1, 1] = true ∧ (offering.dsp 0).state = .offering
      ∧ asked serving .attach [] = true ∧ asked State.reset .attach [] = true ∧ (State.reset.dsp 0).queue = []
      ∧ asked State.reset .detach [] = true ∧ asked offering .detach [] = true := by
  decide +kernel

theorem witness_TakeTimerExpires :
    let spent := attached running fun d =>
      { d with queue := [notice 4 true 4], state := .offering, takeTimer := some 0, retries := 3 }
    offering.inReset = false ∧ offering.raisings = [] ∧ (offering.dsp 0).takeTimer = some 0
      ∧ (offering.dsp 0).queue = [] ++ notice 4 true 1 :: [notice 65535 false 0] ∧ (notice 4 true 1).offered = true
      ∧ (notice 4 true 1).count ≤ (offering.dsp 0).retries ∧ (spent.dsp 0).retries < (notice 4 true 4).count
      ∧ (spent.dsp 0).takeTimer = some 0 ∧ (spent.dsp 0).queue = [] ++ notice 4 true 4 :: [] := by
  decide +kernel

/-- Port 0 stalled on notice 4, with a later notice of its identity never offered. -/
def stalled : State :=
  attached running fun d => { d with queue := [notice 4 false 4, notice 9 false 0], state := .stalled, stalled := some 4 }

theorem witness_ClearFaultAtPort :
    asked offering .clearFault [2] = true ∧ (offering.dsp 0).state ≠ .stalled ∧ asked stalled .clearFault [2] = true
      ∧ (stalled.dsp 0).state = .stalled ∧ (stalled.dsp 0).stalled = some 4
      ∧ (stalled.dsp 0).queue = [] ++ notice 4 false 4 :: [notice 9 false 0]
      ∧ (∀ m ∈ [notice 9 false 0], m.number ≠ 4) ∧ (notice 9 false 0).content.identity = (notice 4 false 4).content.identity
      ∧ asked running .clearFault [5] = true := by
  decide +kernel

theorem test_stall_ends :
    let t := after (.clearFaultPort 0) (sent stalled 0 .clearFault [2])
    (t.dsp 0).state = .offering ∧ (t.dsp 0).queue = [notice 4 true 1] ∧ t.log.ring.length = 1 := by
  decide +kernel

theorem witness_SetPortStores :
    asked running .setPort [4, 0, 1, 0, 0] = true ∧ asked running .setPort [0, 1, 1, 0, 0] = true
      ∧ asked running .setPort [3, 3, 0, 7, 1] = true ∧ asked running .setPort [3, 3, 255, 7, 1] = true
      ∧ asked running .setPort [0, 0, 1, 0, 0] = true ∧ (running.stn 3).inProgress = none := by
  decide +kernel

/-! ### Witnesses: the Event Record, modes and invariants -/

theorem witness_LogSettings :
    asked twoRecords .setLog [4, 1, 0] = true ∧ asked twoRecords .setLog [255, 1, 0] = true
      ∧ asked twoRecords .setLog [3, 3, 0xF0] = true ∧ (request .setLog [3, 3, 0xF0]).arg2 1 = 1008
      ∧ asked twoRecords .confirmLog [0, 0, 0, 0] = true ∧ asked twoRecords .confirmLog [0, 0, 0, 6] = true
      ∧ asked State.reset .confirmLog [0, 0, 0, 1] = true ∧ twoRecords.log.archive = some 0 ∧ State.reset.log.archive ≠ some 0
      ∧ ¬ (6 = twoRecords.log.confirmed ∨ seqAfter 6 twoRecords.log.confirmed = true) ∧ 6 = twoRecords.log.newest
      ∧ asked twoRecords .confirmLog [0, 0, 0, 7] = true ∧ seqAfter 7 twoRecords.log.newest = false := by
  decide +kernel

/-- 256 records, none of them confirmed, with the archive at port 1 and LOG_HIGH clear. -/
def manyRecords : State :=
  let d : RecordDraft := otherDraft ⟨0, 0, .set⟩ (.operator true) none
  { State.reset with
    log := { EventLog.powerOn with
      ring := (List.range 256).map fun n => d.numbered (n + 1), newest := 256, next := 257, archive := some 1 } }

theorem witness_LogSettings_crossed :
    asked manyRecords .setLog [1, 1, 0] = true ∧ manyRecords.log.unconfirmed < manyRecords.log.threshold
      ∧ 256 ≤ (manyRecords.log.ring.filter fun r => seqAfter manyRecords.log.confirmed r.seq).length := by
  decide +kernel

/-- A ring of 1024 records, none of them confirmed, with the archive at port 1. -/
def fullRecord : State :=
  { manyRecords with
    log := { manyRecords.log with
      ring := (List.range 1024).map fun n => (otherDraft ⟨0, 0, .set⟩ (.operator true) none).numbered (n + 1)
      newest := 1024, next := 1025 } }

theorem witness_LogSettings_append :
    fullRecord.log.ring.length = 1024 ∧ manyRecords.log.ring.length < 1024 ∧ fullRecord.log.archive ≠ none
      ∧ fullRecord.log.ring.head?.map EventRecord.seq = some 1 ∧ seqAfter fullRecord.log.confirmed 1 = true := by
  refine ⟨by simp [fullRecord], by simp [manyRecords], by decide, by decide +kernel, by decide⟩

theorem witness_RecordKept :
    ({ twoRecords with pending := [.syncPulse] } : State).RecordInOrder ∧ (∀ r ∈ twoRecords.log.ring, r.seq ≤ 4294967295)
      ∧ ∃ t, step { twoRecords with pending := [.syncPulse] } = .next t ∧ t.log.archive ≠ none := by
  refine ⟨⟨by decide, ⟨by decide, trivial⟩, by decide, by decide⟩, by decide, _, rfl, by decide⟩

theorem witness_EntersRun :
    asked State.reset .enterRun [2] = true ∧ asked (State.reset.setEnt 65 (entryFor 5)) .enterRun [0] = true
      ∧ ((State.reset.setEnt 65 (entryFor 5)).ent 65).valid = true ∧ (State.reset.setEnt 65 (entryFor 5)).unfitted 65 = true
      ∧ (∀ j : InputNo, j < 65 → ((State.reset.setEnt 65 (entryFor 5)).ent j).valid = false)
      ∧ asked State.reset .enterRun [1] = true ∧ (∀ i, (State.reset.ent i).valid = false) := by
  decide +kernel

theorem pt_reset (p : PointNo) : State.reset.pt p = PointRec.powerOn := by
  simp [State.reset, State.powerOn, State.pt]

theorem ent_reset (i : InputNo) : State.reset.ent i = MapEntry.powerOn := by
  simp [State.reset, State.powerOn, State.ent]

theorem depth_reset (p : PointNo) : State.reset.depth 4 p = 0 := by
  simp [State.depth, pt_reset, PointRec.powerOn]

theorem witness_Evaluates :
    (∀ p, State.reset.depth 4 p ≤ 3) ∧ starting.inReset = false ∧ starting.raisings = [] ∧ starting.mode = .starting
      ∧ starting.evalPos = none ∧ ({ withPoint starting 5 (fieldPoint .auto) with evalPos := some 5 } : State).evalPos = some 5
      ∧ ({ withPoint starting 5 groupPoint with evalPos := some 5 } : State).evalPos = some 5 :=
  ⟨fun p => by rw [depth_reset]; decide, rfl, rfl, rfl, rfl, rfl, rfl⟩

theorem test_evaluated_field_point :
    let s := (withPoint starting 5 (fieldPoint .auto)).setEnt 0 { entryFor 5 with normal := .closed }
    let t := after .fieldPointEvaluation { s with evalPos := some 5 }
    (t.pt 5).seqState = .alert ∧ (t.pt 5).condition = .abnormal ∧ t.evalPos = some 6 ∧ t.log.ring.length = 1 := by
  decide +kernel

/-- CONFIG with the claim of an ENTER_CONFIG at port 1 waiting, its change of mode at millisecond 40. -/
def claimed : State :=
  { State.reset with engineClaim := some { port := 1, before := .run, restart := false, stamp := ⟨0, 40, .set⟩ } }

/-- The same with a request of port 0 that waits in progress, taken under ring 0. -/
def held (s : State) (f : Frame) : State :=
  s.setStn 0 { Station.powerOn 0 with inProgress := some { frame := f, stage := .waiting 0 ⟨0, 7, .set⟩ } }

/-- A request of port 0 that the Point Engine refuses RING, after port 2's request has been loaded in its stead. -/
def lateRefused : State :=
  let s := withPoint running 5 { fieldPoint .auto with ackRing := 1 }
  { s.setStn 0 { Station.powerOn 0 with
      inProgress := some { frame := request .ackPoint [5, 0], stage := .waiting 2 ⟨0, 7, .set⟩ } } with
    commandCapture :=
      { contents := some { port := 2, tag := 1#8, kind := 0x12#8, point := none, stamp := ⟨0, 9, .set⟩ }
        locked := false, multiple := false } }

/-- A late refusal RING locks the capture on the refused request's own load (R162). -/
theorem test_late_ring_refusal_locks_its_own_load :
    let t := after (.ackPoint 0) lateRefused
    answer t 0 = [4#8] ∧ t.commandCapture.locked = true
      ∧ t.commandCapture.contents
        = some { port := 0, tag := 7#8, kind := 0x10#8, point := some 5, stamp := ⟨0, 7, .set⟩ } := by
  decide +kernel

theorem witness_EntersConfig :
    asked running .enterConfig [] = true ∧ asked starting .enterConfig [] = true ∧ claimed.engineClaim ≠ none
      ∧ claimed.inReset = false ∧ claimed.raisings = []
      ∧ (sent claimed 0 .ackPoint [5, 0]).takeable 0 = some (request .ackPoint [5, 0])
      ∧ (sent claimed 0 .ackPoint [5, 0]).isRetransmission 0 (request .ackPoint [5, 0]) = false
      ∧ ReqKind.ackPoint.waitsForEngine = true ∧ ReqKind.ackPoint.checkedByEngine = true
      ∧ ReqKind.setAudible.waitsForEngine = true ∧ ReqKind.setAudible.checkedByEngine = false
      ∧ (sent claimed 0 .setAudible [8]).ringOk 0 .setAudible (request .setAudible [8]) = true
      ∧ (sent claimed 0 .setAudible [8]).modeOk .setAudible (request .setAudible [8]) = true
      ∧ (sent claimed 0 .setAudible [8]).argumentsOk .setAudible (request .setAudible [8]) = false
      ∧ (sent claimed 0 .setAudible [7]).argumentsOk .setAudible (request .setAudible [7]) = true
      ∧ ((held claimed (request .silence [])).stn 0).inProgress
          = some { frame := request .silence [], stage := .waiting 0 ⟨0, 7, .set⟩ }
      ∧ (held State.reset (request .silence [])).engineClaim = none
      ∧ (held State.reset (request .silence [])).modeOk .silence (request .silence []) = true
      ∧ (held starting (request .silence [])).modeOk .silence (request .silence []) = false
      ∧ (held running (request .ackPoint [5, 0])).ringOk 0 .ackPoint (request .ackPoint [5, 0]) = true
      ∧ lateRefused.engineClaim = none ∧ lateRefused.ringOk 0 .ackPoint (request .ackPoint [5, 0]) = false
      ∧ (request .readPoint [255, 1]).arg 1 = 1 := by
  decide +kernel

theorem test_request_waits_for_engine :
    let t := after (.silence 0) (sent claimed 0 .silence [])
    let u := after .enterConfigEngineClaim t
    answer t 0 = [] ∧ (t.stn 0).intake = [] ∧ answer u 0 = [] ∧ answer (after (.silence 0) u) 0 = [0#8] := by
  decide +kernel

theorem test_mode_record_has_time_of_change :
    let s := { claimed with msOfDay := 900, timeQuality := .set }
    (after .enterConfigEngineClaim s).log.ring.map EventRecord.stamp = [⟨0, 40, .set⟩] := by
  decide +kernel

/-- CONFIG with the ENTER_CONFIG claim of a request in progress at port 0, of the stage `st`. -/
def claiming (st : Stage) : State :=
  { State.reset.setStn 0 { Station.powerOn 0 with inProgress := some { frame := request .enterConfig [], stage := st } } with
    engineClaim := some { port := 0, before := .run, restart := false, stamp := ⟨0, 0, .set⟩ } }

theorem witness_EngineTakesClaim :
    (∀ st ∈ [Stage.enterConfig, .restartConfig .config, .restartConfig .run],
      (claiming st).inReset = false ∧ (claiming st).raisings = []
        ∧ (claiming st).engineClaim = some { port := 0, before := .run, restart := false, stamp := ⟨0, 0, .set⟩ }
        ∧ ((claiming st).stn 0).inProgress = some { frame := request .enterConfig [], stage := st })
      ∧ ((claiming .enterConfig).dsp 1).state = .detached
      ∧ ((attached (claiming .enterConfig) id).dsp 0).state ≠ .detached := by
  decide +kernel

theorem witness_Restarts :
    asked running .restart [] = true ∧ running.link.exchange = none ∧ (∀ u, (running.unit u).state ≠ .online)
      ∧ (running.unit 0).state = .notFitted
      ∧ asked (unitIn 0 .online) .restart [] = true ∧ ((unitIn 0 .online).unit 0).state = .online
      ∧ asked (waitingFor 0 .poll (unitIn 0 .online) 4) .restart [] = true
      ∧ (5 : InputNo) ∉ unitInputs 0 ∧ (∀ u : UnitNo, u ≠ 0 → ((unitIn 0 .online).unit u).state ≠ .online) := by
  decide +kernel

/-- CONFIG with a RESTART at port 0 that waits for its ENTER_RUN step. -/
def restarting : State :=
  State.reset.setStn 0 { Station.powerOn 0 with inProgress := some { frame := request .restart [], stage := .restartRun } }

theorem witness_RestartEntersRun :
    restarting.inReset = false ∧ restarting.raisings = [] ∧ restarting.engineClaim = none
      ∧ (restarting.stn 0).inProgress = some { frame := request .restart [], stage := .restartRun } ∧ restarting.mode = .config
      ∧ (∀ i, (restarting.ent i).valid = false) ∧ ({ restarting with mode := .run } : State).mode ≠ .config
      ∧ ((restarting.setEnt 64 (entryFor 5)).ent 64).valid = true ∧ (restarting.setEnt 64 (entryFor 5)).unfitted 64 = true := by
  decide +kernel

theorem witness_SequencesMove :
    let s := pointAt .latch .acked .abnormal
    (s.pt 5).seqType = .latch ∧ (s.pt 5).seqState = .acked ∧ (s.pt 5).condition = .abnormal ∧ (s.pt 5).service = .inService
      ∧ (s.pt 5).kind ≠ .spare
      ∧ (let r := (pointAt .auto .normal .normal).pt 5
         r.condition ≠ .abnormal ∧ r.service = .inService ∧ r.kind ≠ .spare
          ∧ seqTable r.seqType r.seqState r.condition .up = some .alert)
      ∧ ((servedAs (pointAt .auto .normal .normal) .removed none).pt 5).service ≠ .inService
      ∧ (running.pt 6).kind = .spare ∧ (running.pt 6).condition ≠ .abnormal := by
  decide +kernel

/-- Reset with a command waiting: a state that each invariant holds in, and that steps. -/
def waitingState : State := { State.reset with pending := [.pollCycleExpiry] }

theorem witness_invariants :
    waitingState.raisings = [] ∧ waitingState.Bounded ∧ waitingState.DetachedEmpty ∧ waitingState.RecordInOrder
      ∧ waitingState.QuietInConfig ∧ waitingState.HierarchySound ∧ waitingState.ScannerAgrees ∧ waitingState.QualityFormed
      ∧ waitingState.LostWhenNotOnline ∧ waitingState.ClockInRange ∧ claimed.ClaimInConfig ∧ claimed.engineClaim ≠ none
      ∧ ∃ t, step waitingState = .next t := by
  have hp : ∀ p, waitingState.pt p = PointRec.powerOn := pt_reset
  have he : ∀ i, waitingState.ent i = MapEntry.powerOn := ent_reset
  have hd : ∀ p, waitingState.depth 4 p = 0 := fun p => by simp [State.depth, hp, PointRec.powerOn]
  refine ⟨rfl, ⟨?_, ?_, ?_⟩, ?_, ⟨?_, trivial, rfl, rfl⟩, fun _ _ _ => ⟨fun p => ?_, fun i => ?_, rfl⟩,
    ⟨fun p => by rw [hd]; decide, fun p g h => ?_, fun i h => ?_⟩, ?_, ?_, ⟨?_, fun _ h => ?_⟩, ⟨by decide, by decide⟩, fun _ => rfl,
    by decide, _, rfl⟩
  · decide +kernel
  · decide +kernel
  · decide +kernel
  · unfold State.DetachedEmpty; decide +kernel
  · decide +kernel
  · rw [hp]; exact ⟨rfl, rfl, rfl, rfl⟩
  · rw [he]; rfl
  · rw [hp] at h; cases h
  · rw [he] at h; cases h
  · unfold State.ScannerAgrees; decide +kernel
  · unfold State.QualityFormed; decide +kernel
  · intro u _ i hi
    obtain ⟨l, hl, rfl⟩ := List.mem_map.1 hi
    have hb : l < 64 := List.mem_range.1 hl
    have h64 : 64 ≤ (remoteInput u l).val := by
      show 64 ≤ (64 * (u.val + 1) + l) % 256
      omega
    have hi : waitingState.inp (remoteInput u l) = InputRec.powerOn .opened true :=
      getElem_padEntries_ge (mapEntries (fun l => InputRec.powerOn l false) (Vector.replicate 64 .opened)) 192 _ _ h64
        (remoteInput u l).isLt
    rw [hi]; rfl
  · cases h

end Sys2Proof.Tests
end

section
/-! PROOFS. The pulse on the SYNC pin (R179): how `TimeStamp.addMs` and `TimeStamp.align` move the time of day, and what
SYNC_PULSE does with it. -/

namespace Sys2Proof.Machine

/-! ### The time of day -/

/-- Counted forward within the day. -/
theorem TimeStamp.addMs_within_day {t : TimeStamp} {n : Nat} (hday : t.day < 65536) (hms : t.ms + n < 86400000) :
    t.addMs n = { t with ms := t.ms + n } := by
  simp only [TimeStamp.addMs, Config.dayMs, Config.dayCount]
  rw [Nat.div_eq_of_lt hms, Nat.mod_eq_of_lt hms, Nat.add_zero, Nat.mod_eq_of_lt hday]

/-- Counted forward to midnight exactly: the next day begins, after day 65535 day 0. -/
theorem TimeStamp.addMs_to_midnight {t : TimeStamp} {n : Nat} (hms : t.ms + n = 86400000) :
    t.addMs n = { t with day := (t.day + 1) % 65536, ms := 0 } := by
  simp [TimeStamp.addMs, Config.dayMs, Config.dayCount, hms]

/-- R179, milliseconds 0 to 499: back to the start of the same second. -/
theorem TimeStamp.align_back {t : TimeStamp} (h : t.ms % 1000 ≤ 499) :
    t.align = { t with ms := t.ms - t.ms % 1000, quality := .synced } :=
  if_pos (Nat.lt_succ_of_le h)

/-- R179, milliseconds 500 to 999: forward to the start of the next second. -/
theorem TimeStamp.align_forward {t : TimeStamp} (h : 500 ≤ t.ms % 1000) :
    t.align = { t.addMs (1000 - t.ms % 1000) with quality := .synced } :=
  if_neg (Nat.not_lt.mpr h)

/-- Forward to a second of the same day. -/
theorem TimeStamp.align_within_day {t : TimeStamp} (hday : t.day < 65536) (h : 500 ≤ t.ms % 1000)
    (hms : t.ms + (1000 - t.ms % 1000) < 86400000) :
    t.align = { t with ms := t.ms + (1000 - t.ms % 1000), quality := .synced } := by
  rw [TimeStamp.align_forward h, TimeStamp.addMs_within_day hday hms]

/-- Forward to midnight. -/
theorem TimeStamp.align_to_midnight {t : TimeStamp} (h : 500 ≤ t.ms % 1000)
    (hms : t.ms + (1000 - t.ms % 1000) = 86400000) :
    t.align = { t with day := (t.day + 1) % 65536, ms := 0, quality := .synced } := by
  rw [TimeStamp.align_forward h, TimeStamp.addMs_to_midnight hms]

@[simp] theorem TimeStamp.align_quality (t : TimeStamp) : t.align.quality = .synced := by
  unfold TimeStamp.align
  dsimp only
  split <;> rfl

/-! ### SYNC_PULSE (R179) -/

theorem State.syncPulse_of_disabled {s : State} (h : s.syncEnable = false) : s.syncPulse = s := by
  simp [State.syncPulse, h]

theorem State.syncPulse_of_enabled {s : State} (h : s.syncEnable = true) :
    s.syncPulse = { s.setClock s.now.align with watchdog := some 1500 } := by
  simp [State.syncPulse, h, Config.watchdogMs]

theorem exec_syncPulse_of_live {s : State} (h : s.inReset = false) : exec .syncPulse s = .next s.syncPulse :=
  congrArg Host.Outcome.next (live_of h State.syncPulse)

/-- An enabled pulse touches the time of day, its quality and the watchdog, and no other field. -/
theorem State.syncPulse_frame {s : State} (h : s.syncEnable = true) :
    s.syncPulse = { s with
      day := s.now.align.day, msOfDay := s.now.align.ms, timeQuality := .synced, watchdog := some 1500 } := by
  rw [State.syncPulse_of_enabled h, State.setClock, TimeStamp.align_quality]

/-- Settles O6: the frame of an enabled pulse, then the aligned time in the three cases of R179. -/
theorem syncPulseAligns : Obligations.SyncPulseAligns := by
  intro s hlive ⟨hday, _⟩
  rw [exec_syncPulse_of_live hlive]
  refine ⟨fun hoff => ?disabled, fun hon => ⟨_, rfl, ?enabled⟩⟩
  case disabled => rw [State.syncPulse_of_disabled hoff]
  case enabled =>
    rw [State.syncPulse_frame hon]
    refine ⟨rfl, fun hback => ?back, fun hfwd hlt => ?withinDay, fun hfwd hmid => ?toMidnight⟩
    case back =>
      have hal := TimeStamp.align_back (t := s.now) hback
      exact ⟨congrArg TimeStamp.day hal, congrArg TimeStamp.ms hal⟩
    case withinDay =>
      have hal := TimeStamp.align_within_day (t := s.now) hday hfwd hlt
      exact ⟨congrArg TimeStamp.day hal, congrArg TimeStamp.ms hal⟩
    case toMidnight =>
      have hal := TimeStamp.align_to_midnight (t := s.now) hfwd hmid
      exact ⟨congrArg TimeStamp.day hal, congrArg TimeStamp.ms hal⟩

end Sys2Proof.Machine
end

section
/-! PROOFS. SET_PORT (R189): the values it carries, the ring check by the rows of Table 10-3, and the values stored at the
named port beside the answer at the port that asked. -/

namespace Sys2Proof.Machine

/-! ### The arguments of SET_PORT -/

theorem below_eq_some_iff {n x : Nat} {i : Fin n} : below n x = some i ↔ x = i.val := by
  refine ⟨fun h => ?_, fun h => ?_⟩
  · unfold below at h
    split at h
    · cases h; rfl
    · cases h
  · subst h
    exact dif_pos i.isLt

theorem choice_eq_some_iff {x : Nat} {b : Bool} : choice x = some b ↔ x = b.toNat := by
  unfold choice
  split
  case isTrue hno => cases b <;> simp [hno]
  case isFalse hno =>
    split
    case isTrue hyes => cases b <;> simp [hyes]
    case isFalse hyes => cases b <;> simp [hno, hyes]

/-- A SET_PORT whose values R189 refuses: one out of its range, or a ring other than 0 for S0. -/
def Frame.PortOutOfRange (f : Frame) : Prop :=
  3 < f.arg 0 ∨ 3 < f.arg 1 ∨ f.arg 2 = 0 ∨ 7 < f.arg 3 ∨ 1 < f.arg 4 ∨ f.arg 0 = 0 ∧ f.arg 1 ≠ 0

/-- A SET_PORT in range carries its values. -/
theorem Frame.portConfig_of_inRange {f : Frame} {q : Port} {r : Ring} (h : ¬ f.PortOutOfRange) (hq : f.arg 0 = q.val)
    (hr : f.arg 1 = r.val) :
    f.portConfig = some
      { port := q, ring := r, takeTimeout := 10 * f.arg 2, retries := f.arg 3, clearCount := decide (f.arg 4 = 1) } := by
  unfold Frame.PortOutOfRange at h
  have hport : below 4 (f.arg 0) = some q := below_eq_some_iff.mpr hq
  have hring : below 4 (f.arg 1) = some r := below_eq_some_iff.mpr hr
  have hclear : choice (f.arg 4) = some (decide (f.arg 4 = 1)) := by
    have hbit : f.arg 4 = 0 ∨ f.arg 4 = 1 := by omega
    obtain hno | hyes := hbit
    · simp [hno, choice]
    · simp [hyes, choice]
  have hrest : 1 ≤ f.arg 2 ∧ f.arg 3 ≤ 7 ∧ ¬ (q = 0 ∧ r ≠ 0) := by
    simp only [Fin.ext_iff, ne_eq, Fin.val_zero]
    omega
  simp only [Frame.portConfig, hport, hring, hclear, Option.bind_eq_bind, Option.bind_some, if_pos hrest, Option.pure_def]

/-- A SET_PORT that carries values is in range. -/
theorem Frame.inRange_of_portConfig {f : Frame} {c : PortConfig} (h : f.portConfig = some c) : ¬ f.PortOutOfRange := by
  simp only [Frame.portConfig, Option.bind_eq_bind, Option.bind_eq_some_iff, below_eq_some_iff, choice_eq_some_iff] at h
  obtain ⟨port, hport, ring, hring, clear, hclear, hrest⟩ := h
  split at hrest
  case isFalse => cases hrest
  case isTrue hin =>
    simp only [Fin.ext_iff, ne_eq, Fin.val_zero] at hin
    have := clear.toNat_le
    unfold Frame.PortOutOfRange
    omega

theorem Frame.portConfig_of_outOfRange {f : Frame} (h : f.PortOutOfRange) : f.portConfig = none :=
  Option.eq_none_iff_forall_ne_some.mpr fun _ hc => Frame.inRange_of_portConfig hc h

/-! ### The checks, by the rows of the request table (R188, R189) -/

/-- The ring rule that a row of the table states. -/
def RequestRow.ringRule (row : RequestRow) : RingRule :=
  if row.permission then .permitted row.ring else .atMost row.ring

theorem ringRule_of_row : ∀ row ∈ requestTable, row.kind.ringRule = row.ringRule := by decide

/-- A port with no request in progress is judged by its own ring. -/
theorem ringOk_iff_of_row {s : State} {p : Port} {row : RequestRow} (hrow : row ∈ requestTable)
    (hfree : (s.stn p).inProgress = none) (g : Frame) :
    s.ringOk p row.kind g = true ↔
      (s.stn p).ring ≤ row.ring ∧ (row.permission = true → (s.stn p).ring ≤ (s.pt (g.point 0)).ackRing) := by
  unfold State.ringOk
  rw [requestRing_of_free hfree, ringRule_of_row row hrow]
  cases hperm : row.permission <;> simp [RequestRow.ringRule, hperm, PointRec.permits]

/-- SET_PORT asks for ring 0 (R189). -/
theorem ringOk_setPort {s : State} {p : Port} (hfree : (s.stn p).inProgress = none) (f : Frame) :
    s.ringOk p .setPort f = true ↔ (s.stn p).ring = 0 := by
  have hrow : (⟨.setPort, 0x29, 5, 0, false, true, true, true⟩ : RequestRow) ∈ requestTable := by decide
  simpa using ringOk_iff_of_row hrow hfree f

/-- SET_PORT is accepted in every mode (R189). -/
theorem modeOk_setPort (s : State) (f : Frame) : s.modeOk .setPort f = true := rfl

/-! ### What the named port takes, and the answer -/

/-- The port named by a SET_PORT with the values stored. -/
def PortConfig.station (c : PortConfig) (t : Station) : Station :=
  { t with ring := c.ring, discards := if c.clearCount then 0 else t.discards }

/-- The Dispatch Controller of the port named, with the values stored. -/
def PortConfig.dispatch (c : PortConfig) (d : Dispatch) : Dispatch :=
  { d with takeTimeout := c.takeTimeout, retries := c.retries }

theorem State.storePort_eq (s : State) (c : PortConfig) :
    s.storePort c = (s.setStn c.port (c.station (s.stn c.port))).setDsp c.port (c.dispatch (s.dsp c.port)) := rfl

/-- An answer touches the port that asked, and nothing else. -/
theorem State.respond_eq (s : State) (p : Port) (f : Frame) (st : Status) (r : List Byte) :
    s.respond p f st r = s.setStn p ((s.stn p).replied f (responseBytes f st r)) := by
  unfold State.respond State.handResponse
  dsimp only
  rw [State.stn_setStn_self]
  cases htx : (s.stn p).tx <;> simp [Station.replied, htx, responseBytes]

/-- The answer reads neither ring nor discard count. -/
theorem PortConfig.replied_station (c : PortConfig) (t : Station) (f : Frame) (b : List Byte) :
    (c.station t).replied f b = c.station (t.replied f b) := by
  cases htx : t.tx <;> simp [Station.replied, PortConfig.station, htx]

theorem State.setStn_comm (s : State) {p q : Port} (h : q ≠ p) (a b : Station) :
    (s.setStn p a).setStn q b = (s.setStn q b).setStn p a := by
  have hne : p.val ≠ q.val := fun e => h (Fin.ext e.symm)
  simp [State.setStn, Vector.set_comm _ _ hne]

/-- Storing the values and answering commute, also where a port names itself. -/
theorem State.respond_storePort (s : State) (c : PortConfig) (p : Port) (f : Frame) (st : Status) (r : List Byte) :
    (s.storePort c).respond p f st r = (s.respond p f st r).storePort c := by
  simp only [State.respond_eq, State.storePort_eq, State.stn_setDsp, State.dsp_setStn]
  by_cases h : c.port = p
  · subst h
    simp [State.setStn, State.setDsp, State.stn, PortConfig.replied_station]
  · rw [State.stn_setStn_of_ne _ _ h, State.stn_setStn_of_ne _ _ (Ne.symm h), State.setStn_comm _ h]
    rfl

@[simp] theorem Station.answered_discards (t : Station) (f : Frame) (b : List Byte) :
    (t.answered f b).discards = t.discards := by
  unfold Station.answered
  split <;> rfl

@[simp] theorem State.answered_discards (s : State) (p q : Port) (f : Frame) (st : Status) (r : List Byte) :
    ((s.answered p f st r).stn q).discards = (s.stn q).discards := by
  by_cases h : p = q
  · subst h
    simp [State.answered, State.stn]
  · simp [State.answered, State.stn, Fin.val_ne_of_ne h]

/-! ### SET_PORT (R189) -/

theorem exec_setPort_of_takes {s : State} {p : Port} {f : Frame} (h : s.Takes p .setPort f) :
    exec (.setPort p) s = .next (((s.beginRequest p f).ownSetPort p f).settle) := by
  have hlive := live_of h.outOfReset fun s => s.runRequest p .setPort anyForm fun f t => t.ownSetPort p f
  exact congrArg Host.Outcome.next (hlive.trans (runRequest_of_takes h rfl _))

theorem exec_setPort_refused {s : State} {p : Port} {f : Frame} (h : s.Takes p .setPort f)
    (hbad : f.PortOutOfRange) : exec (.setPort p) s = .next (s.answered p f .badArgument []) := by
  rw [exec_setPort_of_takes h, State.ownSetPort, Frame.portConfig_of_outOfRange hbad]
  exact congrArg Host.Outcome.next (answered_settled h _ _)

theorem exec_setPort_stored {s : State} {p : Port} {f : Frame} {c : PortConfig} (h : s.Takes p .setPort f)
    (hc : f.portConfig = some c) : exec (.setPort p) s = .next ((s.answered p f .ok []).storePort c) := by
  rw [exec_setPort_of_takes h, State.ownSetPort, hc]
  dsimp only
  rw [State.respond_storePort, respond_beginRequest, settle_of_none]
  exact h.noRaising

/-- Settles O46: the answer is formed as if nothing were stored, and the values are stored beside it; the table's row gives
the ring check, at the port that asks and at the port named. -/
theorem setPortStores : Obligations.SetPortStores := by
  intro s p f
  refine ⟨modeOk_setPort s f, fun hfree => ringOk_setPort hfree f, fun h => ⟨exec_setPort_refused h, ?stored⟩⟩
  case stored =>
    intro q r hgood hq hr
    have hstored := exec_setPort_stored h (Frame.portConfig_of_inRange hgood hq hr)
    refine ⟨?next, fun hfree row hrow g => ?judged⟩
    case next =>
      rw [hstored, State.storePort_eq]
      simp only [PortConfig.station, PortConfig.dispatch, decide_eq_true_eq, State.answered_discards]
      rfl
    case judged =>
      rw [ringOk_iff_of_row hrow hfree, State.stn_setDsp, State.stn_setStn_self]
      rfl

end Sys2Proof.Machine
end

section
/-! PROOFS. What the Request Decoder can do (R184 to R188), said once, and the commands that leave alone the field path, the
link, the points, the map and the mode. -/

namespace Sys2Proof.Machine

/-! ### The Request Decoder -/

/-- From `s` to `t` the Request Decoders have done their own part alone: stations and the command capture record have moved,
raisings may have been handed on, and no intake has grown. -/
structure Decodes (s t : State) : Prop where
  rest : t = { s with commandCapture := t.commandCapture, stations := t.stations, raisings := t.raisings }
  intakes : ∀ p, (t.stn p).intake.length ≤ (s.stn p).intake.length

namespace Decodes

variable {s t u : State}

theorem refl (s : State) : Decodes s s := ⟨rfl, fun _ => le_rfl⟩

theorem trans (h : Decodes s t) (k : Decodes t u) : Decodes s u :=
  ⟨by rw [k.rest, h.rest], fun p => (k.intakes p).trans (h.intakes p)⟩

theorem setStn {p : Port} {a : Station} (h : a.intake.length ≤ (s.stn p).intake.length) : Decodes s (s.setStn p a) :=
  ⟨rfl, fun q => by
    rw [State.stn_setStn]
    split
    · next e => exact e ▸ h
    · exact le_rfl⟩

theorem capture (s : State) (c : CommandCapture) : Decodes s { s with commandCapture := c } := ⟨rfl, fun _ => le_rfl⟩

theorem handOn (s : State) (r : Raising) : Decodes s (s.handOn r) := ⟨rfl, fun _ => le_rfl⟩

theorem mode (h : Decodes s t) : t.mode = s.mode := by have e := congrArg State.mode h.rest; exact e

theorem engineClaim (h : Decodes s t) : t.engineClaim = s.engineClaim := by have e := congrArg State.engineClaim h.rest; exact e

theorem pending (h : Decodes s t) : t.pending = s.pending := by have e := congrArg State.pending h.rest; exact e

theorem inReset (h : Decodes s t) : t.inReset = s.inReset := by have e := congrArg State.inReset h.rest; exact e

theorem modeOk (h : Decodes s t) (k : ReqKind) (f : Frame) : t.modeOk k f = s.modeOk k f := by
  rw [h.rest]; rfl

end Decodes

theorem replied_intake (t : Station) (f : Frame) (b : List Byte) : (t.replied f b).intake = t.intake := by
  unfold Station.replied
  dsimp only
  split <;> rfl

theorem decodes_respond (s : State) (p : Port) (f : Frame) (st : Status) (r : List Byte) :
    Decodes s (s.respond p f st r) := by
  rw [State.respond_eq]
  exact Decodes.setStn (by rw [replied_intake])

theorem decodes_beginRequest (s : State) (p : Port) (f : Frame) : Decodes s (s.beginRequest p f) := by
  rw [beginRequest_eq]
  refine (Decodes.capture s _).trans (Decodes.setStn (s := { s with commandCapture := s.captured p f }) ?_)
  exact (s.stn p).intake.length_tail.trans_le (Nat.sub_le _ _)

theorem decodes_loadCommandAt (s : State) (t : TimeStamp) (p : Port) (f : Frame) :
    Decodes s (s.loadCommandAt t p f) := by
  rw [loadCommandAt_eq]
  exact Decodes.capture s _

theorem decodes_lockCommand (s : State) : Decodes s s.lockCommand := by
  unfold State.lockCommand
  split <;> exact Decodes.capture s _

theorem decodes_refuseFault (s : State) (p : Port) (f : Frame) (st : Status) (d : Detail) :
    Decodes s (s.refuseFault p f st d) :=
  ((decodes_lockCommand s).trans (decodes_respond _ _ _ _ _)).trans (Decodes.handOn _ _)

theorem decodes_setStage (s : State) (p : Port) (f : Frame) (st : Stage) : Decodes s (s.setStage p f st) :=
  Decodes.setStn le_rfl

theorem decodes_awaitOwner (s : State) (p : Port) (f : Frame) : Decodes s (s.awaitOwner p f) :=
  decodes_setStage _ _ _ _

/-- The checks 3 and 4: a refusal, or what follows them on a request that passes the mode check. -/
theorem checkRights_cases (s : State) (p : Port) (k : ReqKind) (f : Frame) (next : Frame → State → State) :
    Decodes s (s.checkRights p k f next) ∨ s.modeOk k f = true ∧ s.checkRights p k f next = next f s := by
  unfold State.checkRights
  split
  · exact .inl (decodes_refuseFault _ _ _ _ _)
  · split
    · exact .inl (decodes_respond _ _ _ _ _)
    · next hm => exact .inr ⟨by simpa using hm, rfl⟩

/-- The checks on a frame taken: a refusal or a wait, or the owner on a request that passes the mode check, where no
ENTER_CONFIG claim holds it back. -/
theorem checkRequest_cases (s : State) (p : Port) (k : ReqKind) (f : Frame) (owner : Frame → State → State) :
    Decodes s (s.checkRequest p k f owner) ∨
      s.modeOk k f = true ∧ (k.waitsForEngine = true → s.engineClaim = none)
        ∧ s.checkRequest p k f owner = owner f s := by
  unfold State.checkRequest
  split
  · exact .inl (decodes_refuseFault _ _ _ _ _)
  · split
    · refine .inl ?_
      split
      · exact decodes_awaitOwner _ _ _
      · obtain h | ⟨-, h⟩ := checkRights_cases s p k f fun f s =>
          if s.argumentsOk k f then s.awaitOwner p f else s.respond p f .badArgument []
        · exact h
        · rw [h]
          split
          · exact decodes_awaitOwner _ _ _
          · exact decodes_respond _ _ _ _ _
    · next hw =>
      refine (checkRights_cases s p k f owner).imp_right fun ⟨hm, he⟩ => ⟨hm, fun hk => ?_, he⟩
      simpa [hk] using hw

/-- The owner's taking of a request that has waited: a refusal, or the owner on a request that passes the mode check. -/
theorem ownerTakes_cases (s : State) (p : Port) (k : ReqKind) (f : Frame) (owner : Frame → State → State) :
    Decodes s (s.ownerTakes p k f owner) ∨
      ∃ u, Decodes s u ∧ u.modeOk k f = true ∧ s.ownerTakes p k f owner = owner f u := by
  unfold State.ownerTakes
  split
  · have hd : Decodes s (if s.ringOk p k f then s else s.loadCommandAt (s.takenAt p) p f) := by
      split
      · exact Decodes.refl s
      · exact decodes_loadCommandAt _ _ _ _
    obtain h | ⟨hm, h⟩ := checkRights_cases (if s.ringOk p k f then s else s.loadCommandAt (s.takenAt p) p f) p k f owner
    · exact .inl (hd.trans h)
    · exact .inr ⟨_, hd, hm, h⟩
  · split
    · exact .inl (decodes_respond _ _ _ _ _)
    · next hm => exact .inr ⟨s, Decodes.refl s, by simpa using hm, rfl⟩

/-- A request due at its owner waits for no claim. -/
theorem engineClaim_of_ownerDue {s : State} {p : Port} {f : Frame} (h : s.ownerDue p = some f) : s.engineClaim = none := by
  unfold State.ownerDue at h
  split at h
  · split at h
    · next e => exact e
    · cases h
  · cases h

/-- What a request row can do: nothing, the decoder's own part, or the owner's part behind it on a request that passes the
mode check and that no ENTER_CONFIG claim holds back; and then the raisings are handled. -/
theorem runRequest_cases (s : State) (p : Port) (k : ReqKind) (form : Frame → Bool) (owner : Frame → State → State) :
    s.runRequest p k form owner = s ∨
      ∃ u, Decodes s u ∧ (s.runRequest p k form owner = u.settle ∨
        ∃ f, u.modeOk k f = true ∧ (k.waitsForEngine = true → u.engineClaim = none)
          ∧ s.runRequest p k form owner = (owner f u).settle) := by
  unfold State.runRequest
  split
  · next f hdue =>
    split
    · refine .inr ?_
      obtain h | ⟨u, hd, hm, h⟩ := ownerTakes_cases s p k f owner
      · exact ⟨_, h, .inl rfl⟩
      · exact ⟨u, hd, .inr ⟨f, hm, fun _ => hd.engineClaim.trans (engineClaim_of_ownerDue hdue), by rw [h]⟩⟩
    · exact .inl rfl
  · next f _ _ =>
    split
    · refine .inr ?_
      have hb := decodes_beginRequest s p f
      obtain h | ⟨hm, hw, h⟩ := checkRequest_cases (s.beginRequest p f) p k f owner
      · exact ⟨_, hb.trans h, .inl rfl⟩
      · exact ⟨_, hb, .inr ⟨f, hm, hw, by rw [h]⟩⟩
    · exact .inl rfl
  · exact .inl rfl

/-- A property that the decoder's part and the handling of raisings keep, and the owner's part too, is kept by a request
row. -/
theorem runRequest_keeps {I : State → Prop} (hd : ∀ s t, Decodes s t → I s → I t) (hs : ∀ s, I s → I s.settle)
    {k : ReqKind} {owner : Frame → State → State}
    (ho : ∀ f u, u.modeOk k f = true → (k.waitsForEngine = true → u.engineClaim = none) → I u → I (owner f u))
    {s : State} (h : I s) (p : Port) (form : Frame → Bool) : I (s.runRequest p k form owner) := by
  obtain e | ⟨u, hu, e | ⟨f, hm, hw, e⟩⟩ := runRequest_cases s p k form owner <;> rw [e]
  · exact h
  · exact hs _ (hd _ _ hu h)
  · exact hs _ (ho f u hm hw (hd _ _ hu h))

/-! ### Commands apart from the field path, the link and the Point Engine -/

/-- From `s` to `t` nothing has moved at the field path, the link, the points, the map, the mode or the queue of commands. -/
structure Apart (s t : State) : Prop where
  rest : t = { s with
    dispatch := t.dispatch, log := t.log, flags := t.flags, routes := t.routes, stations := t.stations
    raisings := t.raisings, commandCapture := t.commandCapture, inputCapture := t.inputCapture
    audibleRequest := t.audibleRequest, audibleThreshold := t.audibleThreshold, day := t.day, msOfDay := t.msOfDay
    timeQuality := t.timeQuality, syncEnable := t.syncEnable, watchdog := t.watchdog
    freeCount := t.freeCount }

namespace Apart

variable {s t u : State}

theorem refl (s : State) : Apart s s := ⟨rfl⟩

theorem trans (h : Apart s t) (k : Apart t u) : Apart s u := ⟨by rw [k.rest, h.rest]⟩

theorem mode (h : Apart s t) : t.mode = s.mode := by have e := congrArg State.mode h.rest; exact e

theorem engineClaim (h : Apart s t) : t.engineClaim = s.engineClaim := by have e := congrArg State.engineClaim h.rest; exact e

theorem pending (h : Apart s t) : t.pending = s.pending := by have e := congrArg State.pending h.rest; exact e

theorem inReset (h : Apart s t) : t.inReset = s.inReset := by have e := congrArg State.inReset h.rest; exact e

theorem evalPos (h : Apart s t) : t.evalPos = s.evalPos := by have e := congrArg State.evalPos h.rest; exact e

theorem points (h : Apart s t) : t.points = s.points := by have e := congrArg State.points h.rest; exact e

theorem map (h : Apart s t) : t.map = s.map := by have e := congrArg State.map h.rest; exact e

theorem inputs (h : Apart s t) : t.inputs = s.inputs := by have e := congrArg State.inputs h.rest; exact e

theorem lines (h : Apart s t) : t.lines = s.lines := by have e := congrArg State.lines h.rest; exact e

theorem link (h : Apart s t) : t.link = s.link := by have e := congrArg State.link h.rest; exact e

theorem changeQueue (h : Apart s t) : t.changeQueue = s.changeQueue := by have e := congrArg State.changeQueue h.rest; exact e

theorem of_emits (h : OnlyEmits s t) : Apart s t := ⟨by rw [h.rest]⟩

theorem of_decodes (h : Decodes s t) : Apart s t := ⟨by rw [h.rest]⟩

theorem ite {c : Prop} [Decidable c] (h : Apart s t) (k : Apart s u) : Apart s (if c then t else u) := by
  split
  · exact h
  · exact k

theorem settle (h : Apart s t) : Apart s t.settle := h.trans (of_emits (onlyEmits_settle t))

theorem respond (h : Apart s t) (p : Port) (f : Frame) (st : Status) (r : List Byte) : Apart s (t.respond p f st r) :=
  h.trans (of_decodes (decodes_respond t p f st r))

theorem append (h : Apart s t) (b : Bool) (d : RecordDraft) : Apart s (t.append b d) :=
  h.trans (of_emits (onlyEmits_append t b d))

theorem testOffer (h : Apart s t) (p : Port) : Apart s (t.testOffer p) := h.trans (of_emits (onlyEmits_testOffer t p))

theorem enqueue (h : Apart s t) (p : Port) (c : NoticeContent) (k : PClass) : Apart s (t.enqueue p c k) :=
  h.trans (of_emits (onlyEmits_enqueue t p c k))

theorem setDsp (h : Apart s t) (p : Port) (d : Dispatch) : Apart s (t.setDsp p d) := h.trans ⟨rfl⟩

theorem setStn (h : Apart s t) (p : Port) (a : Station) : Apart s (t.setStn p a) := h.trans ⟨rfl⟩

theorem handOn (h : Apart s t) (r : Raising) : Apart s (t.handOn r) := h.trans ⟨rfl⟩

theorem withdraw (h : Apart s t) (p : Port) : Apart s (t.withdraw p) := h.trans ⟨rfl⟩

theorem respondThenOffer (h : Apart s t) (p : Port) (f : Frame) (st : Status) (r : List Byte) :
    Apart s (t.respondThenOffer p f st r) := (h.respond p f st r).testOffer p

theorem handResponse (h : Apart s t) (p : Port) (b : List Byte) : Apart s (t.handResponse p b) := by
  unfold State.handResponse
  dsimp only
  split <;> exact h.setStn _ _

theorem testResync (h : Apart s t) (p : Port) : Apart s (t.testResync p) := by
  unfold State.testResync
  exact ite ((h.setDsp _ _).enqueue _ _ _) h

theorem flushPort (h : Apart s t) (p : Port) (st : DispatchState) : Apart s (t.flushPort p st) :=
  (h.setDsp _ _).withdraw p

end Apart

section Owners

variable (s : State) (p : Port) (f : Frame)

theorem apart_takeExpired : Apart s (s.takeExpired p) := by
  unfold State.takeExpired
  dsimp only
  split
  · exact .refl s
  · split
    · exact (Apart.refl s).setDsp _ _ |>.testOffer _
    · exact (Apart.refl s).setDsp _ _ |>.handOn _

theorem apart_takeNotice (n : Notice) : Apart s (s.takeNotice p n) := by
  unfold State.takeNotice
  exact .ite (((Apart.refl s).setDsp _ _).withdraw _) (.ite ((Apart.refl s).setDsp _ _) ((Apart.refl s).setDsp _ _))

theorem apart_pollNotice (n : Notice) : Apart s (s.pollNotice p n) := ((Apart.refl s).setDsp _ _).withdraw _

theorem apart_ownTake : Apart s (s.ownTake p f) := by
  unfold State.ownTake
  have h := Apart.refl s
  refine .ite (h.respond ..) (.ite (h.respond ..) ?_)
  split
  · exact h.respond ..
  · exact ((apart_takeNotice s p _).testResync p).respondThenOffer ..

theorem apart_ownPoll : Apart s (s.ownPoll p f) := by
  unfold State.ownPoll
  have h := Apart.refl s
  refine .ite (h.respond ..) ?_
  split
  · exact h.respond ..
  · exact ((apart_pollNotice s p _).testResync p).respondThenOffer ..

theorem apart_refuseDone (st : Status) : Apart s (s.refuseDone p f st) := ((Apart.refl s).respond ..).handOn _

theorem apart_ownDone : Apart s (s.ownDone p f) := by
  unfold State.ownDone
  have h := Apart.refl s
  refine .ite (h.respond ..) ?_
  split
  · exact apart_refuseDone s p f _
  · exact (h.setDsp _ _).respondThenOffer ..

theorem apart_ownDoneClass : Apart s (s.ownDoneClass p f) := by
  unfold State.ownDoneClass
  have h := Apart.refl s
  dsimp only
  split
  · refine .ite (h.respond ..) (.ite (apart_refuseDone ..) (.ite (apart_refuseDone ..) ?_))
    exact (h.setDsp _ _).respondThenOffer ..
  · exact h.respond ..

theorem apart_ownSetLowest : Apart s (s.ownSetLowest p f) := by
  unfold State.ownSetLowest
  split
  · exact (Apart.refl s).respond ..
  · exact ((Apart.refl s).setDsp _ _).respondThenOffer ..

theorem apart_ownSetDispatch : Apart s (s.ownSetDispatch p f) := by
  unfold State.ownSetDispatch State.storeDispatch
  have h := Apart.refl s
  split
  · exact h.respond ..
  · exact (Apart.ite ((h.setDsp _ _).withdraw _) (h.setDsp _ _)).respondThenOffer ..

theorem apart_ownAttach : Apart s (s.ownAttach p f) := by
  unfold State.ownAttach
  have h := Apart.refl s
  exact .ite (((h.setDsp _ _).enqueue _ _ _).respondThenOffer ..) (h.respond ..)

theorem apart_ownDetach : Apart s (s.ownDetach p f) := by
  unfold State.ownDetach
  have h := Apart.refl s
  exact .ite (h.respond ..) ((h.flushPort _ _).respond ..)

theorem apart_ownClearFaultPort : Apart s (s.ownClearFaultPort p f) := by
  unfold State.ownClearFaultPort
  have h := Apart.refl s
  split
  · exact h.respond ..
  · exact (((h.setDsp _ _).append _ _).respond ..).testOffer _

theorem apart_ownSetPort : Apart s (s.ownSetPort p f) := by
  unfold State.ownSetPort
  have h := Apart.refl s
  split
  · exact h.respond ..
  · exact ((h.setStn _ _).setDsp _ _).respond ..

theorem apart_ownReadPort : Apart s (s.ownReadPort p f) := by
  unfold State.ownReadPort
  split <;> exact (Apart.refl s).respond ..

theorem apart_frameEnded : Apart s (s.frameEnded p) := by
  unfold State.frameEnded State.startTakeTimer
  have h := (Apart.refl s).setStn p (s.stn p).nextFrame
  dsimp only
  split
  · exact .refl s
  · exact h
  · exact (Apart.ite (h.setDsp _ _) h).testOffer _

theorem apart_answerFromCache : Apart s (s.answerFromCache p) := by
  unfold State.answerFromCache
  have h := Apart.refl s
  split
  · exact .ite ((h.setStn _ _).handResponse _ _) h
  · exact h

theorem apart_refuseUnknown : Apart s (s.refuseUnknown p) := by
  unfold State.refuseUnknown
  split
  · exact .refl s
  · refine .ite (Apart.settle (.of_decodes ?_)) (.refl s)
    exact (decodes_beginRequest ..).trans (decodes_refuseFault ..)

theorem apart_ownSetLog : Apart s (s.ownSetLog p f) := by
  unfold State.ownSetLog
  have h := Apart.refl s
  dsimp only
  split
  · exact h.respond ..
  · next a _ =>
    have hl : Apart s { s with log := s.log.configured a (f.arg2 1) } := ⟨rfl⟩
    exact .ite ((hl.trans (.of_emits (onlyEmits_testLogHigh ..))).respond ..) (h.respond ..)

theorem apart_ownConfirmLog : Apart s (s.ownConfirmLog p f) := by
  unfold State.ownConfirmLog
  have h := Apart.refl s
  have hl : Apart s { s with log := { s.log with confirmed := f.arg4 0 } } := ⟨rfl⟩
  exact .ite (h.respond ..) (.ite (h.respond ..) (.ite (h.respond ..) (.ite (hl.respond ..) (h.respond ..))))

theorem apart_ownReadLog : Apart s (s.ownReadLog p f) := by
  unfold State.ownReadLog
  exact .ite ((Apart.refl s).respond ..) ((Apart.refl s).respond ..)

theorem apart_ownSetRoute : Apart s (s.ownSetRoute p f) := by
  unfold State.ownSetRoute
  split
  · next g q e c _ _ _ _ =>
    have hl : Apart s (s.setRoute g { port := q, enable := e, cls := c }) := ⟨rfl⟩
    exact hl.respond ..
  · exact (Apart.refl s).respond ..

theorem apart_ownClearFlags : Apart s (s.ownClearFlags p f) := by
  unfold State.ownClearFlags
  have hl : Apart s { s with flags := s.flags &&& ~~~ BitVec.ofNat 11 (f.arg2 0) } := ⟨rfl⟩
  exact .ite ((Apart.refl s).respond ..) ((hl.append _ _).respond ..)

theorem apart_ownTestSource : Apart s (s.ownTestSource p f) := by
  unfold State.ownTestSource
  split
  · exact (Apart.refl s).respond ..
  · exact ((Apart.refl s).respond ..).handOn _

theorem apart_ownClearFault : Apart s (s.ownClearFault p f) := by
  unfold State.ownClearFault State.recordClearFault
  have hc (c : CommandCapture) : Apart s { s with commandCapture := c } := ⟨rfl⟩
  have hi (c : InputCapture) : Apart s { s with inputCapture := c } := ⟨rfl⟩
  exact .ite (((hc _).append _ _).respond ..) (.ite (((hi _).append _ _).respond ..) ((Apart.refl s).respond ..))

theorem apart_ownSetTime : Apart s (s.ownSetTime p f) := by
  unfold State.ownSetTime
  have h := Apart.refl s
  dsimp only
  split
  · exact h.respond ..
  · next b _ =>
    have hl : Apart s { s.setClock { day := f.arg2 0, ms := f.arg4 2, quality := .set } with
        syncEnable := b, watchdog := if b then some Config.watchdogMs else none } := ⟨rfl⟩
    exact .ite ((hl.append _ _).respond ..) (h.respond ..)

theorem apart_ownSilence : Apart s (s.ownSilence p f) := by
  have hl : Apart s { s with audibleRequest := false } := ⟨rfl⟩
  exact (hl.append _ _).respond ..

theorem apart_ownSetAudible : Apart s (s.ownSetAudible p f) := by
  unfold State.ownSetAudible
  split
  · exact (Apart.refl s).respond ..
  · next t _ =>
    have hl : Apart s { s with audibleThreshold := t } := ⟨rfl⟩
    exact hl.respond ..

theorem apart_ownReadPoint : Apart s (s.ownReadPoint p f) := by
  unfold State.ownReadPoint
  split <;> exact (Apart.refl s).respond ..

theorem apart_ownReadMap : Apart s (s.ownReadMap p f) := by
  unfold State.ownReadMap
  split <;> exact (Apart.refl s).respond ..

theorem apart_ownReadInput : Apart s (s.ownReadInput p f) := by
  unfold State.ownReadInput
  exact .ite ((Apart.refl s).respond ..) ((Apart.refl s).respond ..)

theorem apart_syncPulse : Apart s s.syncPulse := by
  unfold State.syncPulse
  exact .ite ⟨rfl⟩ (.refl s)

theorem apart_syncLost : Apart s s.syncLost := by
  unfold State.syncLost
  exact Apart.handOn ⟨rfl⟩ _

/-- A request row whose owner keeps apart keeps apart. -/
theorem apart_runRequest {k : ReqKind} {form : Frame → Bool} {owner : Frame → State → State}
    (ho : ∀ f u, Apart u (owner f u)) : Apart s (s.runRequest p k form owner) := by
  refine runRequest_keeps (I := Apart s) (fun _ _ hd h => h.trans (.of_decodes hd)) (fun _ h => h.settle) ?_ (.refl s) p form
  exact fun f u _ _ h => h.trans (ho f u)

end Owners

theorem apart_live {f : State → State} {s : State} (h : Apart s (f s)) : Apart s (s.live f) := .ite (.refl s) h

/-- The commands that leave the field path, the link, the points, the map and the mode alone. -/
def keepsApart : Instr → Bool
  | .syncPulse | .syncWatchdogExpiry | .takeTimerExpiry _ | .stationFrameReceived _ _ | .stationGapExpiry _
  | .frameEnd _ | .retransmission _ | .unknownKind _ | .readPoint _ | .readMap _ | .readInput _ | .readUnit _
  | .silence _ | .setAudible _ | .take _ | .poll _ | .done _ | .doneClass _ | .setLowest _ | .setDispatch _
  | .attach _ | .detach _ | .readPort _ | .setPort _ | .setLog _ | .confirmLog _ | .readLog _ | .setRoute _
  | .clearFlags _ | .testSource _ | .clearFault _ | .clearFaultPort _ | .readStatus _ | .setTime _
  | .stationFrameDiscarded _ _ => true
  | _ => false

theorem exec_apart {c : Instr} (hc : keepsApart c = true) (s : State) : ∃ t, exec c s = .next t ∧ Apart s t := by
  cases c
  case syncPulse => exact ⟨_, rfl, apart_live (apart_syncPulse s)⟩
  case syncWatchdogExpiry => exact ⟨_, rfl, apart_live (.ite (apart_syncLost s).settle (.refl s))⟩
  case takeTimerExpiry p => exact ⟨_, rfl, apart_live (.ite (apart_takeExpired s p).settle (.refl s))⟩
  case stationFrameReceived p l => exact ⟨_, rfl, apart_live ((Apart.refl s).setStn p _)⟩
  case stationFrameDiscarded p l => exact ⟨_, rfl, apart_live ((Apart.refl s).setStn p _)⟩
  case stationGapExpiry p => exact ⟨_, rfl, apart_live ((Apart.refl s).setStn p _)⟩
  case frameEnd p => exact ⟨_, rfl, apart_live (apart_frameEnded s p).settle⟩
  case retransmission p => exact ⟨_, rfl, apart_live (apart_answerFromCache s p)⟩
  case unknownKind p => exact ⟨_, rfl, apart_live (apart_refuseUnknown s p)⟩
  case readPoint p => exact ⟨_, rfl, apart_live (apart_runRequest s p fun f u => apart_ownReadPoint u p f)⟩
  case readMap p => exact ⟨_, rfl, apart_live (apart_runRequest s p fun f u => apart_ownReadMap u p f)⟩
  case readInput p => exact ⟨_, rfl, apart_live (apart_runRequest s p fun f u => apart_ownReadInput u p f)⟩
  case readUnit p => exact ⟨_, rfl, apart_live (apart_runRequest s p fun f u => (Apart.refl u).respond p f _ _)⟩
  case silence p => exact ⟨_, rfl, apart_live (apart_runRequest s p fun f u => apart_ownSilence u p f)⟩
  case setAudible p => exact ⟨_, rfl, apart_live (apart_runRequest s p fun f u => apart_ownSetAudible u p f)⟩
  case take p => exact ⟨_, rfl, apart_live (apart_runRequest s p fun f u => apart_ownTake u p f)⟩
  case poll p => exact ⟨_, rfl, apart_live (apart_runRequest s p fun f u => apart_ownPoll u p f)⟩
  case done p => exact ⟨_, rfl, apart_live (apart_runRequest s p fun f u => apart_ownDone u p f)⟩
  case doneClass p => exact ⟨_, rfl, apart_live (apart_runRequest s p fun f u => apart_ownDoneClass u p f)⟩
  case setLowest p => exact ⟨_, rfl, apart_live (apart_runRequest s p fun f u => apart_ownSetLowest u p f)⟩
  case setDispatch p => exact ⟨_, rfl, apart_live (apart_runRequest s p fun f u => apart_ownSetDispatch u p f)⟩
  case attach p => exact ⟨_, rfl, apart_live (apart_runRequest s p fun f u => apart_ownAttach u p f)⟩
  case detach p => exact ⟨_, rfl, apart_live (apart_runRequest s p fun f u => apart_ownDetach u p f)⟩
  case readPort p => exact ⟨_, rfl, apart_live (apart_runRequest s p fun f u => apart_ownReadPort u p f)⟩
  case setPort p => exact ⟨_, rfl, apart_live (apart_runRequest s p fun f u => apart_ownSetPort u p f)⟩
  case setLog p => exact ⟨_, rfl, apart_live (apart_runRequest s p fun f u => apart_ownSetLog u p f)⟩
  case confirmLog p => exact ⟨_, rfl, apart_live (apart_runRequest s p fun f u => apart_ownConfirmLog u p f)⟩
  case readLog p => exact ⟨_, rfl, apart_live (apart_runRequest s p fun f u => apart_ownReadLog u p f)⟩
  case setRoute p => exact ⟨_, rfl, apart_live (apart_runRequest s p fun f u => apart_ownSetRoute u p f)⟩
  case clearFlags p => exact ⟨_, rfl, apart_live (apart_runRequest s p fun f u => apart_ownClearFlags u p f)⟩
  case testSource p => exact ⟨_, rfl, apart_live (apart_runRequest s p fun f u => apart_ownTestSource u p f)⟩
  case clearFault p => exact ⟨_, rfl, apart_live (apart_runRequest s p fun f u => apart_ownClearFault u p f)⟩
  case clearFaultPort p => exact ⟨_, rfl, apart_live (apart_runRequest s p fun f u => apart_ownClearFaultPort u p f)⟩
  case readStatus p => exact ⟨_, rfl, apart_live (apart_runRequest s p fun f u => (Apart.refl u).respond p f _ _)⟩
  case setTime p => exact ⟨_, rfl, apart_live (apart_runRequest s p fun f u => apart_ownSetTime u p f)⟩
  all_goals cases hc

end Sys2Proof.Machine
end

section
/-! PROOFS. The frames of the commands that act on the points and the map alone, and of those that act on the field path and
the link alone; and that no command stops the machine (R186, log 2). -/

namespace Sys2Proof.Machine

/-! ### The Point Engine's side -/

/-- From `s` to `t` nothing has moved but what `Apart` allows and the points and the map. -/
structure EngineSide (s t : State) : Prop where
  rest : t = { s with
    points := t.points, map := t.map
    dispatch := t.dispatch, log := t.log, flags := t.flags, routes := t.routes, stations := t.stations
    raisings := t.raisings, commandCapture := t.commandCapture, inputCapture := t.inputCapture
    audibleRequest := t.audibleRequest, audibleThreshold := t.audibleThreshold, day := t.day, msOfDay := t.msOfDay
    timeQuality := t.timeQuality, syncEnable := t.syncEnable, watchdog := t.watchdog
    freeCount := t.freeCount }

namespace EngineSide

variable {s t u : State}

theorem refl (s : State) : EngineSide s s := ⟨rfl⟩

theorem trans (h : EngineSide s t) (k : EngineSide t u) : EngineSide s u := ⟨by rw [k.rest, h.rest]⟩

theorem of_apart (h : Apart s t) : EngineSide s t := ⟨by rw [h.rest]⟩

theorem of_moves {P S : PointNo → Prop} (h : Moves s t P S) : EngineSide s t := ⟨by rw [h.emits.rest]⟩

theorem ite {c : Prop} [Decidable c] (h : EngineSide s t) (k : EngineSide s u) :
    EngineSide s (if c then t else u) := by
  split
  · exact h
  · exact k

theorem apart (h : EngineSide s t) (k : Apart t u) : EngineSide s u := h.trans (of_apart k)

theorem moves {P S : PointNo → Prop} (h : EngineSide s t) (k : Moves t u P S) : EngineSide s u := h.trans (of_moves k)

theorem respond (h : EngineSide s t) (p : Port) (f : Frame) (st : Status) (r : List Byte) :
    EngineSide s (t.respond p f st r) := h.apart ((Apart.refl t).respond p f st r)

theorem settle (h : EngineSide s t) : EngineSide s t.settle := h.apart (Apart.refl t).settle

theorem mode (h : EngineSide s t) : t.mode = s.mode := by have e := congrArg State.mode h.rest; exact e

theorem engineClaim (h : EngineSide s t) : t.engineClaim = s.engineClaim := by have e := congrArg State.engineClaim h.rest; exact e

theorem pending (h : EngineSide s t) : t.pending = s.pending := by have e := congrArg State.pending h.rest; exact e

theorem inReset (h : EngineSide s t) : t.inReset = s.inReset := by have e := congrArg State.inReset h.rest; exact e

theorem evalPos (h : EngineSide s t) : t.evalPos = s.evalPos := by have e := congrArg State.evalPos h.rest; exact e

theorem inputs (h : EngineSide s t) : t.inputs = s.inputs := by have e := congrArg State.inputs h.rest; exact e

theorem lines (h : EngineSide s t) : t.lines = s.lines := by have e := congrArg State.lines h.rest; exact e

theorem link (h : EngineSide s t) : t.link = s.link := by have e := congrArg State.link h.rest; exact e

theorem changeQueue (h : EngineSide s t) : t.changeQueue = s.changeQueue := by have e := congrArg State.changeQueue h.rest; exact e

end EngineSide

theorem engineSide_ackList (s : State) (c : Claim) (r : Ring) (l : List PointNo) : EngineSide s (s.ackList c r l).1 := by
  have step (acc : State × Nat) : EngineSide acc.1 (l.foldl (offerAck c r) acc).1 := by
    induction l generalizing acc with
    | nil => exact .refl _
    | cons p l ih =>
      refine EngineSide.trans ?_ (ih _)
      unfold offerAck
      split
      · exact .of_moves (moves_acknowledge (S := fun _ => False) acc.1 c p)
      · exact .refl _
  exact step (s, 0)

theorem engineSide_resetAll (c : Claim) (r : Ring) (l : List PointNo) (acc : State × Nat) :
    EngineSide acc.1 (l.foldl (offerReset c r) acc).1 := by
  induction l generalizing acc with
  | nil => exact .refl _
  | cons p l ih =>
    refine EngineSide.trans ?_ (ih _)
    unfold offerReset
    split
    · split
      · exact .refl _
      · exact .of_moves (moves_resetTo (S := fun _ => False) acc.1 c p _)
    · exact .refl _

section Owners

variable (s : State) (p : Port) (f : Frame) (q : PointNo) (c : Claim)

theorem engineSide_ownSetPoint : EngineSide s (s.ownSetPoint p f) := by
  unfold State.ownSetPoint
  have h := EngineSide.refl s
  dsimp only
  split
  · exact h.respond ..
  · refine .ite (h.respond ..) ?_
    split
    · exact h.respond ..
    · exact (h.trans ⟨rfl⟩).respond ..

theorem engineSide_ownSetMap : EngineSide s (s.ownSetMap p f) := by
  unfold State.ownSetMap
  have h := EngineSide.refl s
  dsimp only
  split
  · exact h.respond ..
  · exact (h.trans ⟨rfl⟩).respond ..
  · split
    · exact h.respond ..
    · exact .ite ((h.trans ⟨rfl⟩).respond ..) (h.respond ..)

theorem engineSide_ownAckPoint : EngineSide s (s.ownAckPoint p f) := by
  unfold State.ownAckPoint
  have h := EngineSide.refl s
  exact .ite (h.respond ..) (.ite ((h.moves (moves_acknowledge (S := fun _ => False) ..)).respond ..) (h.respond ..))

theorem engineSide_ownAckMembers : EngineSide s (s.ownAckMembers p f) := (engineSide_ackList ..).respond ..

theorem engineSide_ownAckClass : EngineSide s (s.ownAckClass p f) := by
  unfold State.ownAckClass
  split
  · exact (EngineSide.refl s).respond ..
  · exact (engineSide_ackList ..).respond ..

theorem engineSide_ownAckAll : EngineSide s (s.ownAckAll p f) := (engineSide_ackList ..).respond ..

theorem engineSide_ownResetPoint : EngineSide s (s.ownResetPoint p f) := by
  unfold State.ownResetPoint
  have h := EngineSide.refl s
  dsimp only
  split
  · exact h.respond ..
  · exact (h.moves (moves_resetTo (S := fun _ => False) ..)).respond ..

theorem engineSide_ownResetAll : EngineSide s (s.ownResetAll p f) :=
  (engineSide_resetAll (s.requestClaim p) (s.stn p).ring allPoints (s, 0)).respond ..

theorem engineSide_setService (cause : Cause) (v : Service) (t : Option Nat) :
    EngineSide s (s.setService c q cause v t) := .of_moves (moves_setService ..)

theorem engineSide_leaveService (cause : Cause) (v : Service) (t : Option Nat) :
    EngineSide s (s.leaveService c q cause v t) := .of_moves (moves_leaveService ..)

theorem engineSide_returnToService (cause : Cause) : EngineSide s (s.returnToService c q cause) :=
  .of_moves (moves_returnToService ..)

theorem engineSide_ownShelve : EngineSide s (s.ownShelve p f) := by
  unfold State.ownShelve
  have h := EngineSide.refl s
  refine .ite (h.respond ..) (.ite (h.respond ..) ?_)
  split
  · exact h.respond ..
  · exact (engineSide_setService ..).respond ..
  · exact (engineSide_leaveService ..).respond ..

theorem engineSide_ownUnshelve : EngineSide s (s.ownUnshelve p f) := by
  unfold State.ownUnshelve
  have h := EngineSide.refl s
  dsimp only
  split
  · exact (engineSide_returnToService ..).respond ..
  · exact h.respond ..
  · exact h.respond ..

theorem engineSide_removePoint : EngineSide s (s.removePoint c q) := by
  unfold State.removePoint
  exact .ite (engineSide_leaveService ..) (engineSide_setService ..)

theorem engineSide_restorePoint : EngineSide s (s.restorePoint c q) := by
  unfold State.restorePoint
  exact .ite (engineSide_returnToService ..) (engineSide_setService ..)

theorem engineSide_ownRemove : EngineSide s (s.ownRemove p f) := by
  unfold State.ownRemove
  exact .ite ((EngineSide.refl s).respond ..) ((engineSide_removePoint ..).respond ..)

theorem engineSide_ownRestore : EngineSide s (s.ownRestore p f) := by
  unfold State.ownRestore
  exact .ite ((engineSide_restorePoint ..).respond ..) ((EngineSide.refl s).respond ..)

theorem engineSide_shelveExpired : EngineSide s (s.shelveExpired q) := by
  unfold State.shelveExpired
  split
  · exact engineSide_returnToService ..
  · exact .refl s
  · exact .refl s

theorem engineSide_reevalMapped (e : ChangeEntry) (m : MapEntry) : EngineSide s (s.reevalMapped e m) := by
  unfold State.reevalMapped
  split
  · exact .refl s
  · exact .of_moves (moves_reevaluate (S := fun _ => False) ..)

theorem engineSide_recordInput (e : ChangeEntry) (b : Option Level) (d : Disposition) (m : Option PointNo) :
    EngineSide s (s.recordInput e b d m) := .of_apart ((Apart.refl s).append _ _)

theorem engineSide_applyThrough (e : ChangeEntry) (m : MapEntry) : EngineSide s (s.applyThrough e m) := by
  unfold State.applyThrough
  have h : EngineSide s (s.setEnt e.input m) := ⟨rfl⟩
  exact .ite (h.trans (engineSide_recordInput ..)) h

theorem engineSide_lockInput : EngineSide s s.lockInput := by
  unfold State.lockInput
  exact .ite ⟨rfl⟩ ⟨rfl⟩

theorem engineSide_handleLevel (e : ChangeEntry) : EngineSide s (s.handleLevel e) := by
  unfold State.handleLevel
  have h : EngineSide s (s.loadInput e) := by rw [loadInput_eq]; exact ⟨rfl⟩
  have hl (t : State) (r : Raising) (k : EngineSide s t) : EngineSide s (t.handOn r).lockInput :=
    (k.trans (u := t.handOn r) ⟨rfl⟩).trans (engineSide_lockInput _)
  refine .ite (.ite ?_ ?_) (.ite ?_ ?_)
  · exact (h.trans (engineSide_applyThrough ..)).trans (engineSide_reevalMapped ..)
  · exact h.trans (engineSide_applyThrough ..)
  · exact hl _ _ ((h.trans (u := (s.loadInput e).setEnt e.input { s.ent e.input with appliedLevel := e.level }) ⟨rfl⟩).trans
      (engineSide_recordInput ..))
  · exact hl _ _ (h.trans (engineSide_recordInput ..))

theorem engineSide_handleQuality (e : ChangeEntry) : EngineSide s (s.handleQuality e) := by
  unfold State.handleQuality
  refine .ite (.ite ?_ ?_) (.ite ⟨rfl⟩ (.refl s))
  · exact (engineSide_applyThrough ..).trans (engineSide_reevalMapped ..)
  · exact engineSide_applyThrough ..

theorem engineSide_startPoint (k : PointQuality) (cond : Condition) : EngineSide s (s.startPoint q k cond) := by
  unfold State.startPoint
  have h : EngineSide s (s.recordQuality s.startClaim q .start k) := .of_moves (moves_recordQuality (S := fun _ => False) ..)
  have h2 (r : PointRec) : EngineSide s ((s.recordQuality s.startClaim q .start k).setPt q r) := h.trans ⟨rfl⟩
  exact .ite ((h2 _).moves (moves_transition (S := fun _ => False) ..)) (h2 _)

theorem engineSide_evaluatePoint : EngineSide s (s.evaluatePoint q) := by
  unfold State.evaluatePoint
  have h : EngineSide s (s.loadEntries q) := ⟨rfl⟩
  split
  · exact engineSide_startPoint ..
  · exact h.trans (engineSide_startPoint ..)
  · exact engineSide_startPoint ..

/-- A request row whose owner stays at the Point Engine's side does. -/
theorem engineSide_runRequest {k : ReqKind} {form : Frame → Bool} {owner : Frame → State → State}
    (ho : ∀ f u, EngineSide u (owner f u)) : EngineSide s (s.runRequest p k form owner) := by
  refine runRequest_keeps (I := EngineSide s) (fun _ _ hd h => h.apart (.of_decodes hd)) (fun _ h => h.settle) ?_ (.refl s)
    p form
  exact fun f u _ _ h => h.trans (ho f u)

end Owners

/-! ### The side of the field path and the link -/

/-- From `s` to `t` nothing has moved but what `Apart` allows and the field path with the link, and the change queue of CONFIG
has kept still (R123). -/
structure FieldSide (s t : State) : Prop where
  rest : t = { s with
    lines := t.lines, settings := t.settings, inputs := t.inputs, pairTimers := t.pairTimers, link := t.link
    changeQueue := t.changeQueue
    dispatch := t.dispatch, log := t.log, flags := t.flags, routes := t.routes, stations := t.stations
    raisings := t.raisings, commandCapture := t.commandCapture, inputCapture := t.inputCapture
    audibleRequest := t.audibleRequest, audibleThreshold := t.audibleThreshold, day := t.day, msOfDay := t.msOfDay
    timeQuality := t.timeQuality, syncEnable := t.syncEnable, watchdog := t.watchdog
    freeCount := t.freeCount }
  queue : s.mode = .config → t.changeQueue = s.changeQueue

namespace FieldSide

variable {s t u : State}

theorem refl (s : State) : FieldSide s s := ⟨rfl, fun _ => rfl⟩

theorem mode (h : FieldSide s t) : t.mode = s.mode := by have e := congrArg State.mode h.rest; exact e

theorem engineClaim (h : FieldSide s t) : t.engineClaim = s.engineClaim := by have e := congrArg State.engineClaim h.rest; exact e

theorem pending (h : FieldSide s t) : t.pending = s.pending := by have e := congrArg State.pending h.rest; exact e

theorem inReset (h : FieldSide s t) : t.inReset = s.inReset := by have e := congrArg State.inReset h.rest; exact e

theorem evalPos (h : FieldSide s t) : t.evalPos = s.evalPos := by have e := congrArg State.evalPos h.rest; exact e

theorem points (h : FieldSide s t) : t.points = s.points := by have e := congrArg State.points h.rest; exact e

theorem map (h : FieldSide s t) : t.map = s.map := by have e := congrArg State.map h.rest; exact e

theorem trans (h : FieldSide s t) (k : FieldSide t u) : FieldSide s u :=
  ⟨by rw [k.rest, h.rest], fun hm => (k.queue (h.mode.trans hm)).trans (h.queue hm)⟩

theorem of_apart (h : Apart s t) : FieldSide s t := ⟨by rw [h.rest], fun _ => by rw [h.rest]⟩

theorem ite {c : Prop} [Decidable c] (h : FieldSide s t) (k : FieldSide s u) : FieldSide s (if c then t else u) := by
  split
  · exact h
  · exact k

theorem foldl {α : Type} {f : State → α → State} (hf : ∀ s a, FieldSide s (f s a)) (l : List α) (s : State) :
    FieldSide s (l.foldl f s) := by
  induction l generalizing s with
  | nil => exact refl s
  | cons a l ih => exact (hf s a).trans (ih _)

theorem respond (h : FieldSide s t) (p : Port) (f : Frame) (st : Status) (r : List Byte) :
    FieldSide s (t.respond p f st r) := h.trans (of_apart ((Apart.refl t).respond p f st r))

theorem settle (h : FieldSide s t) : FieldSide s t.settle := h.trans (of_apart (Apart.refl t).settle)

theorem setInp (h : FieldSide s t) (i : InputNo) (r : InputRec) : FieldSide s (t.setInp i r) :=
  h.trans ⟨rfl, fun _ => rfl⟩

theorem setPairTimer (h : FieldSide s t) (k : PairNo) (v : Option Nat) : FieldSide s (t.setPairTimer k v) :=
  h.trans ⟨rfl, fun _ => rfl⟩

theorem setUnit (h : FieldSide s t) (v : UnitNo) (r : UnitRec) : FieldSide s (t.setUnit v r) :=
  h.trans ⟨rfl, fun _ => rfl⟩

theorem handOn (h : FieldSide s t) (r : Raising) : FieldSide s (t.handOn r) := h.trans ⟨rfl, fun _ => rfl⟩

end FieldSide

section Operations

variable (s : State) (i : InputNo) (k : PairNo) (u : UnitNo) (st : TimeStamp)

theorem fieldSide_link (l : Link) : FieldSide s { s with link := l } := ⟨rfl, fun _ => rfl⟩

theorem fieldSide_queueEntry (e : ChangeEntry) : FieldSide s (s.queueEntry e) := by
  unfold State.queueEntry
  split
  · exact .refl s
  · next h =>
    have hm : s.mode ≠ .config := fun e => h (.inl e)
    split
    · exact ⟨rfl, fun e => absurd e hm⟩
    · exact ⟨rfl, fun _ => rfl⟩

theorem fieldSide_produce (r : InputRec) : FieldSide s (s.produce r i st) := by
  unfold State.produce
  exact .ite (fieldSide_queueEntry ..) (.ite (fieldSide_queueEntry ..) (.refl s))

theorem fieldSide_formQuality : FieldSide s (s.formQuality st i) := by
  unfold State.formQuality
  exact .ite (.refl s) ((FieldSide.refl s).setInp _ _)

theorem fieldSide_setDiscrepant (v : Bool) : FieldSide s (s.setDiscrepant k v) :=
  ((FieldSide.refl s).setInp _ _).setInp _ _

theorem fieldSide_pairTest : FieldSide s (s.pairTest k) := by
  unfold State.pairTest
  refine .ite ?_ (((FieldSide.refl s).setPairTimer _ _).trans (fieldSide_setDiscrepant ..))
  split
  · exact (FieldSide.refl s).setPairTimer _ _
  · exact .refl s

theorem fieldSide_acceptChange (l : Level) : FieldSide s (s.acceptChange i l st) := by
  unfold State.acceptChange
  have h := (FieldSide.refl s).setInp i
    (({ s.inp i with level := l, lastChange := some st } : InputRec).countChange s.settings s.elapsed)
  refine .ite ?_ ((h.trans (fieldSide_formQuality ..)).trans (fieldSide_produce ..))
  exact ((((h.trans (fieldSide_pairTest ..)).trans (fieldSide_formQuality ..)).trans (fieldSide_formQuality ..)).trans
    (fieldSide_produce ..)).trans (fieldSide_produce ..)

theorem fieldSide_handReport (r : Report) : FieldSide s (handReport u st s r) := by
  unfold handReport State.remoteReport
  exact .ite (.refl s) (fieldSide_acceptChange ..)

theorem fieldSide_endChatter : FieldSide s (s.endChatter i) :=
  (((FieldSide.refl s).setInp _ _).trans (fieldSide_formQuality ..)).trans (fieldSide_produce ..)

theorem fieldSide_becomeDiscrepant : FieldSide s (s.becomeDiscrepant k) := by
  unfold State.becomeDiscrepant
  have h := ((FieldSide.refl s).setPairTimer k none).trans (fieldSide_setDiscrepant _ k true)
  have hf := (h.trans (fieldSide_formQuality _ (evenInput k) s.now)).trans (fieldSide_formQuality _ (oddInput k) s.now)
  exact (hf.trans (fieldSide_produce ..)).trans (fieldSide_produce ..)

theorem fieldSide_lostClaim : FieldSide s (s.lostClaim u) :=
  ((FieldSide.foldl (fun s i => (FieldSide.refl s).setInp i _) _ s).trans
    (FieldSide.foldl (fun t i => fieldSide_formQuality t i s.now) _ _)).trans
    (FieldSide.foldl (fun t i => fieldSide_produce t i s.now (s.inp i)) _ _)

theorem fieldSide_takeSnapshotLevel (levels : BitVec 64) : FieldSide s (takeSnapshotLevel levels st s i) := by
  unfold takeSnapshotLevel
  exact .ite (.refl s) ((FieldSide.refl s).setInp _ _)

theorem fieldSide_testPairSet : FieldSide s (testPairSet s k) := .ite (fieldSide_pairTest ..) (.refl s)

theorem fieldSide_snapshotQuality (b : State) : FieldSide s (snapshotQuality b st s i) :=
  .ite (fieldSide_queueEntry ..) (.refl s)

theorem fieldSide_snapshotLevel (b : State) : FieldSide s (snapshotLevel b st s i) :=
  .ite (fieldSide_queueEntry ..) (.refl s)

theorem fieldSide_snapshotClaim (levels : BitVec 64) : FieldSide s (s.snapshotClaim u levels st) :=
  (((((FieldSide.foldl (fun s i => fieldSide_takeSnapshotLevel s i st levels) _ s).trans
    (FieldSide.foldl (fun s i => (FieldSide.refl s).setInp i _) _ _)).trans
    (FieldSide.foldl (fun s k => fieldSide_testPairSet s k) _ _)).trans
    (FieldSide.foldl (fun t i => fieldSide_formQuality t i st) _ _)).trans
    (FieldSide.foldl (fun t i => fieldSide_snapshotQuality t i st s) _ _)).trans
    (FieldSide.foldl (fun t i => fieldSide_snapshotLevel t i st s) _ _)

theorem fieldSide_sampleLine (l : LineNo) (level : Level) : FieldSide s (s.sampleLine l level) := by
  unfold State.sampleLine
  have h (r : LineRec) : FieldSide s (s.setLine l r) := ⟨rfl, fun _ => rfl⟩
  exact .ite (h _) (.ite ((h _).trans (fieldSide_acceptChange ..)) (h _))

theorem fieldSide_settlePair (b : State) : FieldSide s (settlePair b s k) := by
  unfold settlePair
  refine .ite (.refl s) (((FieldSide.ite (fieldSide_pairTest s k) ?_).trans (fieldSide_formQuality ..)).trans
    (fieldSide_formQuality ..))
  exact ((FieldSide.refl s).setPairTimer _ _).trans (fieldSide_setDiscrepant ..)

theorem fieldSide_storeSettings (f : FilterSettings) : FieldSide s (s.storeSettings f) :=
  FieldSide.trans (t := { s with settings := f }) ⟨rfl, fun _ => rfl⟩
    (FieldSide.foldl (fun t k => fieldSide_settlePair t k s) _ _)

theorem fieldSide_endTurn : FieldSide s (s.endTurn u) := by
  rw [(turns_endTurn s u).1.rest]
  exact fieldSide_link s _

theorem fieldSide_pollExpiry : FieldSide s s.pollExpiry := by
  unfold State.pollExpiry
  dsimp only
  split
  · rw [(turns_startCycle _).1.rest]
    exact (fieldSide_link s _).trans (fieldSide_link _ _)
  · exact fieldSide_link s _

theorem fieldSide_identityMatch (b : List Byte) : FieldSide s (s.identityMatch u b) := by
  unfold State.identityMatch
  have h (r : UnitRec) := (FieldSide.refl s).setUnit u r
  exact .ite (h _) (.ite (h _) ((h _).handOn _))

theorem fieldSide_snapshotGood (b : List Byte) : FieldSide s (s.snapshotGood u b) :=
  (((FieldSide.refl s).setUnit _ _).trans (fieldSide_snapshotClaim ..)).setUnit _ _

theorem fieldSide_changesGood (b : List Byte) : FieldSide s (s.changesGood u b st) := by
  unfold State.changesGood
  have h (r : UnitRec) := (FieldSide.refl s).setUnit u r
  have hr (r : UnitRec) (l : List Report) : FieldSide s (l.foldl (handReport u st) (s.setUnit u r)) :=
    (h r).trans (FieldSide.foldl (fun s r => fieldSide_handReport s u st r) _ _)
  refine .ite ((h _).trans (fieldSide_endTurn ..)) (.ite ?_ (.ite (.ite ?_ ?_) ((hr _ _).trans (fieldSide_endTurn ..))))
  · exact (((h _).trans (fieldSide_lostClaim ..)).handOn _).trans (fieldSide_endTurn ..)
  · exact ((hr _ _).setUnit _ _).trans (fieldSide_link _ _)
  · exact ((hr _ _).setUnit _ _).trans (fieldSide_endTurn ..)

theorem fieldSide_goodAnswer (x : Exchange) (b : List Byte) : FieldSide s (s.goodAnswer x b st) := by
  unfold State.goodAnswer
  refine .ite (fieldSide_endTurn ..) ?_
  split
  · exact (fieldSide_identityMatch ..).trans (fieldSide_endTurn ..)
  · exact (fieldSide_snapshotGood ..).trans (fieldSide_endTurn ..)
  · exact fieldSide_changesGood ..

theorem fieldSide_countMiss : FieldSide s (s.countMiss u) := by
  unfold State.countMiss
  have h (r : UnitRec) := (FieldSide.refl s).setUnit u r
  exact .ite (.ite (h _) ((FieldSide.ite ((h _).trans (fieldSide_lostClaim ..)) (h _)).handOn _)) (h _)

theorem fieldSide_missedAnswer (x : Exchange) : FieldSide s (s.missedAnswer x) :=
  (FieldSide.ite (.refl s) (fieldSide_countMiss ..)).trans (fieldSide_endTurn ..)

theorem fieldSide_linkByteWaiting (x : Exchange) (b : RxByte) : FieldSide s (s.linkByteWaiting x b) := by
  unfold State.linkByteWaiting
  have h (r : LinkRx) : FieldSide s (s.setLinkRx r) := fieldSide_link s _
  split
  · exact .ite (h _) (.refl s)
  · refine .ite (h _) ?_
    split
    · exact h _
    · exact .ite (h _) (.ite ((h _).trans (fieldSide_goodAnswer ..)) (h _))

theorem fieldSide_linkByte (b : RxByte) : FieldSide s (s.linkByte b) := by
  unfold State.linkByte
  split
  · exact .refl s
  · exact .ite (.refl s) (fieldSide_linkByteWaiting ..)

theorem fieldSide_linkBytes (l : List RxByte) : FieldSide s (s.linkBytes l) :=
  FieldSide.foldl (fun s b => fieldSide_linkByte s b) l s

theorem fieldSide_configureUnit (b : Bool) (d : Nat) : FieldSide s (s.configureUnit u b d) := by
  unfold State.configureUnit
  have h (r : UnitRec) : FieldSide s ((s.setUnit u r).voidExchange u) :=
    ((FieldSide.refl s).setUnit u r).trans (fieldSide_link _ _)
  exact .ite ((h _).trans (fieldSide_lostClaim ..)) (h _)

variable (p : Port) (f : Frame)

theorem fieldSide_ownSetInputs : FieldSide s (s.ownSetInputs p f) := by
  unfold State.ownSetInputs
  split
  · exact (FieldSide.refl s).respond ..
  · exact (fieldSide_storeSettings ..).respond ..

theorem fieldSide_ownSetUnit : FieldSide s (s.ownSetUnit p f) := by
  unfold State.ownSetUnit
  have h := FieldSide.refl s
  split
  · exact .ite ((fieldSide_configureUnit ..).respond ..) (h.respond ..)
  · exact h.respond ..

theorem fieldSide_ownSetLink : FieldSide s (s.ownSetLink p f) := by
  unfold State.ownSetLink
  exact .ite ((fieldSide_link s _).respond ..) ((FieldSide.refl s).respond ..)

theorem fieldSide_messageEnd :
    FieldSide s (match s.link.exchange with
      | none => s
      | some x =>
        if x.phase = .sending then
          { s with link := { s.link with
              exchange := some { x with phase := .awaiting Config.answerTimeoutMs }, rx := .hunting } }
        else s) := by
  split
  · exact .refl s
  · exact .ite (fieldSide_link s _) (.refl s)

theorem fieldSide_answerTimeout :
    FieldSide s (match s.link.exchange with
      | none => s
      | some x => if x.phase = .awaiting 0 then (s.missedAnswer x).settle else s) := by
  split
  · exact .refl s
  · exact .ite (fieldSide_missedAnswer ..).settle (.refl s)

theorem fieldSide_runRequest {k : ReqKind} {form : Frame → Bool} {owner : Frame → State → State}
    (ho : ∀ f u, FieldSide u (owner f u)) : FieldSide s (s.runRequest p k form owner) := by
  refine runRequest_keeps (I := FieldSide s) (fun _ _ hd h => h.trans (.of_apart (.of_decodes hd))) (fun _ h => h.settle) ?_
    (.refl s) p form
  exact fun f u _ _ h => h.trans (ho f u)

end Operations

theorem fieldSide_live {f : State → State} {s : State} (h : FieldSide s (f s)) : FieldSide s (s.live f) := .ite (.refl s) h

/-- The commands at the side of the field path and the link. -/
def atFieldSide : Instr → Bool
  | .lineSample _ _ | .qualifiedChange _ _ | .chatterEndExpiry _ | .discrepancyExpiry _ | .pollCycleExpiry
  | .identityAnswer _ | .snapshotAnswer _ | .changesAnswer _ | .linkFrameRejected _ | .answerTimeout | .linkGapExpiry
  | .linkMessageEnd | .setInputs _ | .setUnit _ | .setLink _ => true
  | _ => false

theorem exec_fieldSide {c : Instr} (hc : atFieldSide c = true) (s : State) : ∃ t, exec c s = .next t ∧ FieldSide s t := by
  cases c
  case lineSample l v => exact ⟨_, rfl, fieldSide_live (fieldSide_sampleLine s l v).settle⟩
  case qualifiedChange l v => exact ⟨_, rfl, fieldSide_live (fieldSide_sampleLine s l v).settle⟩
  case chatterEndExpiry i => exact ⟨_, rfl, fieldSide_live (.ite (fieldSide_endChatter s i).settle (.refl s))⟩
  case discrepancyExpiry k => exact ⟨_, rfl, fieldSide_live (.ite (fieldSide_becomeDiscrepant s k).settle (.refl s))⟩
  case pollCycleExpiry => exact ⟨_, rfl, fieldSide_live (.ite (fieldSide_pollExpiry s) (.refl s))⟩
  case identityAnswer l => exact ⟨_, rfl, fieldSide_live (fieldSide_linkBytes s l).settle⟩
  case snapshotAnswer l => exact ⟨_, rfl, fieldSide_live (fieldSide_linkBytes s l).settle⟩
  case changesAnswer l => exact ⟨_, rfl, fieldSide_live (fieldSide_linkBytes s l).settle⟩
  case linkFrameRejected l => exact ⟨_, rfl, fieldSide_live (fieldSide_linkBytes s l).settle⟩
  case answerTimeout => exact ⟨_, rfl, fieldSide_live (fieldSide_answerTimeout s)⟩
  case linkGapExpiry => exact ⟨_, rfl, fieldSide_live (fieldSide_link s _)⟩
  case linkMessageEnd => exact ⟨_, rfl, fieldSide_live (fieldSide_messageEnd s)⟩
  case setInputs p => exact ⟨_, rfl, fieldSide_live (fieldSide_runRequest s p fun f u => fieldSide_ownSetInputs u p f)⟩
  case setUnit p => exact ⟨_, rfl, fieldSide_live (fieldSide_runRequest s p fun f u => fieldSide_ownSetUnit u p f)⟩
  case setLink p => exact ⟨_, rfl, fieldSide_live (fieldSide_runRequest s p fun f u => fieldSide_ownSetLink u p f)⟩
  all_goals cases hc

end Sys2Proof.Machine
end

section
/-! PROOFS. The queue of commands (log 1), and that CONFIG is quiet (R13, R174). -/

namespace Sys2Proof.Machine

/-- Settles O1. -/
theorem stepTakesFront : Obligations.StepTakesFront :=
  ⟨fun c rest s h => by rw [step, h], fun s h => by rw [step, h]⟩

/-! ### The commands of the Point Engine's requests -/

/-- The requests and the expiry at the Point Engine's side. -/
def atEngineSide : Instr → Bool
  | .setPoint _ | .setMap _ | .ackPoint _ | .ackPointMembers _ | .ackClass _ | .ackAll _ | .resetPoint _ | .resetAll _
  | .shelve _ | .unshelve _ | .remove _ | .restore _ | .shelveExpiry _ => true
  | _ => false

theorem engineSide_live {f : State → State} {s : State} (h : EngineSide s (f s)) : EngineSide s (s.live f) :=
  .ite (.refl s) h

theorem exec_engineSide {c : Instr} (hc : atEngineSide c = true) (s : State) :
    ∃ t, exec c s = .next t ∧ EngineSide s t := by
  cases c
  case setPoint p => exact ⟨_, rfl, engineSide_live (engineSide_runRequest s p fun f u => engineSide_ownSetPoint u p f)⟩
  case setMap p => exact ⟨_, rfl, engineSide_live (engineSide_runRequest s p fun f u => engineSide_ownSetMap u p f)⟩
  case ackPoint p => exact ⟨_, rfl, engineSide_live (engineSide_runRequest s p fun f u => engineSide_ownAckPoint u p f)⟩
  case ackPointMembers p =>
    exact ⟨_, rfl, engineSide_live (engineSide_runRequest s p fun f u => engineSide_ownAckMembers u p f)⟩
  case ackClass p => exact ⟨_, rfl, engineSide_live (engineSide_runRequest s p fun f u => engineSide_ownAckClass u p f)⟩
  case ackAll p => exact ⟨_, rfl, engineSide_live (engineSide_runRequest s p fun f u => engineSide_ownAckAll u p f)⟩
  case resetPoint p =>
    exact ⟨_, rfl, engineSide_live (engineSide_runRequest s p fun f u => engineSide_ownResetPoint u p f)⟩
  case resetAll p => exact ⟨_, rfl, engineSide_live (engineSide_runRequest s p fun f u => engineSide_ownResetAll u p f)⟩
  case shelve p => exact ⟨_, rfl, engineSide_live (engineSide_runRequest s p fun f u => engineSide_ownShelve u p f)⟩
  case unshelve p => exact ⟨_, rfl, engineSide_live (engineSide_runRequest s p fun f u => engineSide_ownUnshelve u p f)⟩
  case remove p => exact ⟨_, rfl, engineSide_live (engineSide_runRequest s p fun f u => engineSide_ownRemove u p f)⟩
  case restore p => exact ⟨_, rfl, engineSide_live (engineSide_runRequest s p fun f u => engineSide_ownRestore u p f)⟩
  case shelveExpiry q => exact ⟨_, rfl, engineSide_live (.ite (engineSide_shelveExpired s q).settle (.refl s))⟩
  all_goals cases hc

/-! ### Changes of mode -/

/-- Entering STARTING moves the mode, the start option and the input records, and emits. -/
theorem apart_startRun (s : State) (p : Port) (a b : Bool) :
    Apart { s with startAcked := a, mode := .starting, inputs := mapEntries InputRec.requeue s.inputs }
      (s.startRun p a b) :=
  ((Apart.refl _).append _ _).trans (.of_emits (onlyEmits_placeMode _ _))

theorem apart_endEvaluation (s : State) : Apart { s with mode := .run } s.endEvaluation :=
  ((Apart.refl _).append _ _).trans (.of_emits (onlyEmits_placeMode _ _))

/-- One port when the mode becomes CONFIG. -/
theorem apart_configPort (s : State) (p : Port) : Apart s (s.configPort p) := by
  unfold State.configPort
  exact .ite (.refl s) (((((Apart.refl s).flushPort _ _).enqueue _ _ _).enqueue _ _ _).testOffer _)

theorem apart_afterConfig (s : State) (p : Port) : Apart s (s.afterConfig p) := by
  unfold State.afterConfig
  have h := Apart.refl s
  split
  · exact h
  · split
    · exact .ite (h.respond ..) (h.setStn ..)
    all_goals exact h.respond ..

theorem apart_configPorts (s : State) : Apart s s.configPorts := by
  have h (l : List Port) (t : State) : Apart t (l.foldl State.configPort t) := by
    induction l generalizing t with
    | nil => exact .refl t
    | cons p l ih => exact (apart_configPort t p).trans (ih _)
  exact h allPorts s

/-- Stages 2 and 3 of an ENTER_CONFIG beside the points made quiet. -/
theorem apart_takeEngineClaim (s : State) (c : EngineClaim) :
    Apart { s with engineClaim := none }.quietPoints (s.takeEngineClaim c) := by
  unfold State.takeEngineClaim State.recordMode
  exact (((Apart.refl _).append _ _).trans (apart_configPorts _)).trans (apart_afterConfig _ _)

theorem fieldSide_restartUnit (s : State) (u : UnitNo) : FieldSide s (restartUnit s u) := by
  unfold restartUnit
  exact .ite (.refl s) (((FieldSide.refl s).setUnit _ _).trans (fieldSide_link _ _))

/-- A RESTART is, around its change of mode, at the side of the field path. -/
theorem fieldSide_restart (s : State) (p : Port) (f : Frame) :
    ∃ t, FieldSide s t ∧ FieldSide (t.leaveRun p true) (s.ownRestart p f) := by
  unfold State.ownRestart
  have h1 : FieldSide s ({ s with flags := 0, freeCount := s.freeCount + 1 } : State).unlockAll := ⟨rfl, fun _ => rfl⟩
  have h2 := h1.trans (FieldSide.foldl fieldSide_restartUnit allUnits _)
  have hl (t : State) (l : List UnitNo) : FieldSide t (t.lostClaims l) := FieldSide.foldl fieldSide_lostClaim l t
  have hs (t : State) (st : Stage) : FieldSide t (t.setStage p f st) := ⟨rfl, fun _ => rfl⟩
  dsimp only
  split
  · exact ⟨_, h2.trans (hl _ _), hs _ _⟩
  · exact ⟨_, h2, (hl _ _).trans (hs _ _)⟩

/-- Taking an entry: nothing, or in RUN the place freed and the entry handled by what keeps to the Point Engine's side. -/
theorem takeEntry_cases {s : State} {kind : EntryKind} {handle : ChangeEntry → State → State} :
    s.takeEntry kind handle = s ∨ ∃ e rest, s.mode = .run ∧ s.changeQueue = e :: rest ∧
      s.takeEntry kind handle = (if s.unfitted e.input then s.freed rest else handle e (s.freed rest)).settle := by
  unfold State.takeEntry State.freed
  split
  · exact .inl rfl
  · next e rest hq =>
    split
    · next h => exact .inr ⟨e, rest, h.1, hq, rfl⟩
    · exact .inl rfl

/-! ### No run stops -/

theorem pending_takeEntry (s : State) (kind : EntryKind) {handle : ChangeEntry → State → State}
    (hh : ∀ e t, EngineSide t (handle e t)) : (s.takeEntry kind handle).pending = s.pending := by
  obtain h | ⟨e, rest, -, -, h⟩ := takeEntry_cases (s := s) (kind := kind) (handle := handle) <;> rw [h]
  obtain ⟨more, hf⟩ := freed_eq s rest
  have hp : (s.freed rest).pending = s.pending := by have e := congrArg State.pending hf; exact e
  have he : EngineSide (s.freed rest) (if s.unfitted e.input then s.freed rest else handle e (s.freed rest)).settle :=
    (EngineSide.ite (.refl _) (hh e _)).settle
  exact he.pending.trans hp

theorem pending_evaluateNext (s : State) (g : Bool) : (s.evaluateNext g).pending = s.pending := by
  unfold State.evaluateNext
  split
  · rfl
  · next p _ =>
    split
    · exact (Apart.refl _).settle.pending.trans (engineSide_evaluatePoint s p).pending
    · rfl

theorem pending_runRequest (s : State) (p : Port) {k : ReqKind} {form : Frame → Bool} {owner : Frame → State → State}
    (ho : ∀ f u, (owner f u).pending = u.pending) : (s.runRequest p k form owner).pending = s.pending := by
  refine runRequest_keeps (I := fun t => t.pending = s.pending) (fun u t hd h => ?_) (fun u h => ?_) ?_ rfl p form
  · exact hd.pending.trans h
  · exact (Apart.refl u).settle.pending.trans h
  · exact fun f u _ _ h => (ho f u).trans h

theorem pending_startRun (s : State) (p : Port) (a b : Bool) : (s.startRun p a b).pending = s.pending :=
  (apart_startRun s p a b).pending

theorem pending_respond (s : State) (p : Port) (f : Frame) (st : Status) (r : List Byte) :
    (s.respond p f st r).pending = s.pending := (decodes_respond s p f st r).pending

theorem pending_beginEvaluation (s : State) : s.beginEvaluation.pending = s.pending := rfl

theorem mode_beginEvaluation (s : State) : s.beginEvaluation.mode = s.mode := rfl

theorem pending_ownEnterRun (s : State) (p : Port) (f : Frame) : (s.ownEnterRun p f).pending = s.pending := by
  unfold State.ownEnterRun
  split
  · exact pending_respond ..
  · split
    · exact pending_respond ..
    · rw [pending_beginEvaluation, pending_respond, pending_startRun]

theorem pending_restartRun (s : State) (p : Port) (f : Frame) : (s.restartRun p f).pending = s.pending := by
  unfold State.restartRun
  split
  · rw [pending_beginEvaluation, pending_respond, pending_startRun]
  · exact pending_respond ..

theorem pending_ownRestart (s : State) (p : Port) (f : Frame) : (s.ownRestart p f).pending = s.pending := by
  obtain ⟨t, h1, h2⟩ := fieldSide_restart s p f
  exact h2.pending.trans h1.pending

theorem pending_enterRun (s : State) (p : Port) :
    (match s.restartDue p with
      | some f => (s.restartRun p f).settle
      | none => s.runRequest p .enterRun anyForm fun f t => t.ownEnterRun p f).pending = s.pending := by
  split
  · exact (Apart.refl _).settle.pending.trans (pending_restartRun ..)
  · exact pending_runRequest s p fun f u => pending_ownEnterRun u p f

theorem pending_claim (s : State) :
    (match s.engineClaim with
      | none => s
      | some c => (s.takeEngineClaim c).settle).pending = s.pending := by
  split
  · rfl
  · exact (Apart.refl _).settle.pending.trans (apart_takeEngineClaim s _).pending

theorem pending_live {f : State → State} {s : State} (h : (f s).pending = s.pending) :
    (s.live f).pending = s.pending := by
  unfold State.live
  split
  · rfl
  · exact h

/-- A command is a next state that keeps the queue of the commands behind it. -/
theorem exec_next (c : Instr) (s : State) : ∃ t, exec c s = .next t ∧ t.pending = s.pending := by
  by_cases ha : keepsApart c = true
  · obtain ⟨t, h, ht⟩ := exec_apart ha s
    exact ⟨t, h, ht.pending⟩
  by_cases hf : atFieldSide c = true
  · obtain ⟨t, h, ht⟩ := exec_fieldSide hf s
    exact ⟨t, h, ht.pending⟩
  by_cases he : atEngineSide c = true
  · obtain ⟨t, h, ht⟩ := exec_engineSide he s
    exact ⟨t, h, ht.pending⟩
  have hrest : (keepsApart c || atFieldSide c || atEngineSide c) = false := by simp [ha, hf, he]
  cases c
  case powerOn l r => exact ⟨_, rfl, rfl⟩
  case resetNLow => exact ⟨_, rfl, rfl⟩
  case timebaseMillisecond n => exact ⟨_, rfl, pending_live rfl⟩
  case levelEntry => exact ⟨_, rfl, pending_live (pending_takeEntry s _ fun e t => engineSide_handleLevel t e)⟩
  case qualityEntry => exact ⟨_, rfl, pending_live (pending_takeEntry s _ fun e t => engineSide_handleQuality t e)⟩
  case enterRun p => exact ⟨_, rfl, pending_live (pending_enterRun s p)⟩
  case fieldPointEvaluation => exact ⟨_, rfl, pending_live (pending_evaluateNext s _)⟩
  case groupPointEvaluation => exact ⟨_, rfl, pending_live (pending_evaluateNext s _)⟩
  case endOfInitialEvaluation =>
    refine ⟨_, rfl, pending_live ?_⟩
    split
    · exact (apart_endEvaluation s).settle.pending
    · rfl
  case enterConfig p => exact ⟨_, rfl, pending_live (pending_runRequest s p fun f u => rfl)⟩
  case enterConfigEngineClaim => exact ⟨_, rfl, pending_live (pending_claim s)⟩
  case restart p => exact ⟨_, rfl, pending_live (pending_runRequest s p fun f u => pending_ownRestart u p f)⟩
  all_goals cases hrest

theorem step_next (s : State) : ∃ t, step s = .next t := by
  unfold step
  split
  · exact ⟨s, rfl⟩
  · obtain ⟨t, h, -⟩ := exec_next _ { s with pending := _ }
    exact ⟨t, h⟩

theorem core_run_of_step {M : Host.Core} (n : Nat) {s t : M.State} (h : M.step s = .next t) :
    M.run (n + 1) s = M.run n t := by
  rw [Host.Core.run, h]

/-- Settles O2: by induction on the number of steps, each of which is a next state. -/
theorem noRunStops : Obligations.NoRunStops := by
  refine ⟨fun n => ?_, exec_next⟩
  induction n with
  | zero => exact fun s => ⟨s, rfl⟩
  | succ n ih =>
    intro s
    obtain ⟨t, ht⟩ := step_next s
    obtain ⟨u, hu⟩ := ih t
    refine ⟨u, ?_⟩
    exact (core_run_of_step n ht).trans hu

/-! ### CONFIG is quiet -/

/-- A point as CONFIG has it (R13, R174). -/
def PointRec.Quiet (r : PointRec) : Prop :=
  r.seqState = .normal ∧ r.condition = .normal ∧ r.service.endTime = none ∧ r.firstMember = none

namespace State.QuietInConfig

variable {s t : State}

theorem of_mode (h : s.mode ≠ .config) : s.QuietInConfig := fun _ e => absurd e h

theorem of_claim (h : s.engineClaim ≠ none) : s.QuietInConfig := fun _ _ e => absurd e h

theorem intro (hp : ∀ p, (s.pt p).Quiet) (he : ∀ i, (s.ent i).latch = false) (hq : s.changeQueue = []) :
    s.QuietInConfig := fun _ _ _ => ⟨hp, he, hq⟩

theorem fieldSide (hs : s.QuietInConfig) (h : FieldSide s t) : t.QuietInConfig := by
  intro hr hm hc
  have em := h.mode
  obtain ⟨hp, he, hq⟩ := hs (h.inReset ▸ hr) (em ▸ hm) (h.engineClaim ▸ hc)
  refine ⟨?_, ?_, (h.queue (em ▸ hm)).trans hq⟩
  · unfold State.pt at *; rwa [h.points]
  · unfold State.ent at *; rwa [h.map]

theorem apart (hs : s.QuietInConfig) (h : Apart s t) : t.QuietInConfig := hs.fieldSide (.of_apart h)

/-- At the Point Engine's side it is enough that the points and the latches stay quiet. -/
theorem engineSide (hs : s.QuietInConfig) (h : EngineSide s t) (hp : (∀ p, (s.pt p).Quiet) → ∀ p, (t.pt p).Quiet)
    (he : (∀ i, (s.ent i).latch = false) → ∀ i, (t.ent i).latch = false) : t.QuietInConfig := by
  intro hr hm hc
  obtain ⟨kp, ke, kq⟩ := hs (h.inReset ▸ hr) (h.mode ▸ hm) (h.engineClaim ▸ hc)
  exact ⟨hp kp, he ke, h.changeQueue.trans kq⟩

end State.QuietInConfig

/-- A request that CONFIG does not accept leaves a mode that is none. -/
theorem quiet_of_modeOk {k : ReqKind} {f : Frame} {u t : State} (hk : k.modeRule .config = false)
    (hm : u.modeOk k f = true) (h : EngineSide u t) : t.QuietInConfig := by
  refine .of_mode fun e => ?_
  rw [h.mode] at e
  simp [State.modeOk, e, hk] at hm

theorem quiet_runRequest {s : State} (hs : s.QuietInConfig) (p : Port) {k : ReqKind} {form : Frame → Bool}
    {owner : Frame → State → State}
    (ho : ∀ f u, u.modeOk k f = true → u.QuietInConfig → (owner f u).QuietInConfig) :
    (s.runRequest p k form owner).QuietInConfig :=
  runRequest_keeps (fun _ _ hd h => h.apart (.of_decodes hd)) (fun u h => h.apart (Apart.refl u).settle)
    (fun f u hm _ h => ho f u hm h) hs p form

theorem quiet_live {s : State} {f : State → State} (hs : s.QuietInConfig) (h : (f s).QuietInConfig) :
    (s.live f).QuietInConfig := by
  unfold State.live
  split
  · exact hs
  · exact h

theorem quiet_ownSetPoint {u : State} (p : Port) (f : Frame) (hu : u.QuietInConfig) :
    (u.ownSetPoint p f).QuietInConfig := by
  have hr (t : State) (ht : t.QuietInConfig) (st : Status) : (t.respond p f st []).QuietInConfig :=
    ht.apart ((Apart.refl t).respond ..)
  unfold State.ownSetPoint
  dsimp only
  split
  · exact hr _ hu _
  · next c _ =>
    split
    · exact hr _ hu _
    · split
      · exact hr _ hu _
      · have hset : (u.setPt (f.point 0) ((u.pt (f.point 0)).configured c)).QuietInConfig := by
          refine hu.engineSide ⟨rfl⟩ (fun hp q => ?_) id
          rw [State.pt_setPt]
          split
          · exact hp (f.point 0)
          · exact hp q
        exact hr _ hset _

theorem quiet_ownSetMap {u : State} (p : Port) (f : Frame) (hu : u.QuietInConfig) :
    (u.ownSetMap p f).QuietInConfig := by
  have hr (t : State) (ht : t.QuietInConfig) (st : Status) : (t.respond p f st []).QuietInConfig :=
    ht.apart ((Apart.refl t).respond ..)
  have hset (e : MapEntry) (hl : e.latch = (u.ent (f.input 0)).latch) : (u.setEnt (f.input 0) e).QuietInConfig := by
    refine hu.engineSide ⟨rfl⟩ id fun he i => ?_
    rw [State.ent_setEnt]
    split
    · exact hl.trans (he _)
    · exact he i
  unfold State.ownSetMap
  dsimp only
  split
  · exact hr _ hu _
  · exact hr _ (hset (u.ent (f.input 0)).invalidated rfl) _
  · split
    · exact hr _ hu _
    · next e he =>
      split
      · refine hr _ (hset e ?_) _
        simp only [Frame.mapEntry, Option.bind_eq_bind, Option.bind_eq_some_iff, Option.pure_def, Option.some.injEq] at he
        obtain ⟨_, -, _, -, _, -, _, -, rfl⟩ := he
        rfl
      · exact hr _ hu _

/-- A change of service alone, into REMOVED or IN_SERVICE. -/
theorem quiet_setService {u : State} (hu : u.QuietInConfig) (c : Claim) (q : PointNo) (cause : Cause) (v : Service)
    (hv : v.endTime = none) : (u.setService c q cause v none).QuietInConfig := by
  refine hu.engineSide (engineSide_setService ..) (fun hp x => ?_) fun he i => ?_
  · by_cases e : x = q
    · subst e
      obtain ⟨h1, h2, -, h4⟩ := hp x
      rw [setService_pt_self]
      exact ⟨h1, h2, hv, h4⟩
    · rw [(moves_setService u c q cause v none).off x e]
      exact hp x
  · have := he i
    unfold State.ent at *
    rwa [setService_map]

theorem quiet_removePoint {u : State} (hu : u.QuietInConfig) (c : Claim) (q : PointNo) :
    (u.removePoint c q).QuietInConfig := by
  by_cases hm : u.mode = .config
  · rw [State.removePoint, if_neg (by simp [hm])]
    exact quiet_setService hu c q _ _ rfl
  · exact .of_mode (by rwa [(engineSide_removePoint u q c).mode])

theorem quiet_restorePoint {u : State} (hu : u.QuietInConfig) (c : Claim) (q : PointNo) :
    (u.restorePoint c q).QuietInConfig := by
  by_cases hm : u.mode = .config
  · rw [State.restorePoint, if_neg (by simp [hm])]
    exact quiet_setService hu c q _ _ rfl
  · exact .of_mode (by rwa [(engineSide_restorePoint u q c).mode])

theorem quiet_ownRemove {u : State} (p : Port) (f : Frame) (hu : u.QuietInConfig) :
    (u.ownRemove p f).QuietInConfig := by
  unfold State.ownRemove
  dsimp only
  split
  · exact hu.apart ((Apart.refl u).respond ..)
  · exact (quiet_removePoint hu _ _).apart ((Apart.refl _).respond ..)

theorem quiet_ownRestore {u : State} (p : Port) (f : Frame) (hu : u.QuietInConfig) :
    (u.ownRestore p f).QuietInConfig := by
  unfold State.ownRestore
  dsimp only
  split
  · exact (quiet_restorePoint hu _ _).apart ((Apart.refl _).respond ..)
  · exact hu.apart ((Apart.refl u).respond ..)

theorem mode_startRun_respond (s : State) (p : Port) (f : Frame) (a b : Bool) :
    (((s.startRun p a b).respond p f .ok []).beginEvaluation).mode = .starting := by
  rw [mode_beginEvaluation, ((apart_startRun s p a b).respond p f .ok []).mode]

theorem quiet_ownEnterRun {u : State} (p : Port) (f : Frame) (hu : u.QuietInConfig) :
    (u.ownEnterRun p f).QuietInConfig := by
  unfold State.ownEnterRun
  split
  · exact hu.apart ((Apart.refl u).respond ..)
  · split
    · exact hu.apart ((Apart.refl u).respond ..)
    · exact .of_mode (by rw [mode_startRun_respond]; decide)

theorem quiet_restartRun {u : State} (p : Port) (f : Frame) (hu : u.QuietInConfig) :
    (u.restartRun p f).QuietInConfig := by
  unfold State.restartRun
  split
  · exact .of_mode (by rw [mode_startRun_respond]; decide)
  · exact hu.apart ((Apart.refl u).respond ..)

theorem quiet_takeEntry {s : State} (hs : s.QuietInConfig) (kind : EntryKind) {handle : ChangeEntry → State → State}
    (hh : ∀ e t, EngineSide t (handle e t)) : (s.takeEntry kind handle).QuietInConfig := by
  obtain h | ⟨e, rest, hm, -, h⟩ := takeEntry_cases (s := s) (kind := kind) (handle := handle) <;> rw [h]
  · exact hs
  · obtain ⟨more, hf⟩ := freed_eq s rest
    have he : EngineSide (s.freed rest) (if s.unfitted e.input then s.freed rest else handle e (s.freed rest)).settle :=
      (EngineSide.ite (.refl _) (hh e _)).settle
    exact .of_mode (by rw [he.mode, congrArg State.mode hf, hm]; decide)

theorem quiet_evaluateNext {s : State} (hs : s.QuietInConfig) (g : Bool) : (s.evaluateNext g).QuietInConfig := by
  unfold State.evaluateNext
  split
  · exact hs
  · next p _ =>
    split
    · next h =>
      have hm : (s.evaluatePoint p).mode = .starting := (engineSide_evaluatePoint s p).mode.trans h.1
      exact .of_mode (by rw [(Apart.refl _).settle.mode, hm]; decide)
    · exact hs

/-- The points are made quiet, and the mode may be any. -/
theorem quiet_takeEngineClaim (s : State) (c : EngineClaim) : (s.takeEngineClaim c).QuietInConfig := by
  refine State.QuietInConfig.apart (.intro (fun p => ?_) (fun i => ?_) rfl) (apart_takeEngineClaim s c)
  · simp only [State.quietPoints, State.pt, getElem_mapEntries]
    refine ⟨rfl, rfl, ?_, rfl⟩
    unfold PointRec.quiet
    dsimp only
    split <;> rfl
  · simp [State.quietPoints, State.ent]

theorem quiet_powerOn (levels : Vector Level 64) (rate : Bool) (l : List Instr) :
    ({ State.powerOn levels rate with pending := l } : State).QuietInConfig :=
  .intro (fun p => by simp [State.powerOn, State.pt, PointRec.powerOn, PointRec.Quiet, Service.endTime])
    (fun i => by simp [State.powerOn, State.ent, MapEntry.powerOn]) rfl

theorem quiet_passTime {s : State} (hs : s.QuietInConfig) (n : Nat) : (s.passTime n).QuietInConfig := by
  intro hr hm hc
  obtain ⟨hp, he, hq⟩ := hs hr hm hc
  refine ⟨fun p => ?_, he, hq⟩
  have := hp p
  simpa [State.passTime, State.runTimers, State.setClock, State.pt] using this

theorem quiet_exec_engineSide {c : Instr} (hc : atEngineSide c = true) {s t : State} (hs : s.QuietInConfig)
    (h : exec c s = .next t) : t.QuietInConfig := by
  cases c
  case setPoint p => cases h; exact quiet_live hs (quiet_runRequest hs p fun f u _ hu => quiet_ownSetPoint p f hu)
  case setMap p => cases h; exact quiet_live hs (quiet_runRequest hs p fun f u _ hu => quiet_ownSetMap p f hu)
  case remove p => cases h; exact quiet_live hs (quiet_runRequest hs p fun f u _ hu => quiet_ownRemove p f hu)
  case restore p => cases h; exact quiet_live hs (quiet_runRequest hs p fun f u _ hu => quiet_ownRestore p f hu)
  case ackPoint p =>
    cases h
    exact quiet_live hs (quiet_runRequest hs p fun f u hm _ => quiet_of_modeOk rfl hm (engineSide_ownAckPoint u p f))
  case ackPointMembers p =>
    cases h
    exact quiet_live hs (quiet_runRequest hs p fun f u hm _ => quiet_of_modeOk rfl hm (engineSide_ownAckMembers u p f))
  case ackClass p =>
    cases h
    exact quiet_live hs (quiet_runRequest hs p fun f u hm _ => quiet_of_modeOk rfl hm (engineSide_ownAckClass u p f))
  case ackAll p =>
    cases h
    exact quiet_live hs (quiet_runRequest hs p fun f u hm _ => quiet_of_modeOk rfl hm (engineSide_ownAckAll u p f))
  case resetPoint p =>
    cases h
    exact quiet_live hs (quiet_runRequest hs p fun f u hm _ => quiet_of_modeOk rfl hm (engineSide_ownResetPoint u p f))
  case resetAll p =>
    cases h
    exact quiet_live hs (quiet_runRequest hs p fun f u hm _ => quiet_of_modeOk rfl hm (engineSide_ownResetAll u p f))
  case shelve p =>
    cases h
    exact quiet_live hs (quiet_runRequest hs p fun f u hm _ => quiet_of_modeOk rfl hm (engineSide_ownShelve u p f))
  case unshelve p =>
    cases h
    exact quiet_live hs (quiet_runRequest hs p fun f u hm _ => quiet_of_modeOk rfl hm (engineSide_ownUnshelve u p f))
  case shelveExpiry q =>
    cases h
    refine quiet_live hs ?_
    split
    · next h => exact .of_mode (by rw [(engineSide_shelveExpired s q).settle.mode, h.1]; decide)
    · exact hs
  all_goals cases hc

theorem quiet_exec {c : Instr} {s t : State} (hs : s.QuietInConfig) (h : exec c s = .next t) : t.QuietInConfig := by
  by_cases ha : keepsApart c = true
  · obtain ⟨t', h', ht⟩ := exec_apart ha s
    cases h.symm.trans h'
    exact hs.apart ht
  by_cases hf : atFieldSide c = true
  · obtain ⟨t', h', ht⟩ := exec_fieldSide hf s
    cases h.symm.trans h'
    exact hs.fieldSide ht
  by_cases he : atEngineSide c = true
  · exact quiet_exec_engineSide he hs h
  have hrest : (keepsApart c || atFieldSide c || atEngineSide c) = false := by simp [ha, hf, he]
  cases c
  case powerOn l r => cases h; exact quiet_powerOn l r _
  case resetNLow => cases h; exact fun hr => nomatch hr
  case timebaseMillisecond n => cases h; exact quiet_live hs (quiet_passTime hs n)
  case levelEntry =>
    cases h; exact quiet_live hs (quiet_takeEntry hs _ fun e t => engineSide_handleLevel t e)
  case qualityEntry =>
    cases h; exact quiet_live hs (quiet_takeEntry hs _ fun e t => engineSide_handleQuality t e)
  case enterRun p =>
    cases h
    refine quiet_live hs ?_
    split
    · exact (quiet_restartRun p _ hs).apart (Apart.refl _).settle
    · exact quiet_runRequest hs p fun f u _ hu => quiet_ownEnterRun p f hu
  case fieldPointEvaluation => cases h; exact quiet_live hs (quiet_evaluateNext hs _)
  case groupPointEvaluation => cases h; exact quiet_live hs (quiet_evaluateNext hs _)
  case endOfInitialEvaluation =>
    cases h
    refine quiet_live hs ?_
    split
    · exact .of_mode (by rw [(apart_endEvaluation s).settle.mode]; exact nofun)
    · exact hs
  case enterConfig p =>
    cases h
    exact quiet_live hs (quiet_runRequest hs p fun f u _ _ => .of_claim (by simp [State.ownEnterConfig, State.leaveRun, State.setStage]))
  case enterConfigEngineClaim =>
    cases h
    refine quiet_live hs ?_
    split
    · exact hs
    · exact (quiet_takeEngineClaim s _).apart (Apart.refl _).settle
  case restart p =>
    cases h
    refine quiet_live hs (quiet_runRequest hs p fun f u _ _ => ?_)
    obtain ⟨v, -, hv⟩ := fieldSide_restart u p f
    exact .of_claim (by rw [hv.engineClaim]; simp [State.leaveRun])
  all_goals cases hrest

/-- A property that every command keeps, whatever waits behind it, is kept by every step. -/
theorem step_keeps {I : State → Prop} (hp : ∀ s l, I s → I { s with pending := l })
    (he : ∀ c s t, I s → exec c s = .next t → I t) {s t : State} (hs : I s) (h : step s = .next t) : I t := by
  unfold step at h
  split at h
  · cases h; exact hs
  · exact he _ _ _ (hp _ _ hs) h

/-- Settles O58, by the commands: those of the points need RUN or keep the points quiet, and the others keep to themselves. -/
theorem quietKept : Obligations.QuietKept := fun _ _ hs h =>
  step_keeps (fun _ _ => id) (fun _ _ _ => quiet_exec) hs h

end Sys2Proof.Machine
end

section
/-! PROOFS. Requests that only read (R30, R110 to R112, R129, R132, R150, R190, R191) or only store (R66, R131, R150, R158),
and the rows they share: how a request that is taken ends. -/

namespace Sys2Proof.Machine

/-! ### How a request that is taken ends -/

/-- The request taken and in progress at its port. -/
def State.begun (s : State) (p : Port) (f : Frame) : State :=
  { s with commandCapture := s.captured p f, stations := s.stations.set p.val ((s.stn p).begun f) }

theorem beginRequest_eq_begun (s : State) (p : Port) (f : Frame) : s.beginRequest p f = s.begun p f :=
  beginRequest_eq s p f

theorem begun_stations (s : State) (p : Port) (f : Frame) : (s.begun p f).stations = (s.beginRequest p f).stations :=
  congrArg State.stations (beginRequest_eq s p f).symm

theorem stn_begun_self (s : State) (p : Port) (f : Frame) : (s.begun p f).stn p = (s.stn p).begun f := by
  simp [State.begun, State.stn]

theorem stn_begun_of_ne (s : State) {p q : Port} (f : Frame) (h : q ≠ p) : (s.begun p f).stn q = s.stn q := by
  have hne : p.val ≠ q.val := fun e => h (Fin.ext e.symm)
  simp [State.begun, State.stn, hne]

section
variable {s : State} {p : Port} {k : ReqKind} {f : Frame} {form : Frame → Bool} {st : Status} {r : List Byte}

/-- The owner runs on the request begun, and what it handed on is raised. -/
theorem next_of_takes (h : s.Takes p k f) (hf : form f = true) (owner : Frame → State → State) :
    (.next (s.live fun s => s.runRequest p k form owner) : Result) = .next (owner f (s.begun p f)).settle := by
  rw [← beginRequest_eq_begun]
  exact congrArg Host.Outcome.next ((live_of h.outOfReset _).trans (runRequest_of_takes h hf owner))

/-- An owner that stores in a state `u` and responds. -/
theorem next_stored (h : s.Takes p k f) (hf : form f = true) {owner : Frame → State → State} {u : State}
    (ho : owner f (s.begun p f) = u.respond p f st r) (hu : u.stations = (s.begun p f).stations)
    (hr : u.raisings = s.raisings) :
    (.next (s.live fun s => s.runRequest p k form owner) : Result) =
      .next { u with stations := (s.answered p f st r).stations } := by
  have hnone : (u.respond p f st r).raisings = [] := (respond_raisings ..).trans (hr.trans h.noRaising)
  rw [next_of_takes h hf, ho, settle_of_none hnone, respond_begun (hu.trans (begun_stations s p f))]
  rfl

/-- An owner that only responds. -/
theorem next_answered (h : s.Takes p k f) (hf : form f = true) {owner : Frame → State → State}
    (ho : owner f (s.begun p f) = (s.begun p f).respond p f st r) :
    (.next (s.live fun s => s.runRequest p k form owner) : Result) = .next (s.answered p f st r) :=
  next_stored h hf ho rfl rfl

end

/-! ### Arguments in their sets -/

theorem below_eq_none_iff {n x : Nat} : below n x = none ↔ n ≤ x := by
  unfold below
  split <;> simp_all

theorem choice_eq_none_iff {x : Nat} : choice x = none ↔ 1 < x := by
  unfold choice
  split
  · simp_all
  · split <;> simp_all
    omega

theorem choice_of_le {x : Nat} (h : x ≤ 1) : choice x = some (x == 1) := by
  obtain rfl | rfl : x = 0 ∨ x = 1 := by omega
  · rfl
  · rfl

theorem Flag.ofCode_code (g : Flag) : Flag.ofCode g.code.val = some g := by cases g <;> rfl

theorem Flag.ofCode_eq_some_iff {x : Nat} {g : Flag} : Flag.ofCode x = some g ↔ x = g.code.val := by
  refine ⟨fun h => ?_, fun h => h ▸ g.ofCode_code⟩
  have := List.find?_some h
  exact (beq_iff_eq.mp this).symm

theorem Flag.ofCode_eq_none {x : Nat} (h : 10 < x) : Flag.ofCode x = none := by
  refine List.find?_eq_none.mpr fun g _ => ?_
  have : g.code.val < 11 := g.code.isLt
  simp only [beq_iff_eq]
  omega

theorem Frame.readRange_of_bad {f : Frame} {most : Nat}
    (h : f.arg 1 = 0 ∨ most < f.arg 1 ∨ 256 < f.arg 0 + f.arg 1) : f.readRange most = none := by
  unfold Frame.readRange
  exact if_neg (by omega)

theorem Frame.readRange_of_good {f : Frame} {most : Nat}
    (h : ¬ (f.arg 1 = 0 ∨ most < f.arg 1 ∨ 256 < f.arg 0 + f.arg 1)) :
    f.readRange most = some ((List.range (f.arg 1)).map fun n => Fin.ofNat 256 (f.arg 0 + n)) := by
  unfold Frame.readRange
  exact if_pos (by omega)

/-! ### Ranges (R30, R129, R132) -/

/-- Settles O26, row by row. -/
theorem rangesRead : Obligations.RangesRead := by
  intro s p f
  refine ⟨fun h => ⟨fun hb => ?_, fun hg => ?_⟩, fun h => ⟨fun hb => ?_, fun hg => ?_⟩, fun h => ⟨fun hb => ?_, fun hg => ?_⟩⟩
  · exact next_answered h rfl (by simp only [State.ownReadPoint, Frame.readRange_of_bad hb])
  · exact next_answered h rfl (by simp only [State.ownReadPoint, Frame.readRange_of_good hg]; rfl)
  · exact next_answered h rfl (by simp only [State.ownReadMap, Frame.readRange_of_bad hb])
  · exact next_answered h rfl (by simp only [State.ownReadMap, Frame.readRange_of_good hg]; rfl)
  · exact next_answered h rfl (if_neg (by omega))
  · exact next_answered h rfl (if_pos (by omega))

/-! ### READ_UNIT, READ_PORT, READ_LOG and READ_STATUS (R110 to R112, R150, R190, R191) -/

/-- What READ_PORT shows does not touch the intake or the request in progress. -/
theorem portResults_begun (s : State) (p q : Port) (f : Frame) : (s.begun p f).portResults q = s.portResults q := by
  unfold State.portResults
  by_cases h : q = p
  · subst h
    rw [stn_begun_self]
    rfl
  · rw [stn_begun_of_ne s f h]
    rfl

namespace EventLog

variable (l : EventLog) (start count : Nat)

theorem length_read_le : (l.read start count).2.length ≤ count := by
  unfold EventLog.read
  split
  · exact List.length_take_le ..
  · split
    · exact Nat.zero_le _
    · exact List.length_take_le ..

theorem read_isInfix : (l.read start count).2 <:+: l.ring := by
  unfold EventLog.read
  split
  · exact (List.take_prefix ..).isInfix.trans (List.drop_suffix ..).isInfix
  · split
    · exact List.nil_infix
    · exact (List.take_prefix ..).isInfix

variable {l start count}

/-- The start number is held: the records from it on. -/
theorem read_of_held {before after : List EventRecord} {r : EventRecord} (h : l.ring = before ++ r :: after)
    (hr : r.seq = start) (hb : ∀ x ∈ before, x.seq ≠ start) : l.read start count = (false, (r :: after).take count) := by
  have hi : l.ring.findIdx? (fun r => r.seq == start) = some before.length := by
    rw [h, List.findIdx?_append, List.findIdx?_eq_none_iff.mpr (by simpa using hb)]
    simp [List.findIdx?_cons, hr]
  unfold EventLog.read
  rw [hi, h]
  simp

/-- The start number is not held. -/
theorem read_of_not_held (h : ∀ r ∈ l.ring, r.seq ≠ start) :
    l.read start count =
      if l.ring = [] ∨ seqAfter l.newest start = true then (false, []) else (true, l.ring.take count) := by
  have hi : l.ring.findIdx? (fun r => r.seq == start) = none := List.findIdx?_eq_none_iff.mpr (by simpa using h)
  simp [EventLog.read, hi]

end EventLog

/-- Settles O27: READ_LOG by whether the start number is held. -/
theorem stateRead : Obligations.StateRead := by
  intro s p f
  refine ⟨fun h => next_answered h rfl rfl, fun h => ⟨fun hb => ?_, fun q hq => ?_⟩, fun h => ⟨fun hb => ?_, fun h0 h1 h8 => ?_⟩,
    fun h => next_answered h rfl ?_⟩
  · exact next_answered h rfl (by simp only [State.ownReadPort, below_eq_none_iff.mpr hb])
  · exact next_answered h rfl
      (by simp only [State.ownReadPort, below_eq_some_iff.mpr hq, portResults_begun])
  · exact next_answered h rfl (if_pos hb)
  · refine ⟨(s.log.read (f.arg4 0) (f.arg 4)).1, (s.log.read (f.arg4 0) (f.arg 4)).2,
      next_answered h rfl (if_neg (by omega)), EventLog.length_read_le .., EventLog.read_isInfix .., ?_, ?_, ?_, ?_⟩
    · intro before r after hring hr hb
      rw [EventLog.read_of_held hring hr hb]
      exact ⟨rfl, rfl⟩
    · intro hn hne ha
      rw [EventLog.read_of_not_held hn, if_neg (by simp [hne, ha])]
      exact ⟨rfl, rfl⟩
    · intro hn ha
      rw [EventLog.read_of_not_held hn, if_pos (.inr ha)]
      exact ⟨rfl, rfl⟩
    · intro he
      rw [EventLog.read_of_not_held (by simp [he]), if_pos (.inl he)]
      exact ⟨rfl, rfl⟩
  · rfl

/-! ### Settings (R66, R131, R150, R158) -/

theorem levelOf_of_le {x : Nat} (h : x ≤ 1) : levelOf x = some (if x = 0 then .opened else .closed) := by
  obtain rfl | rfl : x = 0 ∨ x = 1 := by omega
  · rfl
  · rfl

theorem levelOf_eq_none {x : Nat} (h : 1 < x) : levelOf x = none :=
  List.find?_eq_none.mpr fun l _ => by cases l <;> simp only [levelCode, beq_iff_eq] <;> omega

theorem EntryMode.ofCode_of_le {x : Nat} (h : x ≤ 1) : EntryMode.ofCode x = some (if x = 0 then .level else .pulse) := by
  obtain rfl | rfl : x = 0 ∨ x = 1 := by omega
  · rfl
  · rfl

theorem EntryMode.ofCode_eq_none {x : Nat} (h : 1 < x) : EntryMode.ofCode x = none :=
  List.find?_eq_none.mpr fun m _ => by cases m <;> simp only [EntryMode.code, beq_iff_eq] <;> omega

theorem Frame.mapEntry_of_good {f : Frame} (old : MapEntry) (h3 : f.arg 3 ≤ 1) (h4 : f.arg 4 ≤ 1) (h5 : f.arg 5 ≤ 1)
    (h6 : f.arg 6 ≤ 1) :
    f.mapEntry old = some { old with
      valid := true, point := some (f.point 2), normal := if f.arg 3 = 0 then .opened else .closed
      mode := if f.arg 4 = 0 then .level else .pulse, trap := f.arg 5 == 1, record := f.arg 6 == 1 } := by
  simp [Frame.mapEntry, levelOf_of_le h3, EntryMode.ofCode_of_le h4, choice_of_le h5, choice_of_le h6]

theorem Frame.mapEntry_of_bad {f : Frame} (old : MapEntry)
    (h : 1 < f.arg 3 ∨ 1 < f.arg 4 ∨ 1 < f.arg 5 ∨ 1 < f.arg 6) : f.mapEntry old = none := by
  obtain h | h | h | h := h
  · simp [Frame.mapEntry, levelOf_eq_none h]
  · simp [Frame.mapEntry, EntryMode.ofCode_eq_none h]
  · simp [Frame.mapEntry, choice_eq_none_iff.mpr h]
  · simp [Frame.mapEntry, choice_eq_none_iff.mpr h]

theorem ownSetMap_of_bad {u : State} {p : Port} {f : Frame} (hc : f.arg 1 = 1)
    (h : 1 < f.arg 3 ∨ 1 < f.arg 4 ∨ 1 < f.arg 5 ∨ 1 < f.arg 6 ∨ (u.pt (f.point 2)).kind ≠ .field) :
    u.ownSetMap p f = u.respond p f .badArgument [] := by
  unfold State.ownSetMap
  rw [hc, show choice 1 = some true from rfl]
  dsimp only
  by_cases hv : 1 < f.arg 3 ∨ 1 < f.arg 4 ∨ 1 < f.arg 5 ∨ 1 < f.arg 6
  · rw [Frame.mapEntry_of_bad _ hv]
  · rw [Frame.mapEntry_of_good _ (by omega) (by omega) (by omega) (by omega)]
    have hk : (u.pt (f.point 2)).kind ≠ .field := by tauto
    exact if_neg hk

theorem ownSetMap_of_good {u : State} {p : Port} {f : Frame} {e : MapEntry} (hc : f.arg 1 = 1)
    (he : f.mapEntry (u.ent (f.input 0)) = some e) (hk : (u.pt (f.point 2)).kind = .field) :
    u.ownSetMap p f = (u.setEnt (f.input 0) e).respond p f .ok [] := by
  unfold State.ownSetMap
  rw [hc, show choice 1 = some true from rfl]
  dsimp only
  rw [he]
  exact if_pos hk

/-- An entry stored beside the answer. -/
theorem next_setMap {s : State} {p : Port} {f : Frame} (h : s.Takes p .setMap f) {e : MapEntry}
    (ho : (s.begun p f).ownSetMap p f = ((s.begun p f).setEnt (f.input 0) e).respond p f .ok []) :
    exec (.setMap p) s = .next { s.answered p f .ok [] with map := (s.setEnt (f.input 0) e).map } :=
  next_stored (u := (s.begun p f).setEnt (f.input 0) e) h rfl ho rfl rfl

theorem next_setRoute {s : State} {p : Port} {f : Frame} (h : s.Takes p .setRoute f) {g : Flag} {port : Port}
    {cls : PClass} (hg : f.arg 0 = g.code.val) (hp : f.arg 1 = port.val) (he : f.arg 2 ≤ 1) (hc : f.arg 3 = cls.val) :
    exec (.setRoute p) s = .next { s.answered p f .ok [] with
      routes := (s.setRoute g { port := port, enable := f.arg 2 == 1, cls := cls }).routes } := by
  refine next_stored (u := (s.begun p f).setRoute g { port := port, enable := f.arg 2 == 1, cls := cls }) h rfl ?_ rfl rfl
  simp only [State.ownSetRoute, Flag.ofCode_eq_some_iff.mpr hg, below_eq_some_iff.mpr hp, choice_of_le he,
    below_eq_some_iff.mpr hc]

theorem ownSetRoute_of_bad {u : State} {p : Port} {f : Frame}
    (h : 10 < f.arg 0 ∨ 3 < f.arg 1 ∨ 1 < f.arg 2 ∨ 7 < f.arg 3) :
    u.ownSetRoute p f = u.respond p f .badArgument [] := by
  unfold State.ownSetRoute
  split
  · next g port e c hg hp he hc =>
    have h0 := Flag.ofCode_eq_some_iff.mp hg
    have h1 := below_eq_some_iff.mp hp
    have h2 := choice_eq_some_iff.mp he
    have h3 := below_eq_some_iff.mp hc
    have := g.code.isLt
    have := e.toNat_le
    omega
  · rfl

theorem thresholdOf_class {x : Nat} {c : PClass} (h : x = c.val) : thresholdOf x = some (some c) := by
  unfold thresholdOf
  rw [if_neg (by omega), below_eq_some_iff.mpr h]
  rfl

theorem thresholdOf_bad {x : Nat} (h : 7 < x) (h' : x ≠ 255) : thresholdOf x = none := by
  unfold thresholdOf
  rw [if_neg (by omega), below_eq_none_iff.mpr (by omega)]
  rfl

/-- Settles O29: the four requests, each by its argument check. -/
theorem settingsStored : Obligations.SettingsStored := by
  intro s p f
  refine ⟨fun h => ⟨fun hb => ?_, fun h0 => ?_, fun h1 => ⟨fun hb => ?_, fun h3 h4 h5 h6 hk => ?_⟩⟩,
    fun h => ⟨fun hb => ?_, fun h0 h1 => ?_⟩, fun h => ⟨fun hb => ?_, fun g port cls => next_setRoute h⟩,
    fun h => ⟨fun h0 h1 => ?_, fun h0 => ?_, fun c hc => ?_⟩⟩
  · exact next_answered h rfl (by simp only [State.ownSetMap, choice_eq_none_iff.mpr hb])
  · exact next_setMap h (by simp only [State.ownSetMap, h0]; rfl)
  · exact next_answered h rfl (ownSetMap_of_bad h1 hb)
  · exact next_setMap h (ownSetMap_of_good h1 (Frame.mapEntry_of_good _ h3 h4 h5 h6) hk)
  · exact next_answered h rfl (if_neg (by omega))
  · exact next_stored (u := { s.begun p f with link := { s.link with pollCycle := f.arg 0 } }) h rfl
      (if_pos ⟨h0, h1⟩) rfl rfl
  · exact next_answered h rfl (ownSetRoute_of_bad hb)
  · exact next_answered h rfl (by simp only [State.ownSetAudible, thresholdOf_bad h0 h1])
  · exact next_stored (u := { s.begun p f with audibleThreshold := none }) h rfl
      (by simp only [State.ownSetAudible, h0]; rfl) rfl rfl
  · exact next_stored (u := { s.begun p f with audibleThreshold := some c }) h rfl
      (by simp only [State.ownSetAudible, thresholdOf_class hc]) rfl rfl

end Sys2Proof.Machine
end

section
/-! PROOFS. Power-on, RESET_N and the passing of time (R176, R177), and the tables of the sequences (R14 to R16). -/

namespace Sys2Proof.Machine

/-! ### Power-on (R176) -/

section
variable (levels : Vector Level 64) (rate : Bool)

theorem pt_powerOn (p : PointNo) : (State.powerOn levels rate).pt p = PointRec.powerOn := by
  simp [State.powerOn, State.pt]

theorem ent_powerOn (i : InputNo) : (State.powerOn levels rate).ent i = MapEntry.powerOn := by
  simp [State.powerOn, State.ent]

theorem line_powerOn (l : LineNo) : (State.powerOn levels rate).line l = LineRec.powerOn levels[l] := by
  simp [State.powerOn, State.line]

theorem inp_powerOn_line (l : LineNo) :
    (State.powerOn levels rate).inp (lineInput l) = InputRec.powerOn levels[l] false := by
  have hl : (lineInput l).val = l.val := Nat.mod_eq_of_lt (by omega)
  simp only [State.powerOn, State.inp, hl]
  rw [getElem_padEntries_lt _ _ _ _ l.isLt]
  simp

theorem inp_powerOn_remote (i : InputNo) (h : 64 ≤ i.val) :
    (State.powerOn levels rate).inp i = InputRec.powerOn .opened true :=
  getElem_padEntries_ge (mapEntries (fun l => InputRec.powerOn l false) levels) 192 _ i.val h i.isLt

theorem dsp_powerOn (p : Port) : (State.powerOn levels rate).dsp p = Dispatch.powerOn := by
  simp [State.powerOn, State.dsp]

theorem unit_powerOn (u : UnitNo) : (State.powerOn levels rate).unit u = UnitRec.powerOn := by
  simp [State.powerOn, Link.powerOn, State.unit]

theorem stn_powerOn (p : Port) : (State.powerOn levels rate).stn p = Station.powerOn p := by
  fin_cases p <;> rfl

theorem flagSet_powerOn (f : Flag) : (State.powerOn levels rate).flagSet f = false := by
  simp [State.powerOn, State.flagSet, hasBit]

theorem paired_powerOn (k : PairNo) : (State.powerOn levels rate).paired k = false := by
  simp [State.powerOn, State.paired, FilterSettings.powerOn, hasBit]

end

theorem val_remoteInput (u : UnitNo) {l : Nat} (h : l < 64) : (remoteInput u l).val = 64 * (u.val + 1) + l :=
  Nat.mod_eq_of_lt (by omega)

/-- Settles O3, field by field. -/
theorem powerOnValues : Obligations.PowerOnValues := by
  intro levels rate s
  have hpaired := paired_powerOn levels rate
  refine ⟨{ State.powerOn levels rate with pending := s.pending }, rfl, rfl, rfl, rfl, rfl, rfl, rfl, rfl, rfl, rfl, rfl,
    rfl, rfl, flagSet_powerOn levels rate, fun f => ?_, rfl, rfl, rfl, rfl, rfl, rfl, rfl, rfl, rfl, rfl,
    pt_powerOn levels rate, ent_powerOn levels rate, line_powerOn levels rate, inp_powerOn_line levels rate,
    fun u l hl => inp_powerOn_remote levels rate _ (by rw [val_remoteInput u hl]; omega), fun k => ?_, hpaired, rfl, rfl, rfl,
    fun l => ?_, dsp_powerOn levels rate, rfl, rfl, rfl, rfl, rfl, rfl, rfl, rfl, unit_powerOn levels rate,
    stn_powerOn levels rate⟩
  · simp [State.powerOn, State.route]
  · simp [State.powerOn, State.pairTimer]
  · simp [State.powerOn, State.debounceTime, FilterSettings.powerOn]

/-! ### The invariants at reset -/

theorem ancestor_powerOn (levels : Vector Level 64) (rate : Bool) (p q : PointNo) (n : Nat) :
    (State.powerOn levels rate).ancestor (n + 1) p ≠ some q := by
  rw [ne_eq, ancestor_succ, pt_powerOn]
  simp [PointRec.powerOn]

/-- Settles O55. -/
theorem invariantsAtReset : Obligations.InvariantsAtReset := by
  refine ⟨rfl, rfl, ⟨fun p => ?_, Nat.zero_le _, fun p => ?_⟩, fun p _ => ?_, ⟨Nat.zero_le _, trivial, rfl, rfl⟩,
    quiet_powerOn _ _ [], ⟨fun p => ?_, fun p g h => ?_, fun i h => ?_⟩, fun l => ?_, fun i => ?_, ⟨fun u _ i hi => ?_, nofun⟩,
    ⟨by decide, by decide⟩, fun h => absurd rfl h, fun _ => ⟨nofun, nofun⟩, rfl⟩
  · rw [State.reset, dsp_powerOn]; exact Nat.zero_le _
  · rw [State.reset, stn_powerOn]; exact Nat.zero_le _
  · rw [State.reset, dsp_powerOn]; exact ⟨rfl, rfl, rfl⟩
  · by_contra hd
    obtain ⟨q, hq⟩ := (le_depth_iff (s := State.reset) (n := 4) (k := 4) le_rfl).mp (by omega : 4 ≤ State.reset.depth 4 p)
    exact ancestor_powerOn _ _ _ _ 3 hq
  · rw [State.reset, pt_powerOn] at h; cases h
  · rw [State.reset, ent_powerOn] at h; cases h
  · rw [State.reset, inp_powerOn_line, line_powerOn]; rfl
  · by_cases h : i.val < 64
    · have hi : i = lineInput ⟨i.val, h⟩ := Fin.ext (Nat.mod_eq_of_lt i.isLt).symm
      rw [hi, State.reset, inp_powerOn_line]
      rfl
    · rw [State.reset, inp_powerOn_remote _ _ _ (by omega)]
      rfl
  · obtain ⟨l, hl, rfl⟩ := List.mem_map.mp hi
    have := List.mem_range.mp hl
    rw [State.reset, inp_powerOn_remote _ _ _ (by rw [val_remoteInput u this]; omega)]
    rfl

/-! ### RESET_N low (R176) -/

theorem live_inReset {s : State} (h : s.inReset = true) (f : State → State) : s.live f = s := if_pos h

/-- While RESET_N is low no command but its release and RESET_N itself does anything. -/
theorem exec_inReset {c : Instr} {s : State} (h : s.inReset = true) (hc : c ≠ .resetNLow)
    (hp : ∀ levels rate, c ≠ .powerOn levels rate) : exec c s = .next s := by
  cases c
  case powerOn l r => exact absurd rfl (hp l r)
  case resetNLow => exact absurd rfl hc
  all_goals exact congrArg Host.Outcome.next (live_inReset h _)

/-- Settles O4. -/
theorem resetNLowEndsAll : Obligations.ResetNLowEndsAll := by
  refine ⟨fun c s h hc hp => exec_inReset h hc hp, fun s => ⟨s.resetLow, rfl, rfl, rfl, rfl, rfl, fun l => ?_, fun i => ?_,
    fun k => ?_, fun p => ?_, fun p => ?_, fun p => ?_, rfl⟩⟩
  · simp [State.resetLow, State.line]
  · simp [State.resetLow, State.inp]
  · simp [State.resetLow, State.pairTimer]
  · simp [State.resetLow, State.pt]
  · simp [State.resetLow, State.dsp]
  · simp [State.resetLow, State.stn, Station.cutOff]

/-! ### Milliseconds (R177) -/

theorem runDown_eq (n : Nat) (t : Option Nat) : runDown n t = t.map (· - n) := rfl

/-- The time of day counts modulo its range. -/
theorem TimeStamp.addMs_total (t : TimeStamp) (n : Nat) :
    (t.addMs n).day * 86400000 + (t.addMs n).ms = (t.day * 86400000 + t.ms + n) % (65536 * 86400000) := by
  simp only [TimeStamp.addMs, Config.dayMs, Config.dayCount]
  omega

theorem TimeStamp.addMs_inRange (t : TimeStamp) (n : Nat) : (t.addMs n).day < 65536 ∧ (t.addMs n).ms < 86400000 :=
  ⟨Nat.mod_lt _ (by decide), Nat.mod_lt _ (by decide)⟩

/-- Settles O5, timer by timer. -/
theorem millisecondsPass : Obligations.MillisecondsPass := by
  intro n s hlive hclock
  refine ⟨s.passTime n, congrArg Host.Outcome.next (live_of hlive _), (s.now.addMs_inRange n).1, (s.now.addMs_inRange n).2,
    s.now.addMs_total n, rfl, fun p => ?_, fun i => ?_, fun k => ?_, fun p => ?_, fun p => ?_, fun p h => ?_,
    fun p bytes gap h => ?_, rfl, fun h => ?_, fun x h hx => ?_, fun x left h hx => ?_, rfl, rfl⟩
  · simp [State.passTime, State.runTimers, State.pt, State.setClock, runDown_eq]
  · simp [State.passTime, State.runTimers, State.inp, State.setClock, runDown_eq]
  · simp [State.passTime, State.runTimers, State.pairTimer, State.setClock, runDown_eq]
  · simp [State.passTime, State.runTimers, State.dsp, State.setClock, runDown_eq]
  · simp [State.passTime, State.runTimers, State.stn, State.setClock]
  · have h' : s.stations[p.val].rx = .hunting := h
    simp [State.passTime, State.runTimers, State.stn, State.setClock, h', StationRx.runDown]
  · have h' : s.stations[p.val].rx = .partialFrame bytes gap := h
    simp [State.passTime, State.runTimers, State.stn, State.setClock, h', StationRx.runDown]
  · simp [State.passTime, State.runTimers, State.setClock, Link.runDown, h]
  · have hx' : { x with phase := x.phase.runDown n } = x := by
      obtain ⟨u, k, m, ph, v⟩ := x
      subst hx
      rfl
    simp [State.passTime, State.runTimers, State.setClock, Link.runDown, h, hx']
  · simp [State.passTime, State.runTimers, State.setClock, Link.runDown, h, hx, ExchangePhase.runDown]

end Sys2Proof.Machine
end

section
/-! PROOFS. The sequence tables (R14 to R16) and what a condition formed does to a point (R12). -/

namespace Sys2Proof.Machine

/-! ### The sequence tables (R14 to R16) -/

theorem qualifies_emitPoint (s : State) (c : Claim) (p : PointNo) (cause : Cause) (b : RecordBody) (k : PClass) :
    (s.emitPoint c p cause b).qualifies k = s.qualifies k := by
  have h := (moves_emitPoint (S := fun _ => False) s c p cause b).emits.rest
  have e : (s.emitPoint c p cause b).audibleThreshold = s.audibleThreshold := by
    have e := congrArg State.audibleThreshold h
    exact e
  simp only [State.qualifies, e]

/-- A transition is its record with the notices, and an entry into ALERT may set the audible request (R19, R24). -/
theorem transition_eq (s : State) (c : Claim) (p : PointNo) (cause : Cause) (st : SeqState) :
    s.transition c p cause st =
      let r := s.pt p
      let t := (s.setPt p { r with seqState := st }).emitPoint c p cause
        (.pointState r.seqState st r.condition r.shownMember)
      if r.service = .inService ∧ st = .alert ∧ r.seqState ≠ .alert ∧ s.qualifies r.cls = true then
        { t with audibleRequest := true }
      else t := by
  unfold State.transition State.testAudible
  dsimp only
  rw [emitPoint_pt_self, State.pt_setPt_self, qualifies_emitPoint]
  rfl

theorem inService_of_driven {r : PointRec} {c : Condition} {st : SeqState} (h : r.driven c = some st) :
    r.service = .inService := by
  unfold PointRec.driven at h
  split at h
  · next hc => exact hc.2.1
  · cases h

/-- A condition that drives the point takes it to the state of its cell in one step. -/
theorem recordCondition_of_driven {s : State} {p : PointNo} {cond : Condition} {st : SeqState} (c : Claim) (cause : Cause)
    (h : (s.pt p).driven cond = some st) :
    s.recordCondition c p cause cond =
      let r := s.pt p
      let t := (s.setPt p { r with condition := cond, seqState := st }).emitPoint c p cause
        (.pointState r.seqState st cond r.shownMember)
      if st = .alert ∧ r.seqState ≠ .alert ∧ s.qualifies r.cls = true then { t with audibleRequest := true } else t := by
  have hv := inService_of_driven h
  rw [recordCondition_eq, h]
  dsimp only
  rw [transition_eq, State.pt_setPt_self]
  dsimp only
  rw [State.setPt_setPt]
  exact if_congr (and_iff_right hv) rfl rfl

/-- Settles O54: the rows of the tables by evaluation, and the condition formed by what it drives the point to. -/
theorem sequencesMove : Obligations.SequencesMove := by
  refine ⟨by decide, by decide, by decide, fun s claim p cause => ?_, fun s claim p cause c => ?_⟩
  · intro r member ht hs hc hv hk
    have hd : r.driven .normal = some .acked := by
      rw [PointRec.driven, if_pos ⟨by simp [hc], hv, hk⟩, ht, hs, hc]
      rfl
    have hr : { r with condition := .normal, seqState := .acked } = { r with condition := .normal } := by rw [← hs]
    rw [recordCondition_of_driven claim cause hd]
    dsimp only
    rw [if_neg (fun h => nomatch h.1), hr, hs]
    rfl
  · intro r event
    refine ⟨fun h => ?_, fun h hv => ?_, fun st h hv hk htab => ?_⟩
    · rw [recordCondition_eq, PointRec.driven, if_neg (fun e => e.1 h)]
      exact if_pos h
    · rw [recordCondition_eq, PointRec.driven, if_neg (by tauto)]
      exact if_neg h
    · exact recordCondition_of_driven claim cause ((if_pos ⟨h, hv, hk⟩).trans htab)

end Sys2Proof.Machine
end

section
/-! PROOFS. What an expiry raises and a request records: the loss of sync (R180), SET_TIME (R178), SILENCE, CLEAR_FLAGS,
TEST_SOURCE and CLEAR_FAULT (R65, R159, R160, R164). -/

namespace Sys2Proof.Machine

/-! ### A raising settled -/

theorem settle_cons {s : State} {r : Raising} {rest : List Raising} (h : s.raisings = r :: rest) :
    s.settle = (({ s with raisings := rest } : State).raise r).drain (4 * rest.length + 67) := by
  have hfuel : s.drainFuel = (4 * rest.length + 67) + 1 := by
    simp only [State.drainFuel, h, List.length_cons]
    omega
  rw [State.settle, hfuel, State.drain, h]

theorem handOn_cleared {s : State} (hr : s.raisings = []) (r : Raising) :
    ({ s.handOn r with raisings := [] } : State) = s := by
  cases s
  cases hr
  rfl

/-- What one raising settled leaves: its flag set, its record first, and the flags that follow from it. -/
theorem settled_handOn {s : State} (hr : s.raisings = []) (hb : s.log.ring.length ≤ 1024) (r : Raising) :
    OnlyEmits s (s.handOn r).settle ∧ (s.handOn r).settle.flagSet r.flag = true
      ∧ AppendsFirst s (s.handOn r).settle [r.draft (s.flagSet r.flag) s.now]
      ∧ RaisesOnly s (s.handOn r).settle [r.flag] := by
  have hq : (s.handOn r).raisings = r :: [] := by rw [State.raisings_handOn, hr]; rfl
  refine ⟨(onlyEmits_handOn s r).trans (onlyEmits_settle _), settle_flagSet (by rw [hq]; exact List.mem_singleton_self r),
    ?_, (RaisesOnly.handOn s (.inl (List.mem_singleton_self _))).trans (raisesOnly_settle _)⟩
  exact (settle_first (s := s.handOn r) hq hb).congr rfl rfl

/-- Settles O7: the watchdog stops and one raising is settled. -/
theorem syncWatchdogExpires : Obligations.SyncWatchdogExpires := by
  intro s hlive hr hw hb q
  obtain ⟨he, hf, ha, -⟩ := settled_handOn (s := { s with watchdog := none, timeQuality := q }) hr hb (plainRaising .timeSync)
  exact ⟨_, congrArg Host.Outcome.next ((live_of hlive _).trans (if_pos hw)), he, hf, ha.congr rfl rfl⟩

/-! ### A request that appends a record -/

theorem flags_respond (s : State) (p : Port) (f : Frame) (st : Status) (r : List Byte) :
    (s.respond p f st r).flags = s.flags := by
  rw [State.respond_eq]
  rfl

/-- What an owner leaves that stores, appends one record and responds. -/
structure Recorded (s u t : State) (p : Port) (f : Frame) (st : Status) (r : List Byte) (d : RecordDraft) : Prop where
  emits : OnlyEmits { u with stations := (s.closed p f st r (t.stn p).waitResponse).stations } t
  responding : t.Responding p f st r
  appends : AppendsFirst s t [d]
  flags : FlagsOnly u t []
  quiet : u.log.archive = none → t.flags = u.flags

section
variable {s u : State} {p : Port} {k : ReqKind} {f : Frame} {form : Frame → Bool} {st : Status} {r : List Byte}
  {d : RecordDraft}

theorem recorded_of {t : State} (hu : u.stations = (s.begun p f).stations) (hl : u.log = s.log)
    (hr : u.raisings = []) (hb : s.log.ring.length ≤ 1024) (ht : t = ((u.append false d).respond p f st r).settle) :
    Recorded s u t p f st r d := by
  have hb' : u.log.ring.length ≤ 1024 := hl ▸ hb
  have hu' := hu.trans (begun_stations s p f)
  obtain ⟨he, hresp⟩ := respond_settled hu' (onlyEmits_append u false d) ht
  have ha : AppendsFirst s t [d] := by
    have h1 : AppendsThen u (u.append false d) [d] (fun d => d.isSystem = true) :=
      ⟨[], appends_append hb' false d, fun _ h => absurd h List.not_mem_nil⟩
    rw [ht]
    exact appendsThen_settled (fun _ h => h) hl h1
  have hf : RaisesOnly u t [] := by
    rw [ht]
    exact (raisesOnly_append u false d).trans ((raisesOnly_respond _ p f st r).trans (raisesOnly_settle _))
  refine ⟨he, hresp, ha, hf.flagsOnly hr he.flags, fun hn => ?_⟩
  obtain ⟨l, hl', -, hnone⟩ := append_handsOn u d
  have hq : ((u.append false d).respond p f st r).raisings = [] := by
    rw [respond_raisings, hl', hr, hnone hn]
    rfl
  rw [ht, settle_of_none hq, flags_respond, append_flags]

theorem next_recorded (h : s.Takes p k f) (hf : form f = true) {owner : Frame → State → State}
    (ho : owner f (s.begun p f) = (u.append false d).respond p f st r) (hu : u.stations = (s.begun p f).stations)
    (hl : u.log = s.log) (hr : u.raisings = s.raisings) (hb : s.log.ring.length ≤ 1024) :
    ∃ t, (.next (s.live fun s => s.runRequest p k form owner) : Result) = .next t ∧ Recorded s u t p f st r d :=
  ⟨_, by rw [next_of_takes h hf, ho], recorded_of hu hl (hr.trans h.noRaising) hb rfl⟩

end

/-! ### SET_TIME (R178) -/

theorem ownSetTime_of_bad {u : State} {p : Port} {f : Frame} (h : 86400000 ≤ f.arg4 2 ∨ 1 < f.arg 6) :
    u.ownSetTime p f = u.respond p f .badArgument [] := by
  unfold State.ownSetTime
  dsimp only
  split
  · rfl
  · next sync hc =>
    have hs := choice_eq_some_iff.mp hc
    have := sync.toNat_le
    exact if_neg (by simp only [Config.dayMs]; omega)

/-- Settles O8. -/
theorem setTimeSteps : Obligations.SetTimeSteps := by
  intro s p f h
  refine ⟨fun hb => next_answered h rfl (ownSetTime_of_bad hb), fun hms hopt hb => ?_⟩
  have ho : (s.begun p f).ownSetTime p f =
      (({ (s.begun p f).setClock ⟨f.arg2 0, f.arg4 2, .set⟩ with
          syncEnable := f.arg 6 == 1, watchdog := if f.arg 6 = 1 then some 1500 else none } : State).append false
        (otherDraft ⟨f.arg2 0, f.arg4 2, .set⟩ (.time s.now ⟨f.arg2 0, f.arg4 2, .set⟩) (some p))).respond p f .ok [] := by
    unfold State.ownSetTime
    rw [choice_of_le hopt]
    dsimp only
    rw [if_pos (show f.arg4 2 < Config.dayMs from hms)]
    simp only [beq_iff_eq]
    rfl
  obtain ⟨t, ht, hrec⟩ := next_recorded h (form := anyForm) (owner := fun f t => t.ownSetTime p f) rfl ho rfl rfl rfl hb
  exact ⟨t, ht, hrec.emits, hrec.responding, hrec.appends⟩

/-! ### SILENCE, CLEAR_FLAGS, TEST_SOURCE and CLEAR_FAULT (R65, R159, R160, R164) -/

theorem OnlyEmits.audibleRequest {s t : State} (h : OnlyEmits s t) : t.audibleRequest = s.audibleRequest := by
  have e := congrArg State.audibleRequest h.rest
  exact e

theorem audibleLine_of_noRequest {s : State} (h : s.audibleRequest = false) : s.audibleLine = false := by
  simp [State.audibleLine, h]

theorem captured_locked (s : State) (p : Port) (f : Frame) :
    (s.captured p f).locked = s.commandCapture.locked ∧ (s.captured p f).multiple = s.commandCapture.multiple := by
  unfold State.captured State.capturedAt
  split <;> exact ⟨rfl, rfl⟩

theorem hasBit_andNot {w : Nat} (a b : BitVec w) (n : Nat) (h : n < w) :
    hasBit (a &&& ~~~ b) n = (hasBit a n && !hasBit b n) := by
  simp [hasBit, h]

theorem flagSet_clearNamed (s : State) (n : Nat) (g : Flag) :
    ({ s with flags := s.flags &&& ~~~ BitVec.ofNat 11 n } : State).flagSet g = true ↔
      s.flagSet g = true ∧ n.testBit g.code.val = false := by
  have hg : g.code.val < 11 := g.code.isLt
  have hn : hasBit (BitVec.ofNat 11 n) g.code.val = n.testBit g.code.val := by
    unfold hasBit
    rw [BitVec.getLsbD_ofNat]
    simp [hg]
  simp only [State.flagSet]
  rw [hasBit_andNot _ _ _ hg, hn]
  simp

theorem namesNoPort_of {f : Frame} (h : f.arg 0 < 2 ∨ 5 < f.arg 0) : namesNoPort f = true := by
  have hn : ¬ (2 ≤ f.arg 0 ∧ f.arg 0 ≤ 5) := by omega
  simp [namesNoPort, namesPort]
  omega

theorem recorded_silence {s : State} {p : Port} {f : Frame} (h : s.Takes p .silence f) (hb : s.log.ring.length ≤ 1024) :
    ∃ t, exec (.silence p) s = .next t ∧ Recorded s { s.begun p f with audibleRequest := false } t p f .ok []
      (otherDraft s.now (.operator s.audibleRequest) (some p)) :=
  next_recorded (owner := fun f t => t.ownSilence p f) h rfl rfl rfl rfl rfl hb

theorem recorded_clearFlags {s : State} {p : Port} {f : Frame} (h : s.Takes p .clearFlags f)
    (hb : s.log.ring.length ≤ 1024) (h1 : 1 ≤ f.arg2 0) (h2 : f.arg2 0 < 2048) :
    ∃ t, exec (.clearFlags p) s = .next t
      ∧ Recorded s { s.begun p f with flags := s.flags &&& ~~~ BitVec.ofNat 11 (f.arg2 0) } t p f .ok []
        (otherDraft s.now (.clearFlags s.flags (BitVec.ofNat 11 (f.arg2 0))) (some p)) :=
  next_recorded (owner := fun f t => t.ownClearFlags p f) h rfl (if_neg (by omega)) rfl rfl rfl hb

theorem recorded_clearCommand {s : State} {p : Port} {f : Frame} (h : s.Takes p .clearFault f)
    (hb : s.log.ring.length ≤ 1024) (h0 : f.arg 0 = 0) :
    ∃ t, exec (.clearFault p) s = .next t
      ∧ Recorded s { s.begun p f with commandCapture := { s.captured p f with locked := false, multiple := false } } t p f
        .ok [] (otherDraft s.now (.clearFault s.commandCapture.locked s.commandCapture.multiple .command) (some p)) := by
  rw [← (captured_locked s p f).1, ← (captured_locked s p f).2]
  exact next_recorded (owner := fun f t => t.ownClearFault p f) h (namesNoPort_of (.inl (by omega))) (if_pos h0) rfl rfl rfl hb

theorem recorded_clearInput {s : State} {p : Port} {f : Frame} (h : s.Takes p .clearFault f)
    (hb : s.log.ring.length ≤ 1024) (h1 : f.arg 0 = 1) :
    ∃ t, exec (.clearFault p) s = .next t
      ∧ Recorded s { s.begun p f with inputCapture := { s.inputCapture with locked := false, multiple := false } } t p f
        .ok [] (otherDraft s.now (.clearFault s.inputCapture.locked s.inputCapture.multiple .input) (some p)) :=
  next_recorded (owner := fun f t => t.ownClearFault p f) h (namesNoPort_of (.inl (by omega)))
    ((if_neg (by omega)).trans (if_pos h1)) rfl rfl rfl hb

/-- The notices of a raising that is settled: a fresh flag with its route enabled places one at the routed port. -/
theorem notices_settled_handOn {s : State} (hr : s.raisings = []) (r : Raising) (q : Port) :
    let notified := s.flagSet r.flag = false ∧ (s.route r.flag).enable = true ∧ q = (s.route r.flag).port
    (notified → (s.dsp q).state ≠ .detached →
        ((s.handOn r).settle.dsp q).Holds (s.route r.flag).cls (· = .system r.flag r.unit r.port s.log.next))
      ∧ (¬ notified → Dispatch.NoNew (.system r.flag) (s.dsp q) ((s.handOn r).settle.dsp q)) := by
  intro notified
  have hs : (s.handOn r).settle = (s.raise r).drain 67 := by
    rw [settle_cons (r := r) (rest := []) (by rw [State.raisings_handOn, hr]; rfl), handOn_cleared hr]
    rfl
  have hset := raise_flagSet s r
  rw [hs]
  refine ⟨fun hn ha => ?_, fun hn => ?_⟩
  · obtain ⟨h1, h2, rfl⟩ := hn
    refine (holds_raise r h1 h2 ha).drain _ fun g => ?_
    by_cases hg : g = r.flag
    · exact .inl (hg ▸ hset)
    · refine .inr fun c hc => ?_
      rw [hc]
      exact fun e => hg (by cases e; rfl)
  · refine (?_ : Dispatch.NoNew _ (s.dsp q) ((s.raise r).dsp q)).trans (noNew_drain _ _ fun g hg => .inl ?_)
    · by_cases hq : q = (s.route r.flag).port
      · refine noNew_raise q r ?_
        cases h1 : s.flagSet r.flag
        · cases h2 : (s.route r.flag).enable
          · exact .inr (.inl rfl)
          · exact absurd ⟨h1, h2, hq⟩ hn
        · exact .inl rfl
      · have hd : (s.raise r).dsp q = s.dsp q := by
          unfold State.raise
          dsimp only
          split
          · rw [place_dsp_of_ne _ _ _ hq, append_dsp]
            rfl
          · rw [append_dsp]
            rfl
        rw [hd]
        exact Dispatch.NoNew.refl _ _
    · cases hg
      exact hset

theorem settled_testSource {s : State} {p : Port} {f : Frame} {g : Flag} (h : s.Takes p .testSource f)
    (hb : s.log.ring.length ≤ 1024) (hg : f.arg 0 = g.code.val) :
    ∃ t, exec (.testSource p) s = .next t ∧ t.Responding p f .ok []
      ∧ OnlyEmits (s.closed p f .ok [] (t.stn p).waitResponse) t ∧ t.flagSet g = true ∧ FlagsOnly s t [g]
      ∧ AppendsFirst s t [s.systemDraft g none none none .test (some p)]
      ∧ let notified := fun q : Port => s.flagSet g = false ∧ (s.route g).enable = true ∧ q = (s.route g).port
        ∀ q : Port,
          (notified q → (s.dsp q).state ≠ .detached →
              (t.dsp q).Holds (s.route g).cls (· = .system g none none s.log.next))
            ∧ (¬ notified q → Dispatch.NoNew (.system g) (s.dsp q) (t.dsp q)) := by
  let r : Raising := { plainRaising g with detail := .test, reqPort := some p }
  let a := s.answered p f .ok []
  have hnext : exec (.testSource p) s = .next (a.handOn r).settle := by
    refine (next_of_takes h rfl fun f t => t.ownTestSource p f).trans ?_
    simp only [State.ownTestSource, Flag.ofCode_eq_some_iff.mpr hg]
    rw [← beginRequest_eq_begun, respond_beginRequest]
  obtain ⟨he, hf, ha, hro⟩ := settled_handOn (s := a) h.noRaising hb r
  obtain ⟨hclosed, hresp⟩ := respond_emitted (s := s) (u := s.begun p f) (begun_stations s p f) (OnlyEmits.refl _) .ok []
  rw [← beginRequest_eq_begun, respond_beginRequest] at hclosed hresp
  have hw := he.waitResponse p
  refine ⟨_, hnext, hresp.emits he, ?_, hf, ?_, ha.congr rfl rfl, fun q => ?_⟩
  · rw [hw]
    rw [beginRequest_eq_begun] at hclosed
    exact hclosed.trans he
  · exact hro.flagsOnly h.noRaising he.flags
  · exact notices_settled_handOn (s := a) h.noRaising r q

/-- Settles O37: the record of each request, and the raising of TEST_SOURCE. -/
theorem recordedRequests : Obligations.RecordedRequests := by
  intro s p f hb refused named unlocked
  refine ⟨fun h => ?_, fun h => ⟨fun hbad => next_answered h rfl (if_pos hbad), fun h1 h2 => ?_⟩,
    fun h => ⟨fun hbad => ?_, fun g hg => settled_testSource h hb hg⟩, fun h => ⟨fun hbad => ?_, fun h0 => ?_, fun h1 => ?_⟩⟩
  · obtain ⟨t, ht, hrec⟩ := recorded_silence h hb
    exact ⟨t, ht, hrec.responding, hrec.emits, hrec.flags, audibleLine_of_noRequest hrec.emits.audibleRequest, hrec.appends⟩
  · obtain ⟨t, ht, hrec⟩ := recorded_clearFlags h hb h1 h2
    have hiff (g : Flag) := flagSet_clearNamed s (f.arg2 0) g
    refine ⟨t, ht, hrec.responding, hrec.emits, hrec.flags, fun g hg => ⟨fun hs => (hiff g).mp ?_, fun hs => ?_⟩, hrec.quiet,
      hrec.appends⟩
    · exact ((hrec.flags.1 g hs).resolve_right (by simp [hg]))
    · exact hrec.emits.flags g ((hiff g).mpr hs)
  · exact next_answered h rfl (by simp only [State.ownTestSource, Flag.ofCode_eq_none hbad])
  · exact next_answered h (namesNoPort_of (.inr hbad)) ((if_neg (by omega)).trans (if_neg (by omega)))
  · obtain ⟨t, ht, hrec⟩ := recorded_clearCommand h hb h0
    exact ⟨t, ht, hrec.responding, hrec.emits, hrec.flags, hrec.appends⟩
  · obtain ⟨t, ht, hrec⟩ := recorded_clearInput h hb h1
    exact ⟨t, ht, hrec.responding, hrec.emits, hrec.flags, hrec.appends⟩

end Sys2Proof.Machine
end

section
/-! PROOFS. The append (R102, R105 to R107), SET_LOG (R104) and CONFIRM_LOG (R108). -/

namespace Sys2Proof.Machine

/-! ### The append -/

theorem unconfirmed_of_archive {l : EventLog} (h : l.archive ≠ none) :
    l.unconfirmed = (l.ring.filter fun r => seqAfter l.confirmed r.seq).length := by
  unfold EventLog.unconfirmed
  split
  · next h' => exact absurd h' h
  · rfl

/-- The test of R107 hands LOG_HIGH on, or does nothing. -/
theorem testLogHigh_pos {s : State} {below : Bool} {reqPort : Option Port} (ha : s.log.archive ≠ none)
    (ht : s.log.threshold ≤ s.log.unconfirmed) (hc : below = true ∨ s.logHighSet = false) :
    s.testLogHigh below reqPort = s.handOn { plainRaising .logHigh with reqPort := reqPort } := by
  refine if_pos ?_
  obtain ⟨q, hq⟩ := Option.ne_none_iff_exists'.mp ha
  obtain h | h := hc <;> simp [hq, ht, h]

theorem testLogHigh_neg {s : State} {below : Bool} {reqPort : Option Port}
    (h : ¬ (s.log.archive ≠ none ∧ s.log.threshold ≤ s.log.unconfirmed ∧ (below = true ∨ s.logHighSet = false))) :
    s.testLogHigh below reqPort = s := by
  refine if_neg fun hc => h ?_
  simp only [Bool.and_eq_true, Bool.or_eq_true, decide_eq_true_eq, Bool.not_eq_true', Option.isSome_iff_ne_none] at hc
  exact ⟨hc.1.1, hc.1.2, hc.2⟩

theorem logHighSet_eq_false_iff {s : State} :
    s.logHighSet = false ↔
      s.flagSet .logHigh = false ∧ ∀ r ∈ s.raisings, ¬ (r.flag = .logHigh ∧ r.detail = .none) := by
  simp [State.logHighSet, State.flagSet]

/-- A full ring whose oldest record comes after the confirmed number loses it unconfirmed (R105). -/
abbrev EventLog.Loses (l : EventLog) : Prop :=
  l.ring.length = 1024 ∧ l.archive ≠ none ∧ ∃ o, l.ring.head? = some o ∧ seqAfter l.confirmed o.seq = true

/-- The Event Record with room for one more record. -/
theorem makeRoom_of_loses {s : State} (silent : Bool) (h : s.log.Loses) :
    s.makeRoom silent = { s with
      log := { s.log with ring := s.log.ring.tail, confirmed := ((s.log.ring.head?).map EventRecord.seq).getD 0 }
      raisings := s.raisings ++ if silent = false then [plainRaising .logLoss] else [] } := by
  obtain ⟨hf, ha, o, ho, hc⟩ := h
  obtain ⟨q, hq⟩ := Option.ne_none_iff_exists'.mp ha
  unfold State.makeRoom
  split
  · next he => rw [he] at ho; cases ho
  · next oldest rest he =>
    rw [he] at ho
    cases ho
    rw [if_neg (by simp [hf, Config.recordCapacity]), if_pos (by simp [hq, hc])]
    cases silent <;> simp [he, State.handOn]

theorem makeRoom_of_not_loses {s : State} (silent : Bool) (hb : s.log.ring.length ≤ 1024) (h : ¬ s.log.Loses) :
    s.makeRoom silent = { s with
      log := { s.log with ring := if s.log.ring.length = 1024 then s.log.ring.tail else s.log.ring } } := by
  unfold State.makeRoom
  split
  · next he =>
    rw [if_neg (by simp [he])]
  · next oldest rest he =>
    by_cases hf : s.log.ring.length = 1024
    · rw [if_neg (by simp [hf, Config.recordCapacity]), if_neg fun hc => h ⟨hf, ?_, oldest, by simp [he], ?_⟩]
      · rw [if_pos hf, he]
        rfl
      · simp only [Bool.and_eq_true, Option.isSome_iff_ne_none] at hc
        exact hc.1
      · simp only [Bool.and_eq_true] at hc
        exact hc.2
    · rw [if_pos (by simp only [Config.recordCapacity]; omega), if_neg hf]

/-- The ring, the numbers and the confirmed number after an append. -/
def EventLog.appended (l : EventLog) (ring : List EventRecord) (confirmed : Nat) (d : RecordDraft) : EventLog :=
  { l with ring := ring ++ [d.numbered l.next], newest := l.next, next := seqSucc l.next, confirmed := confirmed }

/-- An append hands LOG_HIGH on where the count crosses the threshold or stands above it unflagged (R107). -/
def State.HighAfter (s : State) (l : EventLog) : Prop :=
  l.archive ≠ none ∧ l.threshold ≤ l.unconfirmed
    ∧ (s.log.unconfirmed < s.log.threshold ∨ s.flagSet .logHigh = false
      ∧ ∀ r ∈ s.raisings, ¬ (r.flag = .logHigh ∧ r.detail = .none))

/-- An append by what the making of room has done. -/
theorem append_of_room {s : State} {silent : Bool} (d : RecordDraft) {ring : List EventRecord} {confirmed : Nat}
    {loss : List Raising}
    (hroom : s.makeRoom silent =
      { s with log := { s.log with ring := ring, confirmed := confirmed }, raisings := s.raisings ++ loss })
    (hloss : ∀ r ∈ loss, r.flag ≠ .logHigh) :
    let l := s.log.appended ring confirmed d
    (s.HighAfter l →
        s.append silent d = { s with log := l, raisings := s.raisings ++ loss ++ [plainRaising .logHigh] })
      ∧ (¬ s.HighAfter l → s.append silent d = { s with log := l, raisings := s.raisings ++ loss }) := by
  intro l
  have hplaced : (s.makeRoom silent).placeRecord d = { s with log := l, raisings := s.raisings ++ loss } := by
    rw [hroom]
    rfl
  have hset : ({ s with log := l, raisings := s.raisings ++ loss } : State).logHighSet = false ↔
      s.flagSet .logHigh = false ∧ ∀ r ∈ s.raisings, ¬ (r.flag = .logHigh ∧ r.detail = .none) := by
    rw [logHighSet_eq_false_iff]
    refine and_congr Iff.rfl ⟨fun h r hr => h r (List.mem_append_left _ hr), fun h r hr => ?_⟩
    obtain hr | hr := List.mem_append.mp hr
    · exact h r hr
    · exact fun e => hloss r hr e.1
  unfold State.append
  rw [hplaced]
  refine ⟨fun ⟨ha, ht, hc⟩ => ?_, fun h => ?_⟩
  · exact testLogHigh_pos (s := { s with log := l, raisings := s.raisings ++ loss }) ha ht
      (hc.imp decide_eq_true hset.mpr)
  · exact testLogHigh_neg fun ⟨ha, ht, hc⟩ => h ⟨ha, ht, hc.imp of_decide_eq_true hset.mp⟩

/-- The append in full (R102, R105 to R107). -/
theorem append_cases (s : State) (silent : Bool) (d : RecordDraft) (hb : s.log.ring.length ≤ 1024) :
    let l := s.log.appended (if s.log.ring.length = 1024 then s.log.ring.tail else s.log.ring)
      (if s.log.Loses then ((s.log.ring.head?).map EventRecord.seq).getD 0 else s.log.confirmed) d
    let loss := if s.log.Loses ∧ silent = false then [plainRaising .logLoss] else []
    (s.HighAfter l →
        s.append silent d = { s with log := l, raisings := s.raisings ++ loss ++ [plainRaising .logHigh] })
      ∧ (¬ s.HighAfter l → s.append silent d = { s with log := l, raisings := s.raisings ++ loss }) := by
  by_cases hl : s.log.Loses
  · have hroom := makeRoom_of_loses silent hl
    rw [if_pos hl.1, if_pos hl, if_congr (and_iff_right hl) rfl rfl]
    refine append_of_room d hroom fun r hr => ?_
    split at hr
    · cases List.mem_singleton.mp hr; exact nofun
    · cases hr
  · have hroom := makeRoom_of_not_loses silent hb hl
    rw [if_neg hl, if_neg fun h : s.log.Loses ∧ silent = false => hl h.1]
    exact append_of_room d (loss := []) (by rw [hroom, List.append_nil]) nofun

/-! ### SET_LOG (R104) and CONFIRM_LOG (R108) -/

theorem archiveOf_port {x : Nat} {q : Port} (h : x = q.val) : archiveOf x = some (some q) := by
  unfold archiveOf
  rw [if_neg (by omega), below_eq_some_iff.mpr h]
  rfl

theorem archiveOf_bad {x : Nat} (h : 3 < x) (h' : x ≠ 255) : archiveOf x = none := by
  unfold archiveOf
  rw [if_neg (by omega), below_eq_none_iff.mpr (by omega)]
  rfl

theorem ownSetLog_of_bad {u : State} {p : Port} {f : Frame}
    (h : 3 < f.arg 0 ∧ f.arg 0 ≠ 255 ∨ f.arg2 1 < 256 ∨ 1008 < f.arg2 1 ∨ f.arg2 1 % 16 ≠ 0) :
    u.ownSetLog p f = u.respond p f .badArgument [] := by
  unfold State.ownSetLog
  dsimp only
  by_cases ha : 3 < f.arg 0 ∧ f.arg 0 ≠ 255
  · rw [archiveOf_bad ha.1 ha.2]
  · split
    · rfl
    · exact if_neg (by omega)

theorem ownSetLog_of_good {u : State} {p : Port} {f : Frame} {a : Option Port} (ha : archiveOf (f.arg 0) = some a)
    (h : 256 ≤ f.arg2 1 ∧ f.arg2 1 ≤ 1008 ∧ f.arg2 1 % 16 = 0) :
    u.ownSetLog p f = (({ u with log := u.log.configured a (f.arg2 1) } : State).testLogHigh
      (decide (u.log.unconfirmed < u.log.threshold)) (some p)).respond p f .ok [] := by
  unfold State.ownSetLog
  dsimp only
  rw [ha]
  exact if_pos h

theorem respond_handOn (s : State) (x : Raising) (p : Port) (f : Frame) (st : Status) (r : List Byte) :
    (s.handOn x).respond p f st r = (s.respond p f st r).handOn x := by
  rw [State.respond_eq, State.respond_eq]
  rfl

/-- A response with one raising behind it. -/
theorem settled_respond_handOn {s u t : State} {p : Port} {f : Frame} {st : Status} {r : List Byte}
    (hu : u.stations = (s.begun p f).stations) (hr : u.raisings = []) (hb : u.log.ring.length ≤ 1024) (x : Raising)
    (ht : t = ((u.respond p f st r).handOn x).settle) :
    OnlyEmits { u with stations := (s.closed p f st r (t.stn p).waitResponse).stations } t ∧ t.Responding p f st r
      ∧ t.flagSet x.flag = true ∧ AppendsFirst u t [x.draft (u.flagSet x.flag) u.now] ∧ RaisesOnly u t [x.flag] := by
  have hu' := hu.trans (begun_stations s p f)
  have hq : (u.respond p f st r).raisings = [] := (respond_raisings ..).trans hr
  have hlog : (u.respond p f st r).log = u.log := respond_log ..
  obtain ⟨he, hf, ha, hro⟩ := settled_handOn hq (hlog ▸ hb) x
  rw [← ht] at he hf ha hro
  obtain ⟨hclosed, hresp⟩ := respond_emitted hu' (OnlyEmits.refl u) st r
  rw [← he.waitResponse p] at hclosed
  have hrespond : u.respond p f st r = { u with stations := (u.respond p f st r).stations } := by
    rw [State.respond_eq]
    rfl
  refine ⟨hclosed.trans he, hresp.emits he, hf, ?_, (raisesOnly_respond u p f st r).trans hro⟩
  rw [hrespond] at ha
  exact ha

theorem held_eq_unconfirmed {l : EventLog} {q : Port} (h : l.archive = some q) :
    (l.ring.filter fun r => seqAfter l.confirmed r.seq).length = l.unconfirmed :=
  (unconfirmed_of_archive (by simp [h])).symm

/-- SET_LOG naming a port. -/
theorem setLog_port {s : State} {p q : Port} {f : Frame} (h : s.Takes p .setLog f) (hb : s.log.ring.length ≤ 1024)
    (hgood : 256 ≤ f.arg2 1 ∧ f.arg2 1 ≤ 1008 ∧ f.arg2 1 % 16 = 0) (hq : f.arg 0 = q.val) {new : EventLog}
    (hnew : s.log.configured (some q) (f.arg2 1) = new) :
    let crossed := new.threshold ≤ new.unconfirmed
      ∧ (s.log.unconfirmed < s.log.threshold ∨ s.flagSet .logHigh = false)
    (¬ crossed → exec (.setLog p) s = .next { s.answered p f .ok [] with log := new })
      ∧ (crossed →
          ∃ t, exec (.setLog p) s = .next t ∧ t.Responding p f .ok []
            ∧ OnlyEmits { s.closed p f .ok [] (t.stn p).waitResponse with log := new } t
            ∧ t.flagSet .logHigh = true
            ∧ AppendsFirst s t [s.systemDraft .logHigh none none none .none (some p)]) := by
  subst hnew
  intro crossed
  let u : State := { s.begun p f with log := s.log.configured (some q) (f.arg2 1) }
  have hset : u.logHighSet = false ↔ s.flagSet .logHigh = false := by
    rw [logHighSet_eq_false_iff, show u.raisings = [] from h.noRaising]
    simp only [List.not_mem_nil, false_imp_iff, implies_true, and_true]
    rfl
  have ho : (s.begun p f).ownSetLog p f =
      (u.testLogHigh (decide (s.log.unconfirmed < s.log.threshold)) (some p)).respond p f .ok [] :=
    ownSetLog_of_good (archiveOf_port hq) hgood
  have ha : u.log.archive ≠ none := Option.some_ne_none q
  refine ⟨fun hc => ?_, fun ⟨ht, hc⟩ => ?_⟩
  · rw [testLogHigh_neg fun ⟨_, ht, hc'⟩ => hc ⟨ht, hc'.imp of_decide_eq_true hset.mp⟩] at ho
    exact next_stored (owner := fun f t => t.ownSetLog p f) h rfl ho rfl rfl
  · rw [testLogHigh_pos ha ht (hc.imp decide_eq_true hset.mpr), respond_handOn] at ho
    have hnext := next_of_takes h (form := anyForm) rfl fun f t => t.ownSetLog p f
    obtain ⟨he, hresp, hf, happ, -⟩ := settled_respond_handOn (s := s) (u := u) (p := p) (f := f) (st := .ok) (r := [])
      rfl h.noRaising hb { plainRaising .logHigh with reqPort := some p } rfl
    refine ⟨_, hnext.trans (congrArg (fun t => Host.Outcome.next t.settle) ho), hresp, he, hf, ?_⟩
    exact happ

theorem seqAtOrBefore_iff {a b : Nat} : seqAtOrBefore a b = true ↔ a = b ∨ seqAfter a b = true := by
  simp [seqAtOrBefore]

theorem configured_some (l : EventLog) (q : Port) (n : Nat) :
    l.configured (some q) n =
      { l with archive := some q, threshold := n, confirmed := if l.archive = some q then l.confirmed else l.newest } := by
  unfold EventLog.configured
  by_cases h : l.archive = some q
  · simp [h]
  · simp [h, Ne.symm h]

theorem confirmResults_eq {l : EventLog} {q : Port} (h : l.archive = some q) :
    l.confirmResults = b4 l.confirmed ++ b2 (l.ring.filter fun r => seqAfter l.confirmed r.seq).length := by
  rw [held_eq_unconfirmed h]
  rfl

/-- CONFIRM_LOG by the place of the number confirmed (R108). -/
theorem confirmLog_cases {s : State} {p : Port} {f : Frame} (h : s.Takes p .confirmLog f) (hn : f.arg4 0 ≠ 0)
    (ha : s.log.archive = some p) :
    let n := f.arg4 0
    let l := { s.log with confirmed := n }
    (n = s.log.confirmed ∨ seqAfter n s.log.confirmed = true →
        exec (.confirmLog p) s = .next (s.answered p f .ok s.log.confirmResults))
      ∧ (¬ (n = s.log.confirmed ∨ seqAfter n s.log.confirmed = true) → n = s.log.newest ∨ seqAfter n s.log.newest = true →
        exec (.confirmLog p) s = .next { s.answered p f .ok l.confirmResults with log := l })
      ∧ (¬ (n = s.log.confirmed ∨ seqAfter n s.log.confirmed = true) →
          ¬ (n = s.log.newest ∨ seqAfter n s.log.newest = true) →
        exec (.confirmLog p) s = .next (s.answered p f .badArgument [])) := by
  have ha' : ¬ (s.begun p f).log.archive ≠ some p := not_not.mpr ha
  simp only [← seqAtOrBefore_iff]
  refine ⟨fun h1 => ?_, fun h1 h2 => ?_, fun h1 h2 => ?_⟩
  · exact next_answered h rfl ((if_neg hn).trans ((if_neg ha').trans (if_pos h1)))
  · exact next_stored (owner := fun f t => t.ownConfirmLog p f)
      (u := { s.begun p f with log := { s.log with confirmed := f.arg4 0 } }) h rfl
      ((if_neg hn).trans ((if_neg ha').trans ((if_neg h1).trans (if_pos h2)))) rfl rfl
  · exact next_answered h rfl ((if_neg hn).trans ((if_neg ha').trans ((if_neg h1).trans (if_neg h2))))

/-- Settles O47: the append by the room made and the test of R107, SET_LOG by whether the threshold is crossed, and
CONFIRM_LOG by the place of its number. -/
theorem logSettings : Obligations.LogSettings := by
  refine ⟨fun s silent d hb => ?_, fun s p f hb => ?_⟩
  · intro l count full lost new high
    have hiff : high ↔ s.HighAfter new := by
      refine and_congr_right fun ha => ?_
      have hcount : count l = s.log.unconfirmed := (unconfirmed_of_archive ha).symm
      have hnew : count new = new.unconfirmed := (unconfirmed_of_archive (l := new) ha).symm
      rw [hcount, hnew]
    by_cases hh : high
    · rw [if_pos hh]
      exact (append_cases s silent d hb).1 (hiff.mp hh)
    · rw [if_neg hh, List.append_nil]
      exact (append_cases s silent d hb).2 (mt hiff.mpr hh)
  · intro l threshold bad held n confirmed
    refine ⟨fun h => ⟨fun hbad => next_answered h rfl (ownSetLog_of_bad hbad), fun hgood h255 => ?_, fun q hgood hq => ?_⟩,
      fun h => ⟨fun hn => ?_, fun hn ha => ?_, fun hn ha => ?_⟩⟩
    · have hgood' : 256 ≤ f.arg2 1 ∧ f.arg2 1 ≤ 1008 ∧ f.arg2 1 % 16 = 0 := by simp only [bad, threshold] at hgood; omega
      refine next_stored (owner := fun f t => t.ownSetLog p f)
        (u := { s.begun p f with log := { s.log with archive := none, threshold := f.arg2 1 } }) h rfl ?_ rfl rfl
      refine (ownSetLog_of_good (a := none) (by rw [h255]; rfl) hgood').trans ?_
      rw [testLogHigh_neg fun h => h.1 rfl]
      rfl
    · have hgood' : 256 ≤ f.arg2 1 ∧ f.arg2 1 ≤ 1008 ∧ f.arg2 1 % 16 = 0 := by simp only [bad, threshold] at hgood; omega
      exact setLog_port h hb hgood' hq (configured_some s.log q (f.arg2 1))
    · exact next_answered h rfl (if_pos hn)
    · exact next_answered h rfl ((if_neg hn).trans (if_pos ha))
    · have hc (k : Nat) := confirmResults_eq (l := { s.log with confirmed := k }) ha
      have hcases := confirmLog_cases h hn ha
      simp only [hc] at hcases
      exact hcases

end Sys2Proof.Machine
end

section
/-! PROOFS. One Dispatch Controller and its arbiter: how each operation at a port moves the two, the placement of a notice
(R71, R72), the selection (R76), and the requests TAKE, POLL, SET_LOWEST, SET_DISPATCH, ATTACH and DETACH. -/

namespace Sys2Proof.Machine

/-! ### A port moved -/

/-- The Dispatch Controller and the arbiter of a port replaced. -/
def State.atPort (s : State) (p : Port) (d : Dispatch) (a : Station) : State := (s.setDsp p d).setStn p a

section
variable (s : State) (p : Port) (d e : Dispatch) (a b : Station)

theorem atPort_self : s.atPort p (s.dsp p) (s.stn p) = s := by
  simp [State.atPort, State.setDsp, State.setStn, State.dsp, State.stn]

@[simp] theorem dsp_atPort_self : (s.atPort p d a).dsp p = d := by simp [State.atPort]

@[simp] theorem stn_atPort_self : (s.atPort p d a).stn p = a := by simp [State.atPort]

theorem dsp_atPort_of_ne {q : Port} (h : q ≠ p) : (s.atPort p d a).dsp q = s.dsp q := by
  simp [State.atPort, State.dsp_setDsp_of_ne _ _ h]

theorem stn_atPort_of_ne {q : Port} (h : q ≠ p) : (s.atPort p d a).stn q = s.stn q := by
  simp [State.atPort, State.stn_setStn_of_ne _ _ h]

@[simp] theorem now_atPort : (s.atPort p d a).now = s.now := rfl

@[simp] theorem setDsp_atPort : (s.atPort p d a).setDsp p e = s.atPort p e a := by
  simp [State.atPort, State.setDsp, State.setStn]

@[simp] theorem setStn_atPort : (s.atPort p d a).setStn p b = s.atPort p d b := by
  simp [State.atPort, State.setDsp, State.setStn]

theorem atPort_rest : s.atPort p d a =
    { s with dispatch := (s.atPort p d a).dispatch, stations := (s.atPort p d a).stations } := rfl

theorem handNotice_eq (bytes : List Byte) :
    s.handNotice p bytes = s.setStn p
      (match (s.stn p).tx with
        | none => { s.stn p with tx := some (.notice bytes true) }
        | some _ => { s.stn p with waitNotice := some bytes }) := by
  unfold State.handNotice
  cases h : (s.stn p).tx <;> simp [h]

theorem noticed_some (n : Notice) :
    a.noticed (some n) =
      match a.tx with
      | none => { a with tx := some (.notice (noticeFrame n) true) }
      | some _ => { a with waitNotice := some (noticeFrame n) } := by
  obtain ⟨_, _, _, _, _, tx, _, _, _⟩ := a
  cases tx <;> rfl

theorem offer_eq (n : Notice) : n.offer = { n with offered := true, count := min (n.count + 1) 8 } := by
  unfold Notice.offer
  have : (if n.count < 8 then n.count + 1 else 8) = min (n.count + 1) 8 := by split <;> omega
  rw [this]

theorem afterOffer_eq (n : Notice) (stamp : TimeStamp) :
    d.afterOffer n stamp = { d with
      queue := d.queue.map fun m =>
        if m.number = n.number then { m with offered := true, count := min (m.count + 1) 8 } else m
      state := .offering
      failure := d.failure.load ⟨n.number, n.content.identity, n.cls, min (n.count + 1) 8, stamp⟩ } := by
  simp only [Dispatch.afterOffer, updateNotice, offer_eq, Notice.failureDetail]

/-- The test of R77 at a port. -/
theorem testOffer_eq : s.testOffer p = s.atPort p ((s.dsp p).tested s.now) ((s.stn p).noticed (s.dsp p).offerOf) := by
  unfold State.testOffer Dispatch.tested Dispatch.offerOf
  dsimp only
  split
  · split
    · next h =>
      simp only [h, Option.map_none]
      exact (atPort_self s p).symm
    · next n h =>
      simp only [h, Option.map_some]
      rw [handNotice_eq, State.stn_setDsp, afterOffer_eq, offer_eq, noticed_some]
      rfl
  · exact (atPort_self s p).symm

@[simp] theorem testOffer_atPort : (s.atPort p d a).testOffer p = s.atPort p (d.tested s.now) (a.noticed d.offerOf) := by
  rw [testOffer_eq, dsp_atPort_self, stn_atPort_self, now_atPort]
  simp [State.atPort, State.setDsp, State.setStn]

@[simp] theorem withdraw_atPort : (s.atPort p d a).withdraw p = s.atPort p d a.withdrawn := by
  unfold State.withdraw Station.withdrawn
  rw [stn_atPort_self, setStn_atPort]
  congr 2
  cases a.tx with
  | none => rfl
  | some x => cases x <;> rfl

@[simp] theorem respond_atPort (f : Frame) (st : Status) (r : List Byte) :
    (s.atPort p d a).respond p f st r = s.atPort p d (a.replied f (responseBytes f st r)) := by
  rw [State.respond_eq, stn_atPort_self, setStn_atPort]

end

theorem freshNumber_nil (k n : Nat) : freshNumber [] (k + 1) n = n := rfl

/-- A notice placed in an empty queue takes the next number. -/
theorem enqueue_atPort_nil (s : State) (p : Port) (d : Dispatch) (a : Station) (c : NoticeContent) (cls : PClass)
    (hs : d.state ≠ .detached) (hq : d.queue = []) :
    (s.atPort p d a).enqueue p c cls = s.atPort p { d with
      queue := [{ number := d.nextNumber, cls := cls, content := c, offered := false, count := 0 }]
      nextNumber := noticeSucc d.nextNumber } a := by
  unfold State.enqueue
  dsimp only
  rw [dsp_atPort_self, if_neg hs, if_neg (by simp [hq]), if_pos (by simp [hq, Config.noticeCapacity]), setDsp_atPort]
  simp only [Dispatch.appendNotice, hq, freshNumber_nil, List.nil_append]

theorem testResync_atPort (s : State) (p : Port) (d : Dispatch) (a : Station) (hs : d.state ≠ .detached) :
    (s.atPort p d a).testResync p = s.atPort p d.refilled a := by
  unfold State.testResync Dispatch.refilled
  dsimp only
  rw [dsp_atPort_self]
  by_cases h : d.queue = [] ∧ d.resyncPending = true
  · rw [if_pos (by simp [h.1, h.2, hs]), if_pos h, setDsp_atPort,
      enqueue_atPort_nil s p { d with resyncPending := false } a .resync controlClass hs h.1]
    rfl
  · rw [if_neg (by simpa [hs] using h), if_neg h]

/-! ### What a request answered at its own port leaves -/

/-- The station port of the request begun replies as the port of the request would answer. -/
theorem replied_begun (x : Station) (f : Frame) (b : List Byte) : (x.begun f).replied f b = x.answered f b := by
  unfold Station.replied Station.answered Station.closed
  cases h : x.tx <;> simp [Station.begun, h]

/-- An arbiter whose offer may have ended. -/
inductive Station.MaybeWithdrawn (x : Station) : Station → Prop
  | same : x.MaybeWithdrawn x
  | withdrawn : x.MaybeWithdrawn x.withdrawn

theorem Station.MaybeWithdrawn.eq {x a : Station} (h : x.MaybeWithdrawn a) :
    a = { x with tx := a.tx, waitNotice := a.waitNotice } := by
  cases h <;> rfl

theorem answered_rest (x : Station) (f : Frame) (b : List Byte) :
    x.answered f b = { x.closed f b with tx := (x.answered f b).tx, waitResponse := (x.answered f b).waitResponse } := by
  unfold Station.answered
  split <;> rfl

theorem noticed_rest (x : Station) (o : Option Notice) :
    x.noticed o = { x with tx := (x.noticed o).tx, waitNotice := (x.noticed o).waitNotice } := by
  unfold Station.noticed
  split <;> rfl

theorem answered_responding (x : Station) (f : Frame) (b : List Byte) (o : Option Notice) :
    ((x.answered f b).noticed o).tx = some (.response b) ∨ ((x.answered f b).noticed o).waitResponse = some b := by
  unfold Station.answered
  split
  · left
    cases o <;> rfl
  · next h =>
    right
    cases o with
    | none => rfl
    | some n =>
      unfold Station.noticed
      split <;> rfl

/-- A request served at its own port. -/
theorem servedAtPort_of {s t : State} {p : Port} {f : Frame} {st : Status} {r : List Byte} {a : Station}
    (ha : (s.stn p).MaybeWithdrawn a) {d : Dispatch} {o : Option Notice}
    (ht : t = ({ s with commandCapture := s.captured p f } : State).atPort p d
      ((a.answered f (responseBytes f st r)).noticed o)) :
    ServedAtPort s t p f st r ∧ t.dsp p = d ∧ t.stn p = (a.answered f (responseBytes f st r)).noticed o := by
  subst ht
  have hstn := stn_atPort_self ({ s with commandCapture := s.captured p f } : State) p d
    ((a.answered f (responseBytes f st r)).noticed o)
  have hclosed : (s.closed p f st r none).stn p = { (s.stn p).closed f (responseBytes f st r) with waitResponse := none } := by
    simp [State.closed, State.stn]
  refine ⟨⟨⟨?_, fun q hq => ⟨dsp_atPort_of_ne _ _ _ _ hq, ?_⟩, ?_⟩, ?_⟩, dsp_atPort_self .., hstn⟩
  · rfl
  · rw [stn_atPort_of_ne _ _ _ _ hq]
    have hne : p.val ≠ q.val := fun e => hq (Fin.ext e.symm)
    simp [State.closed, State.stn, hne]
  · rw [hstn, hclosed, noticed_rest, answered_rest, ha.eq]
    rfl
  · rw [State.Responding, hstn]
    exact answered_responding a f _ o

/-- The request begun, as a port moved. -/
theorem begun_eq_atPort (s : State) (p : Port) (f : Frame) :
    s.begun p f = ({ s with commandCapture := s.captured p f } : State).atPort p (s.dsp p) ((s.stn p).begun f) := by
  simp [State.begun, State.atPort, State.setDsp, State.setStn, State.dsp]

theorem dsp_begun (s : State) (p q : Port) (f : Frame) : (s.begun p f).dsp q = s.dsp q := rfl

section
variable {s : State} {p : Port} {k : ReqKind} {f : Frame} {form : Frame → Bool} {st : Status} {r : List Byte}
  {owner : Frame → State → State} {a : Station} {d e : Dispatch} {o : Option Notice}

theorem next_served (h : s.Takes p k f) (hf : form f = true) (ha : (s.stn p).MaybeWithdrawn a)
    (ho : owner f (s.begun p f) = ({ s with commandCapture := s.captured p f } : State).atPort p d
      ((a.answered f (responseBytes f st r)).noticed o)) :
    ∃ t, (.next (s.live fun s => s.runRequest p k form owner) : Result) = .next t ∧ ServedAtPort s t p f st r
      ∧ t.dsp p = d ∧ t.stn p = (a.answered f (responseBytes f st r)).noticed o := by
  refine ⟨_, ?_, servedAtPort_of ha rfl⟩
  rw [next_of_takes h hf, ho, settle_of_none]
  exact h.noRaising

/-- The owner moves the port, responds, and the test of R77 follows. -/
theorem next_servedThenOffer (h : s.Takes p k f) (hf : form f = true) (ha : (s.stn p).MaybeWithdrawn a)
    (ho : owner f (s.begun p f) =
      (({ s with commandCapture := s.captured p f } : State).atPort p d (a.begun f)).respondThenOffer p f st r) :
    ∃ t, (.next (s.live fun s => s.runRequest p k form owner) : Result) = .next t ∧ ServedAtPort s t p f st r
      ∧ t.dsp p = d.tested s.now ∧ t.stn p = (a.answered f (responseBytes f st r)).noticed d.offerOf := by
  refine next_served h hf ha ?_
  rw [ho, State.respondThenOffer, respond_atPort, testOffer_atPort, replied_begun]
  rfl

end

end Sys2Proof.Machine
end

section
/-! PROOFS. What a change of a point emits (R19, R21, R22), the placement of a notice (R71, R72) and the selection (R76). -/

namespace Sys2Proof.Machine

/-! ### The record and the notices of a point -/

theorem append_points (s : State) (silent : Bool) (d : RecordDraft) : (s.append silent d).points = s.points :=
  (onlyEmits_append s silent d).points

theorem emitPoint_eq_placed (s : State) (claim : Claim) (p : PointNo) (cause : Cause) (body : RecordBody) :
    let r := s.pt p
    let latest := some (s.log.next, claim.stamp)
    let recorded := (s.append false (pointDraft claim p cause body)).setPt p { r with lastChange := latest }
    s.emitPoint claim p cause body =
      allPorts.foldl (fun t q =>
        if r.subs.getLsbD q.val = true then t.place q (.point (recorded.picture p)) r.cls else t) recorded := by
  have hpt (d : RecordDraft) : (s.append false d).pt p = s.pt p := by
    unfold State.pt
    rw [append_points]
  unfold State.emitPoint State.placePoint
  dsimp only
  rw [hpt, State.pt_setPt_self]
  rfl

/-- The picture of a point whose last change alone has moved. -/
theorem picture_recorded (s : State) (p : PointNo) (d : RecordDraft) (c : Option (Nat × TimeStamp)) :
    ((s.append false d).setPt p { s.pt p with lastChange := c }).picture p =
      { point := p, seqState := (s.pt p).seqState, condition := (s.pt p).condition, quality := (s.pt p).quality
        service := (s.pt p).service
        firstMemberFlag := match (s.pt p).parent with
          | none => false
          | some g => (s.pt g).firstOut && (s.pt g).firstMember == some p
        groupFirstMember := (s.pt p).shownMember, lastChange := c } := by
  have hpt (q : PointNo) : (s.append false d).pt q = s.pt q := by
    unfold State.pt
    rw [append_points]
  unfold State.picture State.isFirstMember
  rw [State.pt_setPt_self]
  cases hg : (s.pt p).parent with
  | none => rfl
  | some g =>
    have hg' : (((s.append false d).setPt p { s.pt p with lastChange := c }).pt g).firstOut = (s.pt g).firstOut
        ∧ (((s.append false d).setPt p { s.pt p with lastChange := c }).pt g).firstMember = (s.pt g).firstMember := by
      rw [State.pt_setPt]
      split
      · next e => rw [e]; exact ⟨rfl, rfl⟩
      · rw [hpt]; exact ⟨rfl, rfl⟩
    simp only [hg'.1, hg'.2]
    rfl

/-! ### Placing -/

theorem coalescesInto_iff {i : NoticeId} {n : Notice} :
    coalescesInto i n = true ↔ n.offered = false ∧ n.count = 0 ∧ n.content.identity = i := by
  simp [coalescesInto, Notice.neverOffered, and_assoc]

section
variable {s : State} {p : Port} {c : NoticeContent} {cls : PClass}

theorem place_of_detached (h : (s.dsp p).state = .detached) : s.place p c cls = s := by
  have he : s.enqueue p c cls = s := if_pos h
  rw [State.place, he]
  exact if_neg fun e => by rw [h] at e; cases e.1

/-- A notice of an identity that a never-offered notice has goes into that notice. -/
theorem enqueue_of_coalesces (h : (s.dsp p).state ≠ .detached) (hn : ∃ n ∈ (s.dsp p).queue, coalescesInto c.identity n = true) :
    s.enqueue p c cls = s.setDsp p { s.dsp p with queue := (s.dsp p).queue.map (Notice.absorb c cls) } :=
  (if_neg h).trans (if_pos (List.any_eq_true.mpr hn))

theorem enqueue_of_fresh (h : (s.dsp p).state ≠ .detached)
    (hn : ∀ n ∈ (s.dsp p).queue, ¬ coalescesInto c.identity n = true) (hl : (s.dsp p).queue.length < 24) :
    s.enqueue p c cls = s.setDsp p ((s.dsp p).appendNotice c cls) := by
  have ha : ¬ (s.dsp p).queue.any (coalescesInto c.identity) = true := by simpa using hn
  exact (if_neg h).trans ((if_neg ha).trans (if_pos hl))

theorem enqueue_of_full (h : (s.dsp p).state ≠ .detached)
    (hn : ∀ n ∈ (s.dsp p).queue, ¬ coalescesInto c.identity n = true) (hl : 24 ≤ (s.dsp p).queue.length) :
    s.enqueue p c cls =
      (s.setDsp p { s.dsp p with resyncPending := true }).handOn { plainRaising .noticeOverrun with port := some p } := by
  have ha : ¬ (s.dsp p).queue.any (coalescesInto c.identity) = true := by simpa using hn
  exact (if_neg h).trans ((if_neg ha).trans (if_neg (Nat.not_lt.mpr hl)))

theorem enqueue_now (s : State) (p : Port) (c : NoticeContent) (cls : PClass) : (s.enqueue p c cls).now = s.now :=
  (onlyEmits_enqueue s p c cls).now

theorem enqueue_stations (s : State) (p : Port) (c : NoticeContent) (cls : PClass) :
    (s.enqueue p c cls).stations = s.stations := by
  unfold State.enqueue
  dsimp only
  split
  · rfl
  · split
    · rfl
    · split <;> rfl

theorem enqueue_dsp_of_ne (s : State) {p q : Port} (c : NoticeContent) (cls : PClass) (h : q ≠ p) :
    (s.enqueue p c cls).dsp q = s.dsp q := by
  unfold State.enqueue
  dsimp only
  split
  · rfl
  · split
    · exact State.dsp_setDsp_of_ne _ _ h
    · split
      · exact State.dsp_setDsp_of_ne _ _ h
      · exact State.dsp_setDsp_of_ne _ _ h

end

/-- Settles O38. -/
theorem noticePlaced : Obligations.NoticePlaced := by
  refine ⟨fun s claim p cause body => ?_, fun s p c cls => ?_⟩
  · intro r latest picture recorded placed
    rw [emitPoint_eq_placed, show (_ : State).picture p = picture from picture_recorded s p _ latest]
    rfl
  · intro d never succ
    have hnever (n : Notice) : never n ↔ coalescesInto c.identity n = true := coalescesInto_iff.symm
    have hplace : s.place p c cls = (s.enqueue p c cls).testOffer p := rfl
    have hstn (q : Port) : (s.enqueue p c cls).stn q = s.stn q := by
      unfold State.stn
      rw [enqueue_stations]
    refine ⟨place_of_detached, fun hd hn => ?_, fun hd hn hl => ?_, fun hd hn hl => ?_, ?_, ?_, fun q hq => ⟨?_, ?_⟩⟩
    · rw [enqueue_of_coalesces hd (by simpa only [hnever] using hn)]
      simp only [hnever]
      rfl
    · obtain ⟨passed, hk, hpassed⟩ := freshNumber_passed d.queue (Config.noticeCapacity + 1) d.nextNumber
      refine ⟨passed, hpassed, fun n hn' => ?_, ?_⟩
      · have := freshNumber_fresh hl d.nextNumber n hn'
        rw [hk] at this
        exact this
      · rw [enqueue_of_fresh hd (by simpa only [hnever] using hn) hl, Dispatch.appendNotice, hk]
        rfl
    · exact enqueue_of_full hd (by simpa only [hnever] using hn) hl
    · rw [hplace, testOffer_eq, dsp_atPort_self, enqueue_now]
    · rw [hplace, testOffer_eq, stn_atPort_self, hstn]
    · rw [hplace, testOffer_eq, dsp_atPort_of_ne _ _ _ _ hq, enqueue_dsp_of_ne _ _ _ hq]
    · rw [hplace, testOffer_eq, stn_atPort_of_ne _ _ _ _ hq, hstn]

/-! ### Selection (R76) -/

/-- The better of what has been found and the next one: the first of least rank. -/
def leastOf {α : Type} (rank : α → Nat) (found : Option α) (x : α) : Option α :=
  match found with
  | none => some x
  | some m => if rank x < rank m then some x else some m

/-- The first of least rank, and what stands before and behind it. -/
def FirstLeast {α : Type} (rank : α → Nat) (l : List α) (x : α) : Prop :=
  ∃ before after, l = before ++ x :: after ∧ (∀ m ∈ before, rank x < rank m) ∧ ∀ m ∈ after, rank x ≤ rank m

theorem foldl_leastOf {α : Type} (rank : α → Nat) (l : List α) :
    (l = [] ∧ l.foldl (leastOf rank) none = none) ∨ ∃ x, l.foldl (leastOf rank) none = some x ∧ FirstLeast rank l x := by
  induction l using List.reverseRecOn with
  | nil => exact .inl ⟨rfl, rfl⟩
  | append_singleton l y ih =>
    right
    rw [List.foldl_append]
    obtain ⟨hl, h⟩ | ⟨x, h, before, after, hl, hb, ha⟩ := ih
    · exact ⟨y, by rw [h]; rfl, [], [], by rw [hl], nofun, nofun⟩
    · rw [h]
      by_cases hlt : rank y < rank x
      · refine ⟨y, if_pos hlt, l, [], rfl, fun m hm => ?_, fun _ h => absurd h List.not_mem_nil⟩
        rw [hl, List.mem_append, List.mem_cons] at hm
        obtain hm | rfl | hm := hm
        · exact hlt.trans (hb m hm)
        · exact hlt
        · exact hlt.trans_le (ha m hm)
      · refine ⟨x, if_neg hlt, before, after ++ [y], by rw [hl]; simp, hb, fun m hm => ?_⟩
        rw [List.mem_append, List.mem_singleton] at hm
        obtain hm | rfl := hm
        · exact ha m hm
        · exact Nat.not_lt.mp hlt

theorem betterNotice_eq (lowest : PClass) : betterNotice lowest = leastOf fun n => rankOf lowest n.cls := by
  funext found n
  cases found <;> rfl

theorem betterClass_eq (lowest : PClass) : betterClass lowest = leastOf (rankOf lowest) := by
  funext found c
  cases found <;> rfl

/-- The first of least rank among those admitted, in the whole list. -/
theorem FirstLeast.of_filter {α : Type} {rank : α → Nat} {ok : α → Bool} {l : List α} {x : α}
    (h : FirstLeast rank (l.filter ok) x) :
    ∃ before after, l = before ++ x :: after ∧ ok x = true ∧ (∀ m ∈ before, ok m = true → rank x < rank m)
      ∧ ∀ m ∈ after, ok m = true → rank x ≤ rank m := by
  obtain ⟨fb, fa, hl, hb, ha⟩ := h
  obtain ⟨l1, l2, rfl, rfl, h2⟩ := List.filter_eq_append_iff.mp hl
  obtain ⟨m1, m2, rfl, hm1, hx, rfl⟩ := List.filter_eq_cons_iff.mp h2
  refine ⟨l1 ++ m1, m2, by simp, hx, fun m hm hok => ?_, fun m hm hok => ha m (List.mem_filter.mpr ⟨hm, hok⟩)⟩
  obtain hm | hm := List.mem_append.mp hm
  · exact hb m (List.mem_filter.mpr ⟨hm, hok⟩)
  · exact absurd hok (hm1 m hm)

theorem mem_allClasses (c : PClass) : c ∈ allClasses := by revert c; decide

/-- A class may be delivered: unmasked, and as the nesting asks. -/
theorem classEligible_iff {d : Dispatch} {c : PClass} :
    d.classEligible c = true ↔ d.mask.getLsbD c.val = false
      ∧ match d.nesting with
        | .full => ∀ k : PClass, d.inService.getLsbD k.val = true → rankOf d.lowest c < rankOf d.lowest k
        | .openNest => d.inService.getLsbD c.val = false := by
  unfold Dispatch.classEligible hasBit
  cases d.nesting with
  | full =>
    simp only [Bool.and_eq_true, Bool.not_eq_true', List.all_eq_true, mem_allClasses, true_imp_iff, Bool.or_eq_true,
      decide_eq_true_eq]
    refine and_congr_right fun _ => forall_congr' fun k => ?_
    cases d.inService.getLsbD k.val <;> simp
  | openNest => simp

/-- Settles O39: the selection is the first of least rank among the eligible notices. -/
theorem noticeSelected : Obligations.NoticeSelected := by
  intro d rank eligible
  have hok (n : Notice) : (!n.offered && d.classEligible n.cls) = true ↔ eligible n := by
    rw [Bool.and_eq_true, classEligible_iff, Bool.not_eq_true']
    exact Iff.rfl
  have hsel : d.select = (d.queue.filter fun n => !n.offered && d.classEligible n.cls).foldl
      (leastOf fun n => rankOf d.lowest n.cls) none := by
    rw [← betterNotice_eq]
    rfl
  obtain ⟨hl, h⟩ | ⟨x, h, hx⟩ := foldl_leastOf (fun n : Notice => rankOf d.lowest n.cls)
    (d.queue.filter fun n => !n.offered && d.classEligible n.cls)
  · rw [hsel, h]
    refine ⟨fun _ n hn he => ?_, fun n hn => absurd hn.symm (Option.some_ne_none n)⟩
    exact List.filter_eq_nil_iff.mp hl n hn ((hok n).mpr he)
  · rw [hsel, h]
    refine ⟨fun hn => absurd hn (Option.some_ne_none x), fun n hn => ?_⟩
    cases hn
    obtain ⟨before, after, hq, he, hb, ha⟩ := hx.of_filter
    exact ⟨before, after, hq, (hok x).mp he, fun m hm hm' => hb m hm ((hok m).mpr hm'),
      fun m hm hm' => ha m hm ((hok m).mpr hm')⟩

end Sys2Proof.Machine
end

section
/-! PROOFS. The requests at a port's own Dispatch Controller: TAKE (R84, R85), POLL (R86), DONE and DONE_CLASS (R87 to R89),
SET_LOWEST, SET_DISPATCH, ATTACH and DETACH (R90 to R93). -/

namespace Sys2Proof.Machine

/-! ### TAKE (R84, R85) -/

theorem find?_split {α : Type} {c : α → Bool} {before after : List α} {x : α} (hx : c x = true)
    (hb : ∀ y ∈ before, c y = false) : (before ++ x :: after).find? c = some x := by
  rw [List.find?_append, List.find?_eq_none.mpr fun y hy => by simp [hb y hy], List.find?_cons_of_pos hx]
  rfl

/-- The one notice of a number leaves the queue. -/
theorem filter_number_split {before after : List Notice} {n : Notice} (hb : ∀ m ∈ before, m.number ≠ n.number)
    (ha : ∀ m ∈ after, m.number ≠ n.number) :
    (before ++ n :: after).filter (fun m => m.number != n.number) = before ++ after := by
  rw [List.filter_append, List.filter_cons_of_neg (by simp),
    List.filter_eq_self.mpr fun m hm => by simpa using hb m hm,
    List.filter_eq_self.mpr fun m hm => by simpa using ha m hm]

/-- The controller after a TAKE of `n`. -/
def Dispatch.afterTake (d : Dispatch) (n : Notice) : Dispatch :=
  if n.offered then { d.taken n with state := .idle, takeTimer := none }
  else if d.state = .stalled then { d.taken n with state := .idle, stalled := none }
  else d.taken n

theorem afterTake_attached {d : Dispatch} {n : Notice} (h : d.state ≠ .detached) : (d.afterTake n).state ≠ .detached := by
  unfold Dispatch.afterTake
  split
  · exact nofun
  · split
    · exact nofun
    · exact h

theorem takeNotice_atPort (s : State) (p : Port) (d : Dispatch) (a : Station) (n : Notice) :
    (s.atPort p d a).takeNotice p n = s.atPort p (d.afterTake n) (if n.offered then a.withdrawn else a) := by
  unfold State.takeNotice Dispatch.afterTake
  dsimp only
  rw [dsp_atPort_self]
  split
  · rw [setDsp_atPort, withdraw_atPort]
  · split
    · rw [setDsp_atPort]
    · rw [setDsp_atPort]

theorem maybeWithdrawn_ite (x : Station) (c : Bool) : x.MaybeWithdrawn (if c then x.withdrawn else x) := by
  cases c
  · exact .same
  · exact .withdrawn

theorem begun_ite_withdrawn (x : Station) (c : Bool) (f : Frame) :
    (if c then (x.begun f).withdrawn else x.begun f) = (if c then x.withdrawn else x).begun f := by
  cases c <;> rfl

/-- Settles O40: the notice of the number leaves the queue, and the port is refilled and tested. -/
theorem takesNotice : Obligations.TakesNotice := by
  intro s p f h k d refused
  refine ⟨fun hk => next_answered h rfl (if_pos hk), fun hk hd => next_answered h rfl ((if_neg hk).trans (if_pos hd)),
    fun hk hd hn => next_answered h rfl ((if_neg hk).trans ((if_neg hd).trans ?_)), ?_⟩
  · have hf : (d.queue.find? fun n => n.number == k && n.count != 0) = none :=
      List.find?_eq_none.mpr fun n hm => by
        by_cases e : n.number = k
        · simp [e, hn n hm e]
        · simp [e]
    have hf' : (((s.begun p f).dsp p).queue.find? fun n => n.number == f.arg2 0 && n.count != 0) = none := hf
    rw [hf']
  · intro n before after hk hd hq hnum hc hb ha d1 d2 a
    have hf : (d.queue.find? fun n => n.number == k && n.count != 0) = some n := by
      rw [hq]
      refine find?_split ?_ fun m hm => ?_
      · rw [hnum]
        simp only [beq_self_eq_true, Bool.true_and, bne_iff_ne, ne_eq]
        omega
      · simp [hb m hm]
    have hf' : (((s.begun p f).dsp p).queue.find? fun n => n.number == f.arg2 0 && n.count != 0) = some n := hf
    have htaken : d.taken n = d1 := by
      have hflt : d.queue.filter (fun m => m.number != n.number) = before ++ after := by
        rw [hq]
        exact filter_number_split (hnum ▸ hb) (hnum ▸ ha)
      unfold Dispatch.taken
      rw [hflt]
      rfl
    have hafter : d.afterTake n = d2 := by
      unfold Dispatch.afterTake
      rw [htaken]
    refine next_servedThenOffer (owner := fun f t => t.ownTake p f) (d := d2.refilled) h rfl (maybeWithdrawn_ite (s.stn p) n.offered)
      ((if_neg hk).trans ((if_neg hd).trans ?_))
    rw [hf']
    dsimp only
    rw [begun_eq_atPort, takeNotice_atPort, testResync_atPort _ _ _ _ (afterTake_attached hd), hafter,
      begun_ite_withdrawn]

/-! ### POLL (R86) -/

/-- The selection among notices that differ in their offers alone. -/
theorem selectAmong_map {d : Dispatch} (g : Notice → Notice) (hg : ∀ n, (g n).cls = n.cls) :
    ({ d with queue := d.queue.map g } : Dispatch).selectAmong (fun _ => true) =
      (d.selectAmong fun _ => true).map g := by
  have hfold (l : List Notice) (x : Option Notice) :
      (l.map g).foldl (betterNotice d.lowest) (x.map g) = (l.foldl (betterNotice d.lowest) x).map g := by
    induction l generalizing x with
    | nil => rfl
    | cons n l ih =>
      have hstep : betterNotice d.lowest (x.map g) (g n) = (betterNotice d.lowest x n).map g := by
        cases x with
        | none => rfl
        | some m =>
          simp only [betterNotice, Option.map_some, hg]
          split <;> rfl
      rw [List.map_cons, List.foldl_cons, List.foldl_cons, hstep, ih]
  unfold Dispatch.selectAmong
  have hfilter : (d.queue.map g).filter (fun n => true && d.classEligible n.cls) =
      (d.queue.filter fun n => true && d.classEligible n.cls).map g := by
    rw [List.filter_map]
    simp only [Function.comp_def, hg]
  exact (congrArg (fun l => List.foldl (betterNotice d.lowest) none l) hfilter).trans (hfold _ none)

theorem pollNotice_atPort (s : State) (p : Port) (d : Dispatch) (a : Station) (n : Notice) :
    (s.atPort p d a).pollNotice p n =
      s.atPort p { d.unoffer.taken n with state := .idle, stalled := none } a.withdrawn := by
  unfold State.pollNotice
  rw [dsp_atPort_self, setDsp_atPort, withdraw_atPort]

/-- Settles O41. -/
theorem pollsNotice : Obligations.PollsNotice := by
  intro s p f h d waiting
  have hwait : waiting.select = d.selectPoll.map fun n => { n with offered := false } := by
    rw [Dispatch.selectPoll, ← selectAmong_map (fun n : Notice => { n with offered := false }) fun _ => rfl]
    unfold Dispatch.select Dispatch.selectAmong
    congr 1
    refine List.filter_congr fun n hn => ?_
    obtain ⟨m, -, rfl⟩ := List.mem_map.mp hn
    rfl
  refine ⟨fun hd => next_answered h rfl (if_pos hd), fun hd hn => next_answered h rfl ((if_neg hd).trans ?_), fun n hd hn => ?_⟩
  · have hnone : ((s.begun p f).dsp p).selectPoll = none := Option.map_eq_none_iff.mp (hwait ▸ hn)
    rw [hnone]
  · rw [hwait] at hn
    obtain ⟨m, hm, rfl⟩ := Option.map_eq_some_iff.mp hn
    intro d1
    have hm' : ((s.begun p f).dsp p).selectPoll = some m := hm
    have hd1 : { d.unoffer.taken m with state := .idle, stalled := none } = d1 := by
      have hne (a b : Nat) : (a != b) = decide (a ≠ b) := by by_cases h : a = b <;> simp [h]
      simp only [Dispatch.taken, Dispatch.unoffer, hne]
      rfl
    refine next_servedThenOffer (owner := fun f t => t.ownPoll p f) (d := d1.refilled) h rfl .withdrawn ((if_neg hd).trans ?_)
    rw [hm']
    dsimp only
    rw [begun_eq_atPort, pollNotice_atPort, testResync_atPort _ _ _ _ (show DispatchState.idle ≠ .detached from nofun), ← hd1]
    rfl

/-! ### SET_LOWEST, SET_DISPATCH, ATTACH and DETACH (R90 to R93) -/

theorem setDsp_begun (s : State) (p : Port) (f : Frame) (d : Dispatch) :
    (s.begun p f).setDsp p d =
      ({ s with commandCapture := s.captured p f } : State).atPort p d ((s.stn p).begun f) := by
  rw [begun_eq_atPort, setDsp_atPort]

theorem Nesting.ofCode_of_le {x : Nat} (h : x ≤ 1) : Nesting.ofCode x = some (if x = 0 then .full else .openNest) := by
  obtain rfl | rfl : x = 0 ∨ x = 1 := by omega
  · rfl
  · rfl

theorem Nesting.ofCode_eq_none {x : Nat} (h : 1 < x) : Nesting.ofCode x = none :=
  List.find?_eq_none.mpr fun m _ => by cases m <;> simp only [Nesting.code, beq_iff_eq] <;> omega

theorem Rotation.ofCode_of_le {x : Nat} (h : x ≤ 1) : Rotation.ofCode x = some (if x = 0 then .manual else .auto) := by
  obtain rfl | rfl : x = 0 ∨ x = 1 := by omega
  · rfl
  · rfl

theorem Rotation.ofCode_eq_none {x : Nat} (h : 1 < x) : Rotation.ofCode x = none :=
  List.find?_eq_none.mpr fun m _ => by cases m <;> simp only [Rotation.code, beq_iff_eq] <;> omega

theorem Frame.dispatchConfig_of_good {f : Frame} (h1 : f.arg 1 ≤ 1) (h2 : f.arg 2 ≤ 1) (h3 : f.arg 3 ≤ 1)
    (h4 : f.arg 4 ≤ 1) :
    f.dispatchConfig = some
      { mask := BitVec.ofNat 8 (f.arg 0), nesting := if f.arg 1 = 0 then .full else .openNest
        rotation := if f.arg 2 = 0 then .manual else .auto, autoDone := f.arg 3 == 1, polled := f.arg 4 == 1 } := by
  simp [Frame.dispatchConfig, Nesting.ofCode_of_le h1, Rotation.ofCode_of_le h2, choice_of_le h3, choice_of_le h4]

theorem Frame.dispatchConfig_of_bad {f : Frame} (h : 1 < f.arg 1 ∨ 1 < f.arg 2 ∨ 1 < f.arg 3 ∨ 1 < f.arg 4) :
    f.dispatchConfig = none := by
  obtain h | h | h | h := h
  · simp [Frame.dispatchConfig, Nesting.ofCode_eq_none h]
  · simp [Frame.dispatchConfig, Rotation.ofCode_eq_none h]
  · simp [Frame.dispatchConfig, choice_eq_none_iff.mpr h]
  · simp [Frame.dispatchConfig, choice_eq_none_iff.mpr h]

theorem ownDoneClass_of_bad {u : State} {p : Port} {f : Frame} (h : 7 < f.arg 0 ∨ 1 < f.arg 1) :
    u.ownDoneClass p f = u.respond p f .badArgument [] := by
  unfold State.ownDoneClass
  dsimp only
  split
  · next c rotate hc hr =>
    have h0 := below_eq_some_iff.mp hc
    have h1 := choice_eq_some_iff.mp hr
    have := rotate.toNat_le
    omega
  · rfl

theorem answered_waitNotice (x : Station) (f : Frame) (b : List Byte) : (x.answered f b).waitNotice = x.waitNotice := by
  unfold Station.answered
  split <;> rfl

/-- Settles O43. -/
theorem portSettings : Obligations.PortSettings := by
  intro s p f d refused served
  refine ⟨fun h hb => next_answered h rfl (ownDoneClass_of_bad hb), fun h => ⟨fun hb => ?_, fun x hx => ?_⟩,
    fun h => ⟨fun hb => ?_, fun h1 h2 h3 h4 => ?_⟩, fun h => ⟨fun hd => next_answered h rfl (if_neg hd), fun hd hq => ?_⟩,
    fun h => ⟨fun hd => next_answered h rfl (if_pos hd), fun hd => ?_⟩⟩
  · exact next_answered h rfl (by simp only [State.ownSetLowest, below_eq_none_iff.mpr hb])
  · refine next_servedThenOffer (owner := fun f t => t.ownSetLowest p f) h rfl .same ?_
    simp only [State.ownSetLowest, below_eq_some_iff.mpr hx.symm]
    rw [setDsp_begun]
    rfl
  · exact next_answered h rfl (by simp only [State.ownSetDispatch, Frame.dispatchConfig_of_bad hb])
  · intro e
    refine ⟨fun ⟨h5, h6⟩ => ?_, fun hn => ?_⟩
    · refine next_servedThenOffer (owner := fun f t => t.ownSetDispatch p f) h rfl .withdrawn ?_
      simp only [State.ownSetDispatch, Frame.dispatchConfig_of_good h1 h2 h3 h4]
      have hc : (f.arg 4 == 1) = true ∧ d.state = .offering := ⟨beq_iff_eq.mpr h5, h6⟩
      refine congrArg (fun u : State => u.respondThenOffer p f .ok []) ((if_pos hc).trans ?_)
      rw [setDsp_begun, withdraw_atPort]
      rfl
    · refine next_servedThenOffer (owner := fun f t => t.ownSetDispatch p f) h rfl .same ?_
      simp only [State.ownSetDispatch, Frame.dispatchConfig_of_good h1 h2 h3 h4]
      have hc : ¬ ((f.arg 4 == 1) = true ∧ d.state = .offering) := fun ⟨h5, h6⟩ => hn ⟨beq_iff_eq.mp h5, h6⟩
      refine congrArg (fun u : State => u.respondThenOffer p f .ok []) ((if_neg hc).trans ?_)
      rw [setDsp_begun]
      rfl
  · refine next_servedThenOffer (owner := fun f t => t.ownAttach p f) h rfl .same ((if_pos hd).trans ?_)
    rw [setDsp_begun]
    exact congrArg (fun u : State => u.respondThenOffer p f .ok [])
      (enqueue_atPort_nil _ p { d with state := .idle } _ .resync controlClass nofun hq)
  · obtain ⟨t, ht, hs, hdsp, hstn⟩ := next_served (owner := fun f t => t.ownDetach p f) (d := d.flushed .detached) (o := none)
      (st := .ok) (r := []) h (form := anyForm) rfl .withdrawn ((if_neg hd).trans (by
        unfold State.flushPort
        rw [setDsp_begun, withdraw_atPort, respond_atPort, ← replied_begun]
        rfl))
    refine ⟨t, ht, hs, ?_, hstn, hdsp⟩
    rw [hstn]
    exact answered_waitNotice ..

end Sys2Proof.Machine
end

section
/-! PROOFS. DONE and DONE_CLASS (R87 to R89), the take timer (R79, R80) and CLEAR_FAULT naming a port (R83). -/

namespace Sys2Proof.Machine

/-! ### DONE and DONE_CLASS (R87 to R89) -/

theorem rankOf_injective (l x y : PClass) (h : rankOf l x = rankOf l y) : x = y := by
  revert l x y
  decide

/-- The one class in service of least rank is the top. -/
theorem topInService_of_least {d : Dispatch} {x : PClass} (hx : d.inService.getLsbD x.val = true)
    (hl : ∀ y : PClass, d.inService.getLsbD y.val = true → rankOf d.lowest x ≤ rankOf d.lowest y) :
    d.topInService = some x := by
  have hmem (y : PClass) : y ∈ allClasses.filter (fun c => hasBit d.inService c.val) ↔ d.inService.getLsbD y.val = true := by
    rw [List.mem_filter]
    exact and_iff_right (mem_allClasses y)
  unfold Dispatch.topInService
  rw [betterClass_eq]
  obtain ⟨hnil, -⟩ | ⟨y, h, before, after, hq, hb, ha⟩ := foldl_leastOf (rankOf d.lowest)
    (allClasses.filter fun c => hasBit d.inService c.val)
  · exact absurd ((hmem x).mpr hx) (by rw [hnil]; exact List.not_mem_nil)
  · rw [h]
    have hy : d.inService.getLsbD y.val = true := (hmem y).mp (by rw [hq]; simp)
    have hyx : rankOf d.lowest y ≤ rankOf d.lowest x := by
      have hx' := (hmem x).mpr hx
      rw [hq, List.mem_append, List.mem_cons] at hx'
      obtain hx' | rfl | hx' := hx'
      · exact (hb x hx').le
      · exact le_rfl
      · exact ha x hx'
    rw [rankOf_injective d.lowest y x (le_antisymm hyx (hl y hy))]

theorem topInService_of_none {d : Dispatch} (h : d.inService = 0) : d.topInService = none := by
  unfold Dispatch.topInService
  rw [List.filter_eq_nil_iff.mpr fun c _ => by simp [h, hasBit]]
  rfl

theorem refuseDone_begun {s : State} {p : Port} {k : ReqKind} {f : Frame} (h : s.Takes p k f)
    (hb : s.log.ring.length ≤ 1024) {status : Status} {owner : Frame → State → State} {form : Frame → Bool}
    (hf : form f = true) (ho : owner f (s.begun p f) = (s.begun p f).refuseDone p f status) :
    ∃ t, (.next (s.live fun s => s.runRequest p k form owner) : Result) = .next t ∧ t.Responding p f status []
      ∧ OnlyEmits (s.closed p f status [] (t.stn p).waitResponse) t ∧ t.flagSet .doneError = true
      ∧ AppendsFirst s t [s.systemDraft .doneError none (some p) none .none (some p)] := by
  obtain ⟨he, hresp, hflag, happ, -⟩ := settled_respond_handOn (s := s) (u := s.begun p f) (p := p) (f := f) (st := status)
    (r := []) rfl h.noRaising hb { plainRaising .doneError with port := some p, reqPort := some p } rfl
  exact ⟨_, (next_of_takes h hf owner).trans (congrArg (fun t => Host.Outcome.next t.settle) ho), hresp, he, hflag, happ⟩

/-- A class finished at the request's own port. -/
theorem next_finished {s : State} {p : Port} {k : ReqKind} {f : Frame} (h : s.Takes p k f) {owner : Frame → State → State}
    {form : Frame → Bool} (hf : form f = true) {x : PClass} {rotate : Bool} {R : Prop} (hR : rotate = true ↔ R)
    {results : List Byte}
    (ho : owner f (s.begun p f) =
      ((s.begun p f).setDsp p ((s.dsp p).finish x rotate)).respondThenOffer p f .ok results) :
    ∃ t, (.next (s.live fun s => s.runRequest p k form owner) : Result) = .next t ∧ ServedAtPort s t p f .ok results
      ∧ ∃ lowest, (R → lowest = x) ∧ (¬ R → lowest = (s.dsp p).lowest)
        ∧ let e : Dispatch :=
            { s.dsp p with inService := (s.dsp p).inService &&& ~~~ BitVec.twoPow 8 x.val, lowest := lowest }
          t.dsp p = e.tested s.now ∧ t.stn p = ((s.stn p).answered f (responseBytes f .ok results)).noticed e.offerOf := by
  rw [setDsp_begun] at ho
  obtain ⟨t, ht, hs, hd, hstn⟩ := next_servedThenOffer h hf .same ho
  refine ⟨t, ht, hs, if rotate then x else (s.dsp p).lowest, fun hr => if_pos (hR.mpr hr), fun hr => if_neg (mt hR.mp hr), ?_⟩
  exact ⟨hd, hstn⟩

theorem ownDoneClass_eq {u : State} {p : Port} {f : Frame} {x : PClass} (hx : x.val = f.arg 0) (h1 : f.arg 1 ≤ 1)
    (hd : (u.dsp p).state ≠ .detached) :
    u.ownDoneClass p f =
      if (u.dsp p).inService = 0 then u.refuseDone p f .nothingInService
      else if hasBit (u.dsp p).inService x.val = false then u.refuseDone p f .notInService
      else (u.setDsp p ((u.dsp p).finish x ((f.arg 1 == 1) || (u.dsp p).rotation == .auto))).respondThenOffer p f .ok [] := by
  unfold State.ownDoneClass
  rw [below_eq_some_iff.mpr hx.symm, choice_of_le h1]
  exact if_neg hd

/-- Settles O42. -/
theorem finishesClass : Obligations.FinishesClass := by
  intro s p f c k h hb hk d rank inService raised finished
  obtain ⟨rfl, rfl⟩ | ⟨rfl, rfl, h0, h1⟩ := hk
  · have hdone (hd : d.state ≠ .detached) {x : PClass} (hx : d.topInService = some x) :
        (s.begun p f).ownDone p f =
          ((s.begun p f).setDsp p (d.finish x (d.rotation == .auto))).respondThenOffer p f .ok (b1 x.val) := by
      have hx' : ((s.begun p f).dsp p).topInService = some x := hx
      refine (if_neg hd).trans ?_
      rw [hx']
      rfl
    refine ⟨fun hd => next_answered h rfl (if_pos hd), fun hd h0 => ?_, fun _ hk => absurd hk nofun,
      fun hd _ x hx hl => ?_, fun _ hk => absurd hk nofun⟩
    · have hnone : ((s.begun p f).dsp p).topInService = none := topInService_of_none h0
      refine refuseDone_begun (owner := fun f t => t.ownDone p f) (form := anyForm) h hb rfl ((if_neg hd).trans ?_)
      rw [hnone]
    · exact next_finished (owner := fun f t => t.ownDone p f) h rfl beq_iff_eq (hdone hd (topInService_of_least hx hl))
  · have hx0 : (⟨f.arg 0, h0⟩ : PClass).val = f.arg 0 := rfl
    refine ⟨fun hd => ?_, fun hd hz => ?_, fun hd _ hz x hx hn => ?_, fun _ hk => absurd hk nofun, fun hd _ x hx hin => ?_⟩
    · refine next_answered h rfl ?_
      unfold State.ownDoneClass
      rw [below_eq_some_iff.mpr hx0.symm, choice_of_le h1]
      exact if_pos hd
    · exact refuseDone_begun (owner := fun f t => t.ownDoneClass p f) (form := anyForm) h hb rfl
        ((ownDoneClass_eq (u := s.begun p f) hx0 h1 hd).trans (if_pos hz))
    · exact refuseDone_begun (owner := fun f t => t.ownDoneClass p f) (form := anyForm) h hb rfl
        ((ownDoneClass_eq (u := s.begun p f) hx h1 hd).trans ((if_neg hz).trans (if_pos (Bool.eq_false_iff.mpr hn))))
    · have hz : d.inService ≠ 0 := fun e => by simp [inService, e] at hin
      have hin' : ¬ hasBit d.inService x.val = false := fun e => Bool.false_ne_true (e.symm.trans hin)
      exact next_finished (owner := fun f t => t.ownDoneClass p f) (R := f.arg 1 = 1 ∨ d.rotation = .auto)
        (rotate := (f.arg 1 == 1) || d.rotation == .auto) h rfl (by simp)
        ((ownDoneClass_eq (u := s.begun p f) hx h1 hd).trans ((if_neg hz).trans (if_neg hin')))

end Sys2Proof.Machine
end

section
/-! PROOFS. The take timer (R79, R80) and CLEAR_FAULT naming a port (R83). -/

namespace Sys2Proof.Machine

/-! ### The take timer (R79, R80) -/

theorem setDsp_eq_atPort (s : State) (p : Port) (d : Dispatch) : s.setDsp p d = s.atPort p d (s.stn p) := by
  simp [State.atPort, State.setDsp, State.setStn, State.stn]

theorem portOnly_atPort (s : State) (p : Port) (d : Dispatch) (o : Option Notice) :
    PortOnly s (s.atPort p d ((s.stn p).noticed o)) p := by
  refine ⟨rfl, fun q hq => ⟨dsp_atPort_of_ne _ _ _ _ hq, stn_atPort_of_ne _ _ _ _ hq⟩, ?_⟩
  rw [stn_atPort_self, noticed_rest]

/-- Placements at a controller that is not IDLE offer nothing. -/
theorem Dispatch.PlacedOnto.notIdle {k : Option Nat} {d e : Dispatch} (h : d.PlacedOnto k e) (hd : d.state ≠ .idle) :
    k = none ∧ e.state = d.state ∧ e.failure = d.failure ∧ e.stalled = d.stalled ∧ e.takeTimer = d.takeTimer := by
  have hk : k = none := by
    cases k with
    | none => rfl
    | some j => exact absurd (h.offer j rfl).1 hd
  obtain ⟨h1, h2⟩ := h.noOffer hk
  have h3 := congrArg Dispatch.stalled h.rest
  have h4 := congrArg Dispatch.takeTimer h.rest
  exact ⟨hk, h1, h2, h3, h4⟩

/-- Without an offer no notice becomes OFFERED. -/
theorem Dispatch.PlacedOnto.unoffered {d e : Dispatch} (h : d.PlacedOnto none e) (hq : ∀ n ∈ d.queue, n.offered = false) :
    ∀ m ∈ e.queue, m.offered = false := by
  obtain ⟨old, new, he, hold, -, hnew⟩ := h.queue
  intro m hm
  rw [he, List.mem_append] at hm
  obtain hm | hm := hm
  · obtain ⟨n, hn, hk⟩ := forall₂_mem_right hold hm
    obtain ⟨-, -, -, hsame⟩ := hk
    rw [if_neg nofun] at hsame
    exact hsame.1.trans (hq n hn)
  · exact (hnew m hm).2.1

theorem Dispatch.PlacedOnto.count {d e : Dispatch} (h : d.PlacedOnto none e) {n : Notice} (hn : n ∈ d.queue) :
    ∃ m ∈ e.queue, m.number = n.number ∧ m.count = n.count := by
  obtain ⟨old, new, he, hold, -, -⟩ := h.queue
  obtain ⟨m, hm, hk⟩ := forall₂_mem_left hold hn
  obtain ⟨hnum, -, -, hsame⟩ := hk
  rw [if_neg nofun] at hsame
  exact ⟨m, by rw [he]; exact List.mem_append_left _ hm, hnum, hsame.2⟩

theorem faultLine_of_failure {t : State} {p : Port} (hr : t.inReset = false) (h : (t.dsp p).failure.locked = true) :
    t.faultLine = true := by
  have hp : p ∈ allPorts := (by decide : ∀ q : Port, q ∈ allPorts) p
  have hmem : true ∈ t.lockedSet :=
    List.mem_append_right _ (List.mem_map.mpr ⟨p, hp, h⟩)
  have hany : t.lockedSet.any id = true := List.any_eq_true.mpr ⟨true, hmem, rfl⟩
  simp [State.faultLine, hr, hany]

/-- Settles O44: an expiry within the retries offers afresh, and a later one stalls the port. -/
theorem takeTimerExpires : Obligations.TakeTimerExpires := by
  intro s p n before after hlive hr hb htimer hq hn hbefore d waiting
  have hoff : d.offered = some n := by
    show d.queue.find? _ = some n
    rw [hq]
    exact find?_split hn hbefore
  have hnext : exec (.takeTimerExpiry p) s = .next (s.takeExpired p).settle :=
    congrArg Host.Outcome.next ((live_of hlive _).trans (if_pos htimer))
  have hoff' : (s.dsp p).offered = some n := hoff
  refine ⟨fun hc => ?_, fun hc => ?_⟩
  · have ht : s.takeExpired p = s.atPort p (({ waiting with state := .idle } : Dispatch).tested s.now)
        ((s.stn p).noticed ({ waiting with state := .idle } : Dispatch).offerOf) := by
      unfold State.takeExpired
      dsimp only
      rw [hoff']
      dsimp only
      rw [if_pos hc, setDsp_eq_atPort, testOffer_atPort]
      rfl
    refine ⟨_, hnext, ?_⟩
    rw [ht, settle_of_none (show (State.atPort ..).raisings = [] from hr)]
    exact ⟨portOnly_atPort .., dsp_atPort_self .., stn_atPort_self ..⟩
  · intro failure
    let base := s.setDsp p { waiting with state := .stalled, stalled := some n.number, failure := failure }
    have ht : s.takeExpired p = base.handOn { plainRaising .deliveryStall with port := some p } := by
      unfold State.takeExpired
      dsimp only
      rw [hoff']
      dsimp only
      rw [if_neg (Nat.not_le.mpr hc)]
      rfl
    obtain ⟨he, hf, ha, hro⟩ := settled_handOn (s := base) hr hb { plainRaising .deliveryStall with port := some p }
    rw [← ht] at he hf ha hro
    obtain ⟨k, hplaced, -⟩ := he.ports p
    rw [State.dsp_setDsp_self] at hplaced
    obtain ⟨hk, hstate, hfail, hstalled, htt⟩ := hplaced.notIdle nofun
    subst hk
    have hwait : ∀ m ∈ waiting.queue, m.offered = false := by
      intro m hm
      obtain ⟨x, -, rfl⟩ := List.mem_map.mp hm
      rfl
    have hmem : { n with offered := false } ∈ waiting.queue :=
      List.mem_map.mpr ⟨n, by show n ∈ (s.dsp p).queue; rw [hq]; simp, rfl⟩
    have hlocked : failure.locked = true := by
      by_cases hl : d.failure.locked = true
      · exact (congrArg FailureRec.locked (if_pos hl)).trans hl
      · exact congrArg FailureRec.locked (if_neg hl)
    refine ⟨_, hnext, he, hstate, hstalled, htt, hfail, hplaced.unoffered hwait,
      hplaced.count (n := { n with offered := false }) hmem, ?_, hf,
      hro.flagsOnly hr he.flags, ha.congr rfl rfl⟩
    exact faultLine_of_failure (he.inReset.trans hlive) ((congrArg FailureRec.locked hfail).trans hlocked)

/-! ### CLEAR_FAULT naming a port (R83) -/

theorem Dispatch.PlacedOnto.failure {k : Option Nat} {d e : Dispatch} (h : d.PlacedOnto k e) :
    e.failure.locked = d.failure.locked ∧ e.failure.multiple = d.failure.multiple := by
  cases k with
  | none =>
    rw [(h.noOffer rfl).2]
    exact ⟨rfl, rfl⟩
  | some j =>
    have hl := (h.offer j rfl).2.2.2.2
    split at hl
    · rw [hl]; exact ⟨rfl, rfl⟩
    · rw [hl.1]; exact ⟨rfl, rfl⟩

theorem namesPort_of {s : State} {p q : Port} {f : Frame} (h : s.Takes p .clearFault f) (hq : f.arg 0 = q.val + 2) :
    namesPort f = true := by
  have hl : f.body.length = 1 := h.length
  have hq' : 2 ≤ f.arg 0 ∧ f.arg 0 ≤ 5 := by omega
  simp [namesPort, hl, hq'.1, hq'.2]

theorem ownClearFaultPort_eq {u : State} {p q : Port} {f : Frame} (hq : f.arg 0 = q.val + 2) :
    u.ownClearFaultPort p f =
      (((u.setDsp q (u.dsp q).faultCleared).append false
        (otherDraft u.now (.clearFault (u.dsp q).failure.locked (u.dsp q).failure.multiple (.port q)) (some p))).respond
          p f .ok []).testOffer q := by
  unfold State.ownClearFaultPort
  rw [below_eq_some_iff.mpr (show f.arg 0 - 2 = q.val by omega)]
  rfl

theorem respond_dsp (s : State) (p q : Port) (f : Frame) (st : Status) (r : List Byte) :
    (s.respond p f st r).dsp q = s.dsp q := by
  rw [State.respond_eq, State.dsp_setStn]

theorem respond_now (s : State) (p : Port) (f : Frame) (st : Status) (r : List Byte) :
    (s.respond p f st r).now = s.now := by
  rw [State.respond_eq]
  rfl

/-- What a CLEAR_FAULT naming a port leaves, whatever the controller becomes. -/
theorem next_clearFaultPort {s : State} {p q : Port} {f : Frame} (h : s.Takes p .clearFault f) (hq : f.arg 0 = q.val + 2)
    (hb : s.log.ring.length ≤ 1024) {e : Dispatch} (he : (s.dsp q).faultCleared = e) (hlocked : e.failure.locked = false)
    (hmultiple : e.failure.multiple = false) :
    ∃ t, exec (.clearFaultPort p) s = .next t ∧ t.Responding p f .ok []
      ∧ OnlyEmits { s.closed p f .ok [] (t.stn p).waitResponse with dispatch := (s.setDsp q e).dispatch } t
      ∧ (∃ k, (e.tested s.now).PlacedOnto k (t.dsp q))
      ∧ (t.dsp q).failure.locked = false ∧ (t.dsp q).failure.multiple = false
      ∧ (∀ m ∈ e.queue, ∃ o ∈ (t.dsp q).queue, o.number = m.number)
      ∧ FlagsOnly s t []
      ∧ AppendsFirst s t
        [otherDraft s.now (.clearFault (s.dsp q).failure.locked (s.dsp q).failure.multiple (.port q)) (some p)] := by
  let draft := otherDraft s.now (.clearFault (s.dsp q).failure.locked (s.dsp q).failure.multiple (.port q)) (some p)
  let u := (s.begun p f).setDsp q e
  let v := u.append false draft
  let w := v.respond p f .ok []
  let x := w.testOffer q
  have hnext : exec (.clearFaultPort p) s = .next x.settle := by
    refine (next_of_takes h (namesPort_of h hq) fun f t => t.ownClearFaultPort p f).trans ?_
    rw [ownClearFaultPort_eq hq, dsp_begun, he]
    rfl
  have hv : OnlyEmits u v := onlyEmits_append u false draft
  obtain ⟨hw, hresp⟩ := respond_emitted (s := s) (u := u) (p := p) (f := f) (begun_stations s p f) hv .ok []
  have hx : OnlyEmits w x.settle := (onlyEmits_testOffer w q).trans (onlyEmits_settle x)
  have hclosed : OnlyEmits { s.closed p f .ok [] (x.settle.stn p).waitResponse with dispatch := (s.setDsp q e).dispatch }
      x.settle := by
    rw [hx.waitResponse p]
    exact hw.trans hx
  obtain ⟨k, hplaced, -⟩ := hclosed.ports q
  have hbase : ({ s.closed p f .ok [] (x.settle.stn p).waitResponse with dispatch := (s.setDsp q e).dispatch } : State).dsp q
      = e := State.dsp_setDsp_self s q e
  rw [hbase] at hplaced
  have hxd : x.dsp q = e.tested s.now := by
    have hwd : w.dsp q = e := (respond_dsp ..).trans ((append_dsp ..).trans (State.dsp_setDsp_self ..))
    have hwn : w.now = s.now := (respond_now ..).trans hv.now
    show (w.testOffer q).dsp q = _
    rw [testOffer_eq, dsp_atPort_self, hwd, hwn]
  refine ⟨_, hnext, hresp.emits hx, hclosed, ?_, hplaced.failure.1.trans hlocked, hplaced.failure.2.trans hmultiple,
    fun m hm => hplaced.number hm, ?_, ?_⟩
  · obtain ⟨k, hk, -⟩ := (onlyEmits_settle x).ports q
    exact ⟨k, hxd ▸ hk⟩
  · have hro : RaisesOnly u x.settle [] :=
      (raisesOnly_append u false draft).trans ((raisesOnly_respond v p f .ok []).trans
        ((raisesOnly_testOffer w q).trans (raisesOnly_settle x)))
    exact hro.flagsOnly h.noRaising hclosed.flags
  · have hbu : u.log.ring.length ≤ 1024 := hb
    have hav : Appends u v [draft] := appends_append hbu false draft
    have hxlog : x.log = v.log := (testOffer_log ..).trans (respond_log ..)
    have hax : AppendsFirst x x.settle [] := appendsFirst_settle (by rw [hxlog]; exact hav.length)
    exact (hav.of_log hxlog).followed hax

theorem faultCleared_of_notStalled {d : Dispatch} (h : d.state ≠ .stalled) :
    d.faultCleared = { d with failure := { d.failure with locked := false, multiple := false } } := if_neg h

theorem faultCleared_of_stalled {d : Dispatch} {n : Nat} (h : d.state = .stalled) (hn : d.stalled = some n) :
    d.faultCleared = { d with
      failure := { d.failure with locked := false, multiple := false }
      queue := reviveStalled n d.queue, stalled := none, state := .idle } := by
  unfold Dispatch.faultCleared
  rw [hn]
  exact if_pos h

/-- The notice of a number that no other one has is the one updated. -/
theorem updateNotice_split {before after : List Notice} {n : Notice} (g : Notice → Notice)
    (h : ∀ m ∈ before ++ after, m.number ≠ n.number) :
    updateNotice n.number g (before ++ n :: after) = before ++ g n :: after := by
  have hmap (l : List Notice) (hl : ∀ m ∈ l, m.number ≠ n.number) :
      l.map (fun m => if m.number = n.number then g m else m) = l :=
    (List.map_congr_left fun m hm => if_neg (hl m hm)).trans (List.map_id _)
  unfold updateNotice
  rw [List.map_append, List.map_cons, if_pos rfl, hmap before fun m hm => h m (List.mem_append_left _ hm),
    hmap after fun m hm => h m (List.mem_append_right _ hm)]

theorem find?_number {before after : List Notice} {n : Notice} (h : ∀ m ∈ before ++ after, m.number ≠ n.number) :
    (before ++ n :: after).find? (fun m => m.number == n.number) = some n :=
  find?_split (by simp) fun m hm => by simpa using h m (List.mem_append_left _ hm)

/-- Without a never-offered notice of its identity the stalled notice is never-offered again. -/
theorem reviveStalled_alone {before after : List Notice} {n : Notice} (h : ∀ m ∈ before ++ after, m.number ≠ n.number)
    (ht : ∀ m ∈ before ++ after, ¬ coalescesInto n.content.identity m = true) :
    reviveStalled n.number (before ++ n :: after) = before ++ { n with count := 0 } :: after := by
  have hnone : (before ++ n :: after).find? (fun m => m.number != n.number && coalescesInto n.content.identity m) = none := by
    refine List.find?_eq_none.mpr fun m hm => ?_
    rw [List.mem_append, List.mem_cons] at hm
    obtain hm | rfl | hm := hm
    · simp [ht m (List.mem_append_left _ hm)]
    · simp
    · simp [ht m (List.mem_append_right _ hm)]
  unfold reviveStalled
  rw [find?_number h]
  dsimp only
  rw [hnone]
  exact updateNotice_split _ h

/-- With one, it takes class and content of that notice, which leaves the queue. -/
theorem reviveStalled_twin {before x y : List Notice} {n m : Notice}
    (h : ∀ o ∈ before ++ (x ++ m :: y), o.number ≠ n.number) (hm : coalescesInto n.content.identity m = true)
    (ht : ∀ o ∈ before ++ x ++ y, ¬ coalescesInto n.content.identity o = true ∧ o.number ≠ m.number) :
    reviveStalled n.number (before ++ n :: (x ++ m :: y)) =
      before ++ { n with count := 0, cls := m.cls, content := m.content } :: (x ++ y) := by
  have hmn : m.number ≠ n.number := h m (by simp)
  have hbx (o : Notice) (ho : o ∈ before ++ x) := ht o (List.mem_append_left _ ho)
  have hfind : (before ++ n :: (x ++ m :: y)).find?
      (fun o => o.number != n.number && coalescesInto n.content.identity o) = some m := by
    rw [show before ++ n :: (x ++ m :: y) = (before ++ n :: x) ++ m :: y by simp]
    refine find?_split (by simp [hmn, hm]) fun o ho => ?_
    rw [List.mem_append, List.mem_cons] at ho
    obtain ho | rfl | ho := ho
    · simp [(hbx o (List.mem_append_left _ ho)).1]
    · simp
    · simp [(hbx o (List.mem_append_right _ ho)).1]
  have hfilter : (before ++ n :: (x ++ m :: y)).filter (fun o => o.number != m.number) = before ++ n :: (x ++ y) := by
    rw [show before ++ n :: (x ++ m :: y) = (before ++ n :: x) ++ m :: y by simp, filter_number_split]
    · simp
    · intro o ho
      rw [List.mem_append, List.mem_cons] at ho
      obtain ho | rfl | ho := ho
      · exact (hbx o (List.mem_append_left _ ho)).2
      · exact hmn.symm
      · exact (hbx o (List.mem_append_right _ ho)).2
    · exact fun o ho => (ht o (List.mem_append_right _ ho)).2
  unfold reviveStalled
  rw [find?_number h]
  dsimp only
  rw [hfind]
  dsimp only
  rw [hfilter]
  exact updateNotice_split _ fun o ho => h o (by simp only [List.mem_append, List.mem_cons] at ho ⊢; tauto)

/-- Settles O45. -/
theorem clearFaultAtPort : Obligations.ClearFaultAtPort := by
  intro s p q f h hq hb d unlocked cleared revived
  refine ⟨fun hs => next_clearFaultPort h hq hb (faultCleared_of_notStalled hs) rfl rfl, ?_⟩
  intro n before after hs hn hqueue hnum twin
  have hrevived {queue : List Notice} (hrq : reviveStalled n.number (before ++ n :: after) = queue) : revived queue := by
    refine next_clearFaultPort h hq hb ((faultCleared_of_stalled hs hn).trans ?_) rfl rfl
    rw [← hrq, ← hqueue]
  refine ⟨fun ht => hrevived (reviveStalled_alone hnum fun m hm e => ht m hm (coalescesInto_iff.mp e)), ?_⟩
  rintro m x y rfl hm ht
  exact hrevived (reviveStalled_twin hnum (coalescesInto_iff.mpr hm)
    fun o ho => ⟨fun e => (ht o ho).1 (coalescesInto_iff.mp e), (ht o ho).2⟩)

end Sys2Proof.Machine
end

section
/-! PROOFS. The station ports: reception (R182, R183), the end of a frame (R187, R78) and the retransmission (R184). -/

namespace Sys2Proof.Machine

/-! ### The receive assembly (R182) -/

/-- The bytes after START of a frame that is not whole yet. -/
def Incomplete (bytes : List Byte) : Prop :=
  ∀ len rest, bytes = len :: rest → 2 ≤ len.toNat ∧ len.toNat ≤ 242 ∧ rest.length < len.toNat + 2

theorem Incomplete.of_append {a b : List Byte} (h : Incomplete (a ++ b)) : Incomplete a := by
  rintro len rest rfl
  obtain ⟨h1, h2, h3⟩ := h len (rest ++ b) rfl
  rw [List.length_append] at h3
  exact ⟨h1, h2, by omega⟩

section
variable (t : Station) (x : StationRx)

theorem discard_eq : t.discard = { t with rx := .hunting, discards := min (t.discards + 1) 65535 } := by
  have h : saturatingSucc t.discards = min (t.discards + 1) 65535 := by
    unfold saturatingSucc
    rcases Nat.lt_or_ge t.discards 65535 with hd | hd
    · exact (if_pos hd).trans (by omega)
    · exact (if_neg (Nat.not_lt.mpr hd)).trans (show 65535 = min (t.discards + 1) 65535 by omega)
  rw [Station.discard, h]

/-- A frame assembled does not depend on how the gap timer stood. -/
theorem assemble_rx (bytes : List Byte) : ({ t with rx := x } : Station).assemble bytes = t.assemble bytes := by
  unfold Station.assemble
  split
  · rfl
  · split
    · rfl
    · split
      · rfl
      · split
        · rfl
        · unfold Station.complete
          split
          · rfl
          · split <;> rfl

theorem assemble_of_incomplete {bytes : List Byte} (h : Incomplete bytes) :
    t.assemble bytes = { t with rx := .partialFrame bytes 5 } := by
  unfold Station.assemble
  cases bytes with
  | nil => rfl
  | cons len rest =>
    obtain ⟨h1, h2, h3⟩ := h len rest rfl
    exact (if_neg (by omega)).trans (if_pos h3)

theorem receive_partial {bytes : List Byte} {gap : Nat} (b : RxByte) :
    ({ t with rx := .partialFrame bytes gap } : Station).receive b =
      if b.stopLow then t.discard else t.assemble (bytes ++ [b.value]) := by
  unfold Station.receive
  dsimp only
  rw [assemble_rx]
  rfl

/-- Good bytes that leave the frame incomplete. -/
theorem receive_more {pre l : List Byte} {gap : Nat} (h : Incomplete (pre ++ l)) (hl : l ≠ []) :
    (goodBytes l).foldl Station.receive { t with rx := .partialFrame pre gap } =
      { t with rx := .partialFrame (pre ++ l) 5 } := by
  induction l generalizing pre gap with
  | nil => exact absurd rfl hl
  | cons b l ih =>
    have hb : Incomplete (pre ++ [b]) := Incomplete.of_append (b := l) (by simpa using h)
    have hstep : ({ t with rx := .partialFrame pre gap } : Station).receive ⟨b, false⟩ =
        { t with rx := .partialFrame (pre ++ [b]) 5 } := by
      rw [receive_partial]
      exact (if_neg nofun).trans (assemble_of_incomplete t hb)
    show (goodBytes l).foldl Station.receive (Station.receive _ ⟨b, false⟩) = _
    rw [hstep]
    by_cases hn : l = []
    · subst hn
      rfl
    · rw [ih (by simpa using h) hn]
      simp

variable {t}

theorem receive_start (h : t.rx = .hunting) : t.receive ⟨0x5A#8, false⟩ = { t with rx := .partialFrame [] 5 } := by
  unfold Station.receive
  rw [h]
  rfl

/-- START and bytes that leave the frame incomplete. -/
theorem receive_begun (h : t.rx = .hunting) {bytes : List Byte} (hi : Incomplete bytes) :
    (goodBytes (0x5A#8 :: bytes)).foldl Station.receive t = { t with rx := .partialFrame bytes 5 } := by
  show (goodBytes bytes).foldl Station.receive (t.receive ⟨0x5A#8, false⟩) = _
  rw [receive_start h]
  by_cases hn : bytes = []
  · subst hn
    rfl
  · exact receive_more t hi hn

/-- The byte that ends a frame, well or ill. -/
theorem receive_last (h : t.rx = .hunting) {bytes : List Byte} (hi : Incomplete bytes) (b : Byte) :
    (goodBytes (0x5A#8 :: (bytes ++ [b]))).foldl Station.receive t = t.assemble (bytes ++ [b]) := by
  have hsplit : goodBytes (0x5A#8 :: (bytes ++ [b])) = goodBytes (0x5A#8 :: bytes) ++ [⟨b, false⟩] := by
    simp [goodBytes]
  rw [hsplit, List.foldl_append, receive_begun h hi]
  exact (receive_partial t ⟨b, false⟩).trans (if_neg Bool.false_ne_true)

theorem receive_low (h : t.rx = .hunting) {bytes : List Byte} (hi : Incomplete bytes) {b : RxByte} (hb : b.stopLow = true) :
    (goodBytes (0x5A#8 :: bytes) ++ [b]).foldl Station.receive t = t.discard := by
  rw [List.foldl_append, receive_begun h hi]
  exact (receive_partial t b).trans (if_pos hb)

/-- The bytes of a whole frame after START, its check right or wrong. -/
theorem receive_whole (h : t.rx = .hunting) {len tag kind : Byte} {body check : List Byte}
    (hl : len.toNat = body.length + 2) (hb : body.length ≤ 240) (hc : check.length = 2) :
    (goodBytes (0x5A#8 :: len :: tag :: kind :: body ++ check)).foldl Station.receive t =
      if check = checkBytes (len :: tag :: kind :: body) then t.complete { tag := tag, kind := kind, body := body }
      else t.discard := by
  let bytes := len :: tag :: kind :: (body ++ check)
  have hne : bytes ≠ [] := List.cons_ne_nil _ _
  have hlast : bytes.dropLast ++ [bytes.getLast hne] = bytes := List.dropLast_append_getLast hne
  have hi : Incomplete bytes.dropLast := by
    intro l rest hlr
    have hlen : bytes.dropLast.length = rest.length + 1 := by rw [hlr]; rfl
    have hhead : len = l := by
      have := congrArg List.head? hlr
      simpa [bytes, List.dropLast] using this
    rw [List.length_dropLast] at hlen
    simp only [bytes, List.length_cons, List.length_append, hc] at hlen
    rw [← hhead]
    omega
  have hrecv := receive_last h hi (bytes.getLast hne)
  rw [hlast] at hrecv
  have hparse : parseStationFrame bytes =
      if check = checkBytes (len :: tag :: kind :: body) then some { tag := tag, kind := kind, body := body } else none := by
    have hn : len.toNat - 2 = body.length := by omega
    simp only [parseStationFrame, bytes, hn, List.drop_left, List.take_left]
    have htake : (len :: tag :: kind :: (body ++ check)).take (body.length + 3) = len :: tag :: kind :: body := by
      simp
    rw [htake]
  refine (show _ = t.assemble bytes from hrecv).trans ?_
  unfold Station.assemble
  refine (if_neg (by omega)).trans ((if_neg ?_).trans ?_)
  · simp only [List.length_cons, List.length_append, hc]
    omega
  · rw [hparse]
    by_cases hright : check = checkBytes (len :: tag :: kind :: body)
    · rw [if_pos hright, if_pos hright]
    · rw [if_neg hright, if_neg hright]

/-- Bytes that start no frame. -/
theorem receive_noise (h : t.rx = .hunting) {bytes : List RxByte} (hn : ∀ b ∈ bytes, b.value ≠ 0x5A#8 ∨ b.stopLow = true) :
    bytes.foldl Station.receive t = t := by
  induction bytes with
  | nil => rfl
  | cons b l ih =>
    have hb : t.receive b = t := by
      unfold Station.receive
      rw [h]
      refine if_neg fun ⟨h1, h2⟩ => ?_
      obtain h3 | h3 := hn b List.mem_cons_self
      · exact h3 h1
      · rw [h2] at h3; cases h3
    rw [List.foldl_cons, hb]
    exact ih fun c hc => hn c (List.mem_cons_of_mem _ hc)

end

theorem setStn_self (s : State) (p : Port) : s.setStn p (s.stn p) = s := by
  simp [State.setStn, State.stn]

theorem exec_stationFrameReceived {s : State} (h : s.inReset = false) (p : Port) (bytes : List RxByte) :
    exec (.stationFrameReceived p bytes) s = .next (s.setStn p (bytes.foldl Station.receive (s.stn p))) :=
  congrArg Host.Outcome.next (live_of h _)

theorem exec_stationGapExpiry {s : State} (h : s.inReset = false) (p : Port) :
    exec (.stationGapExpiry p) s = .next (s.setStn p (s.stn p).gapExpired) :=
  congrArg Host.Outcome.next (live_of h _)

theorem gapExpired_of_expired {t : Station} {bytes : List Byte} (h : t.rx = .partialFrame bytes 0) :
    t.gapExpired = t.discard := by
  unfold Station.gapExpired
  rw [h]
  rfl

theorem gapExpired_of_running {t : Station} (h : ∀ bytes, t.rx ≠ .partialFrame bytes 0) : t.gapExpired = t := by
  unfold Station.gapExpired
  split
  · rfl
  · next bytes gap hr =>
    refine if_neg fun hg => h bytes ?_
    rw [hr, hg]

theorem stationFrame_eq (f : Frame) :
    stationFrame f = 0x5A#8 :: BitVec.ofNat 8 (f.body.length + 2) :: f.tag :: f.kind :: f.body
      ++ checkBytes (BitVec.ofNat 8 (f.body.length + 2) :: f.tag :: f.kind :: f.body) := rfl

/-- A whole frame with a right check. -/
theorem receive_stationFrame {t : Station} (h : t.rx = .hunting) {f : Frame} (hb : f.body.length ≤ 240) :
    (goodBytes (stationFrame f)).foldl Station.receive t = t.complete f := by
  have hlen : (BitVec.ofNat 8 (f.body.length + 2)).toNat = f.body.length + 2 := by
    rw [BitVec.toNat_ofNat]
    omega
  rw [stationFrame_eq, receive_whole h hlen hb (length_checkBytes _)]
  exact if_pos rfl

/-- Settles O22. -/
theorem stationReceives : Obligations.StationReceives := by
  intro s p hlive counted
  have hcount : counted = .next (s.setStn p (s.stn p).discard) := by
    rw [discard_eq]
  have hrecv (bytes : List RxByte) := exec_stationFrameReceived hlive p bytes
  have hdisc (bytes : List RxByte) : exec (.stationFrameDiscarded p bytes) s = exec (.stationFrameReceived p bytes) s := rfl
  refine ⟨fun bytes h => ?_, fun h => ?_, hdisc, fun h => ⟨fun f hb ht hi => ?_, fun f hb hf => ?_, fun len hl => ?_,
    fun len tag kind body check hl hb hc hne => ?_, fun len tag kind body check before after b hl hb hc hf ha hlow => ?_,
    fun bytes hi => ?_, fun bytes hn => ?_⟩⟩
  · rw [exec_stationGapExpiry hlive, gapExpired_of_expired h, hcount]
  · rw [exec_stationGapExpiry hlive, gapExpired_of_running h, setStn_self]
  · rw [hrecv, receive_stationFrame h hb, Station.complete, if_neg ht,
      if_pos (show (s.stn p).intake.length < Config.intakeCapacity from hi), ← h]
  · rw [hrecv, receive_stationFrame h hb, hcount, Station.complete]
    by_cases ht : f.tag = 0
    · rw [if_pos ht]
    · rw [if_neg ht,
        if_neg (show ¬ (s.stn p).intake.length < Config.intakeCapacity from Nat.not_lt.mpr (hf.resolve_left ht))]
  · have hassemble : (s.stn p).assemble [len] = (s.stn p).discard := if_pos (by omega)
    have := receive_last h (bytes := []) (fun _ _ e => by cases e) len
    rw [hdisc, hrecv, hcount, show (goodBytes [0x5A#8, len]).foldl Station.receive (s.stn p) = _ from this, ← hassemble]
    rfl
  · rw [hdisc, hrecv, receive_whole h hl hb hc, if_neg hne, hcount]
  · have hi : Incomplete before := by
      rintro l rest rfl
      obtain ⟨rfl, hrest⟩ := List.cons.inj hf
      have hlen : (tag :: kind :: body ++ check).length = (rest ++ after).length := congrArg List.length hrest
      have := List.length_pos_of_ne_nil ha
      simp only [List.length_append, List.length_cons, hc] at hlen
      omega
    rw [hdisc, hrecv, receive_low h hi hlow, hcount]
  · have hbegun := receive_begun h hi
    refine ⟨by rw [hrecv, hbegun], fun gap more hm => ?_⟩
    obtain ⟨b, more, rfl⟩ := List.exists_cons_of_ne_nil hm
    rw [exec_stationFrameReceived (s := s.setStn p _) hlive, hrecv, List.foldl_append, hbegun, State.stn_setStn_self,
      List.foldl_cons, List.foldl_cons, receive_partial, receive_partial]
    simp [State.setStn]
  · rw [hdisc, hrecv, receive_noise h hn, setStn_self]

/-! ### The end of a frame (R78, R187) and the retransmission (R184) -/

/-- Settles O23. -/
theorem frameEnds : Obligations.FrameEnds := by
  intro s p hlive hr t0 next
  have hnext : (s.stn p).nextFrame = next := by
    unfold Station.nextFrame
    cases hw : (s.stn p).waitResponse with
    | some r => simp [next, t0, hw]
    | none => cases hn : (s.stn p).waitNotice <;> simp [next, t0, hw, hn]
  have hexec : exec (.frameEnd p) s = .next (s.frameEnded p).settle := congrArg Host.Outcome.next (live_of hlive _)
  have hresponse (b : List Byte) (h : t0.tx = some (.response b)) : s.frameEnded p = s.setStn p next := by
    unfold State.frameEnded
    rw [← hnext, show (s.stn p).tx = _ from h]
  have hnotice (b : List Byte) (present : Bool) (h : t0.tx = some (.notice b present)) : s.frameEnded p =
      (if present then (s.setStn p next).startTakeTimer p else s.setStn p next).testOffer p := by
    unfold State.frameEnded
    rw [← hnext, show (s.stn p).tx = _ from h]
  refine ⟨fun b h => ?_, fun b h => ⟨_, hexec, ?_⟩, fun b h => ⟨_, hexec, ?_⟩⟩
  · rw [hexec, hresponse _ h, settle_of_none]
    exact hr
  · rw [hnotice _ _ h]
    exact (onlyEmits_testOffer _ p).trans (onlyEmits_settle _)
  · rw [hnotice _ _ h]
    have he : OnlyEmits (s.setStn p next) ((s.setStn p next).testOffer p).settle :=
      (onlyEmits_testOffer _ p).trans (onlyEmits_settle _)
    obtain ⟨k, hk, -⟩ := he.ports p
    have htimer := congrArg Dispatch.takeTimer hk.rest
    exact ⟨he, htimer⟩

theorem waitResponse_of_takeable {s : State} {p : Port} {f : Frame} (h : s.takeable p = some f) :
    (s.stn p).waitResponse = none := by
  unfold State.takeable at h
  dsimp only at h
  split at h
  · next hc =>
    rw [Bool.and_eq_true, Option.isNone_iff_eq_none, Option.isNone_iff_eq_none] at hc
    exact hc.2
  · cases h

/-- Settles O24. -/
theorem retransmissionAnswered : Obligations.RetransmissionAnswered := by
  intro s p f response hlive ht hc
  refine congrArg Host.Outcome.next ((live_of hlive _).trans ?_)
  unfold State.answerFromCache
  rw [ht, hc]
  refine (if_pos rfl).trans ?_
  unfold State.handResponse State.popIntake
  dsimp only
  rw [State.stn_setStn_self]
  cases htx : (s.stn p).tx <;> simp [State.setStn]

end Sys2Proof.Machine
end

section
/-! PROOFS. The checks of the Request Decoder (R162, R185, R188; log 8) and ENTER_CONFIG's first stage (R174). -/

namespace Sys2Proof.Machine

/-! ### The rows of the requests -/

theorem restartDue_of_free {s : State} {p : Port} (h : (s.stn p).inProgress = none) : s.restartDue p = none := by
  unfold State.restartDue
  rw [h]

/-- The row that stands for a frame is a request row, and the frame is of its form. -/
theorem exec_rowFor {s : State} (h : s.inReset = false) {p : Port} (hp : s.restartDue p = none) (k : ReqKind) (f : Frame) :
    ∃ form owner, form f = true ∧ exec (rowFor k p f) s = .next (s.runRequest p k form owner) := by
  cases k with
  | ackPoint =>
    by_cases hm : withMembers f = true
    · rw [show rowFor .ackPoint p f = .ackPointMembers p from if_pos hm]
      exact ⟨_, _, hm, congrArg Host.Outcome.next (live_of h _)⟩
    · rw [show rowFor .ackPoint p f = .ackPoint p from if_neg hm]
      exact ⟨_, _, by simpa [withoutMembers] using hm, congrArg Host.Outcome.next (live_of h _)⟩
  | clearFault =>
    by_cases hm : namesPort f = true
    · rw [show rowFor .clearFault p f = .clearFaultPort p from if_pos hm]
      exact ⟨_, _, hm, congrArg Host.Outcome.next (live_of h _)⟩
    · rw [show rowFor .clearFault p f = .clearFault p from if_neg hm]
      exact ⟨_, _, by simpa [namesNoPort] using hm, congrArg Host.Outcome.next (live_of h _)⟩
  | enterRun =>
    refine ⟨anyForm, fun f t => t.ownEnterRun p f, rfl, congrArg Host.Outcome.next ((live_of h _).trans ?_)⟩
    rw [hp]
  | _ => exact ⟨anyForm, _, rfl, congrArg Host.Outcome.next (live_of h _)⟩

/-! ### The ring check and the mode check, by the rows of the request table -/

/-- The mode rule that a row of the table states. -/
def RequestRow.modeRule (row : RequestRow) (m : Mode) : Bool :=
  match m with
  | .config => row.inConfig
  | .starting => row.inStarting
  | .run => row.inRun

theorem modeRule_of_row : ∀ row ∈ requestTable, ∀ m, row.kind.modeRule m = row.modeRule m := by
  intro row hrow m
  cases m <;> revert row <;> decide

theorem code_of_row : ∀ row ∈ requestTable, row.kind.code = row.code ∧ row.kind.bodyLength = row.length := by decide

theorem row_of_kind (k : ReqKind) : ∃ row ∈ requestTable, row.kind = k := by
  cases k <;> decide

theorem PointKind.ofCode_eq_some_iff {x : Nat} {k : PointKind} : PointKind.ofCode x = some k ↔ x = k.code := by
  refine ⟨fun h => ?_, fun h => ?_⟩
  · exact (beq_iff_eq.mp (List.find?_some h :)).symm
  · subst h
    cases k <;> rfl

theorem SeqType.ofCode_eq_some_iff {x : Nat} {k : SeqType} : SeqType.ofCode x = some k ↔ x = k.code := by
  refine ⟨fun h => ?_, fun h => ?_⟩
  · exact (beq_iff_eq.mp (List.find?_some h :)).symm
  · subst h
    cases k <;> rfl

theorem Frame.optPoint_eq_some_iff {f : Frame} {i : Nat} {o : Option PointNo} :
    f.optPoint i = some o ↔ f.arg i = o.isSome.toNat ∧ ∀ g, o = some g → f.point (i + 1) = g := by
  unfold Frame.optPoint
  cases o with
  | none => simp [choice_eq_some_iff, Option.map_eq_some_iff]
  | some g => simp [choice_eq_some_iff, Option.map_eq_some_iff]

theorem samePoint_iff (s : State) (f : Frame) :
    s.samePoint f = true ↔
      let q := s.pt (f.point 0)
      f.arg 1 = q.kind.code ∧ f.arg 2 = q.seqType.code ∧ f.arg 6 = q.parent.isSome.toNat
        ∧ (∀ g, q.parent = some g → f.point 7 = g) ∧ f.arg 8 = q.firstOut.toNat := by
  unfold State.samePoint
  simp only [Bool.and_eq_true, beq_iff_eq, PointKind.ofCode_eq_some_iff, SeqType.ofCode_eq_some_iff,
    Frame.optPoint_eq_some_iff, choice_eq_some_iff, and_assoc]

theorem modeOk_iff_of_row {row : RequestRow} (hrow : row ∈ requestTable) (s : State) (f : Frame) :
    s.modeOk row.kind f = true ↔
      row.modeRule s.mode = true ∧ (row.kind = .setPoint → s.mode = .run → s.samePoint f = true) := by
  unfold State.modeOk
  rw [modeRule_of_row row hrow]
  simp only [Bool.and_eq_true, Bool.or_eq_true, bne_iff_ne, ne_eq, ← imp_iff_not_or]
  tauto

/-! ### The checks on a frame taken -/

section
variable {s : State} {p : Port} {k : ReqKind} {f : Frame}

theorem ringOk_begun (h : (s.stn p).inProgress = none) : (s.beginRequest p f).ringOk p k f = s.ringOk p k f := by
  unfold State.ringOk
  rw [requestRing_begun, requestRing_of_free h, beginRequest_eq]
  rfl

theorem modeOk_begun : (s.beginRequest p f).modeOk k f = s.modeOk k f := by
  rw [beginRequest_eq]
  rfl

theorem engineClaim_begun : (s.beginRequest p f).engineClaim = s.engineClaim := by
  rw [beginRequest_eq]

/-- A request row at a port whose decoder takes the frame. -/
theorem runRequest_of_taken (ht : s.takeable p = some f) (hf : s.isRetransmission p f = false) (hk : f.kind = k.code)
    {form : Frame → Bool} (hform : form f = true) (owner : Frame → State → State) :
    s.runRequest p k form owner = ((s.beginRequest p f).checkRequest p k f owner).settle := by
  unfold State.runRequest
  rw [ownerDue_of_free (inProgress_of_takeable ht), ht]
  refine if_pos ?_
  simp [rowNames, hk, hform, hf]

variable {owner : Frame → State → State}

theorem checkRequest_of_length (h : f.body.length ≠ k.bodyLength) :
    s.checkRequest p k f owner = s.refuseFault p f .format .format := if_pos h

/-- With its body of the right length, a request is judged by ring and mode, but for one of the four whose checks are
left to a Point Engine that a claim holds. -/
theorem checkRequest_rights (h : f.body.length = k.bodyLength) (hc : s.engineClaim = none ∨ k.checkedByEngine = false) :
    ∃ next, s.checkRequest p k f owner = s.checkRights p k f next := by
  unfold State.checkRequest
  rw [if_neg (not_not_intro h)]
  by_cases hw : (k.waitsForEngine && s.engineClaim.isSome) = true
  · have hne : s.engineClaim ≠ none := fun e => by simp [e] at hw
    rw [if_pos hw, if_neg (by simp [hc.resolve_left hne])]
    exact ⟨_, rfl⟩
  · rw [if_neg hw]
    exact ⟨_, rfl⟩

theorem checkRights_of_ring {next : Frame → State → State} (h : s.ringOk p k f = false) :
    s.checkRights p k f next = s.refuseFault p f .ring .ring := if_pos h

theorem checkRights_of_mode {next : Frame → State → State} (hr : s.ringOk p k f = true) (hm : s.modeOk k f = false) :
    s.checkRights p k f next = s.respond p f .mode [] :=
  (if_neg (by simp [hr])).trans (if_pos hm)

theorem checkRights_of_ok {next : Frame → State → State} (hr : s.ringOk p k f = true) (hm : s.modeOk k f = true) :
    s.checkRights p k f next = next f s :=
  (if_neg (by simp [hr])).trans (if_neg (by simp [hm]))

end

/-! ### A refusal that raises COMMAND_FAULT (R162) -/

theorem lockCommand_eq (s : State) :
    s.lockCommand = { s with commandCapture :=
      if s.commandCapture.locked then { s.commandCapture with multiple := true }
      else { s.commandCapture with locked := true } } := by
  unfold State.lockCommand
  split <;> rfl

/-- The lock of a command capture record that the request itself has loaded. -/
theorem lockCommand_loaded (s u : State) (taken : TimeStamp) (p : Port) (f : Frame)
    (h : u.commandCapture = s.capturedAt taken p f) :
    u.lockCommand = { u with commandCapture := s.faultCaptured taken p f } := by
  have hlocked : (s.capturedAt taken p f).locked = s.commandCapture.locked := by
    unfold State.capturedAt
    split <;> rfl
  rw [lockCommand_eq, h, hlocked]
  unfold State.faultCaptured
  by_cases hl : s.commandCapture.locked = true
  · rw [if_pos hl, if_pos hl, show s.capturedAt taken p f = s.commandCapture from if_pos hl]
  · rw [if_neg hl, if_neg hl]

theorem faultCaptured_locked (s : State) (taken : TimeStamp) (p : Port) (f : Frame) :
    (s.faultCaptured taken p f).locked = true := by
  unfold State.faultCaptured
  split
  · next h => exact h
  · rfl

theorem faultLine_of_command {t : State} (hr : t.inReset = false) (h : t.commandCapture.locked = true) :
    t.faultLine = true := by
  simp [State.faultLine, State.lockedSet, hr, h]

/-- A refusal by a decoder whose request stands at the port as one just begun at `s`. -/
theorem refused_settled {s u t : State} {p : Port} {f : Frame} {st : Status} {detail : Detail} (taken : TimeStamp)
    (hu : u.stations = (s.begun p f).stations) (hcap : u.commandCapture = s.capturedAt taken p f)
    (hr : u.raisings = []) (hreset : u.inReset = false) (hb : u.log.ring.length ≤ 1024)
    (ht : t = (u.refuseFault p f st detail).settle) :
    OnlyEmits
        { u with
          stations := (s.closed p f st [] (t.stn p).waitResponse).stations
          commandCapture := s.faultCaptured taken p f } t
      ∧ t.Responding p f st [] ∧ t.flagSet .commandFault = true ∧ t.faultLine = true
      ∧ AppendsFirst u t [u.systemDraft .commandFault none none none detail (some p)] := by
  have hlock := lockCommand_loaded s u taken p f hcap
  let v : State := { u with commandCapture := s.faultCaptured taken p f }
  have ht' : t = ((v.respond p f st []).handOn { plainRaising .commandFault with detail := detail, reqPort := some p }).settle := by
    rw [ht, State.refuseFault, hlock]
  obtain ⟨he, hresp, hflag, happ, -⟩ := settled_respond_handOn (u := v) hu hr hb _ ht'
  have hline : t.faultLine = true := by
    refine faultLine_of_command ?_ ?_
    · have e := congrArg State.inReset he.rest
      exact e.trans hreset
    · have e := congrArg State.commandCapture he.rest
      exact (congrArg CommandCapture.locked e).trans (faultCaptured_locked s taken p f)
  exact ⟨he, hresp, hflag, hline, happ⟩

/-- The same where the frame has been taken at `s`. -/
theorem refused_begun {s t : State} {p : Port} {f : Frame} {st : Status} {detail : Detail}
    (hr : s.raisings = []) (hreset : s.inReset = false) (hb : s.log.ring.length ≤ 1024)
    (ht : t = ((s.beginRequest p f).refuseFault p f st detail).settle) :
    OnlyEmits
        { s.closed p f st [] (t.stn p).waitResponse with commandCapture := s.faultCaptured s.now p f } t
      ∧ t.Responding p f st [] ∧ t.flagSet .commandFault = true ∧ t.faultLine = true
      ∧ AppendsFirst s t [s.systemDraft .commandFault none none none detail (some p)] :=
  refused_settled s.now (u := s.begun p f) rfl rfl hr hreset hb (by rw [ht, beginRequest_eq_begun])

theorem not_checkedByEngine_of_code {k : ReqKind} (h : k.code ∉ [0x10#8, 0x13#8, 0x16#8, 0x17#8]) :
    k.checkedByEngine = false := by
  revert h
  cases k <;> decide

/-- Settles O25. -/
theorem checksRefuse : Obligations.ChecksRefuse := by
  refine ⟨⟨fun row hrow => ⟨(code_of_row row hrow).1, (code_of_row row hrow).2,
    fun s p f hfree => ringOk_iff_of_row hrow hfree f, fun s f => ?_⟩, row_of_kind⟩, ?_⟩
  · rw [modeOk_iff_of_row hrow, samePoint_iff]
    cases s.mode <;> exact Iff.rfl
  · intro s p f c status detail hlive hr hengine ht hf hb hcase
    have hi := inProgress_of_takeable ht
    have refused (hx : exec c s = .next ((s.beginRequest p f).refuseFault p f status detail).settle) :
        ∃ t, exec c s = .next t
          ∧ OnlyEmits
              { s.closed p f status [] (t.stn p).waitResponse with
                commandCapture := s.faultCaptured s.now p f } t
          ∧ t.Responding p f status [] ∧ t.flagSet .commandFault = true ∧ t.faultLine = true
          ∧ AppendsFirst s t [s.systemDraft .commandFault none none none detail (some p)] :=
      ⟨_, hx, refused_begun hr hlive hb rfl⟩
    obtain ⟨hunknown, rfl, rfl, rfl⟩ | ⟨k, hk, rfl, hcheck⟩ := hcase
    · refine ⟨nofun, fun _ => refused (congrArg Host.Outcome.next ((live_of hlive _).trans ?_))⟩
      have hnone : ReqKind.ofCode f.kind = none :=
        List.find?_eq_none.mpr fun k _ he => hunknown k (beq_iff_eq.mp he)
      unfold State.refuseUnknown
      rw [ht]
      exact if_pos (by simp [hnone, hf])
    · obtain ⟨form, owner, hform, hexec⟩ := exec_rowFor hlive (restartDue_of_free hi) k f
      rw [runRequest_of_taken ht hf hk hform] at hexec
      have hrights (hl : f.body.length = k.bodyLength) (hs : status ≠ .format) :
          ∃ next, (s.beginRequest p f).checkRequest p k f owner = (s.beginRequest p f).checkRights p k f next := by
        refine checkRequest_rights hl ?_
        rw [engineClaim_begun]
        obtain h | h | h := hengine
        · exact .inl h
        · exact .inr (not_checkedByEngine_of_code (hk ▸ h))
        · exact absurd h hs
      obtain ⟨hl, rfl, rfl⟩ | ⟨hl, hring, rfl, rfl⟩ | ⟨hl, hring, hmode, rfl, rfl⟩ := hcheck
      · refine ⟨nofun, fun _ => refused ?_⟩
        rw [hexec, checkRequest_of_length hl]
      · obtain ⟨next, hn⟩ := hrights hl nofun
        refine ⟨nofun, fun _ => refused ?_⟩
        rw [hexec, hn, checkRights_of_ring (by rw [ringOk_begun hi, hring])]
      · obtain ⟨next, hn⟩ := hrights hl nofun
        refine ⟨fun _ => ?_, fun h => absurd rfl h⟩
        rw [hexec, hn, checkRights_of_mode (by rw [ringOk_begun hi, hring]) (by rw [modeOk_begun, hmode]),
          respond_beginRequest, settle_of_none]
        exact hr

/-! ### A request that waits for its owner (log 8) -/

section
variable {s : State} {p : Port} {k : ReqKind} {f : Frame} {r : Ring} {taken : TimeStamp} {form : Frame → Bool}
  {owner : Frame → State → State}

theorem takeable_of_waiting (h : (s.stn p).inProgress = some { frame := f, stage := .waiting r taken }) :
    s.takeable p = none := by
  simp [State.takeable, h]

theorem restartDue_of_waiting (h : (s.stn p).inProgress = some { frame := f, stage := .waiting r taken }) :
    s.restartDue p = none := by
  simp [State.restartDue, h]

theorem runRequest_of_claimed (h : (s.stn p).inProgress = some { frame := f, stage := .waiting r taken })
    (hc : s.engineClaim ≠ none) : s.runRequest p k form owner = s := by
  have hdue : s.ownerDue p = none := by
    unfold State.ownerDue
    rw [h]
    exact if_neg hc
  unfold State.runRequest
  rw [hdue, takeable_of_waiting h]

theorem runRequest_of_due (h : (s.stn p).inProgress = some { frame := f, stage := .waiting r taken })
    (hc : s.engineClaim = none) (hk : f.kind = k.code) (hform : form f = true) :
    s.runRequest p k form owner = (s.ownerTakes p k f owner).settle := by
  have hdue : s.ownerDue p = some f := by
    unfold State.ownerDue
    rw [h]
    exact if_pos hc
  unfold State.runRequest
  rw [hdue]
  exact if_pos (by simp [rowNames, hk, hform])

theorem takenAt_of_waiting (h : (s.stn p).inProgress = some { frame := f, stage := .waiting r taken }) :
    s.takenAt p = taken := by
  unfold State.takenAt
  rw [h]

theorem ownerTakes_of_mode (hm : s.modeOk k f = false) (hr : k.checkedByEngine = true → s.ringOk p k f = true) :
    s.ownerTakes p k f owner = s.respond p f .mode [] := by
  unfold State.ownerTakes
  by_cases hc : k.checkedByEngine = true
  · rw [if_pos hc, if_pos (hr hc), checkRights_of_mode (hr hc) hm]
  · rw [if_neg hc, if_pos hm]

theorem ownerTakes_of_ok (hm : s.modeOk k f = true) (hk : k.checkedByEngine = false) :
    s.ownerTakes p k f owner = owner f s := by
  unfold State.ownerTakes
  rw [if_neg (by simp [hk]), if_neg (by simp [hm])]

theorem ownerTakes_of_ring (h : (s.stn p).inProgress = some { frame := f, stage := .waiting r taken })
    (hk : k.checkedByEngine = true) (hr : s.ringOk p k f = false) :
    s.ownerTakes p k f owner =
      ({ s with commandCapture := s.capturedAt taken p f } : State).refuseFault p f .ring .ring := by
  unfold State.ownerTakes
  rw [if_pos hk, if_neg (by simp [hr]), takenAt_of_waiting h, loadCommandAt_eq]
  exact checkRights_of_ring hr

end

/-- The port as if it had still to take the frame. -/
def State.untaken (s : State) (p : Port) (f : Frame) : State :=
  s.setStn p { s.stn p with intake := f :: (s.stn p).intake, inProgress := none }

theorem begun_untaken (s : State) (p : Port) (f : Frame) :
    (s.setStage p f .handling).stations = ((s.untaken p f).begun p f).stations := by
  simp [State.setStage, State.untaken, State.begun, State.setStn, State.stn, Station.begun]

theorem closed_untaken (s : State) (p : Port) (f : Frame) (st : Status) (r : List Byte) (w : Option (List Byte)) :
    ((s.untaken p f).closed p f st r w).stations =
      (s.setStn p
        { s.stn p with
          inProgress := none, cache := some { request := f, response := responseBytes f st r }
          waitResponse := w }).stations := by
  simp [State.closed, State.untaken, State.setStn, State.stn, Station.closed]

/-- The answer reads no stage. -/
theorem respond_setStage (s : State) (p : Port) (f g : Frame) (stage : Stage) (st : Status) (r : List Byte) :
    (s.setStage p g stage).respond p f st r = s.respond p f st r := by
  rw [State.respond_eq, State.respond_eq, State.setStage, State.stn_setStn_self, State.setStn_setStn]
  cases htx : (s.stn p).tx <;> simp [Station.replied, htx]

theorem refuseFault_setStage (s : State) (p : Port) (f g : Frame) (stage : Stage) (st : Status) (d : Detail) :
    (s.setStage p g stage).refuseFault p f st d = s.refuseFault p f st d := by
  have h : (s.setStage p g stage).lockCommand = s.lockCommand.setStage p g stage := by
    rw [lockCommand_eq, lockCommand_eq]
    rfl
  rw [State.refuseFault, h, respond_setStage]
  rfl

/-- A refusal RING of a request that has waited, on that request's own load. -/
theorem refused_waiting {s t : State} {p : Port} {f : Frame} {st : Status} {detail : Detail} (taken : TimeStamp)
    (hr : s.raisings = []) (hreset : s.inReset = false) (hb : s.log.ring.length ≤ 1024)
    (ht : t = (({ s with commandCapture := s.capturedAt taken p f } : State).refuseFault p f st detail).settle) :
    OnlyEmits
        { s.setStn p
            { s.stn p with
              inProgress := none, cache := some { request := f, response := responseBytes f st [] }
              waitResponse := (t.stn p).waitResponse } with
          commandCapture := s.faultCaptured taken p f } t
      ∧ t.Responding p f st [] ∧ t.flagSet .commandFault = true ∧ t.faultLine = true
      ∧ AppendsFirst s t [s.systemDraft .commandFault none none none detail (some p)] := by
  let u : State := ({ s with commandCapture := s.capturedAt taken p f } : State).setStage p f .handling
  have ht' : t = (u.refuseFault p f st detail).settle := by rw [ht, refuseFault_setStage]
  obtain ⟨he, hrest⟩ := refused_settled (s := s.untaken p f) (u := u) taken (begun_untaken s p f) rfl hr hreset hb ht'
  refine ⟨?_, hrest⟩
  rw [closed_untaken] at he
  exact he

theorem responding_respond (s : State) (p : Port) (f : Frame) (st : Status) (r : List Byte) :
    (s.respond p f st r).Responding p f st r := by
  unfold State.Responding
  rw [State.respond_eq, State.stn_setStn_self]
  cases htx : (s.stn p).tx <;> simp [Station.replied, htx]

theorem inProgress_respond (s : State) (p : Port) (f : Frame) (st : Status) (r : List Byte) :
    ((s.respond p f st r).stn p).inProgress = none := by
  rw [State.respond_eq, State.stn_setStn_self]
  cases htx : (s.stn p).tx <;> simp [Station.replied, htx]

/-- A SILENCE that has waited. -/
theorem silenced_waiting {s t : State} {p : Port} {f : Frame} (hb : s.log.ring.length ≤ 1024)
    (ht : t = (s.ownSilence p f).settle) :
    t.Responding p f .ok [] ∧ (t.stn p).inProgress = none ∧ t.audibleRequest = false ∧ t.audibleLine = false
      ∧ AppendsFirst s t [otherDraft s.now (.operator s.audibleRequest) (some p)] := by
  let u : State := { s with audibleRequest := false }
  let d := otherDraft s.now (.operator s.audibleRequest) (some p)
  have hown : t = ((u.append false d).respond p f .ok []).settle := ht
  have he : OnlyEmits ((u.append false d).respond p f .ok []) t := hown ▸ onlyEmits_settle _
  have hrequest : t.audibleRequest = false := by
    have e := congrArg State.audibleRequest he.rest
    have e' := congrArg State.audibleRequest (onlyEmits_append u false d).rest
    rw [State.respond_eq] at e
    exact e.trans e'
  refine ⟨(responding_respond _ p f .ok []).emits he, ?_, hrequest, by simp [State.audibleLine, hrequest], ?_⟩
  · exact (congrArg Station.inProgress (he.arbiters p)).trans (inProgress_respond _ p f .ok [])
  · have h1 : AppendsThen u (u.append false d) [d] (fun d => d.isSystem = true) :=
      ⟨[], appends_append (s := u) hb false d, fun _ h => absurd h List.not_mem_nil⟩
    rw [hown]
    exact appendsThen_settled (fun _ h => h) rfl h1

/-! ### A request that begins to wait -/

section
variable {s : State} {p : Port} {k : ReqKind} {f : Frame} {owner : Frame → State → State}

theorem awaitOwner_begun : (s.beginRequest p f).awaitOwner p f = s.held p f := by
  rw [beginRequest_eq]
  simp [State.awaitOwner, State.setStage, State.setStn, State.stn, State.held, Station.begun]
  rfl

theorem argumentsOk_begun : (s.beginRequest p f).argumentsOk k f = s.argumentsOk k f := by
  rw [beginRequest_eq]
  cases k <;> rfl

theorem checkRequest_waits (hl : f.body.length = k.bodyLength) (hw : k.waitsForEngine = true) (hc : s.engineClaim ≠ none)
    (hk : k.checkedByEngine = true) : s.checkRequest p k f owner = s.awaitOwner p f := by
  have hsome : (k.waitsForEngine && s.engineClaim.isSome) = true := by simp [hw, Option.isSome_iff_ne_none, hc]
  exact (if_neg (not_not_intro hl)).trans ((if_pos hsome).trans (if_pos hk))

theorem checkRequest_arguments (hl : f.body.length = k.bodyLength) (hw : k.waitsForEngine = true)
    (hc : s.engineClaim ≠ none) (hk : k.checkedByEngine = false) (hr : s.ringOk p k f = true) (hm : s.modeOk k f = true) :
    s.checkRequest p k f owner = if s.argumentsOk k f then s.awaitOwner p f else s.respond p f .badArgument [] := by
  have hsome : (k.waitsForEngine && s.engineClaim.isSome) = true := by simp [hw, Option.isSome_iff_ne_none, hc]
  exact (if_neg (not_not_intro hl)).trans ((if_pos hsome).trans ((if_neg (by simp [hk])).trans
    (checkRights_of_ok hr hm)))

end

/-- Settles O50. -/
theorem entersConfig : Obligations.EntersConfig := by
  refine ⟨fun s p f h => ?_, fun s p f k hlive hr hc ht hf hk hl hw => ?_, fun s p f k r taken hlive hr hi hk hl => ?_⟩
  · refine (next_of_takes h rfl fun f t => t.ownEnterConfig p f).trans ?_
    rw [settle_of_none (show ((s.begun p f).ownEnterConfig p f).raisings = [] from h.noRaising)]
    simp [State.ownEnterConfig, State.leaveRun, State.setStage, State.begun, State.setStn, State.stn, Station.begun]
    rfl
  · have hi := inProgress_of_takeable ht
    obtain ⟨form, owner, hform, hexec⟩ := exec_rowFor hlive (restartDue_of_free hi) k f
    rw [runRequest_of_taken ht hf hk hform] at hexec
    have hc' : (s.beginRequest p f).engineClaim ≠ none := by rwa [engineClaim_begun]
    refine ⟨fun hke => ?_, fun hke hring hmode => ?_⟩
    · rw [hexec, checkRequest_waits hl hw hc' hke, awaitOwner_begun, settle_of_none]
      exact hr
    · rw [hexec, checkRequest_arguments hl hw hc' hke (by rw [ringOk_begun hi, hring]) (by rw [modeOk_begun, hmode]),
        argumentsOk_begun, awaitOwner_begun, respond_beginRequest]
      split
      · rw [settle_of_none]
        exact hr
      · rw [settle_of_none]
        exact hr
  · obtain ⟨form, owner, hform, hexec⟩ := exec_rowFor hlive (restartDue_of_waiting hi) k f
    intro replied
    have hreplied (st : Status) (l : List Byte) : .next (s.respond p f st l).settle = replied st l := by
      rw [settle_of_none ((respond_raisings ..).trans hr), State.respond_eq]
    refine ⟨fun hc => ?_, fun hc hmode hring => ?_, fun hc hke hring hb => ?_, fun hc hsil hmode hb => ?_,
      fun hc hread q hq hcount => ?_⟩
    · rw [hexec, runRequest_of_claimed hi hc]
    · rw [hexec, runRequest_of_due hi hc hk hform, ownerTakes_of_mode hmode hring, hreplied]
    · rw [hexec, runRequest_of_due hi hc hk hform, ownerTakes_of_ring hi hke hring]
      obtain ⟨he, hresp, hrest⟩ :=
        refused_waiting (p := p) (f := f) (st := .ring) (detail := .ring) taken hr hlive hb rfl
      exact ⟨_, rfl, hresp, he, hrest⟩
    · subst hsil
      refine ⟨_, congrArg Host.Outcome.next ((live_of hlive _).trans ?_), silenced_waiting hb rfl⟩
      rw [runRequest_of_due hi hc hk rfl, ownerTakes_of_ok hmode rfl]
    · subst hread
      refine (congrArg Host.Outcome.next ((live_of hlive _).trans ?_)).trans (hreplied _ _)
      have hrange : f.readRange 8 = some [q] := by
        rw [Frame.readRange_of_good (by omega), hcount, hq]
        simp
      rw [runRequest_of_due hi hc hk rfl, ownerTakes_of_ok rfl rfl, State.ownReadPoint, hrange, hq, hcount]
      simp

end Sys2Proof.Machine
end

section
/-! PROOFS. SET_POINT (R25 to R29): which configuration a request carries, and the checks on it. -/

namespace Sys2Proof.Machine

/-! ### What a request carries -/

theorem Frame.arg_lt (f : Frame) (i : Nat) : f.arg i < 256 := BitVec.isLt _

theorem Frame.point_eq_iff {f : Frame} {i : Nat} {q : PointNo} : f.point i = q ↔ f.arg i = q.val := by
  have h : (f.point i).val = f.arg i := Nat.mod_eq_of_lt (f.arg_lt i)
  rw [← h, Fin.val_inj]

theorem Frame.pointConfig_eq_some_iff {f : Frame} {q : PointNo} (hq : f.arg 0 = q.val) {c : PointConfig} :
    f.pointConfig = some c ↔ f.CarriesPoint q c := by
  simp only [Frame.pointConfig, Option.bind_eq_bind, Option.bind_eq_some_iff, PointKind.ofCode_eq_some_iff,
    SeqType.ofCode_eq_some_iff, below_eq_some_iff, Frame.optPoint_eq_some_iff, Frame.point_eq_iff, choice_eq_some_iff,
    Option.pure_def, Option.some.injEq]
  constructor
  · rintro ⟨kind, hkind, seqType, hseq, cls, hcls, subs, hsubs, ackRing, hack, parent, ⟨hpresent, hparent⟩, firstOut, hfirst, rfl⟩
    refine ⟨hq, hkind, hseq, hcls, ?_, hack, hpresent, hparent, hfirst⟩
    show f.arg 4 = (BitVec.ofNat 4 subs.val).toNat
    rw [BitVec.toNat_ofNat, Nat.mod_eq_of_lt subs.isLt]
    exact hsubs
  · rintro ⟨-, hkind, hseq, hcls, hsubs, hack, hpresent, hparent, hfirst⟩
    refine ⟨_, hkind, _, hseq, _, hcls, ⟨c.subs.toNat, c.subs.isLt⟩, hsubs, _, hack, _,
      ⟨hpresent, hparent⟩, _, hfirst, ?_⟩
    simp

theorem Frame.pointConfig_eq_none {f : Frame} {q : PointNo} (hq : f.arg 0 = q.val) (h : ∀ c, ¬ f.CarriesPoint q c) :
    f.pointConfig = none :=
  Option.eq_none_iff_forall_ne_some.mpr fun c hc => h c ((Frame.pointConfig_eq_some_iff hq).mp hc)

/-! ### The checks -/

section
variable (s : State) (q : PointNo) (c : PointConfig)

/-- First-out is asked of a GROUP alone, and another point taken as parent is a GROUP (R26). -/
theorem pointArgumentsOk_eq_false_iff :
    s.pointArgumentsOk q c = false ↔
      c.firstOut = true ∧ c.kind ≠ .group ∨ ∃ g, c.parent = some g ∧ g ≠ q ∧ (s.pt g).kind ≠ .group := by
  unfold State.pointArgumentsOk
  rw [Bool.and_eq_false_iff]
  refine or_congr (by simp) ?_
  cases c.parent with
  | none => simp
  | some g => simp [and_comm]

/-- A mapped FIELD point stays one, and so does a GROUP with a child (R27). -/
def KindHeld : Prop :=
  (s.pt q).kind = .field ∧ c.kind ≠ .field ∧ (∃ i, (s.ent i).valid = true ∧ (s.ent i).point = some q)
    ∨ (s.pt q).kind = .group ∧ c.kind ≠ .group ∧ ∃ x, (s.pt x).parent = some q

/-- The new link would close a ring or make a chain too long (R27). -/
def ChainBroken : Prop :=
  let unlinked := s.setPt q { s.pt q with parent := none }
  ∃ g, c.parent = some g ∧ (s.pt q).parent ≠ some g
    ∧ ((∃ n, unlinked.ancestor n g = some q)
      ∨ ∃ above below top bottom, unlinked.ancestor above g = some top
          ∧ unlinked.ancestor below bottom = some q ∧ 3 < above + 1 + below)

variable {s q c}

theorem names_any : s.map.toArray.toList.any (fun e => e.names q) = true ↔
    ∃ i, (s.ent i).valid = true ∧ (s.ent i).point = some q := by
  rw [map_any]
  simp [MapEntry.names]

theorem children_any : s.points.toArray.toList.any (fun x => x.parent == some q) = true ↔ ∃ x, (s.pt x).parent = some q := by
  rw [points_any]
  simp

theorem pointStateRefusal_of_kindHeld (h : KindHeld s q c) : s.pointStateRefusal q c = some .badState := by
  unfold State.pointStateRefusal
  dsimp only
  obtain ⟨h1, h2, h3⟩ | ⟨h1, h2, h3⟩ := h
  · exact if_pos ⟨h1, h2, names_any.mpr h3⟩
  · refine (if_neg ?_).trans (if_pos ⟨h1, h2, children_any.mpr h3⟩)
    rw [h1]
    exact fun h => nomatch h.1

/-- Past the checks on its kind, a SET_POINT is refused for its chain alone. -/
theorem pointStateRefusal_of_not_kindHeld (h : ¬ KindHeld s q c) :
    (c.parent = none → s.pointStateRefusal q c = none)
      ∧ ∀ g, c.parent = some g → s.pointStateRefusal q c =
          if (s.pt q).parent ≠ some g ∧ s.chainRefused q g = true then some .chain else none := by
  have h1 : ¬ ((s.pt q).kind = .field ∧ c.kind ≠ .field ∧ s.map.toArray.toList.any (fun e => e.names q) = true) :=
    fun ⟨h1, h2, h3⟩ => h (.inl ⟨h1, h2, names_any.mp h3⟩)
  have h2 : ¬ ((s.pt q).kind = .group ∧ c.kind ≠ .group ∧
      s.points.toArray.toList.any (fun x => x.parent == some q) = true) :=
    fun ⟨h1, h2, h3⟩ => h (.inr ⟨h1, h2, children_any.mp h3⟩)
  unfold State.pointStateRefusal
  dsimp only
  rw [if_neg h1, if_neg h2]
  exact ⟨fun hp => by rw [hp], fun g hp => by rw [hp]⟩

theorem pointStateRefusal_of_chainBroken (h : ¬ KindHeld s q c) (hc : ChainBroken s q c) :
    s.pointStateRefusal q c = some .chain := by
  obtain ⟨g, hg, hne, hchain⟩ := hc
  rw [(pointStateRefusal_of_not_kindHeld h).2 g hg]
  exact if_pos ⟨hne, chainRefused_iff.mpr hchain⟩

theorem pointStateRefusal_eq_none (h : ¬ KindHeld s q c) (hc : ¬ ChainBroken s q c) : s.pointStateRefusal q c = none := by
  cases hg : c.parent with
  | none => exact (pointStateRefusal_of_not_kindHeld h).1 hg
  | some g =>
    rw [(pointStateRefusal_of_not_kindHeld h).2 g hg]
    exact if_neg fun ⟨hne, hchain⟩ => hc ⟨g, hg, hne, chainRefused_iff.mp hchain⟩

end

/-- Settles O28: the checks of the owner one after the other. -/
theorem setPointStores : Obligations.SetPointStores := by
  intro s p f q h hq r refused
  have hpoint : f.point 0 = q := Frame.point_eq_iff.mpr hq
  refine ⟨fun hnone => next_answered h rfl ?_, fun c hc => ?_⟩
  · rw [State.ownSetPoint, Frame.pointConfig_eq_none hq hnone]
  intro badArgument badState unlinked chain
  have hconfig := (Frame.pointConfig_eq_some_iff hq).mpr hc
  have howner : (s.begun p f).ownSetPoint p f =
      if s.pointArgumentsOk q c = false then (s.begun p f).respond p f .badArgument []
      else match s.pointStateRefusal q c with
        | some status => (s.begun p f).respond p f status []
        | none => ((s.begun p f).setPt q (r.configured c)).respond p f .ok [] := by
    rw [State.ownSetPoint, hconfig, hpoint]
    rfl
  have hargs := pointArgumentsOk_eq_false_iff s q c
  refine ⟨fun hb => next_answered h rfl ?_, fun hb hs => next_answered h rfl ?_,
    fun hb hs hch => next_answered h rfl ?_, fun hb hs hch => ?_⟩
  · exact howner.trans (if_pos (hargs.mpr hb))
  · exact howner.trans ((if_neg (mt hargs.mp hb)).trans (by rw [pointStateRefusal_of_kindHeld hs]))
  · exact howner.trans ((if_neg (mt hargs.mp hb)).trans (by rw [pointStateRefusal_of_chainBroken hs hch]))
  · refine next_stored (u := (s.begun p f).setPt q (r.configured c)) h rfl ?_ rfl rfl
    exact howner.trans ((if_neg (mt hargs.mp hb)).trans (by rw [pointStateRefusal_eq_none hs hch]))

end Sys2Proof.Machine
end

section
/-! PROOFS. Entering RUN (R168), by ENTER_RUN and as the last step of a RESTART (R175). -/

namespace Sys2Proof.Machine

/-! ### The answer to a request in progress -/

theorem OnlyEmits.setStage {s t : State} (h : OnlyEmits s t) (p : Port) (f : Frame) (stage : Stage) :
    OnlyEmits (s.setStage p f stage) (t.setStage p f stage) := by
  refine ⟨?_, fun q => ?_, fun q => ?_, fun q x hx => ?_, h.flags, h.archive, h.threshold⟩
  · have e := congrArg (fun y : State => { y with stations := (t.setStage p f stage).stations }) h.rest
    exact e
  · obtain ⟨k, hk, hs⟩ := h.ports q
    refine ⟨k, hk, ?_⟩
    unfold State.setStage
    by_cases hq : q = p
    · subst hq
      rw [State.stn_setStn_self, State.stn_setStn_self]
      exact hs
    · rw [State.stn_setStn_of_ne _ _ hq, State.stn_setStn_of_ne _ _ hq]
      exact hs
  · have ha := h.arbiters q
    unfold State.setStage
    by_cases hq : q = p
    · subst hq
      rw [State.stn_setStn_self, State.stn_setStn_self]
      exact congrArg (fun y : Station => { y with inProgress := some { frame := f, stage := stage } }) ha
    · rw [State.stn_setStn_of_ne _ _ hq, State.stn_setStn_of_ne _ _ hq]
      exact ha
  · have hb := h.busy q x
    unfold State.setStage at hx ⊢
    by_cases hq : q = p
    · subst hq
      rw [State.stn_setStn_self] at hx ⊢
      exact hb hx
    · rw [State.stn_setStn_of_ne _ _ hq] at hx ⊢
      exact hb hx

/-- The base of an answer to the request in progress: the request is over, its response is cached, and `w` stands where a
response waits. -/
def State.over (s : State) (p : Port) (f : Frame) (st : Status) (r : List Byte) (w : Option (List Byte)) : State :=
  s.setStn p
    { s.stn p with
      inProgress := none, cache := some { request := f, response := responseBytes f st r }, waitResponse := w }

/-- The answer to a request in progress, at whatever stage, after its owner has emitted. -/
theorem onlyEmits_respond {b v : State} (h : OnlyEmits b v) (p : Port) (f : Frame) (st : Status) (r : List Byte) :
    OnlyEmits (b.over p f st r ((v.respond p f st r).stn p).waitResponse) (v.respond p f st r) := by
  have h' := (respond_emitted (s := b.untaken p f) ((begun_untaken b p f).trans (begun_stations ..))
    (h.setStage p f .handling) st r).1
  rw [respond_setStage] at h'
  have hc := closed_untaken b p f st r ((v.respond p f st r).stn p).waitResponse
  have e : b.over p f st r ((v.respond p f st r).stn p).waitResponse =
      { b.setStage p f .handling with
        stations := ((b.untaken p f).closed p f st r ((v.respond p f st r).stn p).waitResponse).stations } := by
    rw [hc]
    rfl
  rw [e]
  exact h'

theorem over_begun (s : State) (p : Port) (f : Frame) (st : Status) (r : List Byte) (w : Option (List Byte)) :
    (s.begun p f).over p f st r w = s.closed p f st r w := by
  simp [State.over, State.begun, State.closed, State.setStn, State.stn, Station.begun, Station.closed]

/-! ### The order of the initial evaluation -/

theorem depth_congr {s t : State} (h : t.points = s.points) (n : Nat) (p : PointNo) : t.depth n p = s.depth n p := by
  have hpt (q : PointNo) : t.pt q = s.pt q := by simp [State.pt, h]
  induction n generalizing p with
  | zero => rfl
  | succ n ih =>
    unfold State.depth
    rw [hpt p]
    cases (s.pt p).parent with
    | none => rfl
    | some g => exact congrArg (· + 1) (ih g)

theorem evalOrder_congr {s t : State} (h : t.points = s.points) : t.evalOrder = s.evalOrder := by
  have hpt (q : PointNo) : t.pt q = s.pt q := by simp [State.pt, h]
  unfold State.evalOrder
  simp only [hpt, depth_congr h]

/-! ### The start -/

theorem OnlyEmits.setEvalPos {s t : State} (h : OnlyEmits s t) (e : Option PointNo) :
    OnlyEmits { s with evalPos := e } { t with evalPos := e } := by
  refine ⟨?_, h.ports, h.arbiters, h.busy, h.flags, h.archive, h.threshold⟩
  have e := congrArg (fun y : State => { y with evalPos := e }) h.rest
  exact e

theorem holdsMode_placeMode {s : State} {q : Port} (m : Mode) (h : (s.dsp q).state ≠ .detached) :
    ((s.placeMode m).dsp q).HoldsMode m := by
  have hall : q ∈ allPorts := (by decide : ∀ q : Port, q ∈ allPorts) q
  exact (placeEach_holds (.mode m) 0 (fun _ => true) allPorts s).2 q rfl h (.inl hall)

theorem HoldsMode.settle {s : State} {q : Port} {m : Mode} (h : (s.dsp q).HoldsMode m) :
    (s.settle.dsp q).HoldsMode m :=
  Dispatch.Holds.settle h fun _ => .inr (by rintro c rfl; nofun)

/-- The mode with which the initial evaluation begins, before anything is emitted. -/
def State.entering (s : State) (startAcked : Bool) : State :=
  { s with startAcked := startAcked, mode := .starting, inputs := mapEntries InputRec.requeue s.inputs }

theorem startRun_eq (s : State) (p : Port) (a restart : Bool) :
    s.startRun p a restart =
      ((s.entering a).append false (otherDraft s.now (.mode s.mode .starting (some a) restart) (some p))).placeMode
        .starting := rfl

section
variable {s t : State} {p : Port} {f : Frame} {a restart : Bool}

theorem onlyEmits_startRun : OnlyEmits (s.entering a) (s.startRun p a restart) := by
  rw [startRun_eq]
  exact (onlyEmits_append _ _ _).trans (onlyEmits_placeMode _ _)

theorem startRun_points : (s.startRun p a restart).points = s.points := by
  have e := congrArg State.points (onlyEmits_startRun (s := s) (p := p) (a := a) (restart := restart)).rest
  exact e

theorem appends_startRun (hb : s.log.ring.length ≤ 1024) :
    Appends s (s.startRun p a restart) [otherDraft s.now (.mode s.mode .starting (some a) restart) (some p)] := by
  rw [startRun_eq]
  exact (appends_append (s := s.entering a) hb false _).congr rfl (placeMode_log _ _)

theorem raisesOnly_startRun : RaisesOnly s (s.startRun p a restart) [] := by
  rw [startRun_eq]
  exact ((RaisesOnly.same rfl rfl rfl : RaisesOnly s (s.entering a) []).trans (raisesOnly_append _ _ _)).trans
    (raisesOnly_placeMode _ _)

theorem raisesOnly_beginEvaluation (s : State) : RaisesOnly s s.beginEvaluation [] := .same rfl rfl rfl

/-- The answer and the raisings behind an owner that begins the initial evaluation. -/
theorem begun_settled {b v : State} (h : OnlyEmits b v) (hp : v.points = b.points)
    (ht : t = ((v.respond p f .ok []).beginEvaluation).settle) :
    OnlyEmits ((b.over p f .ok [] (t.stn p).waitResponse).beginEvaluation) t ∧ t.Responding p f .ok [] := by
  have hset : OnlyEmits ((v.respond p f .ok []).beginEvaluation) t := ht ▸ onlyEmits_settle _
  have horder : (v.respond p f .ok []).evalOrder = b.evalOrder :=
    evalOrder_congr (by rw [State.respond_eq]; exact hp)
  have hemits := (onlyEmits_respond h p f .ok []).setEvalPos b.evalOrder.head?
  have hbegin : (v.respond p f .ok []).beginEvaluation = { v.respond p f .ok [] with evalPos := b.evalOrder.head? } := by
    rw [State.beginEvaluation, horder]
  have hover (w : Option (List Byte)) : (b.over p f .ok [] w).beginEvaluation =
      { b.over p f .ok [] w with evalPos := b.evalOrder.head? } := by
    rw [State.beginEvaluation, evalOrder_congr (s := b) (t := b.over p f .ok [] w) rfl]
  have hresp : ((v.respond p f .ok []).beginEvaluation).Responding p f .ok [] := responding_respond v p f .ok []
  refine ⟨?_, hresp.emits hset⟩
  rw [hset.waitResponse p, hover]
  rw [← hbegin] at hemits
  exact hemits.trans hset

theorem dsp_beginEvaluation (s : State) (q : Port) : s.beginEvaluation.dsp q = s.dsp q := rfl

theorem log_beginEvaluation (s : State) : s.beginEvaluation.log = s.log := rfl

theorem holdsMode_startRun {q : Port} (hq : (s.dsp q).state ≠ .detached) :
    ((s.startRun p a restart).dsp q).HoldsMode .starting := by
  rw [startRun_eq]
  refine holdsMode_placeMode _ ?_
  rw [append_dsp]
  exact hq

/-- What a start leaves, with the answer and the raisings behind it. -/
theorem started (hr : s.raisings = []) (hb : s.log.ring.length ≤ 1024)
    (ht : t = (((s.startRun p a restart).respond p f .ok []).beginEvaluation).settle) :
    OnlyEmits (((s.entering a).over p f .ok [] (t.stn p).waitResponse).beginEvaluation) t
      ∧ t.Responding p f .ok [] ∧ FlagsOnly s t []
      ∧ (∀ q, (s.dsp q).state ≠ .detached → (t.dsp q).HoldsMode .starting)
      ∧ AppendsFirst s t [otherDraft s.now (.mode s.mode .starting (some a) restart) (some p)] := by
  obtain ⟨hemits, hresp⟩ := begun_settled onlyEmits_startRun startRun_points ht
  have hraises : RaisesOnly s t [] := by
    rw [ht]
    exact ((raisesOnly_startRun.trans (raisesOnly_respond ..)).trans (raisesOnly_beginEvaluation _)).trans (raisesOnly_settle _)
  refine ⟨hemits, hresp, hraises.flagsOnly hr hemits.flags, fun q hq => ?_, ?_⟩
  · rw [ht]
    exact HoldsMode.settle (by rw [dsp_beginEvaluation, respond_dsp]; exact holdsMode_startRun hq)
  · have hlog : (((s.startRun p a restart).respond p f .ok []).beginEvaluation).log = (s.startRun p a restart).log := by
      rw [log_beginEvaluation, respond_log]
    have happ := (appends_startRun (p := p) (a := a) (restart := restart) hb).of_log hlog
    rw [ht]
    exact happ.followed (appendsFirst_settle happ.length)

end

/-! ### The check of the input map -/

theorem failingEntry_eq_none_iff {s : State} :
    s.failingEntry = none ↔ ∀ i, ¬ ((s.ent i).valid = true ∧ s.unfitted i = true) := by
  have hall (i : InputNo) : i ∈ allInputs := List.mem_map.mpr ⟨i.val, List.mem_range.mpr i.isLt, by simp⟩
  unfold State.failingEntry
  rw [List.find?_eq_none]
  simp [hall]

theorem failingEntry_eq_some {s : State} {i : InputNo} (hi : (s.ent i).valid = true ∧ s.unfitted i = true)
    (hfirst : ∀ j, j < i → ¬ ((s.ent j).valid = true ∧ s.unfitted j = true)) : s.failingEntry = some i := by
  unfold State.failingEntry
  rw [List.find?_eq_some_iff_getElem]
  refine ⟨by simp [hi], i.val, by simp [allInputs], by simp [allInputs], fun j hj => ?_⟩
  have hlt : j < 256 := hj.trans i.isLt
  have h := hfirst ⟨j, hlt⟩ hj
  have e : Fin.ofNat 256 j = (⟨j, hlt⟩ : InputNo) := Fin.ext (Nat.mod_eq_of_lt hlt)
  simp only [allInputs, List.getElem_map, List.getElem_range, e]
  simpa [imp_iff_not_or] using h

theorem inp_of_requeue {s t : State} (h : t.inputs = mapEntries InputRec.requeue s.inputs) (i : InputNo) :
    t.inp i = { s.inp i with queuedLevel := (s.inp i).level, queuedQuality := (s.inp i).reported } := by
  simp [State.inp, h, InputRec.requeue]

theorem entering_closed (s : State) (p : Port) (f : Frame) (a : Bool) (w : Option (List Byte)) :
    (((s.begun p f).entering a).over p f .ok [] w).beginEvaluation =
      { s.closed p f .ok [] w with
        mode := .starting, startAcked := a, inputs := mapEntries InputRec.requeue s.inputs
        evalPos := s.evalOrder.head? } := by
  have horder : (((s.begun p f).entering a).over p f .ok [] w).evalOrder = s.evalOrder := evalOrder_congr rfl
  have hover : ((s.begun p f).entering a).over p f .ok [] w = ((s.begun p f).over p f .ok [] w).entering a := rfl
  rw [State.beginEvaluation, horder, hover, over_begun]
  rfl

theorem exec_enterRun_of_takes {s : State} {p : Port} {f : Frame} (h : s.Takes p .enterRun f) :
    exec (.enterRun p) s = .next ((s.begun p f).ownEnterRun p f).settle := by
  refine Eq.trans (congrArg Host.Outcome.next ?_) (next_of_takes (form := anyForm) h rfl fun f t => t.ownEnterRun p f)
  rw [live_of h.outOfReset, live_of h.outOfReset, restartDue_of_free (inProgress_of_takeable h.head)]

/-- Settles O48. -/
theorem entersRun : Obligations.EntersRun := by
  intro s p f h hb failing
  have hexec := exec_enterRun_of_takes h
  have hanswered {st : Status} {r : List Byte} (ho : (s.begun p f).ownEnterRun p f = (s.begun p f).respond p f st r) :
      exec (.enterRun p) s = .next (s.answered p f st r) := by
    rw [hexec, ho, ← beginRequest_eq_begun, answered_settled h]
  refine ⟨fun h1 => hanswered ?_, fun h1 i hi hfirst => hanswered ?_, fun h1 hnone => ?_⟩
  · rw [State.ownEnterRun, choice_eq_none_iff.mpr h1]
  · rw [State.ownEnterRun, choice_of_le h1, failingEntry_eq_some (s := s.begun p f) hi hfirst]
    rfl
  · have hstart : (s.begun p f).ownEnterRun p f =
        (((s.begun p f).startRun p (f.arg 0 == 1) false).respond p f .ok []).beginEvaluation := by
      rw [State.ownEnterRun, choice_of_le h1, failingEntry_eq_none_iff (s := s.begun p f) |>.mpr hnone]
    rw [hstart] at hexec
    obtain ⟨t, ht⟩ : ∃ t, t = ((((s.begun p f).startRun p (f.arg 0 == 1) false).respond p f .ok
      []).beginEvaluation).settle := ⟨_, rfl⟩
    rw [← ht] at hexec
    obtain ⟨hemits, hresp, hflags, hholds, happ⟩ := started (s := s.begun p f) h.noRaising hb ht
    rw [entering_closed] at hemits
    have hinputs := congrArg State.inputs hemits.rest
    have hpos := congrArg State.evalPos hemits.rest
    have hconfig : s.mode = .config := by
      have hm := h.mode
      simpa [State.modeOk, ReqKind.modeRule] using hm
    rw [show (s.begun p f).mode = .config from hconfig] at happ
    refine ⟨t, hexec, hresp, ?_, inp_of_requeue hinputs, hpos, hholds, hflags, happ⟩
    rw [hinputs, hpos]
    exact hemits

/-! ### The last step of a RESTART -/

theorem entering_over (s : State) (p : Port) (f : Frame) (w : Option (List Byte)) :
    ((s.entering s.startAcked).over p f .ok [] w).beginEvaluation =
      { s.over p f .ok [] w with
        mode := .starting, inputs := mapEntries InputRec.requeue s.inputs, evalPos := s.evalOrder.head? } := by
  have horder : ((s.entering s.startAcked).over p f .ok [] w).evalOrder = s.evalOrder := evalOrder_congr rfl
  rw [State.beginEvaluation, horder]
  rfl

theorem exec_enterRun_of_due {s : State} {p : Port} {f : Frame} (hlive : s.inReset = false) (hc : s.engineClaim = none)
    (hi : (s.stn p).inProgress = some { frame := f, stage := .restartRun }) :
    exec (.enterRun p) s = .next (s.restartRun p f).settle := by
  have hdue : s.restartDue p = some f := by
    unfold State.restartDue
    rw [hi]
    exact if_pos ⟨rfl, hc⟩
  refine congrArg Host.Outcome.next ((live_of hlive _).trans ?_)
  rw [hdue]

/-- An answer to the request in progress, and nothing else. -/
theorem portOnly_respond (s : State) (p : Port) (f : Frame) (st : Status) (r : List Byte) :
    PortOnly
      (s.setStn p
        { s.stn p with inProgress := none, cache := some { request := f, response := responseBytes f st r } })
      (s.respond p f st r) p := by
  rw [State.respond_eq]
  refine ⟨rfl, fun q hq => ⟨rfl, ?_⟩, ?_⟩
  · rw [State.stn_setStn_of_ne _ _ hq, State.stn_setStn_of_ne _ _ hq]
  · rw [State.stn_setStn_self, State.stn_setStn_self]
    cases htx : (s.stn p).tx <;> simp [Station.replied, htx]

/-- Settles O53. -/
theorem restartEntersRun : Obligations.RestartEntersRun := by
  intro s p f hlive hr hc hi hb failing
  have hexec := exec_enterRun_of_due hlive hc hi
  by_cases hgo : s.mode = .config ∧ s.failingEntry = none
  · rw [show s.restartRun p f = _ from if_pos hgo] at hexec
    obtain ⟨t, ht⟩ : ∃ t, t = (((s.startRun p s.startAcked true).respond p f .ok []).beginEvaluation).settle := ⟨_, rfl⟩
    rw [← ht] at hexec
    obtain ⟨hemits, hresp, hflags, hholds, happ⟩ := started hr hb ht
    rw [entering_over] at hemits
    have hinputs := congrArg State.inputs hemits.rest
    have hpos := congrArg State.evalPos hemits.rest
    have hfree : (t.stn p).inProgress = none := by
      refine (congrArg Station.inProgress (hemits.arbiters p)).trans ?_
      show ((s.over p f .ok [] _).stn p).inProgress = none
      rw [State.over, State.stn_setStn_self]
    rw [hgo.1] at happ
    refine ⟨t, hexec, hresp, hfree, fun hno => ?_, fun _ _ => ⟨?_, inp_of_requeue hinputs, hpos, hflags, hholds, happ⟩⟩
    · obtain h | ⟨i, h⟩ := hno
      · exact absurd hgo.1 h
      · exact absurd h (failingEntry_eq_none_iff.mp hgo.2 i)
    · rw [hinputs, hpos]
      exact hemits
  · rw [show s.restartRun p f = _ from if_neg hgo, settle_of_none ((respond_raisings ..).trans hr)] at hexec
    refine ⟨_, hexec, responding_respond s p f .ok [], inProgress_respond s p f .ok [],
      fun _ => ⟨portOnly_respond s p f .ok [], ?_⟩, fun hm hnone => absurd ⟨hm, failingEntry_eq_none_iff.mpr hnone⟩ hgo⟩
    rw [State.respond_eq]
    rfl

end Sys2Proof.Machine
end

section
/-! PROOFS. The initial evaluation (R169 to R172): its order, and what it does at one point. -/

namespace Sys2Proof.Machine

/-! ### The order -/

theorem allPoints_eq : allPoints = List.finRange 256 := by
  refine List.ext_getElem (by simp [allPoints]) fun i h1 h2 => Fin.ext ?_
  have hi : i < 256 := by simpa [allPoints] using h1
  simpa [allPoints] using Nat.mod_eq_of_lt hi

theorem pairwise_allPoints : allPoints.Pairwise (· < ·) := allPoints_eq ▸ List.pairwise_lt_finRange 256

theorem depth_le (s : State) (n : Nat) (p : PointNo) : s.depth n p ≤ n := by
  induction n generalizing p with
  | zero => exact Nat.le_refl _
  | succ n ih =>
    unfold State.depth
    cases (s.pt p).parent with
    | none => exact Nat.zero_le _
    | some g => exact Nat.succ_le_succ (ih g)

/-- The groups of one depth, in ascending number. -/
def State.groupsAt (s : State) (d : Nat) : List PointNo :=
  (allPoints.filter fun q => (s.pt q).kind == .group).filter fun q => s.depth 3 q == d

theorem evalOrder_eq (s : State) :
    s.evalOrder = (allPoints.filter fun q => (s.pt q).kind != .group) ++ [3, 2, 1, 0].flatMap s.groupsAt := rfl

theorem mem_groupsAt {s : State} {d : Nat} {p : PointNo} :
    p ∈ s.groupsAt d ↔ (s.pt p).kind = .group ∧ s.depth 3 p = d := by
  simp [State.groupsAt, mem_allPoints, and_comm]

theorem mem_evalOrder (s : State) (p : PointNo) : p ∈ s.evalOrder := by
  rw [evalOrder_eq, List.mem_append]
  by_cases hk : (s.pt p).kind = .group
  · have hd := depth_le s 3 p
    have hmem : s.depth 3 p ∈ [3, 2, 1, 0] := by
      simp only [List.mem_cons, List.not_mem_nil, or_false]
      omega
    exact .inr (List.mem_flatMap.mpr ⟨_, hmem, mem_groupsAt.mpr ⟨hk, rfl⟩⟩)
  · exact .inl (by simp [mem_allPoints, hk])

/-- What an order of evaluation has before what (R169). -/
def State.EvaluatedBefore (s : State) (a b : PointNo) : Prop :=
  if (s.pt a).kind = .group then
    (s.pt b).kind = .group ∧ (s.depth 3 b < s.depth 3 a ∨ s.depth 3 b = s.depth 3 a ∧ a < b)
  else (s.pt b).kind = .group ∨ a < b

theorem EvaluatedBefore.ne {s : State} {a b : PointNo} (h : s.EvaluatedBefore a b) : a ≠ b := by
  rintro rfl
  unfold State.EvaluatedBefore at h
  split at h
  · obtain ⟨-, h | ⟨-, h⟩⟩ := h
    · exact absurd h (Nat.lt_irrefl _)
    · exact absurd h (lt_irrefl _)
  · next hk =>
    obtain h | h := h
    · exact hk h
    · exact absurd h (lt_irrefl _)

theorem pairwise_groupsAt (s : State) (d : Nat) : (s.groupsAt d).Pairwise s.EvaluatedBefore := by
  have h : (s.groupsAt d).Pairwise (· < ·) := (pairwise_allPoints.filter _).filter _
  refine h.imp_of_mem fun {a b} ha hb hlt => ?_
  obtain ⟨hka, hda⟩ := mem_groupsAt.mp ha
  obtain ⟨hkb, hdb⟩ := mem_groupsAt.mp hb
  exact (if_pos hka).mpr ⟨hkb, .inr ⟨hdb.trans hda.symm, hlt⟩⟩

theorem pairwise_evalOrder (s : State) : s.evalOrder.Pairwise s.EvaluatedBefore := by
  rw [evalOrder_eq, List.pairwise_append]
  refine ⟨?_, ?_, fun a ha b hb => ?_⟩
  · refine (pairwise_allPoints.filter _).imp_of_mem fun {a b} ha _ hlt => ?_
    have hk : (s.pt a).kind ≠ .group := by simpa [mem_allPoints] using ha
    exact (if_neg hk).mpr (.inr hlt)
  · rw [List.pairwise_flatMap]
    refine ⟨fun d _ => pairwise_groupsAt s d, ?_⟩
    have hdesc : [3, 2, 1, 0].Pairwise (fun a b : Nat => b < a) := by decide
    refine hdesc.imp fun {d e} hde a ha b hb => ?_
    obtain ⟨hka, hda⟩ := mem_groupsAt.mp ha
    obtain ⟨hkb, hdb⟩ := mem_groupsAt.mp hb
    exact (if_pos hka).mpr ⟨hkb, .inl (by omega)⟩
  · have hk : (s.pt a).kind ≠ .group := by simpa [mem_allPoints] using ha
    obtain ⟨d, -, hd⟩ := List.mem_flatMap.mp hb
    exact (if_neg hk).mpr (.inl (mem_groupsAt.mp hd).1)

/-! ### One point -/

theorem audibleRequest_emitPoint (s : State) (c : Claim) (p : PointNo) (cause : Cause) (b : RecordBody) :
    (s.emitPoint c p cause b).audibleRequest = s.audibleRequest := by
  let d : RecordDraft :=
    { stamp := c.stamp, body := b, point := some p, input := c.input, port := c.port, cause := some cause }
  let u := (s.append false d).setPt p { (s.append false d).pt p with lastChange := some (s.log.next, c.stamp) }
  have e1 := congrArg State.audibleRequest (onlyEmits_append s false d).rest
  have e2 := congrArg State.audibleRequest (onlyEmits_placePoint u p).rest
  exact e2.trans e1

theorem audibleRequest_recordQuality (s : State) (c : Claim) (p : PointNo) (cause : Cause) (q : PointQuality) :
    (s.recordQuality c p cause q).audibleRequest = s.audibleRequest := by
  unfold State.recordQuality
  dsimp only
  split
  · rfl
  · exact audibleRequest_emitPoint ..

theorem qualifies_recordQuality (s : State) (c : Claim) (p : PointNo) (cause : Cause) (q : PointQuality) (k : PClass) :
    (s.recordQuality c p cause q).qualifies k = s.qualifies k := by
  unfold State.recordQuality
  dsimp only
  split
  · rfl
  · exact qualifies_emitPoint ..

theorem audibleRequest_transition (s : State) (c : Claim) (p : PointNo) (cause : Cause) (st : SeqState) :
    (s.transition c p cause st).audibleRequest =
      (s.audibleRequest || decide ((s.pt p).service = .inService ∧ st = .alert ∧ (s.pt p).seqState ≠ .alert)
        && s.qualifies (s.pt p).cls) := by
  rw [transition_eq]
  dsimp only
  split
  · next h => simp [h]
  · next h =>
    rw [audibleRequest_emitPoint]
    show s.audibleRequest = _
    by_cases hq : s.qualifies (s.pt p).cls = true
    · have h' : ¬ ((s.pt p).service = .inService ∧ st = .alert ∧ (s.pt p).seqState ≠ .alert) :=
        fun ⟨h1, h2, h3⟩ => h ⟨h1, h2, h3, hq⟩
      rw [decide_eq_false h']
      simp
    · rw [Bool.not_eq_true] at hq
      simp [hq]

/-- The records of the initial evaluation of a point whose record is `r` (R170). -/
def startDrafts (claim : Claim) (p : PointNo) (r : PointRec) (q : PointQuality) (cond : Condition) (goesTo : SeqState) :
    List RecordDraft :=
  (if r.quality ≠ q then [pointDraft claim p .start (.pointQuality r.quality q)] else [])
    ++ if r.service = .inService ∧ cond = .abnormal then
      [pointDraft claim p .start (.pointState r.seqState goesTo cond r.shownMember)] else []

/-- What the initial evaluation does at a point (R170, steps 2 to 4; R171). -/
structure Started (s t : State) (p : PointNo) (q : PointQuality) (cond : Condition) : Prop where
  moves : Moves s t (· = p) (fun _ => False)
  map : t.map = s.map
  point : t.pt p =
    { s.pt p with
      quality := q, condition := cond
      seqState := if (s.pt p).service = .inService ∧ cond = .abnormal then
        if s.startAcked then .acked else .alert else (s.pt p).seqState
      lastChange := (t.pt p).lastChange }
  audible : t.audibleRequest =
    (s.audibleRequest || decide (((s.pt p).service = .inService ∧ cond = .abnormal) ∧ s.startAcked = false
      ∧ (s.pt p).seqState ≠ .alert) && s.qualifies (s.pt p).cls)
  appends : Appends s t
    (startDrafts s.startClaim p (s.pt p) q cond (if s.startAcked then .acked else .alert))

section
variable {s : State} {p : PointNo}

/-- The point with its quality recorded and its condition formed. -/
def State.formedAtStart (s : State) (p : PointNo) (q : PointQuality) (cond : Condition) : State :=
  let s1 := s.recordQuality s.startClaim p .start q
  s1.setPt p { s1.pt p with condition := cond }

theorem formedAtStart_pt (q : PointQuality) (cond : Condition) : (s.formedAtStart p q cond).pt p =
    { s.pt p with quality := q, condition := cond, lastChange := ((s.formedAtStart p q cond).pt p).lastChange } := by
  unfold State.formedAtStart
  dsimp only
  rw [State.pt_setPt_self, recordQuality_pt_self]

theorem moves_formedAtStart (q : PointQuality) (cond : Condition) :
    Moves s (s.formedAtStart p q cond) (· = p) (fun _ => False) :=
  (moves_recordQuality _ _ _ _ _).trans (moves_setPt rfl fun _ => ⟨rfl, rfl⟩)

theorem startPoint_eq (q : PointQuality) (cond : Condition) :
    s.startPoint p q cond =
      if (s.pt p).service = .inService ∧ cond = .abnormal then
        (s.formedAtStart p q cond).transition s.startClaim p .start (if s.startAcked then .acked else .alert)
      else s.formedAtStart p q cond := by
  have h : ((s.formedAtStart p q cond).pt p).service = (s.pt p).service := by
    rw [formedAtStart_pt]
  rw [← h]
  rfl

theorem started_startPoint (hb : s.log.ring.length ≤ 1024) (q : PointQuality) (cond : Condition) :
    Started s (s.startPoint p q cond) p q cond := by
  let u := s.formedAtStart p q cond
  have hu : u.pt p = _ := formedAtStart_pt q cond
  have hmoves : Moves s u (· = p) (fun _ => False) := moves_formedAtStart q cond
  have hmap : u.map = s.map := recordQuality_map ..
  have haudible : u.audibleRequest = s.audibleRequest := audibleRequest_recordQuality ..
  have hqual (k : PClass) : u.qualifies k = s.qualifies k := qualifies_recordQuality ..
  have happ : Appends s u (if (s.pt p).quality ≠ q then
      [pointDraft s.startClaim p .start (.pointQuality (s.pt p).quality q)] else []) :=
    (appends_recordQuality _ _ _ hb _).of_log rfl
  rw [startPoint_eq]
  by_cases hs : (s.pt p).service = .inService ∧ cond = .abnormal
  · rw [if_pos hs]
    refine ⟨hmoves.trans (moves_transition ..), (transition_map ..).trans hmap, ?_, ?_, ?_⟩
    · rw [transition_pt_self, if_pos hs, hu]
    · rw [audibleRequest_transition, haudible, hqual, hu]
      cases hsa : s.startAcked <;> simp [hs]
    · have h2 := happ.trans (appends_transition (s := u) s.startClaim p .start happ.length
        (if s.startAcked then .acked else .alert))
      unfold startDrafts
      rw [if_pos hs]
      rw [hu] at h2
      exact h2
  · rw [if_neg hs]
    refine ⟨hmoves, hmap, ?_, ?_, ?_⟩
    · rw [if_neg hs]
      exact hu
    · rw [decide_eq_false (fun h => hs h.1)]
      simpa using haudible
    · unfold startDrafts
      rw [if_neg hs, List.append_nil]
      exact happ

end

/-! ### The evaluation of one point, and its end -/

theorem ent_loadEntries (s : State) (p : PointNo) (i : InputNo) :
    (s.loadEntries p).ent i =
      if (s.ent i).valid = true ∧ (s.ent i).point = some p then (s.ent i).load (s.inp i) s.startAcked else s.ent i := by
  simp only [State.loadEntries, State.ent, State.inp, MapEntry.names]
  simp
  exact if_congr Iff.rfl rfl rfl

/-- The state on which a point is started: a FIELD point's entries are loaded first (R170, step 1). -/
def State.loaded (s : State) (p : PointNo) : State :=
  if (s.pt p).kind = .field then s.loadEntries p else s

theorem loaded_eq (s : State) (p : PointNo) : s.loaded p = { s with map := (s.loaded p).map } := by
  unfold State.loaded
  split <;> rfl

theorem ent_loaded (s : State) (p : PointNo) (i : InputNo) :
    (s.loaded p).ent i =
      if (s.pt p).kind = .field ∧ (s.ent i).valid = true ∧ (s.ent i).point = some p then
        (s.ent i).load (s.inp i) s.startAcked
      else s.ent i := by
  unfold State.loaded
  by_cases hk : (s.pt p).kind = .field
  · rw [if_pos hk, ent_loadEntries]
    simp only [hk, true_and]
  · rw [if_neg hk, if_neg fun h => hk h.1]

/-- The quality with which a point starts. -/
def State.startQuality (s : State) (p : PointNo) : PointQuality :=
  match (s.pt p).kind with
  | .spare => .good
  | .field => (s.loaded p).fieldQuality p
  | .group => s.groupQuality p

/-- The condition with which a point starts. -/
def State.startCondition (s : State) (p : PointNo) : Condition :=
  match (s.pt p).kind with
  | .spare => .normal
  | .field => (s.loaded p).fieldCondition p
  | .group => s.groupCondition p

theorem evaluatePoint_eq (s : State) (p : PointNo) :
    s.evaluatePoint p = (s.loaded p).startPoint p (s.startQuality p) (s.startCondition p) := by
  unfold State.evaluatePoint State.startQuality State.startCondition State.loaded
  cases (s.pt p).kind <;> rfl

section
variable {s t : State} {p : PointNo}

theorem started_evaluatePoint (hb : s.log.ring.length ≤ 1024) :
    Started (s.loaded p) (s.evaluatePoint p) p (s.startQuality p) (s.startCondition p) := by
  have hb' : (s.loaded p).log.ring.length ≤ 1024 := by
    rw [loaded_eq]
    exact hb
  rw [evaluatePoint_eq]
  exact started_startPoint hb' _ _

theorem announces_evaluatePoint : Announces s (s.evaluatePoint p) := by
  have hl : Announces s (s.loaded p) := by
    rw [loaded_eq]
    exact (Announces.refl s).congr (fun _ => rfl) (fun _ => rfl) (fun _ => rfl) (fun _ => rfl)
  have ha : StayAttached s (s.loaded p) := by
    rw [loaded_eq]
    exact fun _ h => h
  rw [evaluatePoint_eq]
  exact announces_startPoint hl ha _ _

/-- What the evaluation of a point leaves, with the raisings behind it. -/
theorem evaluated {e : Option PointNo} (hb : s.log.ring.length ≤ 1024)
    (ht : t = ({ s.evaluatePoint p with evalPos := e } : State).settle) :
    OnlyEmits
        { s with
          points := t.points, map := t.map, audibleRequest := t.audibleRequest, evalPos := t.evalPos } t
      ∧ t.evalPos = e ∧ Announces s t ∧ (∀ x, x ≠ p → t.pt x = s.pt x) ∧ t.map = (s.loaded p).map
      ∧ t.pt p =
        { s.pt p with
          quality := s.startQuality p, condition := s.startCondition p
          seqState := if (s.pt p).service = .inService ∧ s.startCondition p = .abnormal then
            if s.startAcked then .acked else .alert else (s.pt p).seqState
          lastChange := (t.pt p).lastChange }
      ∧ t.audibleRequest =
        (s.audibleRequest || decide (((s.pt p).service = .inService ∧ s.startCondition p = .abnormal)
          ∧ s.startAcked = false ∧ (s.pt p).seqState ≠ .alert) && s.qualifies (s.pt p).cls)
      ∧ AppendsFirst s t (startDrafts s.startClaim p (s.pt p) (s.startQuality p) (s.startCondition p)
          (if s.startAcked then .acked else .alert)) := by
  have hst := started_evaluatePoint (p := p) hb
  have hann := announces_evaluatePoint (s := s) (p := p)
  generalize s.evaluatePoint p = u at hst hann ht
  have hset : OnlyEmits { u with evalPos := e } t := ht ▸ onlyEmits_settle _
  have hpoints : t.points = u.points := by
    have e := congrArg State.points hset.rest
    exact e
  have hmap : t.map = u.map := by
    have e := congrArg State.map hset.rest
    exact e
  have haudible : t.audibleRequest = u.audibleRequest := by
    have e := congrArg State.audibleRequest hset.rest
    exact e
  have hpos : t.evalPos = e := by
    have e := congrArg State.evalPos hset.rest
    exact e
  have hpt (x : PointNo) : t.pt x = u.pt x := by simp [State.pt, hpoints]
  refine ⟨?_, hpos, ?_, fun x hx => ?_, hmap.trans hst.map, ?_, ?_, ?_⟩
  · have h := (hst.moves.emits.setEvalPos e).trans hset
    rw [loaded_eq] at h
    rw [hpoints, hmap, haudible, hpos]
    exact h
  · rw [ht]
    exact (hann.congr (s' := s) (t' := { u with evalPos := e }) (fun _ => rfl) (fun _ => rfl) (fun _ => rfl)
      (fun _ => rfl)).settle
  · have h := hst.moves.off x hx
    rw [loaded_eq] at h
    exact (hpt x).trans h
  · have h := hst.point
    rw [loaded_eq] at h
    rw [hpt p]
    exact h
  · have h := hst.audible
    rw [loaded_eq] at h
    exact haudible.trans h
  · have h := hst.appends
    rw [loaded_eq] at h
    have h' : Appends s { u with evalPos := e } _ := h.congr rfl rfl
    rw [ht]
    exact h'.followed (appendsFirst_settle h'.length)

theorem exec_evaluation (hlive : s.inReset = false) (hm : s.mode = .starting) (hp : s.evalPos = some p) :
    exec (if (s.pt p).kind = .group then .groupPointEvaluation else .fieldPointEvaluation) s =
      .next ({ s.evaluatePoint p with evalPos := nextAfter p s.evalOrder } : State).settle := by
  have hnext (g : Bool) (hg : ((s.pt p).kind == .group) = g) :
      s.evaluateNext g = ({ s.evaluatePoint p with evalPos := nextAfter p s.evalOrder } : State).settle := by
    unfold State.evaluateNext
    rw [hp]
    exact if_pos ⟨hm, hg⟩
  by_cases hk : (s.pt p).kind = .group
  · rw [if_pos hk]
    exact congrArg Host.Outcome.next ((live_of hlive _).trans (hnext true (by simp [hk])))
  · rw [if_neg hk]
    exact congrArg Host.Outcome.next ((live_of hlive _).trans (hnext false (by simp [hk])))

/-- What the end of the initial evaluation leaves, with the raisings behind it (R172). -/
theorem evaluationEnded (hr : s.raisings = []) (hb : s.log.ring.length ≤ 1024) (ht : t = s.endEvaluation.settle) :
    OnlyEmits { s with mode := .run } t ∧ (∀ q, (s.dsp q).state ≠ .detached → (t.dsp q).HoldsMode .run)
      ∧ FlagsOnly s t [] ∧ AppendsFirst s t [otherDraft s.now (.mode .starting .run none false) none] := by
  let b : State := { s with mode := .run }
  let d := otherDraft s.now (.mode .starting .run none false) none
  have hend : s.endEvaluation = (b.append false d).placeMode .run := rfl
  have hemits : OnlyEmits b t := by
    rw [ht, hend]
    exact ((onlyEmits_append _ _ _).trans (onlyEmits_placeMode _ _)).trans (onlyEmits_settle _)
  have hraises : RaisesOnly b t [] := by
    rw [ht, hend]
    exact ((raisesOnly_append _ _ _).trans (raisesOnly_placeMode _ _)).trans (raisesOnly_settle _)
  refine ⟨hemits, fun q hq => ?_, hraises.flagsOnly hr hemits.flags, ?_⟩
  · rw [ht, hend]
    refine HoldsMode.settle (holdsMode_placeMode _ ?_)
    rw [append_dsp]
    exact hq
  · have happ : Appends s s.endEvaluation [d] := by
      rw [hend]
      exact (appends_append (s := b) hb false d).congr rfl (placeMode_log _ _)
    rw [ht]
    exact happ.followed (appendsFirst_settle happ.length)

end

/-- Settles O49. -/
theorem evaluates : Obligations.Evaluates := by
  refine ⟨fun s _ => ⟨mem_evalOrder s, (pairwise_evalOrder s).imp EvaluatedBefore.ne, pairwise_evalOrder s⟩,
    fun s hlive hr hm hb => ⟨fun p hp => ?_, fun hp => ?_⟩⟩
  · intro r c
    have hexec : exec c s = _ := exec_evaluation hlive hm hp
    obtain ⟨t, ht⟩ : ∃ t, t = ({ s.evaluatePoint p with evalPos := nextAfter p s.evalOrder } : State).settle := ⟨_, rfl⟩
    rw [← ht] at hexec
    obtain ⟨hemits, hpos, hann, hothers, hmap, hpoint, haudible, happ⟩ := evaluated hb ht
    refine ⟨t, hexec, hemits, hpos, hann, hothers, fun i => ?_, ?_⟩
    · have hent : t.ent i = (s.loaded p).ent i := by simp [State.ent, hmap]
      rw [hent, ent_loaded]
      rfl
    · intro quality condition starts member goesTo claim
      have hquality : s.startQuality p = quality := by
        show s.startQuality p = match r.kind with | .spare => _ | .field => _ | .group => _
        unfold State.startQuality
        rw [fieldQuality_congr hmap]
      have hcondition : s.startCondition p = condition := by
        show s.startCondition p = match r.kind with | .spare => _ | .field => _ | .group => _
        unfold State.startCondition
        rw [fieldCondition_congr hmap]
      rw [hquality, hcondition] at hpoint happ
      rw [hcondition] at haudible
      unfold startDrafts at happ
      simp only [ne_comm (a := (s.pt p).quality)] at happ
      exact ⟨hpoint, haudible, happ⟩
  · obtain ⟨t, ht⟩ : ∃ t, t = s.endEvaluation.settle := ⟨_, rfl⟩
    obtain ⟨hemits, hholds, hflags, happ⟩ := evaluationEnded hr hb ht
    refine ⟨t, congrArg Host.Outcome.next ((live_of hlive _).trans ?_), hemits, hholds, hflags, happ⟩
    rw [ht]
    exact if_pos ⟨hm, hp⟩

end Sys2Proof.Machine
end

section
/-! PROOFS. The Event Record under a long chain of raisings (R101, R105): more than half the circle of sequence numbers may
be lost in one step, and the first number lost then counts as one after the confirmed number. -/

namespace Sys2Proof.Machine

/-! ### Records of consecutive numbers -/

/-- A record with a number and nothing to tell. -/
def blankRecord (n : Nat) : EventRecord :=
  { seq := n, stamp := { day := 0, ms := 0, quality := .unset }, body := .operator false, point := none, input := none
    port := none, cause := none }

theorem consecutive_range' (a n : Nat) (h : a + n ≤ 4294967295) : Consecutive (List.range' a n) := by
  induction n generalizing a with
  | zero => exact trivial
  | succ n ih =>
    cases n with
    | zero => exact trivial
    | succ n =>
      have hne : a ≠ Config.seqMax := by
        unfold Config.seqMax
        omega
      exact ⟨(if_neg hne).symm, ih (a + 1) (by omega)⟩

/-! ### A ring that loses its oldest record -/

/-- An append of a LOG_LOSS record to a full ring whose oldest record comes after the confirmed number. -/
theorem append_silent {s : State} (hl : s.log.Loses) (hht : 1024 < s.log.threshold) (d : RecordDraft) :
    (s.append true d).raisings = s.raisings
      ∧ (s.append true d).routes = s.routes
      ∧ (s.append true d).log =
        { s.log with
          ring := s.log.ring.tail ++ [d.numbered s.log.next]
          confirmed := ((s.log.ring.head?).map EventRecord.seq).getD 0
          newest := s.log.next, next := seqSucc s.log.next } := by
  have hroom := makeRoom_of_loses true hl
  have hcount (u : State) (hu : (u.log.ring.length ≤ 1024)) (ht : u.log.threshold = s.log.threshold) (b : Bool)
      (q : Option Port) : u.testLogHigh b q = u := by
    refine testLogHigh_neg fun ⟨_, h, _⟩ => ?_
    have hle : u.log.unconfirmed ≤ 1024 := by
      unfold EventLog.unconfirmed
      split
      · exact Nat.zero_le _
      · exact (List.length_filter_le ..).trans hu
    omega
  have hfull := hl.1
  have happ : s.append true d = (s.makeRoom true).placeRecord d := by
    unfold State.append
    refine hcount _ ?_ ?_ _ _
    · rw [hroom]
      simp [State.placeRecord, hfull]
    · rw [hroom]
      rfl
  rw [happ, hroom]
  exact ⟨List.append_nil _, rfl, rfl⟩

/-! ### The chain -/

/-- `m` raisings of LOG_LOSS still wait, and the ring holds the 1024 numbers after `k`, the last one lost. -/
structure Overrun (m k : Nat) (s : State) : Prop where
  raisings : s.raisings = List.replicate m (plainRaising .logLoss)
  route : (s.route .logLoss).enable = false
  archive : s.log.archive = some 0
  threshold : s.log.threshold = 2000
  seqs : s.log.ring.map EventRecord.seq = List.range' (k + 1) 1024
  confirmed : s.log.confirmed = k
  next : s.log.next = k + 1025

theorem seqAfter_succ {k : Nat} (h : k + 1 < 4294967295) : seqAfter k (k + 1) = true := by
  unfold seqAfter seqDistance Config.seqMax Config.seqHalf
  by_cases hk : k = 0
  · subst hk
    rfl
  · have e : k + 1 + 4294967295 - k = 1 + 4294967295 := by omega
    simp [hk, e]

theorem Overrun.length {m k : Nat} {s : State} (h : Overrun m k s) : s.log.ring.length = 1024 := by
  have e := congrArg List.length h.seqs
  rwa [List.length_map, List.length_range'] at e

theorem Overrun.loses {m k : Nat} {s : State} (h : Overrun m k s) (hk : k + 1 < 4294967295) : s.log.Loses := by
  have hne : s.log.ring ≠ [] := fun e => by simpa [e] using h.length
  obtain ⟨o, rest, ho⟩ := List.exists_cons_of_ne_nil hne
  have hseq := h.seqs
  rw [ho, List.range'_succ, List.map_cons] at hseq
  have hoseq : o.seq = k + 1 := (List.cons.inj hseq).1
  refine ⟨h.length, ?_, o, by rw [ho]; rfl, ?_⟩
  · rw [h.archive]
    exact Option.some_ne_none _
  · rw [h.confirmed, hoseq]
    exact seqAfter_succ hk

theorem Overrun.raise {m k : Nat} {s : State} (h : Overrun (m + 1) k s) (hk : k + 1025 < 4294967295) :
    Overrun m (k + 1)
      (({ s with raisings := List.replicate m (plainRaising .logLoss) } : State).raise (plainRaising .logLoss)) := by
  let u : State :=
    { s with raisings := List.replicate m (plainRaising .logLoss), flags := joinBit s.flags Flag.logLoss.code.val }
  let d := (plainRaising .logLoss).draft (s.flagSet .logLoss) s.now
  have hraise : ({ s with raisings := List.replicate m (plainRaising .logLoss) } : State).raise (plainRaising .logLoss) =
      u.append true d := by
    unfold State.raise
    refine if_neg fun hc => ?_
    rw [Bool.and_eq_true] at hc
    have hroute : (s.route .logLoss).enable = true := hc.2
    rw [h.route] at hroute
    cases hroute
  have hthr : 1024 < u.log.threshold := by
    show 1024 < s.log.threshold
    rw [h.threshold]
    omega
  obtain ⟨hr, hroutes, hlog⟩ := append_silent (s := u) (h.loses (by omega)) hthr d
  have hhead : (s.log.ring.head?).map EventRecord.seq = some (k + 1) := by
    rw [← List.head?_map, h.seqs]
    rfl
  rw [hraise]
  refine ⟨hr, ?_, ?_, ?_, ?_, ?_, ?_⟩
  · have e : (u.append true d).route .logLoss = s.route .logLoss := congrArg (fun v => v[Flag.logLoss.code.val]) hroutes
    rw [e, h.route]
  · rw [hlog]
    exact h.archive
  · rw [hlog]
    exact h.threshold
  · rw [hlog]
    have htail : s.log.ring.tail.map EventRecord.seq = List.range' (k + 1 + 1) 1023 := by
      rw [List.map_tail, h.seqs, List.range'_succ]
      rfl
    have hnew : (d.numbered s.log.next).seq = k + 1 + 1 + 1023 := h.next
    rw [show (1024 : Nat) = 1023 + 1 from rfl, List.range'_concat, ← htail, List.map_append]
    simp [hnew, u]
  · rw [hlog]
    show ((s.log.ring.head?).map EventRecord.seq).getD 0 = k + 1
    rw [hhead]
    rfl
  · rw [hlog]
    show seqSucc s.log.next = k + 1 + 1025
    rw [h.next]
    refine (if_neg ?_).trans (by omega)
    unfold Config.seqMax
    omega

/-- The chain handles them all, and each loses one record. -/
theorem Overrun.drain {m : Nat} (n : Nat) {k : Nat} {s : State} (h : Overrun m k s) (hm : m ≤ n)
    (hk : m + k + 1025 ≤ 4294967295) : Overrun 0 (k + m) (s.drain n) := by
  induction m generalizing n k s with
  | zero =>
    have hnil : s.raisings = [] := h.raisings
    cases n with
    | zero =>
      have e : ({ s with raisings := [] } : State) = s := by rw [← hnil]
      exact e ▸ h
    | succ n =>
      unfold State.drain
      rw [hnil]
      exact h
  | succ m ih =>
    obtain ⟨n, rfl⟩ : ∃ n', n = n' + 1 := ⟨n - 1, by omega⟩
    have hcons : s.raisings = plainRaising .logLoss :: List.replicate m (plainRaising .logLoss) := h.raisings
    have hstep := ih n (h.raise (by omega)) (by omega) (by omega)
    unfold State.drain
    rw [hcons, show k + (m + 1) = k + 1 + m by omega]
    exact hstep

/-! ### The state that refutes -/

/-- After reset with a full ring, an archive port, `n` raisings of LOG_LOSS waiting, and one command that does nothing else
than handle them. -/
def State.overrun (n : Nat) : State :=
  { State.reset with
    raisings := List.replicate n (plainRaising .logLoss)
    log :=
      { State.reset.log with
        ring := (List.range' 1 1024).map blankRecord, newest := 1024, next := 1025, archive := some 0
        threshold := 2000, confirmed := 0 }
    pending := [.frameEnd 0] }

theorem overrun_overrun (n : Nat) : Overrun n 0 (State.overrun n) where
  raisings := rfl
  route := (by decide : (State.reset.route .logLoss).enable = false)
  archive := rfl
  threshold := rfl
  seqs := by
    show ((List.range' 1 1024).map blankRecord).map EventRecord.seq = _
    rw [List.map_map]
    exact List.map_id _
  confirmed := rfl
  next := rfl

theorem recordInOrder_overrun (n : Nat) : (State.overrun n).RecordInOrder := by
  have hlast : (State.overrun n).log.ring.getLast? = some (blankRecord 1024) := by
    show ((List.range' 1 1024).map blankRecord).getLast? = _
    rw [List.getLast?_map, show (1024 : Nat) = 1023 + 1 from rfl, List.range'_concat, List.getLast?_concat]
    rfl
  refine ⟨Nat.le_of_eq (overrun_overrun n).length, ?_, ?_⟩
  · rw [(overrun_overrun n).seqs]
    exact consecutive_range' 1 1024 (by decide)
  · rw [hlast]
    exact ⟨rfl, rfl⟩

theorem step_overrun (n : Nat) : step (State.overrun n) = .next ({ State.overrun n with pending := [] } : State).settle := by
  have hlive : ({ State.overrun n with pending := [] } : State).inReset = false := rfl
  refine congrArg Host.Outcome.next ((live_of hlive _).trans ?_)
  rfl

/-- Refutes O57: no premise says that no raising waits. With 2^31 + 1 raisings of LOG_LOSS waiting, the one step that handles
them loses as many records, and record 1 then comes after the confirmed number. -/
theorem not_recordKept : ¬ Obligations.RecordKept := by
  intro h
  obtain ⟨n, hn⟩ : ∃ n : Nat, n = 2147483649 := ⟨_, rfl⟩
  have hstart := overrun_overrun n
  have hend : Overrun 0 (0 + n) (({ State.overrun n with pending := [] } : State).settle) := by
    refine Overrun.drain (m := n) _ ⟨hstart.raisings, hstart.route, hstart.archive, hstart.threshold, hstart.seqs,
      hstart.confirmed, hstart.next⟩ ?_ (by omega)
    show n ≤ 4 * (List.replicate n _).length + 64
    rw [List.length_replicate]
    omega
  have hmem : blankRecord 1 ∈ (State.overrun n).log.ring :=
    List.mem_map.mpr ⟨1, List.mem_range'_1.mpr (by omega), rfl⟩
  have hsmall : ∀ r ∈ (State.overrun n).log.ring, r.seq ≤ 4294967295 := by
    intro r hr
    have hs : r.seq ∈ List.range' 1 1024 := hstart.seqs ▸ List.mem_map_of_mem hr
    have := List.mem_range'_1.mp hs
    omega
  have hlost : blankRecord 1 ∉ (({ State.overrun n with pending := [] } : State).settle).log.ring := by
    intro hr
    have hs : (blankRecord 1).seq ∈ List.range' (0 + n + 1) 1024 := hend.seqs ▸ List.mem_map_of_mem hr
    have := (List.mem_range'_1.mp hs).1
    have e : (blankRecord 1).seq = 1 := rfl
    omega
  have hafter := (h _ _ (recordInOrder_overrun n) (step_overrun n)).2 hsmall
    (by rw [hend.archive]; exact Option.some_ne_none _) _ hmem hlost
  rw [hend.confirmed, hn] at hafter
  exact absurd hafter (by decide)

end Sys2Proof.Machine
end

section
/-! PROOFS. The Input Scanner and the Input Filter: samples, expiries and accepted changes (R115 to R126). -/

namespace Sys2Proof.Machine

/-! ### What the raisings of a command leave of the field path -/

section
variable (s : State)

theorem settle_inputs : s.settle.inputs = s.inputs := by
  have e := congrArg State.inputs (onlyEmits_settle s).rest
  exact e

theorem settle_pairTimers : s.settle.pairTimers = s.pairTimers := by
  have e := congrArg State.pairTimers (onlyEmits_settle s).rest
  exact e

theorem settle_changeQueue : s.settle.changeQueue = s.changeQueue := by
  have e := congrArg State.changeQueue (onlyEmits_settle s).rest
  exact e

theorem settle_link : s.settle.link = s.link := by
  have e := congrArg State.link (onlyEmits_settle s).rest
  exact e

theorem settle_inp (i : InputNo) : s.settle.inp i = s.inp i := by
  simp [State.inp, settle_inputs]

theorem settle_pairTimer (k : PairNo) : s.settle.pairTimer k = s.pairTimer k := by
  simp [State.pairTimer, settle_pairTimers]

theorem settle_unit (u : UnitNo) : s.settle.unit u = s.unit u := by
  simp [State.unit, settle_link]

end

/-! ### The expiries -/

theorem formQuality_pairTimers (s : State) (st : TimeStamp) (i : InputNo) :
    (s.formQuality st i).pairTimers = s.pairTimers := by
  have e := congrArg State.pairTimers (formQuality_rest s st i)
  exact e

theorem endChatter_pairTimers (s : State) (i : InputNo) : (s.endChatter i).pairTimers = s.pairTimers := by
  unfold State.endChatter
  rw [(queues_produce _ _ _ _).timers, formQuality_pairTimers]
  rfl

theorem becomeDiscrepant_pairTimers (s : State) (k : PairNo) :
    (s.becomeDiscrepant k).pairTimers = (s.setPairTimer k none).pairTimers := by
  unfold State.becomeDiscrepant
  rw [(queues_produce _ _ _ _).timers, (queues_produce _ _ _ _).timers, formQuality_pairTimers, formQuality_pairTimers]
  rfl

/-- Settles O11. -/
theorem chatterEnds : Obligations.ChatterEnds := by
  intro i s hlive hr htimer r quality ended entries
  obtain ⟨hinp, hentries, hfull, hnone⟩ := endChatter_spec s i
  have hfilters := filters_endChatter s i
  have hemits := hfilters.settled
  have htimers : (s.endChatter i).settle.pairTimers = s.pairTimers :=
    (settle_pairTimers _).trans (endChatter_pairTimers s i)
  refine ⟨(s.endChatter i).settle, congrArg Host.Outcome.next ((live_of hlive _).trans (if_pos htimer)), ?_, ?_,
    fun j hj => ?_, hentries.settled, fun h => settle_flagSet (hfull h), fun h => ?_⟩
  · rw [htimers] at hemits
    exact hemits
  · rw [settle_inp]
    exact hinp
  · rw [settle_inp]
    exact hfilters.off j hj
  · have hend := hnone (if_neg (not_not_intro h))
    have hraisings : (s.endChatter i).raisings = [] := by
      have e := congrArg State.raisings hend
      exact e.trans hr
    rw [settle_of_none hraisings]
    exact hend

/-- Every entry placed is one of those produced. -/
theorem EntriesProduced.more {s t : State} {es : List ChangeEntry} (h : EntriesProduced s t es) :
    ∃ more, t.changeQueue = s.changeQueue ++ more ∧ ∀ e ∈ more, e ∈ es :=
  ⟨_, h.1, fun _ he => (List.mem_filter.mp (List.mem_of_mem_take he)).1⟩

theorem mem_qualityEntry {r : InputRec} {i : InputNo} {q : InQuality} {st : TimeStamp} {e : ChangeEntry}
    (h : e ∈ qualityEntry r i q st) : e.kind = .quality ∧ e.stamp = st ∧ e.input = i := by
  unfold qualityEntry at h
  split at h
  · cases List.mem_singleton.mp h
    exact ⟨rfl, rfl, rfl⟩
  · cases h

/-- Settles O12. -/
theorem pairBecomesDiscrepant : Obligations.PairBecomesDiscrepant := by
  intro k s hlive hr htimer
  obtain ⟨hinp, hentries, hfull⟩ := becomeDiscrepant_spec s k
  have hfilters := filters_becomeDiscrepant s k
  have htimers (j : PairNo) : (s.becomeDiscrepant k).settle.pairTimer j = (s.setPairTimer k none).pairTimer j := by
    rw [settle_pairTimer]
    simp [State.pairTimer, becomeDiscrepant_pairTimers]
  refine ⟨(s.becomeDiscrepant k).settle, congrArg Host.Outcome.next ((live_of hlive _).trans (if_pos htimer)),
    hfilters.settled, ?_, fun j hj => ?_, fun i hi => ?_, fun i he ho => ?_, ?_, hentries.settled,
    fun h => settle_flagSet (hfull h)⟩
  · rw [htimers, State.pairTimer_setPairTimer_self]
  · rw [htimers, State.pairTimer_setPairTimer_of_ne _ _ hj]
  · rw [settle_inp]
    exact hinp i hi
  · rw [settle_inp]
    exact hfilters.off i (not_or.mpr ⟨he, ho⟩)
  · obtain ⟨more, hq, hm⟩ := hentries.settled.more
    refine ⟨more, hq, fun e he => ?_⟩
    obtain h | h := List.mem_append.mp (hm e he)
    · obtain ⟨h1, h2, h3⟩ := mem_qualityEntry h
      exact ⟨h1, h2, .inl h3⟩
    · obtain ⟨h1, h2, h3⟩ := mem_qualityEntry h
      exact ⟨h1, h2, .inr h3⟩

/-! ### A sample -/

theorem exec_sample {c : Instr} {l : LineNo} {level : Level} {s : State}
    (hc : c = .lineSample l level ∨ c = .qualifiedChange l level) (hlive : s.inReset = false) :
    exec c s = .next (s.sampleLine l level).settle := by
  obtain rfl | rfl := hc
  · exact congrArg Host.Outcome.next (live_of hlive _)
  · exact congrArg Host.Outcome.next (live_of hlive _)

theorem sampleLine_of_qualified {s : State} {l : LineNo} {level : Level} (h : level = (s.line l).qualified) :
    s.sampleLine l level = s.setLine l { raw := level, qualified := (s.line l).qualified, run := none } := if_pos h

theorem sampleLine_of_running {s : State} {l : LineNo} {level : Level} (h : level ≠ (s.line l).qualified) :
    s.sampleLine l level =
      let run := (s.line l).run.getD { stamp := s.now, since := s.elapsed }
      if s.debounceTime l ≤ (s.elapsed - run.since).toNat then
        (s.setLine l { raw := level, qualified := level, run := none }).acceptChange (lineInput l) level run.stamp
      else s.setLine l { raw := level, qualified := (s.line l).qualified, run := some run } := if_neg h

/-- Settles O9. -/
theorem sampleJudged : Obligations.SampleJudged := by
  intro c l level s hc hlive hr r run i
  have hexec := exec_sample hc hlive
  refine ⟨fun h => ?_, fun h hshort => ?_, fun h hlong => ?_⟩
  · rw [hexec, sampleLine_of_qualified h, settle_of_none]
    exact hr
  · rw [hexec, sampleLine_of_running h, if_neg (Nat.not_le.mpr hshort), settle_of_none]
    exact hr
  · rw [sampleLine_of_running h, if_pos hlong] at hexec
    let v := s.setLine l { raw := level, qualified := level, run := none }
    have hfilters := filters_acceptChange v i level run.stamp
    have hlevel := acceptChange_level v i level run.stamp
    obtain ⟨more, hq, hm⟩ := hfilters.queue
    refine ⟨(v.acceptChange i level run.stamp).settle, hexec, hfilters.settled, onlyEmits_settle _, ?_, ?_,
      fun j hi hp => ?_, more, ?_, hm⟩
    · rw [settle_inp]
      exact hlevel.1
    · rw [settle_inp]
      exact hlevel.2
    · rw [settle_inp]
      exact hfilters.off j (not_or.mpr ⟨hi, hp⟩)
    · rw [settle_changeQueue]
      exact hq

end Sys2Proof.Machine
end

section
/-! PROOFS. An accepted change in full (R117, R118, R120, R122 to R125). -/

namespace Sys2Proof.Machine

/-! ### Entries produced one after the other -/

/-- The raisings of a pass: one CHANGE_DEFERRED for each entry that finds the queue full (R125). -/
theorem raisings_pass (es : List ChangeEntry) (hn : (es.map ChangeEntry.input).Nodup) (s : State) :
    (es.foldl State.queueEntry s).raisings =
      s.raisings ++ (s.overflowing es).map fun _ => plainRaising .changeDeferred := by
  induction es generalizing s with
  | nil => simp [State.overflowing, State.reaching]
  | cons e es ih =>
    rw [List.map_cons, List.nodup_cons] at hn
    have hne : ∀ x ∈ es, x.input ≠ e.input := fun x hx h => hn.1 (List.mem_map.2 ⟨x, hx, h⟩)
    have hr : (s.queueEntry e).reaching es = s.reaching es :=
      reaching_congr (queueEntry_mode s e) fun x hx => queueEntry_inp_of_ne s e (hne x hx)
    rw [List.foldl_cons, ih hn.2, State.overflowing, State.overflowing, hr, reaching_cons]
    by_cases hp : s.mode = .config ∨ (s.inp e.input).deferred = true
    · rw [show s.queueEntry e = s from if_pos hp, if_pos hp]
    · rw [if_neg hp]
      by_cases hl : s.changeQueue.length < 128
      · have hq : s.queueEntry e = s.appendEntry e := (if_neg hp).trans (if_pos hl)
        obtain ⟨k, hk⟩ : ∃ k, 128 - s.changeQueue.length = k + 1 := ⟨127 - s.changeQueue.length, by omega⟩
        have hk' : 128 - (s.appendEntry e).changeQueue.length = k := by
          simp only [State.appendEntry, State.setInp, List.length_append, List.length_singleton]
          omega
        rw [hq, hk', hk, List.drop_succ_cons]
        rfl
      · have hq : s.queueEntry e = s.deferInput e.input := (if_neg hp).trans (if_neg hl)
        have h0 : 128 - s.changeQueue.length = 0 := by omega
        have h0' : 128 - (s.deferInput e.input).changeQueue.length = 0 := h0
        have hraise : (s.deferInput e.input).raisings = s.raisings ++ [plainRaising .changeDeferred] := rfl
        rw [hq, h0', h0, hraise]
        simp

/-- The entry of an input whose record was `r`, and whose level and reported quality are now these (R123). -/
def changeEntry (r : InputRec) (i : InputNo) (level : Level) (quality : InQuality) (stamp : TimeStamp) : List ChangeEntry :=
  if quality ≠ r.reported then [⟨.quality, i, level, quality, stamp, false⟩]
  else if quality = .good ∧ level ≠ r.level then [⟨.level, i, level, .good, stamp, false⟩]
  else []

theorem produce_eq (s : State) (r : InputRec) (i : InputNo) (stamp : TimeStamp) :
    s.produce r i stamp = (changeEntry r i (s.inp i).level (s.inp i).reported stamp).foldl State.queueEntry s := by
  unfold State.produce changeEntry State.entryOf
  dsimp only
  by_cases hq : (s.inp i).reported ≠ r.reported
  · rw [if_pos hq, if_pos hq]
    rfl
  · rw [if_neg hq, if_neg hq]
    by_cases hl : (s.inp i).reported = .good ∧ (s.inp i).level ≠ r.level
    · rw [if_pos hl, if_pos hl, hl.1]
      rfl
    · rw [if_neg hl, if_neg hl]
      rfl

theorem mem_changeEntry {r : InputRec} {i : InputNo} {l : Level} {q : InQuality} {st : TimeStamp} {e : ChangeEntry}
    (h : e ∈ changeEntry r i l q st) : e.input = i := by
  unfold changeEntry at h
  split at h
  · cases List.mem_singleton.mp h
    rfl
  · split at h
    · cases List.mem_singleton.mp h
      rfl
    · cases h

theorem changeEntry_sameLevel (r : InputRec) (i : InputNo) (q : InQuality) (st : TimeStamp) :
    changeEntry r i r.level q st = if q ≠ r.reported then [⟨.quality, i, r.level, q, st, false⟩] else [] := by
  unfold changeEntry
  rw [if_neg (fun h : q = .good ∧ r.level ≠ r.level => h.2 rfl)]

theorem nodup_changeEntry (r : InputRec) (i : InputNo) (l : Level) (q : InQuality) (st : TimeStamp) :
    ((changeEntry r i l q st).map ChangeEntry.input).Nodup := by
  unfold changeEntry
  split
  · exact List.nodup_singleton _
  · split
    · exact List.nodup_singleton _
    · exact List.nodup_nil

theorem nodup_changeEntries {r q : InputRec} {i j : InputNo} (h : i ≠ j) (l m : Level) (a b : InQuality) (st : TimeStamp) :
    ((changeEntry r i l a st ++ changeEntry q j m b st).map ChangeEntry.input).Nodup := by
  rw [List.map_append, List.nodup_append]
  refine ⟨nodup_changeEntry .., nodup_changeEntry .., fun x hx y hy => ?_⟩
  obtain ⟨e, he, rfl⟩ := List.mem_map.mp hx
  obtain ⟨e', he', rfl⟩ := List.mem_map.mp hy
  rw [mem_changeEntry he, mem_changeEntry he']
  exact h

theorem queues_pass (es : List ChangeEntry) (s : State) : Queues s (es.foldl State.queueEntry s) :=
  Queues.foldl queues_queueEntry es s

theorem pass_inp_of_ne {es : List ChangeEntry} {x : InputNo} (h : ∀ e ∈ es, x ≠ e.input) {s : State} :
    (es.foldl State.queueEntry s).inp x = s.inp x := by
  induction es generalizing s with
  | nil => rfl
  | cons e es ih =>
    rw [List.foldl_cons, ih fun y hy => h y (List.mem_cons_of_mem _ hy)]
    exact queueEntry_inp_of_ne s e (h e List.mem_cons_self)

theorem formedWith_eq (r : InputRec) (d : Bool) (stamp : TimeStamp) :
    r.formedWith d stamp =
      { r with
        discrepant := d, reported := qualityOf r.unitLost d r.chatterActive
        lastQualityChange := if qualityOf r.unitLost d r.chatterActive ≠ r.reported then some stamp
          else r.lastQualityChange } := by
  unfold InputRec.formedWith
  rw [ite_not]

/-- What a pass of entries leaves of the state. -/
theorem pass_rest (es : List ChangeEntry) (hn : (es.map ChangeEntry.input).Nodup) (s : State) :
    es.foldl State.queueEntry s =
      { s with
        inputs := (es.foldl State.queueEntry s).inputs, changeQueue := (es.foldl State.queueEntry s).changeQueue
        raisings := s.raisings ++ (s.overflowing es).map fun _ => plainRaising .changeDeferred } := by
  have hf : Filters s (es.foldl State.queueEntry s) (fun _ => True) :=
    Filters.foldl (fun s e _ => (filters_queueEntry s e).mono fun _ _ => trivial) s
  have h := hf.rest
  rw [(queues_pass es s).timers, raisings_pass es hn s] at h
  exact h

/-! ### The pair of an input -/

theorem partnerOf_ne (i : InputNo) : partnerOf i ≠ i := by
  intro h
  have hv : (partnerOf i).val = i.val := congrArg Fin.val h
  have hi := i.isLt
  unfold partnerOf at hv
  rw [Fin.val_ofNat] at hv
  split at hv <;> omega

/-- The pair of an input is the input and its partner, in one order or the other. -/
theorem pair_cases (i : InputNo) :
    evenInput (pairOf i) = i ∧ oddInput (pairOf i) = partnerOf i
      ∨ evenInput (pairOf i) = partnerOf i ∧ oddInput (pairOf i) = i := by
  have hne := evenInput_ne_oddInput (pairOf i)
  obtain he | he := evenInput_pairOf i <;> obtain ho | ho := oddInput_pairOf i
  · exact absurd (he.trans ho.symm) hne
  · exact .inl ⟨he, ho⟩
  · exact .inr ⟨he, ho⟩
  · exact absurd (he.trans ho.symm) hne

section
variable {s : State} {i : InputNo}

theorem pairLevels_iff : (s.inp (evenInput (pairOf i))).level = (s.inp (oddInput (pairOf i))).level ↔
    (s.inp i).level = (s.inp (partnerOf i)).level := by
  obtain ⟨he, ho⟩ | ⟨he, ho⟩ := pair_cases i
  · rw [he, ho]
  · rw [he, ho, eq_comm]

theorem inp_setDiscrepant (v : Bool) (x : InputNo) :
    (s.setDiscrepant (pairOf i) v).inp x =
      if x = i ∨ x = partnerOf i then { s.inp x with discrepant := v } else s.inp x := by
  have hne := partnerOf_ne i
  unfold State.setDiscrepant
  obtain ⟨he, ho⟩ | ⟨he, ho⟩ := pair_cases i <;>
  · rw [he, ho]
    simp only [State.inp_setInp]
    by_cases hi : x = i <;> by_cases hp : x = partnerOf i <;> simp_all

/-- A pair of equal levels starts its timer, and one that runs goes on (R120). -/
theorem pairTest_of_equal (h : (s.inp i).level = (s.inp (partnerOf i)).level) :
    s.pairTest (pairOf i) = s.setPairTimer (pairOf i) (some ((s.pairTimer (pairOf i)).getD s.settings.discrepancyMs)) := by
  unfold State.pairTest
  rw [if_pos (pairLevels_iff.mpr h)]
  cases ht : s.pairTimer (pairOf i) with
  | none => rfl
  | some n =>
    have hself : s.pairTimers.set (pairOf i).val (some n) = s.pairTimers := by
      rw [← ht]
      simp [State.pairTimer]
    exact (congrArg (fun v => ({ s with pairTimers := v } : State)) hself).symm

/-- A pair of different levels stops its timer, and neither of its records is discrepant (R120). -/
theorem pairTest_of_apart (h : (s.inp i).level ≠ (s.inp (partnerOf i)).level) :
    s.pairTest (pairOf i) = (s.setPairTimer (pairOf i) none).setDiscrepant (pairOf i) false :=
  if_neg (mt pairLevels_iff.mp h)

theorem pairTest_rest (k : PairNo) :
    s.pairTest k = { s with inputs := (s.pairTest k).inputs, pairTimers := (s.pairTest k).pairTimers } := by
  unfold State.pairTest
  split
  · cases s.pairTimer k <;> rfl
  · rfl

end

/-! ### The change -/

/-- The record of an input that has changed, before its pair is tested and its quality formed (R117, R118). -/
def State.changedRecord (s : State) (i : InputNo) (l : Level) (stamp : TimeStamp) : InputRec :=
  { s.inp i with level := l, lastChange := some stamp }.countChange s.settings s.elapsed

/-- The pair of the input is complementary, and its levels now differ. -/
abbrev State.SetsApart (s : State) (i : InputNo) (l : Level) : Prop :=
  s.paired (pairOf i) = true ∧ l ≠ (s.inp (partnerOf i)).level

/-- The state with the pair tested, if there is one, and the qualities formed (R120, R122). -/
def State.judged (s : State) (i : InputNo) (l : Level) (stamp : TimeStamp) : State :=
  let s1 := s.setInp i (s.changedRecord i l stamp)
  if s.paired (pairOf i) then
    ((s1.pairTest (pairOf i)).formQuality stamp i).formQuality stamp (partnerOf i)
  else s1.formQuality stamp i

section
variable {s : State} {i : InputNo} {l : Level} {stamp : TimeStamp}

theorem judged_of_single (h : s.paired (pairOf i) = false) :
    s.judged i l stamp = (s.setInp i (s.changedRecord i l stamp)).formQuality stamp i :=
  if_neg (by simp [h])

theorem judged_of_pair (h : s.paired (pairOf i) = true) :
    s.judged i l stamp =
      (((s.setInp i (s.changedRecord i l stamp)).pairTest (pairOf i)).formQuality stamp i).formQuality stamp
        (partnerOf i) :=
  if_pos h

theorem judged_rest : s.judged i l stamp =
    { s with inputs := (s.judged i l stamp).inputs, pairTimers := (s.judged i l stamp).pairTimers } := by
  unfold State.judged
  dsimp only
  split
  · rw [formQuality_rest, formQuality_rest, pairTest_rest]
    rfl
  · rw [formQuality_rest]
    rfl

theorem changed_levels :
    let s1 := s.setInp i (s.changedRecord i l stamp)
    ((s1.inp i).level = (s1.inp (partnerOf i)).level) = (l = (s.inp (partnerOf i)).level) := by
  intro s1
  rw [State.inp_setInp_self, State.inp_setInp_of_ne _ _ (partnerOf_ne i)]
  rfl

/-- The records after the pair test. -/
theorem inp_pairTest (h : s.paired (pairOf i) = true) (x : InputNo) :
    ((s.setInp i (s.changedRecord i l stamp)).pairTest (pairOf i)).inp x =
      if (x = i ∨ x = partnerOf i) ∧ s.SetsApart i l then
        { (s.setInp i (s.changedRecord i l stamp)).inp x with discrepant := false }
      else (s.setInp i (s.changedRecord i l stamp)).inp x := by
  have hl := changed_levels (s := s) (i := i) (l := l) (stamp := stamp)
  by_cases ha : l = (s.inp (partnerOf i)).level
  · rw [pairTest_of_equal (hl.mpr ha)]
    exact (if_neg fun hc => hc.2.2 ha).symm
  · rw [pairTest_of_apart (fun e => ha (hl.mp e)), inp_setDiscrepant]
    exact if_congr ⟨fun hx => ⟨hx, h, ha⟩, fun hx => hx.1⟩ rfl rfl

/-- What becomes of the mark of discrepancy (R120). -/
def State.discrepantAfter (s : State) (i : InputNo) (l : Level) (r : InputRec) : Bool :=
  if s.SetsApart i l then false else r.discrepant

theorem judged_inp_self : (s.judged i l stamp).inp i =
    (s.changedRecord i l stamp).formedWith (s.discrepantAfter i l (s.inp i)) stamp := by
  unfold State.discrepantAfter
  obtain h | h := Bool.dichotomy (s.paired (pairOf i))
  · rw [judged_of_single h, formQuality_inp, if_pos rfl, State.inp_setInp_self, if_neg (by simp [h])]
    rfl
  · rw [judged_of_pair h, formQuality_inp, if_neg (partnerOf_ne i).symm, formQuality_inp, if_pos rfl, inp_pairTest h,
      State.inp_setInp_self]
    by_cases ha : s.SetsApart i l
    · rw [if_pos ⟨.inl rfl, ha⟩, if_pos ha]
      rfl
    · rw [if_neg (fun hc => ha hc.2), if_neg ha]
      rfl

theorem judged_inp_partner (h : s.paired (pairOf i) = true) : (s.judged i l stamp).inp (partnerOf i) =
    (s.inp (partnerOf i)).formedWith (s.discrepantAfter i l (s.inp (partnerOf i))) stamp := by
  have hne := partnerOf_ne i
  unfold State.discrepantAfter
  rw [judged_of_pair h, formQuality_inp, if_pos rfl, formQuality_inp, if_neg hne, inp_pairTest h,
    State.inp_setInp_of_ne _ _ hne]
  by_cases ha : s.SetsApart i l
  · rw [if_pos ⟨.inr rfl, ha⟩, if_pos ha]
    rfl
  · rw [if_neg (fun hc => ha hc.2), if_neg ha]

theorem judged_inp_of_ne {x : InputNo} (hi : x ≠ i) (hp : s.paired (pairOf i) = true → x ≠ partnerOf i) :
    (s.judged i l stamp).inp x = s.inp x := by
  cases h : s.paired (pairOf i) with
  | false => rw [judged_of_single h, formQuality_inp, if_neg hi, State.inp_setInp_of_ne _ _ hi]
  | true =>
    rw [judged_of_pair h, formQuality_inp, if_neg (hp h), formQuality_inp, if_neg hi, inp_pairTest h,
      State.inp_setInp_of_ne _ _ hi]
    exact if_neg fun hc => hc.1.elim hi (hp h)

theorem judged_pairTimers : (s.judged i l stamp).pairTimers =
    if s.paired (pairOf i) = true then
      (s.setPairTimer (pairOf i) (if l = (s.inp (partnerOf i)).level then
        some ((s.pairTimer (pairOf i)).getD s.settings.discrepancyMs) else none)).pairTimers
    else s.pairTimers := by
  have hl := changed_levels (s := s) (i := i) (l := l) (stamp := stamp)
  cases h : s.paired (pairOf i) with
  | false =>
    rw [judged_of_single h, formQuality_pairTimers]
    rfl
  | true =>
    rw [judged_of_pair h, formQuality_pairTimers, formQuality_pairTimers, if_pos rfl]
    by_cases ha : l = (s.inp (partnerOf i)).level
    · rw [pairTest_of_equal (hl.mpr ha), if_pos ha]
      rfl
    · rw [pairTest_of_apart (fun e => ha (hl.mp e)), if_neg ha]
      rfl

/-- The entries of the change: the input's own, and its partner's. -/
def State.changeEntries (s : State) (i : InputNo) (l : Level) (stamp : TimeStamp) : List ChangeEntry :=
  let q := s.inp (partnerOf i)
  changeEntry (s.inp i) i l ((s.judged i l stamp).inp i).reported stamp
    ++ if s.paired (pairOf i) = true then
      changeEntry q (partnerOf i) q.level ((s.judged i l stamp).inp (partnerOf i)).reported stamp else []

theorem acceptChange_eq : s.acceptChange i l stamp =
    (s.changeEntries i l stamp).foldl State.queueEntry (s.judged i l stamp) := by
  have hself : ((s.judged i l stamp).inp i).level = l := by
    rw [judged_inp_self]
    rfl
  unfold State.changeEntries
  dsimp only
  cases h : s.paired (pairOf i) with
  | false =>
    have hacc : s.acceptChange i l stamp = (s.judged i l stamp).produce (s.inp i) i stamp := by
      rw [judged_of_single h]
      exact if_neg (by simp [h])
    rw [hacc, produce_eq, hself]
    simp
  | true =>
    have hacc : s.acceptChange i l stamp =
        ((s.judged i l stamp).produce (s.inp i) i stamp).produce (s.inp (partnerOf i)) (partnerOf i) stamp := by
      rw [judged_of_pair h]
      exact if_pos h
    have hq := queues_produce (s.judged i l stamp) (s.inp i) i stamp
    have hpartner : ((s.judged i l stamp).inp (partnerOf i)).level = (s.inp (partnerOf i)).level := by
      rw [judged_inp_partner h]
      rfl
    rw [hacc, produce_eq _ _ (partnerOf i), hq.level, hq.reported, hpartner, produce_eq, hself, ← List.foldl_append,
      if_pos rfl]

theorem nodup_changeEntries_input : ((s.changeEntries i l stamp).map ChangeEntry.input).Nodup := by
  unfold State.changeEntries
  dsimp only
  split
  · exact nodup_changeEntries (partnerOf_ne i).symm ..
  · rw [List.append_nil]
    exact nodup_changeEntry ..

theorem queued_judged (j : InputNo) :
    ((s.judged i l stamp).inp j).queuedLevel = (s.inp j).queuedLevel
      ∧ ((s.judged i l stamp).inp j).queuedQuality = (s.inp j).queuedQuality
      ∧ ((s.judged i l stamp).inp j).deferred = (s.inp j).deferred := by
  by_cases hi : j = i
  · subst hi
    rw [judged_inp_self]
    exact ⟨rfl, rfl, rfl⟩
  · by_cases hp : s.paired (pairOf i) = true ∧ j = partnerOf i
    · obtain ⟨h, rfl⟩ := hp
      rw [judged_inp_partner h]
      exact ⟨rfl, rfl, rfl⟩
    · rw [judged_inp_of_ne hi fun h e => hp ⟨h, e⟩]
      exact ⟨rfl, rfl, rfl⟩

end

/-- Settles O10: the records and timers are those of the pair test and the forming of qualities; the entries are one pass. -/
theorem changeAccepted : Obligations.ChangeAccepted := by
  intro s i l stamp r j q k kept grown history active apart discrepant quality partnerDiscrepant partnerQuality own partner t
  let m := s.judged i l stamp
  let es := s.changeEntries i l stamp
  have ht : t = es.foldl State.queueEntry m := acceptChange_eq
  have hqueues : Queues m t := ht ▸ queues_pass es m
  have hself : m.inp i = (s.changedRecord i l stamp).formedWith discrepant stamp := judged_inp_self
  have hpartner (h : s.paired k = true) : m.inp j = q.formedWith partnerDiscrepant stamp := judged_inp_partner h
  have hes : es = own ++ partner := by
    have hown : changeEntry r i l (m.inp i).reported stamp = own := by
      rw [hself]
      rfl
    have hother : (if s.paired k = true then changeEntry q j q.level (m.inp j).reported stamp else []) = partner := by
      by_cases h : s.paired k = true
      · rw [if_pos h, hpartner h]
        exact (changeEntry_sameLevel q j _ stamp).trans (if_congr (by simp [h]; rfl) rfl rfl)
      · exact (if_neg h).trans (if_neg fun hc => h hc.1).symm
    exact congrArg₂ (· ++ ·) hown hother
  have hmode : m.mode = s.mode := by
    have e := congrArg State.mode (judged_rest (s := s) (i := i) (l := l) (stamp := stamp))
    exact e
  have hqueue : m.changeQueue = s.changeQueue := by
    have e := congrArg State.changeQueue (judged_rest (s := s) (i := i) (l := l) (stamp := stamp))
    exact e
  have hraisings : m.raisings = s.raisings := by
    have e := congrArg State.raisings (judged_rest (s := s) (i := i) (l := l) (stamp := stamp))
    exact e
  have htimers (x : PairNo) : t.pairTimer x = m.pairTimer x := by simp [State.pairTimer, hqueues.timers]
  obtain ⟨hproduced, hover⟩ := EntriesProduced.congr (s := s) (entriesProduced_pass es nodup_changeEntries_input m) hmode
    hqueue queued_judged
  rw [← ht] at hproduced
  rw [hes] at hproduced hover
  have hinput (e : ChangeEntry) (he : e ∈ es) : e.input = i ∨ s.paired k = true ∧ e.input = j := by
    obtain h | h := List.mem_append.mp he
    · exact .inl (mem_changeEntry h)
    · by_cases hp : s.paired k = true
      · rw [if_pos hp] at h
        exact .inr ⟨hp, mem_changeEntry h⟩
      · rw [if_neg hp] at h
        cases h
  refine ⟨?_, fun h => ?_, fun x hi hj => ?_, fun h ha => ?_, fun h ha => ?_, fun x hx => ?_, hproduced, ?_⟩
  · refine (hqueues.inp i).trans ?_
    rw [hself, formedWith_eq]
    rfl
  · refine (hqueues.inp j).trans ?_
    rw [hpartner h, formedWith_eq]
  · have hx : ∀ e ∈ es, x ≠ e.input := by
      intro e he hxe
      obtain h | ⟨hp, h⟩ := hinput e he
      · exact hi (hxe.trans h)
      · exact hj hp (hxe.trans h)
    rw [ht, pass_inp_of_ne hx]
    exact judged_inp_of_ne hi hj
  · rw [htimers, State.pairTimer, judged_pairTimers, if_pos h, if_neg ha]
    exact State.pairTimer_setPairTimer_self ..
  · rw [htimers, State.pairTimer, judged_pairTimers, if_pos h, if_pos ha]
    exact State.pairTimer_setPairTimer_self ..
  · rw [htimers, State.pairTimer, judged_pairTimers]
    by_cases h : s.paired k = true
    · have hne : x ≠ k := hx.resolve_right (by simp [h])
      rw [if_pos h]
      exact State.pairTimer_setPairTimer_of_ne _ _ hne
    · rw [if_neg h]
      rfl
  · have hrest := pass_rest es nodup_changeEntries_input m
    rw [← ht, hraisings, hes, hover] at hrest
    have hm := judged_rest (s := s) (i := i) (l := l) (stamp := stamp)
    calc t = { m with
            inputs := t.inputs, changeQueue := t.changeQueue
            raisings := s.raisings ++ (s.overflowing (own ++ partner)).map fun _ => plainRaising .changeDeferred } := hrest
      _ = { s with
            inputs := t.inputs, pairTimers := m.pairTimers, changeQueue := t.changeQueue
            raisings := s.raisings ++ (s.overflowing (own ++ partner)).map fun _ => plainRaising .changeDeferred } := by
        rw [show m = _ from hm]
      _ = _ := by rw [← hqueues.timers]

end Sys2Proof.Machine
end

section
/-! PROOFS. Change entries that are set aside at the Point Engine (R126, R133, R135, R136). -/

namespace Sys2Proof.Machine

/-! ### The entry taken -/

/-- A catch-up is judged by the input records and the change queue that it leaves. -/
theorem CaughtUp.congr {s t u : State} (h : CaughtUp s t) (hi : u.inputs = t.inputs) (hq : u.changeQueue = t.changeQueue) :
    CaughtUp s u := by
  have hinp (i : InputNo) : u.inp i = t.inp i := by simp [State.inp, hi]
  obtain ⟨served, h1, h2, h3, h4, h5, h6, h7, h8⟩ := h
  refine ⟨served, h1, h2, h3, hq.trans h4, fun i hs => (hinp i).trans (h5 i hs), fun i hs => (hinp i).trans (h6 i hs), h7, ?_⟩
  rintro ⟨i, hd⟩
  rw [hq]
  exact h8 ⟨i, by rw [← hinp]; exact hd⟩

/-- What the Point Engine does with an entry of its kind. -/
def State.handleEntry (s : State) (e : ChangeEntry) : State :=
  if e.kind = .level then s.handleLevel e else s.handleQuality e

/-- The state on which an entry is handled: its place freed and caught up. -/
theorem freed_caughtUp {s : State} (rest : List ChangeEntry) :
    ∃ inputs queue, s.freed rest = { s with inputs := inputs, changeQueue := queue }
      ∧ CaughtUp { s with changeQueue := rest } { s with inputs := inputs, changeQueue := queue } := by
  obtain ⟨more, hf⟩ := freed_eq s rest
  have hc : CaughtUp { s with changeQueue := rest } (s.freed rest) := caughtUp_catchUp _
  rw [hf] at hc
  exact ⟨_, _, hf, hc⟩

theorem exec_entry {s : State} {e : ChangeEntry} {rest : List ChangeEntry} (hlive : s.inReset = false) (hm : s.mode = .run)
    (hq : s.changeQueue = e :: rest) :
    exec (if e.kind = .level then .levelEntry else .qualityEntry) s =
      .next (if s.unfitted e.input then s.freed rest else (s.freed rest).handleEntry e).settle := by
  unfold State.handleEntry
  by_cases hk : e.kind = .level
  · rw [if_pos hk, if_pos hk]
    refine congrArg Host.Outcome.next ((live_of hlive _).trans ?_)
    exact hk ▸ takeEntry_eq hq hm fun e t => t.handleLevel e
  · have hk' : e.kind = .quality := by
      cases h : e.kind with
      | level => exact absurd h hk
      | quality => rfl
    rw [if_neg hk, if_neg hk]
    refine congrArg Host.Outcome.next ((live_of hlive _).trans ?_)
    exact hk' ▸ takeEntry_eq hq hm fun e t => t.handleQuality e

/-! ### The entry handled -/

theorem handleLevel_of_unmapped {s : State} {e : ChangeEntry} (h : (s.ent e.input).valid = false) :
    s.handleLevel e =
      ((({ s with inputCapture := s.inputLoaded e } : State).append false (inputDraft e none .unmapped none)).handOn
        { plainRaising .unmappedInput with input := some e.input }).lockInput := by
  unfold State.handleLevel
  dsimp only
  rw [if_neg (by simp [h]), if_neg (by simp [h]), loadInput_eq, recordInput_eq]

theorem handleLevel_of_trap {s : State} {e : ChangeEntry} (h : (s.ent e.input).valid = true)
    (ht : (s.ent e.input).trap = true) :
    s.handleLevel e =
      (((({ s with inputCapture := s.inputLoaded e } : State).setEnt e.input
        { s.ent e.input with appliedLevel := e.level }).append false
          (inputDraft e (some (s.ent e.input).appliedLevel) .trap (s.ent e.input).point)).handOn
        { plainRaising .inputTrap with input := some e.input }).lockInput := by
  unfold State.handleLevel
  dsimp only
  rw [if_neg (by simp [ht]), if_pos h, loadInput_eq, recordInput_eq]

theorem handleQuality_of_unmapped {s : State} {e : ChangeEntry} (h : (s.ent e.input).valid = false) :
    s.handleQuality e = s := by
  unfold State.handleQuality
  dsimp only
  rw [if_neg (by simp [h]), if_neg (by simp [h])]

theorem handleQuality_of_trap {s : State} {e : ChangeEntry} (h : (s.ent e.input).valid = true)
    (ht : (s.ent e.input).trap = true) :
    s.handleQuality e =
      s.setEnt e.input { s.ent e.input with appliedLevel := e.level, appliedQuality := e.quality } := by
  unfold State.handleQuality
  dsimp only
  rw [if_neg (by simp [ht]), if_pos h]

theorem engineSide_handleEntry (s : State) (e : ChangeEntry) : EngineSide s (s.handleEntry e) := by
  unfold State.handleEntry
  split
  · exact engineSide_handleLevel s e
  · exact engineSide_handleQuality s e

/-- An entry handled, with the raisings behind it, leaves the field path as it finds it. -/
theorem handled_field (s : State) (e : ChangeEntry) :
    (s.handleEntry e).settle.inputs = s.inputs ∧ (s.handleEntry e).settle.changeQueue = s.changeQueue := by
  have h := (engineSide_handleEntry s e).rest
  have hi := congrArg State.inputs h
  have hq := congrArg State.changeQueue h
  exact ⟨(settle_inputs _).trans hi, (settle_changeQueue _).trans hq⟩

/-- Settles O13. -/
theorem entrySetAside : Obligations.EntrySetAside := by
  intro s e rest hlive hr hm hq hb m
  obtain ⟨inputs, queue, hfreed, hcaught⟩ := freed_caughtUp (s := s) rest
  have hexec := exec_entry hlive hm hq
  rw [hfreed] at hexec
  let v : State := { s with inputs := inputs, changeQueue := queue }
  by_cases hu : s.unfitted e.input = true
  · rw [if_pos hu, settle_of_none (s := v) hr] at hexec
    have hno {P : Prop} (h : s.unfitted e.input = false) : P := by rw [hu] at h; cases h
    exact ⟨v, hexec, hcaught, fun _ => rfl, fun _ h => hno h, fun _ h => hno h, fun _ h => hno h, fun _ h => hno h⟩
  · rw [if_neg hu] at hexec
    have hno {P : Prop} (h : s.unfitted e.input = true) : P := absurd h hu
    obtain ⟨hi, hc⟩ := handled_field v e
    refine ⟨(v.handleEntry e).settle, hexec, hcaught.congr hi hc, fun h => hno h, fun hk _ hv => ?_, fun hk _ hv ht => ?_,
      fun hk _ hv => ?_, fun hk _ hv ht => ?_⟩
    all_goals rw [hi, hc]
    · rw [show v.handleEntry e = v.handleLevel e from if_pos hk, handleLevel_of_unmapped (s := v) hv]
      exact lockedOut (s := s) (u := { v with inputCapture := s.inputLoaded e }) e .unmappedInput (inputDraft e none .unmapped none) rfl ⟨nofun, nofun⟩ hr rfl rfl rfl hb
    · rw [show v.handleEntry e = v.handleLevel e from if_pos hk, handleLevel_of_trap (s := v) hv ht]
      exact lockedOut (s := s)
        (u := ({ v with inputCapture := s.inputLoaded e } : State).setEnt e.input { m with appliedLevel := e.level }) e .inputTrap (inputDraft e (some m.appliedLevel) .trap m.point) rfl ⟨nofun, nofun⟩ hr rfl
        rfl rfl hb
    · have hne : e.kind ≠ .level := by rw [hk]; nofun
      rw [show v.handleEntry e = v.handleQuality e from if_neg hne, handleQuality_of_unmapped (s := v) hv,
        settle_of_none (s := v) hr]
    · have hne : e.kind ≠ .level := by rw [hk]; nofun
      rw [show v.handleEntry e = v.handleQuality e from if_neg hne, handleQuality_of_trap (s := v) hv ht, settle_of_none]
      · rfl
      · exact hr

end Sys2Proof.Machine
end

section
/-! PROOFS. The audible request follows the entries into ALERT (R24), as a change is carried up a parent chain. -/

namespace Sys2Proof.Machine

theorem Moves.qualifies {s t : State} {P S : PointNo → Prop} (h : Moves s t P S) (k : PClass) :
    t.qualifies k = s.qualifies k := by
  have e := congrArg State.audibleThreshold h.emits.rest
  have e' : t.audibleThreshold = s.audibleThreshold := e
  simp [State.qualifies, e']

theorem Moves.cls {s t : State} {P S : PointNo → Prop} (h : Moves s t P S) (q : PointNo) :
    (t.pt q).cls = (s.pt q).cls := congrArg PointConfig.cls (h.config q)

/-! ### At one point -/

/-- From `s` to `t` point `p` has neither changed its sequence state nor its service, and the audible request stays. -/
structure Still (s t : State) (p : PointNo) : Prop where
  seqState : (t.pt p).seqState = (s.pt p).seqState
  service : (t.pt p).service = (s.pt p).service
  request : t.audibleRequest = s.audibleRequest

/-- From `s` to `t` point `p` keeps its service, and its entry into ALERT alone has set the audible request. -/
structure Rings (s t : State) (p : PointNo) : Prop where
  service : (t.pt p).service = (s.pt p).service
  request : t.audibleRequest =
    (s.audibleRequest || decide ((s.pt p).service = .inService ∧ (t.pt p).seqState = .alert
      ∧ (s.pt p).seqState ≠ .alert) && s.qualifies (s.pt p).cls)

section
variable {s t u : State} {p : PointNo} {S S' : PointNo → Prop} (c : Claim) (cause : Cause)

theorem Still.refl (s : State) (p : PointNo) : Still s s p := ⟨rfl, rfl, rfl⟩

theorem Still.ite {b : Prop} [Decidable b] (h : Still s t p) (k : Still s u p) : Still s (if b then t else u) p := by
  split
  · exact h
  · exact k

theorem Still.rings (h : Still s t p) : Rings s t p := by
  refine ⟨h.service, ?_⟩
  rw [h.request, h.seqState, decide_eq_false (fun hc => hc.2.2 hc.2.1)]
  simp

/-- A step that keeps the point still, and then one at which it may ring. -/
theorem Still.then_rings (m : Moves s t (· = p) S) (h : Still s t p) (k : Rings t u p) : Rings s u p := by
  refine ⟨k.service.trans h.service, ?_⟩
  rw [k.request, h.request, h.service, h.seqState, m.qualifies, m.cls]

/-- A step at which the point may ring, and then one that keeps it still. -/
theorem Rings.then_still (h : Rings s t p) (k : Still t u p) : Rings s u p := by
  refine ⟨k.service.trans h.service, ?_⟩
  rw [k.request, h.request, k.seqState]

theorem still_emitPoint (b : RecordBody) : Still s (s.emitPoint c p cause b) p := by
  refine ⟨?_, ?_, audibleRequest_emitPoint ..⟩
  · rw [emitPoint_pt_self]
  · rw [emitPoint_pt_self]

theorem still_recordQuality (q : PointQuality) : Still s (s.recordQuality c p cause q) p := by
  refine ⟨?_, ?_, audibleRequest_recordQuality ..⟩
  · rw [recordQuality_pt_self]
  · rw [recordQuality_pt_self]

theorem still_setFirstMember (m : Option PointNo) : Still s (s.setFirstMember c p m) p := by
  refine ⟨?_, ?_, audibleRequest_emitPoint ..⟩
  · rw [setFirstMember_pt_self]
  · rw [setFirstMember_pt_self]

theorem still_clearFirstMember : Still s (s.clearFirstMember c p) p :=
  .ite (still_setFirstMember c none) (.refl s p)

theorem rings_transition (st : SeqState) : Rings s (s.transition c p cause st) p := by
  refine ⟨?_, ?_⟩
  · rw [transition_pt_self]
  · rw [audibleRequest_transition, transition_pt_self]

theorem rings_recordCondition (cond : Condition) : Rings s (s.recordCondition c p cause cond) p := by
  rw [recordCondition_eq]
  cases hd : (s.pt p).driven cond with
  | none =>
    refine Still.rings (.ite (.refl s p) ⟨?_, ?_, rfl⟩)
    · rw [State.pt_setPt_self]
    · rw [State.pt_setPt_self]
  | some st =>
    have hstill : Still s (s.setPt p { s.pt p with condition := cond }) p := by
      refine ⟨?_, ?_, rfl⟩
      · rw [State.pt_setPt_self]
      · rw [State.pt_setPt_self]
    have hm : Moves s (s.setPt p { s.pt p with condition := cond }) (· = p) (fun _ => False) :=
      moves_setPt rfl fun _ => ⟨rfl, rfl⟩
    exact hstill.then_rings hm (rings_transition c cause st)

theorem rings_reevalField : Rings s (s.reevalField c p cause) p := by
  have h := still_recordQuality (s := s) (p := p) c cause (s.fieldQuality p)
  have m := moves_recordQuality (S := fun _ => False) s c p cause (s.fieldQuality p)
  unfold State.reevalField
  dsimp only
  split
  · exact h.then_rings m (rings_recordCondition c _ _)
  · exact h.rings

theorem rings_reevalGroup (child : Option PointNo) : Rings s (s.reevalGroup c p child cause) p := by
  have h := still_recordQuality (s := s) (p := p) c cause (s.groupQuality p)
  have m := moves_recordQuality (S := fun _ => False) s c p cause (s.groupQuality p)
  have k := h.then_rings m (rings_recordCondition c cause ((s.recordQuality c p cause (s.groupQuality p)).groupCondition p))
  unfold State.reevalGroup
  dsimp only
  cases child with
  | none => exact k.then_still (still_clearFirstMember c)
  | some x => exact k.then_still (.ite (still_setFirstMember c (some x)) (still_clearFirstMember c))

end

/-! ### Along a chain -/

/-- From `s` to `t` the audible request follows the entries into ALERT, and none but a point of `P` has set it. -/
structure Sounds (s t : State) (P : PointNo → Prop) : Prop where
  alert : ∀ x, (t.pt x).seqState = .alert → (s.pt x).seqState ≠ .alert → (t.pt x).service = .inService →
    s.qualifies (t.pt x).cls = true → t.audibleRequest = true
  request : t.audibleRequest = true → s.audibleRequest = true
    ∨ ∃ x, P x ∧ (t.pt x).seqState = .alert ∧ (t.pt x).service = .inService ∧ s.qualifies (t.pt x).cls = true

section
variable {s t u : State} {p : PointNo} {P Q S S' : PointNo → Prop}

theorem Sounds.refl (s : State) (P : PointNo → Prop) : Sounds s s P :=
  ⟨fun _ h h' => absurd h h', fun h => .inl h⟩

theorem Sounds.mono (h : Sounds s t P) (hP : ∀ x, P x → Q x) : Sounds s t Q :=
  ⟨h.alert, fun ha => (h.request ha).imp_right fun ⟨x, hx, hr⟩ => ⟨x, hP x hx, hr⟩⟩

theorem Sounds.alertsAudibly (h : Sounds s t P) : AlertsAudibly s t :=
  ⟨h.alert, fun ha => (h.request ha).imp_right fun ⟨x, _, hr⟩ => ⟨x, hr⟩⟩

theorem Rings.sounds (m : Moves s t (· = p) S) (h : Rings s t p) : Sounds s t (· = p) := by
  refine ⟨fun x ha hn hv hq => ?_, fun ha => ?_⟩
  · by_cases hx : x = p
    · subst hx
      rw [h.service] at hv
      rw [m.cls] at hq
      rw [h.request, decide_eq_true ⟨hv, ha, hn⟩, hq]
      simp
    · rw [m.off x hx] at ha
      exact absurd ha hn
  · rw [h.request, Bool.or_eq_true, Bool.and_eq_true, decide_eq_true_eq] at ha
    obtain ha | ⟨⟨hv, ha, -⟩, hq⟩ := ha
    · exact .inl ha
    · exact .inr ⟨p, rfl, ha, h.service.trans hv, by rw [m.cls]; exact hq⟩

/-- Two steps that move different points. -/
theorem Sounds.trans (m : Moves s t P S) (h : Sounds s t P) (n : Moves t u Q S') (k : Sounds t u Q)
    (hd : ∀ x, P x → ¬ Q x) : Sounds s u (fun x => P x ∨ Q x) := by
  refine ⟨fun x ha hn hv hq => ?_, fun ha => ?_⟩
  · by_cases hx : Q x
    · have hp : ¬ P x := fun hp => hd x hp hx
      rw [← m.off x hp] at hn
      exact k.alert x ha hn hv (by rw [m.qualifies]; exact hq)
    · rw [n.off x hx] at ha hv hq
      exact n.request (h.alert x ha hn hv hq)
  · obtain ha | ⟨x, hx, h1, h2, h3⟩ := k.request ha
    · obtain ha | ⟨x, hx, h1, h2, h3⟩ := h.request ha
      · exact .inl ha
      · refine .inr ⟨x, .inl hx, ?_⟩
        rw [n.off x (hd x hx)]
        exact ⟨h1, h2, h3⟩
    · exact .inr ⟨x, .inr hx, h1, h2, by rw [← m.qualifies]; exact h3⟩

/-- A change carried up a chain of at most `n` links. -/
theorem sounds_propagate (n : Nat) (c : Claim) (p : PointNo) (s : State) (hd : s.depth (n + 1) p ≤ n) :
    Sounds s (s.propagate n c p) (fun q => s.Above n q p) := by
  induction n generalizing p s with
  | zero => exact .refl _ _
  | succ n ih =>
    unfold State.propagate
    split
    · exact .refl _ _
    · next g hg =>
      split
      · next hk =>
        have hdg : s.depth (n + 1) g ≤ n := by
          rw [State.depth, hg] at hd
          simpa using hd
        have hm : Moves s (s.reevalGroup c g (some p) .member) (· = g) (fun _ => False) := moves_reevalGroup _ _ _ _ _
        have hr := (rings_reevalGroup (s := s) (p := g) c .member (some p)).sounds hm
        have hself (q : PointNo) (hq : q = g) : s.Above (n + 1) q p := ⟨n, g, rfl, hg, by rw [hq]; exact onChain_self s n g⟩
        dsimp only
        split
        · have hdt : (s.reevalGroup c g (some p) .member).depth (n + 1) g ≤ n := by rw [hm.depth]; exact hdg
          have hn := moves_propagate (S := fun _ => False) n c g (s.reevalGroup c g (some p) .member)
          have hd' (x : PointNo) (hx : x = g) : ¬ (s.reevalGroup c g (some p) .member).Above n x g := by
            rw [hx]
            exact not_above_of_depth hdt
          refine (Sounds.trans hm hr hn (ih g _ hdt) hd').mono fun x hx => ?_
          obtain hx | ⟨m, a, rfl, ha, hc⟩ := hx
          · exact hself x hx
          · rw [hm.parent] at ha
            rw [hm.onChain] at hc
            refine ⟨m + 1, g, rfl, hg, ?_⟩
            rw [onChain_iff] at hc ⊢
            obtain ⟨k, hk, hc⟩ := hc
            exact ⟨k + 1, by omega, ancestor_succ.mpr ⟨a, ha, hc⟩⟩
        · exact hr.mono hself
      · exact .refl _ _

theorem sounds_carryUp (c : Claim) (hd : s.depth 4 p ≤ 3) : Sounds s (s.carryUp c p) (fun q => s.Above Config.maxLinks q p) :=
  sounds_propagate Config.maxLinks c p s hd

/-- A step at one point whose change is carried up. -/
theorem Sounds.carried (m : Moves s t (· = p) S) (h : Sounds s t (· = p)) (c : Claim) (hd : s.depth 4 p ≤ 3) :
    Sounds s (t.carryUp c p) (fun _ => True) := by
  have hdt : t.depth 4 p ≤ 3 := by rw [m.depth]; exact hd
  refine (Sounds.trans m h (moves_carryUp (S := fun _ => False) c p t) (sounds_carryUp c hdt) fun x hx => ?_).mono
    fun _ _ => trivial
  rw [hx]
  exact not_above_self hdt

theorem sounds_reevaluate (c : Claim) (cause : Cause) (hd : s.depth 4 p ≤ 3) :
    Sounds s (s.reevaluate c p cause) (fun _ => True) := by
  have h (t : State) (m : Moves s t (· = p) (fun _ => False)) (k : Rings s t p) :
      Sounds s (if changedBetween s t p then t.carryUp c p else t) (fun _ => True) := by
    split
    · exact (k.sounds m).carried m c hd
    · exact (k.sounds m).mono fun _ _ => trivial
  unfold State.reevaluate
  cases (s.pt p).kind with
  | field => exact h _ (moves_reevalField ..) (rings_reevalField c cause)
  | group => exact h _ (moves_reevalGroup ..) (rings_reevalGroup c cause none)
  | spare => exact h s (.refl ..) (Still.refl s p).rings

/-- The raisings of a command neither move a point nor touch the audible request. -/
theorem settle_points (s : State) : s.settle.points = s.points := by
  have e := congrArg State.points (onlyEmits_settle s).rest
  exact e

theorem settle_audibleRequest (s : State) : s.settle.audibleRequest = s.audibleRequest := by
  have e := congrArg State.audibleRequest (onlyEmits_settle s).rest
  exact e

theorem settle_map (s : State) : s.settle.map = s.map := by
  have e := congrArg State.map (onlyEmits_settle s).rest
  exact e

theorem AlertsAudibly.congr (h : AlertsAudibly s t) (hp : u.points = t.points) (ha : u.audibleRequest = t.audibleRequest) :
    AlertsAudibly s u := by
  have hpt (x : PointNo) : u.pt x = t.pt x := by simp [State.pt, hp]
  unfold AlertsAudibly
  simp only [hpt, ha]
  exact h

end

end Sys2Proof.Machine
end

section
/-! PROOFS. Change entries applied to a FIELD point (R134, R136, R6, R12). -/

namespace Sys2Proof.Machine

/-! ### Through what emits alone -/

section
variable {b s t u : State} {p : PointNo}

theorem pt_congr (h : t.points = s.points) (x : PointNo) : t.pt x = s.pt x := by simp [State.pt, h]

theorem OnlyEmits.setPoints (h : OnlyEmits s t) (a : Vector PointRec 256) (r : Bool) :
    OnlyEmits { s with points := a, audibleRequest := r } { t with points := a, audibleRequest := r } := by
  refine ⟨?_, h.ports, h.arbiters, h.busy, h.flags, h.archive, h.threshold⟩
  have e := congrArg (fun y : State => { y with points := a, audibleRequest := r }) h.rest
  exact e

theorem onChain_congr (h : t.points = s.points) (q : PointNo) (n : Nat) (x : PointNo) : t.onChain q n x = s.onChain q n x := by
  induction n generalizing x with
  | zero => rfl
  | succ n ih =>
    unfold State.onChain
    rw [pt_congr h]
    cases (s.pt x).parent with
    | none => rfl
    | some g => simp only [ih]

/-- A change of point `p`, with what emits alone before it and behind it. -/
theorem OnlyMoves.between (h0 : OnlyEmits b s) (h : OnlyMoves s t p) (h1 : OnlyEmits t u) : OnlyMoves b u p := by
  have hb := h0.points
  have hu := h1.points
  have hur := h1.audibleRequest
  refine ⟨?_, fun q hq => ?_, fun q => ?_, fun q hq => ?_, fun hr => ?_⟩
  · rw [hu, hur]
    exact ((h0.setPoints t.points t.audibleRequest).trans h.emits).trans h1
  · rw [← onChain_congr hb] at hq
    rw [pt_congr hu, h.offChain q hq, pt_congr hb]
  · rw [pt_congr hu, h.config, pt_congr hb]
  · rw [pt_congr hu, ← pt_congr hb]
    exact h.service q hq
  · rw [hur]
    exact h.request (h0.audibleRequest.trans hr)

theorem OnlyMoves.of_emits (h : OnlyEmits s t) (p : PointNo) : OnlyMoves s t p := by
  refine ⟨?_, fun q _ => pt_congr h.points q, fun q => by rw [pt_congr h.points], fun q _ => ?_, fun hr => ?_⟩
  · rw [h.points, h.audibleRequest]
    exact h
  · rw [pt_congr h.points]
    exact ⟨rfl, rfl⟩
  · exact h.audibleRequest.trans hr

theorem upToDate_congr (hp : t.points = s.points) (hm : t.map = s.map) {x : PointNo} (h : s.UpToDate x) : t.UpToDate x := by
  refine h.congr ?_ ?_ ?_ (fun _ => sameEntries_of_map hm x) fun _ q _ => ?_
  · rw [pt_congr hp]
  · rw [pt_congr hp]
  · rw [pt_congr hp]
  · rw [pt_congr hp]
    exact SameFace.refl _

theorem announces_of_points (hp : t.points = s.points) : Announces s t := fun x hx => absurd (by rw [pt_congr hp]) hx

theorem alertsAudibly_of_points (hp : t.points = s.points) (ha : t.audibleRequest = s.audibleRequest) : AlertsAudibly s t := by
  refine ⟨fun x h h' => ?_, fun h => .inl (ha ▸ h)⟩
  rw [pt_congr hp] at h
  exact absurd h h'

theorem groupFace_congr (hp : t.points = s.points) (g : PointNo) :
    t.groupQuality g = s.groupQuality g ∧ t.groupCondition g = s.groupCondition g :=
  group_congr fun q _ => by
    rw [pt_congr hp]
    exact SameFace.refl _

theorem follows_of_isSystem {d : RecordDraft} (h : d.isSystem = true) : d.follows := .inr h

end

/-! ### The entry handled -/

/-- The map entry after a change entry (R4, R6, R134, R136). -/
def MapEntry.moved (m : MapEntry) (e : ChangeEntry) : MapEntry :=
  { m with
    appliedLevel := e.level
    latch := m.latch || (m.mode == .pulse && (m.appliedLevel == m.normal && e.level != m.normal))
    appliedQuality := if e.kind = .quality then e.quality else m.appliedQuality }

/-- The level applied, if it differs. -/
def MapEntry.levelApplied (m : MapEntry) (e : ChangeEntry) : MapEntry :=
  if e.level = m.appliedLevel then m else m.applyLevel e.level

theorem levelApplied_eq {m : MapEntry} {e : ChangeEntry} (ht : m.trap = false) :
    m.levelApplied e =
      { m with
        appliedLevel := e.level
        latch := m.latch || (m.mode == .pulse && (m.appliedLevel == m.normal && e.level != m.normal)) } := by
  unfold MapEntry.levelApplied
  split
  · next h =>
    have hsame : (m.appliedLevel == m.normal && e.level != m.normal) = false := by
      rw [h]
      cases hn : m.appliedLevel == m.normal <;> simp [bne, hn]
    rw [hsame, h]
    simp
  · simp [MapEntry.applyLevel, ht, Bool.and_assoc]

theorem moved_of_level {m : MapEntry} {e : ChangeEntry} (ht : m.trap = false) (hk : e.kind = .level) :
    m.moved e = m.levelApplied e := by
  rw [levelApplied_eq ht, MapEntry.moved, hk]
  rfl

theorem moved_of_quality {m : MapEntry} {e : ChangeEntry} (ht : m.trap = false) (hk : e.kind = .quality) :
    m.moved e = { m.levelApplied e with appliedQuality := e.quality } := by
  rw [levelApplied_eq ht, MapEntry.moved, hk]
  rfl

/-- The state with the entry applied, before its record. -/
def State.entryStored (s : State) (e : ChangeEntry) : State :=
  { s with
    map := (s.setEnt e.input ((s.ent e.input).moved e)).map
    inputCapture := if e.kind = .level then s.inputLoaded e else s.inputCapture }

/-- The INPUT record of an applied level, where the record flag asks for one. -/
def recordedDrafts (m : MapEntry) (e : ChangeEntry) : List RecordDraft :=
  if m.appliedLevel ≠ e.level ∧ m.record = true then [inputDraft e (some m.appliedLevel) .recorded m.point] else []

/-- The state with the entry applied and recorded. -/
def State.entryRecorded (s : State) (e : ChangeEntry) : State :=
  let m := s.ent e.input
  if m.appliedLevel ≠ e.level ∧ m.record = true then
    (s.entryStored e).append false (inputDraft e (some m.appliedLevel) .recorded m.point)
  else s.entryStored e

theorem handleEntry_of_valid {s : State} {e : ChangeEntry} {p : PointNo} (hv : (s.ent e.input).valid = true)
    (ht : (s.ent e.input).trap = false) (hp : (s.ent e.input).point = some p) :
    s.handleEntry e =
      if (s.ent e.input).moved e ≠ s.ent e.input ∨ e.quality ≠ (s.ent e.input).appliedQuality then
        (s.entryRecorded e).reevaluate e.claim p e.cause
      else s.entryRecorded e := by
  have hmapped (u : State) : u.reevalMapped e (s.ent e.input) = u.reevaluate e.claim p e.cause := by
    unfold State.reevalMapped
    rw [hp]
  unfold State.handleEntry
  by_cases hk : e.kind = .level
  · have happly : (s.loadInput e).applyThrough e ((s.ent e.input).levelApplied e) = s.entryRecorded e := by
      unfold State.entryRecorded State.applyThrough State.entryStored
      dsimp only
      rw [loadInput_eq, if_pos hk, moved_of_level ht hk, recordInput_eq]
      rfl
    rw [if_pos hk, moved_of_level ht hk, ← happly, ← hmapped]
    unfold State.handleLevel
    exact if_pos ⟨hv, ht⟩
  · have hk' : e.kind = .quality := by
      cases h : e.kind with
      | level => exact absurd h hk
      | quality => rfl
    have happly : s.applyThrough e { (s.ent e.input).levelApplied e with appliedQuality := e.quality } = s.entryRecorded e := by
      unfold State.entryRecorded State.applyThrough State.entryStored
      dsimp only
      rw [if_neg hk, moved_of_quality ht hk', recordInput_eq]
      rfl
    have hiff : (s.ent e.input).moved e ≠ s.ent e.input ∨ e.quality ≠ (s.ent e.input).appliedQuality ↔
        (s.ent e.input).moved e ≠ s.ent e.input := by
      refine or_iff_left_of_imp fun hq h => hq ?_
      have := congrArg MapEntry.appliedQuality h
      rw [moved_of_quality ht hk'] at this
      exact this
    rw [if_neg hk, if_congr hiff rfl rfl, moved_of_quality ht hk', ← happly, ← hmapped]
    unfold State.handleQuality
    exact if_pos ⟨hv, ht⟩

section
variable {s : State} {e : ChangeEntry}

theorem emits_entryRecorded : OnlyEmits (s.entryStored e) (s.entryRecorded e) := by
  unfold State.entryRecorded
  dsimp only
  split
  · exact onlyEmits_append _ _ _
  · exact .refl _

theorem appends_entryRecorded (hb : s.log.ring.length ≤ 1024) :
    Appends s (s.entryRecorded e) (recordedDrafts (s.ent e.input) e) := by
  unfold State.entryRecorded recordedDrafts
  dsimp only
  split
  · exact (appends_append (s := s.entryStored e) hb false _).congr rfl rfl
  · exact appends_nil rfl hb

theorem points_entryRecorded : (s.entryRecorded e).points = s.points := emits_entryRecorded.points

/-- A point other than the one that the entry names is up to date as it was. -/
theorem upToDate_entryRecorded {p x : PointNo} (hp : (s.ent e.input).point = some p) (hx : x ≠ p) (h : s.UpToDate x) :
    (s.entryRecorded e).UpToDate x := by
  have hm : (s.entryRecorded e).map = (s.setEnt e.input ((s.ent e.input).moved e)).map := emits_entryRecorded.map
  have hsame : SameEntries s (s.entryRecorded e) x := fun i => by
    have hi : (s.entryRecorded e).ent i = (s.setEnt e.input ((s.ent e.input).moved e)).ent i := by simp [State.ent, hm]
    rw [hi]
    exact setEnt_sameEntries s (m := (s.ent e.input).moved e) hp hp hx i
  have hpt := pt_congr (points_entryRecorded (s := s) (e := e))
  refine h.congr ?_ ?_ ?_ (fun _ => hsame) fun _ q _ => ?_
  · rw [hpt]
  · rw [hpt]
  · rw [hpt]
  · rw [hpt]
    exact SameFace.refl _

end

/-! ### The entry and the re-evaluation, with the raisings behind them -/

section
variable {s t : State} {e : ChangeEntry} {p : PointNo}

/-- An entry that changes nothing of its map entry is at most recorded. -/
theorem entryRecorded_kept (hsame : (s.ent e.input).moved e = s.ent e.input) (ht : t = (s.entryRecorded e).settle) :
    OnlyMoves (s.entryStored e) t p ∧ KeepsUpToDate s t ∧ AlertsAudibly s t ∧ Announces s t := by
  have hemits : OnlyEmits (s.entryStored e) t := ht ▸ emits_entryRecorded.trans (onlyEmits_settle _)
  have hpoints : t.points = s.points := hemits.points
  have hmap : t.map = s.map := by
    refine hemits.map.trans ?_
    show (s.setEnt e.input ((s.ent e.input).moved e)).map = s.map
    rw [hsame]
    simp [State.setEnt, State.ent]
  exact ⟨.of_emits hemits p, fun _ => upToDate_congr hpoints hmap, alertsAudibly_of_points hpoints hemits.audibleRequest,
    announces_of_points hpoints⟩

/-- An entry behind which its point is re-evaluated. -/
theorem entryReevaluated_kept (hp : (s.ent e.input).point = some p) (hd : s.depth 4 p ≤ 3)
    (ht : t = ((s.entryRecorded e).reevaluate e.claim p e.cause).settle) :
    OnlyMoves (s.entryStored e) t p ∧ KeepsUpToDate s t ∧ AlertsAudibly s t ∧ Announces s t := by
  have hpoints := points_entryRecorded (s := s) (e := e)
  have hdu : (s.entryRecorded e).depth 4 p ≤ 3 := by rw [depth_congr hpoints]; exact hd
  obtain ⟨hself, hkeeps⟩ := reevaluate_upToDate e.claim e.cause hdu
  have hset : OnlyEmits ((s.entryRecorded e).reevaluate e.claim p e.cause) t := ht ▸ onlyEmits_settle _
  refine ⟨?_, fun x hx => ?_, ?_, ?_⟩
  · have hmoves := (moves_reevaluate (S := fun _ => False) (s.entryRecorded e) e.claim p e.cause).onlyMoves
      (fun _ h => h.elim)
    rw [reevaluate_map] at hmoves
    exact OnlyMoves.between emits_entryRecorded hmoves hset
  · refine upToDate_congr hset.points hset.map ?_
    by_cases hxp : x = p
    · rw [hxp]
      exact hself
    · exact hkeeps x (upToDate_entryRecorded hp hxp hx)
  · have h := (sounds_reevaluate e.claim e.cause hdu).alertsAudibly
    have hrec : AlertsAudibly s ((s.entryRecorded e).reevaluate e.claim p e.cause) := by
      have hqual (k : PClass) : (s.entryRecorded e).qualifies k = s.qualifies k := by
        have e' := congrArg State.audibleThreshold (emits_entryRecorded (s := s) (e := e)).rest
        have e'' : (s.entryRecorded e).audibleThreshold = s.audibleThreshold := e'
        simp [State.qualifies, e'']
      have haudible : (s.entryRecorded e).audibleRequest = s.audibleRequest :=
        (emits_entryRecorded (s := s) (e := e)).audibleRequest
      unfold AlertsAudibly at h ⊢
      simp only [hqual, haudible, pt_congr hpoints] at h
      exact h
    exact hrec.congr hset.points hset.audibleRequest
  · have hann : Announces s (s.entryRecorded e) := announces_of_points hpoints
    have hatt : StayAttached s (s.entryRecorded e) := (emits_entryRecorded (s := s) (e := e)).stayAttached
    rw [ht]
    exact (announces_reevaluate (c := e.claim) (p := p) (cause := e.cause) hann hatt).settle

/-- The records, and what becomes of the point and its parent group (R12, R23, R34, R35). -/
theorem entryReevaluated_spec (hb : s.log.ring.length ≤ 1024) (hk : (s.pt p).kind = .field) (hd : s.depth 4 p ≤ 3)
    (ht : t = ((s.entryRecorded e).reevaluate e.claim p e.cause).settle) :
    let r := s.pt p
    let recorded := recordedDrafts (s.ent e.input) e
    let quality := t.fieldQuality p
    let condition := if quality = .good then t.fieldCondition p else r.condition
    let changed := condition ≠ r.condition ∨ quality ≠ r.quality
    let own := formedDrafts e.claim p e.cause (if r.quality = .good then e.cause else .qualityReturn) r quality condition
    t.pt p =
        { r with
          quality := quality, condition := condition, seqState := r.stateAfter condition
          lastChange := (t.pt p).lastChange }
      ∧ (¬ changed → (∀ x, x ≠ p → t.pt x = s.pt x) ∧ AppendsFirst s t (recorded ++ own))
      ∧ (changed → ParentFollows s t e.claim p (recorded ++ own)) := by
  let u := s.entryRecorded e
  let v := u.reevaluate e.claim p e.cause
  have hpoints : u.points = s.points := points_entryRecorded
  have hpt (x : PointNo) : u.pt x = s.pt x := pt_congr hpoints x
  have happ : Appends s u (recordedDrafts (s.ent e.input) e) := appends_entryRecorded hb
  have hset : OnlyEmits v t := ht ▸ onlyEmits_settle _
  have hmap : t.map = u.map := hset.map.trans (reevaluate_map ..)
  have htv (x : PointNo) : t.pt x = v.pt x := pt_congr hset.points x
  have hspec := reevaluate_field_spec (s := u) (p := p) e.claim e.cause happ.length
    (by rw [depth_congr hpoints]; exact hd) (by rw [hpt]; exact hk)
  dsimp only at hspec
  simp only [hpt, ← fieldQuality_congr hmap, ← fieldCondition_congr hmap] at hspec
  obtain ⟨hself, hsame, hroot, hparent⟩ := hspec
  have hsettled {ds : List RecordDraft} (h : Appends s v ds) : AppendsFirst s t ds := by
    rw [ht]
    exact h.followed (appendsFirst_settle h.length)
  have hfollowed {ds : List RecordDraft} (h : AppendsThen s v ds RecordDraft.follows) :
      AppendsThen s t ds RecordDraft.follows := by
    rw [ht]
    exact h.trans ((appendsFirst_settle h.length).mono fun _ h => .inr h)
  intro r recorded quality condition changed own
  refine ⟨?_, fun hc => ⟨fun x hx => ?_, hsettled (happ.trans (hsame hc).2)⟩, fun hc => ⟨fun hg => ?_, fun g hg hgk => ?_⟩⟩
  · rw [htv]
    exact hself
  · rw [htv]
    exact (hsame hc).1 x hx
  · exact hsettled (happ.trans (hroot hc hg))
  · obtain ⟨hgt, hga⟩ := hparent g hc hg hgk
    obtain ⟨hq, hcnd⟩ := groupFace_congr hset.points g
    intro h c
    rw [← hcnd, ← hq] at hgt hga
    refine ⟨?_, ?_⟩
    · rw [htv]
      exact hgt
    · have hmore : AppendsThen s v _ RecordDraft.follows := happ.prepend (hga.mono fun _ h => .inl h)
      rw [List.append_assoc]
      exact hfollowed hmore

end

/-- Settles O14. -/
theorem entryApplied : Obligations.EntryApplied := by
  intro s e rest p hlive hr hm hq hb hu hv ht hp hk hd m r moved m1 claim cause
  obtain ⟨inputs, queue, hfreed, hcaught⟩ := freed_caughtUp (s := s) rest
  have hexec := exec_entry hlive hm hq
  rw [hfreed, if_neg (show ¬ s.unfitted e.input = true by simp [hu])] at hexec
  let v : State := { s with inputs := inputs, changeQueue := queue }
  obtain ⟨hi, hc⟩ := handled_field v e
  have hhandle := handleEntry_of_valid (s := v) hv ht hp
  obtain ⟨t, htdef⟩ : ∃ t, t = (v.handleEntry e).settle := ⟨_, rfl⟩
  rw [← htdef] at hexec hi hc
  have hrecorded : recordedDrafts m e =
      if m.appliedLevel ≠ e.level ∧ m.record = true then [inputDraft e (some m.appliedLevel) .recorded (some p)] else [] := by
    unfold recordedDrafts
    rw [show m.point = some p from hp]
  by_cases hmoved : m1 ≠ m ∨ e.quality ≠ m.appliedQuality
  · rw [show v.handleEntry e = _ from hhandle.trans (if_pos hmoved)] at htdef
    obtain ⟨hmoves, hkeeps, halerts, hann⟩ := entryReevaluated_kept (s := v) hp hd htdef
    have hspec := entryReevaluated_spec (s := v) hb hk hd htdef
    refine ⟨t, hexec, hcaught.congr hi hc, ?_, hkeeps, halerts, hann, fun h1 h2 => ?_, fun _ => ?_⟩
    · rw [hi, hc]
      exact hmoves
    · exact absurd h2 (hmoved.resolve_left (not_not_intro h1))
    · rw [← hrecorded]
      exact hspec
  · rw [show v.handleEntry e = _ from hhandle.trans (if_neg hmoved)] at htdef
    have hsame : m1 = m := not_not.mp (mt .inl hmoved)
    obtain ⟨hmoves, hkeeps, halerts, hann⟩ := entryRecorded_kept (s := v) (p := p) hsame htdef
    refine ⟨t, hexec, hcaught.congr hi hc, ?_, hkeeps, halerts, hann, fun _ _ => ⟨?_, ?_⟩, fun h => absurd h hmoved⟩
    · rw [hi, hc]
      exact hmoves
    · have hemits : OnlyEmits (v.entryStored e) t := htdef ▸ emits_entryRecorded.trans (onlyEmits_settle _)
      exact hemits.points
    · have happ := appends_entryRecorded (s := v) (e := e) hb
      rw [← hrecorded, htdef]
      exact happ.followed (appendsFirst_settle happ.length)

end Sys2Proof.Machine
end

section
/-! PROOFS. The expansion link: the poll cycle (R139), identity answers (R140) and misses (R145), with the lost-state claim
(R121). -/

namespace Sys2Proof.Machine

/-! ### The lost-state claim -/

/-- From `s` to `t` the input records alone have moved. -/
def InputsOnly (s t : State) : Prop := ∃ a, t = { s with inputs := a }

theorem InputsOnly.now {s t : State} (h : InputsOnly s t) : t.now = s.now := by
  obtain ⟨a, rfl⟩ := h
  rfl

theorem InputsOnly.mode {s t : State} (h : InputsOnly s t) : t.mode = s.mode := by
  obtain ⟨a, rfl⟩ := h
  rfl

theorem InputsOnly.changeQueue {s t : State} (h : InputsOnly s t) : t.changeQueue = s.changeQueue := by
  obtain ⟨a, rfl⟩ := h
  rfl

theorem InputsOnly.pairTimers {s t : State} (h : InputsOnly s t) : t.pairTimers = s.pairTimers := by
  obtain ⟨a, rfl⟩ := h
  rfl

theorem InputsOnly.raisings {s t : State} (h : InputsOnly s t) : t.raisings = s.raisings := by
  obtain ⟨a, rfl⟩ := h
  rfl

theorem InputsOnly.trans {s t u : State} (h : InputsOnly s t) (k : InputsOnly t u) : InputsOnly s u := by
  obtain ⟨a, rfl⟩ := h
  obtain ⟨b, rfl⟩ := k
  exact ⟨b, rfl⟩

theorem InputsOnly.foldl {α : Type} {f : State → α → State} (hf : ∀ t a, InputsOnly t (f t a)) (l : List α) (s : State) :
    InputsOnly s (l.foldl f s) := by
  induction l generalizing s with
  | nil => exact ⟨s.inputs, rfl⟩
  | cons a l ih => exact (hf s a).trans (ih (f s a))

section
variable (s : State) (u : UnitNo)

/-- The unit's inputs marked lost, with their qualities formed, before the entries follow (R121). -/
def State.lostMarked : State :=
  (unitInputs u).foldl (State.formQuality · s.now) ((unitInputs u).foldl (setUnitLost true) s)

theorem lostMarked_inputsOnly : InputsOnly s (s.lostMarked u) := by
  have h1 : InputsOnly s ((unitInputs u).foldl (setUnitLost true) s) := .foldl (fun _ _ => ⟨_, rfl⟩) _ _
  have h2 := InputsOnly.foldl (f := (State.formQuality · s.now)) (fun t i => ⟨_, formQuality_rest t s.now i⟩) (unitInputs u)
    ((unitInputs u).foldl (setUnitLost true) s)
  exact h1.trans h2

theorem lostMarked_inp (j : InputNo) :
    (s.lostMarked u).inp j = if j ∈ unitInputs u then (s.inp j).lost (s.inp j) s.now else s.inp j := by
  unfold State.lostMarked
  rw [formPass_inp _ _ (unitInputs_nodup u), setUnitLost_inp]
  split
  · unfold InputRec.formedWith InputRec.lost qualityOf
    simp [eq_comm]
  · rfl

theorem nodup_lostEntries : ((s.lostEntries u).map ChangeEntry.input).Nodup := by
  unfold State.lostEntries
  rw [List.map_map]
  exact (List.map_id _).symm ▸ (unitInputs_nodup u).filter _

theorem lostClaim_eq : s.lostClaim u = (s.lostEntries u).foldl State.queueEntry (s.lostMarked u) := by
  refine lostPass_eq (s2 := s.lostMarked u) (fun i => ⟨(lostMarked_inputsOnly s u).now, ?_⟩) _ (fun i hi => ?_) _ (.refl _)
  · rw [lostMarked_inp]
    split <;> rfl
  · rw [lostMarked_inp, if_pos hi]
    rfl

theorem lostMarked_overflowing : (s.lostMarked u).overflowing (s.lostEntries u) = s.overflowing (s.lostEntries u) := by
  refine (EntriesProduced.congr (entriesProduced_pass (s.lostEntries u) (nodup_lostEntries s u) (s.lostMarked u))
    (lostMarked_inputsOnly s u).mode (lostMarked_inputsOnly s u).changeQueue fun j => ?_).2
  rw [lostMarked_inp]
  split <;> exact ⟨rfl, rfl, rfl⟩

/-- The raisings of a lost-state claim: one for each entry that finds the queue full (R125). -/
theorem lostClaim_raisings : (s.lostClaim u).raisings =
    s.raisings ++ (s.overflowing (s.lostEntries u)).map fun _ => plainRaising .changeDeferred := by
  rw [lostClaim_eq, raisings_pass _ (nodup_lostEntries s u), lostMarked_overflowing, (lostMarked_inputsOnly s u).raisings]

end

/-! ### What the link does before a turn ends -/

/-- The end of a command after work of the Expansion Link Controller. -/
theorem Links.settled {s t : State} (h : Links s t) :
    OnlyEmits
      { s with
        link := t.settle.link, inputs := t.settle.inputs, pairTimers := t.settle.pairTimers
        changeQueue := t.settle.changeQueue } t.settle := by
  rw [settle_link, settle_inputs, settle_pairTimers, settle_changeQueue]
  refine .trans ?_ (onlyEmits_settle t)
  have e := onlyEmits_raisings
    { s with link := t.link, inputs := t.inputs, pairTimers := t.pairTimers, changeQueue := t.changeQueue } t.raisings
  exact h.rest ▸ e

/-- The first raising of a command of the link has the first record (R155). -/
theorem Links.first {s t : State} (h : Links s t) {r : Raising} {rest : List Raising} (hr : t.raisings = r :: rest)
    (hb : s.log.ring.length ≤ 1024) : AppendsFirst s t.settle [r.draft (s.flagSet r.flag) s.now] := by
  have hflags : t.flags = s.flags := by
    have e := congrArg State.flags h.rest
    exact e
  have hfirst := settle_first hr (h.log ▸ hb)
  rw [show t.flagSet r.flag = s.flagSet r.flag by simp [State.flagSet, hflags], h.now] at hfirst
  exact hfirst.congr h.log.symm rfl

/-- The flags of a command of the link that hands on raisings of the flags `a` alone. -/
theorem Links.flagsOnly {s t : State} (h : Links s t) (hr : s.raisings = []) {a : List Flag}
    (ha : ∀ r ∈ t.raisings, r.flag ∈ a) : FlagsOnly s t.settle a := by
  have hflags : t.flags = s.flags := by
    have e := congrArg State.flags h.rest
    exact e
  have hraises : RaisesOnly s t a := by
    refine ⟨fun f hf => ?_, congrArg EventLog.archive h.log⟩
    obtain hf | ⟨r, hf, rfl⟩ := hf
    · exact .inl (.inl (by simpa [State.flagSet, hflags] using hf))
    · exact .inr (.inl (ha r hf))
  exact (hraises.trans (raisesOnly_settle t)).flagsOnly hr h.settled.flags

/-- From `s` to `m` the link has worked for unit `u`, and the cycle, the due state and the marks stay. -/
structure LinkWork (s m : State) (u : UnitNo) : Prop where
  links : Links s m
  timer : m.link.pollTimer = s.link.pollTimer
  due : m.link.due = s.link.due
  fitted : ∀ v, (m.unit v).newlyFitted = (s.unit v).newlyFitted
  others : ∀ v, v ≠ u → m.unit v = s.unit v

namespace LinkWork

variable {s m n : State} {u : UnitNo}

theorem refl (s : State) (u : UnitNo) : LinkWork s s u := ⟨.refl s, rfl, rfl, fun _ => rfl, fun _ _ => rfl⟩

theorem trans (h : LinkWork s m u) (k : LinkWork m n u) : LinkWork s n u :=
  ⟨h.links.trans k.links, k.timer.trans h.timer, k.due.trans h.due, fun v => (k.fitted v).trans (h.fitted v),
    fun v hv => (k.others v hv).trans (h.others v hv)⟩

theorem setUnit (s : State) {u : UnitNo} {r : UnitRec} (h : r.newlyFitted = (s.unit u).newlyFitted) :
    LinkWork s (s.setUnit u r) u where
  links := .of_setUnit s u r
  timer := rfl
  due := rfl
  fitted v := by
    rw [State.unit_setUnit]
    split
    · next e => rw [e, h]
    · rfl
  others v hv := State.unit_setUnit_of_ne s r hv

theorem handOn (s : State) (r : Raising) (u : UnitNo) : LinkWork s (s.handOn r) u :=
  ⟨.of_handOn s r, rfl, rfl, fun _ => rfl, fun _ _ => rfl⟩

theorem of_filters {I : InputNo → Prop} (h : Filters s m I) (u : UnitNo) : LinkWork s m u := by
  have hu (v : UnitNo) : m.unit v = s.unit v := by simp [State.unit, h.link]
  exact ⟨.of_filters h, by rw [h.link], by rw [h.link], fun v => by rw [hu], fun v _ => hu v⟩

section
variable (h : LinkWork s m u)
include h

theorem turnEnded : TurnEnded s (m.endTurn u).settle u := .settled h.links.cycle h.timer h.due h.fitted u

theorem sameUnit_of_ne {v : UnitNo} (hv : v ≠ u) : SameUnit (s.unit v) ((m.endTurn u).settle.unit v) := by
  rw [settle_unit, ← h.others v hv]
  exact (turns_endTurn m u).1.units v

end

theorem sameUnit (m : State) (u : UnitNo) : SameUnit (m.unit u) ((m.endTurn u).settle.unit u) := by
  rw [settle_unit]
  exact (turns_endTurn m u).1.units u

theorem endTurn_rest (m : State) (u : UnitNo) : m.endTurn u = { m with link := (m.endTurn u).link } :=
  (turns_endTurn m u).1.rest

theorem endTurn_raisings (m : State) (u : UnitNo) : (m.endTurn u).raisings = m.raisings := by
  have e := congrArg State.raisings (endTurn_rest m u)
  exact e

theorem ended_inputs (m : State) (u : UnitNo) : (m.endTurn u).settle.inputs = m.inputs := by
  have e := congrArg State.inputs (endTurn_rest m u)
  exact (settle_inputs _).trans e

theorem ended_inp (m : State) (u : UnitNo) (i : InputNo) : (m.endTurn u).settle.inp i = m.inp i := by
  simp [State.inp, ended_inputs]

theorem ended_pairTimers (m : State) (u : UnitNo) : (m.endTurn u).settle.pairTimers = m.pairTimers := by
  have e := congrArg State.pairTimers (endTurn_rest m u)
  exact (settle_pairTimers _).trans e

theorem ended_changeQueue (m : State) (u : UnitNo) : (m.endTurn u).settle.changeQueue = m.changeQueue := by
  have e := congrArg State.changeQueue (endTurn_rest m u)
  exact (settle_changeQueue _).trans e

/-- The end of a command whose work ends the turn. -/
theorem emits (h : LinkWork s m u) :
    OnlyEmits
      { s with
        link := (m.endTurn u).settle.link, inputs := m.inputs, pairTimers := m.pairTimers, changeQueue := m.changeQueue }
      (m.endTurn u).settle := by
  have e := (h.links.trans (links_endTurn m u)).settled
  rwa [ended_inputs, ended_pairTimers, ended_changeQueue] at e


/-- Nothing but the link has moved where the work hands on no raising. -/
theorem quiet (h : m.raisings = []) : (m.endTurn u).settle = { m with link := (m.endTurn u).settle.link } := by
  have hr : (m.endTurn u).settle = m.endTurn u := settle_of_none ((endTurn_raisings m u).trans h)
  rw [hr]
  exact endTurn_rest m u

end LinkWork

end Sys2Proof.Machine
end

section
/-! PROOFS. The expansion link: the poll cycle (R139), identity answers (R140), misses (R145) and the line (R137). -/

namespace Sys2Proof.Machine

/-! ### The poll cycle -/

theorem exec_pollCycleExpiry {s : State} (hlive : s.inReset = false) (h : s.link.pollTimer = some 0) :
    exec .pollCycleExpiry s = .next s.pollExpiry :=
  congrArg Host.Outcome.next ((live_of hlive _).trans (if_pos h))

section
variable {s : State}

theorem nextFitted_takeInUnits_none (h : ∀ u, (s.unit u).state = .notFitted) : s.takeInUnits.nextFitted 0 = none := by
  refine Option.eq_none_iff_forall_ne_some.mpr fun u hu => ?_
  obtain ⟨-, hin, -⟩ := nextFitted_some hu
  exact hin.1 (by rw [unit_takeInUnits]; exact h u)

/-- The first unit of a cycle that begins is the first fitted one. -/
theorem nextFitted_takeInUnits_first {u : UnitNo} (hu : (s.unit u).state ≠ .notFitted)
    (hfirst : ∀ v, v < u → (s.unit v).state = .notFitted) : s.takeInUnits.nextFitted 0 = some u := by
  have hin (v : UnitNo) : s.takeInUnits.inCycle v ↔ (s.unit v).state ≠ .notFitted := by simp [State.inCycle]
  cases hf : s.takeInUnits.nextFitted 0 with
  | none => exact absurd ((hin u).mpr hu) (nextFitted_none hf u (Nat.zero_le _))
  | some v =>
    obtain ⟨-, hv, hbefore⟩ := nextFitted_some hf
    obtain h | h | h := lt_trichotomy v u
    · exact absurd (hfirst v h) ((hin v).mp hv)
    · rw [h]
    · exact absurd ((hin u).mpr hu) (hbefore u (Nat.zero_le _) h)

theorem startCycle_of_none (h : ∀ u, (s.unit u).state = .notFitted) : s.startCycle = s.takeInUnits.quietLink := by
  unfold State.startCycle
  dsimp only
  rw [nextFitted_takeInUnits_none h]

theorem startCycle_of_first {u : UnitNo} (hu : (s.unit u).state ≠ .notFitted)
    (hfirst : ∀ v, v < u → (s.unit v).state = .notFitted) : s.startCycle = s.takeInUnits.beginTurn u := by
  unfold State.startCycle
  dsimp only
  rw [nextFitted_takeInUnits_first hu hfirst]

end

/-- Settles O15. -/
theorem pollCycleExpires : Obligations.PollCycleExpires := by
  intro s hlive htimer
  rw [exec_pollCycleExpiry hlive htimer]
  refine ⟨fun u hu => ?_, fun hu => ?_⟩
  · unfold State.pollExpiry
    rw [hu]
  · let s1 : State := { s with link := { s.link with pollTimer := some s.link.pollCycle } }
    have hstart : s.pollExpiry = s1.startCycle := by
      unfold State.pollExpiry
      rw [hu]
    obtain ⟨hturns, hdue, -⟩ := turns_startCycle s1
    rw [hstart]
    refine ⟨s1.startCycle, rfl, hturns.rest, hturns.timer, hturns.cycle, hdue, fun h => ?_, fun u hu hfirst => ?_⟩
    · rw [startCycle_of_none (s := s1) h]
      exact ⟨unit_takeInUnits s1, rfl, rfl⟩
    · rw [startCycle_of_first (s := s1) hu hfirst]
      have hself : (s1.takeInUnits.beginTurn u).unit u = { s.unit u with polls := 0, newlyFitted := false } := by
        rw [unit_beginTurn, if_pos rfl, unit_takeInUnits]
        rfl
      obtain ⟨hturn, -, hx⟩ := turnBegun_beginTurn s1.takeInUnits u
      rw [hself] at hx
      refine ⟨hturn, by unfold State.xlDir; rw [hx]; rfl, hself, fun v hv => ?_, _, hx, rfl, rfl, rfl, fun h => ?_,
        fun h => ?_, fun h => ?_⟩
      · rw [unit_beginTurn, if_neg hv, unit_takeInUnits]
        rfl
      · obtain h | h := h <;> simp [UnitRec.messageKind, UnitRec.messageBody, h, MessageKind.type]
      · simp [UnitRec.messageKind, UnitRec.messageBody, h, MessageKind.type]
      · simp [UnitRec.messageKind, UnitRec.messageBody, h, MessageKind.type]

/-! ### Answers -/

/-- A good answer arrives at the hunting master (R137). -/
theorem linkBytes_answer {s : State} {x : Exchange} {left : Nat} {body : List Byte} {type : Nat}
    (hx : s.link.exchange = some x) (hw : x.phase = .awaiting left) (hrx : s.link.rx = .hunting)
    (ht : x.kind.answerType = type) (hl : LinkLength (BitVec.ofNat 8 type) body) :
    s.linkBytes (goodBytes (linkFrame (x.unit.val + 1) type body)) = s.goodAnswer x body s.now := by
  subst ht
  exact linkBytes_good ⟨hx, by rw [hw]; nofun⟩ hrx hl

section
variable {s : State} (u : UnitNo)

theorem identityMatch_of_match {body : List Byte} (h : body = [0x0C#8, 0x41#8, 64#8]) :
    s.identityMatch u body = s.setUnit u { s.unit u with state := .resync, misses := 0, mismatch := false } := if_pos h

theorem identityMatch_of_again {body : List Byte} (h : body ≠ [0x0C#8, 0x41#8, 64#8])
    (hm : (s.unit u).mismatch = true) : s.identityMatch u body = s.setUnit u { s.unit u with misses := 0 } :=
  (if_neg h).trans (if_pos hm)

theorem identityMatch_of_new {body : List Byte} (h : body ≠ [0x0C#8, 0x41#8, 64#8])
    (hm : (s.unit u).mismatch = false) :
    s.identityMatch u body =
      (s.setUnit u { s.unit u with misses := 0, mismatch := true }).handOn (unitFault u .mismatch) :=
  (if_neg h).trans (if_neg (by simp [hm]))

theorem linkWork_identityMatch (s : State) (u : UnitNo) (body : List Byte) : LinkWork s (s.identityMatch u body) u := by
  unfold State.identityMatch
  dsimp only
  split
  · exact .setUnit s rfl
  · split
    · exact .setUnit s rfl
    · refine .trans (LinkWork.setUnit s ?_) (.handOn _ _ u)
      rfl

theorem identityMatch_unit {body : List Byte} (h : body ≠ [0x0C#8, 0x41#8, 64#8]) :
    (s.identityMatch u body).unit u = { s.unit u with misses := 0, mismatch := true } := by
  cases hm : (s.unit u).mismatch with
  | true =>
    rw [identityMatch_of_again u h hm, State.unit_setUnit_self, ← hm]
  | false =>
    rw [identityMatch_of_new u h hm]
    exact State.unit_setUnit_self s u _

/-- The record of a raising of UNIT_FAULT (R155). -/
theorem draft_unitFault (s : State) (u : UnitNo) (d : Detail) :
    (unitFault u d).draft (s.flagSet (unitFault u d).flag) s.now = s.systemDraft .unitFault (some u) none none d none := rfl

theorem identityMatch_field (s : State) (u : UnitNo) (body : List Byte) :
    (s.identityMatch u body).inputs = s.inputs ∧ (s.identityMatch u body).pairTimers = s.pairTimers
      ∧ (s.identityMatch u body).changeQueue = s.changeQueue := by
  unfold State.identityMatch
  dsimp only
  split
  · exact ⟨rfl, rfl, rfl⟩
  · split <;> exact ⟨rfl, rfl, rfl⟩

end

/-- Settles O16. -/
theorem identityAnswered : Obligations.IdentityAnswered := by
  intro s x left body hlive hr hx hw hk hrx hl hb u matched answered
  have hanswered : answered = .next (s.goodAnswer x body s.now).settle := by
    have hlen : LinkLength (BitVec.ofNat 8 0x81) body := .inl ⟨rfl, hl⟩
    exact (congrArg Host.Outcome.next (live_of hlive _)).trans
      (by rw [linkBytes_answer hx hw hrx (by rw [hk]; rfl) hlen])
  rw [hanswered]
  refine ⟨fun hv => ⟨_, rfl, voidEnded_goodAnswer hv hr body s.now⟩, fun hv => ⟨_, rfl, ?_⟩⟩
  have hgood : s.goodAnswer x body s.now = (s.identityMatch u body).endTurn u := by
    unfold State.goodAnswer
    rw [if_neg (by simp [hv]), hk]
  rw [hgood]
  have hwork := linkWork_identityMatch s u body
  obtain ⟨hinputs, htimers, hqueue⟩ := identityMatch_field s u body
  have hunit := LinkWork.sameUnit (s.identityMatch u body) u
  refine ⟨?_, hwork.turnEnded, fun v hv => hwork.sameUnit_of_ne hv, fun hm => ?_, fun hm => ?_, fun hm ha => ?_,
    fun hm ha => ?_⟩
  · have hemits := hwork.emits
    rw [hinputs, htimers, hqueue] at hemits
    exact hemits
  · rw [identityMatch_of_match u hm] at hunit ⊢
    rw [State.unit_setUnit_self] at hunit
    refine ⟨hunit, ?_⟩
    rw [LinkWork.quiet (m := s.setUnit u _) hr]
    rfl
  · rw [identityMatch_unit u hm] at hunit
    exact hunit
  · rw [identityMatch_of_again u hm ha, LinkWork.quiet (m := s.setUnit u _) hr]
    rfl
  · have hraisings : (s.identityMatch u body).raisings = [unitFault u .mismatch] := by
      rw [identityMatch_of_new u hm ha]
      exact congrArg (· ++ _) hr
    have hend := (LinkWork.endTurn_raisings (s.identityMatch u body) u).trans hraisings
    have hfirst := (hwork.links.trans (links_endTurn (s.identityMatch u body) u)).first hend hb
    rw [draft_unitFault] at hfirst
    exact ⟨settle_flagSet (hend ▸ List.mem_singleton_self (unitFault u .mismatch)), hfirst⟩

/-! ### A unit that is lost -/

theorem EntriesProduced.congr_right {s t v : State} {es : List ChangeEntry} (h : EntriesProduced s t es)
    (hq : v.changeQueue = t.changeQueue) (hi : v.inputs = t.inputs) : EntriesProduced s v es := by
  have hinp (i : InputNo) : v.inp i = t.inp i := by simp [State.inp, hi]
  obtain ⟨h1, h2, h3, h4⟩ := h
  refine ⟨hq.trans h1, fun e he => ?_, fun i he => ?_, fun i => ?_⟩
  · rw [hinp]
    exact h2 e he
  · rw [hinp]
    exact h3 i he
  · rw [hinp]
    exact h4 i

section
variable (s : State) (r : Raising)

theorem handOn_inputs : (s.handOn r).inputs = s.inputs := rfl

theorem handOn_pairTimers : (s.handOn r).pairTimers = s.pairTimers := rfl

theorem handOn_changeQueue : (s.handOn r).changeQueue = s.changeQueue := rfl

theorem handOn_unit (u : UnitNo) : (s.handOn r).unit u = s.unit u := rfl

end

/-- Unit `u` takes the record `r`, its inputs are lost and UNIT_FAULT is handed on (R143, R145). -/
def State.losing (s : State) (u : UnitNo) (r : UnitRec) (d : Detail) : State :=
  ((s.setUnit u r).lostClaim u).handOn (unitFault u d)

section
variable {s : State} {u : UnitNo} {r : UnitRec} {d : Detail}

theorem linkWork_losing (h : r.newlyFitted = (s.unit u).newlyFitted) : LinkWork s (s.losing u r d) u :=
  ((LinkWork.setUnit s h).trans (.of_filters (filters_lostClaim (s.setUnit u r) u) u)).trans (.handOn _ _ u)

theorem losing_unit : (s.losing u r d).unit u = r := by
  have h : ((s.setUnit u r).lostClaim u).unit u = (s.setUnit u r).unit u := by
    simp [State.unit, (filters_lostClaim (s.setUnit u r) u).link]
  exact (handOn_unit _ _ u).trans (h.trans (State.unit_setUnit_self s u r))

theorem losing_pairTimers : (s.losing u r d).pairTimers = s.pairTimers := by
  have h := lostClaim_pairTimers (s.setUnit u r) u
  exact (handOn_pairTimers _ _).trans h

theorem losing_raisings :
    (s.losing u r d).raisings =
      (s.raisings ++ (s.overflowing (s.lostEntries u)).map fun _ => plainRaising .changeDeferred) ++ [unitFault u d] := by
  have h := lostClaim_raisings (s.setUnit u r) u
  unfold State.losing State.handOn
  rw [h]
  rfl

theorem ended_losing_raisings (hr : s.raisings = []) :
    ((s.losing u r d).endTurn u).raisings =
      ((s.overflowing (s.lostEntries u)).map fun _ => plainRaising .changeDeferred) ++ [unitFault u d] := by
  rw [LinkWork.endTurn_raisings, losing_raisings, hr, List.nil_append]

theorem inputsLost_losing (hr : s.raisings = []) : InputsLost s ((s.losing u r d).endTurn u).settle u := by
  obtain ⟨hlost, hother, hproduced⟩ := lostClaim_spec (s.setUnit u r) u
  have hinputs : (s.losing u r d).inputs = ((s.setUnit u r).lostClaim u).inputs :=
    handOn_inputs _ _
  have hqueue : (s.losing u r d).changeQueue = ((s.setUnit u r).lostClaim u).changeQueue :=
    handOn_changeQueue _ _
  have hinp (i : InputNo) : ((s.losing u r d).endTurn u).settle.inp i = ((s.setUnit u r).lostClaim u).inp i := by
    rw [LinkWork.ended_inp]
    simp [State.inp, hinputs]
  refine ⟨fun i hi => ?_, fun i hi => ?_, ?_, fun h => ?_⟩
  · rw [hinp]
    exact hlost i hi
  · rw [hinp]
    exact hother i hi
  · exact EntriesProduced.congr_right hproduced ((LinkWork.ended_changeQueue (s.losing u r d) u).trans hqueue)
      ((LinkWork.ended_inputs (s.losing u r d) u).trans hinputs)
  · have hraisings := ended_losing_raisings (u := u) (r := r) (d := d) hr
    obtain ⟨e, he⟩ := List.exists_mem_of_ne_nil _ h
    refine settle_flagSet (r := plainRaising .changeDeferred) ?_
    rw [hraisings]
    exact List.mem_append_left _ (List.mem_map.mpr ⟨e, he, rfl⟩)

theorem unitFault_losing (hr : s.raisings = []) : ((s.losing u r d).endTurn u).settle.flagSet .unitFault = true := by
  refine settle_flagSet (r := unitFault u d) ?_
  rw [ended_losing_raisings hr]
  exact List.mem_append_right _ (List.mem_singleton_self _)

theorem flagsOnly_losing (h : r.newlyFitted = (s.unit u).newlyFitted) (hr : s.raisings = []) :
    FlagsOnly s ((s.losing u r d).endTurn u).settle [.changeDeferred, .unitFault] := by
  refine ((linkWork_losing h).links.trans (links_endTurn _ u)).flagsOnly hr fun q hq => ?_
  rw [ended_losing_raisings hr] at hq
  obtain hq | hq := List.mem_append.mp hq
  · obtain ⟨e, -, rfl⟩ := List.mem_map.mp hq
    exact List.mem_cons_self
  · rw [List.mem_singleton.mp hq]
    exact List.mem_cons_of_mem _ List.mem_cons_self

theorem appendsFirst_losing (h : r.newlyFitted = (s.unit u).newlyFitted) (hr : s.raisings = [])
    (hb : s.log.ring.length ≤ 1024) (ho : s.overflowing (s.lostEntries u) = []) :
    AppendsFirst s ((s.losing u r d).endTurn u).settle [s.systemDraft .unitFault (some u) none none d none] := by
  have hraisings := ended_losing_raisings (u := u) (r := r) (d := d) hr
  rw [ho] at hraisings
  have hfirst := ((linkWork_losing h).links.trans (links_endTurn (s.losing u r d) u)).first hraisings hb
  rwa [draft_unitFault] at hfirst

end

/-! ### Misses -/

section
variable {s : State} {u : UnitNo}

theorem countMiss_of_uncounted (h : ¬ ((s.unit u).state = .resync ∨ (s.unit u).state = .online)) :
    s.countMiss u = s.setUnit u { s.unit u with missTotal := min ((s.unit u).missTotal + 1) 65535 } := if_neg h

theorem countMiss_of_few (h : (s.unit u).state = .resync ∨ (s.unit u).state = .online) (hm : (s.unit u).misses < 2) :
    s.countMiss u =
      s.setUnit u
        { s.unit u with missTotal := min ((s.unit u).missTotal + 1) 65535, misses := (s.unit u).misses + 1 } :=
  (if_pos h).trans (if_pos (Nat.succ_lt_succ hm))

/-- The record of a unit lost by its third miss in a row (R145). -/
def UnitRec.missed (r : UnitRec) : UnitRec :=
  { r with missTotal := min (r.missTotal + 1) 65535, misses := 0, state := .lost }

theorem countMiss_of_resync (h : (s.unit u).state = .resync) (hm : 2 ≤ (s.unit u).misses) :
    s.countMiss u = (s.setUnit u (s.unit u).missed).handOn (unitFault u .lost) := by
  refine (if_pos (.inl h)).trans ((if_neg (Nat.not_lt.mpr (Nat.succ_le_succ hm))).trans ?_)
  exact congrArg (State.handOn · _) (if_neg (by rw [h]; nofun))

theorem countMiss_of_online (h : (s.unit u).state = .online) (hm : 2 ≤ (s.unit u).misses) :
    s.countMiss u = s.losing u (s.unit u).missed .lost := by
  refine (if_pos (.inr h)).trans ((if_neg (Nat.not_lt.mpr (Nat.succ_le_succ hm))).trans ?_)
  exact congrArg (State.handOn · _) (if_pos h)

theorem countMiss_of_many (hc : (s.unit u).state = .resync ∨ (s.unit u).state = .online) (hm : 2 ≤ (s.unit u).misses) :
    (s.countMiss u).unit u = (s.unit u).missed ∧ (s.countMiss u).pairTimers = s.pairTimers := by
  obtain h | h := hc
  · rw [countMiss_of_resync h hm]
    exact ⟨State.unit_setUnit_self s u _, rfl⟩
  · rw [countMiss_of_online h hm]
    exact ⟨losing_unit, losing_pairTimers⟩

theorem faultLine_of_lost {t : State} (hlive : t.inReset = false) (h : (t.unit u).state = .lost) :
    t.faultLine = true := by
  have hany : t.lostSet.any id = true :=
    List.any_eq_true.mpr ⟨true, List.mem_map.mpr ⟨u, mem_allUnits u, by rw [h]; rfl⟩, rfl⟩
  simp [State.faultLine, hlive, hany]

theorem linkWork_countMiss (s : State) (u : UnitNo) : LinkWork s (s.countMiss u) u := by
  by_cases hc : (s.unit u).state = .resync ∨ (s.unit u).state = .online
  · by_cases hm : (s.unit u).misses < 2
    · rw [countMiss_of_few hc hm]
      exact .setUnit s rfl
    · obtain h | h := hc
      · rw [countMiss_of_resync h (Nat.not_lt.mp hm)]
        exact .trans (LinkWork.setUnit s (r := (s.unit u).missed) rfl) (.handOn _ _ u)
      · rw [countMiss_of_online h (Nat.not_lt.mp hm)]
        exact linkWork_losing rfl
  · rw [countMiss_of_uncounted hc]
    exact .setUnit s rfl

end

theorem exec_answerTimeout {s : State} {x : Exchange} (hlive : s.inReset = false) (hx : s.link.exchange = some x)
    (hw : x.phase = .awaiting 0) : exec .answerTimeout s = .next (s.missedAnswer x).settle := by
  refine congrArg Host.Outcome.next ((live_of hlive _).trans ?_)
  rw [hx]
  exact if_pos hw

/-- Settles O19. -/
theorem answerTimesOut : Obligations.AnswerTimesOut := by
  intro s x hlive hr hx hw hb u r total counted
  rw [exec_answerTimeout hlive hx hw]
  by_cases hv : x.void = true
  · have hm : s.missedAnswer x = s.endTurn u := congrArg (State.endTurn · u) (if_pos hv)
    rw [hm]
    have hwork := LinkWork.refl s u
    have hrest := LinkWork.quiet (u := u) hr
    refine ⟨_, rfl, hwork.turnEnded, fun v hv => hwork.sameUnit_of_ne hv, fun _ => ⟨hrest, hwork.turnEnded, fun v => ?_⟩,
      fun h => ?_, fun h => ?_, fun h => ?_⟩
    · by_cases hvu : v = u
      · rw [hvu]
        exact LinkWork.sameUnit s u
      · exact hwork.sameUnit_of_ne hvu
    all_goals
      rw [hv] at h
      cases h
  · have hm : s.missedAnswer x = (s.countMiss u).endTurn u := congrArg (State.endTurn · u) (if_neg hv)
    rw [hm]
    have hwork := linkWork_countMiss s u
    have hunit := LinkWork.sameUnit (s.countMiss u) u
    refine ⟨_, rfl, hwork.turnEnded, fun v hv => hwork.sameUnit_of_ne hv, fun h => absurd h hv, fun _ hc => ?_,
      fun _ hc hfew => ?_, fun _ hc hmany => ?_⟩
    · rw [countMiss_of_uncounted hc, State.unit_setUnit_self] at hunit
      rw [countMiss_of_uncounted hc]
      exact ⟨LinkWork.quiet (m := s.setUnit u _) hr, hunit⟩
    · rw [countMiss_of_few hc hfew, State.unit_setUnit_self] at hunit
      rw [countMiss_of_few hc hfew]
      exact ⟨LinkWork.quiet (m := s.setUnit u _) hr, hunit⟩
    · obtain ⟨hlost, htimers⟩ := countMiss_of_many hc hmany
      rw [hlost] at hunit
      have hemits := hwork.emits
      rw [htimers] at hemits
      have hreset : ((s.countMiss u).endTurn u).settle.inReset = false := hemits.inReset.trans hlive
      refine ⟨by rw [LinkWork.ended_inputs, LinkWork.ended_changeQueue]; exact hemits, hunit,
        faultLine_of_lost hreset hunit.state, ?_⟩
      obtain h | h := hc
      · have hmiss := countMiss_of_resync h hmany
        have hend : ((s.countMiss u).endTurn u).raisings = [unitFault u .lost] := by
          rw [LinkWork.endTurn_raisings, hmiss]
          exact congrArg (· ++ _) hr
        have hlinks := hwork.links.trans (links_endTurn (s.countMiss u) u)
        refine ⟨settle_flagSet (hend ▸ List.mem_singleton_self (unitFault u .lost)),
          hlinks.flagsOnly hr fun q hq => ?_, fun _ => ⟨?_, ?_, ?_⟩, fun ho => absurd (h.symm.trans ho) (by decide)⟩
        · rw [hend] at hq
          rw [List.mem_singleton.mp hq]
          exact List.mem_cons_of_mem _ List.mem_cons_self
        · rw [LinkWork.ended_inputs, hmiss]
          rfl
        · rw [LinkWork.ended_changeQueue, hmiss]
          rfl
        · have hfirst := hlinks.first hend hb
          rwa [draft_unitFault] at hfirst
      · rw [countMiss_of_online h hmany]
        exact ⟨unitFault_losing hr, flagsOnly_losing rfl hr, fun ho => absurd (h.symm.trans ho) (by decide),
          fun _ => ⟨inputsLost_losing hr, appendsFirst_losing rfl hr hb⟩⟩

end Sys2Proof.Machine
end

section
/-! PROOFS. The line of the expansion link (R137): what ends a message, and what the master discards. -/

namespace Sys2Proof.Machine

section
variable {s : State} {x : Exchange}

/-- A frame whose bytes ask for no length ends as a discard (R137). -/
theorem linkBytes_refused (hw : s.Waiting x) (hr : s.link.rx = .hunting) (l : List Byte) (last : Byte)
    (h : ∀ k, k < l.length → ∃ n, linkBodyLength (l.take (k + 1)) = some n ∧ k + 1 < n + 4)
    (hn : linkBodyLength (l ++ [last]) = none) : s.linkBytes (goodBytes (linkStart :: (l ++ [last]))) = s := by
  have hbytes : goodBytes (linkStart :: (l ++ [last])) = ⟨linkStart, false⟩ :: (goodBytes l ++ [⟨last, false⟩]) := by
    simp [goodBytes]
  rw [hbytes]
  show (s.linkByte ⟨linkStart, false⟩).linkBytes (goodBytes l ++ [⟨last, false⟩]) = s
  rw [linkByte_start hw hr, linkBytes_append, linkBytes_partial hw l [] s.now (by simpa using h)]
  show (s.setLinkRx (.partialFrame l s.now)).linkByte ⟨last, false⟩ = s
  have hrx : (s.setLinkRx (.partialFrame l s.now)).link.rx = .partialFrame l s.now := rfl
  rw [linkByte_waiting (waiting_setLinkRx hw _)]
  unfold State.linkByteWaiting
  rw [hrx]
  dsimp only
  rw [hn, if_neg (by decide)]
  exact setLinkRx_self hr

theorem linkBodyLength_of_type {address type : Byte} (h : type ∉ [0x81#8, 0x82#8, 0x83#8]) :
    linkBodyLength [address, type] = none := by
  simp only [List.mem_cons, List.not_mem_nil, or_false, not_or] at h
  unfold linkBodyLength
  simp [h.1, h.2.1, h.2.2]

theorem linkBodyLength_of_count {address seq flags count : Byte} (h : 8 < count.toNat) :
    linkBodyLength [address, 0x83#8, seq, flags, count] = none := by
  simp [linkBodyLength, Nat.not_le.mpr h]

/-- While nothing is awaited every byte is discarded (R137). -/
theorem linkBytes_idle (h : ∀ b, s.linkByte b = s) (l : List RxByte) : s.linkBytes l = s := by
  induction l with
  | nil => rfl
  | cons b l ih =>
    show (s.linkByte b).linkBytes l = s
    rw [h, ih]

theorem linkByte_of_none (h : s.link.exchange = none) (b : RxByte) : s.linkByte b = s := by
  unfold State.linkByte
  rw [h]

theorem linkByte_of_sending (h : s.link.exchange = some x) (hp : x.phase = .sending) (b : RxByte) :
    s.linkByte b = s := by
  unfold State.linkByte
  rw [h]
  exact if_pos hp

/-! ### The events -/

theorem exec_linkFrameRejected (hlive : s.inReset = false) (bytes : List RxByte) :
    exec (.linkFrameRejected bytes) s = .next (s.linkBytes bytes).settle := congrArg Host.Outcome.next (live_of hlive _)

/-- Bytes that leave the state as it is are discarded, and those after them are judged as if they came alone. -/
theorem discarded_of_linkBytes (hlive : s.inReset = false) (hr : s.raisings = []) {bytes : List RxByte}
    (h : s.linkBytes bytes = s) :
    exec (.linkFrameRejected bytes) s = .next s
      ∧ ∀ more, exec (.linkFrameRejected (bytes ++ more)) s = exec (.linkFrameRejected more) s := by
  refine ⟨?_, fun more => ?_⟩
  · rw [exec_linkFrameRejected hlive, h, settle_of_none hr]
  · rw [exec_linkFrameRejected hlive, exec_linkFrameRejected hlive, linkBytes_append, h]

theorem exec_linkMessageEnd (hlive : s.inReset = false) (hx : s.link.exchange = some x) (hp : x.phase = .sending) :
    exec .linkMessageEnd s =
      .next { s with link := { s.link with exchange := some { x with phase := .awaiting 4 }, rx := .hunting } } := by
  refine congrArg Host.Outcome.next ((live_of hlive _).trans ?_)
  rw [hx]
  exact if_pos hp

end

/-- Settles O20. -/
theorem linkLine : Obligations.LinkLine := by
  intro s hlive hr hunting
  refine ⟨fun x hx hp => ⟨_, exec_linkMessageEnd hlive hx hp, rfl, rfl⟩, congrArg Host.Outcome.next (live_of hlive _),
    fun bytes hx => ?_, fun x hx => ⟨fun hp bytes => ?_, fun left hp => ?_⟩⟩
  · rw [exec_linkFrameRejected hlive, linkBytes_idle (linkByte_of_none hx), settle_of_none hr]
  · rw [exec_linkFrameRejected hlive, linkBytes_idle (linkByte_of_sending hx hp), settle_of_none hr]
  have hw : s.Waiting x := ⟨hx, by rw [hp]; nofun⟩
  have discards {bytes : List RxByte} (h : s.linkBytes bytes = s) := discarded_of_linkBytes hlive hr h
  refine ⟨fun bytes arrival b hrx hb => ?_, fun hrx => ?_⟩
  · have hbytes : s.linkBytes [b] = hunting := linkByte_low hw hrx hb
    rw [exec_linkFrameRejected hlive, hbytes]
    exact congrArg Host.Outcome.next (settle_of_none hr)
  intro discarded
  refine ⟨fun bytes h => ?_, fun address type h => ?_, fun address seq flags count h => ?_,
    fun address type body check hl hc => ?_⟩
  · exact discards (linkBytes_noStart hrx bytes h)
  · refine discards (linkBytes_refused hw hrx [address] type (fun k hk => ?_) (linkBodyLength_of_type h))
    obtain rfl : k = 0 := by simpa using hk
    exact ⟨3, rfl, by decide⟩
  · refine discards (linkBytes_refused hw hrx [address, 0x83#8, seq, flags] count (fun k hk => ?_)
      (linkBodyLength_of_count h))
    match k, hk with
    | 0, _ | 1, _ | 2, _ | 3, _ => exact ⟨3, rfl, by decide⟩
  · refine ⟨fun before after b hf ha hb => discards (linkBytes_cut hw hrx hl hc hf ha hb), fun hbad => ?_⟩
    refine discards ((linkBytes_frame hw hrx address hl hc).trans (if_neg fun h => ?_))
    obtain ⟨h1, h2, h3⟩ := (accepts_linkFrame x address type body check hc).mp h
    obtain hbad | hbad | hbad := hbad
    · exact hbad h1
    · exact hbad h2
    · exact hbad h3

end Sys2Proof.Machine
end

section
/-! PROOFS. The expansion link: snapshot answers (R141, R121). -/

namespace Sys2Proof.Machine

/-! ### The levels of a picture -/

/-- The record takes a level; a different one is stamped (R121). -/
def InputRec.atLevel (r : InputRec) (l : Level) (stamp : TimeStamp) : InputRec :=
  { r with level := l, lastChange := if l = r.level then r.lastChange else some stamp }

theorem takeSnapshotLevel_inp (levels : BitVec 64) (st : TimeStamp) (s : State) (i j : InputNo) :
    (takeSnapshotLevel levels st s i).inp j =
      if j = i then (s.inp j).atLevel (levelOfBit (hasBit levels (j.val % 64))) st else s.inp j := by
  unfold takeSnapshotLevel InputRec.atLevel
  dsimp only
  by_cases hj : j = i
  · subst hj
    rw [if_pos rfl]
    by_cases hl : levelOfBit (hasBit levels (j.val % 64)) = (s.inp j).level
    · rw [if_pos hl, if_pos hl, hl]
    · rw [if_neg hl, if_neg hl, State.inp_setInp_self]
  · rw [if_neg hj]
    split
    · rfl
    · exact State.inp_setInp_of_ne _ _ hj

theorem takeSnapshotLevel_pass (levels : BitVec 64) (st : TimeStamp) (l : List InputNo) (hn : l.Nodup) (s : State)
    (j : InputNo) :
    (l.foldl (takeSnapshotLevel levels st) s).inp j =
      if j ∈ l then (s.inp j).atLevel (levelOfBit (hasBit levels (j.val % 64))) st else s.inp j := by
  induction l generalizing s with
  | nil => simp
  | cons i l ih =>
    rw [List.nodup_cons] at hn
    rw [List.foldl_cons, ih hn.2, takeSnapshotLevel_inp]
    by_cases hj : j = i
    · subst hj
      rw [if_neg hn.1, if_pos rfl, if_pos List.mem_cons_self]
    · simp [hj]

/-! ### The pairs of a picture -/

theorem pairOf_evenInput : ∀ k, pairOf (evenInput k) = k := by decide +kernel

theorem pairOf_oddInput : ∀ k, pairOf (oddInput k) = k := by decide +kernel

theorem pairOf_partnerOf : ∀ i, pairOf (partnerOf i) = pairOf i := by decide +kernel

theorem pairOf_unitInputs : ∀ u, ∀ i ∈ unitInputs u, pairOf i ∈ unitPairs u := by decide +kernel

/-- The input is of a complementary pair whose levels differ. -/
abbrev State.LiesApart (s : State) (i : InputNo) : Prop :=
  s.paired (pairOf i) = true ∧ (s.inp i).level ≠ (s.inp (partnerOf i)).level

section
variable {s : State} {k : PairNo}

theorem testPairSet_inp (j : InputNo) :
    (testPairSet s k).inp j =
      if pairOf j = k ∧ s.LiesApart j then { s.inp j with discrepant := false } else s.inp j := by
  by_cases hj : pairOf j = k
  · subst hj
    unfold testPairSet
    by_cases hp : s.paired (pairOf j) = true
    · rw [if_pos hp]
      by_cases hl : (s.inp j).level = (s.inp (partnerOf j)).level
      · rw [pairTest_of_equal hl, if_neg fun h => h.2.2 hl]
        rfl
      · rw [pairTest_of_apart hl, if_pos ⟨rfl, hp, hl⟩, inp_setDiscrepant, if_pos (.inl rfl)]
        rfl
    · rw [if_neg hp, if_neg fun h => hp h.2.1]
  · rw [if_neg fun h => hj h.1]
    refine (filters_ite (filters_pairTest s k) (.refl _ _)).off j ?_
    rintro (rfl | rfl)
    · exact hj (pairOf_evenInput k)
    · exact hj (pairOf_oddInput k)

theorem testPairSet_pairTimer (x : PairNo) :
    (testPairSet s k).pairTimer x =
      if x = k ∧ s.paired x = true then
        if (s.inp (evenInput x)).level = (s.inp (oddInput x)).level then
          some ((s.pairTimer x).getD s.settings.discrepancyMs)
        else none
      else s.pairTimer x := by
  unfold testPairSet
  by_cases hp : s.paired k = true
  · rw [if_pos hp]
    unfold State.pairTest
    by_cases hx : x = k
    · subst hx
      rw [if_pos (c := x = x ∧ _) ⟨rfl, hp⟩]
      by_cases hl : (s.inp (evenInput x)).level = (s.inp (oddInput x)).level
      · rw [if_pos hl, if_pos hl]
        cases ht : s.pairTimer x with
        | none => exact State.pairTimer_setPairTimer_self ..
        | some n => exact ht
      · rw [if_neg hl, if_neg hl]
        exact State.pairTimer_setPairTimer_self ..
    · rw [if_neg (c := x = k ∧ _) fun h => hx h.1]
      split
      · split
        · exact State.pairTimer_setPairTimer_of_ne _ _ hx
        · rfl
      · exact State.pairTimer_setPairTimer_of_ne s none hx
  · rw [if_neg hp]
    refine (if_neg fun h => ?_).symm
    obtain ⟨rfl, h⟩ := h
    exact hp h

end

/-- From `s` to `t` the input records and the pair timers alone have moved. -/
def FilterOnly (s t : State) : Prop := ∃ a b, t = { s with inputs := a, pairTimers := b }

namespace FilterOnly

variable {s t v : State}

theorem refl (s : State) : FilterOnly s s := ⟨s.inputs, s.pairTimers, rfl⟩

theorem trans (h : FilterOnly s t) (k : FilterOnly t v) : FilterOnly s v := by
  obtain ⟨a, b, rfl⟩ := h
  obtain ⟨c, d, rfl⟩ := k
  exact ⟨c, d, rfl⟩

theorem of_inputs (h : InputsOnly s t) : FilterOnly s t := by
  obtain ⟨a, rfl⟩ := h
  exact ⟨a, s.pairTimers, rfl⟩

theorem foldl {α : Type} {f : State → α → State} (hf : ∀ t a, FilterOnly t (f t a)) (l : List α) (s : State) :
    FilterOnly s (l.foldl f s) := by
  induction l generalizing s with
  | nil => exact refl s
  | cons a l ih => exact (hf s a).trans (ih (f s a))

theorem mode (h : FilterOnly s t) : t.mode = s.mode := by
  obtain ⟨a, b, rfl⟩ := h
  rfl

theorem changeQueue (h : FilterOnly s t) : t.changeQueue = s.changeQueue := by
  obtain ⟨a, b, rfl⟩ := h
  rfl

theorem raisings (h : FilterOnly s t) : t.raisings = s.raisings := by
  obtain ⟨a, b, rfl⟩ := h
  rfl

theorem now (h : FilterOnly s t) : t.now = s.now := by
  obtain ⟨a, b, rfl⟩ := h
  rfl

theorem settings (h : FilterOnly s t) : t.settings = s.settings := by
  obtain ⟨a, b, rfl⟩ := h
  rfl

theorem paired (h : FilterOnly s t) (k : PairNo) : t.paired k = s.paired k := by
  obtain ⟨a, b, rfl⟩ := h
  rfl

end FilterOnly

theorem filterOnly_testPairSet (s : State) (k : PairNo) : FilterOnly s (testPairSet s k) := by
  unfold testPairSet
  split
  · exact ⟨_, _, pairTest_rest k⟩
  · exact .refl s

theorem testPairSet_level (s : State) (k : PairNo) (j : InputNo) : ((testPairSet s k).inp j).level = (s.inp j).level := by
  rw [testPairSet_inp]
  split <;> rfl

theorem testPairSet_pass_inp (l : List PairNo) (s : State) (j : InputNo) :
    (l.foldl testPairSet s).inp j =
      if pairOf j ∈ l ∧ s.LiesApart j then { s.inp j with discrepant := false } else s.inp j := by
  induction l generalizing s with
  | nil => simp
  | cons k l ih =>
    have hapart : (testPairSet s k).LiesApart j ↔ s.LiesApart j := by
      unfold State.LiesApart
      rw [(filterOnly_testPairSet s k).paired, testPairSet_level, testPairSet_level]
    rw [List.foldl_cons, ih, if_congr (and_congr_right' hapart) rfl rfl, testPairSet_inp]
    by_cases hj : s.LiesApart j
    · by_cases hk : pairOf j = k
      · rw [if_pos (c := pairOf j = k ∧ _) ⟨hk, hj⟩, if_pos (c := pairOf j ∈ k :: l ∧ _) ⟨hk ▸ List.mem_cons_self, hj⟩]
        split <;> rfl
      · simp [hk]
    · simp [hj]

theorem testPairSet_pass_pairTimer (l : List PairNo) (s : State) (x : PairNo) :
    (l.foldl testPairSet s).pairTimer x =
      if x ∈ l ∧ s.paired x = true then
        if (s.inp (evenInput x)).level = (s.inp (oddInput x)).level then
          some ((s.pairTimer x).getD s.settings.discrepancyMs)
        else none
      else s.pairTimer x := by
  induction l generalizing s with
  | nil => simp
  | cons k l ih =>
    have hstep := filterOnly_testPairSet s k
    rw [List.foldl_cons, ih, testPairSet_level, testPairSet_level, hstep.paired, hstep.settings, testPairSet_pairTimer]
    by_cases hp : s.paired x = true
    · by_cases hx : x = k
      · by_cases hl : (s.inp (evenInput x)).level = (s.inp (oddInput x)).level
        · simp [← hx, hp, hl]
        · simp [← hx, hp, hl]
      · simp [hx, hp]
    · simp [hp]

/-! ### The picture -/

/-- The unit's inputs at the levels of a picture, not lost, with their pairs tested and their qualities formed (R121). -/
def State.pictured (s : State) (u : UnitNo) (levels : BitVec 64) (st : TimeStamp) : State :=
  (unitInputs u).foldl (State.formQuality · st)
    ((unitPairs u).foldl testPairSet
      ((unitInputs u).foldl (setUnitLost false) ((unitInputs u).foldl (takeSnapshotLevel levels st) s)))

section
variable (s : State) (u : UnitNo) (levels : BitVec 64) (st : TimeStamp)

theorem takenLevels_inputsOnly : InputsOnly s
    ((unitInputs u).foldl (setUnitLost false) ((unitInputs u).foldl (takeSnapshotLevel levels st) s)) := by
  refine (InputsOnly.foldl (fun t i => ?_) (unitInputs u) s).trans (.foldl (fun t i => ⟨_, rfl⟩) _ _)
  unfold takeSnapshotLevel
  dsimp only
  split
  · exact ⟨t.inputs, rfl⟩
  · exact ⟨_, rfl⟩

theorem filterOnly_pictured : FilterOnly s (s.pictured u levels st) :=
  ((FilterOnly.of_inputs (takenLevels_inputsOnly s u levels st)).trans (.foldl filterOnly_testPairSet _ _)).trans
    (.of_inputs (.foldl (fun t i => ⟨_, formQuality_rest t st i⟩) _ _))

variable {s u levels st}

/-- The level that a picture gives an input of the unit. -/
abbrev pictureLevel (levels : BitVec 64) (i : InputNo) : Level := levelOfBit (hasBit levels (i.val % 64))

theorem mem_unitInputs_partnerOf {i : InputNo} (hi : i ∈ unitInputs u) : partnerOf i ∈ unitInputs u := by
  revert u i
  decide +kernel

theorem mem_unitInputs_pair {k : PairNo} (hk : k ∈ unitPairs u) : evenInput k ∈ unitInputs u ∧ oddInput k ∈ unitInputs u :=
  ⟨ofPair_unitPairs hk (.inl rfl), ofPair_unitPairs hk (.inr rfl)⟩

/-- The levels set and the inputs found. -/
theorem takenLevels_inp (j : InputNo) :
    (((unitInputs u).foldl (setUnitLost false) ((unitInputs u).foldl (takeSnapshotLevel levels st) s)).inp j) =
      if j ∈ unitInputs u then { (s.inp j).atLevel (pictureLevel levels j) st with unitLost := false } else s.inp j := by
  rw [setUnitLost_inp, takeSnapshotLevel_pass _ _ _ (unitInputs_nodup u)]
  split <;> rfl

theorem pictured_inp {i : InputNo} (hi : i ∈ unitInputs u) :
    (s.pictured u levels st).inp i =
      { (s.inp i).atLevel (pictureLevel levels i) st with unitLost := false }.formedWith
        (if s.paired (pairOf i) = true ∧ pictureLevel levels i ≠ pictureLevel levels (partnerOf i) then false
          else (s.inp i).discrepant) st := by
  have htaken : FilterOnly s
      ((unitInputs u).foldl (setUnitLost false) ((unitInputs u).foldl (takeSnapshotLevel levels st) s)) :=
    .of_inputs (takenLevels_inputsOnly s u levels st)
  have hself := takenLevels_inp (s := s) (u := u) (levels := levels) (st := st) i
  have hpartner := takenLevels_inp (s := s) (u := u) (levels := levels) (st := st) (partnerOf i)
  rw [if_pos hi] at hself
  rw [if_pos (mem_unitInputs_partnerOf hi)] at hpartner
  unfold State.pictured
  rw [formPass_inp _ _ (unitInputs_nodup u), if_pos hi, testPairSet_pass_inp]
  unfold State.LiesApart
  rw [htaken.paired, hself, hpartner]
  have hpair := pairOf_unitInputs u i hi
  by_cases ha : s.paired (pairOf i) = true ∧ pictureLevel levels i ≠ pictureLevel levels (partnerOf i)
  · rw [if_pos ⟨hpair, ha⟩, if_pos ha]
    rfl
  · rw [if_neg fun h => ha h.2, if_neg ha]
    rfl

theorem pictured_inp_of_not_mem {i : InputNo} (hi : i ∉ unitInputs u) : (s.pictured u levels st).inp i = s.inp i := by
  have hself := takenLevels_inp (s := s) (u := u) (levels := levels) (st := st) i
  rw [if_neg hi] at hself
  unfold State.pictured
  rw [formPass_inp _ _ (unitInputs_nodup u), if_neg hi, testPairSet_pass_inp, if_neg, hself]
  intro h
  refine hi ?_
  obtain ⟨he, -⟩ | ⟨-, ho⟩ := pair_cases i
  · exact he ▸ (mem_unitInputs_pair h.1).1
  · exact ho ▸ (mem_unitInputs_pair h.1).2

theorem pictured_pairTimer (k : PairNo) :
    (s.pictured u levels st).pairTimer k =
      if k ∈ unitPairs u ∧ s.paired k = true then
        if pictureLevel levels (evenInput k) = pictureLevel levels (oddInput k) then
          some ((s.pairTimer k).getD s.settings.discrepancyMs)
        else none
      else s.pairTimer k := by
  have htaken := takenLevels_inputsOnly s u levels st
  have hpairs := testPairSet_pass_pairTimer (unitPairs u)
    ((unitInputs u).foldl (setUnitLost false) ((unitInputs u).foldl (takeSnapshotLevel levels st) s)) k
  have htimer : (s.pictured u levels st).pairTimers = ((unitPairs u).foldl testPairSet
      ((unitInputs u).foldl (setUnitLost false) ((unitInputs u).foldl (takeSnapshotLevel levels st) s))).pairTimers :=
    (InputsOnly.foldl (fun t i => ⟨_, formQuality_rest t st i⟩) _ _).pairTimers
  have hkept (x : PairNo) : State.pairTimer
      ((unitInputs u).foldl (setUnitLost false) ((unitInputs u).foldl (takeSnapshotLevel levels st) s)) x =
        s.pairTimer x := by
    simp [State.pairTimer, htaken.pairTimers]
  rw [(FilterOnly.of_inputs htaken).paired, (FilterOnly.of_inputs htaken).settings, hkept] at hpairs
  refine (by simp [State.pairTimer, htimer] : _ = _).trans (hpairs.trans ?_)
  by_cases hk : k ∈ unitPairs u ∧ s.paired k = true
  · obtain ⟨he, ho⟩ := mem_unitInputs_pair hk.1
    rw [if_pos hk, if_pos hk, takenLevels_inp, takenLevels_inp, if_pos he, if_pos ho]
    rfl
  · rw [if_neg hk, if_neg hk]

end

end Sys2Proof.Machine
end

section
/-! PROOFS. The expansion link: the two passes of a snapshot answer (R141, R121, R123 to R125). -/

namespace Sys2Proof.Machine

/-- A pass that queues an entry for some of the inputs is a pass of those entries. -/
theorem pass_eq_filter {m : State} {f : State → InputNo → State} {p : InputNo → Bool} {e : InputNo → ChangeEntry}
    (l : List InputNo) (hf : ∀ t, Queues m t → ∀ i ∈ l, f t i = if p i then t.queueEntry (e i) else t) (t : State)
    (ht : Queues m t) : l.foldl f t = ((l.filter p).map e).foldl State.queueEntry t := by
  induction l generalizing t with
  | nil => rfl
  | cons i l ih =>
    have hl : ∀ t, Queues m t → ∀ j ∈ l, f t j = if p j then t.queueEntry (e j) else t := fun t ht j hj =>
      hf t ht j (List.mem_cons_of_mem _ hj)
    rw [List.foldl_cons, hf t ht i List.mem_cons_self, List.filter_cons]
    cases hp : p i with
    | false => exact ih hl t ht
    | true => exact ih hl _ (ht.trans (queues_queueEntry t (e i)))

section
variable (s : State) (u : UnitNo) (levels : BitVec 64) (st : TimeStamp)

/-- The quality that a picture leaves an input of the unit (R122). -/
def State.picturedQuality (i : InputNo) : InQuality :=
  qualityOf false
    (if s.paired (pairOf i) = true ∧ pictureLevel levels i ≠ pictureLevel levels (partnerOf i) then false
      else (s.inp i).discrepant) (s.inp i).chatterActive

/-- The entries of the first pass (R121). -/
def State.pictureQualities : List ChangeEntry :=
  ((unitInputs u).filter fun i => s.picturedQuality levels i != (s.inp i).reported).map fun i =>
    ⟨.quality, i, pictureLevel levels i, s.picturedQuality levels i, st, true⟩

/-- The entries of the second pass (R121). -/
def State.pictureLevels : List ChangeEntry :=
  ((unitInputs u).filter fun i => pictureLevel levels i != (s.inp i).level && s.picturedQuality levels i == .good).map
    fun i => ⟨.level, i, pictureLevel levels i, .good, st, true⟩

variable {s u levels st}

theorem nodup_entries (p : InputNo → Bool) {e : InputNo → ChangeEntry} (he : ∀ i, (e i).input = i) :
    ((((unitInputs u).filter p).map e).map ChangeEntry.input).Nodup := by
  rw [List.map_map, (funext he : ChangeEntry.input ∘ e = id), List.map_id]
  exact (unitInputs_nodup u).filter p

theorem reported_pictured {i : InputNo} (hi : i ∈ unitInputs u) :
    ((s.pictured u levels st).inp i).reported = s.picturedQuality levels i := by
  rw [pictured_inp hi]
  rfl

theorem level_pictured {i : InputNo} (hi : i ∈ unitInputs u) :
    ((s.pictured u levels st).inp i).level = pictureLevel levels i := by
  rw [pictured_inp hi]
  rfl

/-- A snapshot claim is the picture and two passes of entries. -/
theorem snapshotClaim_eq :
    s.snapshotClaim u levels st =
      (s.pictureLevels u levels st).foldl State.queueEntry
        ((s.pictureQualities u levels st).foldl State.queueEntry (s.pictured u levels st)) := by
  have hfirst := pass_eq_filter (m := s.pictured u levels st) (f := snapshotQuality s st)
    (p := fun i => s.picturedQuality levels i != (s.inp i).reported)
    (e := fun i => ⟨.quality, i, pictureLevel levels i, s.picturedQuality levels i, st, true⟩) (unitInputs u)
    (fun t ht i hi => by
      unfold snapshotQuality State.entryOf
      rw [ht.reported, ht.level, reported_pictured hi, level_pictured hi]
      simp) (s.pictured u levels st) (.refl _)
  have hsecond := pass_eq_filter (m := s.pictured u levels st) (f := snapshotLevel s st)
    (p := fun i => pictureLevel levels i != (s.inp i).level && s.picturedQuality levels i == .good)
    (e := fun i => ⟨.level, i, pictureLevel levels i, .good, st, true⟩) (unitInputs u)
    (fun t ht i hi => by
      unfold snapshotLevel State.entryOf
      rw [ht.reported, ht.level, reported_pictured hi, level_pictured hi]
      by_cases hq : s.picturedQuality levels i = .good
      · rw [hq]
        simp
      · rw [if_neg fun h => hq h.2, if_neg (by simp [hq])])
    ((s.pictureQualities u levels st).foldl State.queueEntry (s.pictured u levels st)) (queues_pass _ _)
  unfold State.snapshotClaim
  dsimp only
  exact (congrArg (List.foldl (snapshotLevel s st) · (unitInputs u)) hfirst).trans hsecond

/-- The state between the two passes. -/
def State.betweenPasses (s : State) (u : UnitNo) (levels : BitVec 64) (st : TimeStamp) : State :=
  (s.pictureQualities u levels st).foldl State.queueEntry (s.pictured u levels st)

theorem queued_pictured (j : InputNo) :
    ((s.pictured u levels st).inp j).queuedLevel = (s.inp j).queuedLevel
      ∧ ((s.pictured u levels st).inp j).queuedQuality = (s.inp j).queuedQuality
      ∧ ((s.pictured u levels st).inp j).deferred = (s.inp j).deferred := by
  by_cases hj : j ∈ unitInputs u
  · rw [pictured_inp hj]
    exact ⟨rfl, rfl, rfl⟩
  · rw [pictured_inp_of_not_mem hj]
    exact ⟨rfl, rfl, rfl⟩

/-- What the two passes have produced, and what they hand on. -/
theorem snapshotClaim_passes :
    (s.betweenPasses u levels st).mode = s.mode
      ∧ EntriesProduced s (s.betweenPasses u levels st) (s.pictureQualities u levels st)
      ∧ EntriesProduced (s.betweenPasses u levels st) (s.snapshotClaim u levels st) (s.pictureLevels u levels st)
      ∧ (s.overflowing (s.pictureQualities u levels st) ≠ []
            ∨ (s.betweenPasses u levels st).overflowing (s.pictureLevels u levels st) ≠ [] →
          plainRaising .changeDeferred ∈ (s.snapshotClaim u levels st).raisings) := by
  have hpicture := filterOnly_pictured s u levels st
  have hn1 : ((s.pictureQualities u levels st).map ChangeEntry.input).Nodup := nodup_entries _ fun _ => rfl
  have hn2 : ((s.pictureLevels u levels st).map ChangeEntry.input).Nodup := nodup_entries _ fun _ => rfl
  obtain ⟨hproduced, hover⟩ := EntriesProduced.congr (s := s)
    (entriesProduced_pass (s.pictureQualities u levels st) hn1 (s.pictured u levels st)) hpicture.mode
    hpicture.changeQueue queued_pictured
  have hmode : (s.betweenPasses u levels st).mode = s.mode := by
    have h : Filters (s.pictured u levels st) (s.betweenPasses u levels st) fun _ => True :=
      .foldl (fun t e _ => (filters_queueEntry t e).mono fun _ _ => trivial) _
    exact h.mode.trans hpicture.mode
  have hclaim : s.snapshotClaim u levels st =
      (s.pictureLevels u levels st).foldl State.queueEntry (s.betweenPasses u levels st) := snapshotClaim_eq
  refine ⟨hmode, hproduced, ?_, ?_⟩
  · rw [hclaim]
    exact entriesProduced_pass _ hn2 _
  rintro (h | h)
  · rw [← hover] at h
    have hfirst := overflow_waits _ hn1 h
    rw [hclaim, raisings_pass _ hn2]
    exact List.mem_append_left _ hfirst
  · rw [hclaim]
    exact overflow_waits _ hn2 h

theorem queues_snapshotClaim : Queues (s.pictured u levels st) (s.snapshotClaim u levels st) := by
  rw [snapshotClaim_eq]
  exact (queues_pass _ _).trans (queues_pass _ _)

end

/-! ### The answer -/

section
variable {s : State} {u : UnitNo} {seq : Byte} {levels : List Byte}

/-- The levels of a snapshot answer, as one number (Table 10-11). -/
def answerLevels (levels : List Byte) : BitVec 64 := BitVec.ofNat 64 (lowFirst levels)

theorem pictureLevel_answer (levels : List Byte) (i : InputNo) :
    pictureLevel (answerLevels levels) i =
      levelOfBit ((levels.getD (i.val % 64 / 8) 0).getLsbD (i.val % 8)) := by
  have hm : i.val % 64 % 8 = i.val % 8 := by omega
  unfold pictureLevel answerLevels
  rw [snapshot_bit levels _ (Nat.mod_lt _ (by decide)), hm]

/-- The state at the claim: the unit has taken its number. -/
def State.numbered (s : State) (u : UnitNo) (seq : Byte) : State := s.setUnit u { s.unit u with lastSeq := seq.toNat }

/-- The state after the claim of a snapshot answer. -/
def State.answerPictured (s : State) (u : UnitNo) (seq : Byte) (levels : List Byte) : State :=
  (s.numbered u seq).snapshotClaim u (answerLevels levels) s.now

theorem snapshotGood_eq : s.snapshotGood u (seq :: levels) =
    (s.answerPictured u seq levels).setUnit u
      { (s.answerPictured u seq levels).unit u with state := .online, misses := 0 } := rfl

theorem filters_answerPictured : Filters (s.numbered u seq) (s.answerPictured u seq levels) (· ∈ unitInputs u) :=
  filters_snapshotClaim _ u _ _

theorem answerPictured_unit : (s.answerPictured u seq levels).unit u = { s.unit u with lastSeq := seq.toNat } := by
  have hunit : (s.answerPictured u seq levels).unit u = (s.numbered u seq).unit u := by
    simp [State.unit, filters_answerPictured.link]
  exact hunit.trans (State.unit_setUnit_self s u _)

theorem snapshotGood_unit : (s.snapshotGood u (seq :: levels)).unit u =
    { s.unit u with state := .online, misses := 0, lastSeq := seq.toNat } := by
  rw [snapshotGood_eq, State.unit_setUnit_self, answerPictured_unit]

theorem linkWork_snapshotGood : LinkWork s (s.snapshotGood u (seq :: levels)) u := by
  rw [snapshotGood_eq]
  have h1 : LinkWork s (s.numbered u seq) u := .setUnit s rfl
  have h2 : LinkWork (s.numbered u seq) (s.answerPictured u seq levels) u := .of_filters filters_answerPictured u
  have h3 (t : State) : LinkWork t (t.setUnit u { t.unit u with state := .online, misses := 0 }) u := .setUnit t rfl
  exact (h1.trans h2).trans (h3 _)

/-- But for the link, a snapshot answer has done what its claim does. -/
theorem snapshotGood_claim :
    (s.snapshotGood u (seq :: levels)).inputs = (s.answerPictured u seq levels).inputs
      ∧ (s.snapshotGood u (seq :: levels)).pairTimers = (s.answerPictured u seq levels).pairTimers
      ∧ (s.snapshotGood u (seq :: levels)).changeQueue = (s.answerPictured u seq levels).changeQueue
      ∧ (s.snapshotGood u (seq :: levels)).raisings = (s.answerPictured u seq levels).raisings := by
  rw [snapshotGood_eq]
  generalize s.answerPictured u seq levels = t
  exact ⟨rfl, rfl, rfl, rfl⟩

end

/-- Settles O17: the answer is a picture of the unit and two passes of entries. -/
theorem snapshotAnswered : Obligations.SnapshotAnswered := by
  intro s x left seq levels hlive hr hx hw hk hrx hl u level apart discrepant quality qualityEntries levelEntries answered
  have hanswered : answered = .next (s.goodAnswer x (seq :: levels) s.now).settle := by
    have hlen : LinkLength (BitVec.ofNat 8 0x82) (seq :: levels) := .inr (.inl ⟨rfl, congrArg Nat.succ hl⟩)
    exact (congrArg Host.Outcome.next (live_of hlive _)).trans
      (by rw [linkBytes_answer hx hw hrx (by rw [hk]; rfl) hlen])
  rw [hanswered]
  refine ⟨fun hv => ⟨_, rfl, voidEnded_goodAnswer hv hr _ s.now⟩, fun hv => ⟨_, rfl, ?_⟩⟩
  have hgood : s.goodAnswer x (seq :: levels) s.now = (s.snapshotGood u (seq :: levels)).endTurn u := by
    unfold State.goodAnswer
    rw [if_neg (by simp [hv]), hk]
  rw [hgood]
  have hwork : LinkWork s (s.snapshotGood u (seq :: levels)) u := linkWork_snapshotGood
  have hunit := LinkWork.sameUnit (s.snapshotGood u (seq :: levels)) u
  rw [snapshotGood_unit] at hunit
  obtain ⟨hinputs, htimers, hqueue, hraisings⟩ := snapshotGood_claim (s := s) (u := u) (seq := seq) (levels := levels)
  obtain ⟨m, hm⟩ : ∃ m, m = s.snapshotGood u (seq :: levels) := ⟨_, rfl⟩
  rw [← hm] at hwork hunit hinputs htimers hqueue hraisings ⊢
  have hlevel : level = pictureLevel (answerLevels levels) := funext fun i => (pictureLevel_answer levels i).symm
  clear_value level
  subst hlevel
  have hends := hwork.emits
  rw [← LinkWork.ended_inputs m u, ← LinkWork.ended_pairTimers m u, ← LinkWork.ended_changeQueue m u] at hends
  have hqueues : Queues ((s.numbered u seq).pictured u (answerLevels levels) s.now) (s.answerPictured u seq levels) :=
    queues_snapshotClaim
  have hinp (i : InputNo) : (m.endTurn u).settle.inp i = (s.answerPictured u seq levels).inp i := by
    rw [LinkWork.ended_inp]
    simp [State.inp, hinputs]
  have htimer (k : PairNo) : (m.endTurn u).settle.pairTimer k =
      ((s.numbered u seq).pictured u (answerLevels levels) s.now).pairTimer k := by
    simp [State.pairTimer, LinkWork.ended_pairTimers, htimers, hqueues.timers]
  refine ⟨hends, hwork.turnEnded, hunit, fun v hv => hwork.sameUnit_of_ne hv, fun i hi => ?_, fun i hi => ?_,
    fun k hk hp => ?_, fun k hk => ?_, ?_⟩
  · have hpictured := pictured_inp (s := s.numbered u seq) (levels := answerLevels levels) (st := s.now) hi
    rw [hinp]
    refine (hqueues.inp i).trans ?_
    rw [hpictured]
    rfl
  · rw [hinp]
    exact filters_answerPictured.off i hi
  · rw [htimer, pictured_pairTimer, if_pos ⟨hk, hp⟩]
    rfl
  · rw [htimer, pictured_pairTimer]
    exact if_neg hk
  · obtain ⟨hmode, hfirst, hsecond, hwaits⟩ :=
      snapshotClaim_passes (s := s.numbered u seq) (u := u) (levels := answerLevels levels) (st := s.now)
    refine ⟨(s.numbered u seq).betweenPasses u (answerLevels levels) s.now, hmode, hfirst, ?_, fun h => ?_⟩
    · exact EntriesProduced.congr_right hsecond ((LinkWork.ended_changeQueue m u).trans hqueue)
        ((LinkWork.ended_inputs m u).trans hinputs)
    · have hwaiting := hwaits h
      refine settle_flagSet (r := plainRaising .changeDeferred) ?_
      rw [LinkWork.endTurn_raisings, hraisings]
      exact hwaiting

end Sys2Proof.Machine
end

section
/-! PROOFS. The expansion link: CHANGES answers (R142 to R144). -/

namespace Sys2Proof.Machine

/-! ### The link has no part in the Input Filter's work -/

/-- The state with another link. -/
abbrev State.atLink (l : Link) (s : State) : State := { s with link := l }

section
variable (l : Link) (s : State)

theorem atLink_ite {c : Prop} [Decidable c] {a b a' b' : State} (ha : a' = a.atLink l) (hb : b' = b.atLink l) :
    (if c then a' else b') = (if c then a else b).atLink l := by
  split
  · exact ha
  · exact hb

theorem atLink_queueEntry (e : ChangeEntry) : (s.atLink l).queueEntry e = (s.queueEntry e).atLink l :=
  atLink_ite l rfl (atLink_ite l rfl rfl)

theorem atLink_formQuality (st : TimeStamp) (i : InputNo) :
    (s.atLink l).formQuality st i = (s.formQuality st i).atLink l :=
  atLink_ite l rfl rfl

theorem atLink_pairTest (k : PairNo) : (s.atLink l).pairTest k = (s.pairTest k).atLink l := by
  refine atLink_ite l ?_ rfl
  show (match s.pairTimer k with | none => _ | some _ => _) = _
  cases s.pairTimer k <;> rfl

theorem atLink_judged (i : InputNo) (v : Level) (st : TimeStamp) :
    (s.atLink l).judged i v st = (s.judged i v st).atLink l := by
  obtain h | h := Bool.dichotomy (s.paired (pairOf i))
  · rw [judged_of_single h, judged_of_single (s := s.atLink l) h]
    exact atLink_formQuality l (s.setInp i (s.changedRecord i v st)) st i
  · rw [judged_of_pair h, judged_of_pair (s := s.atLink l) h, ← atLink_formQuality, ← atLink_formQuality,
      ← atLink_pairTest]
    rfl

theorem atLink_pass (es : List ChangeEntry) (t : State) :
    es.foldl State.queueEntry (t.atLink l) = (es.foldl State.queueEntry t).atLink l := by
  induction es generalizing t with
  | nil => rfl
  | cons e es ih => rw [List.foldl_cons, List.foldl_cons, atLink_queueEntry, ih]

theorem atLink_acceptChange (i : InputNo) (v : Level) (st : TimeStamp) :
    (s.atLink l).acceptChange i v st = (s.acceptChange i v st).atLink l := by
  have hentries : (s.atLink l).changeEntries i v st = s.changeEntries i v st := by
    unfold State.changeEntries
    dsimp only
    rw [atLink_judged]
    rfl
  rw [acceptChange_eq, acceptChange_eq, hentries, atLink_judged, atLink_pass]

theorem atLink_handReport (u : UnitNo) (arrival : TimeStamp) (r : Report) :
    handReport u arrival (s.atLink l) r = (handReport u arrival s r).atLink l := by
  unfold handReport State.remoteReport
  exact atLink_ite l rfl (atLink_acceptChange l s _ _ _)

theorem atLink_reports (u : UnitNo) (arrival : TimeStamp) (rs : List Report) (t : State) :
    rs.foldl (handReport u arrival) (t.atLink l) = (rs.foldl (handReport u arrival) t).atLink l := by
  induction rs generalizing t with
  | nil => rfl
  | cons r rs ih => rw [List.foldl_cons, List.foldl_cons, atLink_handReport, ih]

end

/-! ### Reports -/

section
variable {s : State} {u : UnitNo} {arrival : TimeStamp}

theorem handReport_of_same {r : Report} (h : r.level = (s.inp (remoteInput u r.line)).level) :
    handReport u arrival s r = s := if_pos h

theorem handReport_of_change {r : Report} (h : r.level ≠ (s.inp (remoteInput u r.line)).level) :
    handReport u arrival s r = s.acceptChange (remoteInput u r.line) r.level (arrival.subMs r.age) := if_neg h

theorem filters_handReport {r : Report} (hr : r.line < 64) :
    Filters s (handReport u arrival s r) (· ∈ unitInputs u) := by
  refine (filters_remoteReport s _ _ _).mono fun j hj => ?_
  have hi := mem_unitInputs u hr
  obtain rfl | rfl := hj
  · exact hi
  · exact mem_unitInputs_partnerOf hi

theorem line_of_parseReports {r : Report} : ∀ {l : List Byte}, r ∈ parseReports l → r.line < 64
  | [], h | [_], h | [_, _], h => absurd h List.not_mem_nil
  | _ :: _ :: _ :: _, h => by
    obtain rfl | h := List.mem_cons.mp h
    · exact Nat.mod_lt _ (by decide)
    · exact line_of_parseReports h

theorem filters_reports {rs : List Report} (hrs : ∀ r ∈ rs, r.line < 64) :
    Filters s (rs.foldl (handReport u arrival) s) (· ∈ unitInputs u) :=
  .foldl (fun _ r hr => filters_handReport (hrs r hr)) s

theorem level_acceptChange {i : InputNo} {l : Level} {st : TimeStamp} (j : InputNo) :
    ((s.acceptChange i l st).inp j).level = if j = i then l else (s.inp j).level := by
  have hq : Queues (s.judged i l st) (s.acceptChange i l st) := acceptChange_eq ▸ queues_pass _ _
  rw [hq.level]
  by_cases hi : j = i
  · subst hi
    rw [judged_inp_self, if_pos rfl]
    rfl
  · rw [if_neg hi]
    by_cases hp : s.paired (pairOf i) = true ∧ j = partnerOf i
    · obtain ⟨hp, rfl⟩ := hp
      rw [judged_inp_partner hp]
      rfl
    · rw [judged_inp_of_ne hi fun h e => hp ⟨h, e⟩]

theorem handReport_level (r : Report) (j : InputNo) :
    ((handReport u arrival s r).inp j).level = if j = remoteInput u r.line then r.level else (s.inp j).level := by
  by_cases h : r.level = (s.inp (remoteInput u r.line)).level
  · rw [handReport_of_same h]
    split
    · next hj => rw [hj, h]
    · rfl
  · rw [handReport_of_change h]
    exact level_acceptChange j

theorem remoteInput_inj {l m : Nat} (hl : l < 64) (hm : m < 64) : remoteInput u l = remoteInput u m ↔ l = m := by
  refine ⟨fun h => ?_, fun h => h ▸ rfl⟩
  rw [← remoteInput_mod u hl, h, remoteInput_mod u hm]

/-- Each line takes the level of the last report that names it (R142). -/
theorem reports_level {rs : List Report} (hrs : ∀ r ∈ rs, r.line < 64) {l : Nat} (hl : l < 64) :
    ((rs.foldl (handReport u arrival) s).inp (remoteInput u l)).level =
      ((rs.filter fun r => r.line == l).getLast?.map Report.level).getD (s.inp (remoteInput u l)).level := by
  induction rs generalizing s with
  | nil => rfl
  | cons r rs ih =>
    have hr := hrs r List.mem_cons_self
    rw [List.foldl_cons, ih fun q hq => hrs q (List.mem_cons_of_mem _ hq), handReport_level, List.filter_cons]
    by_cases h : r.line = l
    · rw [if_pos (congrArg (remoteInput u) h.symm), if_pos (beq_iff_eq.mpr h), List.getLast?_cons]
      cases (rs.filter fun r => r.line == l).getLast? <;> rfl
    · rw [if_neg fun e => h ((remoteInput_inj hl hr).mp e).symm, if_neg (by simpa using h)]

/-- An input that a report has deferred has had its raising handed on (R125). -/
theorem deferred_handReport {r : Report} {j : InputNo} (h : ((handReport u arrival s r).inp j).deferred = true) :
    (s.inp j).deferred = true ∨ plainRaising .changeDeferred ∈ (handReport u arrival s r).raisings := by
  by_cases hr : r.level = (s.inp (remoteInput u r.line)).level
  · rw [handReport_of_same hr] at h
    exact .inl h
  · rw [handReport_of_change hr, acceptChange_eq] at h ⊢
    obtain ⟨-, -, -, hdef⟩ := entriesProduced_pass
      (s.changeEntries (remoteInput u r.line) r.level (arrival.subMs r.age)) nodup_changeEntries_input
      (s.judged (remoteInput u r.line) r.level (arrival.subMs r.age))
    obtain h | ⟨e, he, -⟩ := (hdef j).mp h
    · obtain ⟨-, -, hd⟩ := queued_judged (s := s) (i := remoteInput u r.line) (l := r.level) (stamp := arrival.subMs r.age) j
      exact .inl (hd ▸ h)
    · exact .inr (overflow_waits _ nodup_changeEntries_input (List.ne_nil_of_mem he))

theorem deferred_reports {rs : List Report} {j : InputNo}
    (h : ((rs.foldl (handReport u arrival) s).inp j).deferred = true) :
    (s.inp j).deferred = true ∨ plainRaising .changeDeferred ∈ (rs.foldl (handReport u arrival) s).raisings := by
  induction rs generalizing s with
  | nil => exact .inl h
  | cons r rs ih =>
    rw [List.foldl_cons] at h ⊢
    obtain h | h := ih h
    · obtain h | h := deferred_handReport h
      · exact .inl h
      · have hlinks : Links (handReport u arrival s r) (rs.foldl (handReport u arrival) (handReport u arrival s r)) :=
          .foldl (fun t r => .of_filters (filters_remoteReport t _ _ _)) rs _
        obtain ⟨more, hmore⟩ := hlinks.raisings
        rw [hmore]
        exact .inr (List.mem_append_left _ h)
    · exact .inr h

end

end Sys2Proof.Machine
end

section
/-! PROOFS. The expansion link: what a CHANGES answer does to the state and to the turn (R142 to R144, R139). -/

namespace Sys2Proof.Machine

/-! ### The cases of an answer -/

section
variable {s : State} {u : UnitNo} {seq flags count : Byte} {reports : List Byte}

/-- The unit has taken the number of a new answer, and its reports have been handed on (R142). -/
def State.reported (s : State) (u : UnitNo) (seq : Byte) (reports : List Byte) : State :=
  (parseReports reports).foldl (handReport u s.now)
    (s.setUnit u { s.unit u with misses := 0, lastSeq := seq.toNat })

/-- A poll more of the unit in its turn (R142). -/
def State.polledAgain (s : State) (u : UnitNo) (polls : Nat) : State := s.setUnit u { s.unit u with polls := polls }

theorem changesGood_of_repeat (h : seq.toNat = (s.unit u).lastSeq) :
    s.changesGood u (seq :: flags :: count :: reports) s.now =
      (s.setUnit u
        { s.unit u with misses := 0, repeatTotal := min ((s.unit u).repeatTotal + 1) 65535 }).endTurn u := if_pos h

theorem changesGood_of_overflow (h : seq.toNat ≠ (s.unit u).lastSeq) (ho : flags.getLsbD 1 = true) :
    s.changesGood u (seq :: flags :: count :: reports) s.now =
      (s.losing u { s.unit u with state := .resync, misses := 0 } .overflow).endTurn u :=
  (if_neg h).trans (if_pos ho)

section
variable (h : seq.toNat ≠ (s.unit u).lastSeq) (ho : flags.getLsbD 1 = false)
include h ho

theorem changesGood_of_last (hm : flags.getLsbD 0 = false) :
    s.changesGood u (seq :: flags :: count :: reports) s.now = (s.reported u seq reports).endTurn u :=
  (if_neg h).trans ((if_neg (ne_true_of_eq_false ho)).trans (if_neg (ne_true_of_eq_false hm)))

theorem changesGood_of_more (hm : flags.getLsbD 0 = true) (hp : (s.unit u).polls < 3) :
    s.changesGood u (seq :: flags :: count :: reports) s.now =
      ((s.reported u seq reports).polledAgain u ((s.unit u).polls + 1)).beginExchange u :=
  (if_neg h).trans ((if_neg (ne_true_of_eq_false ho)).trans ((if_pos hm).trans (if_pos (Nat.succ_lt_succ hp))))

theorem changesGood_of_enough (hm : flags.getLsbD 0 = true) (hp : 3 ≤ (s.unit u).polls) :
    s.changesGood u (seq :: flags :: count :: reports) s.now =
      ((s.reported u seq reports).polledAgain u ((s.unit u).polls + 1)).endTurn u :=
  (if_neg h).trans ((if_neg (ne_true_of_eq_false ho)).trans
    ((if_pos hm).trans (if_neg (Nat.not_lt.mpr (Nat.succ_le_succ hp)))))

end

/-! ### The reports of a new answer -/

theorem filters_reported :
    Filters (s.setUnit u { s.unit u with misses := 0, lastSeq := seq.toNat }) (s.reported u seq reports)
      (· ∈ unitInputs u) := filters_reports fun _ hr => line_of_parseReports hr

theorem reported_unit : (s.reported u seq reports).unit u = { s.unit u with misses := 0, lastSeq := seq.toNat } := by
  have h : (s.reported u seq reports).unit u =
      (s.setUnit u { s.unit u with misses := 0, lastSeq := seq.toNat }).unit u := by
    simp [State.unit, filters_reported.link]
  exact h.trans (State.unit_setUnit_self s u _)

theorem linkWork_reported : LinkWork s (s.reported u seq reports) u := by
  have h1 : LinkWork s (s.setUnit u { s.unit u with misses := 0, lastSeq := seq.toNat }) u := .setUnit s rfl
  exact h1.trans (.of_filters filters_reported u)

theorem linkWork_polledAgain (n : Nat) : LinkWork s (s.polledAgain u n) u := .setUnit s rfl

theorem reported_eq : s.reported u seq reports =
    { s.reportsApplied u s.now (parseReports reports) with link := (s.reported u seq reports).link } := by
  have h := atLink_reports (s.setUnit u { s.unit u with misses := 0, lastSeq := seq.toNat }).link u s.now
    (parseReports reports) s
  have hl : (s.reported u seq reports).link = (s.setUnit u { s.unit u with misses := 0, lastSeq := seq.toNat }).link :=
    filters_reported.link
  rw [hl]
  exact h

theorem turns_beginExchange (s : State) (u : UnitNo) : Turns s (s.beginExchange u) :=
  ⟨rfl, fun _ => rfl, rfl, rfl, rfl⟩

theorem Turns.of_polledAgain {t : State} {n : Nat} (h : Turns (s.polledAgain u n) t) : Turns s t := by
  refine ⟨h.rest, fun v => ?_, h.cycle, h.timer, h.rx⟩
  refine .trans ?_ (h.units v)
  unfold State.polledAgain
  rw [State.unit_setUnit]
  split
  · next e => subst e; rfl
  · rfl

end

/-- What a new answer has done by the end of the command, however the turn goes on (R142, R125). -/
structure ReportsDone (s t : State) (u : UnitNo) (seq : Byte) (reports : List Byte) : Prop where
  emits : OnlyEmits
    { s with link := t.link, inputs := t.inputs, pairTimers := t.pairTimers, changeQueue := t.changeQueue } t
  applied : OnlyEmits { s.reportsApplied u s.now (parseReports reports) with link := t.link } t
  others : ∀ v, v ≠ u → SameUnit (s.unit v) (t.unit v)
  off : ∀ i, i ∉ unitInputs u → t.inp i = s.inp i
  queue : ∃ more, t.changeQueue = s.changeQueue ++ more ∧ ∀ e ∈ more, e.input ∈ unitInputs u
  deferred : (∃ i, (s.inp i).deferred = false ∧ (t.inp i).deferred = true) → t.flagSet .changeDeferred = true
  flags : FlagsOnly s t [.changeDeferred]
  unit : SameUnit { s.unit u with misses := 0, lastSeq := seq.toNat } (t.unit u)
  inputs : t.inputs = (s.reported u seq reports).inputs
  changeQueue : t.changeQueue = (s.reported u seq reports).changeQueue

section
variable {s n : State} {u : UnitNo} {seq : Byte} {reports : List Byte}

theorem Links.of_turns {s t : State} (h : Turns s t) : Links s t := by
  rw [h.rest]
  exact .of_link h.cycle

theorem reportsDone (hr : s.raisings = []) (h : Turns (s.reported u seq reports) n) :
    ReportsDone s n.settle u seq reports := by
  have hfilters : Filters (s.setUnit u { s.unit u with misses := 0, lastSeq := seq.toNat }) (s.reported u seq reports)
    (· ∈ unitInputs u) := filters_reported
  have hunit := reported_unit (s := s) (u := u) (seq := seq) (reports := reports)
  have hwork := linkWork_reported (s := s) (u := u) (seq := seq) (reports := reports)
  have hreported := reported_eq (s := s) (u := u) (seq := seq) (reports := reports)
  have hwaits (j : InputNo) (hj : ((s.reported u seq reports).inp j).deferred = true) :=
    deferred_reports (s := s.setUnit u { s.unit u with misses := 0, lastSeq := seq.toNat }) hj
  have hlinks : Links s n := hwork.links.trans (.of_turns h)
  have hinputs : n.settle.inputs = (s.reported u seq reports).inputs := by
    have e := congrArg State.inputs h.rest
    exact (settle_inputs n).trans e
  have hinp (j : InputNo) : n.settle.inp j = (s.reported u seq reports).inp j := by simp [State.inp, hinputs]
  have hqueue : n.settle.changeQueue = (s.reported u seq reports).changeQueue := by
    have e := congrArg State.changeQueue h.rest
    exact (settle_changeQueue n).trans e
  have hraisings : n.raisings = (s.reported u seq reports).raisings := by
    have e := congrArg State.raisings h.rest
    exact e
  have hn : n = { s.reportsApplied u s.now (parseReports reports) with link := n.link } := by
    refine h.rest.trans ?_
    rw [hreported]
  refine ⟨hlinks.settled, ?_, fun v hv => ?_, fun i hi => ?_, ?_, fun ⟨i, hbefore, hafter⟩ => ?_,
    hlinks.flagsOnly hr fun r hq => ?_, ?_, hinputs, hqueue⟩
  · rw [settle_link]
    exact (congrArg (OnlyEmits · n.settle) hn).mp (onlyEmits_settle n)
  · rw [settle_unit, ← hwork.others v hv]
    exact h.units v
  · rw [hinp]
    exact hfilters.off i hi
  · obtain ⟨more, hmore, hmem⟩ := hfilters.queue
    exact ⟨more, hqueue.trans hmore, hmem⟩
  · rw [hinp] at hafter
    obtain hdef | hraised := hwaits i hafter
    · exact absurd (hdef.symm.trans hbefore) (by decide)
    · refine settle_flagSet (r := plainRaising .changeDeferred) ?_
      rw [hraisings]
      exact hraised
  · obtain ⟨more, hmore, hmem⟩ := hfilters.raisings
    have hbase : (s.setUnit u { s.unit u with misses := 0, lastSeq := seq.toNat }).raisings = [] := hr
    rw [hraisings, hmore, hbase, List.nil_append] at hq
    exact List.mem_singleton.mpr (congrArg Raising.flag (hmem r hq))
  · rw [settle_unit, ← hunit]
    exact h.units u

end

/-! ### The levels after the reports -/

section
variable {s t : State} {u : UnitNo} {seq : Byte} {reports : List Byte}

namespace ReportsDone

variable (h : ReportsDone s t u seq reports)
include h

theorem inp (i : InputNo) : t.inp i = (s.reported u seq reports).inp i := by simp [State.inp, h.inputs]

theorem level {l : Nat} (hl : l < 64) :
    (t.inp (remoteInput u l)).level =
      (((parseReports reports).filter fun r => r.line == l).getLast?.map Report.level).getD
        (s.inp (remoteInput u l)).level := by
  rw [h.inp]
  exact reports_level (s := s.setUnit u { s.unit u with misses := 0, lastSeq := seq.toNat })
    (fun _ hr => line_of_parseReports hr) hl

theorem none (hnone : reports = []) : t.inputs = s.inputs ∧ t.changeQueue = s.changeQueue := by
  subst hnone
  exact ⟨h.inputs, h.changeQueue⟩

theorem single {a b c : Byte} (hone : reports = [a, b, c]) :
    (t.inp (remoteInput u (a.toNat % 64))).level = levelOfBit a.msb
      ∧ ((s.inp (remoteInput u (a.toNat % 64))).level ≠ levelOfBit a.msb →
          (t.inp (remoteInput u (a.toNat % 64))).lastChange = some (s.now.subMs (256 * b.toNat + c.toNat))) := by
  subst hone
  constructor
  · rw [h.level (Nat.mod_lt _ (by decide))]
    simp [parseReports]
  · intro hne
    let r : Report := { line := a.toNat % 64, level := levelOfBit a.msb, age := 256 * b.toNat + c.toNat }
    let s1 := s.setUnit u { s.unit u with misses := 0, lastSeq := seq.toNat }
    have hreported : s.reported u seq [a, b, c] = handReport u s.now s1 r := rfl
    rw [h.inp, hreported, handReport_of_change (s := s1) (r := r) (Ne.symm hne)]
    exact (acceptChange_level s1 _ _ _).2

end ReportsDone

end

/-- The unit is polled again in its turn, with the number just recorded (R142, R139). -/
abbrev PolledAgain (s t : State) (u : UnitNo) (seq : Byte) : Prop :=
  (t.unit u).polls = (s.unit u).polls + 1 ∧ t.link.turn = some u ∧ t.link.due = s.link.due
    ∧ (∀ v, (t.unit v).newlyFitted = (s.unit v).newlyFitted)
    ∧ ∃ y, t.link.exchange = some y ∧ y.unit = u ∧ y.phase = .sending ∧ y.void = false
      ∧ y.kind = (s.unit u).messageKind ∧ y.message = linkFrame (u.val + 1) y.kind.type (t.unit u).messageBody
      ∧ ((s.unit u).state = .online → y.kind = .poll ∧ y.message = linkFrame (u.val + 1) 0x03 [seq])

theorem polledAgain_settle {s : State} {u : UnitNo} {seq : Byte} {reports : List Byte} :
    PolledAgain s
      (((s.reported u seq reports).polledAgain u ((s.unit u).polls + 1)).beginExchange u).settle u seq := by
  have hwork : LinkWork s ((s.reported u seq reports).polledAgain u ((s.unit u).polls + 1)) u :=
    linkWork_reported.trans (linkWork_polledAgain _)
  have hunit : ((s.reported u seq reports).polledAgain u ((s.unit u).polls + 1)).unit u =
      { s.unit u with misses := 0, lastSeq := seq.toNat, polls := (s.unit u).polls + 1 } := by
    unfold State.polledAgain
    rw [State.unit_setUnit_self, reported_unit]
  generalize (s.reported u seq reports).polledAgain u ((s.unit u).polls + 1) = m at hwork hunit ⊢
  have hafter (v : UnitNo) : (m.beginExchange u).settle.unit v = m.unit v := settle_unit _ v
  have hkind : (m.unit u).messageKind = (s.unit u).messageKind := by
    rw [hunit]
    rfl
  unfold PolledAgain
  rw [settle_link]
  refine ⟨by rw [hafter, hunit], rfl, hwork.due, fun v => by rw [hafter]; exact hwork.fitted v, _, rfl, rfl, rfl, rfl,
    hkind, by rw [hafter], fun ho => ?_⟩
  have hpoll : (m.unit u).messageKind = .poll := by rw [hkind, UnitRec.messageKind, ho]
  have hbody : (m.unit u).messageBody = [seq] := by
    unfold UnitRec.messageBody
    rw [hpoll, hunit]
    simp [b1]
  exact ⟨hpoll, congrArg₂ (linkFrame (u.val + 1)) (congrArg MessageKind.type hpoll) hbody⟩

/-- Settles O18. -/
theorem changesAnswered : Obligations.ChangesAnswered := by
  intro s x left seq flags reports hlive hr hx hw hk hrx hl24 hl3 hb u body answered
  have hanswered : answered = .next (s.goodAnswer x body s.now).settle := by
    have hcount : (BitVec.ofNat 8 (reports.length / 3)).toNat = reports.length / 3 := by
      rw [BitVec.toNat_ofNat]
      omega
    have hlen : LinkLength (BitVec.ofNat 8 0x83) body := by
      refine .inr (.inr ⟨rfl, by simp [body], ?_, ?_⟩)
      · show (BitVec.ofNat 8 (reports.length / 3)).toNat ≤ 8
        omega
      · show reports.length + 1 + 1 + 1 = 3 + 3 * (BitVec.ofNat 8 (reports.length / 3)).toNat
        omega
    exact (congrArg Host.Outcome.next (live_of hlive _)).trans
      (by rw [linkBytes_answer hx hw hrx (by rw [hk]; rfl) hlen])
  rw [hanswered]
  refine ⟨fun hv => ⟨_, rfl, voidEnded_goodAnswer hv hr _ s.now⟩, fun hv => ⟨_, rfl, ?_⟩⟩
  have hgood : s.goodAnswer x body s.now = s.changesGood u body s.now := by
    unfold State.goodAnswer
    rw [if_neg (by simp [hv]), hk]
  rw [hgood]
  by_cases hseq : seq.toNat = (s.unit u).lastSeq
  · rw [changesGood_of_repeat hseq]
    have hwork : LinkWork s (s.setUnit u
        { s.unit u with misses := 0, repeatTotal := min ((s.unit u).repeatTotal + 1) 65535 }) u := .setUnit s rfl
    have hunit := LinkWork.sameUnit (s.setUnit u
        { s.unit u with misses := 0, repeatTotal := min ((s.unit u).repeatTotal + 1) 65535 }) u
    rw [State.unit_setUnit_self] at hunit
    exact ⟨fun v hv => hwork.sameUnit_of_ne hv, fun _ => ⟨LinkWork.quiet hr, hwork.turnEnded, hunit⟩,
      fun h => absurd hseq h, fun h => absurd hseq h⟩
  obtain hover | hover := Bool.dichotomy (flags.getLsbD 1)
  · have hwork : LinkWork s (s.reported u seq reports) u := linkWork_reported
    have hpolled : LinkWork s ((s.reported u seq reports).polledAgain u ((s.unit u).polls + 1)) u :=
      hwork.trans (linkWork_polledAgain _)
    obtain ⟨t, ht, h, hlast, hmore, henough⟩ : ∃ t, (s.changesGood u body s.now).settle = t
        ∧ ReportsDone s t u seq reports ∧ (flags.getLsbD 0 = false → TurnEnded s t u)
        ∧ (flags.getLsbD 0 = true → (s.unit u).polls < 3 → PolledAgain s t u seq)
        ∧ (flags.getLsbD 0 = true → 3 ≤ (s.unit u).polls → TurnEnded s t u) := by
      obtain hm | hm := Bool.dichotomy (flags.getLsbD 0)
      · rw [changesGood_of_last hseq hover hm]
        exact ⟨_, rfl, reportsDone hr (turns_endTurn _ u).1, fun _ => hwork.turnEnded,
          fun e => absurd (hm.symm.trans e) (by decide), fun e => absurd (hm.symm.trans e) (by decide)⟩
      · obtain hp | hp := Nat.lt_or_ge (s.unit u).polls 3
        · rw [changesGood_of_more hseq hover hm hp]
          exact ⟨_, rfl, reportsDone hr (turns_beginExchange _ u).of_polledAgain,
            fun e => absurd (hm.symm.trans e) (by decide), fun _ _ => polledAgain_settle,
            fun _ e => absurd hp (Nat.not_lt.mpr e)⟩
        · rw [changesGood_of_enough hseq hover hm hp]
          exact ⟨_, rfl, reportsDone hr (turns_endTurn _ u).1.of_polledAgain,
            fun e => absurd (hm.symm.trans e) (by decide), fun _ e => absurd e (Nat.not_lt.mpr hp),
            fun _ _ => hpolled.turnEnded⟩
    rw [ht]
    refine ⟨h.others, fun e => absurd e hseq, fun _ e => absurd (hover.symm.trans e) (by decide), fun _ _ =>
      ⟨h.emits, h.applied, h.off, h.queue, h.deferred, h.flags, h.unit, fun _ _ _ => h.single, h.none, fun l hl => ?_,
        hlast, hmore, henough⟩⟩
    rw [h.level hl]
    cases ((parseReports reports).filter fun r => r.line == l).getLast? <;> rfl
  · rw [changesGood_of_overflow hseq hover]
    have hwork : LinkWork s (s.losing u { s.unit u with state := .resync, misses := 0 } .overflow) u := linkWork_losing rfl
    have hunit := LinkWork.sameUnit (s.losing u { s.unit u with state := .resync, misses := 0 } .overflow) u
    rw [losing_unit] at hunit
    have hemits := hwork.emits
    rw [losing_pairTimers, ← LinkWork.ended_inputs, ← LinkWork.ended_changeQueue] at hemits
    exact ⟨fun v hv => hwork.sameUnit_of_ne hv, fun h => absurd h hseq,
      fun _ _ => ⟨hemits, hwork.turnEnded, hunit, inputsLost_losing hr, unitFault_losing hr, flagsOnly_losing rfl hr,
        appendsFirst_losing rfl hr hb⟩,
      fun _ h => absurd (h.symm.trans hover) (by decide)⟩

end Sys2Proof.Machine
end

section
/-! PROOFS. The unit's side of an exchange (R151 to R153). -/

namespace Sys2Proof.Machine

/-! ### The picture of a unit -/

theorem bit_bFlags : ∀ b0 b1 b2 b3 b4 b5 b6 b7 : Bool, ∀ j : Fin 8,
    ((bFlags [b0, b1, b2, b3, b4, b5, b6, b7]).getD 0 0).getLsbD j = [b0, b1, b2, b3, b4, b5, b6, b7].getD j false := by
  decide +kernel

/-- Eight levels as a byte, the first in bit 0 (Table 10-11). -/
theorem bit_bLevels {l : List UnitLine} (h : l.length = 8) (j : Fin 8) :
    levelOfBit (((bLevels l).getD 0 0).getLsbD j) = (l[j.val]'(by omega)).qualified := by
  have hcode (r : UnitLine) : levelOfBit (levelClosed r.qualified) = r.qualified := by
    cases r.qualified <;> rfl
  match l, h with
  | [r0, r1, r2, r3, r4, r5, r6, r7], _ =>
    unfold bLevels
    rw [List.map_cons, List.map_cons, List.map_cons, List.map_cons, List.map_cons, List.map_cons, List.map_cons,
      List.map_cons, List.map_nil, bit_bFlags]
    fin_cases j <;> exact hcode _

section
variable (u : RemoteUnit)

/-- The byte of eight lines from line `8 * k` on. -/
def RemoteUnit.pictureByte (k : Nat) : Byte := (bLevels ((u.lines.toArray.toList.drop (8 * k)).take 8)).getD 0 0

theorem bPicture_eq : u.bPicture = (List.range 8).map u.pictureByte := rfl

theorem length_bPicture : u.bPicture.length = 8 := by simp [bPicture_eq]

theorem bit_bPicture (l : LineNo) :
    levelOfBit ((u.bPicture.getD (l.val / 8) 0).getLsbD (l.val % 8)) = (u.lines[l.val]).qualified := by
  have hl := l.isLt
  have hk : l.val / 8 < 8 := by omega
  have hbyte : u.bPicture.getD (l.val / 8) 0 = u.pictureByte (l.val / 8) := by
    rw [bPicture_eq, List.getD_eq_getElem?_getD, List.getElem?_map, List.getElem?_range hk]
    rfl
  have hlen : ((u.lines.toArray.toList.drop (8 * (l.val / 8))).take 8).length = 8 := by
    simp
    omega
  rw [hbyte]
  refine (bit_bLevels hlen ⟨l.val % 8, Nat.mod_lt _ (by decide)⟩).trans ?_
  simp only [List.getElem_take, List.getElem_drop, Nat.div_add_mod]
  rfl

/-! ### Messages -/

/-- The bytes after START, up to CHECK. -/
def messageBytes (a type : Nat) (body : List Byte) : List Byte := BitVec.ofNat 8 a :: BitVec.ofNat 8 type :: body

/-- What the unit does with a message of a kind and a value that reaches it (R152). -/
def RemoteUnit.answer (u : RemoteUnit) (kind value : Nat) : RemoteUnit × List Byte :=
  if kind = MessageKind.identify.type then (u, u.identityAnswer)
  else if kind = MessageKind.snapshot.type then (u.pictured value, (u.pictured value).lastAnswer)
  else if kind = MessageKind.poll.type then (u.polled value, (u.polled value).lastAnswer)
  else (u, [])

theorem receive_of_other {address : Byte} (rest : List Byte) (h : address.toNat ≠ u.address.val + 1) :
    u.receive (0xC3#8 :: address :: rest) = (u, []) := by
  refine if_pos fun e => h ?_
  have ha := u.address.isLt
  have e : address = BitVec.ofNat 8 (u.address.val + 1) := e
  rw [e, BitVec.toNat_ofNat]
  omega

/-- A message to the unit is judged by its check (R152). -/
theorem receive_addressed (type : Byte) (body check : List Byte) (hc : check.length = 2) :
    u.receive (0xC3#8 :: BitVec.ofNat 8 (u.address.val + 1) :: type :: body ++ check) =
      if check ≠ checkBytes (BitVec.ofNat 8 (u.address.val + 1) :: type :: body) then (u, u.lastAnswer)
      else u.answer type.toNat ((body ++ check).getD 0 0).toNat := by
  let a := BitVec.ofNat 8 (u.address.val + 1)
  have hn : (a :: type :: (body ++ check)).length - 2 = body.length + 2 := by
    simp [hc]
  have htake : (a :: type :: (body ++ check)).take (body.length + 2) = a :: type :: body := by
    simp
  have hdrop : (a :: type :: (body ++ check)).drop (body.length + 2) = check := by
    simp
  refine (if_neg (not_not_intro rfl)).trans ?_
  show (if (a :: type :: (body ++ check)).drop ((a :: type :: (body ++ check)).length - 2)
      ≠ checkBytes ((a :: type :: (body ++ check)).take ((a :: type :: (body ++ check)).length - 2)) then _ else _) = _
  rw [hn, htake, hdrop]
  rfl

theorem receive_message (type : Nat) (body : List Byte) :
    u.receive (linkFrame (u.address.val + 1) type body) =
      u.answer (BitVec.ofNat 8 type).toNat
        ((body ++ checkBytes (BitVec.ofNat 8 (u.address.val + 1) :: BitVec.ofNat 8 type :: body)).getD 0 0).toNat :=
  (receive_addressed u (BitVec.ofNat 8 type) body _ (length_checkBytes _)).trans (if_neg (not_not_intro rfl))

theorem receive_identify : u.receive (linkFrame (u.address.val + 1) 0x01 []) =
    (u, linkFrame (u.address.val + 1) 0x81 [0x0C#8, 0x41#8, 64#8]) := receive_message u 0x01 []

theorem receive_snapshot (d : Byte) : u.receive (linkFrame (u.address.val + 1) 0x02 [d]) =
    (u.pictured d.toNat, (u.pictured d.toNat).lastAnswer) := receive_message u 0x02 [d]

theorem receive_poll (n : Byte) : u.receive (linkFrame (u.address.val + 1) 0x03 [n]) =
    (u.polled n.toNat, (u.polled n.toNat).lastAnswer) := receive_message u 0x03 [n]

theorem polled_of_other {n : Nat} (h : n ≠ u.seq) (hl : u.last ≠ none) : u.polled n = u := if_neg (not_or.mpr ⟨hl, h⟩)

theorem polled_of_receipt {n : Nat} (h : n = u.seq) : u.polled n = u.newAnswer := if_pos (.inr h)

theorem polled_of_first {n : Nat} (h : u.last = none) : u.polled n = u.newAnswer := if_pos (.inl h)

theorem bFlags_pair (more overflow : Bool) :
    bFlags [more, overflow] = [BitVec.ofNat 8 (more.toNat + 2 * overflow.toNat)] := by
  cases more <;> cases overflow <;> rfl

theorem lastAnswer_of_changes {held : Nat} {more overflow : Bool} (h : u.last = some (.changes held more overflow)) :
    u.lastAnswer = linkFrame (u.address.val + 1) 0x83
      (BitVec.ofNat 8 u.seq :: BitVec.ofNat 8 (more.toNat + 2 * overflow.toNat) :: BitVec.ofNat 8 held
        :: (u.reports.take held).flatMap u.bReport) := by
  unfold RemoteUnit.lastAnswer
  rw [h]
  dsimp only
  rw [bFlags_pair]
  rfl

theorem lastAnswer_of_snapshot {levels : List Byte} (h : u.last = some (.snapshot levels)) :
    u.lastAnswer = linkFrame (u.address.val + 1) 0x82 (BitVec.ofNat 8 u.seq :: levels) := by
  unfold RemoteUnit.lastAnswer
  rw [h]
  rfl

theorem powerUp_polled (address : UnitNo) (n : Nat) :
    ((RemoteUnit.powerUp address).polled n).lastAnswer = linkFrame (address.val + 1) 0x83 [0#8, 2#8, 0#8] := by
  rw [polled_of_first _ rfl, lastAnswer_of_changes (held := 0) (more := false) (overflow := true) _ rfl]
  simp [RemoteUnit.newAnswer, RemoteUnit.powerUp, answerSucc]

/-! ### A change of a line -/

section
variable {u} {l : LineNo} {level : Level} {d : Nat}

/-- A run begins (R151). -/
theorem sample_of_start (hd : u.debounce = some d) (hpos : 0 < d) (hl : level ≠ (u.lines[l.val]).qualified)
    (hr : (u.lines[l.val]).run = none) :
    u.sample l level =
      { u with lines := u.lines.set l.val { qualified := (u.lines[l.val]).qualified, run := some u.clock } } := by
  refine (if_neg hl).trans ?_
  rw [hr, hd]
  exact if_neg (by simp; omega)

/-- A sample in a run of `since` (R151). -/
theorem sample_of_run {since : Nat} (hd : u.debounce = some d) (hl : level ≠ (u.lines[l.val]).qualified)
    (hr : (u.lines[l.val]).run = some since) :
    u.sample l level =
      if d ≤ u.clock - since then
        ({ u with lines := u.lines.set l.val { qualified := level, run := none } } : RemoteUnit).list
          { line := l.val, level := level, since := since }
      else { u with lines := u.lines.set l.val { qualified := (u.lines[l.val]).qualified, run := some since } } := by
  refine (if_neg hl).trans ?_
  rw [hr, hd]
  rfl

/-- The unit with a run of the line begun at its clock, `n` milliseconds later. -/
def RemoteUnit.running (u : RemoteUnit) (l : LineNo) (n : Nat) : RemoteUnit :=
  { u with
    clock := u.clock + n
    lines := u.lines.set l.val { qualified := (u.lines[l.val]).qualified, run := some u.clock } }

theorem line_running (l : LineNo) (n : Nat) :
    (u.running l n).lines[l.val] = { qualified := (u.lines[l.val]).qualified, run := some u.clock } :=
  Vector.getElem_set_self ..

theorem sample_passTime_sample {n : Nat} (hd : u.debounce = some d) (hpos : 0 < d)
    (hl : level ≠ (u.lines[l.val]).qualified) (hr : (u.lines[l.val]).run = none) :
    ((u.sample l level).passTime n).sample l level =
      if d ≤ n then
        ({ u.running l n with lines := (u.running l n).lines.set l.val { qualified := level, run := none } } :
          RemoteUnit).list { line := l.val, level := level, since := u.clock }
      else
        { u.running l n with
          lines := (u.running l n).lines.set l.val { qualified := (u.lines[l.val]).qualified, run := some u.clock } } := by
  have hrun : (u.sample l level).passTime n = u.running l n := by
    rw [sample_of_start hd hpos hl hr]
    rfl
  have hline := line_running (u := u) l n
  have hclock : (u.running l n).clock - u.clock = n := Nat.add_sub_cancel_left ..
  rw [hrun, sample_of_run (u := u.running l n) hd (by rw [hline]; exact hl) (congrArg UnitLine.run hline), hclock, hline]

section
variable {v : RemoteUnit} {r : UnitReport}

theorem list_of_room (ho : v.overflow = false) (hl : v.reports.length < 16) :
    v.list r = { v with reports := v.reports ++ [r] } := (if_neg (ne_true_of_eq_false ho)).trans (if_pos hl)

theorem list_of_overflow (h : v.overflow = true ∨ 16 ≤ v.reports.length) : v.list r = { v with overflow := true } := by
  by_cases ho : v.overflow = true
  · refine (if_pos ho).trans ?_
    rw [← ho]
  · exact (if_neg ho).trans (if_neg (Nat.not_lt.mpr (h.resolve_left ho)))

theorem list_keeps :
    (v.list r).clock = v.clock ∧ (v.list r).seq = v.seq ∧ (v.list r).last = v.last
      ∧ (v.list r).debounce = v.debounce ∧ (v.list r).lines = v.lines := by
  by_cases h : v.overflow = true ∨ 16 ≤ v.reports.length
  · rw [list_of_overflow h]
    exact ⟨rfl, rfl, rfl, rfl, rfl⟩
  · rw [not_or, Bool.not_eq_true, Nat.not_le] at h
    rw [list_of_room h.1 h.2]
    exact ⟨rfl, rfl, rfl, rfl, rfl⟩

end

end

end

/-- Settles O21. -/
theorem unitAnswers : Obligations.UnitAnswers := by
  intro u a
  refine ⟨fun l level d n hd hpos hl hr => ?_, receive_identify u, fun d => ?_, fun held more overflow h =>
    lastAnswer_of_changes u h, fun n hn hlast => ?_, fun n hn hd => ?_, fun n => ?_, fun type body check hc hne => ?_,
    fun address rest h => receive_of_other u rest h⟩
  · intro v
    have hv : v = _ := sample_passTime_sample hd hpos hl hr
    by_cases hn : d ≤ n
    · rw [if_pos hn] at hv
      rw [hv]
      obtain ⟨w, hw⟩ : ∃ w : RemoteUnit, w =
          { u.running l n with lines := (u.running l n).lines.set l.val { qualified := level, run := none } } := ⟨_, rfl⟩
      have hline : (w.lines[l.val]).qualified = level := by
        rw [hw]
        exact congrArg UnitLine.qualified (Vector.getElem_set_self ..)
      have hoverflow : w.overflow = u.overflow := by rw [hw]; rfl
      have hreports : w.reports = u.reports := by rw [hw]; rfl
      rw [← hw]
      obtain ⟨hclock, hseq, hlast, hdebounce, hlines⟩ :=
        list_keeps (v := w) (r := { line := l.val, level := level, since := u.clock })
      refine ⟨hclock.trans (by rw [hw]; rfl), hseq.trans (by rw [hw]; rfl), hlast.trans (by rw [hw]; rfl),
        hdebounce.trans (by rw [hw]; rfl), fun h => absurd hn (Nat.not_le.mpr h),
        fun _ => ⟨?_, fun ho hroom => ?_, fun h => ?_⟩⟩
      · rw [hlines]
        exact hline
      · rw [list_of_room (hoverflow.trans ho) (hreports.symm ▸ hroom)]
        exact ⟨congrArg (· ++ _) hreports, hoverflow.trans ho⟩
      · rw [list_of_overflow (by rw [hoverflow, hreports]; exact h)]
        exact ⟨hreports, rfl⟩
    · rw [if_neg hn] at hv
      rw [hv]
      exact ⟨rfl, rfl, rfl, rfl, fun _ => ⟨rfl, rfl, (congrArg UnitLine.qualified (Vector.getElem_set_self ..)).trans rfl⟩,
        fun h => absurd h hn⟩
  · refine ⟨u.bPicture, length_bPicture u, bit_bPicture u, ?_, lastAnswer_of_snapshot _ rfl⟩
    rw [receive_snapshot, lastAnswer_of_snapshot (u.pictured d.toNat) rfl]
    rfl
  · rw [receive_poll, polled_of_other u hn hlast]
  · intro rest v
    have hrest : rest = u.reports.drop u.held := by
      show (match u.last with | some (.changes held _ _) => u.reports.drop held | _ => u.reports) = _
      unfold RemoteUnit.held
      cases u.last with
      | none => rfl
      | some last => cases last <;> rfl
    have hpictured : u.debounce.isNone = false := by simpa [Option.ne_none_iff_isSome] using hd
    have hv : u.polled n.toNat = v := by
      rw [polled_of_receipt u hn]
      unfold RemoteUnit.newAnswer
      rw [hpictured, Bool.or_false, ← hrest]
      rfl
    rw [receive_poll, hv]
  · rw [show a = (RemoteUnit.powerUp u.address).address.val + 1 from rfl, receive_poll]
    exact powerUp_polled u.address n.toNat
  · rw [receive_addressed u type body check hc, if_pos hne]

end Sys2Proof.Machine
end

section
/-! PROOFS. SET_INPUTS and SET_UNIT (R128, R147). -/

namespace Sys2Proof.Machine

/-! ### A pair whose setting changes -/

theorem partnerOf_evenInput : ∀ k, partnerOf (evenInput k) = oddInput k := by decide +kernel

section
variable {b s : State} {k : PairNo}

theorem settlePair_of_same (h : s.paired k = b.paired k) : settlePair b s k = s := if_pos h.symm

/-- The qualities of both inputs of a pair are formed afresh. -/
def State.formPair (s : State) (k : PairNo) : State :=
  (s.formQuality s.now (evenInput k)).formQuality s.now (oddInput k)

theorem formPair_inp {i : InputNo} (hi : OfPair k i) :
    (s.formPair k).inp i = (s.inp i).formedWith (s.inp i).discrepant s.now := by
  have hne := evenInput_ne_oddInput k
  unfold State.formPair
  obtain rfl | rfl := hi
  · rw [formQuality_inp, if_neg hne, formQuality_inp, if_pos rfl]
  · rw [formQuality_inp, if_pos rfl, formQuality_inp, if_neg hne.symm]

theorem formPair_pairTimer (x : PairNo) : (s.formPair k).pairTimer x = s.pairTimer x := by
  simp [State.pairTimer, State.formPair, formQuality_pairTimers]

theorem setDiscrepant_inp {v : Bool} {i : InputNo} (hi : OfPair k i) :
    (s.setDiscrepant k v).inp i = { s.inp i with discrepant := v } := by
  have hne := evenInput_ne_oddInput k
  unfold State.setDiscrepant
  dsimp only
  obtain rfl | rfl := hi
  · rw [State.inp_setInp_of_ne _ _ hne, State.inp_setInp_self]
  · rw [State.inp_setInp_self, State.inp_setInp_of_ne _ _ hne.symm]

/-- A pair taken out of the test, or found with its levels apart, has no timer and is not discrepant (R120). -/
def State.stopPair (s : State) (k : PairNo) : State := (s.setPairTimer k none).setDiscrepant k false

theorem stopPair_formed :
    ((s.stopPair k).formPair k).pairTimer k = none
      ∧ ∀ i, OfPair k i → ((s.stopPair k).formPair k).inp i = (s.inp i).formedWith false s.now := by
  refine ⟨?_, fun i hi => ?_⟩
  · rw [formPair_pairTimer]
    exact State.pairTimer_setPairTimer_self s k none
  · rw [formPair_inp hi]
    unfold State.stopPair
    rw [setDiscrepant_inp hi]
    rfl

theorem settlePair_of_removed (hs : s.paired k = false) (hb : b.paired k = true) :
    settlePair b s k = (s.stopPair k).formPair k := by
  unfold settlePair
  rw [if_neg (by rw [hs, hb]; decide), if_neg (by rw [hs]; decide)]
  rfl

theorem settlePair_of_apart (hs : s.paired k = true) (hb : b.paired k = false)
    (hl : (s.inp (evenInput k)).level ≠ (s.inp (oddInput k)).level) :
    settlePair b s k = (s.stopPair k).formPair k := by
  unfold settlePair
  rw [if_neg (by rw [hs, hb]; decide), if_pos hs]
  unfold State.pairTest
  rw [if_neg hl]
  rfl

/-- The timer of a pair whose levels are equal runs (R120). -/
def State.timePair (s : State) (k : PairNo) : State :=
  s.setPairTimer k (some ((s.pairTimer k).getD s.settings.discrepancyMs))

theorem timePair_formed :
    ((s.timePair k).formPair k).pairTimer k = some ((s.pairTimer k).getD s.settings.discrepancyMs)
      ∧ ∀ i, OfPair k i → ((s.timePair k).formPair k).inp i = (s.inp i).formedWith (s.inp i).discrepant s.now := by
  refine ⟨?_, fun i hi => ?_⟩
  · rw [formPair_pairTimer]
    exact State.pairTimer_setPairTimer_self s k _
  · rw [formPair_inp hi]
    rfl

theorem settlePair_of_equal (hs : s.paired k = true) (hb : b.paired k = false)
    (hl : (s.inp (evenInput k)).level = (s.inp (oddInput k)).level) :
    settlePair b s k = (s.timePair k).formPair k := by
  have htest : s.pairTest k = s.timePair k := by
    have h := pairTest_of_equal (s := s) (i := evenInput k)
    rw [pairOf_evenInput] at h
    exact h (by rw [partnerOf_evenInput]; exact hl)
  unfold settlePair
  rw [if_neg (by rw [hs, hb]; decide), if_pos hs, htest]
  rfl

/-- The four things that can happen to a pair. -/
theorem settlePair_cases (b s : State) (k : PairNo) :
    settlePair b s k = s ∨ settlePair b s k = (s.stopPair k).formPair k
      ∨ settlePair b s k = (s.timePair k).formPair k := by
  obtain hs | hs := Bool.dichotomy (s.paired k) <;> obtain hb | hb := Bool.dichotomy (b.paired k)
  · exact .inl (settlePair_of_same (hs.trans hb.symm))
  · exact .inr (.inl (settlePair_of_removed hs hb))
  · by_cases hl : (s.inp (evenInput k)).level = (s.inp (oddInput k)).level
    · exact .inr (.inr (settlePair_of_equal hs hb hl))
    · exact .inr (.inl (settlePair_of_apart hs hb hl))
  · exact .inl (settlePair_of_same (hs.trans hb.symm))

theorem settlePair_pairTimer_of_ne {x : PairNo} (hx : x ≠ k) : (settlePair b s k).pairTimer x = s.pairTimer x := by
  obtain h | h | h := settlePair_cases b s k
  · rw [h]
  · rw [h, formPair_pairTimer]
    exact State.pairTimer_setPairTimer_of_ne s none hx
  · rw [h, formPair_pairTimer]
    exact State.pairTimer_setPairTimer_of_ne s _ hx

theorem filterOnly_formPair (s : State) (k : PairNo) : FilterOnly s (s.formPair k) :=
  .of_inputs (InputsOnly.trans ⟨_, formQuality_rest _ _ _⟩ ⟨_, formQuality_rest _ _ _⟩)

theorem filterOnly_settlePair (b s : State) (k : PairNo) : FilterOnly s (settlePair b s k) := by
  obtain h | h | h := settlePair_cases b s k
  · rw [h]
    exact .refl s
  · rw [h]
    exact FilterOnly.trans ⟨_, _, rfl⟩ (filterOnly_formPair _ k)
  · rw [h]
    exact FilterOnly.trans ⟨_, _, rfl⟩ (filterOnly_formPair _ k)

end

/-! ### Every pair -/

section
variable {b : State}

/-- A pair reads the same in both states. -/
def SamePair (k : PairNo) (s t : State) : Prop := t.pairTimer k = s.pairTimer k ∧ ∀ i, OfPair k i → t.inp i = s.inp i

theorem samePair_settlePair {s : State} {k x : PairNo} (hx : x ≠ k) : SamePair x s (settlePair b s k) := by
  refine ⟨settlePair_pairTimer_of_ne hx, fun i hi => (filters_settlePair b s k).off i fun hk => hx ?_⟩
  obtain rfl | rfl := hi
  · obtain h | h := hk
    · rw [← pairOf_evenInput x, h, pairOf_evenInput]
    · rw [← pairOf_evenInput x, h, pairOf_oddInput]
  · obtain h | h := hk
    · rw [← pairOf_oddInput x, h, pairOf_evenInput]
    · rw [← pairOf_oddInput x, h, pairOf_oddInput]

theorem samePair_pass {l : List PairNo} {x : PairNo} (hx : x ∉ l) (s : State) : SamePair x s (l.foldl (settlePair b) s) := by
  induction l generalizing s with
  | nil => exact ⟨rfl, fun _ _ => rfl⟩
  | cons k l ih =>
    rw [List.mem_cons, not_or] at hx
    obtain ⟨h1, h2⟩ := samePair_settlePair (b := b) (s := s) hx.1
    obtain ⟨k1, k2⟩ := ih hx.2 (settlePair b s k)
    exact ⟨k1.trans h1, fun i hi => (k2 i hi).trans (h2 i hi)⟩

theorem filterOnly_pass (l : List PairNo) (s : State) : FilterOnly s (l.foldl (settlePair b) s) :=
  .foldl (fun t k => filterOnly_settlePair b t k) l s

theorem allPairs_nodup : allPairs.Nodup := by decide +kernel

theorem mem_allPairs : ∀ k, k ∈ allPairs := by decide +kernel

end

/-- A pair after the settings `c` have been stored is what its own step makes of it. -/
theorem storeSettings_pair (s : State) (c : FilterSettings) (k : PairNo) :
    ∃ m, FilterOnly { s with settings := c } m ∧ SamePair k s m
      ∧ SamePair k (settlePair s m k) (s.storeSettings c) := by
  obtain ⟨before, after, hsplit⟩ := List.append_of_mem (mem_allPairs k)
  have hnodup := allPairs_nodup
  rw [hsplit, List.nodup_append] at hnodup
  obtain ⟨-, hafter, hdisjoint⟩ := hnodup
  have hb : k ∉ before := fun h => hdisjoint k h k List.mem_cons_self rfl
  refine ⟨before.foldl (settlePair s) { s with settings := c }, filterOnly_pass before _, samePair_pass hb _, ?_⟩
  unfold State.storeSettings
  rw [hsplit, List.foldl_append]
  exact samePair_pass (List.nodup_cons.mp hafter).1 _

/-- What the storing of settings does to a pair whose setting stays, goes or comes (R128, R120, R122). -/
theorem storeSettings_spec (s : State) (c : FilterSettings) (k : PairNo) :
    let t := s.storeSettings c
    let paired := ({ s with settings := c } : State).paired k
    let stopped := t.pairTimer k = none ∧ ∀ i, OfPair k i → t.inp i = (s.inp i).formedWith false s.now
    (paired = s.paired k → SamePair k s t)
      ∧ (paired = false → s.paired k = true → stopped)
      ∧ (paired = true → s.paired k = false → (s.inp (evenInput k)).level ≠ (s.inp (oddInput k)).level → stopped)
      ∧ (paired = true → s.paired k = false → (s.inp (evenInput k)).level = (s.inp (oddInput k)).level →
          t.pairTimer k = some ((s.pairTimer k).getD c.discrepancyMs)
            ∧ ∀ i, OfPair k i → t.inp i = (s.inp i).formedWith (s.inp i).discrepant s.now) := by
  intro t paired stopped
  obtain ⟨m, hm, ⟨htimer, hinp⟩, hlast, hlastInp⟩ := storeSettings_pair s c k
  have hpaired : m.paired k = paired := hm.paired k
  have hnow : m.now = s.now := hm.now
  have hsettings : m.settings = c := hm.settings
  have heven : m.inp (evenInput k) = s.inp (evenInput k) := hinp _ (.inl rfl)
  have hodd : m.inp (oddInput k) = s.inp (oddInput k) := hinp _ (.inr rfl)
  have hstopped (h : settlePair s m k = (m.stopPair k).formPair k) : stopped := by
    obtain ⟨h1, h2⟩ := stopPair_formed (s := m) (k := k)
    rw [h] at hlast hlastInp
    refine ⟨hlast.trans h1, fun i hi => ?_⟩
    rw [hlastInp i hi, h2 i hi, hinp i hi, hnow]
  refine ⟨fun h => ?_, fun h hb => hstopped (settlePair_of_removed (hpaired.trans h) hb), fun h hb hl =>
    hstopped (settlePair_of_apart (hpaired.trans h) hb (by rw [heven, hodd]; exact hl)), fun h hb hl => ?_⟩
  · rw [settlePair_of_same (hpaired.trans h)] at hlast hlastInp
    exact ⟨hlast.trans htimer, fun i hi => (hlastInp i hi).trans (hinp i hi)⟩
  · obtain ⟨h1, h2⟩ := timePair_formed (s := m) (k := k)
    rw [settlePair_of_equal (hpaired.trans h) hb (by rw [heven, hodd]; exact hl)] at hlast hlastInp
    refine ⟨?_, fun i hi => ?_⟩
    · rw [hlast, h1, htimer, hsettings]
    · rw [hlastInp i hi, h2 i hi, hinp i hi, hnow]

/-! ### The settings of a request -/

/-- A debounce time of the set. -/
def DebounceTime (x : Nat) : Prop := x = 0 ∨ x = 1 ∨ x = 2 ∨ x = 4 ∨ x = 8 ∨ x = 16 ∨ x = 32 ∨ x = 64

theorem debounceTime_iff (x : Nat) : x ∈ [0, 1, 2, 4, 8, 16, 32, 64] ↔ DebounceTime x := by
  simp [DebounceTime]

theorem debounceOf_of_good {x : Nat} (h : DebounceTime x) : debounceOf x = some x := if_pos ((debounceTime_iff x).mpr h)

theorem debounceOf_of_bad {x : Nat} (h : ¬ DebounceTime x) : debounceOf x = none :=
  if_neg (mt (debounceTime_iff x).mp h)

section
variable (f : Frame)

/-- Every setting of a SET_INPUTS lies in its range (R128). -/
def Frame.FilterArguments : Prop :=
  1 ≤ f.arg 0 ∧ f.arg 0 ≤ 60 ∧ 3 ≤ f.arg 1 ∧ f.arg 1 ≤ 30 ∧ 1 ≤ f.arg 2 ∧ DebounceTime (f.arg 3)
    ∧ DebounceTime (f.arg 4) ∧ DebounceTime (f.arg 5) ∧ DebounceTime (f.arg 6)

/-- The settings that a SET_INPUTS carries. -/
def Frame.carriedSettings : FilterSettings :=
  { window := f.arg 0, threshold := f.arg 1, discrepancyMs := 10 * f.arg 2
    debounce := ⟨⟨[f.arg 3, f.arg 4, f.arg 5, f.arg 6]⟩, rfl⟩
    pairs := ⟨⟨[BitVec.ofNat 32 (f.arg4 7), BitVec.ofNat 32 (f.arg4 11), BitVec.ofNat 32 (f.arg4 15),
      BitVec.ofNat 32 (f.arg4 19)]⟩, rfl⟩ }

variable {f}

theorem Frame.filterSettings_of_good (h : f.FilterArguments) : f.filterSettings = some f.carriedSettings := by
  obtain ⟨h0, h0', h1, h1', h2, h3, h4, h5, h6⟩ := h
  unfold Frame.filterSettings
  rw [debounceOf_of_good h3, debounceOf_of_good h4, debounceOf_of_good h5, debounceOf_of_good h6]
  exact if_pos ⟨h0, h0', h1, h1', h2⟩

theorem Frame.filterSettings_of_bad (h : ¬ f.FilterArguments) : f.filterSettings = none := by
  unfold Frame.filterSettings
  by_cases h3 : DebounceTime (f.arg 3)
  · by_cases h4 : DebounceTime (f.arg 4)
    · by_cases h5 : DebounceTime (f.arg 5)
      · by_cases h6 : DebounceTime (f.arg 6)
        · rw [debounceOf_of_good h3, debounceOf_of_good h4, debounceOf_of_good h5, debounceOf_of_good h6]
          exact if_neg fun ⟨h0, h0', h1, h1', h2⟩ => h ⟨h0, h0', h1, h1', h2, h3, h4, h5, h6⟩
        · rw [debounceOf_of_bad h6]
          simp
      · rw [debounceOf_of_bad h5]
        simp
    · rw [debounceOf_of_bad h4]
      simp
  · rw [debounceOf_of_bad h3]
    rfl

theorem getElem_four {α : Type} (g : Nat → α) (n : Nat) (hn : n < 4) :
    (⟨⟨[g 0, g 1, g 2, g 3]⟩, rfl⟩ : Vector α 4)[n] = g n := by
  match n, hn with
  | 0, _ | 1, _ | 2, _ | 3, _ => rfl

theorem carried_debounce (s : State) (l : LineNo) :
    ({ s with settings := f.carriedSettings } : State).debounceTime l = f.arg (3 + l.val / 16) :=
  getElem_four (fun n => f.arg (3 + n)) (l.val / 16) (by omega)

theorem carried_paired (s : State) (k : PairNo) :
    ({ s with settings := f.carriedSettings } : State).paired k =
      (f.arg4 (7 + 4 * (k.val / 32))).testBit (k.val % 32) := by
  have hword := getElem_four (fun n => BitVec.ofNat 32 (f.arg4 (7 + 4 * n))) (k.val / 32) (by omega)
  refine (congrArg (hasBit · (k.val % 32)) hword).trans ?_
  show (BitVec.ofNat 32 _).getLsbD _ = _
  rw [BitVec.getLsbD_ofNat, decide_eq_true (Nat.mod_lt _ (by decide)), Bool.true_and]

end

/-- Settles O30. -/
theorem setInputsStores : Obligations.SetInputsStores := by
  intro s p f h debounceOk ok
  refine ⟨fun hbad => next_answered h rfl ?_, fun hok => ?_⟩
  · unfold State.ownSetInputs
    rw [Frame.filterSettings_of_bad hbad]
  have hstored := filterOnly_pass (b := s.begun p f) allPairs { s.begun p f with settings := f.carriedSettings }
  change FilterOnly _ ((s.begun p f).storeSettings f.carriedSettings) at hstored
  have hspec := storeSettings_spec (s.begun p f) f.carriedSettings
  obtain ⟨u, hu⟩ : ∃ u, u = (s.begun p f).storeSettings f.carriedSettings := ⟨_, rfl⟩
  rw [← hu] at hstored hspec
  obtain ⟨a, b, heq⟩ := hstored
  have hnext := next_stored (u := u) (form := anyForm) (owner := fun f t => t.ownSetInputs p f) h rfl
    (by unfold State.ownSetInputs; rw [Frame.filterSettings_of_good hok, hu]) (by rw [heq]) (by rw [heq]; rfl)
  refine ⟨_, hnext, ?_, ?_, ?_, ?_, fun l => ?_, fun k => ?_, fun k => ?_⟩
  · rw [heq]
    rfl
  · rw [heq]
    rfl
  · rw [heq]
    rfl
  · rw [heq]
    rfl
  · rw [heq]
    exact carried_debounce s l
  · rw [heq]
    exact carried_paired s k
  · intro e o formed stopped
    obtain ⟨hsame, hremoved, hapart, hequal⟩ := hspec k
    have hpaired : ({ u with stations := (s.answered p f .ok []).stations } : State).paired k =
        ({ s.begun p f with settings := f.carriedSettings } : State).paired k := by
      rw [heq]
      rfl
    rw [hpaired]
    refine ⟨fun hk => ?_, fun hk hs => ?_, fun hk hs hl => ?_, fun hk hs hl => ?_⟩
    · obtain ⟨h1, h2⟩ := hsame hk
      exact ⟨h1, h2 e (.inl rfl), h2 o (.inr rfl)⟩
    · obtain ⟨h1, h2⟩ := hremoved hk hs
      exact ⟨h1, h2 e (.inl rfl), h2 o (.inr rfl)⟩
    · obtain ⟨h1, h2⟩ := hapart hk hs hl
      exact ⟨h1, h2 e (.inl rfl), h2 o (.inr rfl)⟩
    · obtain ⟨h1, h2⟩ := hequal hk hs hl
      exact ⟨h1, h2 e (.inl rfl), h2 o (.inr rfl)⟩

end Sys2Proof.Machine
end

section
/-! PROOFS. SET_UNIT (R147). -/

namespace Sys2Proof.Machine

theorem EntriesSilent.pass {s : State} (h : s.mode = .config) (es : List ChangeEntry) : es.foldl State.queueEntry s = s := by
  induction es with
  | nil => rfl
  | cons e es ih =>
    have he : s.queueEntry e = s := if_pos (.inl h)
    rw [List.foldl_cons, he, ih]

/-- In CONFIG a lost-state claim produces no entry (R123). -/
theorem lostClaim_of_config {s : State} (h : s.mode = .config) (u : UnitNo) : s.lostClaim u = s.lostMarked u := by
  rw [lostClaim_eq]
  exact EntriesSilent.pass ((lostMarked_inputsOnly s u).mode.trans h) _

theorem State.Takes.config_of_setUnit {s : State} {p : Port} {f : Frame} (h : s.Takes p .setUnit f) : s.mode = .config := by
  have hm := h.mode
  simpa [State.modeOk, ReqKind.modeRule] using hm

/-! ### The unit record -/

section
variable (r : UnitRec) (d : Nat)

/-- The state of a unit after SET_UNIT (R147). -/
def UnitRec.configuredState : Bool → UnitState
  | false => .notFitted
  | true => match r.state with
    | .notFitted => .searching
    | .online => if d = r.debounce then .online else .resync
    | .searching => .searching
    | .resync => .resync
    | .lost => .lost

theorem configured_eq (fitted : Bool) :
    r.configured fitted d =
      { r with
        state := r.configuredState d fitted, debounce := d, misses := 0, mismatch := false
        lastSeq := if fitted = false then 0 else r.lastSeq
        newlyFitted := if fitted = false then false else r.newlyFitted || r.state == .notFitted } := by
  unfold UnitRec.configured UnitRec.configuredState
  cases fitted with
  | false => rfl
  | true =>
    obtain ⟨state, debounce, lastSeq, misses, mismatch, polls, newlyFitted, missTotal, repeatTotal⟩ := r
    cases state with
    | online =>
      by_cases hd : d = debounce
      · simp [hd]
      · simp [hd]
    | _ => simp

end

/-! ### The link -/

section
variable (s : State) (u : UnitNo)

theorem voidExchange_link :
    (s.voidExchange u).link =
      { s.link with exchange := s.link.exchange.map fun x => { x with void := x.void || x.unit == u } } := by
  unfold State.voidExchange
  cases hx : s.link.exchange with
  | none => rfl
  | some x =>
    by_cases hu : x.unit = u
    · simp [hu]
    · simp [hu, beq_eq_false_iff_ne.mpr hu]

/-- What an accepted SET_UNIT leaves in CONFIG. -/
theorem configureUnit_of_config (h : s.mode = .config) (fitted : Bool) (d : Nat) :
    s.configureUnit u fitted d =
      let r1 := (s.unit u).configured fitted d
      let s1 := (s.setUnit u r1).voidExchange u
      if (s.unit u).state = .online ∧ r1.state ≠ .online then s1.lostMarked u else s1 := by
  unfold State.configureUnit
  dsimp only
  rw [lostClaim_of_config (s := (s.setUnit u _).voidExchange u) h]

end

/-! ### The request -/

section
variable {s : State} {p : Port} {f : Frame}

theorem ownSetUnit_of_bad (h : f.arg 0 = 0 ∨ 3 < f.arg 0 ∨ 1 < f.arg 1 ∨ ¬ DebounceTime (f.arg 2)) :
    s.ownSetUnit p f = s.respond p f .badArgument [] := by
  unfold State.ownSetUnit
  split
  · next u fitted d hu hf hd =>
    refine if_neg fun h1 => ?_
    have hu3 := below_eq_some_iff.mp hu
    have hf1 := choice_eq_some_iff.mp hf
    have := u.isLt
    obtain h | h | h | h := h
    · omega
    · omega
    · have := Bool.toNat_le fitted
      omega
    · rw [debounceOf_of_bad h] at hd
      cases hd
  · rfl

theorem ownSetUnit_of_good {u : UnitNo} (h0 : f.arg 0 = u.val + 1) (h1 : f.arg 1 ≤ 1) (h2 : DebounceTime (f.arg 2)) :
    s.ownSetUnit p f = (s.configureUnit u (f.arg 1 == 1) (f.arg 2)).respond p f .ok [] := by
  have hu : below 3 (f.arg 0 - 1) = some u := below_eq_some_iff.mpr (by omega)
  unfold State.ownSetUnit
  rw [hu, choice_of_le h1, debounceOf_of_good h2]
  exact if_pos (by omega)

end

/-- Settles O31: in CONFIG the lost-state claim only marks the inputs. -/
theorem setUnitStores : Obligations.SetUnitStores := by
  intro s p f h d debounceOk
  refine ⟨fun hbad => next_answered h rfl (ownSetUnit_of_bad hbad), fun u h0 h1 h2 => ?_⟩
  intro r state
  have hstate : r.configuredState d (f.arg 1 == 1) = state := by
    obtain h | h : f.arg 1 = 0 ∨ f.arg 1 = 1 := by omega
    · simp only [state, h]
      rfl
    · simp only [state, h]
      rfl
  have hfitted : (f.arg 1 == 1) = false ↔ f.arg 1 = 0 := by
    rw [beq_eq_false_iff_ne]
    omega
  let c := s.begun p f
  have hconfig : c.mode = .config := h.config_of_setUnit
  have hr1 : r.configured (f.arg 1 == 1) d = _ := configured_eq r d (f.arg 1 == 1)
  simp only [hstate, hfitted] at hr1
  let s1 := (c.setUnit u (r.configured (f.arg 1 == 1) d)).voidExchange u
  have hconfigured : c.configureUnit u (f.arg 1 == 1) d =
      if r.state = .online ∧ state ≠ .online then s1.lostMarked u else s1 := by
    have hnew : (r.configured (f.arg 1 == 1) d).state = state := congrArg UnitRec.state hr1
    rw [configureUnit_of_config c u hconfig (f.arg 1 == 1) d]
    show (if r.state = .online ∧ (r.configured (f.arg 1 == 1) d).state ≠ .online then _ else _) = _
    rw [hnew]
    rfl
  have hinputs : InputsOnly s1 (c.configureUnit u (f.arg 1 == 1) d) := by
    rw [hconfigured]
    split
    · exact lostMarked_inputsOnly s1 u
    · exact ⟨s1.inputs, rfl⟩
  obtain ⟨t, ht⟩ : ∃ t, t = c.configureUnit u (f.arg 1 == 1) d := ⟨_, rfl⟩
  rw [← ht] at hinputs hconfigured
  obtain ⟨a, ha⟩ := hinputs
  have hnext := next_stored (u := t) (form := anyForm) (owner := fun f t => t.ownSetUnit p f) h rfl
    (by rw [ht]; exact ownSetUnit_of_good h0 h1 h2) (by rw [ha]; rfl) (by rw [ha]; rfl)
  have hlink : t.link.exchange = s.link.exchange.map fun x => { x with void := x.void || x.unit == u } := by
    rw [ha]
    exact congrArg Link.exchange (voidExchange_link (c.setUnit u (r.configured (f.arg 1 == 1) d)) u)
  refine ⟨_, hnext, ?_, ?_, fun v hv => ?_, ?_, fun hx => ?_, fun x hx => ?_, fun ho hs => ?_, fun hn => ?_⟩
  · rw [ha]
    rfl
  · rw [ha]
    exact (State.unit_setUnit_self c u _).trans hr1
  · rw [ha]
    exact State.unit_setUnit_of_ne c _ hv
  · rw [ha]
    rfl
  · rw [hlink, hx]
    rfl
  · rw [hlink, hx]
    rfl
  · rw [if_pos ⟨ho, hs⟩] at hconfigured
    have hinp (i : InputNo) : t.inp i = if i ∈ unitInputs u then (s.inp i).lost (s.inp i) s.now else s.inp i := by
      rw [hconfigured, lostMarked_inp]
      rfl
    exact ⟨fun i hi => (hinp i).trans (if_pos hi), fun i hi => (hinp i).trans (if_neg hi)⟩
  · rw [if_neg hn] at hconfigured
    rw [hconfigured]
    rfl

end Sys2Proof.Machine
end

section
/-! PROOFS. Requests that move points: how they end, and the resets (R53, R54, R42). -/

namespace Sys2Proof.Machine

/-! ### A request that moves points -/

section
variable {s v : State} {p : Port} {f : Frame} {st : Status} {r : List Byte} {P S : PointNo → Prop}

theorem ended_points (v : State) (p : Port) (f : Frame) (st : Status) (r : List Byte) :
    (v.respond p f st r).settle.points = v.points := by
  rw [settle_points, State.respond_eq]
  rfl

theorem ended_map (v : State) (p : Port) (f : Frame) (st : Status) (r : List Byte) :
    (v.respond p f st r).settle.map = v.map := by
  rw [settle_map, State.respond_eq]
  rfl

theorem ended_audibleRequest (v : State) (p : Port) (f : Frame) (st : Status) (r : List Byte) :
    (v.respond p f st r).settle.audibleRequest = v.audibleRequest := by
  rw [settle_audibleRequest, State.respond_eq]
  rfl

theorem ended_pt (v : State) (p : Port) (f : Frame) (st : Status) (r : List Byte) (x : PointNo) :
    (v.respond p f st r).settle.pt x = v.pt x := pt_congr (ended_points v p f st r) x

/-- The answer to a request whose owner has moved points. -/
theorem Moves.answered (h : Moves (s.begun p f) v P S) :
    OnlyEmits
        { s.closed p f st r (((v.respond p f st r).settle).stn p).waitResponse with
          points := v.points, map := v.map, audibleRequest := v.audibleRequest }
        (v.respond p f st r).settle
      ∧ (v.respond p f st r).settle.Responding p f st r :=
  respond_settled (s := s)
    (u := { s.begun p f with points := v.points, map := v.map, audibleRequest := v.audibleRequest })
    (begun_stations s p f) h.emits rfl

theorem Announces.answered (h : Announces (s.begun p f) v) : Announces s (v.respond p f st r).settle := by
  have h1 : Announces s (v.respond p f st r) :=
    h.congr (fun _ => rfl) (fun x => by rw [State.respond_eq]; rfl) (fun _ => rfl) fun q => respond_dsp v p q f st r
  exact h1.settle

theorem KeepsUpToDate.answered (h : KeepsUpToDate (s.begun p f) v) : KeepsUpToDate s (v.respond p f st r).settle :=
  fun x hx => upToDate_congr (ended_points v p f st r) (ended_map v p f st r)
    (h x (upToDate_congr (s := s) (t := s.begun p f) rfl rfl hx))

theorem AlertsAudibly.answered (h : AlertsAudibly (s.begun p f) v) : AlertsAudibly s (v.respond p f st r).settle :=
  AlertsAudibly.congr (s := s) h (ended_points v p f st r) (ended_audibleRequest v p f st r)

theorem Appends.answered {ds : List RecordDraft} (h : Appends (s.begun p f) v ds) :
    AppendsFirst s (v.respond p f st r).settle ds :=
  appendsThen_settled (fun _ h => h) rfl (h.followed (.none rfl h.length))

end

/-! ### The first member given up -/

section
variable {s : State} (c : Claim) (p : PointNo)

/-- What the giving up of a first member leaves of the point, and its record (R42). -/
theorem clearFirstMember_spec (hb : s.log.ring.length ≤ 1024) :
    (s.clearFirstMember c p).pt p =
        { (s.pt p).memberCleared with lastChange := ((s.clearFirstMember c p).pt p).lastChange }
      ∧ Appends s (s.clearFirstMember c p) (clearedDrafts c p (s.pt p)) := by
  unfold State.clearFirstMember PointRec.memberCleared clearedDrafts
  dsimp only
  by_cases h : (s.pt p).firstOut = true ∧ (s.pt p).seqState = .normal ∧ (s.pt p).firstMember.isSome = true
  · obtain ⟨h1, h2, h3⟩ := h
    rw [if_pos ⟨h1, h2, h3⟩, if_pos ⟨h1, h2⟩, if_pos ⟨h1, h2, h3⟩, setFirstMember_pt_self]
    refine ⟨rfl, ?_⟩
    have ha := appends_setFirstMember (s := s) c p hb none
    unfold PointRec.stateBody at ha
    rw [h2] at ha
    simpa using ha
  · rw [if_neg h, if_neg h]
    refine ⟨?_, appends_nil rfl hb⟩
    by_cases hn : (s.pt p).firstOut = true ∧ (s.pt p).seqState = .normal
    · have hnone : (s.pt p).firstMember = none := by
        cases hm : (s.pt p).firstMember with
        | none => rfl
        | some m => exact absurd ⟨hn.1, hn.2, by rw [hm]; rfl⟩ h
      rw [if_pos hn, ← hnone]
    · rw [if_neg hn]

theorem audibleRequest_clearFirstMember : (s.clearFirstMember c p).audibleRequest = s.audibleRequest :=
  (still_clearFirstMember c).request

end

/-! ### Resets -/

/-- The point is in a state that a reset takes to NORMAL (R53). -/
abbrev PointRec.Resettable (r : PointRec) : Prop :=
  r.seqType = .ringback ∧ r.seqState = .ringback
    ∨ r.seqType = .latch ∧ r.seqState = .acked ∧ r.condition = .normal

theorem resetTo_of_resettable {r : PointRec} (h : r.Resettable) : r.resetTo = some .normal := by
  unfold PointRec.resetTo
  obtain ⟨h1, h2⟩ | ⟨h1, h2, h3⟩ := h
  · rw [h1, h2]
    rfl
  · rw [h1, h2, h3]
    rfl

theorem resetTo_of_not_resettable {r : PointRec} (h : ¬ r.Resettable) : r.resetTo = none := by
  unfold PointRec.resetTo
  cases ht : r.seqType with
  | auto => cases r.seqState <;> rfl
  | ringback =>
    cases hs : r.seqState with
    | ringback => exact absurd (.inl ⟨ht, hs⟩) h
    | _ => rfl
  | latch =>
    cases hs : r.seqState with
    | acked =>
      cases hc : r.condition with
      | normal => exact absurd (.inr ⟨ht, hs, hc⟩) h
      | abnormal => rfl
    | _ => rfl

/-- The point after its reset (R53, R42). -/
def PointRec.resetRecord (r : PointRec) : PointRec := { r with seqState := .normal : PointRec }.memberCleared

/-- The records of a reset (R53, R42). -/
def resetDrafts (c : Claim) (p : PointNo) (r : PointRec) : List RecordDraft :=
  pointDraft c p .reset (.pointState r.seqState .normal r.condition
      (if r.kind = .group ∧ r.firstOut = true then r.firstMember else none))
    :: clearedDrafts c p { r with seqState := .normal }

section
variable {s : State} (c : Claim) (p : PointNo)

theorem resetTo_spec (hb : s.log.ring.length ≤ 1024) :
    (s.resetTo c p .normal).pt p =
        { (s.pt p).resetRecord with lastChange := ((s.resetTo c p .normal).pt p).lastChange }
      ∧ Appends s (s.resetTo c p .normal) (resetDrafts c p (s.pt p)) := by
  have happ := appends_transition (s := s) c p .reset hb .normal
  obtain ⟨hpt, hclear⟩ := clearFirstMember_spec (s := s.transition c p .reset .normal) c p happ.length
  have hself := transition_pt_self (s := s) c p .reset .normal
  refine ⟨?_, ?_⟩
  · refine hpt.trans ?_
    rw [hself]
    unfold PointRec.resetRecord PointRec.memberCleared State.resetTo
    dsimp only
    split <;> rfl
  · have hall := happ.trans hclear
    rw [hself] at hall
    exact hall

theorem resetTo_audibleRequest : (s.resetTo c p .normal).audibleRequest = s.audibleRequest := by
  unfold State.resetTo
  rw [audibleRequest_clearFirstMember, audibleRequest_transition]
  simp

theorem resetTo_map : (s.resetTo c p .normal).map = s.map := by
  unfold State.resetTo
  rw [clearFirstMember_map, transition_map]

/-- The points that a port of ring `r` resets. -/
def PointRec.resets (x : PointRec) (r : Ring) : Bool := x.permits r && x.resetTo.isSome

theorem resets_iff {x : PointRec} {r : Ring} : x.resets r = true ↔ x.Resettable ∧ r ≤ x.ackRing := by
  unfold PointRec.resets PointRec.permits
  by_cases h : x.Resettable
  · simp [resetTo_of_resettable h, h]
  · simp [resetTo_of_not_resettable h, h]

theorem offerReset_of_resets {r : Ring} {n : Nat} (h : (s.pt p).resets r = true) :
    offerReset c r (s, n) p = (s.resetTo c p .normal, n + 1) := by
  obtain ⟨h1, h2⟩ := resets_iff.mp h
  unfold offerReset
  dsimp only
  rw [if_pos (show (s.pt p).permits r = true from decide_eq_true h2), resetTo_of_resettable h1]

theorem offerReset_of_not_resets {r : Ring} {n : Nat} (h : (s.pt p).resets r = false) :
    offerReset c r (s, n) p = (s, n) := by
  unfold offerReset
  dsimp only
  split
  · next hp =>
    cases ho : (s.pt p).resetTo with
    | none => rfl
    | some st => simp [PointRec.resets, hp, ho] at h
  · rfl

/-- The points of a list, offered to the reset in turn (R54). -/
structure ResetPass (s t : State) (c : Claim) (r : Ring) (l : List PointNo) : Prop where
  moves : Moves s t (· ∈ l) (fun _ => False)
  map : t.map = s.map
  request : t.audibleRequest = s.audibleRequest
  reset : ∀ x ∈ l, (s.pt x).resets r = true → t.pt x = { (s.pt x).resetRecord with lastChange := (t.pt x).lastChange }
  kept : ∀ x ∈ l, (s.pt x).resets r = false → t.pt x = s.pt x
  appends : Appends s t ((l.filter fun x => (s.pt x).resets r).flatMap fun x => resetDrafts c x (s.pt x))

theorem resetPass_foldl (r : Ring) (l : List PointNo) (hn : l.Nodup) (s : State) (n : Nat) (hb : s.log.ring.length ≤ 1024) :
    ResetPass s (l.foldl (offerReset c r) (s, n)).1 c r l
      ∧ (l.foldl (offerReset c r) (s, n)).2 = n + (l.filter fun x => (s.pt x).resets r).length := by
  induction l generalizing s n with
  | nil => exact ⟨⟨.refl _ _ _, rfl, rfl, nofun, nofun, appends_nil rfl hb⟩, rfl⟩
  | cons p l ih =>
    rw [List.nodup_cons] at hn
    rw [List.foldl_cons]
    cases hp : (s.pt p).resets r with
    | false =>
      have hf : (p :: l).filter (fun x => (s.pt x).resets r) = l.filter fun x => (s.pt x).resets r :=
        List.filter_cons_of_neg (by rw [hp]; decide)
      rw [offerReset_of_not_resets c p hp, hf]
      obtain ⟨h, hcount⟩ := ih hn.2 s n hb
      refine ⟨⟨h.moves.mono (fun x hx => List.mem_cons_of_mem _ hx) fun _ h => h, h.map, h.request, fun x hx hr => ?_,
        fun x hx hr => ?_, ?_⟩, hcount⟩
      · obtain rfl | hx := List.mem_cons.mp hx
        · rw [hp] at hr
          cases hr
        · exact h.reset x hx hr
      · obtain rfl | hx := List.mem_cons.mp hx
        · exact h.moves.off x hn.1
        · exact h.kept x hx hr
      · rw [hf]
        exact h.appends
    | true =>
      have hf : (p :: l).filter (fun x => (s.pt x).resets r) = p :: l.filter fun x => (s.pt x).resets r :=
        List.filter_cons_of_pos hp
      rw [offerReset_of_resets c p hp, hf]
      obtain ⟨hself, happ⟩ := resetTo_spec (s := s) c p hb
      have hm : Moves s (s.resetTo c p .normal) (· = p) (fun _ => False) := moves_resetTo s c p .normal
      obtain ⟨h, hcount⟩ := ih hn.2 (s.resetTo c p .normal) (n + 1) happ.length
      have hsame : ∀ x ∈ l, (s.resetTo c p .normal).pt x = s.pt x := fun x hx => hm.off x fun e => hn.1 (e ▸ hx)
      have hfilter : (l.filter fun x => ((s.resetTo c p .normal).pt x).resets r) = l.filter fun x => (s.pt x).resets r :=
        List.filter_congr fun x hx => by rw [hsame x hx]
      have hpt := h.moves.off p hn.1
      refine ⟨⟨.trans (hm.mono (fun x hx => hx ▸ List.mem_cons_self) fun _ h => h)
        (h.moves.mono (fun x hx => List.mem_cons_of_mem _ hx) fun _ h => h), h.map.trans (resetTo_map c p),
        h.request.trans (resetTo_audibleRequest c p), fun x hx hr => ?_, fun x hx hr => ?_, ?_⟩, ?_⟩
      · obtain rfl | hx := List.mem_cons.mp hx
        · rw [hpt]
          exact hself
        · rw [← hsame x hx] at hr ⊢
          exact h.reset x hx hr
      · obtain rfl | hx := List.mem_cons.mp hx
        · rw [hp] at hr
          cases hr
        · rw [← hsame x hx] at hr ⊢
          exact h.kept x hx hr
      · rw [hf, List.flatMap_cons]
        refine happ.trans ?_
        have hmore := h.appends
        rw [hfilter] at hmore
        refine cast (congrArg (Appends _ _) (List.flatMap_congr fun x hx => ?_)) hmore
        rw [hsame x (List.mem_of_mem_filter hx)]
      · rw [hcount, hfilter, List.length_cons]
        omega

end

end Sys2Proof.Machine
end

section
/-! PROOFS. RESET_POINT and RESET_ALL as requests (R53, R54). -/

namespace Sys2Proof.Machine

/-- Two ascending lists of the same points are the same. -/
theorem eq_of_ascending {l m : List PointNo} (hl : l.Pairwise (· < ·)) (hm : m.Pairwise (· < ·)) (h : ∀ x, x ∈ l ↔ x ∈ m) :
    l = m := by
  have hnl : l.Nodup := hl.imp fun h => ne_of_lt h
  have hnm : m.Nodup := hm.imp fun h => ne_of_lt h
  exact ((List.perm_ext_iff_of_nodup hnl hnm).mpr h).eq_of_pairwise' hl hm

theorem ring_begun (s : State) (p : Port) (f : Frame) : ((s.begun p f).stn p).ring = (s.stn p).ring := by
  rw [stn_begun_self]
  rfl

section
variable {s : State} {p : Port} {f : Frame}

theorem ownResetPoint_of_bad (h : ¬ (s.pt (f.point 0)).Resettable) : s.ownResetPoint p f = s.respond p f .badState [] := by
  unfold State.ownResetPoint
  dsimp only
  rw [resetTo_of_not_resettable h]

theorem ownResetPoint_of_good (h : (s.pt (f.point 0)).Resettable) :
    s.ownResetPoint p f = (s.resetTo (s.requestClaim p) (f.point 0) .normal).respond p f .ok [] := by
  unfold State.ownResetPoint
  dsimp only
  rw [resetTo_of_resettable h]

theorem ownAckClass_of_bad (h : 7 < f.arg 0) : s.ownAckClass p f = s.respond p f .badArgument [] := by
  unfold State.ownAckClass
  rw [below_eq_none_iff.mpr h]

end

/-- Settles O34. -/
theorem resetsPoints : Obligations.ResetsPoints := by
  intro s p f hb resettable claim q resetOf drafts
  refine ⟨fun h hbad => next_answered h rfl (ownAckClass_of_bad hbad), fun h => ⟨fun hbad => ?_, fun hgood => ?_⟩,
    fun h => ?_⟩
  · exact next_answered h rfl (ownResetPoint_of_bad hbad)
  · let w := s.begun p f
    have hexec := next_of_takes (form := anyForm) h rfl fun f t => t.ownResetPoint p f
    rw [ownResetPoint_of_good (s := w) hgood] at hexec
    have hm : Moves w (w.resetTo claim q .normal) (· = q) (fun _ => False) := moves_resetTo w claim q .normal
    obtain ⟨hself, happ⟩ := resetTo_spec (s := w) claim q hb
    have hann : Announces w (w.resetTo claim q .normal) :=
      announces_resetTo (c := claim) (p := q) (.refl w) (fun _ h => h) .normal
    obtain ⟨hemits, hresp⟩ := hm.answered (st := .ok) (r := [])
    rw [resetTo_map, resetTo_audibleRequest] at hemits
    refine ⟨_, hexec, hresp, ?_, hann.answered, ?_, fun x hx => ?_, happ.answered⟩
    · rw [ended_points]
      exact hemits
    · rw [ended_pt]
      exact hself
    · rw [ended_pt]
      exact hm.off x hx
  · let w := s.begun p f
    have hexec := next_of_takes (form := anyForm) h rfl fun f t => t.ownResetAll p f
    obtain ⟨hpass, hcount⟩ := resetPass_foldl claim (s.stn p).ring allPoints (pairwise_allPoints.imp fun h => ne_of_lt h) w 0 hb
    have hann : Announces w (allPoints.foldl (offerReset claim (s.stn p).ring) (w, 0)).1 :=
      announces_offerReset (c := claim) _ _ (w, 0) (.refl w) fun _ h => h
    have howner : w.ownResetAll p f = respondCount p f (allPoints.foldl (offerReset claim (s.stn p).ring) (w, 0)) := by
      unfold State.ownResetAll
      rw [ring_begun]
      rfl
    rw [howner] at hexec
    unfold respondCount at hexec
    obtain ⟨v, hv⟩ : ∃ v, v = allPoints.foldl (offerReset claim (s.stn p).ring) (w, 0) := ⟨_, rfl⟩
    rw [← hv] at hexec hpass hcount hann
    obtain ⟨hemits, hresp⟩ := hpass.moves.answered (st := .ok) (r := b2 v.2)
    rw [hpass.map, hpass.request] at hemits
    refine ⟨_, v.2, hexec, hresp, ?_, hann.answered, fun x hx hr => ?_, fun x hx => ?_, fun l hl hmem => ?_⟩
    · rw [ended_points]
      exact hemits
    · rw [ended_pt]
      exact hpass.reset x (mem_allPoints x) (resets_iff.mpr ⟨hx, hr⟩)
    · rw [ended_pt]
      exact hpass.kept x (mem_allPoints x) (Bool.eq_false_iff.mpr fun hr => hx (resets_iff.mp hr))
    · have hsame : l = allPoints.filter fun x => (w.pt x).resets (s.stn p).ring :=
        eq_of_ascending hl (pairwise_allPoints.filter _) fun x =>
          (hmem x).trans ⟨fun h => List.mem_filter.mpr ⟨mem_allPoints x, resets_iff.mpr h⟩,
            fun h => resets_iff.mp (List.mem_filter.mp h).2⟩
      rw [hsame, hcount, Nat.zero_add]
      exact ⟨rfl, hpass.appends.answered⟩

end Sys2Proof.Machine
end

section
/-! PROOFS. Points that leave service and return to it (R55 to R63, R36). -/

namespace Sys2Proof.Machine

/-! ### A change at one point, carried up -/

section
variable {s t u : State} {q : PointNo} {S : PointNo → Prop} {own : List RecordDraft}

/-- A point without a parent group has none to follow it. -/
theorem carryUp_of_no_group (c : Claim) (h : ∀ g, (s.pt q).parent = some g → (s.pt g).kind ≠ .group) : s.carryUp c q = s := by
  show State.propagate 3 c q s = s
  rw [State.propagate]
  cases hg : (s.pt q).parent with
  | none => rfl
  | some g =>
    dsimp only
    rw [if_neg (h g hg)]

/-- The parent group follows the change that is carried up (R34 to R36). -/
theorem parentFollows_carryUp (hm : Moves s u (· = q) S) (c : Claim) (hd : s.depth 4 q ≤ 3) (happ : Appends s u own) :
    ParentFollows s (u.carryUp c q) c q own := by
  refine ⟨fun hg => ?_, fun g hg hk => ?_⟩
  · rw [carryUp_of_no_group c fun g h => by
      rw [hm.kind]
      exact hg g (by rw [← hm.parent]; exact h)]
    exact happ.followed (.none rfl happ.length)
  · have hne : g ≠ q := fun e => parent_ne_self hd (e ▸ hg)
    obtain ⟨hpt, hmore⟩ := carryUp_parent (s := u) c (by rw [hm.depth]; exact hd) happ.length
      (by rw [hm.parent]; exact hg) (by rw [hm.kind]; exact hk)
    rw [hm.off g hne] at hpt hmore
    exact ⟨hpt, (happ.prepend hmore).mono fun _ h => .inl h⟩

/-- What emits alone behind the change. -/
theorem ParentFollows.behind {c : Claim} (h : ParentFollows s t c q own) (hp : u.points = t.points)
    (ha : ∀ {ds : List RecordDraft} {P : RecordDraft → Prop}, (∀ d : RecordDraft, d.isSystem = true → P d) →
      AppendsThen s t ds P → AppendsThen s u ds P) : ParentFollows s u c q own := by
  refine ⟨fun hg => ha (fun _ h => h) (h.1 hg), fun g hg hk => ?_⟩
  obtain ⟨hpt, hmore⟩ := h.2 g hg hk
  obtain ⟨hq, hc⟩ := groupFace_congr hp g
  rw [← hq, ← hc] at hpt hmore
  refine ⟨?_, ha (fun _ h => .inr h) hmore⟩
  rw [pt_congr hp]
  exact hpt

theorem follows_of_member {d : RecordDraft} (h : d.cause = some .member) : d.follows := .inl h

end

section
variable {s v : State} {p : Port} {f : Frame} {st : Status} {r : List Byte} {q : PointNo}

theorem ParentFollows.answered {c : Claim} {own : List RecordDraft} (h : ParentFollows (s.begun p f) v c q own) :
    ParentFollows s (v.respond p f st r).settle c q own :=
  ParentFollows.behind (s := s) h (ended_points v p f st r) fun hP ha => appendsThen_settled (s := s) hP rfl ha

/-- The answer to a request that has moved one point and its chain. -/
theorem Moves.answeredMoves {S : PointNo → Prop} (hS : ∀ x, S x → x = q)
    (h : Moves (s.begun p f) v (fun x => (s.begun p f).onChain x Config.maxLinks q = true) S) :
    OnlyMoves
        { s.closed p f st r (((v.respond p f st r).settle).stn p).waitResponse with map := v.map }
        (v.respond p f st r).settle q
      ∧ (v.respond p f st r).settle.Responding p f st r := by
  obtain ⟨hemits, hresp⟩ := h.answered (st := st) (r := r)
  have hm := h.onlyMoves hS
  have hpt := ended_pt v p f st r
  refine ⟨⟨?_, fun x hx => ?_, fun x => ?_, fun x hx => ?_, fun hr => ?_⟩, hresp⟩
  · rw [ended_points, ended_audibleRequest]
    exact hemits
  · rw [hpt]
    refine hm.offChain x ?_
    rw [← hx]
    exact onChain_congr rfl _ _ _
  · rw [hpt]
    exact hm.config x
  · rw [hpt]
    exact hm.service x hx
  · rw [ended_audibleRequest]
    exact hm.request hr

end

section
variable {s v : State} {p : Port} {f : Frame} {st : Status} {r : List Byte} {q : PointNo}

theorem Moves.answeredMoves_of_map {S : PointNo → Prop} (hS : ∀ x, S x → x = q)
    (h : Moves (s.begun p f) v (fun x => (s.begun p f).onChain x Config.maxLinks q = true) S) (hmap : v.map = s.map) :
    OnlyMoves (s.closed p f st r (((v.respond p f st r).settle).stn p).waitResponse) (v.respond p f st r).settle q
      ∧ (v.respond p f st r).settle.Responding p f st r := by
  obtain ⟨hmoves, hresp⟩ := h.answeredMoves hS (st := st) (r := r)
  rw [hmap] at hmoves
  exact ⟨hmoves, hresp⟩

end

/-! ### Leaving service -/

section
variable {s : State} (c : Claim) (q : PointNo) (cause : Cause) (v : Service) (timer : Option Nat)

/-- The record of the forcing to NORMAL (R56). -/
def forcedDrafts (r : PointRec) : List RecordDraft :=
  if r.seqState ≠ .normal then
    [pointDraft c q cause (.pointState r.seqState .normal r.condition
      (if r.kind = .group ∧ r.firstOut = true then r.firstMember else none))]
  else []

theorem forceNormal_spec (hb : s.log.ring.length ≤ 1024) :
    (s.forceNormal c q cause).pt q =
        { s.pt q with seqState := .normal, lastChange := ((s.forceNormal c q cause).pt q).lastChange }
      ∧ (s.forceNormal c q cause).audibleRequest = s.audibleRequest
      ∧ Appends s (s.forceNormal c q cause) (forcedDrafts c q cause (s.pt q)) := by
  unfold State.forceNormal forcedDrafts
  by_cases h : (s.pt q).seqState = .normal
  · rw [if_pos h, if_neg (not_not_intro h), ← h]
    exact ⟨rfl, rfl, appends_nil rfl hb⟩
  · rw [if_neg h, if_pos h, transition_pt_self, audibleRequest_transition]
    exact ⟨rfl, by simp, appends_transition c q cause hb .normal⟩

/-- The point itself has left service; its groups are still to follow. -/
def State.left (s : State) (c : Claim) (q : PointNo) (cause : Cause) (v : Service) (timer : Option Nat) : State :=
  ((s.forceNormal c q cause).setService c q cause v timer).clearFirstMember c q

theorem leaveService_eq : s.leaveService c q cause v timer = (s.left c q cause v timer).carryUp c q := rfl

theorem moves_left : Moves s (s.left c q cause v timer) (· = q) (· = q) :=
  ((moves_forceNormal s c q cause).trans (moves_setService _ c q cause v timer)).trans (moves_clearFirstMember _ c q)

theorem left_map : (s.left c q cause v timer).map = s.map := by
  have hforce : (s.forceNormal c q cause).map = s.map := by
    unfold State.forceNormal
    split
    · rfl
    · exact transition_map ..
  unfold State.left
  rw [clearFirstMember_map, setService_map, hforce]

theorem leaveService_map : (s.leaveService c q cause v timer).map = s.map := by
  rw [leaveService_eq, carryUp_map, left_map]

theorem audibleRequest_setService : (s.setService c q cause v timer).audibleRequest = s.audibleRequest :=
  audibleRequest_emitPoint ..

theorem left_spec (hb : s.log.ring.length ≤ 1024) :
    (s.left c q cause v timer).pt q =
        { s.pt q with
          seqState := .normal, service := v, shelveTimer := timer
          firstMember := if (s.pt q).firstOut = true then none else (s.pt q).firstMember
          lastChange := ((s.left c q cause v timer).pt q).lastChange }
      ∧ (s.left c q cause v timer).audibleRequest = s.audibleRequest
      ∧ Appends s (s.left c q cause v timer)
        (forcedDrafts c q cause (s.pt q) ++ pointDraft c q cause (.pointService (s.pt q).service v)
          :: clearedDrafts c q { s.pt q with seqState := .normal }) := by
  obtain ⟨hpt, haud, happ⟩ := forceNormal_spec (s := s) c q cause hb
  have hset := setService_pt_self (s := s.forceNormal c q cause) c q cause v timer
  have happs := appends_setService (s := s.forceNormal c q cause) c q cause happ.length v timer
  obtain ⟨hclr, happc⟩ := clearFirstMember_spec (s := (s.forceNormal c q cause).setService c q cause v timer) c q happs.length
  rw [hpt] at hset happs
  refine ⟨?_, ?_, ?_⟩
  · refine hclr.trans ?_
    rw [hset]
    unfold PointRec.memberCleared State.left
    dsimp only
    by_cases hf : (s.pt q).firstOut = true
    · rw [if_pos ⟨hf, rfl⟩, if_pos hf]
    · rw [if_neg fun h => hf h.1, if_neg hf]
  · unfold State.left
    rw [audibleRequest_clearFirstMember, audibleRequest_setService, haud]
  · rw [hset] at happc
    exact happ.trans (happs.trans happc)

/-- A point that leaves service enters no ALERT (R24). -/
theorem sounds_left (hb : s.log.ring.length ≤ 1024) : Sounds s (s.left c q cause v timer) (· = q) := by
  obtain ⟨hpt, haud, -⟩ := left_spec (s := s) c q cause v timer hb
  refine ⟨fun x ha hn _ _ => ?_, fun h => .inl (haud ▸ h)⟩
  by_cases hx : x = q
  · rw [hx, hpt] at ha
    cases ha
  · rw [(moves_left (s := s) c q cause v timer).off x hx] at ha
    exact absurd ha hn

end

end Sys2Proof.Machine
end

section
/-! PROOFS. SHELVE and REMOVE (R55 to R57, R62, R36). -/

namespace Sys2Proof.Machine

/-! ### The service alone -/

section
variable {s : State} (c : Claim) (q : PointNo) (cause : Cause) (v : Service) (timer : Option Nat)

theorem sounds_setService : Sounds s (s.setService c q cause v timer) (· = q) := by
  refine ⟨fun x ha hn _ _ => ?_, fun h => .inl ((audibleRequest_setService ..).symm.trans h)⟩
  by_cases hx : x = q
  · rw [hx, setService_pt_self] at ha
    rw [hx] at hn
    exact absurd ha hn
  · rw [(moves_setService s c q cause v timer).off x hx] at ha
    exact absurd ha hn

/-- A change of service between values that do not count in a group leaves every point up to date that was so. -/
theorem keepsUpToDate_setService (h : (s.pt q).service ≠ .inService) (hv : v ≠ .inService) :
    KeepsUpToDate s (s.setService c q cause v timer) := by
  have hm := moves_setService s c q cause v timer
  have hmap := setService_map s c q cause v timer
  have hpt (x : PointNo) : ∃ w, (w = (s.pt x).service ∨ x = q ∧ w = v)
      ∧ ∃ n l, (s.setService c q cause v timer).pt x = { s.pt x with service := w, shelveTimer := n, lastChange := l } := by
    by_cases hx : x = q
    · subst hx
      exact ⟨v, .inr ⟨rfl, rfl⟩, _, _, setService_pt_self c x cause v timer⟩
    · exact ⟨_, .inl rfl, _, _, hm.off x hx⟩
  have hcounts (x g : PointNo) : ((s.setService c q cause v timer).pt x).countsIn g = (s.pt x).countsIn g := by
    obtain ⟨w, hw, n, l, hx⟩ := hpt x
    rw [hx]
    obtain rfl | ⟨rfl, rfl⟩ := hw
    · rfl
    · simp [PointRec.countsIn, beq_eq_false_iff_ne.mpr h, beq_eq_false_iff_ne.mpr hv]
  intro x hu
  unfold State.UpToDate at hu ⊢
  obtain ⟨w, -, n, l, hx⟩ := hpt x
  have hkeep : ((s.setService c q cause v timer).pt x).kind = (s.pt x).kind
      ∧ ((s.setService c q cause v timer).pt x).quality = (s.pt x).quality
      ∧ ((s.setService c q cause v timer).pt x).condition = (s.pt x).condition := by
    rw [hx]
    exact ⟨rfl, rfl, rfl⟩
  obtain ⟨hkind, hquality, hcondition⟩ := hkeep
  have hgq : (s.setService c q cause v timer).groupQuality x = s.groupQuality x := by
    unfold State.groupQuality
    rw [points_any_congr (s := s) fun y => ?_]
    obtain ⟨w, -, n, l, hy⟩ := hpt y
    rw [hcounts, hy]
  have hgc : (s.setService c q cause v timer).groupCondition x = s.groupCondition x := by
    unfold State.groupCondition
    rw [points_any_congr (s := s) fun y => ?_]
    obtain ⟨w, -, n, l, hy⟩ := hpt y
    rw [hcounts, hy]
  rw [hkind, hquality, hcondition, hgq, hgc, fieldQuality_congr hmap, fieldCondition_congr hmap]
  exact hu

end

/-! ### The requests -/

section
variable {s w : State} {p : Port} {f : Frame}

/-- The point is in RUN and in service. -/
abbrev State.Serves (s : State) (q : PointNo) : Prop := s.mode = .run ∧ (s.pt q).service = .inService

/-- What an accepted SHELVE or REMOVE does to its point. -/
def State.takenOut (s : State) (c : Claim) (q : PointNo) (cause : Cause) (v : Service) (timer : Option Nat) : State :=
  if s.Serves q then s.leaveService c q cause v timer else s.setService c q cause v timer

theorem ownShelve_of_bad (h : f.arg2 1 = 0 ∨ 1440 < f.arg2 1) : s.ownShelve p f = s.respond p f .badArgument [] := if_pos h

theorem ownShelve_of_badState (h : ¬ (f.arg2 1 = 0 ∨ 1440 < f.arg2 1))
    (hb : (s.pt (f.point 0)).service = .removed ∨ (s.pt (f.point 0)).kind = .spare) :
    s.ownShelve p f = s.respond p f .badState [] := by
  refine (if_neg h).trans ?_
  by_cases hk : (s.pt (f.point 0)).kind = .spare
  · exact if_pos hk
  · refine (if_neg hk).trans ?_
    rw [hb.resolve_right hk]

theorem ownShelve_of_good (hrun : s.mode = .run) (h : ¬ (f.arg2 1 = 0 ∨ 1440 < f.arg2 1))
    (hr : (s.pt (f.point 0)).service ≠ .removed) (hk : (s.pt (f.point 0)).kind ≠ .spare) :
    s.ownShelve p f =
      (s.takenOut (s.requestClaim p) (f.point 0) .shelve (.shelved (s.now.addMs (f.arg2 1 * 60000)))
        (some (f.arg2 1 * 60000))).respond p f .ok [] := by
  refine (if_neg h).trans ((if_neg hk).trans ?_)
  split
  · next hs => exact absurd hs hr
  · next e hs =>
    unfold State.takenOut
    rw [if_neg fun hw => Service.noConfusion (hs.symm.trans hw.2)]
    rfl
  · next hs =>
    unfold State.takenOut
    rw [if_pos ⟨hrun, hs⟩]
    rfl

theorem ownRemove_of_bad (h : (s.pt (f.point 0)).service = .removed) : s.ownRemove p f = s.respond p f .badState [] := if_pos h

theorem ownRemove_of_good (h : (s.pt (f.point 0)).service ≠ .removed) :
    s.ownRemove p f = (s.takenOut (s.requestClaim p) (f.point 0) .remove .removed none).respond p f .ok [] := if_neg h

theorem State.Takes.run_of_shelve (h : s.Takes p .shelve f) : s.mode = .run := by
  have hm := h.mode
  simpa [State.modeOk, ReqKind.modeRule] using hm

end

/-- What an accepted SHELVE or REMOVE has done by the end of its command (R56, R62, R36). -/
structure TakenOut (s t : State) (p : Port) (f : Frame) (q : PointNo) (cause : Cause) (v : Service) (timer : Option Nat) :
    Prop where
  responding : t.Responding p f .ok []
  moves : OnlyMoves (s.closed p f .ok [] (t.stn p).waitResponse) t q
  alerts : AlertsAudibly s t
  announces : Announces s t
  keeps : s.mode = .run → KeepsUpToDate s t

section
variable {s : State} {p : Port} {f : Frame} {q : PointNo} {cause : Cause} {v : Service} {timer : Option Nat}

theorem takenOut_kept (hb : s.log.ring.length ≤ 1024) (hd : s.depth 4 q ≤ 3) (hv : v ≠ .inService) :
    TakenOut s (((s.begun p f).takenOut (s.requestClaim p) q cause v timer).respond p f .ok []).settle p f q cause v
      timer := by
  obtain ⟨w, hw⟩ : ∃ w, w = s.begun p f := ⟨_, rfl⟩
  have hwb : w.log.ring.length ≤ 1024 := by rw [hw]; exact hb
  have hwd : w.depth 4 q ≤ 3 := by rw [hw]; exact hd
  have hwmap : w.map = s.map := by rw [hw]; rfl
  have hserves : w.Serves q ↔ s.Serves q := by rw [hw]; exact Iff.rfl
  generalize s.requestClaim p = c
  suffices h : ∃ u, u = w.takenOut c q cause v timer ∧ Moves w u (fun x => w.onChain x Config.maxLinks q = true) (· = q)
      ∧ u.map = w.map ∧ AlertsAudibly w u ∧ Announces w u ∧ (s.mode = .run → KeepsUpToDate w u) by
    obtain ⟨u, hu, hm, hmap, ha, hn, hk⟩ := h
    subst hw
    rw [← hu]
    obtain ⟨hmoves, hresp⟩ := Moves.answeredMoves_of_map (s := s) (st := .ok) (r := []) (fun _ h => h) hm (hmap.trans hwmap)
    exact ⟨hresp, hmoves, ha.answered, hn.answered, fun hrun => (hk hrun).answered⟩
  by_cases hwhole : w.Serves q
  · refine ⟨w.leaveService c q cause v timer, (if_pos hwhole).symm, moves_leaveService w c q cause v timer,
      leaveService_map c q cause v timer, ?_, ?_, fun _ => leaveService_upToDate c cause v timer hwd⟩
    · exact (Sounds.carried (moves_left c q cause v timer) (sounds_left c q cause v timer hwb) c hwd).alertsAudibly
    · exact announces_leaveService (c := c) (p := q) (cause := cause) (.refl w) (fun _ h => h) v timer
  · have hm := moves_setService w c q cause v timer
    refine ⟨w.setService c q cause v timer, (if_neg hwhole).symm, hm.mono (fun x hx => ?_) fun _ h => h,
      setService_map .., (sounds_setService c q cause v timer).alertsAudibly, ?_, fun hrun => ?_⟩
    · rw [hx]
      exact onChain_self w _ q
    · exact announces_setService (c := c) (p := q) (cause := cause) (.refl w) (fun _ h => h) v timer
    · exact keepsUpToDate_setService c q cause v timer (fun h => hwhole (hserves.mpr ⟨hrun, by rw [hw] at h; exact h⟩)) hv

theorem AppendsThen.shorten {s t : State} {a b : List RecordDraft} {P : RecordDraft → Prop} (h : AppendsThen s t (a ++ b) P)
    (hb : ∀ d ∈ b, P d) : AppendsThen s t a P := by
  obtain ⟨more, happ, hmore⟩ := h
  rw [List.append_assoc] at happ
  exact ⟨b ++ more, happ, fun d hd => (List.mem_append.mp hd).elim (hb d) (hmore d)⟩

theorem follows_of_mem_clearedDrafts {c : Claim} {q : PointNo} {r : PointRec} {d : RecordDraft}
    (h : d ∈ clearedDrafts c q r) : d.follows := by
  unfold clearedDrafts at h
  split at h
  · rw [List.mem_singleton.mp h]
    exact .inl rfl
  · cases h

theorem leaveService_spec (c : Claim) (hb : s.log.ring.length ≤ 1024) (hd : s.depth 4 q ≤ 3) :
    let t := s.leaveService c q cause v timer
    let r := s.pt q
    let own := forcedDrafts c q cause r ++ pointDraft c q cause (.pointService r.service v)
      :: clearedDrafts c q { r with seqState := .normal }
    t.pt q =
        { r with
          seqState := .normal, service := v, shelveTimer := timer
          firstMember := if r.firstOut = true then none else r.firstMember, lastChange := (t.pt q).lastChange }
      ∧ ParentFollows s t c q own
      ∧ AppendsThen s t (forcedDrafts c q cause r ++ [pointDraft c q cause (.pointService r.service v)]) RecordDraft.follows := by
  intro t r own
  have hm := moves_left (s := s) c q cause v timer
  obtain ⟨hpt, -, happ⟩ := left_spec (s := s) c q cause v timer hb
  have hself : t.pt q = (s.left c q cause v timer).pt q := carryUp_pt_self (s := s.left c q cause v timer) c (by rw [hm.depth]; exact hd)
  refine ⟨?_, parentFollows_carryUp hm c hd happ, ?_⟩
  · rw [hself]
    exact hpt
  · have hall : AppendsThen s t own RecordDraft.follows :=
      happ.followed ((appendsThen_carryUp c q happ.length).mono fun _ h => .inl h)
    refine AppendsThen.shorten (b := clearedDrafts c q { r with seqState := .normal }) ?_ fun d hd =>
      follows_of_mem_clearedDrafts hd
    rw [List.append_assoc]
    exact hall

/-- A point that was in service in RUN: what becomes of it and of its parent group. -/
theorem takenOut_whole (hw : s.Serves q) (hb : s.log.ring.length ≤ 1024) (hd : s.depth 4 q ≤ 3) :
    let t := (((s.begun p f).takenOut (s.requestClaim p) q cause v timer).respond p f .ok []).settle
    let c := s.requestClaim p
    let r := s.pt q
    t.pt q =
        { r with
          seqState := .normal, service := v, shelveTimer := timer
          firstMember := if r.firstOut = true then none else r.firstMember, lastChange := (t.pt q).lastChange }
      ∧ ParentFollows s t c q (forcedDrafts c q cause r ++ pointDraft c q cause (.pointService r.service v)
        :: clearedDrafts c q { r with seqState := .normal })
      ∧ AppendsThen s t (forcedDrafts c q cause r ++ [pointDraft c q cause (.pointService r.service v)])
        RecordDraft.follows := by
  intro t c r
  obtain ⟨hself, hparent, hall⟩ := leaveService_spec (s := s.begun p f) (q := q) (cause := cause) (v := v)
    (timer := timer) c hb hd
  have hout : (s.begun p f).takenOut c q cause v timer = (s.begun p f).leaveService c q cause v timer := if_pos hw
  have ht : t = (((s.begun p f).leaveService c q cause v timer).respond p f .ok []).settle :=
    congrArg (fun u => (State.respond u p f .ok []).settle) hout
  obtain ⟨u, hu⟩ : ∃ u, u = (s.begun p f).leaveService c q cause v timer := ⟨_, rfl⟩
  rw [← hu] at ht hself hparent hall
  rw [ht, ended_pt]
  exact ⟨hself, hparent.answered, appendsThen_settled (s := s) (fun _ h => .inr h) rfl hall⟩

/-- Any other point: the service alone changes. -/
theorem takenOut_alone (hw : ¬ s.Serves q) (hb : s.log.ring.length ≤ 1024) :
    let t := (((s.begun p f).takenOut (s.requestClaim p) q cause v timer).respond p f .ok []).settle
    let c := s.requestClaim p
    let r := s.pt q
    t.pt q = { r with service := v, shelveTimer := timer, lastChange := some (s.log.next, s.now) }
      ∧ (∀ x, x ≠ q → t.pt x = s.pt x) ∧ AppendsFirst s t [pointDraft c q cause (.pointService r.service v)] := by
  intro t c r
  have hm := moves_setService (s.begun p f) c q cause v timer
  have hself := setService_pt_self (s := s.begun p f) c q cause v timer
  have happ := appends_setService (s := s.begun p f) c q cause hb v timer
  have hout : (s.begun p f).takenOut c q cause v timer = (s.begun p f).setService c q cause v timer := if_neg hw
  have ht : t = (((s.begun p f).setService c q cause v timer).respond p f .ok []).settle :=
    congrArg (fun u => (State.respond u p f .ok []).settle) hout
  obtain ⟨u, hu⟩ : ∃ u, u = (s.begun p f).setService c q cause v timer := ⟨_, rfl⟩
  rw [← hu] at ht hself happ hm
  rw [ht, ended_pt]
  refine ⟨hself, fun x hx => ?_, happ.answered⟩
  rw [ended_pt]
  exact hm.off x hx

end

/-- Settles O35. -/
theorem leavesService : Obligations.LeavesService := by
  intro s p f c k cause service timer h hb q r minutes hc hd claim whole member forced changed badState
  let w := s.begun p f
  have hminutes : f.arg2 1 = minutes := rfl
  have hservice : service ≠ .inService := by
    obtain ⟨-, -, -, rfl, -⟩ | ⟨-, -, -, rfl, -⟩ := hc <;> nofun
  refine ⟨fun hk hbad => ?_, fun hok hbad => ?_, fun hok hgood => ?_⟩
  · obtain ⟨rfl, rfl, -⟩ | ⟨-, rfl, -⟩ := hc
    · exact next_answered h rfl (ownShelve_of_bad hbad)
    · cases hk
  · obtain ⟨rfl, rfl, -⟩ | ⟨rfl, rfl, -⟩ := hc
    · have := hok rfl
      exact next_answered h rfl (ownShelve_of_badState (by omega) (hbad.imp_right And.right))
    · exact next_answered h rfl (ownRemove_of_bad (hbad.resolve_right fun h => nomatch h.1))
  have hexec : exec c s = .next ((w.takenOut claim q cause service timer).respond p f .ok []).settle := by
    rw [not_or] at hgood
    obtain ⟨rfl, rfl, rfl, rfl, rfl⟩ | ⟨rfl, rfl, rfl, rfl, rfl⟩ := hc
    · have := hok rfl
      have hnext := next_of_takes (form := anyForm) h rfl fun f t => t.ownShelve p f
      rw [ownShelve_of_good (s := w) h.run_of_shelve (by omega) hgood.1 fun hk => hgood.2 ⟨rfl, hk⟩] at hnext
      exact hnext
    · have hnext := next_of_takes (form := anyForm) h rfl fun f t => t.ownRemove p f
      rw [ownRemove_of_good (s := w) hgood.1] at hnext
      exact hnext
  have hkept := takenOut_kept (p := p) (f := f) (q := q) (cause := cause) (timer := timer) hb hd hservice
  have hforced (hw : whole) : forced = forcedDrafts claim q cause r :=
    if_congr (and_iff_right hw) rfl rfl
  refine ⟨_, hexec, hkept.responding, hkept.moves, fun hw => ?_, fun hw => ?_, hkept.keeps, hkept.alerts, hkept.announces, ?_⟩
  · obtain ⟨hself, hparent, -⟩ := takenOut_whole (p := p) (f := f) (cause := cause) (v := service) (timer := timer) hw hb hd
    refine ⟨hself, ?_⟩
    rw [hforced hw]
    exact hparent
  · exact takenOut_alone hw hb
  · by_cases hw : whole
    · rw [hforced hw]
      exact (takenOut_whole hw hb hd).2.2
    · have hnone : forced = [] := if_neg fun h => hw h.1
      rw [hnone]
      exact (takenOut_alone hw hb).2.2.mono fun _ h => .inr h

end Sys2Proof.Machine
end

section
/-! PROOFS. UNSHELVE, RESTORE and a shelve expiry (R59 to R61, R63, R36). -/

namespace Sys2Proof.Machine

/-! ### The point back in service -/

/-- A point that returns to service goes to ALERT (R59). -/
abbrev PointRec.AlertsBack (r : PointRec) : Prop := r.condition = .abnormal ∧ r.kind ≠ .spare

/-- The records of a point that returns to service (R59, R63). -/
def backDrafts (c : Claim) (q : PointNo) (cause : Cause) (r : PointRec) : List RecordDraft :=
  pointDraft c q cause (.pointService r.service .inService) ::
    if r.AlertsBack then
      [pointDraft c q cause (.pointState r.seqState .alert r.condition
        (if r.kind = .group ∧ r.firstOut = true then r.firstMember else none))]
    else []

/-- The record of a point that has returned to service. -/
def PointRec.back (r : PointRec) (latest : Option (Nat × TimeStamp)) : PointRec :=
  { r with
    service := .inService, shelveTimer := none, seqState := if r.AlertsBack then .alert else r.seqState
    lastChange := latest }

/-- The point itself is back in service; its groups are still to follow. -/
def State.back (s : State) (c : Claim) (q : PointNo) (cause : Cause) : State :=
  if (s.pt q).AlertsBack then (s.setService c q cause .inService none).transition c q cause .alert
  else s.setService c q cause .inService none

section
variable {s : State} (c : Claim) (q : PointNo) (cause : Cause)

theorem returnToService_eq : s.returnToService c q cause = (s.back c q cause).carryUp c q := by
  unfold State.returnToService State.back
  dsimp only
  rw [setService_pt_self]

theorem moves_back : Moves s (s.back c q cause) (· = q) (· = q) := by
  unfold State.back
  split
  · exact (moves_setService s c q cause .inService none).trans (moves_transition _ _ _ _ _)
  · exact moves_setService s c q cause .inService none

theorem returnToService_map : (s.returnToService c q cause).map = s.map := by
  rw [returnToService_eq, carryUp_map]
  unfold State.back
  split
  · rw [transition_map, setService_map]
  · rw [setService_map]

theorem back_spec (hb : s.log.ring.length ≤ 1024) :
    (s.back c q cause).pt q = (s.pt q).back ((s.back c q cause).pt q).lastChange
      ∧ (s.back c q cause).audibleRequest =
        (s.audibleRequest || decide ((s.pt q).AlertsBack ∧ (s.pt q).seqState ≠ .alert) && s.qualifies (s.pt q).cls)
      ∧ Appends s (s.back c q cause) (backDrafts c q cause (s.pt q)) := by
  have hset := setService_pt_self (s := s) c q cause .inService none
  have happ := appends_setService (s := s) c q cause hb .inService none
  have hq := (moves_setService s c q cause .inService none).qualifies
  unfold State.back PointRec.back backDrafts
  by_cases h : (s.pt q).AlertsBack
  · simp only [if_pos h]
    have happt := appends_transition (s := s.setService c q cause .inService none) c q cause happ.length .alert
    rw [transition_pt_self, audibleRequest_transition, audibleRequest_setService, hq, hset]
    refine ⟨rfl, ?_, ?_⟩
    · simp [h]
    · rw [hset] at happt
      exact happ.trans happt
  · simp only [if_neg h]
    rw [hset, audibleRequest_setService]
    refine ⟨rfl, ?_, happ⟩
    rw [decide_eq_false fun hc => h hc.1]
    simp

theorem sounds_back (hb : s.log.ring.length ≤ 1024) : Sounds s (s.back c q cause) (· = q) := by
  obtain ⟨hpt, haud, -⟩ := back_spec (s := s) c q cause hb
  have hm := moves_back (s := s) c q cause
  refine ⟨fun x ha hn hv hqual => ?_, fun h => ?_⟩
  · by_cases hx : x = q
    · subst hx
      rw [hm.cls] at hqual
      rw [hpt] at ha
      unfold PointRec.back at ha
      dsimp only at ha
      have hback : (s.pt x).AlertsBack := by
        by_contra hcon
        rw [if_neg hcon] at ha
        exact hn ha
      rw [haud, hqual, decide_eq_true ⟨hback, hn⟩]
      simp
    · rw [hm.off x hx] at ha
      exact absurd ha hn
  · rw [haud, Bool.or_eq_true, Bool.and_eq_true, decide_eq_true_eq] at h
    obtain h | ⟨⟨hback, -⟩, hqual⟩ := h
    · exact .inl h
    · refine .inr ⟨q, rfl, ?_, ?_, by rw [hm.cls]; exact hqual⟩
      · rw [hpt]
        exact if_pos hback
      · rw [hpt]
        rfl

end

/-! ### What follows it -/

/-- From `s` to `t` point `q` has returned to service, and its groups have followed. -/
structure Returned (s t : State) (c : Claim) (q : PointNo) (cause : Cause) : Prop where
  self : t.pt q = (s.pt q).back (t.pt q).lastChange
  rings : (s.pt q).AlertsBack → s.qualifies (s.pt q).cls = true → (s.pt q).seqState ≠ .alert → t.audibleRequest = true
  keeps : KeepsUpToDate s t
  alerts : AlertsAudibly s t
  announces : Announces s t
  appends : AppendsThen s t (backDrafts c q cause (s.pt q)) RecordDraft.follows
  parent : ParentFollows s t c q (backDrafts c q cause (s.pt q))

section
variable {s t u : State} {c : Claim} {q : PointNo} {cause : Cause}

theorem returned_returnToService (c : Claim) (cause : Cause) (hb : s.log.ring.length ≤ 1024) (hd : s.depth 4 q ≤ 3) :
    Returned s (s.returnToService c q cause) c q cause := by
  obtain ⟨hpt, haud, happ⟩ := back_spec (s := s) c q cause hb
  have hm := moves_back (s := s) c q cause
  refine ⟨?_, fun h1 h2 h3 => ?_, returnToService_upToDate c cause hd, ?_,
    announces_returnToService (c := c) (p := q) (cause := cause) (.refl s) fun _ h => h, ?_, ?_⟩
  all_goals rw [returnToService_eq]
  · rw [carryUp_pt_self (s := s.back c q cause) c (by rw [hm.depth]; exact hd)]
    exact hpt
  · refine (moves_carryUp (S := fun _ => False) c q (s.back c q cause)).request ?_
    rw [haud, h2, decide_eq_true ⟨h1, h3⟩]
    simp
  · exact (Sounds.carried hm (sounds_back c q cause hb) c hd).alertsAudibly
  · exact happ.followed ((appendsThen_carryUp c q happ.length).mono fun _ h => .inl h)
  · exact parentFollows_carryUp hm c hd happ

/-- What emits alone behind the return. -/
theorem Returned.settle (h : Returned s t c q cause) (hb : t.log.ring.length ≤ 1024) : Returned s t.settle c q cause := by
  have hpt := pt_congr (settle_points t)
  have hbehind {ds : List RecordDraft} {P : RecordDraft → Prop} (hP : ∀ d : RecordDraft, d.isSystem = true → P d)
      (ha : AppendsThen s t ds P) : AppendsThen s t.settle ds P := ha.trans ((appendsFirst_settle hb).mono fun d => hP d)
  refine ⟨?_, fun h1 h2 h3 => ?_, fun x hx => upToDate_congr (settle_points t) (settle_map t) (h.keeps x hx),
    h.alerts.congr (settle_points t) (settle_audibleRequest t), h.announces.settle, hbehind (fun _ h => .inr h) h.appends,
    h.parent.behind (settle_points t) hbehind⟩
  · rw [hpt]
    exact h.self
  · rw [settle_audibleRequest]
    exact h.rings h1 h2 h3

theorem Returned.answered {p : Port} {f : Frame} {st : Status} {r : List Byte} (h : Returned (s.begun p f) t c q cause) :
    Returned s (t.respond p f st r).settle c q cause := by
  obtain ⟨hself, hrings, hkeeps, halerts, hann, happ, hpar⟩ := h
  refine ⟨?_, fun h1 h2 h3 => ?_, hkeeps.answered, halerts.answered, hann.answered,
    appendsThen_settled (s := s) (fun _ h => .inr h) rfl happ, hpar.answered⟩
  · rw [ended_pt]
    exact hself
  · rw [ended_audibleRequest]
    exact hrings h1 h2 h3

end

/-! ### The requests and the expiry -/

section
variable {s : State} {p : Port} {f : Frame} {q : PointNo}

theorem ownUnshelve_of_bad (h : ¬ (s.pt (f.point 0)).service.endTime.isSome = true) :
    s.ownUnshelve p f = s.respond p f .badState [] := by
  unfold State.ownUnshelve
  dsimp only
  split
  · next hs => exact absurd (by rw [hs]; rfl) h
  · rfl
  · rfl

theorem ownUnshelve_of_good (h : (s.pt (f.point 0)).service.endTime.isSome = true) :
    s.ownUnshelve p f = (s.returnToService (s.requestClaim p) (f.point 0) .unshelve).respond p f .ok [] := by
  unfold State.ownUnshelve
  dsimp only
  split
  · rfl
  · next hs => rw [hs] at h; cases h
  · next hs => rw [hs] at h; cases h

theorem ownRestore_of_bad (h : (s.pt (f.point 0)).service ≠ .removed) : s.ownRestore p f = s.respond p f .badState [] := if_neg h

theorem ownRestore_of_good (h : (s.pt (f.point 0)).service = .removed) :
    s.ownRestore p f = (s.restorePoint (s.requestClaim p) (f.point 0)).respond p f .ok [] := if_pos h

theorem State.Takes.run_of_unshelve (h : s.Takes p .unshelve f) : s.mode = .run := by
  have hm := h.mode
  simpa [State.modeOk, ReqKind.modeRule] using hm

/-- The answer to a request that has returned a point to service in RUN. -/
theorem answered_returnToService (cause : Cause) (hb : s.log.ring.length ≤ 1024) (hd : s.depth 4 q ≤ 3) :
    let t := (((s.begun p f).returnToService (s.requestClaim p) q cause).respond p f .ok []).settle
    t.Responding p f .ok [] ∧ OnlyMoves (s.closed p f .ok [] (t.stn p).waitResponse) t q
      ∧ Returned s t (s.requestClaim p) q cause := by
  intro t
  have hm := moves_returnToService (s.begun p f) (s.requestClaim p) q cause
  have hr := returned_returnToService (s := s.begun p f) (q := q) (s.requestClaim p) cause hb hd
  have hmap : ((s.begun p f).returnToService (s.requestClaim p) q cause).map = s.map := returnToService_map ..
  obtain ⟨hmoves, hresp⟩ := Moves.answeredMoves_of_map (s := s) (st := .ok) (r := []) (fun _ h => h) hm hmap
  exact ⟨hresp, hmoves, hr.answered⟩

/-- The answer to a RESTORE outside RUN: the service alone has changed. -/
theorem answered_setService (cause : Cause) (hb : s.log.ring.length ≤ 1024) :
    let t := (((s.begun p f).setService (s.requestClaim p) q cause .inService none).respond p f .ok []).settle
    let r := s.pt q
    t.Responding p f .ok []
      ∧ OnlyEmits
        { s.closed p f .ok [] (t.stn p).waitResponse with
          points := (s.setPt q
            { r with service := .inService, shelveTimer := none, lastChange := some (s.log.next, s.now) }).points } t
      ∧ Announces s t ∧ AppendsFirst s t [pointDraft (s.requestClaim p) q cause (.pointService r.service .inService)] := by
  intro t r
  have hm := moves_setService (s.begun p f) (s.requestClaim p) q cause .inService none
  have hself := setService_pt_self (s := s.begun p f) (s.requestClaim p) q cause .inService none
  have happ := appends_setService (s := s.begun p f) (s.requestClaim p) q cause hb .inService none
  have hmap := setService_map (s.begun p f) (s.requestClaim p) q cause .inService none
  have haud := audibleRequest_setService (s := s.begun p f) (s.requestClaim p) q cause .inService none
  have hann := announces_setService (c := s.requestClaim p) (p := q) (cause := cause) (.refl (s.begun p f)) (fun _ h => h)
    .inService none
  obtain ⟨v, hv⟩ : ∃ v, v = (s.begun p f).setService (s.requestClaim p) q cause .inService none := ⟨_, rfl⟩
  have ht : t = (v.respond p f .ok []).settle := by rw [hv]
  rw [← hv] at hm hself happ hmap haud hann
  have hpoints : v.points = (s.setPt q
      { r with service := .inService, shelveTimer := none, lastChange := some (s.log.next, s.now) }).points := by
    refine State.points_ext fun x => ?_
    by_cases hx : x = q
    · rw [hx, State.pt_setPt_self]
      exact hself
    · rw [State.pt_setPt, if_neg hx]
      exact hm.off x hx
  obtain ⟨hemits, hresp⟩ := hm.answered (st := .ok) (r := [])
  rw [hpoints, hmap, haud, ← ht] at hemits
  rw [← ht] at hresp
  rw [ht] at hemits hresp ⊢
  exact ⟨hresp, hemits, hann.answered, happ.answered⟩

theorem exec_shelveExpiry (hr : s.inReset = false) (hm : s.mode = .run) (ht : (s.pt q).shelveTimer = some 0)
    {e : TimeStamp} (he : (s.pt q).service = .shelved e) :
    exec (.shelveExpiry q) s =
      .next (s.returnToService { stamp := e, input := none, port := none } q .shelveExpiry).settle := by
  have hexpired : s.shelveExpired q = s.returnToService { stamp := e, input := none, port := none } q .shelveExpiry := by
    unfold State.shelveExpired
    rw [he]
  have hlive : s.live (fun s => if s.mode = .run ∧ (s.pt q).shelveTimer = some 0 then (s.shelveExpired q).settle else s) =
      (s.shelveExpired q).settle := (live_of hr _).trans (if_pos ⟨hm, ht⟩)
  rw [hexpired] at hlive
  exact congrArg Host.Outcome.next hlive

end

/-- Settles O36. -/
theorem returnsToService : Obligations.ReturnsToService := by
  intro s q hb hd r returned
  have hreturned {base t : State} {c : Claim} {cause : Cause} (hmoves : OnlyMoves base t q) (h : Returned s t c q cause) :
      returned base t c cause :=
    ⟨hmoves, h.self, h.rings, h.keeps, h.alerts, h.announces, h.appends, h.parent⟩
  refine ⟨fun p f c k cause h hq => ?_, fun e hreset hraisings hm ht he => ?_⟩
  · intro ready hc
    have hpoint : f.point 0 = q := Frame.point_eq_iff.mpr hq
    subst hpoint
    let w := s.begun p f
    obtain ⟨rfl, rfl, rfl⟩ | ⟨rfl, rfl, rfl⟩ := hc
    · have hrun : s.mode = .run := h.run_of_unshelve
      refine ⟨fun hn => next_answered h rfl (ownUnshelve_of_bad fun hs => hn (.inl ⟨rfl, hs⟩)), fun hy => ?_⟩
      have hs : r.service.endTime.isSome = true := hy.elim And.right fun hy => nomatch hy.1
      have hnext := next_of_takes (form := anyForm) h rfl fun f t => t.ownUnshelve p f
      rw [ownUnshelve_of_good (s := w) hs] at hnext
      obtain ⟨hresp, hmoves, hr⟩ := answered_returnToService (p := p) (f := f) .unshelve hb hd
      exact ⟨_, hnext, hresp, fun _ => hreturned hmoves hr, fun hm => absurd hrun hm⟩
    · refine ⟨fun hn => next_answered h rfl (ownRestore_of_bad fun hs => hn (.inr ⟨rfl, hs⟩)), fun hy => ?_⟩
      have hs : r.service = .removed := hy.elim (fun hy => nomatch hy.1) And.right
      have hnext := next_of_takes (form := anyForm) h rfl fun f t => t.ownRestore p f
      rw [ownRestore_of_good (s := w) hs] at hnext
      by_cases hrun : s.mode = .run
      · rw [show w.restorePoint (w.requestClaim p) (f.point 0) = _ from if_pos hrun] at hnext
        obtain ⟨hresp, hmoves, hr⟩ := answered_returnToService (p := p) (f := f) .restore hb hd
        exact ⟨_, hnext, hresp, fun _ => hreturned hmoves hr, fun hm => absurd hrun hm⟩
      · rw [show w.restorePoint (w.requestClaim p) (f.point 0) = _ from if_neg hrun] at hnext
        obtain ⟨hresp, hemits, hann, happ⟩ := answered_setService (p := p) (f := f) (q := f.point 0) .restore hb
        exact ⟨_, hnext, hresp, fun hm => absurd hm hrun, fun _ => ⟨hemits, hann, happ⟩⟩
  · have hr := returned_returnToService (s := s) (q := q) { stamp := e, input := none, port := none } .shelveExpiry hb hd
    have hmoves := (moves_returnToService s { stamp := e, input := none, port := none } q .shelveExpiry).onlyMoves
      fun _ h => h
    rw [returnToService_map] at hmoves
    obtain ⟨more, happ, -⟩ := hr.appends
    refine ⟨_, exec_shelveExpiry hreset hm ht he, hreturned ?_ (hr.settle happ.length)⟩
    exact OnlyMoves.between (.refl s) hmoves (onlyEmits_settle _)

end Sys2Proof.Machine
end

section
/-! PROOFS. ACK_POINT naming one point (R50, R49, R7). -/

namespace Sys2Proof.Machine

/-! ### A point re-evaluated, whatever its kind -/

/-- The quality that a re-evaluation of a point finds (R9, R32). -/
def State.qualityFound (s : State) (q : PointNo) (r : PointRec) : PointQuality :=
  match r.kind with
  | .spare => r.quality
  | .field => s.fieldQuality q
  | .group => s.groupQuality q

/-- The condition that a re-evaluation of a point finds (R8, R11, R31). -/
def State.conditionFound (s : State) (q : PointNo) (r : PointRec) : Condition :=
  match r.kind with
  | .spare => r.condition
  | .field => if s.qualityFound q r = .good then s.fieldCondition q else r.condition
  | .group => s.groupCondition q

/-- The point with the quality and the condition found, and the sequence state that they lead to. -/
def PointRec.formed (r : PointRec) (quality : PointQuality) (condition : Condition) : PointRec :=
  { r with quality := quality, condition := condition, seqState := r.stateAfter condition }

/-- The record of a point re-evaluated: a GROUP in NORMAL holds no first member (R42). -/
def PointRec.found (r : PointRec) (quality : PointQuality) (condition : Condition) : PointRec :=
  if r.kind = .group then (r.formed quality condition).memberCleared else r.formed quality condition

/-- The records of a point re-evaluated (R12, R23, R42). -/
def foundDrafts (c : Claim) (q : PointNo) (cause : Cause) (r : PointRec) (quality : PointQuality)
    (condition : Condition) : List RecordDraft :=
  formedDrafts c q cause (if r.kind = .field ∧ r.quality ≠ .good then .qualityReturn else cause) r quality condition
    ++ if r.kind = .group then clearedDrafts c q (r.formed quality condition) else []

/-- The point itself is re-evaluated; its groups are still to follow. -/
def State.reevalSelf (s : State) (c : Claim) (q : PointNo) (cause : Cause) : State :=
  match (s.pt q).kind with
  | .field => s.reevalField c q cause
  | .group => s.reevalGroup c q none cause
  | .spare => s

theorem found_face (r : PointRec) (a : PointQuality) (b : Condition) :
    (r.found a b).quality = a ∧ (r.found a b).condition = b ∧ (r.found a b).service = r.service := by
  unfold PointRec.found PointRec.memberCleared
  split
  · split <;> exact ⟨rfl, rfl, rfl⟩
  · exact ⟨rfl, rfl, rfl⟩

/-- The latest change plays no part in what a re-evaluation makes of a point. -/
theorem found_lastChange (r : PointRec) (a : PointQuality) (b : Condition) (l : Option (Nat × TimeStamp)) :
    ({ r with lastChange := l } : PointRec).found a b = { r.found a b with lastChange := l } := by
  unfold PointRec.found PointRec.memberCleared
  by_cases hk : r.kind = .group
  · rw [if_pos hk, if_pos (show ({ r with lastChange := l } : PointRec).kind = .group from hk)]
    by_cases hf : (r.formed a b).firstOut = true ∧ (r.formed a b).seqState = .normal
    · rw [if_pos hf]
      exact if_pos hf
    · rw [if_neg hf]
      exact if_neg hf
  · rw [if_neg hk, if_neg (show ¬ ({ r with lastChange := l } : PointRec).kind = .group from hk)]
    rfl

section
variable {s : State} (c : Claim) (q : PointNo) (cause : Cause)

theorem reevaluate_eq : s.reevaluate c q cause =
    if changedBetween s (s.reevalSelf c q cause) q then (s.reevalSelf c q cause).carryUp c q
    else s.reevalSelf c q cause := rfl

theorem reevalSelf_of_spare (h : (s.pt q).kind = .spare) : s.reevalSelf c q cause = s := by
  unfold State.reevalSelf
  rw [h]

theorem reevalSelf_of_field (h : (s.pt q).kind = .field) : s.reevalSelf c q cause = s.reevalField c q cause := by
  unfold State.reevalSelf
  rw [h]

theorem reevalSelf_of_group (h : (s.pt q).kind = .group) : s.reevalSelf c q cause = s.reevalGroup c q none cause := by
  unfold State.reevalSelf
  rw [h]

theorem moves_reevalSelf : Moves s (s.reevalSelf c q cause) (· = q) (fun _ => False) := by
  cases h : (s.pt q).kind with
  | spare =>
    rw [reevalSelf_of_spare c q cause h]
    exact .refl s _ _
  | field =>
    rw [reevalSelf_of_field c q cause h]
    exact moves_reevalField ..
  | group =>
    rw [reevalSelf_of_group c q cause h]
    exact moves_reevalGroup ..

theorem groupCondition_recordQuality (g : PointNo) (quality : PointQuality) :
    (s.recordQuality c q cause quality).groupCondition g = s.groupCondition g := by
  have hm := moves_recordQuality (S := fun _ => False) s c q cause quality
  unfold State.groupCondition
  rw [points_any_congr (s := s) fun x => ?_]
  by_cases hx : x = q
  · rw [hx, recordQuality_pt_self]
    rfl
  · rw [hm.off x hx]

/-- What a re-evaluation makes of the point itself, and its records. -/
theorem reevalSelf_spec (hb : s.log.ring.length ≤ 1024) :
    let r := s.pt q
    (s.reevalSelf c q cause).pt q =
        { r.found (s.qualityFound q r) (s.conditionFound q r) with
          lastChange := ((s.reevalSelf c q cause).pt q).lastChange }
      ∧ Appends s (s.reevalSelf c q cause) (foundDrafts c q cause r (s.qualityFound q r) (s.conditionFound q r)) := by
  intro r
  unfold State.conditionFound State.qualityFound PointRec.found foundDrafts
  cases h : r.kind with
  | spare =>
    have hdriven : r.driven r.condition = none := if_neg fun hc => hc.1 rfl
    rw [reevalSelf_of_spare c q cause h]
    simp [PointRec.formed, PointRec.stateAfter, formedDrafts, hdriven, appends_nil rfl hb, r]
  | field =>
    obtain ⟨hpt, happ⟩ := reevalField_spec (s := s) c q cause hb
    rw [reevalSelf_of_field c q cause h]
    refine ⟨hpt, ?_⟩
    by_cases hq : r.quality = .good <;> simpa [r, hq] using happ
  | group =>
    obtain ⟨hpt, happ⟩ := formed_spec (s := s) c q cause hb cause (s.groupQuality q) (s.groupCondition q)
    have hself : s.reevalSelf c q cause =
        ((s.recordQuality c q cause (s.groupQuality q)).recordCondition c q cause (s.groupCondition q)).clearFirstMember c q := by
      rw [reevalSelf_of_group c q cause h]
      unfold State.reevalGroup
      dsimp only
      rw [groupCondition_recordQuality]
    rw [hself]
    obtain ⟨u, hu⟩ : ∃ u, u = (s.recordQuality c q cause (s.groupQuality q)).recordCondition c q cause (s.groupCondition q) :=
      ⟨_, rfl⟩
    rw [← hu] at hpt happ ⊢
    obtain ⟨hclear, hmore⟩ := clearFirstMember_spec (s := u) c q happ.length
    refine ⟨hclear.trans ?_, ?_⟩
    · rw [hpt]
      unfold PointRec.formed PointRec.memberCleared
      dsimp only
      split <;> rfl
    · have hall := happ.trans hmore
      rw [hpt] at hall
      have hfield : ¬ (PointKind.group = .field ∧ r.quality ≠ .good) := nofun
      rw [if_neg hfield, if_pos rfl]
      exact hall

/-- A re-evaluation of a point that is up to date and holds no first member finds nothing to do (R12). -/
theorem reevalSelf_of_upToDate (h : s.UpToDate q) (hf : (s.pt q).firstOut = false) : s.reevalSelf c q cause = s := by
  have hquality (quality : PointQuality) (he : (s.pt q).quality = quality) : s.recordQuality c q cause quality = s := if_pos he
  have hcondition (k : Cause) (condition : Condition) (he : (s.pt q).condition = condition) :
      s.recordCondition c q k condition = s := if_pos he
  cases hk : (s.pt q).kind with
  | spare => exact reevalSelf_of_spare c q cause hk
  | field =>
    have hu : (s.pt q).quality = s.fieldQuality q ∧ ((s.pt q).quality = .good → (s.pt q).condition = s.fieldCondition q) := by
      unfold State.UpToDate at h
      rw [hk] at h
      exact h
    rw [reevalSelf_of_field c q cause hk]
    unfold State.reevalField
    dsimp only
    rw [hquality _ hu.1]
    split
    · next hg => exact hcondition _ _ (hu.2 (hu.1.trans hg))
    · rfl
  | group =>
    have hu : (s.pt q).quality = s.groupQuality q ∧ (s.pt q).condition = s.groupCondition q := by
      unfold State.UpToDate at h
      rw [hk] at h
      exact h
    rw [reevalSelf_of_group c q cause hk]
    unfold State.reevalGroup
    dsimp only
    rw [hquality _ hu.1, hcondition _ _ hu.2]
    exact if_neg fun hc => by rw [hf] at hc; exact Bool.noConfusion hc.1

end

section
variable {s w t : State} {q : PointNo}

theorem qualityFound_congr {r x : PointRec} (hk : x.kind = r.kind) (hq : x.quality = r.quality) :
    s.qualityFound q x = s.qualityFound q r := by
  unfold State.qualityFound
  rw [hk, hq]

theorem conditionFound_congr {r x : PointRec} (hk : x.kind = r.kind) (hq : x.quality = r.quality)
    (hc : x.condition = r.condition) : s.conditionFound q x = s.conditionFound q r := by
  unfold State.conditionFound
  rw [qualityFound_congr hk hq, hk, hc]

/-- What a re-evaluation found still stands where the point is up to date in the end. -/
theorem found_of_upToDate {r : PointRec} (hmap : t.map = w.map) (hup : t.UpToDate q) (hk : (t.pt q).kind = r.kind)
    (hq : (t.pt q).quality = w.qualityFound q r) (hc : (t.pt q).condition = w.conditionFound q r) :
    w.qualityFound q r = t.qualityFound q r ∧ w.conditionFound q r = t.conditionFound q r := by
  unfold State.UpToDate at hup
  unfold State.conditionFound State.qualityFound at *
  cases hr : r.kind with
  | spare => exact ⟨rfl, rfl⟩
  | field =>
    dsimp only
    rw [fieldQuality_congr hmap, fieldCondition_congr hmap]
    exact ⟨rfl, rfl⟩
  | group =>
    rw [hr] at hk hq hc
    rw [hk] at hup
    exact ⟨hq.symm.trans hup.1, hc.symm.trans hup.2⟩

/-- A change of point `q` and its re-evaluation: what becomes of the point, the records, and the parent group, which
follows where condition or quality have changed (R12, R34). -/
theorem reevaluate_behind {own : List RecordDraft} (c : Claim) (cause : Cause) (hm : Moves s w (· = q) (fun _ => False))
    (happ : Appends s w own) (hd : s.depth 4 q ≤ 3) :
    let t := w.reevaluate c q cause
    let r := w.pt q
    let quality := t.qualityFound q r
    let condition := t.conditionFound q r
    let all := own ++ foundDrafts c q cause r quality condition
    t.pt q = { r.found quality condition with lastChange := (t.pt q).lastChange }
      ∧ (¬ (condition ≠ r.condition ∨ quality ≠ r.quality) → (∀ x, x ≠ q → t.pt x = s.pt x) ∧ Appends s t all)
      ∧ (condition ≠ r.condition ∨ quality ≠ r.quality → ParentFollows s t c q all) := by
  intro t r quality condition all
  have hdw : w.depth 4 q ≤ 3 := by rw [hm.depth]; exact hd
  have hup : t.UpToDate q := (reevaluate_upToDate c cause hdw).1
  have hmap : t.map = w.map := reevaluate_map ..
  obtain ⟨upt, uapp⟩ := reevalSelf_spec (s := w) c q cause happ.length
  have hum := moves_reevalSelf (s := w) c q cause
  obtain ⟨u, hu⟩ : ∃ u, u = w.reevalSelf c q cause := ⟨_, rfl⟩
  have htu : t = if changedBetween w u q then u.carryUp c q else u := by
    rw [hu]
    exact reevaluate_eq c q cause
  rw [← hu] at upt uapp hum
  have hpt : t.pt q = u.pt q := by
    rw [htu]
    split
    · exact carryUp_pt_self c (by rw [hum.depth]; exact hdw)
    · rfl
  obtain ⟨h1, h2, h3⟩ := found_face (w.pt q) (w.qualityFound q (w.pt q)) (w.conditionFound q (w.pt q))
  obtain ⟨hq, hc⟩ : w.qualityFound q r = quality ∧ w.conditionFound q r = condition := by
    refine found_of_upToDate hmap hup ?_ ?_ ?_
    all_goals rw [hpt]
    · exact hum.kind q
    · rw [upt]
      exact h1
    · rw [upt]
      exact h2
  have hchanged : changedBetween w u q = true ↔ condition ≠ r.condition ∨ quality ≠ r.quality := by
    unfold changedBetween
    rw [upt]
    dsimp only
    rw [h1, h2, h3, show w.qualityFound q (w.pt q) = quality from hq, show w.conditionFound q (w.pt q) = condition from hc]
    simp only [Bool.not_eq_true', Bool.and_eq_false_iff, beq_eq_false_iff_ne, ne_eq, not_true_eq_false, or_false]
    exact or_congr (not_congr eq_comm) (not_congr eq_comm)
  rw [show w.qualityFound q (w.pt q) = quality from hq, show w.conditionFound q (w.pt q) = condition from hc] at upt uapp
  have hall : Appends s u all := happ.trans uapp
  refine ⟨?_, fun hn => ?_, fun hy => ?_⟩
  · rw [hpt]
    exact upt
  · rw [htu, if_neg (mt hchanged.mp hn)]
    exact ⟨fun x hx => (hum.off x hx).trans (hm.off x hx), hall⟩
  · rw [htu, if_pos (hchanged.mpr hy)]
    exact parentFollows_carryUp (hm.trans hum) c hd hall

end

/-! ### The acknowledgement itself -/

/-- The point is in a state that an acknowledgement takes (R49). -/
abbrev PointRec.Acknowledged (r : PointRec) : Prop := r.seqState = .alert ∨ r.seqState = .returnUnacked

theorem seqTable_ack {r : PointRec} (h : r.Acknowledged) : seqTable r.seqType r.seqState r.condition .ack = some r.ackedState := by
  unfold PointRec.ackedState
  obtain h | h := h
  · rw [h]
    cases r.seqType <;> rfl
  · rw [h]
    cases r.seqType <;> rfl

theorem acknowledgeable_iff {r : PointRec} : r.acknowledgeable = true ↔ r.Acknowledged := by
  simp [PointRec.acknowledgeable]

theorem ackedState_unacked (r : PointRec) : r.ackedState ≠ .alert ∧ r.ackedState ≠ .returnUnacked := by
  unfold PointRec.ackedState
  split
  · exact ⟨nofun, nofun⟩
  · cases r.seqType <;> exact ⟨nofun, nofun⟩

/-- The point after the ACK cell of its table (R49, R42). -/
def PointRec.acked (r : PointRec) : PointRec := { r with seqState := r.ackedState : PointRec }.memberCleared

/-- The record of an acknowledgement (R49). -/
def ackDraft (c : Claim) (q : PointNo) (r : PointRec) : RecordDraft :=
  pointDraft c q .ack (.pointState r.seqState r.ackedState r.condition
    (if r.kind = .group ∧ r.firstOut = true then r.firstMember else none))

/-- The records of an acknowledgement up to its re-evaluation (R49, R42). -/
def ackDrafts (c : Claim) (q : PointNo) (r : PointRec) : List RecordDraft :=
  ackDraft c q r :: clearedDrafts c q { r with seqState := r.ackedState }

/-- The point and its latches are acknowledged; the re-evaluation is still to follow (R49, R7). -/
def State.ackedAt (s : State) (c : Claim) (q : PointNo) : State :=
  ((s.transition c q .ack (s.pt q).ackedState).clearFirstMember c q).clearLatches q

section
variable {s : State} (c : Claim) (q : PointNo)

theorem acknowledge_eq (h : (s.pt q).Acknowledged) : s.acknowledge c q = (s.ackedAt c q).reevaluate c q .latchClear := by
  unfold State.acknowledge State.ackedAt
  dsimp only
  rw [seqTable_ack h]

theorem acked_fields (r : PointRec) :
    r.acked.config = r.config ∧ r.acked.quality = r.quality ∧ r.acked.condition = r.condition
      ∧ r.acked.service = r.service ∧ r.acked.seqState = r.ackedState := by
  unfold PointRec.acked PointRec.memberCleared
  dsimp only
  split <;> exact ⟨rfl, rfl, rfl, rfl, rfl⟩

theorem moves_ackedAt : Moves s (s.ackedAt c q) (· = q) (fun _ => False) :=
  ((moves_transition s c q .ack _).trans (moves_clearFirstMember _ c q)).trans (moves_clearLatches _ q)

theorem ackedAt_map :
    (s.ackedAt c q).map = mapEntries
      (fun e : MapEntry => if e.valid = true ∧ e.point = some q then { e with latch := false } else e) s.map := by
  have hmap : ((s.transition c q .ack (s.pt q).ackedState).clearFirstMember c q).map = s.map := by
    rw [clearFirstMember_map, transition_map]
  have hnames (e : MapEntry) : (if e.names q = true then { e with latch := false } else e) =
      if e.valid = true ∧ e.point = some q then { e with latch := false } else e :=
    if_congr (by simp [MapEntry.names]) rfl rfl
  show mapEntries _ _ = mapEntries _ _
  rw [hmap]
  exact congrArg (mapEntries · s.map) (funext hnames)

theorem ackedAt_ent (i : InputNo) :
    (s.ackedAt c q).ent i =
      if (s.ent i).valid = true ∧ (s.ent i).point = some q then { s.ent i with latch := false } else s.ent i := by
  unfold State.ent
  rw [ackedAt_map]
  simp

theorem ackedAt_spec (hb : s.log.ring.length ≤ 1024) :
    (s.ackedAt c q).pt q = { (s.pt q).acked with lastChange := ((s.ackedAt c q).pt q).lastChange }
      ∧ (s.ackedAt c q).audibleRequest = s.audibleRequest
      ∧ Appends s (s.ackedAt c q) (ackDrafts c q (s.pt q)) := by
  have happ := appends_transition (s := s) c q .ack hb (s.pt q).ackedState
  have hself := transition_pt_self (s := s) c q .ack (s.pt q).ackedState
  have haud := audibleRequest_transition s c q .ack (s.pt q).ackedState
  obtain ⟨hpt, hmore⟩ := clearFirstMember_spec (s := s.transition c q .ack (s.pt q).ackedState) c q happ.length
  refine ⟨hpt.trans ?_, ?_, ?_⟩
  · rw [hself]
    unfold PointRec.acked PointRec.memberCleared
    dsimp only
    split <;> rfl
  · refine (audibleRequest_clearFirstMember c q).trans ?_
    rw [haud, decide_eq_false fun h => (ackedState_unacked _).1 h.2.1]
    simp
  · have hall := happ.trans hmore
    rw [hself] at hall
    exact hall.congr rfl rfl

/-- What an acknowledgement makes of the point itself, and its records; its groups follow a change (R49, R7, R12). -/
theorem acknowledge_spec (h : (s.pt q).Acknowledged) (hb : s.log.ring.length ≤ 1024) (hd : s.depth 4 q ≤ 3) :
    let t := s.acknowledge c q
    let r := s.pt q
    let quality := t.qualityFound q r
    let condition := t.conditionFound q r
    let own := ackDrafts c q r ++ foundDrafts c q .latchClear r.acked quality condition
    t.pt q = { r.acked.found quality condition with lastChange := (t.pt q).lastChange }
      ∧ (¬ (condition ≠ r.condition ∨ quality ≠ r.quality) → (∀ x, x ≠ q → t.pt x = s.pt x) ∧ Appends s t own)
      ∧ (condition ≠ r.condition ∨ quality ≠ r.quality → ParentFollows s t c q own) := by
  intro t r quality condition own
  obtain ⟨hwpt, -, hwapp⟩ := ackedAt_spec (s := s) c q hb
  have hbehind := reevaluate_behind c .latchClear (moves_ackedAt (s := s) c q) hwapp hd
  rw [← acknowledge_eq c q h] at hbehind
  obtain ⟨hcfg, hqual, hcond, -, -⟩ := acked_fields r
  have hkind : r.acked.kind = r.kind := congrArg PointConfig.kind hcfg
  obtain ⟨x, hx⟩ : ∃ x, x = (s.ackedAt c q).pt q := ⟨_, rfl⟩
  rw [← hx] at hwpt hbehind
  have hk : x.kind = r.kind := by rw [hwpt]; exact hkind
  have hq : x.quality = r.quality := by rw [hwpt]; exact hqual
  have hc : x.condition = r.condition := by rw [hwpt]; exact hcond
  have hfound (a : PointQuality) (b : Condition) : x.found a b = { r.acked.found a b with lastChange := x.lastChange } :=
    (congrArg (PointRec.found · a b) hwpt).trans (found_lastChange ..)
  have hdrafts (a : PointQuality) (b : Condition) : foundDrafts c q .latchClear x a b = foundDrafts c q .latchClear r.acked a b :=
    (congrArg (foundDrafts c q .latchClear · a b) hwpt).trans rfl
  dsimp only at hbehind
  rw [show (s.acknowledge c q).qualityFound q x = quality from qualityFound_congr hk hq,
    show (s.acknowledge c q).conditionFound q x = condition from conditionFound_congr hk hq hc, hq, hc, hfound, hdrafts] at hbehind
  exact hbehind

end

end Sys2Proof.Machine
end

section
/-! PROOFS. ACK_POINT naming one point: the request (R50). -/

namespace Sys2Proof.Machine

/-- The records that an acknowledgement of point `q` may lead to (R49, R12, R35). -/
def RecordDraft.followsAck (q : PointNo) (d : RecordDraft) : Prop :=
  d.cause = some .member ∨ d.point = some q ∧ (d.cause = some .latchClear ∨ d.cause = some .qualityReturn)

theorem RecordDraft.followsAck.cause {q : PointNo} {d : RecordDraft} (h : d.followsAck q) : d.cause ≠ some .ack := by
  intro hc
  unfold RecordDraft.followsAck at h
  rw [hc] at h
  obtain h | ⟨-, h | h⟩ := h <;> cases h

theorem member_of_mem_clearedDrafts {c : Claim} {q : PointNo} {r : PointRec} {d : RecordDraft}
    (h : d ∈ clearedDrafts c q r) : d.cause = some .member := by
  unfold clearedDrafts at h
  split at h
  · rw [List.mem_singleton.mp h]
    rfl
  · cases h

theorem followsAck_of_mem_foundDrafts {c : Claim} {q : PointNo} {r : PointRec} {a : PointQuality} {b : Condition}
    {d : RecordDraft} (h : d ∈ foundDrafts c q .latchClear r a b) : d.followsAck q := by
  unfold foundDrafts formedDrafts at h
  rw [List.mem_append, List.mem_append] at h
  obtain (h | h) | h := h
  · split at h
    · rw [List.mem_singleton.mp h]
      exact .inr ⟨rfl, .inl rfl⟩
    · cases h
  · cases hdriven : r.driven b with
    | none =>
      rw [hdriven] at h
      cases h
    | some st =>
      rw [hdriven] at h
      rw [List.mem_singleton.mp h]
      refine .inr ⟨rfl, ?_⟩
      unfold pointDraft
      dsimp only
      split
      · exact .inr rfl
      · exact .inl rfl
  · split at h
    · exact .inl (member_of_mem_clearedDrafts h)
    · cases h

section
variable {s : State} {q : PointNo} (c : Claim)

theorem appendsThen_acknowledge (h : (s.pt q).Acknowledged) (hb : s.log.ring.length ≤ 1024) :
    AppendsThen s (s.acknowledge c q) [ackDraft c q (s.pt q)] (RecordDraft.followsAck q) := by
  obtain ⟨-, -, happ⟩ := ackedAt_spec (s := s) c q hb
  obtain ⟨-, hself⟩ := reevalSelf_spec (s := s.ackedAt c q) c q .latchClear happ.length
  have hboth := happ.trans hself
  have hall : AppendsThen s (s.acknowledge c q) (ackDrafts c q (s.pt q) ++ foundDrafts c q .latchClear ((s.ackedAt c q).pt q)
      ((s.ackedAt c q).qualityFound q ((s.ackedAt c q).pt q)) ((s.ackedAt c q).conditionFound q ((s.ackedAt c q).pt q)))
      (RecordDraft.followsAck q) := by
    rw [acknowledge_eq c q h, reevaluate_eq]
    split
    · exact hboth.followed ((appendsThen_carryUp c q hboth.length).mono fun _ h => .inl h)
    · exact hboth.followed (.none rfl hboth.length)
  unfold ackDrafts at hall
  rw [List.cons_append] at hall
  refine AppendsThen.shorten (a := [_]) hall fun d hd => ?_
  obtain hd | hd := List.mem_append.mp hd
  · exact .inl (member_of_mem_clearedDrafts hd)
  · exact followsAck_of_mem_foundDrafts hd

theorem acknowledge_alerts (h : (s.pt q).Acknowledged) (hb : s.log.ring.length ≤ 1024) (hd : s.depth 4 q ≤ 3) :
    AlertsAudibly s (s.acknowledge c q) := by
  obtain ⟨hpt, haud, -⟩ := ackedAt_spec (s := s) c q hb
  have hm := moves_ackedAt (s := s) c q
  obtain ⟨h1, h2⟩ := (sounds_reevaluate (s := s.ackedAt c q) (p := q) c .latchClear (by rw [hm.depth]; exact hd)).alertsAudibly
  rw [← acknowledge_eq c q h] at h1 h2
  refine ⟨fun x ha hn => ?_, fun hr => ?_⟩
  · rw [← hm.qualifies]
    refine h1 x ha ?_
    by_cases hx : x = q
    · rw [hx, hpt, show ({ (s.pt q).acked with lastChange := _ } : PointRec).seqState = (s.pt q).ackedState from
        (acked_fields (s.pt q)).2.2.2.2]
      exact (ackedState_unacked _).1
    · rw [hm.off x hx]
      exact hn
  · rw [← haud]
    refine (h2 hr).imp_right fun ⟨x, hx⟩ => ⟨x, ?_⟩
    rw [hm.qualifies] at hx
    exact hx

theorem acknowledge_map (h : (s.pt q).Acknowledged) : (s.acknowledge c q).map = mapEntries
    (fun e : MapEntry => if e.valid = true ∧ e.point = some q then { e with latch := false } else e) s.map := by
  rw [acknowledge_eq c q h, reevaluate_map, ackedAt_map]

/-- A point up to date, without latches and without a first member to lose, is acknowledged and no more (R49). -/
theorem acknowledge_of_upToDate (h : (s.pt q).Acknowledged) (hf : (s.pt q).firstOut = false) (hu : s.UpToDate q)
    (hl : ∀ i, (s.ent i).valid = true → (s.ent i).point = some q → (s.ent i).latch = false) :
    (s.acknowledge c q).pt q = { s.pt q with seqState := (s.pt q).ackedState, lastChange := some (s.log.next, c.stamp) }
      ∧ (∀ x, x ≠ q → (s.acknowledge c q).pt x = s.pt x)
      ∧ (s.log.ring.length ≤ 1024 → Appends s (s.acknowledge c q) [ackDraft c q (s.pt q)]) := by
  have hself := transition_pt_self (s := s) c q .ack (s.pt q).ackedState
  have hclear : (s.transition c q .ack (s.pt q).ackedState).clearFirstMember c q =
      s.transition c q .ack (s.pt q).ackedState := by
    refine if_neg fun hc => ?_
    have hn : ((s.transition c q .ack (s.pt q).ackedState).pt q).firstOut = false := by
      rw [hself]
      exact hf
    rw [hc.1] at hn
    cases hn
  have hw : s.ackedAt c q = (s.transition c q .ack (s.pt q).ackedState).clearLatches q := congrArg (State.clearLatches · q) hclear
  have hpt : (s.ackedAt c q).pt q = { s.pt q with seqState := (s.pt q).ackedState, lastChange := some (s.log.next, c.stamp) } := by
    rw [hw]
    exact hself
  have hm := moves_ackedAt (s := s) c q
  have hup : (s.ackedAt c q).UpToDate q := by
    refine hu.congr (hm.kind q) ?_ ?_ (fun _ i => .inl ?_) fun _ x _ => ?_
    · rw [hpt]
    · rw [hpt]
    · rw [ackedAt_ent]
      split
      · next hi => rw [← hl i hi.1 hi.2]
      · rfl
    · by_cases hx : x = q
      · rw [hx, hpt]
        exact ⟨rfl, rfl, rfl, rfl, rfl⟩
      · rw [hm.off x hx]
        exact .refl _
  have hsame : s.acknowledge c q = s.ackedAt c q := by
    rw [acknowledge_eq c q h, reevaluate_eq, reevalSelf_of_upToDate c q .latchClear hup (by rw [hpt]; exact hf)]
    refine if_neg ?_
    simp [changedBetween]
  rw [hsame]
  refine ⟨hpt, fun x hx => hm.off x hx, fun hb => ?_⟩
  rw [hw]
  exact (appends_transition (s := s) c q .ack hb (s.pt q).ackedState).congr rfl rfl

end

section
variable (r : PointRec) (a : PointQuality) (b : Condition)

theorem acked_kind : r.acked.kind = r.kind := congrArg PointConfig.kind (acked_fields r).1

theorem found_acked :
    r.acked.found a b = if r.kind = .group then (r.acked.formed a b).memberCleared else r.acked.formed a b := by
  unfold PointRec.found
  rw [acked_kind]

theorem foundDrafts_acked (c : Claim) (q : PointNo) :
    foundDrafts c q .latchClear r.acked a b =
      formedDrafts c q .latchClear (if r.kind = .field ∧ r.quality ≠ .good then .qualityReturn else .latchClear) r.acked a b
        ++ if r.kind = .group then clearedDrafts c q (r.acked.formed a b) else [] := by
  obtain ⟨-, hquality, -⟩ := acked_fields r
  unfold foundDrafts
  rw [acked_kind, hquality]

end

section
variable {s : State} {p : Port} {f : Frame}

theorem ownAckPoint_of_bad (h : f.arg 1 ≠ 0) : s.ownAckPoint p f = s.respond p f .badArgument [] := if_pos h

theorem ownAckPoint_of_badState (h : f.arg 1 = 0) (ha : ¬ (s.pt (f.point 0)).Acknowledged) :
    s.ownAckPoint p f = s.respond p f .badState [] :=
  (if_neg (not_not_intro h)).trans (if_neg (mt acknowledgeable_iff.mp ha))

theorem ownAckPoint_of_good (h : f.arg 1 = 0) (ha : (s.pt (f.point 0)).Acknowledged) :
    s.ownAckPoint p f = (s.acknowledge (s.requestClaim p) (f.point 0)).respond p f .ok [] :=
  (if_neg (not_not_intro h)).trans (if_pos (acknowledgeable_iff.mpr ha))

end

/-- Settles O32. -/
theorem acknowledgesOne : Obligations.AcknowledgesOne := by
  intro s p f h hform hb q r member record moved acked acknowledged claim cleared
  have hwithout : withoutMembers f = true := by
    simp [withoutMembers, withMembers, hform]
  refine ⟨fun hbad => next_answered h hwithout (ownAckPoint_of_bad (by omega)),
    fun hz hn => next_answered h hwithout (ownAckPoint_of_badState hz hn), fun hz ha => ?_⟩
  have hnext := next_of_takes (form := withoutMembers) h hwithout fun f t => t.ownAckPoint p f
  rw [ownAckPoint_of_good (s := s.begun p f) hz ha] at hnext
  have hm := moves_acknowledge (S := fun _ => False) (s.begun p f) claim q
  have hmap := acknowledge_map (s := s.begun p f) (q := q) claim ha
  have happ := appendsThen_acknowledge (s := s.begun p f) (q := q) claim ha hb
  have hann := announces_acknowledge (c := claim) (p := q) (.refl (s.begun p f)) fun _ h => h
  have halerts := acknowledge_alerts (s := s.begun p f) (q := q) claim ha hb
  have hup := fun hd => acknowledge_upToDate (s := s.begun p f) (p := q) claim hd
  have hspec := acknowledge_spec (s := s.begun p f) claim q ha hb
  have hquiet := acknowledge_of_upToDate (s := s.begun p f) (q := q) claim ha
  obtain ⟨v, hv⟩ : ∃ v, v = (s.begun p f).acknowledge claim q := ⟨_, rfl⟩
  rw [show (s.begun p f).acknowledge ((s.begun p f).requestClaim p) (f.point 0) = v from hv.symm] at hnext
  rw [← hv] at hm hmap happ hann halerts hup hspec hquiet
  obtain ⟨t, ht⟩ : ∃ t, t = (v.respond p f .ok []).settle := ⟨_, rfl⟩
  have htp : t.points = v.points := by rw [ht]; exact ended_points ..
  have htm : t.map = v.map := by rw [ht]; exact ended_map ..
  have hpt (x : PointNo) : t.pt x = v.pt x := pt_congr htp x
  have hquality : t.qualityFound q r = v.qualityFound q r := by
    unfold State.qualityFound
    rw [fieldQuality_congr htm, (groupFace_congr htp q).1]
  have hcondition : t.conditionFound q r = v.conditionFound q r := by
    unfold State.conditionFound
    rw [hquality, fieldCondition_congr htm, (groupFace_congr htp q).2]
  obtain ⟨hmoves, hresp⟩ := hm.answeredMoves (s := s) (st := .ok) (r := []) fun _ h => h.elim
  rw [hmap, ← ht] at hmoves
  rw [← ht] at hresp
  refine ⟨t, ht ▸ hnext, hresp, hmoves, fun x => ?_, ?_, fun hd => ⟨?_, ?_, ?_⟩, ?_, fun hd => ?_, fun hf hu hl => ?_⟩
  · rw [hpt]
    exact (hm.service x fun h => h).1
  · rw [ht]
    exact appendsThen_settled (s := s) (fun _ h => .inl (.inr h)) rfl (happ.mono fun _ h => h.imp_left .inl)
  · exact upToDate_congr htp htm (hup hd).1
  · rw [ht]
    exact KeepsUpToDate.answered (s := s) (hup hd).2
  · rw [ht]
    exact AlertsAudibly.answered (s := s) (halerts hd)
  · rw [ht]
    exact Announces.answered hann
  · obtain ⟨hself, hsame, hfollow⟩ := hspec hd
    rw [show (s.begun p f).pt q = r from rfl, ← hquality, ← hcondition, found_acked, ← hpt] at hself
    rw [show (s.begun p f).pt q = r from rfl, ← hquality, ← hcondition, foundDrafts_acked] at hsame hfollow
    intro quality condition changed formed own
    rw [show t.qualityFound q r = quality from rfl, show t.conditionFound q r = condition from rfl] at hself hsame hfollow
    have howned : ackDrafts claim q r ++ (formedDrafts claim q .latchClear
        (if r.kind = .field ∧ r.quality ≠ .good then .qualityReturn else .latchClear) r.acked quality condition
          ++ if r.kind = .group then clearedDrafts claim q (r.acked.formed quality condition) else []) = own := by
      show (_ :: (_ ++ (_ ++ _)) : List RecordDraft) = _ :: (_ ++ _ ++ _)
      rw [List.append_assoc]
      rfl
    rw [howned] at hsame hfollow
    refine ⟨hself, fun hn => ?_, fun hc => ?_⟩
    · obtain ⟨h1, h2⟩ := hsame hn
      refine ⟨fun x hx => (hpt x).trans (h1 x hx), ?_⟩
      rw [ht]
      exact h2.answered
    · rw [ht]
      exact (hfollow hc).answered
  · obtain ⟨h1, h2, h3⟩ := hquiet hf (upToDate_congr (s := s) (t := s.begun p f) rfl rfl hu) hl
    refine ⟨(hpt q).trans h1, fun x hx => (hpt x).trans (h2 x hx), ?_⟩
    rw [ht]
    exact (h3 hb).answered

end Sys2Proof.Machine
end

section
/-! PROOFS. Where latches are cleared conditions only fall, and no point enters ALERT (R7, R8, R31, R49). -/

namespace Sys2Proof.Machine

/-! ### A point eased -/

/-- The point keeps configuration, service and quality, its condition at most falls, and it enters neither ALERT nor
RETURN_UNACKED from another state. -/
structure Eased (r x : PointRec) : Prop where
  config : x.config = r.config
  service : x.service = r.service
  quality : x.quality = r.quality
  condition : x.condition = .abnormal → r.condition = .abnormal
  alert : x.seqState = .alert → r.seqState = .alert
  acknowledged : x.Acknowledged ↔ r.Acknowledged

theorem Eased.refl (r : PointRec) : Eased r r := ⟨rfl, rfl, rfl, id, id, Iff.rfl⟩

theorem Eased.trans {r x y : PointRec} (h : Eased r x) (k : Eased x y) : Eased r y :=
  ⟨k.config.trans h.config, k.service.trans h.service, k.quality.trans h.quality, h.condition ∘ k.condition,
    h.alert ∘ k.alert, k.acknowledged.trans h.acknowledged⟩

theorem Eased.countsIn {r x : PointRec} (h : Eased r x) (g : PointNo) : x.countsIn g = r.countsIn g := by
  unfold PointRec.countsIn
  rw [h.service, show x.parent = r.parent from congrArg PointConfig.parent h.config]

/-- A cell of the DOWN column (Tables 1-2 to 1-4). -/
theorem seqTable_down {r : PointRec} {st : SeqState} (h : seqTable r.seqType r.seqState .abnormal .down = some st) :
    st ≠ .alert ∧ (st = .returnUnacked ↔ r.Acknowledged) := by
  unfold PointRec.Acknowledged
  cases ht : r.seqType <;> cases hs : r.seqState <;> rw [ht, hs] at h <;> cases h <;> decide

/-- A condition that at most falls. -/
theorem eased_stateAfter {r : PointRec} {c : Condition} (h : c = .abnormal → r.condition = .abnormal)
    (l : Option (Nat × TimeStamp)) :
    Eased r { r with condition := c, seqState := r.stateAfter c, lastChange := l } := by
  suffices hs : (r.stateAfter c = .alert → r.seqState = .alert)
      ∧ ((r.stateAfter c = .alert ∨ r.stateAfter c = .returnUnacked) ↔ r.Acknowledged) from
    ⟨rfl, rfl, rfl, h, hs.1, hs.2⟩
  unfold PointRec.stateAfter
  cases hd : r.driven c with
  | none => exact ⟨id, Iff.rfl⟩
  | some st =>
    unfold PointRec.driven at hd
    split at hd
    · next hc =>
      have hc' : c = .normal ∧ r.condition = .abnormal := by
        cases hcc : c with
        | abnormal => exact absurd ((h hcc).trans hcc.symm) hc.1
        | normal =>
          cases hr : r.condition with
          | abnormal => exact ⟨rfl, rfl⟩
          | normal => exact absurd (hr.trans hcc.symm) hc.1
      rw [hc'.2, hc'.1, if_neg nofun] at hd
      obtain ⟨h1, h2⟩ := seqTable_down hd
      exact ⟨fun he => absurd he h1, (or_iff_right h1).trans h2⟩
    · cases hd

/-! ### A state eased -/

/-- Every point is eased, the map stays and the audible request with it. -/
structure Eases (s t : State) : Prop where
  points : ∀ x, Eased (s.pt x) (t.pt x)
  map : t.map = s.map
  request : t.audibleRequest = s.audibleRequest

section
variable {s t u : State} {p : PointNo} {S : PointNo → Prop}

theorem Eases.refl (s : State) : Eases s s := ⟨fun _ => .refl _, rfl, rfl⟩

theorem Eases.trans (h : Eases s t) (k : Eases t u) : Eases s u :=
  ⟨fun x => (h.points x).trans (k.points x), k.map.trans h.map, k.request.trans h.request⟩

/-- A step at one point that eases it. -/
theorem Eases.of_rings (m : Moves s t (· = p) S) (hmap : t.map = s.map) (h : Eased (s.pt p) (t.pt p)) (hr : Rings s t p) :
    Eases s t := by
  refine ⟨fun x => ?_, hmap, ?_⟩
  · by_cases hx : x = p
    · rw [hx]
      exact h
    · rw [m.off x hx]
      exact .refl _
  · rw [hr.request, decide_eq_false fun hc => hc.2.2 (h.alert hc.2.1)]
    simp

theorem groupCondition_eq_abnormal_iff {g : PointNo} :
    s.groupCondition g = .abnormal ↔ ∃ x, (s.pt x).countsIn g = true ∧ (s.pt x).condition = .abnormal := by
  unfold State.groupCondition
  have hany := points_any s fun r => r.countsIn g && r.condition == .abnormal
  simp only [Bool.and_eq_true, beq_iff_eq] at hany
  rw [← hany]
  split
  · next h => exact iff_of_true rfl h
  · next h => exact iff_of_false nofun h

theorem Eases.groupCondition (h : Eases s t) {g : PointNo} (ha : t.groupCondition g = .abnormal) : s.groupCondition g = .abnormal := by
  rw [groupCondition_eq_abnormal_iff] at ha ⊢
  obtain ⟨x, hx, hc⟩ := ha
  exact ⟨x, by rw [← (h.points x).countsIn]; exact hx, (h.points x).condition hc⟩

theorem Eases.groupQuality (h : Eases s t) (g : PointNo) : t.groupQuality g = s.groupQuality g := by
  unfold State.groupQuality
  rw [points_any_congr (s := s) fun x => ?_]
  rw [(h.points x).countsIn, (h.points x).quality]

end

/-! ### Conditions that cover what they are made of -/

/-- Every recorded quality is what it is made of, and every condition is ABNORMAL where what it is made of is (R8, R9, R31,
R32). -/
structure Covered (s : State) : Prop where
  fieldQuality : ∀ x, (s.pt x).kind = .field → (s.pt x).quality = s.fieldQuality x
  fieldCondition : ∀ x, (s.pt x).kind = .field → (s.pt x).quality = .good → s.fieldCondition x = .abnormal →
    (s.pt x).condition = .abnormal
  groupQuality : ∀ x, (s.pt x).kind = .group → (s.pt x).quality = s.groupQuality x
  groupCondition : ∀ x, (s.pt x).kind = .group → s.groupCondition x = .abnormal → (s.pt x).condition = .abnormal

section
variable {s t : State} {p : PointNo}

theorem upToDate_field (h : s.UpToDate p) (hk : (s.pt p).kind = .field) :
    (s.pt p).quality = s.fieldQuality p ∧ ((s.pt p).quality = .good → (s.pt p).condition = s.fieldCondition p) := by
  unfold State.UpToDate at h
  rw [hk] at h
  exact h

theorem upToDate_group (h : s.UpToDate p) (hk : (s.pt p).kind = .group) :
    (s.pt p).quality = s.groupQuality p ∧ (s.pt p).condition = s.groupCondition p := by
  unfold State.UpToDate at h
  rw [hk] at h
  exact h

theorem covered_of_upToDate (h : ∀ x, s.UpToDate x) : Covered s :=
  ⟨fun x hk => (upToDate_field (h x) hk).1, fun x hk hq ha => ((upToDate_field (h x) hk).2 hq).trans ha,
    fun x hk => (upToDate_group (h x) hk).1, fun x hk ha => (upToDate_group (h x) hk).2.trans ha⟩

/-- A step at one point that eases it to what it is made of. -/
theorem Covered.eases {S : PointNo → Prop} (hc : Covered s) (m : Moves s t (· = p) S) (he : Eases s t)
    (hf : (s.pt p).kind = .field → (s.pt p).quality = .good → s.fieldCondition p = .abnormal →
      (t.pt p).condition = .abnormal)
    (hg : (s.pt p).kind = .group → s.groupCondition p = .abnormal → (t.pt p).condition = .abnormal) : Covered t := by
  refine ⟨fun x hk => ?_, fun x hk hq ha => ?_, fun x hk => ?_, fun x hk ha => ?_⟩
  all_goals rw [m.kind] at hk
  · rw [(he.points x).quality, fieldQuality_congr he.map]
    exact hc.fieldQuality x hk
  · rw [(he.points x).quality] at hq
    rw [fieldCondition_congr he.map] at ha
    by_cases hx : x = p
    · subst hx
      exact hf hk hq ha
    · rw [m.off x hx]
      exact hc.fieldCondition x hk hq ha
  · rw [(he.points x).quality, he.groupQuality]
    exact hc.groupQuality x hk
  · have ha' := he.groupCondition ha
    by_cases hx : x = p
    · subst hx
      exact hg hk ha'
    · rw [m.off x hx]
      exact hc.groupCondition x hk ha'

theorem recordQuality_of_same {c : Claim} {cause : Cause} {q : PointQuality} (h : (s.pt p).quality = q) :
    s.recordQuality c p cause q = s := if_pos h

theorem eased_firstMember (r : PointRec) (m : Option PointNo) (l : Option (Nat × TimeStamp)) :
    Eased r { r with firstMember := m, lastChange := l } := ⟨rfl, rfl, rfl, id, id, Iff.rfl⟩

theorem clearFirstMember_pt (c : Claim) : ∃ m l, (s.clearFirstMember c p).pt p = { s.pt p with firstMember := m, lastChange := l } := by
  unfold State.clearFirstMember
  dsimp only
  split
  · exact ⟨_, _, setFirstMember_pt_self ..⟩
  · exact ⟨_, _, rfl⟩

/-- What a re-evaluation of a group makes of its quality, its condition and its state. -/
theorem reevalGroup_pt (c : Claim) (child : Option PointNo) (cause : Cause) (hq : (s.pt p).quality = s.groupQuality p) :
    ∃ m l, (s.reevalGroup c p child cause).pt p =
      { s.pt p with
        condition := s.groupCondition p, seqState := (s.pt p).stateAfter (s.groupCondition p), firstMember := m
        lastChange := l } := by
  have hrec := recordCondition_pt (s := s) c p cause (s.groupCondition p)
  unfold State.reevalGroup
  dsimp only
  rw [recordQuality_of_same hq]
  obtain ⟨u, hu⟩ : ∃ u, u = s.recordCondition c p cause (s.groupCondition p) := ⟨_, rfl⟩
  rw [← hu] at hrec ⊢
  have hset (m : Option PointNo) : ∃ m' l, (u.setFirstMember c p m).pt p =
      { s.pt p with
        condition := s.groupCondition p, seqState := (s.pt p).stateAfter (s.groupCondition p), firstMember := m'
        lastChange := l } := by
    rw [setFirstMember_pt_self, hrec]
    exact ⟨_, _, rfl⟩
  have hclear : ∃ m' l, (u.clearFirstMember c p).pt p =
      { s.pt p with
        condition := s.groupCondition p, seqState := (s.pt p).stateAfter (s.groupCondition p), firstMember := m'
        lastChange := l } := by
    obtain ⟨m', l, h⟩ := clearFirstMember_pt (s := u) (p := p) c
    rw [h, hrec]
    exact ⟨_, _, rfl⟩
  cases child with
  | none => exact hclear
  | some x =>
    dsimp only
    split
    · exact hset _
    · exact hclear

theorem eases_reevalGroup (hc : Covered s) (hk : (s.pt p).kind = .group) (c : Claim) (child : Option PointNo) (cause : Cause) :
    Eases s (s.reevalGroup c p child cause) ∧ Covered (s.reevalGroup c p child cause) := by
  have hm : Moves s (s.reevalGroup c p child cause) (· = p) (fun _ => False) := moves_reevalGroup ..
  obtain ⟨m, l, hpt⟩ := reevalGroup_pt c child cause (hc.groupQuality p hk)
  have he : Eases s (s.reevalGroup c p child cause) := by
    refine .of_rings hm (reevalGroup_map ..) ?_ (rings_reevalGroup c cause child)
    rw [hpt]
    exact (eased_stateAfter (hc.groupCondition p hk) none).trans (eased_firstMember _ m l)
  refine ⟨he, hc.eases hm he (fun hf => ?_) fun _ ha => ?_⟩
  · rw [hk] at hf
    cases hf
  · rw [hpt]
    exact ha

theorem eases_reevalField (hc : Covered s) (hk : (s.pt p).kind = .field) (c : Claim) (cause : Cause) :
    Eases s (s.reevalField c p cause) ∧ Covered (s.reevalField c p cause) := by
  have hm : Moves s (s.reevalField c p cause) (· = p) (fun _ => False) := moves_reevalField ..
  have hq := hc.fieldQuality p hk
  have hr := rings_reevalField (s := s) (p := p) c cause
  have hmap := reevalField_map s c p cause
  obtain ⟨k, hself⟩ : ∃ k, s.reevalField c p cause =
      if s.fieldQuality p = .good then s.recordCondition c p k (s.fieldCondition p) else s := by
    unfold State.reevalField
    dsimp only
    rw [recordQuality_of_same hq]
    exact ⟨_, rfl⟩
  rw [hself] at hm hr hmap ⊢
  by_cases hg : s.fieldQuality p = .good
  · rw [if_pos hg] at hm hr hmap ⊢
    have hpt := recordCondition_pt (s := s) c p k (s.fieldCondition p)
    have he : Eases s (s.recordCondition c p k (s.fieldCondition p)) := by
      refine .of_rings hm hmap ?_ hr
      rw [hpt]
      exact eased_stateAfter (hc.fieldCondition p hk (hq.trans hg)) _
    refine ⟨he, hc.eases hm he (fun _ _ ha => ?_) fun hg => ?_⟩
    · rw [hpt]
      exact ha
    · rw [hk] at hg
      cases hg
  · rw [if_neg hg]
    exact ⟨.refl s, hc⟩

theorem eases_propagate (n : Nat) (c : Claim) (p : PointNo) (s : State) (hc : Covered s) : Eases s (s.propagate n c p) := by
  induction n generalizing p s with
  | zero => exact .refl s
  | succ n ih =>
    unfold State.propagate
    split
    · exact .refl s
    · next g hg =>
      split
      · next hk =>
        obtain ⟨he, hc'⟩ := eases_reevalGroup hc hk c (some p) .member
        dsimp only
        split
        · exact he.trans (ih g _ hc')
        · exact he
      · exact .refl s

/-- A re-evaluation of a state whose conditions cover what they are made of only eases. -/
theorem eases_reevaluate (hc : Covered s) (c : Claim) (cause : Cause) : Eases s (s.reevaluate c p cause) := by
  have key (t : State) (h : Eases s t ∧ Covered t) : Eases s (if changedBetween s t p then t.carryUp c p else t) := by
    split
    · exact h.1.trans (eases_propagate Config.maxLinks c p t h.2)
    · exact h.1
  rw [reevaluate_eq]
  refine key _ ?_
  cases hk : (s.pt p).kind with
  | field =>
    rw [reevalSelf_of_field c p cause hk]
    exact eases_reevalField hc hk c cause
  | group =>
    rw [reevalSelf_of_group c p cause hk]
    exact eases_reevalGroup hc hk c none cause
  | spare =>
    rw [reevalSelf_of_spare c p cause hk]
    exact ⟨.refl s, hc⟩

end

/-! ### An acknowledgement eases every other point -/

/-- The map entries are as they were, but for latches cleared (R7). -/
def LatchesFall (s t : State) : Prop :=
  ∀ i, t.ent i = { s.ent i with latch := (t.ent i).latch } ∧ ((t.ent i).latch = true → (s.ent i).latch = true)

section
variable {s t u : State} {p q : PointNo}

theorem LatchesFall.of_map (h : t.map = s.map) : LatchesFall s t := fun i => by
  have hi : t.ent i = s.ent i := by simp [State.ent, h]
  rw [hi]
  exact ⟨rfl, id⟩

theorem LatchesFall.trans (h : LatchesFall s t) (k : LatchesFall t u) : LatchesFall s u := fun i => by
  obtain ⟨h1, h2⟩ := h i
  obtain ⟨k1, k2⟩ := k i
  refine ⟨?_, h2 ∘ k2⟩
  rw [h1] at k1
  exact k1

theorem LatchesFall.contributes (h : LatchesFall s t) (i : InputNo) (x : PointNo) :
    (t.ent i).contributes x = (s.ent i).contributes x := by
  rw [(h i).1]
  rfl

theorem LatchesFall.fieldQuality (h : LatchesFall s t) (x : PointNo) : t.fieldQuality x = s.fieldQuality x := by
  have hq (i : InputNo) : (t.ent i).appliedQuality = (s.ent i).appliedQuality := by
    rw [(h i).1]
  have key (a : InQuality) : t.map.toArray.toList.any (fun e => e.contributes x && e.appliedQuality == a) =
      s.map.toArray.toList.any fun e => e.contributes x && e.appliedQuality == a := by
    rw [Bool.eq_iff_iff, map_any, map_any]
    refine exists_congr fun i => ?_
    rw [h.contributes, hq]
  unfold State.fieldQuality
  simp only [key]

theorem LatchesFall.fieldCondition (h : LatchesFall s t) {x : PointNo} (ha : t.fieldCondition x = .abnormal) :
    s.fieldCondition x = .abnormal := by
  unfold State.fieldCondition at ha ⊢
  split at ha
  · next hany =>
    refine if_pos ?_
    rw [map_any] at hany ⊢
    obtain ⟨i, hi⟩ := hany
    refine ⟨i, ?_⟩
    rw [h.contributes, Bool.and_eq_true] at hi
    rw [Bool.and_eq_true]
    refine ⟨hi.1, ?_⟩
    have hab := hi.2
    unfold MapEntry.abnormal at hab ⊢
    rw [(h i).1] at hab
    cases hmode : (s.ent i).mode with
    | level =>
      rw [hmode] at hab
      exact hab
    | pulse =>
      rw [hmode] at hab
      exact (h i).2 hab
  · cases ha

theorem latchesFall_ackedAt (c : Claim) : LatchesFall s (s.ackedAt c q) := fun i => by
  rw [ackedAt_ent]
  split
  · exact ⟨rfl, nofun⟩
  · exact ⟨rfl, id⟩

theorem latchesFall_acknowledge (c : Claim) (h : (s.pt q).Acknowledged) : LatchesFall s (s.acknowledge c q) := by
  refine (latchesFall_ackedAt (q := q) c).trans (.of_map ?_)
  rw [acknowledge_eq c q h, reevaluate_map]

/-- The point acknowledged but not yet re-evaluated keeps what its groups see of it. -/
theorem ackedAt_face (c : Claim) (hb : s.log.ring.length ≤ 1024) (x : PointNo) : SameFace (s.pt x) ((s.ackedAt c q).pt x) := by
  by_cases hx : x = q
  · obtain ⟨hpt, -⟩ := ackedAt_spec (s := s) c q hb
    obtain ⟨hcfg, hqual, hcond, hserv, -⟩ := acked_fields (s.pt q)
    rw [hx, hpt]
    exact ⟨congrArg PointConfig.kind hcfg, congrArg PointConfig.parent hcfg, hcond, hqual, hserv⟩
  · rw [(moves_ackedAt c q).off x hx]
    exact .refl _

theorem covered_ackedAt (c : Claim) (hb : s.log.ring.length ≤ 1024) (hc : Covered s) : Covered (s.ackedAt c q) := by
  have hface := ackedAt_face (q := q) c hb
  have hlatch := latchesFall_ackedAt (s := s) (q := q) c
  have hgroup (x : PointNo) := group_congr (s := s) (t := s.ackedAt c q) (x := x) fun y _ => hface y
  refine ⟨fun x hk => ?_, fun x hk hq ha => ?_, fun x hk => ?_, fun x hk ha => ?_⟩
  all_goals rw [(hface x).kind] at hk
  · rw [(hface x).quality, hlatch.fieldQuality]
    exact hc.fieldQuality x hk
  · rw [(hface x).quality] at hq
    rw [(hface x).condition]
    exact hc.fieldCondition x hk hq (hlatch.fieldCondition ha)
  · rw [(hface x).quality, (hgroup x).1]
    exact hc.groupQuality x hk
  · rw [(hgroup x).2] at ha
    rw [(hface x).condition]
    exact hc.groupCondition x hk ha

/-- An acknowledgement where every point is up to date: the point is acknowledged, each other point is eased, and the
audible request stays. -/
theorem acknowledge_eases (c : Claim) (h : (s.pt q).Acknowledged) (hb : s.log.ring.length ≤ 1024) (hu : ∀ x, s.UpToDate x) :
    ¬ ((s.acknowledge c q).pt q).Acknowledged
      ∧ (∀ x, x ≠ q → Eased (s.pt x) ((s.acknowledge c q).pt x))
      ∧ (s.acknowledge c q).audibleRequest = s.audibleRequest := by
  obtain ⟨hpt, haud, -⟩ := ackedAt_spec (s := s) c q hb
  have he := eases_reevaluate (p := q) (covered_ackedAt (q := q) c hb (covered_of_upToDate hu)) c .latchClear
  rw [← acknowledge_eq c q h] at he
  refine ⟨fun ha => ?_, fun x hx => ?_, he.request.trans haud⟩
  · rw [(he.points q).acknowledged, hpt] at ha
    unfold PointRec.Acknowledged at ha
    rw [show ({ (s.pt q).acked with lastChange := _ } : PointRec).seqState = (s.pt q).ackedState from
        (acked_fields (s.pt q)).2.2.2.2] at ha
    exact ha.elim (ackedState_unacked _).1 (ackedState_unacked _).2
  · have hx' := he.points x
    rw [(moves_ackedAt c q).off x hx] at hx'
    exact hx'

end

end Sys2Proof.Machine
end

section
/-! PROOFS. Lists of points offered to the acknowledgement in turn (R51, R52). -/

namespace Sys2Proof.Machine

/-- A port of ring `r` acknowledges the point when it is offered. -/
def PointRec.acks (x : PointRec) (r : Ring) : Bool := x.permits r && x.acknowledgeable

section
variable {s : State} (c : Claim) (p : PointNo) {r : Ring}

theorem acks_iff {x : PointRec} : x.acks r = true ↔ x.Acknowledged ∧ r ≤ x.ackRing := by
  unfold PointRec.acks PointRec.permits
  rw [Bool.and_eq_true, acknowledgeable_iff, decide_eq_true_eq]
  exact and_comm

theorem offerAck_of_acks {n : Nat} (h : (s.pt p).acks r = true) : offerAck c r (s, n) p = (s.acknowledge c p, n + 1) := if_pos h

theorem offerAck_of_not_acks {n : Nat} (h : (s.pt p).acks r = false) : offerAck c r (s, n) p = (s, n) :=
  if_neg (Bool.eq_false_iff.mp h)

end

/-! ### Whatever the state -/

/-- The points that acknowledgements of the points of `l` may move: those on a chain of one that the ring permits. -/
def State.Reached (s : State) (r : Ring) (l : List PointNo) (x : PointNo) : Prop :=
  ∃ y ∈ l, r ≤ (s.pt y).ackRing ∧ s.onChain x Config.maxLinks y = true

section
variable {s t : State} {r : Ring} (c : Claim)

theorem Moves.ackRing {P S : PointNo → Prop} (h : Moves s t P S) (y : PointNo) : (t.pt y).ackRing = (s.pt y).ackRing :=
  congrArg PointConfig.ackRing (h.config y)

theorem moves_foldl_offerAck (l : List PointNo) (s : State) (n : Nat) :
    Moves s (l.foldl (offerAck c r) (s, n)).1 (s.Reached r l) (fun _ => False)
      ∧ LatchesFall s (l.foldl (offerAck c r) (s, n)).1 := by
  induction l generalizing s n with
  | nil => exact ⟨.refl s _ _, .of_map rfl⟩
  | cons p l ih =>
    rw [List.foldl_cons]
    have hsub (x : PointNo) (hx : s.Reached r l x) : s.Reached r (p :: l) x := by
      obtain ⟨y, hy, hr⟩ := hx
      exact ⟨y, List.mem_cons_of_mem _ hy, hr⟩
    cases hp : (s.pt p).acks r with
    | false =>
      rw [offerAck_of_not_acks c p hp]
      obtain ⟨h, hlatch⟩ := ih s n
      exact ⟨h.mono hsub fun _ h => h, hlatch⟩
    | true =>
      rw [offerAck_of_acks c p hp]
      obtain ⟨hack, hring⟩ := acks_iff.mp hp
      obtain ⟨h, hlatch⟩ := ih (s.acknowledge c p) (n + 1)
      have hm : Moves s (s.acknowledge c p) (fun x => s.onChain x Config.maxLinks p = true) (fun _ => False) :=
        moves_acknowledge s c p
      refine ⟨.trans (hm.mono (fun x hx => ⟨p, List.mem_cons_self, hring, hx⟩) fun _ h => h)
        (h.mono (fun x hx => hsub x ?_) fun _ h => h), (latchesFall_acknowledge c hack).trans hlatch⟩
      obtain ⟨y, hy, hr, hx⟩ := hx
      rw [hm.ackRing] at hr
      rw [hm.onChain] at hx
      exact ⟨y, hy, hr, hx⟩

/-- Where none of the points offered is one to acknowledge, nothing happens. -/
theorem foldl_offerAck_of_none (l : List PointNo) (s : State) (n : Nat) (h : ∀ x ∈ l, (s.pt x).acks r = false) :
    l.foldl (offerAck c r) (s, n) = (s, n) := by
  induction l with
  | nil => rfl
  | cons p l ih =>
    rw [List.foldl_cons, offerAck_of_not_acks c p (h p List.mem_cons_self)]
    exact ih fun x hx => h x (List.mem_cons_of_mem _ hx)

end

/-! ### Where every point is up to date -/

/-- The chains are sound, parents are groups, and every point is up to date: the state of RUN (R38, R171). -/
structure State.Ready (s : State) : Prop where
  depth : ∀ x, s.depth 4 x ≤ 3
  parent : ∀ x g, (s.pt x).parent = some g → (s.pt g).kind = .group
  upToDate : ∀ x, s.UpToDate x
  length : s.log.ring.length ≤ 1024

section
variable {s t : State} {p x : PointNo} {r : Ring} (c : Claim)

theorem State.Ready.acknowledge (h : s.Ready) (ha : (s.pt p).Acknowledged) : (s.acknowledge c p).Ready := by
  have hm : Moves s (s.acknowledge c p) (fun x => s.onChain x Config.maxLinks p = true) (fun _ => False) :=
    moves_acknowledge s c p
  refine ⟨fun x => ?_, fun x g hg => ?_, fun x => (acknowledge_upToDate c (h.depth p)).2 x (h.upToDate x), ?_⟩
  · rw [hm.depth]
    exact h.depth x
  · rw [hm.parent] at hg
    rw [hm.kind]
    exact h.parent x g hg
  · obtain ⟨more, happ, -⟩ := appendsThen_acknowledge c ha h.length
    exact happ.length

/-- A FIELD point lies on no chain but its own: parents are groups. -/
theorem State.Ready.eq_of_onChain (h : s.Ready) (hk : (s.pt x).kind = .field) {n : Nat} {y : PointNo}
    (hc : s.onChain x n y = true) : x = y := by
  induction n generalizing y with
  | zero => exact (beq_iff_eq.mp hc).symm
  | succ n ih =>
    unfold State.onChain at hc
    rw [Bool.or_eq_true] at hc
    obtain hc | hc := hc
    · exact (beq_iff_eq.mp hc).symm
    · cases hg : (s.pt y).parent with
      | none =>
        rw [hg] at hc
        cases hc
      | some g =>
        rw [hg] at hc
        have hgroup := h.parent y g hg
        rw [← ih hc, hk] at hgroup
        cases hgroup

/-- A FIELD point acknowledged and re-evaluated, by the condition that its entries form then (R49). -/
def PointRec.fieldAcked (r : PointRec) (quality : PointQuality) (condition : Condition) : PointRec :=
  r.acked.formed quality (if quality = .good then condition else r.acked.condition)

theorem acknowledge_field (h : s.Ready) (ha : (s.pt p).Acknowledged) (hk : (s.pt p).kind = .field) :
    (s.acknowledge c p).pt p =
      { (s.pt p).fieldAcked ((s.acknowledge c p).fieldQuality p) ((s.acknowledge c p).fieldCondition p) with
        lastChange := ((s.acknowledge c p).pt p).lastChange } := by
  obtain ⟨hself, -, -⟩ := acknowledge_spec c p ha h.length (h.depth p)
  rw [found_acked] at hself
  unfold State.conditionFound State.qualityFound at hself
  rw [hk] at hself
  unfold PointRec.fieldAcked
  rw [(acked_fields (s.pt p)).2.2.1]
  exact hself

/-- The point of an acknowledgement's record (R49). -/
def RecordDraft.ackPoint (d : RecordDraft) : Option PointNo := if d.cause = some .ack then d.point else none

theorem ackPoint_eq_none {d : RecordDraft} (h : d.cause ≠ some .ack) : d.ackPoint = none := if_neg h

/-- The points of a list, offered to the acknowledgement in turn in the state of RUN. -/
structure AckPass (s t : State) (r : Ring) (l : List PointNo) : Prop where
  ready : t.Ready
  acked : ∀ x ∈ l, (s.pt x).acks r = true → ¬ (t.pt x).Acknowledged
  kept : ∀ x, ¬ (x ∈ l ∧ (s.pt x).acks r = true) → ((t.pt x).Acknowledged ↔ (s.pt x).Acknowledged)
  field : ∀ x ∈ l, (s.pt x).acks r = true → (s.pt x).kind = .field →
    t.pt x = { (s.pt x).fieldAcked (t.fieldQuality x) (t.fieldCondition x) with lastChange := (t.pt x).lastChange }
  fieldKept : ∀ x, ¬ (x ∈ l ∧ (s.pt x).acks r = true) → (s.pt x).kind = .field →
    t.pt x = s.pt x ∧ SameEntries s t x
  latch : ∀ i x, x ∈ l → (s.pt x).acks r = true → (s.ent i).valid = true → (s.ent i).point = some x →
    (t.ent i).latch = false
  latches : LatchesFall s t
  request : t.audibleRequest = s.audibleRequest
  appends : ∃ ds, Appends s t ds ∧ ds.filterMap RecordDraft.ackPoint = l.filter fun x => (s.pt x).acks r

theorem ackPass_nil (h : s.Ready) : AckPass s s r [] :=
  ⟨h, nofun, fun _ _ => Iff.rfl, nofun, fun _ _ _ => ⟨rfl, fun _ => .inl rfl⟩, nofun, .of_map rfl, rfl,
    [], appends_nil rfl h.length, rfl⟩

theorem AckPass.skip {l : List PointNo} (h : AckPass s t r l) (hp : (s.pt p).acks r = false) : AckPass s t r (p :: l) := by
  have hmem {x : PointNo} (hx : x ∈ p :: l) (ha : (s.pt x).acks r = true) : x ∈ l := by
    obtain rfl | hx := List.mem_cons.mp hx
    · rw [hp] at ha
      cases ha
    · exact hx
  have hnot {x : PointNo} (hx : ¬ (x ∈ p :: l ∧ (s.pt x).acks r = true)) : ¬ (x ∈ l ∧ (s.pt x).acks r = true) :=
    fun h => hx ⟨List.mem_cons_of_mem _ h.1, h.2⟩
  refine ⟨h.ready, fun x hx ha => h.acked x (hmem hx ha) ha, fun x hx => h.kept x (hnot hx),
    fun x hx ha => h.field x (hmem hx ha) ha, fun x hx => h.fieldKept x (hnot hx),
    fun i x hx ha => h.latch i x (hmem hx ha) ha, h.latches, h.request, ?_⟩
  rw [List.filter_cons_of_neg (by rw [hp]; decide)]
  exact h.appends

theorem acknowledge_sameEntries (ha : (s.pt p).Acknowledged) (hx : x ≠ p) : SameEntries s (s.acknowledge c p) x := by
  have hmap : (s.acknowledge c p).map = (s.clearLatches p).map := by
    rw [acknowledge_eq c p ha, reevaluate_map]
    show mapEntries _ _ = mapEntries _ _
    rw [clearFirstMember_map, transition_map]
  intro i
  have hi : (s.acknowledge c p).ent i = (s.clearLatches p).ent i := by simp [State.ent, hmap]
  rw [hi]
  exact clearLatches_sameEntries s hx i

/-- The acknowledgement of a point, and the pass of those after it. -/
theorem AckPass.cons {l : List PointNo} (hs : s.Ready) (hn : p ∉ l) (hp : (s.pt p).acks r = true)
    (h : AckPass (s.acknowledge c p) t r l) : AckPass s t r (p :: l) := by
  obtain ⟨ha, hring⟩ := acks_iff.mp hp
  have hm : Moves s (s.acknowledge c p) (fun x => s.onChain x Config.maxLinks p = true) (fun _ => False) :=
    moves_acknowledge s c p
  obtain ⟨hself, hothers, hreq⟩ := acknowledge_eases c ha hs.length hs.upToDate
  have hlatch := latchesFall_acknowledge (s := s) c ha
  have hfield := acknowledge_field c hs ha
  have hent := fun x hx => acknowledge_sameEntries (s := s) (p := p) (x := x) c ha hx
  have happ := appendsThen_acknowledge c ha hs.length
  have hcleared (i : InputNo) (hv : (s.ent i).valid = true) (hpt : (s.ent i).point = some p) :
      ((s.acknowledge c p).ent i).latch = false := by
    have hi : (s.acknowledge c p).ent i = (s.ackedAt c p).ent i := by
      simp only [State.ent, acknowledge_eq c p ha, reevaluate_map]
    rw [hi, ackedAt_ent, if_pos ⟨hv, hpt⟩]
  obtain ⟨u, hu⟩ : ∃ u, u = s.acknowledge c p := ⟨_, rfl⟩
  rw [← hu] at h hm hself hothers hreq hlatch hfield hent happ hcleared
  have hacks {x : PointNo} (hx : x ≠ p) : (u.pt x).acks r = (s.pt x).acks r := by
    rw [Bool.eq_iff_iff, acks_iff, acks_iff, (hothers x hx).acknowledged, hm.ackRing]
  have hfieldOff {x : PointNo} (hk : (s.pt x).kind = .field) (hx : x ≠ p) : u.pt x = s.pt x :=
    hm.off x fun hc => hx (hs.eq_of_onChain hk hc)
  have hmem {x : PointNo} (hx : x ∈ p :: l) (hne : x ≠ p) : x ∈ l := (List.mem_cons.mp hx).resolve_left hne
  have hnot {x : PointNo} (hx : ¬ (x ∈ p :: l ∧ (s.pt x).acks r = true)) : x ≠ p ∧ ¬ (x ∈ l ∧ (u.pt x).acks r = true) := by
    have hne : x ≠ p := fun e => hx ⟨e ▸ List.mem_cons_self, e ▸ hp⟩
    refine ⟨hne, fun hc => hx ⟨List.mem_cons_of_mem _ hc.1, ?_⟩⟩
    rw [← hacks hne]
    exact hc.2
  have hpass : ¬ (p ∈ l ∧ (u.pt p).acks r = true) := fun hc => hn hc.1
  refine ⟨h.ready, fun x hx hax => ?_, fun x hx => ?_, fun x hx hax hk => ?_, fun x hx hk => ?_, fun i x hx hax hv hpx => ?_,
    hlatch.trans h.latches, h.request.trans hreq, ?_⟩
  · by_cases hxp : x = p
    · subst hxp
      rw [h.kept x hpass]
      exact hself
    · exact h.acked x (hmem hx hxp) (by rw [hacks hxp]; exact hax)
  · obtain ⟨hne, hx'⟩ := hnot hx
    exact (h.kept x hx').trans (hothers x hne).acknowledged
  · by_cases hxp : x = p
    · subst hxp
      obtain ⟨hsame, hentries⟩ := h.fieldKept x hpass (by rw [hm.kind]; exact hk)
      obtain ⟨hq, hc⟩ := field_congr hentries
      rw [hsame, hq, hc]
      exact hfield hk
    · have hx' := h.field x (hmem hx hxp) (by rw [hacks hxp]; exact hax) (by rw [hm.kind]; exact hk)
      rw [hfieldOff hk hxp] at hx'
      exact hx'
  · obtain ⟨hne, hx'⟩ := hnot hx
    obtain ⟨hsame, hentries⟩ := h.fieldKept x hx' (by rw [hm.kind]; exact hk)
    refine ⟨hsame.trans (hfieldOff hk hne), fun i => ?_⟩
    obtain h1 | ⟨h1, h2⟩ := hent x hne i
    · rw [← h1]
      exact hentries i
    · obtain h3 | ⟨h3, h4⟩ := hentries i
      · rw [h3]
        exact .inr ⟨h1, h2⟩
      · exact .inr ⟨h3, h2⟩
  · by_cases hxp : x = p
    · subst hxp
      exact Bool.eq_false_iff.mpr fun hl => absurd ((h.latches i).2 hl) (Bool.eq_false_iff.mp (hcleared i hv hpx))
    · refine h.latch i x (hmem hx hxp) (by rw [hacks hxp]; exact hax) ?_ ?_
      · rw [(hlatch i).1]
        exact hv
      · rw [(hlatch i).1]
        exact hpx
  · obtain ⟨more, hfirst, hmore⟩ := happ
    obtain ⟨ds, hds, hpoints⟩ := h.appends
    refine ⟨_, hfirst.trans hds, ?_⟩
    have hnone : more.filterMap RecordDraft.ackPoint = [] :=
      List.filterMap_eq_nil_iff.mpr fun d hd => ackPoint_eq_none (hmore d hd).cause
    have hfilter : (l.filter fun x => (u.pt x).acks r) = l.filter fun x => (s.pt x).acks r :=
      List.filter_congr fun x hx => hacks fun e => hn (e ▸ hx)
    rw [List.filter_cons_of_pos (by exact hp), List.filterMap_append, List.filterMap_append, hnone, hpoints, hfilter,
      List.append_nil]
    rfl

theorem ackPass_foldl (l : List PointNo) (hn : l.Nodup) (s : State) (n : Nat) (hs : s.Ready) :
    AckPass s (l.foldl (offerAck c r) (s, n)).1 r l
      ∧ (l.foldl (offerAck c r) (s, n)).2 = n + (l.filter fun x => (s.pt x).acks r).length := by
  induction l generalizing s n with
  | nil => exact ⟨ackPass_nil hs, rfl⟩
  | cons p l ih =>
    rw [List.nodup_cons] at hn
    rw [List.foldl_cons]
    cases hp : (s.pt p).acks r with
    | false =>
      rw [offerAck_of_not_acks c p hp, List.filter_cons_of_neg (by rw [hp]; decide)]
      obtain ⟨h, hcount⟩ := ih hn.2 s n hs
      exact ⟨h.skip hp, hcount⟩
    | true =>
      obtain ⟨ha, -⟩ := acks_iff.mp hp
      rw [offerAck_of_acks c p hp, List.filter_cons_of_pos (p := fun x => (s.pt x).acks r) hp]
      obtain ⟨h, hcount⟩ := ih hn.2 (s.acknowledge c p) (n + 1) (hs.acknowledge c ha)
      obtain ⟨-, hothers, -⟩ := acknowledge_eases c ha hs.length hs.upToDate
      have hm : Moves s (s.acknowledge c p) (fun x => s.onChain x Config.maxLinks p = true) (fun _ => False) :=
        moves_acknowledge s c p
      have hfilter : (l.filter fun x => ((s.acknowledge c p).pt x).acks r) = l.filter fun x => (s.pt x).acks r :=
        List.filter_congr fun x hx => by
          rw [Bool.eq_iff_iff, acks_iff, acks_iff, (hothers x fun e => hn.1 (e ▸ hx)).acknowledged, hm.ackRing]
      refine ⟨h.cons c hs hn.1 hp, ?_⟩
      rw [hcount, hfilter, List.length_cons]
      omega

end

end Sys2Proof.Machine
end

section
/-! PROOFS. ACK_POINT with members, ACK_CLASS and ACK_ALL (R51, R52). -/

namespace Sys2Proof.Machine

/-! ### The records behind the answer -/

/-- The raisings of a command append records without a cause (R155). -/
theorem appendsThen_settle_noCause {s : State} (hb : s.log.ring.length ≤ 1024) :
    AppendsThen s s.settle [] fun d => d.cause = none := by
  suffices h : ∀ n (s : State), s.log.ring.length ≤ 1024 → AppendsThen s (s.drain n) [] fun d => d.cause = none from
    h _ s hb
  intro n
  induction n with
  | zero => exact fun s hb => .none rfl hb
  | succ n ih =>
    intro s hb
    unfold State.drain
    split
    · exact .none rfl hb
    · next r rest _ =>
      have h := appends_raise (s := { s with raisings := rest }) hb r
      have h' : AppendsThen s (({ s with raisings := rest } : State).raise r) [] fun d => d.cause = none :=
        .one (h.congr rfl rfl) rfl
      exact h'.trans (ih _ h.length)

theorem Appends.ended {s v : State} {p : Port} {f : Frame} {st : Status} {r : List Byte} {ds : List RecordDraft}
    (h : Appends (s.begun p f) v ds) : AppendsThen s (v.respond p f st r).settle ds fun d => d.cause = none := by
  have h1 : Appends s (v.respond p f st r) ds := h.congr rfl (respond_log _ _ _ _ _)
  exact h1.followed (appendsThen_settle_noCause h1.length)

theorem length_filter_ackPoint (ds : List RecordDraft) (x : PointNo) :
    (ds.filter fun d => d.cause == some .ack && d.point == some x).length = (ds.filterMap RecordDraft.ackPoint).count x := by
  induction ds with
  | nil => rfl
  | cons d ds ih =>
    rw [List.filter_cons, List.filterMap_cons]
    unfold RecordDraft.ackPoint at ih ⊢
    by_cases hc : d.cause = some .ack
    · rw [if_pos hc]
      cases hp : d.point with
      | none => simp [ih]
      | some y => by_cases hy : y = x <;> simp [hc, hy, ih]
    · rw [if_neg hc]
      simp [hc, ih]

/-! ### The answer -/

section
variable {s : State} {p : Port} {f : Frame} {l : List PointNo}

theorem respondCount_eq (r : State × Nat) : respondCount p f r = r.1.respond p f .ok (b2 r.2) := rfl

theorem State.Ready.begun (hh : s.HierarchySound) (hu : ∀ x, s.UpToDate x) (hb : s.log.ring.length ≤ 1024) :
    (s.begun p f).Ready :=
  ⟨hh.1, hh.2.1, fun x => upToDate_congr (s := s) (t := s.begun p f) rfl rfl (hu x), hb⟩

/-- What the answer to a list of points shows, whatever the state (R51, R52). -/
structure AckAnswered (s t : State) (p : Port) (f : Frame) (n : Nat) (l : List PointNo) : Prop where
  responding : t.Responding p f .ok (b2 n)
  emits : OnlyEmits
    { s.closed p f .ok (b2 n) (t.stn p).waitResponse with
      points := t.points, map := t.map, audibleRequest := t.audibleRequest } t
  request : s.audibleRequest = true → t.audibleRequest = true
  announces : Announces s t
  points : ∀ x, (t.pt x).config = (s.pt x).config ∧ (t.pt x).service = (s.pt x).service
  latches : LatchesFall s t
  off : ∀ x, ¬ s.Reached (s.stn p).ring l x → t.pt x = s.pt x

/-- The state that answers a list of points. -/
def State.ackAnswer (s : State) (p : Port) (f : Frame) (l : List PointNo) : State :=
  (respondCount p f ((s.begun p f).ackList (s.requestClaim p) (s.stn p).ring l)).settle

/-- The number of points of a list that were acknowledged. -/
def State.ackCount (s : State) (p : Port) (f : Frame) (l : List PointNo) : Nat :=
  ((s.begun p f).ackList (s.requestClaim p) (s.stn p).ring l).2

theorem ackAnswered (s : State) (p : Port) (f : Frame) (l : List PointNo) :
    AckAnswered s (s.ackAnswer p f l) p f (s.ackCount p f l) l := by
  obtain ⟨hm, hlatch⟩ := moves_foldl_offerAck (r := (s.stn p).ring) (s.requestClaim p) l (s.begun p f) 0
  have hann := announces_ackList (c := s.requestClaim p) (s.stn p).ring l (.refl (s.begun p f)) fun _ h => h
  unfold State.ackAnswer State.ackCount State.ackList at *
  obtain ⟨v, hv⟩ : ∃ v, v = l.foldl (offerAck (s.requestClaim p) (s.stn p).ring) (s.begun p f, 0) := ⟨_, rfl⟩
  rw [← hv] at hm hlatch hann ⊢
  rw [respondCount_eq]
  obtain ⟨hemits, hresp⟩ := hm.answered (s := s) (st := .ok) (r := b2 v.2)
  have hpt (x : PointNo) := ended_pt v.1 p f .ok (b2 v.2) x
  refine ⟨hresp, ?_, fun hr => ?_, hann.answered, fun x => ?_, ?_, fun x hx => ?_⟩
  · rw [ended_points, ended_map, ended_audibleRequest]
    exact hemits
  · rw [ended_audibleRequest]
    exact hm.request hr
  · rw [hpt]
    exact ⟨hm.config x, (hm.service x fun h => h).1⟩
  · have hbase : LatchesFall s v.1 := hlatch
    exact hbase.trans (.of_map (ended_map ..))
  · rw [hpt]
    exact hm.off x hx

theorem ackAnswer_of_none {k : ReqKind} (h : s.Takes p k f) (hn : ∀ x ∈ l, (s.pt x).acks (s.stn p).ring = false) :
    s.ackCount p f l = 0 ∧ s.ackAnswer p f l = s.answered p f .ok (b2 0) := by
  have hfold := foldl_offerAck_of_none (s.requestClaim p) l (s.begun p f) 0 hn
  unfold State.ackAnswer State.ackCount State.ackList
  rw [hfold]
  refine ⟨rfl, ?_⟩
  have hanswered := answered_settled h .ok (b2 0)
  rw [beginRequest_eq_begun] at hanswered
  exact hanswered

/-- What the answer shows in the state of RUN. -/
structure AckAnsweredReady (s t : State) (p : Port) (n : Nat) (l : List PointNo) : Prop where
  acked : ∀ x ∈ l, (s.pt x).acks (s.stn p).ring = true → ¬ (t.pt x).Acknowledged
  field : ∀ x ∈ l, (s.pt x).acks (s.stn p).ring = true → (s.pt x).kind = .field →
    t.pt x = { (s.pt x).fieldAcked (t.fieldQuality x) (t.fieldCondition x) with lastChange := (t.pt x).lastChange }
  latch : ∀ x i, x ∈ l → (s.pt x).acks (s.stn p).ring = true → (s.ent i).valid = true → (s.ent i).point = some x →
    (t.ent i).latch = false
  count : n = (l.filter fun x => (s.pt x).acks (s.stn p).ring).length
  appends : ∃ ds, Appends s t ds ∧ ds.filterMap RecordDraft.ackPoint = l.filter fun x => (s.pt x).acks (s.stn p).ring
  upToDate : ∀ x, t.UpToDate x
  request : t.audibleRequest = s.audibleRequest

theorem ackAnsweredReady (hl : l.Nodup) (h : (s.begun p f).Ready) :
    AckAnsweredReady s (s.ackAnswer p f l) p (s.ackCount p f l) l := by
  obtain ⟨hpass, hcount⟩ := ackPass_foldl (r := (s.stn p).ring) (s.requestClaim p) l hl (s.begun p f) 0 h
  unfold State.ackAnswer State.ackCount State.ackList
  obtain ⟨v, hv⟩ : ∃ v, v = l.foldl (offerAck (s.requestClaim p) (s.stn p).ring) (s.begun p f, 0) := ⟨_, rfl⟩
  rw [← hv] at hpass hcount ⊢
  rw [respondCount_eq]
  obtain ⟨t, ht⟩ : ∃ t, t = (v.1.respond p f .ok (b2 v.2)).settle := ⟨_, rfl⟩
  have htp : t.points = v.1.points := by rw [ht]; exact ended_points ..
  have htm : t.map = v.1.map := by rw [ht]; exact ended_map ..
  have hent (i : InputNo) : t.ent i = v.1.ent i := by simp [State.ent, htm]
  rw [← ht]
  refine ⟨fun x hx ha => ?_, fun x hx ha hk => ?_, fun x i hx ha hv hp => ?_, ?_, ?_, fun x => ?_, ?_⟩
  · rw [pt_congr htp]
    exact hpass.acked x hx ha
  · rw [pt_congr htp, fieldQuality_congr htm, fieldCondition_congr htm]
    exact hpass.field x hx ha hk
  · rw [hent]
    exact hpass.latch i x hx ha hv hp
  · rw [hcount, Nat.zero_add]
    rfl
  · obtain ⟨ds, hds, hpoints⟩ := hpass.appends
    obtain ⟨more, hall, hmore⟩ := hds.ended (st := .ok) (r := b2 v.2)
    have hnone : more.filterMap RecordDraft.ackPoint = [] :=
      List.filterMap_eq_nil_iff.mpr fun d hd => ackPoint_eq_none (by rw [hmore d hd]; nofun)
    refine ⟨ds ++ more, ht ▸ hall, ?_⟩
    rw [List.filterMap_append, hnone, List.append_nil]
    exact hpoints
  · exact upToDate_congr htp htm (hpass.ready.upToDate x)
  · rw [ht, ended_audibleRequest]
    exact hpass.request

end

/-! ### The requests -/

section
variable {s : State} {p : Port} {f : Frame}

theorem exec_ackPointMembers (h : s.Takes p .ackPoint f) (hm : f.arg 1 = 1) :
    exec (.ackPointMembers p) s = .next (s.ackAnswer p f (f.point 0 :: s.descendants (f.point 0))) := by
  have hform : withMembers f = true := by
    have hlength : f.body.length = 2 := h.length
    simp [withMembers, hm, hlength]
  have hnext := next_of_takes (form := withMembers) h hform fun f t => t.ownAckMembers p f
  have hring := requestRing_begun s p f
  rw [beginRequest_eq_begun] at hring
  have howner : (s.begun p f).ownAckMembers p f =
      respondCount p f ((s.begun p f).ackList (s.requestClaim p) (s.stn p).ring (f.point 0 :: s.descendants (f.point 0))) := by
    unfold State.ownAckMembers
    rw [hring]
    rfl
  rw [howner] at hnext
  exact hnext

theorem exec_ackClass (h : s.Takes p .ackClass f) (hc : f.arg 0 < 8) :
    exec (.ackClass p) s = .next (s.ackAnswer p f (allPoints.filter fun q => (s.pt q).cls == ⟨f.arg 0, hc⟩)) := by
  have hnext := next_of_takes (form := anyForm) h rfl fun f t => t.ownAckClass p f
  have howner : (s.begun p f).ownAckClass p f =
      respondCount p f ((s.begun p f).ackList (s.requestClaim p) (s.stn p).ring
        (allPoints.filter fun q => (s.pt q).cls == ⟨f.arg 0, hc⟩)) := by
    unfold State.ownAckClass
    rw [ring_begun, show below 8 (f.arg 0) = some ⟨f.arg 0, hc⟩ from below_eq_some_iff.mpr rfl]
    rfl
  rw [howner] at hnext
  exact hnext

theorem exec_ackAll (h : s.Takes p .ackAll f) : exec (.ackAll p) s = .next (s.ackAnswer p f allPoints) := by
  have hnext := next_of_takes (form := anyForm) h rfl fun f t => t.ownAckAll p f
  have howner : (s.begun p f).ownAckAll p f =
      respondCount p f ((s.begun p f).ackList (s.requestClaim p) (s.stn p).ring allPoints) := by
    unfold State.ownAckAll
    rw [ring_begun]
    rfl
  rw [howner] at hnext
  exact hnext

theorem nodup_descendants (q : PointNo) : (q :: s.descendants q).Nodup := by
  rw [List.nodup_cons]
  refine ⟨fun h => ?_, (pairwise_allPoints.imp fun h => ne_of_lt h).filter _⟩
  have := (List.mem_filter.mp h).2
  simp at this

theorem mem_descendants {q x : PointNo} : x ∈ q :: s.descendants q ↔ s.onChain q 3 x = true := by
  rw [List.mem_cons]
  unfold State.descendants
  rw [List.mem_filter, Bool.and_eq_true, bne_iff_ne]
  refine ⟨fun h => ?_, fun h => ?_⟩
  · obtain rfl | ⟨-, -, h⟩ := h
    · exact onChain_self s 3 x
    · exact h
  · by_cases hx : x = q
    · exact .inl hx
    · exact .inr ⟨mem_allPoints x, hx, h⟩

/-- The points acknowledged, in ascending order with the named point first where there is one. -/
theorem order_descendants {P : PointNo → Bool} {q : PointNo} {m : List PointNo} (hm : m.Pairwise (· < ·))
    (h : ∀ x, x ∈ m ↔ x ∈ q :: s.descendants q ∧ P x = true) :
    (q :: s.descendants q).filter P = m.filter (· == q) ++ m.filter (· != q) := by
  have hne : ∀ x ∈ s.descendants q, x ≠ q := fun x hx => by
    have := (List.mem_filter.mp hx).2
    simp at this
    exact this.1
  have hfirst : [q].filter P = m.filter (· == q) := by
    refine eq_of_ascending ((List.pairwise_singleton _ _).filter _) (hm.filter _) fun x => ?_
    rw [List.mem_filter, List.mem_filter, h, List.mem_singleton, List.mem_cons, beq_iff_eq]
    tauto
  have hrest : (s.descendants q).filter P = m.filter (· != q) := by
    refine eq_of_ascending ((pairwise_allPoints.filter _).filter _) (hm.filter _) fun x => ?_
    rw [List.mem_filter, List.mem_filter, h, List.mem_cons, bne_iff_ne]
    have := hne x
    tauto
  rw [← hfirst, ← hrest, ← List.filter_append]
  rfl

end

/-- Settles O33. -/
theorem acknowledgesMany : Obligations.AcknowledgesMany := by
  intro s p f c k offered h hc judged
  suffices hlist : ∃ l : List PointNo, l.Nodup ∧ (∀ x, x ∈ l ↔ offered x) ∧ exec c s = .next (s.ackAnswer p f l)
      ∧ ∀ (P : PointNo → Bool) (m : List PointNo), m.Pairwise (· < ·) → (∀ x, x ∈ m ↔ x ∈ l ∧ P x = true) →
        l.filter P = if k = .ackPoint then m.filter (· == f.point 0) ++ m.filter (· != f.point 0) else m by
    obtain ⟨l, hnodup, hmem, hexec, horder⟩ := hlist
    have hacks {x : PointNo} : x ∈ l ∧ (s.pt x).acks (s.stn p).ring = true ↔
        judged x ∧ ((s.pt x).seqState = .alert ∨ (s.pt x).seqState = .returnUnacked) := by
      rw [hmem, acks_iff]
      show _ ↔ (offered x ∧ _) ∧ _
      unfold PointRec.Acknowledged
      tauto
    obtain ⟨hresp, hemits, hreq, hann, hpoints, hlatches, hoff⟩ := ackAnswered s p f l
    refine ⟨_, _, hexec, hresp, hemits, hreq, hann, hpoints, hlatches, fun x hx => hoff x ?_, fun hnone => ?_, fun hh hu hb => ?_⟩
    · rintro ⟨y, hy, hring, hchain⟩
      have hfalse := hx y ⟨(hmem y).mp hy, hring⟩
      exact Bool.false_ne_true (hfalse.symm.trans hchain)
    · refine ackAnswer_of_none h fun x hx => Bool.eq_false_iff.mpr fun ha => ?_
      obtain ⟨hj, hst⟩ := hacks.mp ⟨hx, ha⟩
      exact hst.elim (hnone x hj).1 (hnone x hj).2
    · obtain ⟨hacked, hfield, hlatch, hcount, hds, hup, haud⟩ := ackAnsweredReady (p := p) (f := f) hnodup (.begun hh hu hb)
      have hfilter {x : PointNo} : (x ∈ l.filter fun x => (s.pt x).acks (s.stn p).ring) ↔
          judged x ∧ ((s.pt x).seqState = .alert ∨ (s.pt x).seqState = .returnUnacked) := List.mem_filter.trans hacks
      have hnd : (l.filter fun x => (s.pt x).acks (s.stn p).ring).Nodup := hnodup.filter _
      refine ⟨fun x hx => ?_, fun x hx hk => ?_, fun x i hx hv hp => ?_, fun m hm hmm => ?_, ?_, hup, haud⟩
      · obtain ⟨hx, ha⟩ := hacks.mpr hx
        exact not_or.mp (hacked x hx ha)
      · obtain ⟨hx, ha⟩ := hacks.mpr hx
        exact hfield x hx ha hk
      · obtain ⟨hx, ha⟩ := hacks.mpr hx
        exact hlatch x i hx ha hv hp
      · rw [hcount]
        exact ((List.perm_ext_iff_of_nodup hnd hm).mpr fun x => hfilter.trans (hmm x).symm).length_eq
      · obtain ⟨ds, happ, hds⟩ := hds
        refine ⟨ds, happ, fun x => ⟨fun hx => ?_, fun hx d hd hcause hpoint => hx ?_⟩, fun m hm hmm => ?_⟩
        · rw [length_filter_ackPoint, hds]
          exact List.count_eq_one_of_mem hnd (hfilter.mpr hx)
        · refine hfilter.mp ?_
          rw [← hds]
          exact List.mem_filterMap.mpr ⟨d, hd, (if_pos hcause).trans hpoint⟩
        · exact hds.trans (horder _ m hm fun x => (hmm x).trans hacks.symm)
  obtain ⟨rfl, rfl, hmem, hoffered⟩ | ⟨rfl, rfl, hcls, hoffered⟩ | ⟨rfl, rfl, hoffered⟩ := hc
  · exact ⟨_, nodup_descendants _, fun x => mem_descendants.trans (hoffered x).symm, exec_ackPointMembers h hmem,
      fun P m hm hx => order_descendants hm hx⟩
  · refine ⟨_, (pairwise_allPoints.imp fun h => ne_of_lt h).filter _, fun x => ?_, exec_ackClass h hcls, fun P m hm hx => ?_⟩
    · rw [List.mem_filter, beq_iff_eq, Fin.ext_iff, hoffered]
      exact and_iff_right (mem_allPoints x)
    · exact eq_of_ascending ((pairwise_allPoints.filter _).filter _) hm fun x => List.mem_filter.trans (hx x).symm
  · exact ⟨_, pairwise_allPoints.imp fun h => ne_of_lt h, fun x => iff_of_true (mem_allPoints x) (hoffered x), exec_ackAll h,
      fun P m hm hx => eq_of_ascending (pairwise_allPoints.filter _) hm fun x => List.mem_filter.trans (hx x).symm⟩

end Sys2Proof.Machine
end

section
/-! PROOFS. The parent chains and the map stay sound (R38, R39, R130, R131). -/

namespace Sys2Proof.Machine

/-! ### What the soundness rests on -/

/-- The configuration of every point, and what every map entry names, are as they were. -/
structure SameShape (s t : State) : Prop where
  config : ∀ x, (t.pt x).config = (s.pt x).config
  entry : ∀ i, (t.ent i).valid = (s.ent i).valid ∧ (t.ent i).point = (s.ent i).point

namespace SameShape

variable {s t u : State}

theorem refl (s : State) : SameShape s s := ⟨fun _ => rfl, fun _ => ⟨rfl, rfl⟩⟩

theorem trans (h : SameShape s t) (k : SameShape t u) : SameShape s u :=
  ⟨fun x => (k.config x).trans (h.config x), fun i => ⟨(k.entry i).1.trans (h.entry i).1, (k.entry i).2.trans (h.entry i).2⟩⟩

theorem kind (h : SameShape s t) (x : PointNo) : (t.pt x).kind = (s.pt x).kind := congrArg PointConfig.kind (h.config x)

theorem parent (h : SameShape s t) (x : PointNo) : (t.pt x).parent = (s.pt x).parent :=
  congrArg PointConfig.parent (h.config x)

theorem entry_of_map (h : t.map = s.map) (i : InputNo) :
    (t.ent i).valid = (s.ent i).valid ∧ (t.ent i).point = (s.ent i).point := by
  have hi : t.ent i = s.ent i := by simp [State.ent, h]
  rw [hi]
  exact ⟨rfl, rfl⟩

theorem of_points (hp : t.points = s.points) (hm : t.map = s.map) : SameShape s t :=
  ⟨fun x => by rw [pt_congr hp], entry_of_map hm⟩

theorem of_moves {P S : PointNo → Prop} (m : Moves s t P S) (h : t.map = s.map) : SameShape s t :=
  ⟨m.config, entry_of_map h⟩

theorem of_latches {P S : PointNo → Prop} (m : Moves s t P S) (h : LatchesFall s t) : SameShape s t :=
  ⟨m.config, fun i => by rw [(h i).1]; exact ⟨rfl, rfl⟩⟩

theorem of_fieldSide (h : FieldSide s t) : SameShape s t := .of_points h.points h.map

theorem of_apart (h : Apart s t) : SameShape s t := .of_points h.points h.map

end SameShape

section
variable {s t : State}

theorem depth_of_parent (h : ∀ x, (t.pt x).parent = (s.pt x).parent) (n : Nat) (p : PointNo) : t.depth n p = s.depth n p := by
  induction n generalizing p with
  | zero => rfl
  | succ n ih =>
    unfold State.depth
    rw [h p]
    cases (s.pt p).parent with
    | none => rfl
    | some g => exact congrArg (· + 1) (ih g)

theorem State.HierarchySound.sameShape (h : s.HierarchySound) (k : SameShape s t) : t.HierarchySound := by
  obtain ⟨hd, hp, he⟩ := h
  refine ⟨fun p => ?_, fun p g hg => ?_, fun i hv => ?_⟩
  · rw [depth_of_parent k.parent]
    exact hd p
  · rw [k.parent] at hg
    rw [k.kind]
    exact hp p g hg
  · rw [(k.entry i).1] at hv
    obtain ⟨p, hp, hk⟩ := he i hv
    exact ⟨p, (k.entry i).2.trans hp, (k.kind p).trans hk⟩

theorem State.HierarchySound.parent_ne (h : s.HierarchySound) (x : PointNo) : (s.pt x).parent ≠ some x := parent_ne_self (h.1 x)

theorem hierarchySound_of_blank (hp : ∀ x, (s.pt x).parent = none) (he : ∀ i, (s.ent i).valid = false) : s.HierarchySound := by
  refine ⟨fun p => ?_, fun p g hg => ?_, fun i hv => ?_⟩
  · unfold State.depth
    rw [hp]
    exact Nat.zero_le _
  · rw [hp] at hg
    cases hg
  · rw [he] at hv
    cases hv

end

/-! ### A chain with one link changed -/

section
variable {s t u : State} {q g : PointNo}

/-- A chain of `t` that leaves `q` aside is one of `u`, and any other reaches `q` and goes on above it. -/
theorem ancestor_relink (ht : ∀ x, x ≠ q → (t.pt x).parent = (u.pt x).parent) {n : Nat} {p x : PointNo}
    (h : t.ancestor n p = some x) :
    u.ancestor n p = some x ∨ ∃ k m, n = k + 1 + m ∧ u.ancestor k p = some q ∧ t.ancestor (m + 1) q = some x := by
  induction n generalizing p with
  | zero => exact .inl h
  | succ n ih =>
    by_cases hp : p = q
    · exact .inr ⟨0, n, by omega, by rw [hp]; rfl, by rw [← hp]; exact h⟩
    · obtain ⟨y, hy, hn⟩ := ancestor_succ.mp h
      rw [ht p hp] at hy
      obtain hn | ⟨k, m, rfl, hk, hm⟩ := ih hn
      · exact .inl (ancestor_succ.mpr ⟨y, hy, hn⟩)
      · exact .inr ⟨k + 1, m, by omega, ancestor_succ.mpr ⟨y, hy, hk⟩, hm⟩

/-- A state whose chains are all part of those of another. -/
theorem ancestor_of_sub (hu : ∀ x y, (u.pt x).parent = some y → (s.pt x).parent = some y) {n : Nat} {p x : PointNo}
    (h : u.ancestor n p = some x) : s.ancestor n p = some x := by
  induction n generalizing p with
  | zero => exact h
  | succ n ih =>
    obtain ⟨y, hy, hn⟩ := ancestor_succ.mp h
    exact ancestor_succ.mpr ⟨y, hu p y hy, ih hn⟩

theorem depth_le_three_iff {p : PointNo} : s.depth 4 p ≤ 3 ↔ ∀ x, s.ancestor 4 p ≠ some x := by
  have h := le_depth_iff (s := s) (n := 4) (k := 4) le_rfl (p := p)
  rw [← not_iff_not, not_le, Nat.lt_iff_add_one_le, h]
  push Not
  rfl

/-- A point linked to a new parent, where the chain test of R39 passes, leaves every chain within its three links. -/
theorem depth_relinked (hs : ∀ p, s.depth 4 p ≤ 3) (hu : ∀ x, x ≠ q → (u.pt x).parent = (s.pt x).parent)
    (huq : (u.pt q).parent = none) (ht : ∀ x, x ≠ q → (t.pt x).parent = (u.pt x).parent)
    (htq : ∀ y, (t.pt q).parent = some y → y = g) (hloop : ∀ n, u.ancestor n g ≠ some q)
    (hlong : ∀ above below top bottom, u.ancestor above g = some top → u.ancestor below bottom = some q →
      above + 1 + below ≤ 3) (p : PointNo) : t.depth 4 p ≤ 3 := by
  rw [depth_le_three_iff]
  intro x hx
  have hsub (a b : PointNo) (h : (u.pt a).parent = some b) : (s.pt a).parent = some b := by
    by_cases ha : a = q
    · rw [ha, huq] at h
      cases h
    · rw [← hu a ha]
      exact h
  obtain h | ⟨k, m, hn, hk, hm⟩ := ancestor_relink ht hx
  · exact depth_le_three_iff.mp (hs p) x (ancestor_of_sub hsub h)
  · obtain ⟨y, hy, hm⟩ := ancestor_succ.mp hm
    rw [htq y hy] at hm
    obtain h | ⟨k', m', -, hk', -⟩ := ancestor_relink ht hm
    · have := hlong m k x p h hk
      omega
    · exact hloop k' hk'

end

/-! ### SET_POINT and SET_MAP -/

section
variable {s : State} {q : PointNo} {c : PointConfig}

theorem parent_configured (x : PointNo) :
    ((s.setPt q ((s.pt q).configured c)).pt x).parent = if x = q then c.parent else (s.pt x).parent := by
  rw [State.pt_setPt]
  split <;> rfl

theorem kind_configured (x : PointNo) :
    ((s.setPt q ((s.pt q).configured c)).pt x).kind = if x = q then c.kind else (s.pt x).kind := by
  rw [State.pt_setPt]
  split <;> rfl

theorem depth_configured (h : s.HierarchySound) (hc : ¬ ChainBroken s q c) (p : PointNo) :
    (s.setPt q ((s.pt q).configured c)).depth 4 p ≤ 3 := by
  obtain ⟨hd, -, -⟩ := h
  by_cases hsame : c.parent = (s.pt q).parent
  · rw [depth_of_parent (s := s) fun x => by
      rw [parent_configured]
      split
      · next hx => rw [hx, hsame]
      · rfl]
    exact hd p
  · cases hg : c.parent with
    | none =>
      rw [depth_le_three_iff]
      intro x hx
      refine depth_le_three_iff.mp (hd p) x (ancestor_of_sub (fun a b hab => ?_) hx)
      rw [parent_configured, hg] at hab
      split at hab
      · cases hab
      · exact hab
    | some g =>
      have hpass := mt (fun hch => (⟨g, hg, fun e => hsame (hg.trans e.symm), hch⟩ : ChainBroken s q c)) hc
      rw [not_or] at hpass
      obtain ⟨hloop, hlong⟩ := hpass
      refine depth_relinked (q := q) (g := g) (u := s.setPt q { s.pt q with parent := none }) hd
        (fun x hx => by rw [State.pt_setPt, if_neg hx]) (by rw [State.pt_setPt_self])
        (fun x hx => by rw [parent_configured, if_neg hx, State.pt_setPt, if_neg hx]) (fun y hy => ?_)
        (fun n hn => hloop ⟨n, hn⟩) (fun above below top bottom ha hb => ?_) p
      · rw [parent_configured, if_pos rfl, hg] at hy
        exact (Option.some.inj hy).symm
      · by_contra hcon
        exact hlong ⟨above, below, top, bottom, ha, hb, by omega⟩

theorem hierarchySound_configured (h : s.HierarchySound) (ha : s.pointArgumentsOk q c = true) (hk : ¬ KindHeld s q c)
    (hc : ¬ ChainBroken s q c) : (s.setPt q ((s.pt q).configured c)).HierarchySound := by
  refine ⟨depth_configured h hc, fun x g hg => ?_, fun i hv => ?_⟩
  · have hgroup (hkind : (s.pt g).kind = .group) (hchild : g = q → (s.pt x).parent = some q) :
        ((s.setPt q ((s.pt q).configured c)).pt g).kind = .group := by
      rw [kind_configured]
      split
      · next e =>
        by_contra hn
        exact hk (.inr ⟨e ▸ hkind, hn, x, hchild e⟩)
      · exact hkind
    rw [parent_configured] at hg
    split at hg
    · next hx =>
      have hne : g ≠ q := by
        rintro rfl
        refine hc ⟨g, hg, h.parent_ne g, .inl ⟨0, rfl⟩⟩
      have hkind : (s.pt g).kind = .group := by
        unfold State.pointArgumentsOk at ha
        rw [hg] at ha
        simpa [hne] using (Bool.and_eq_true_iff.mp ha).2
      exact hgroup hkind fun e => absurd e hne
    · next hx => exact hgroup (h.2.1 x g hg) fun e => e ▸ hg
  · obtain ⟨p, hp, hkind⟩ := h.2.2 i hv
    refine ⟨p, hp, ?_⟩
    rw [kind_configured]
    split
    · next e =>
      by_contra hn
      exact hk (.inl ⟨e ▸ hkind, hn, i, hv, e ▸ hp⟩)
    · exact hkind

theorem hierarchySound_ownSetPoint {p : Port} {f : Frame} (h : s.HierarchySound) : (s.ownSetPoint p f).HierarchySound := by
  have hr (t : State) (ht : t.HierarchySound) (st : Status) : (t.respond p f st []).HierarchySound :=
    ht.sameShape (.of_apart ((Apart.refl t).respond ..))
  unfold State.ownSetPoint
  dsimp only
  split
  · exact hr s h _
  · next c _ =>
    by_cases ha : s.pointArgumentsOk (f.point 0) c = false
    · rw [if_pos ha]
      exact hr s h _
    · rw [if_neg ha]
      by_cases hk : KindHeld s (f.point 0) c
      · rw [pointStateRefusal_of_kindHeld hk]
        exact hr s h _
      · by_cases hc : ChainBroken s (f.point 0) c
        · rw [pointStateRefusal_of_chainBroken hk hc]
          exact hr s h _
        · rw [pointStateRefusal_eq_none hk hc]
          exact hr _ (hierarchySound_configured h (Bool.not_eq_false _ ▸ ha) hk hc) _

/-- An entry that names a FIELD point, or none, keeps the map sound. -/
theorem hierarchySound_setEnt {i : InputNo} {e : MapEntry} (h : s.HierarchySound)
    (he : e.valid = true → ∃ p, e.point = some p ∧ (s.pt p).kind = .field) : (s.setEnt i e).HierarchySound := by
  refine ⟨h.1, h.2.1, fun j hv => ?_⟩
  rw [State.ent_setEnt] at hv ⊢
  split at hv
  · next hj =>
    rw [if_pos hj]
    exact he hv
  · next hj =>
    rw [if_neg hj]
    exact h.2.2 j hv

theorem hierarchySound_ownSetMap {p : Port} {f : Frame} (h : s.HierarchySound) : (s.ownSetMap p f).HierarchySound := by
  have hr (t : State) (ht : t.HierarchySound) (st : Status) : (t.respond p f st []).HierarchySound :=
    ht.sameShape (.of_apart ((Apart.refl t).respond ..))
  unfold State.ownSetMap
  dsimp only
  split
  · exact hr s h _
  · exact hr _ (hierarchySound_setEnt h fun hv => Bool.noConfusion (show false = true from hv)) _
  · split
    · exact hr s h _
    · next e he =>
      split
      · next hk =>
        refine hr _ (hierarchySound_setEnt h fun _ => ⟨f.point 2, ?_, hk⟩) _
        simp only [Frame.mapEntry, Option.bind_eq_bind, Option.bind_eq_some_iff, Option.pure_def, Option.some.injEq] at he
        obtain ⟨_, -, _, -, _, -, _, -, rfl⟩ := he
        rfl
      · exact hr s h _

end

end Sys2Proof.Machine
end

section
/-! PROOFS. What the Point Engine does in RUN keeps every point up to date (R34, R36). -/

namespace Sys2Proof.Machine

/-- From `s` to `t` the Point Engine's side has moved, no configuration has changed, and in RUN every point that was up to
date is so still. -/
structure Keeps (s t : State) : Prop where
  side : EngineSide s t
  shape : SameShape s t
  upToDate : s.mode = .run → KeepsUpToDate s t

namespace Keeps

variable {s t u : State}

theorem refl (s : State) : Keeps s s := ⟨.refl s, .refl s, fun _ _ => id⟩

theorem trans (h : Keeps s t) (k : Keeps t u) : Keeps s u :=
  ⟨h.side.trans k.side, h.shape.trans k.shape, fun hm x hx => k.upToDate (h.side.mode.trans hm) x (h.upToDate hm x hx)⟩

theorem of_points (h : EngineSide s t) (hp : t.points = s.points) (hm : t.map = s.map) : Keeps s t :=
  ⟨h, .of_points hp hm, fun _ _ => upToDate_congr hp hm⟩

theorem of_apart (h : Apart s t) : Keeps s t := of_points (.of_apart h) h.points h.map

theorem respond (h : Keeps s t) (p : Port) (f : Frame) (st : Status) (r : List Byte) : Keeps s (t.respond p f st r) :=
  h.trans (of_apart ((Apart.refl t).respond ..))

theorem settle (h : Keeps s t) : Keeps s t.settle := h.trans (of_apart (Apart.refl t).settle)

/-- A move that leaves the face of every point, and the map. -/
theorem of_faces {P S : PointNo → Prop} (m : Moves s t P S) (hmap : t.map = s.map) (h : ∀ x, SameFace (s.pt x) (t.pt x)) :
    Keeps s t := by
  refine ⟨.of_moves m, .of_moves m hmap, fun _ x hx => ?_⟩
  exact hx.congr (m.kind x) (h x).quality (h x).condition (fun _ => sameEntries_of_map hmap x) fun _ q _ => h q

end Keeps

/-! ### The operations -/

section
variable {s : State} (c : Claim) (q : PointNo)

theorem keeps_acknowledge (h : s.HierarchySound) (ha : (s.pt q).Acknowledged) : Keeps s (s.acknowledge c q) := by
  have hm : Moves s (s.acknowledge c q) (fun x => s.onChain x Config.maxLinks q = true) (fun _ => False) :=
    moves_acknowledge s c q
  exact ⟨.of_moves hm, .of_latches hm (latchesFall_acknowledge c ha), fun _ => (acknowledge_upToDate c (h.1 q)).2⟩

theorem keeps_resetTo (st : SeqState) : Keeps s (s.resetTo c q st) := by
  have hm : Moves s (s.resetTo c q st) (· = q) (fun _ => False) := moves_resetTo s c q st
  have hmap : (s.resetTo c q st).map = s.map := by
    unfold State.resetTo
    rw [clearFirstMember_map, transition_map]
  refine .of_faces hm hmap fun x => ?_
  by_cases hx : x = q
  · subst hx
    obtain ⟨m, l, hpt⟩ := clearFirstMember_pt (s := s.transition c x .reset st) (p := x) c
    unfold State.resetTo
    rw [hpt, transition_pt_self]
    exact ⟨rfl, rfl, rfl, rfl, rfl⟩
  · rw [hm.off x hx]
    exact .refl _

theorem keeps_reevaluate (h : s.HierarchySound) (cause : Cause) : Keeps s (s.reevaluate c q cause) := by
  have hm : Moves s (s.reevaluate c q cause) _ (fun _ => False) := moves_reevaluate s c q cause
  exact ⟨.of_moves hm, .of_moves hm (reevaluate_map ..), fun _ => (reevaluate_upToDate c cause (h.1 q)).2⟩

theorem keeps_leaveService (h : s.HierarchySound) (cause : Cause) (v : Service) (timer : Option Nat) :
    Keeps s (s.leaveService c q cause v timer) := by
  have hm := moves_leaveService s c q cause v timer
  exact ⟨.of_moves hm, .of_moves hm (leaveService_map ..), fun _ => leaveService_upToDate c cause v timer (h.1 q)⟩

theorem keeps_returnToService (h : s.HierarchySound) (cause : Cause) : Keeps s (s.returnToService c q cause) := by
  have hm := moves_returnToService s c q cause
  exact ⟨.of_moves hm, .of_moves hm (returnToService_map ..), fun _ => returnToService_upToDate c cause (h.1 q)⟩

/-- A change of the service alone, of a point out of service or outside RUN. -/
theorem keeps_setService (cause : Cause) (v : Service) (timer : Option Nat)
    (h : s.mode = .run → (s.pt q).service ≠ .inService ∧ v ≠ .inService) : Keeps s (s.setService c q cause v timer) := by
  have hm := moves_setService s c q cause v timer
  exact ⟨.of_moves hm, .of_moves hm (setService_map ..), fun hrun => keepsUpToDate_setService c q cause v timer (h hrun).1 (h hrun).2⟩

theorem keeps_removePoint (h : s.HierarchySound) : Keeps s (s.removePoint c q) := by
  unfold State.removePoint
  split
  · exact keeps_leaveService c q h ..
  · next hn => exact keeps_setService c q _ _ _ fun hrun => ⟨fun hs => hn ⟨hrun, hs⟩, nofun⟩

theorem keeps_restorePoint (h : s.HierarchySound) : Keeps s (s.restorePoint c q) := by
  unfold State.restorePoint
  split
  · exact keeps_returnToService c q h _
  · next hn => exact keeps_setService c q _ _ _ fun hrun => absurd hrun hn

theorem keeps_shelveExpired (h : s.HierarchySound) : Keeps s (s.shelveExpired q) := by
  unfold State.shelveExpired
  split
  · exact keeps_returnToService _ q h _
  · exact .refl s
  · exact .refl s

/-- A pass over a list, each of whose steps keeps what it finds in a sound state. -/
theorem keeps_foldl {α : Type} {step : State × Nat → α → State × Nat}
    (hstep : ∀ acc a, acc.1.HierarchySound → Keeps acc.1 (step acc a).1) (l : List α) (acc : State × Nat)
    (h : acc.1.HierarchySound) : Keeps acc.1 (l.foldl step acc).1 := by
  induction l generalizing acc with
  | nil => exact .refl _
  | cons a l ih =>
    have hk := hstep acc a h
    exact hk.trans (ih _ (h.sameShape hk.shape))

theorem keeps_offerAck (r : Ring) (acc : State × Nat) (h : acc.1.HierarchySound) : Keeps acc.1 (offerAck c r acc q).1 := by
  unfold offerAck
  split
  · next ha =>
    exact keeps_acknowledge c q h (acknowledgeable_iff.mp (Bool.and_eq_true_iff.mp ha).2)
  · exact .refl _

theorem keeps_offerReset (r : Ring) (acc : State × Nat) : Keeps acc.1 (offerReset c r acc q).1 := by
  unfold offerReset
  split
  · split
    · exact .refl _
    · exact keeps_resetTo c q _
  · exact .refl _

theorem keeps_ackList (h : s.HierarchySound) (r : Ring) (l : List PointNo) : Keeps s (s.ackList c r l).1 :=
  keeps_foldl (fun acc q => keeps_offerAck c q r acc) l (s, 0) h

end

/-! ### The requests -/

section
variable {s : State} (p : Port) (f : Frame)

theorem keeps_answer (s : State) (st : Status) (r : List Byte) : Keeps s (s.respond p f st r) := (Keeps.refl s).respond ..

theorem keeps_ownAckPoint (h : s.HierarchySound) : Keeps s (s.ownAckPoint p f) := by
  unfold State.ownAckPoint
  dsimp only
  split
  · exact keeps_answer ..
  · split
    · next ha => exact (keeps_acknowledge _ _ h (acknowledgeable_iff.mp ha)).respond ..
    · exact keeps_answer ..

theorem keeps_ownAckMembers (h : s.HierarchySound) : Keeps s (s.ownAckMembers p f) := (keeps_ackList _ h ..).respond ..

theorem keeps_ownAckClass (h : s.HierarchySound) : Keeps s (s.ownAckClass p f) := by
  unfold State.ownAckClass
  split
  · exact keeps_answer ..
  · exact (keeps_ackList _ h ..).respond ..

theorem keeps_ownAckAll (h : s.HierarchySound) : Keeps s (s.ownAckAll p f) := (keeps_ackList _ h ..).respond ..

theorem keeps_ownResetPoint : Keeps s (s.ownResetPoint p f) := by
  unfold State.ownResetPoint
  dsimp only
  split
  · exact keeps_answer ..
  · exact (keeps_resetTo ..).respond ..

theorem keeps_ownResetAll (h : s.HierarchySound) : Keeps s (s.ownResetAll p f) :=
  (keeps_foldl (fun acc q _ => keeps_offerReset _ q _ acc) allPoints (s, 0) h).respond ..

theorem keeps_ownShelve (h : s.HierarchySound) : Keeps s (s.ownShelve p f) := by
  unfold State.ownShelve
  dsimp only
  split
  · exact keeps_answer ..
  · split
    · exact keeps_answer ..
    · split
      · exact keeps_answer ..
      · next hs =>
        have hout : (s.pt (f.point 0)).service ≠ .inService := fun he => Service.noConfusion (hs.symm.trans he)
        exact (keeps_setService _ _ _ (.shelved _) _ fun _ => ⟨hout, nofun⟩).respond ..
      · exact (keeps_leaveService _ _ h ..).respond ..

theorem keeps_ownUnshelve (h : s.HierarchySound) : Keeps s (s.ownUnshelve p f) := by
  unfold State.ownUnshelve
  dsimp only
  split
  · exact (keeps_returnToService _ _ h _).respond ..
  · exact keeps_answer ..
  · exact keeps_answer ..

theorem keeps_ownRemove (h : s.HierarchySound) : Keeps s (s.ownRemove p f) := by
  unfold State.ownRemove
  dsimp only
  split
  · exact keeps_answer ..
  · exact (keeps_removePoint _ _ h).respond ..

theorem keeps_ownRestore (h : s.HierarchySound) : Keeps s (s.ownRestore p f) := by
  unfold State.ownRestore
  dsimp only
  split
  · exact (keeps_restorePoint _ _ h).respond ..
  · exact keeps_answer ..

end

/-! ### Change entries -/

section
variable {s : State} {e : ChangeEntry}

/-- A new entry that names the same point, and is a trap entry as the old one was, changes no point's contributions. -/
theorem keeps_setEnt_trap {i : InputNo} {m : MapEntry} (h0 : (s.ent i).trap = true) (ht : m.trap = true)
    (hv : m.valid = (s.ent i).valid) (hp : m.point = (s.ent i).point) : Keeps s (s.setEnt i m) := by
  have hent (j : InputNo) : (s.setEnt i m).ent j = if j = i then m else s.ent j := State.ent_setEnt ..
  have hsame (x : PointNo) : SameEntries s (s.setEnt i m) x := fun j => by
    rw [hent]
    split
    · next e => exact .inr ⟨by simp [MapEntry.contributes, ht], by simp [e, MapEntry.contributes, h0]⟩
    · exact .inl rfl
  refine ⟨⟨rfl⟩, ⟨fun _ => rfl, fun j => ?_⟩, fun _ x hx => hx.congr rfl rfl rfl (fun _ => hsame x) fun _ _ _ => .refl _⟩
  rw [hent]
  split
  · next e => exact e ▸ ⟨hv, hp⟩
  · exact ⟨rfl, rfl⟩

theorem lockInput_points (s : State) : s.lockInput.points = s.points ∧ s.lockInput.map = s.map := by
  unfold State.lockInput
  dsimp only
  split <;> exact ⟨rfl, rfl⟩

theorem keeps_lockInput (s : State) : Keeps s s.lockInput :=
  .of_points (engineSide_lockInput s) (lockInput_points s).1 (lockInput_points s).2

theorem keeps_handleEntry_unmapped (hv : (s.ent e.input).valid = false) : Keeps s (s.handleEntry e) := by
  unfold State.handleEntry
  split
  · rw [handleLevel_of_unmapped hv]
    have h0 : Apart s { s with inputCapture := s.inputLoaded e } := ⟨rfl⟩
    exact (Keeps.of_apart ((h0.append _ _).handOn _)).trans (keeps_lockInput _)
  · rw [handleQuality_of_unmapped hv]
    exact .refl s

theorem keeps_handleEntry_trap (hv : (s.ent e.input).valid = true) (ht : (s.ent e.input).trap = true) :
    Keeps s (s.handleEntry e) := by
  unfold State.handleEntry
  split
  · rw [handleLevel_of_trap hv ht]
    have h0 : Apart s { s with inputCapture := s.inputLoaded e } := ⟨rfl⟩
    refine ((Keeps.of_apart h0).trans ?_).trans (keeps_lockInput _)
    refine Keeps.trans (t := State.setEnt { s with inputCapture := s.inputLoaded e } e.input
      { s.ent e.input with appliedLevel := e.level }) (keeps_setEnt_trap ht ht rfl rfl) ?_
    exact .of_apart (((Apart.refl _).append _ _).handOn _)
  · rw [handleQuality_of_trap hv ht]
    exact keeps_setEnt_trap ht ht rfl rfl

theorem keeps_handleEntry_mapped (h : s.HierarchySound) (hv : (s.ent e.input).valid = true)
    (ht : (s.ent e.input).trap = false) : Keeps s (s.handleEntry e) := by
  obtain ⟨p, hp, -⟩ := h.2.2 e.input hv
  have hpoints := points_entryRecorded (s := s) (e := e)
  have hmap : (s.entryRecorded e).map = (s.setEnt e.input ((s.ent e.input).moved e)).map :=
    (emits_entryRecorded (s := s) (e := e)).map
  have hshape : SameShape s (s.entryRecorded e) := by
    refine ⟨fun x => by rw [pt_congr hpoints], fun i => ?_⟩
    have hi : (s.entryRecorded e).ent i = (s.setEnt e.input ((s.ent e.input).moved e)).ent i := by simp [State.ent, hmap]
    rw [hi, State.ent_setEnt]
    split
    · next hi => exact hi ▸ ⟨rfl, rfl⟩
    · exact ⟨rfl, rfl⟩
  have hhandle := handleEntry_of_valid hv ht hp
  refine ⟨engineSide_handleEntry s e, ?_, fun _ x hx => ?_⟩
  · rw [hhandle]
    split
    · exact hshape.trans (keeps_reevaluate _ _ (h.sameShape hshape) _).shape
    · exact hshape
  · rw [hhandle]
    split
    · obtain ⟨hself, hkeeps⟩ := reevaluate_upToDate (s := s.entryRecorded e) (p := p) e.claim e.cause
        ((h.sameShape hshape).1 p)
      by_cases hxp : x = p
      · rw [hxp]
        exact hself
      · exact hkeeps x (upToDate_entryRecorded hp hxp hx)
    · next hn =>
      have hsame : (s.ent e.input).moved e = s.ent e.input := not_not.mp (mt .inl hn)
      refine upToDate_congr hpoints (hmap.trans ?_) hx
      rw [hsame]
      simp [State.setEnt, State.ent]

theorem keeps_handleEntry (h : s.HierarchySound) (e : ChangeEntry) : Keeps s (s.handleEntry e) := by
  cases hv : (s.ent e.input).valid with
  | false => exact keeps_handleEntry_unmapped hv
  | true =>
    cases ht : (s.ent e.input).trap with
    | true => exact keeps_handleEntry_trap hv ht
    | false => exact keeps_handleEntry_mapped h hv ht

end

end Sys2Proof.Machine
end

section
/-! PROOFS. The points in step with what they are made of, through the initial evaluation (R169 to R171). -/

namespace Sys2Proof.Machine

/-! ### Frames -/

section
variable {s t : State}

theorem evaluated_congr (hp : t.points = s.points) (he : t.evalPos = s.evalPos) : t.evaluated = s.evaluated := by
  unfold State.evaluated
  rw [he, evalOrder_congr hp]

/-- What leaves points, map, mode and evaluation as they are. -/
theorem State.PointsInStep.frame (h : s.PointsInStep) (hr : t.inReset = s.inReset) (hm : t.mode = s.mode)
    (hp : t.points = s.points) (hmap : t.map = s.map) (he : t.evalPos = s.evalPos) : t.PointsInStep := by
  intro hreset
  obtain ⟨h1, h2⟩ := h (hr ▸ hreset)
  refine ⟨fun hrun x => upToDate_congr hp hmap (h1 (hm ▸ hrun) x), fun hst x hx => upToDate_congr hp hmap (h2 (hm ▸ hst) x ?_)⟩
  rw [← evaluated_congr hp he]
  exact hx

theorem State.PointsInStep.fieldSide (h : s.PointsInStep) (k : FieldSide s t) : t.PointsInStep :=
  h.frame k.inReset k.mode k.points k.map k.evalPos

theorem State.PointsInStep.apart (h : s.PointsInStep) (k : Apart s t) : t.PointsInStep := h.fieldSide (.of_apart k)

theorem State.PointsInStep.keeps (h : s.PointsInStep) (k : Keeps s t) (hm : s.mode = .run ∨ s.mode = .config) :
    t.PointsInStep := by
  intro hreset
  have hmode := k.side.mode
  refine ⟨fun hrun x => ?_, fun hst => ?_⟩
  · have hrun' := hmode.symm.trans hrun
    exact k.upToDate hrun' x ((h (k.side.inReset ▸ hreset)).1 hrun' x)
  · have hst' := hmode.symm.trans hst
    obtain hm | hm := hm <;> cases hm.symm.trans hst'

theorem pointsInStep_of_config (h : s.mode = .config) : s.PointsInStep := fun _ =>
  ⟨fun hrun => (nomatch h.symm.trans hrun), fun hst => (nomatch h.symm.trans hst)⟩

end

/-! ### The order of evaluation -/

section
variable {s t : State}

theorem evalOrder_of_shape (h : SameShape s t) : t.evalOrder = s.evalOrder := by
  unfold State.evalOrder
  simp only [h.kind, depth_of_parent h.parent]

/-- The evaluation position that follows `p` has `p`, and what is before it, behind it. -/
theorem mem_before_nextAfter {p : PointNo} {l : List PointNo} (hn : l.Nodup) {x : PointNo}
    (hx : x ∈ match nextAfter p l with
      | none => l
      | some y => l.takeWhile (· ≠ y)) : x ∈ l.takeWhile (· ≠ p) ∨ x = p := by
  induction l with
  | nil => cases hx
  | cons a l ih =>
    rw [List.nodup_cons] at hn
    unfold nextAfter at hx
    by_cases ha : a = p
    · subst ha
      rw [if_pos rfl] at hx
      cases l with
      | nil => exact .inr (List.mem_singleton.mp hx)
      | cons y l =>
        have hne : a ≠ y := fun e => hn.1 (e ▸ List.mem_cons_self)
        simp [hne] at hx
        exact .inr hx
    · rw [if_neg ha] at hx
      rw [List.takeWhile_cons_of_pos (by simpa using ha)]
      cases hnext : nextAfter p l with
      | none =>
        rw [hnext] at hx ih
        obtain rfl | hx := List.mem_cons.mp hx
        · exact .inl List.mem_cons_self
        · exact (ih hn.2 hx).imp_left (List.mem_cons_of_mem _)
      | some y =>
        rw [hnext] at hx ih
        dsimp only at hx
        by_cases hay : a = y
        · rw [List.takeWhile_cons_of_neg (by simpa using hay)] at hx
          cases hx
        · rw [List.takeWhile_cons_of_pos (by simpa using hay)] at hx
          obtain rfl | hx := List.mem_cons.mp hx
          · exact .inl List.mem_cons_self
          · exact (ih hn.2 hx).imp_left (List.mem_cons_of_mem _)

theorem before_of_mem_takeWhile {p x : PointNo} {l : List PointNo} {R : PointNo → PointNo → Prop} (hl : l.Pairwise R)
    (hp : p ∈ l) (hx : x ∈ l.takeWhile (· ≠ p)) : R x p := by
  have hsplit := List.takeWhile_append_dropWhile (p := fun y : PointNo => decide (y ≠ p)) (l := l)
  rw [← hsplit] at hl hp
  obtain hp | hp := List.mem_append.mp hp
  · have := List.mem_takeWhile_imp hp
    simp at this
  · exact (List.pairwise_append.mp hl).2.2 x hx p hp

theorem depth_succ_of_le {n : Nat} {p : PointNo} (h : s.depth (n + 1) p ≤ n) : s.depth (n + 1) p = s.depth n p := by
  induction n generalizing p with
  | zero => exact Nat.le_zero.mp h
  | succ n ih =>
    rw [State.depth] at h
    rw [State.depth, State.depth]
    cases hg : (s.pt p).parent with
    | none => rfl
    | some g =>
      rw [hg] at h
      exact congrArg (· + 1) (ih (Nat.le_of_succ_le_succ h))

/-- A child is evaluated before its parent (R169). -/
theorem not_evaluatedBefore_child (h : s.HierarchySound) {x p : PointNo} (hk : (s.pt x).kind = .group)
    (hp : (s.pt p).parent = some x) : ¬ s.EvaluatedBefore x p := by
  unfold State.EvaluatedBefore
  rw [if_pos hk]
  have h4 := h.1 p
  have hd : s.depth 4 p = s.depth 3 x + 1 := by rw [State.depth, hp]
  have h3 : s.depth 3 p = s.depth 4 p := (depth_succ_of_le h4).symm
  omega

end

/-! ### One evaluation -/

section
variable {s : State} {p : PointNo}

/-- The point after its evaluation, and the rest as it was. -/
theorem startPoint_kept (q : PointQuality) (cond : Condition) :
    Moves s (s.startPoint p q cond) (· = p) (fun _ => False) ∧ (s.startPoint p q cond).map = s.map
      ∧ ((s.startPoint p q cond).pt p).quality = q ∧ ((s.startPoint p q cond).pt p).condition = cond := by
  have hm : Moves s (s.formedAtStart p q cond) (· = p) (fun _ => False) := moves_formedAtStart q cond
  have hmap : (s.formedAtStart p q cond).map = s.map := recordQuality_map ..
  have hpt := formedAtStart_pt (s := s) (p := p) q cond
  rw [startPoint_eq]
  split
  · refine ⟨hm.trans (moves_transition ..), (transition_map ..).trans hmap, ?_, ?_⟩
    · rw [transition_pt_self, hpt]
    · rw [transition_pt_self, hpt]
  · refine ⟨hm, hmap, ?_, ?_⟩
    · rw [hpt]
    · rw [hpt]

theorem loaded_points (s : State) (p : PointNo) : (s.loaded p).points = s.points := by
  have e := congrArg State.points (loaded_eq s p)
  exact e

theorem sameShape_evaluatePoint : SameShape s (s.evaluatePoint p) := by
  rw [evaluatePoint_eq]
  obtain ⟨hm, hmap, -, -⟩ := startPoint_kept (s := s.loaded p) (p := p) (s.startQuality p) (s.startCondition p)
  refine ⟨fun x => (hm.config x).trans (by rw [pt_congr (loaded_points s p)]), fun i => ?_⟩
  obtain ⟨h1, h2⟩ := SameShape.entry_of_map hmap i
  rw [h1, h2, ent_loaded]
  split <;> exact ⟨rfl, rfl⟩

theorem upToDate_evaluatePoint_self (h : s.HierarchySound) : (s.evaluatePoint p).UpToDate p := by
  rw [evaluatePoint_eq]
  obtain ⟨hm, hmap, hq, hc⟩ := startPoint_kept (s := s.loaded p) (p := p) (s.startQuality p) (s.startCondition p)
  have hpt := pt_congr (loaded_points s p)
  unfold State.UpToDate
  rw [hq, hc, hm.kind, hpt, fieldQuality_congr hmap, fieldCondition_congr hmap]
  unfold State.startQuality State.startCondition
  cases hk : (s.pt p).kind with
  | spare => trivial
  | field => exact ⟨rfl, fun _ => rfl⟩
  | group =>
    have hgroup := group_congr (s := s)
      (t := (s.loaded p).startPoint p (s.startQuality p) (s.startCondition p)) (x := p) fun y hy => by
        rw [hm.parent, hpt, or_self] at hy
        have hne : y ≠ p := fun e => h.parent_ne p (e ▸ hy)
        rw [hm.off y hne, hpt]
        exact .refl _
    unfold State.startQuality State.startCondition at hgroup
    rw [hk] at hgroup
    exact ⟨hgroup.1.symm, hgroup.2.symm⟩

/-- A point evaluated before stays up to date: the point evaluated now is no child of it. -/
theorem upToDate_evaluatePoint_of_before {x : PointNo} (hx : x ≠ p) (hp : (s.pt x).kind = .group → (s.pt p).parent ≠ some x)
    (hu : s.UpToDate x) : (s.evaluatePoint p).UpToDate x := by
  rw [evaluatePoint_eq]
  obtain ⟨hm, hmap, -, -⟩ := startPoint_kept (s := s.loaded p) (p := p) (s.startQuality p) (s.startCondition p)
  have hpt := pt_congr (loaded_points s p)
  have hoff (y : PointNo) (hy : y ≠ p) :
      ((s.loaded p).startPoint p (s.startQuality p) (s.startCondition p)).pt y = s.pt y := (hm.off y hy).trans (hpt y)
  refine hu.congr ?_ ?_ ?_ (fun _ i => ?_) fun hk y hy => ?_
  · rw [hoff x hx]
  · rw [hoff x hx]
  · rw [hoff x hx]
  · have hi : ((s.loaded p).startPoint p (s.startQuality p) (s.startCondition p)).ent i = (s.loaded p).ent i := by
      simp only [State.ent, hmap]
    rw [hi, ent_loaded]
    split
    · next hn =>
      have hne : (some p == some x) = false := beq_eq_false_iff_ne.mpr fun e => hx (Option.some.inj e).symm
      refine .inr ⟨?_, ?_⟩ <;> simp [MapEntry.contributes, MapEntry.names, MapEntry.load, hn.2.2, hne]
    · exact .inl rfl
  · rw [hm.parent, hpt, or_self] at hy
    rw [hoff y fun e => hp hk (e ▸ hy)]
    exact .refl _

/-- The evaluation of the point at the evaluation position (R170, R171). -/
theorem pointsInStep_evaluated (h : s.HierarchySound) (hs : s.PointsInStep) (hr : s.inReset = false) (hm : s.mode = .starting)
    (he : s.evalPos = some p) :
    ({ s.evaluatePoint p with evalPos := nextAfter p s.evalOrder } : State).PointsInStep := by
  have hside := engineSide_evaluatePoint s p
  have hbefore := (hs hr).2 hm
  have horder : (s.evaluatePoint p).evalOrder = s.evalOrder := evalOrder_of_shape sameShape_evaluatePoint
  intro _
  refine ⟨fun hrun => ?_, fun _ x hx => ?_⟩
  · cases (hside.mode.trans hm).symm.trans hrun
  · have hx' : x ∈ match nextAfter p s.evalOrder with
        | none => s.evalOrder
        | some y => s.evalOrder.takeWhile (· ≠ y) := by
      unfold State.evaluated at hx
      dsimp only at hx
      rw [show ({ s.evaluatePoint p with evalPos := nextAfter p s.evalOrder } : State).evalOrder = s.evalOrder from horder] at hx
      exact hx
    have hnodup : s.evalOrder.Nodup := (pairwise_evalOrder s).imp EvaluatedBefore.ne
    refine upToDate_congr (s := s.evaluatePoint p) rfl rfl ?_
    obtain hx' | rfl := mem_before_nextAfter hnodup hx'
    · have hbef := before_of_mem_takeWhile (pairwise_evalOrder s) (mem_evalOrder s p) hx'
      refine upToDate_evaluatePoint_of_before (EvaluatedBefore.ne hbef) (fun hk hp => not_evaluatedBefore_child h hk hp hbef) (hbefore x ?_)
      unfold State.evaluated
      rw [he]
      exact hx'
    · exact upToDate_evaluatePoint_self h

end

end Sys2Proof.Machine
end

section
/-! PROOFS. Every step keeps the hierarchy sound and the points in step (R38, R171, R174). -/

namespace Sys2Proof.Machine

/-! ### Frames of the commands that are no request -/

section
variable {s t : State}

/-- The entry at the head of the queue is taken in RUN, its place freed, and the entry discarded or handled. -/
theorem takeEntry_handles (kind : EntryKind) {handle : ChangeEntry → State → State}
    (hh : ∀ e u, e.kind = kind → handle e u = u.handleEntry e) :
    s.takeEntry kind handle = s ∨ s.mode = .run ∧ ∃ e rest,
      s.takeEntry kind handle = (if s.unfitted e.input then s.freed rest else (s.freed rest).handleEntry e).settle := by
  unfold State.takeEntry State.freed
  split
  · exact .inl rfl
  · next e rest hq =>
    split
    · next h => exact .inr ⟨h.1, e, rest, by dsimp only; rw [hh e _ h.2]⟩
    · exact .inl rfl

theorem keeps_takeEntry (h : s.HierarchySound) (kind : EntryKind) {handle : ChangeEntry → State → State}
    (hh : ∀ e u, e.kind = kind → handle e u = u.handleEntry e) :
    s.takeEntry kind handle = s ∨ s.mode = .run ∧ ∃ u, u.mode = .run ∧ u.inReset = s.inReset ∧ u.engineClaim = s.engineClaim
      ∧ u.points = s.points ∧ u.map = s.map ∧ Keeps u (s.takeEntry kind handle) := by
  obtain e | ⟨hm, e, rest, ht⟩ := takeEntry_handles (s := s) kind hh
  · exact .inl e
  obtain ⟨more, hf⟩ := freed_eq s rest
  obtain ⟨u, hu⟩ : ∃ u, u = s.freed rest := ⟨_, rfl⟩
  rw [← hu] at hf ht
  have hpoints : u.points = s.points := by have e := congrArg State.points hf; exact e
  have hmap : u.map = s.map := by have e := congrArg State.map hf; exact e
  refine .inr ⟨hm, u, ?_, ?_, ?_, hpoints, hmap, ?_⟩
  · have e := congrArg State.mode hf
    exact e.trans hm
  · have e := congrArg State.inReset hf
    exact e
  · have e := congrArg State.engineClaim hf
    exact e
  · rw [ht]
    have hsound : u.HierarchySound := h.sameShape (.of_points hpoints hmap)
    by_cases hun : s.unfitted e.input = true
    · rw [if_pos hun]
      exact (Keeps.refl u).settle
    · rw [if_neg hun]
      exact (keeps_handleEntry hsound e).settle

theorem handle_level (e : ChangeEntry) (u : State) (h : e.kind = .level) : u.handleLevel e = u.handleEntry e := (if_pos h).symm

theorem handle_quality (e : ChangeEntry) (u : State) (h : e.kind = .quality) : u.handleQuality e = u.handleEntry e :=
  (if_neg (by rw [h]; nofun)).symm

/-- The passing of time touches of the points the shelve timers alone. -/
theorem passTime_points (s : State) (n : Nat) : (s.passTime n).map = s.map ∧
    ∀ x, ∃ v, (s.passTime n).pt x = { s.pt x with shelveTimer := v } :=
  ⟨rfl, fun x => ⟨_, by simp [State.passTime, State.runTimers, State.setClock, State.pt]; rfl⟩⟩

theorem sameShape_passTime (s : State) (n : Nat) : SameShape s (s.passTime n) := by
  obtain ⟨hmap, hpt⟩ := passTime_points s n
  refine ⟨fun x => ?_, SameShape.entry_of_map hmap⟩
  obtain ⟨v, hv⟩ := hpt x
  rw [hv]
  rfl

theorem upToDate_passTime (n : Nat) {x : PointNo} (h : s.UpToDate x) : (s.passTime n).UpToDate x := by
  obtain ⟨hmap, hpt⟩ := passTime_points s n
  have hface (y : PointNo) : SameFace (s.pt y) ((s.passTime n).pt y) := by
    obtain ⟨v, hv⟩ := hpt y
    rw [hv]
    exact ⟨rfl, rfl, rfl, rfl, rfl⟩
  exact h.congr (hface x).kind (hface x).quality (hface x).condition (fun _ => sameEntries_of_map hmap x) fun _ y _ => hface y

theorem pointsInStep_passTime (h : s.PointsInStep) (n : Nat) : (s.passTime n).PointsInStep := by
  intro hr
  obtain ⟨h1, h2⟩ := h hr
  refine ⟨fun hm x => upToDate_passTime n (h1 hm x), fun hm x hx => upToDate_passTime n (h2 hm x ?_)⟩
  have horder : (s.passTime n).evalOrder = s.evalOrder := evalOrder_of_shape (sameShape_passTime s n)
  unfold State.evaluated at hx ⊢
  rw [horder] at hx
  exact hx

theorem sameShape_quietPoints (s : State) : SameShape s s.quietPoints :=
  ⟨fun x => by simp [State.quietPoints, State.pt, PointRec.quiet, PointRec.config],
    fun i => by simp [State.quietPoints, State.ent]⟩

theorem hierarchySound_powerOn (levels : Vector Level 64) (rate : Bool) (l : List Instr) :
    ({ State.powerOn levels rate with pending := l } : State).HierarchySound :=
  hierarchySound_of_blank (fun p => by simp [State.powerOn, State.pt, PointRec.powerOn])
    fun i => by simp [State.powerOn, State.ent, MapEntry.powerOn]

theorem sameShape_resetLow (s : State) : SameShape s s.resetLow :=
  ⟨fun x => by simp [State.resetLow, State.pt, PointRec.config], fun _ => ⟨rfl, rfl⟩⟩

theorem sameShape_startRun_respond (s : State) (p : Port) (f : Frame) (a b : Bool) :
    SameShape s (((s.startRun p a b).respond p f .ok []).beginEvaluation) := by
  have h := (apart_startRun s p a b).respond p f .ok []
  obtain ⟨u, hu⟩ : ∃ u, u = (s.startRun p a b).respond p f .ok [] := ⟨_, rfl⟩
  rw [← hu] at h ⊢
  have hp : u.points = s.points := h.points
  have hm : u.map = s.map := h.map
  exact .of_points (t := u.beginEvaluation) hp hm

end

/-! ### The hierarchy -/

section
variable {s : State}

theorem hierarchySound_runRequest (hs : s.HierarchySound) (p : Port) {k : ReqKind} {form : Frame → Bool}
    {owner : Frame → State → State} (ho : ∀ f u, u.HierarchySound → (owner f u).HierarchySound) :
    (s.runRequest p k form owner).HierarchySound :=
  runRequest_keeps (fun _ _ hd h => h.sameShape (.of_apart (.of_decodes hd)))
    (fun u h => h.sameShape (.of_apart (Apart.refl u).settle)) (fun f u _ _ h => ho f u h) hs p form

theorem hierarchySound_live {f : State → State} (hs : s.HierarchySound) (h : (f s).HierarchySound) :
    (s.live f).HierarchySound := by
  unfold State.live
  split
  · exact hs
  · exact h

theorem hierarchySound_keeps {k : ReqKind} {owner : Frame → State → State} (hs : s.HierarchySound) (p : Port)
    (form : Frame → Bool) (ho : ∀ f u, u.HierarchySound → Keeps u (owner f u)) :
    (s.live fun s => s.runRequest p k form owner).HierarchySound :=
  hierarchySound_live hs (hierarchySound_runRequest hs p fun f u h => h.sameShape (ho f u h).shape)

theorem hierarchySound_exec_engineSide {c : Instr} (hc : atEngineSide c = true) {t : State} (hs : s.HierarchySound)
    (h : exec c s = .next t) : t.HierarchySound := by
  cases c
  case setPoint p =>
    cases h
    exact hierarchySound_live hs (hierarchySound_runRequest hs p fun f u => hierarchySound_ownSetPoint)
  case setMap p =>
    cases h
    exact hierarchySound_live hs (hierarchySound_runRequest hs p fun f u => hierarchySound_ownSetMap)
  case ackPoint p => cases h; exact hierarchySound_keeps hs p _ fun f u => keeps_ownAckPoint p f
  case ackPointMembers p => cases h; exact hierarchySound_keeps hs p _ fun f u => keeps_ownAckMembers p f
  case ackClass p => cases h; exact hierarchySound_keeps hs p _ fun f u => keeps_ownAckClass p f
  case ackAll p => cases h; exact hierarchySound_keeps hs p _ fun f u => keeps_ownAckAll p f
  case resetPoint p => cases h; exact hierarchySound_keeps hs p _ fun f u _ => keeps_ownResetPoint p f
  case resetAll p => cases h; exact hierarchySound_keeps hs p _ fun f u => keeps_ownResetAll p f
  case shelve p => cases h; exact hierarchySound_keeps hs p _ fun f u => keeps_ownShelve p f
  case unshelve p => cases h; exact hierarchySound_keeps hs p _ fun f u => keeps_ownUnshelve p f
  case remove p => cases h; exact hierarchySound_keeps hs p _ fun f u => keeps_ownRemove p f
  case restore p => cases h; exact hierarchySound_keeps hs p _ fun f u => keeps_ownRestore p f
  case shelveExpiry q =>
    cases h
    refine hierarchySound_live hs ?_
    split
    · exact hs.sameShape (keeps_shelveExpired q hs).settle.shape
    · exact hs
  all_goals cases hc

theorem sameShape_evaluateNext (g : Bool) : SameShape s (s.evaluateNext g) := by
  unfold State.evaluateNext
  split
  · exact .refl s
  · next p _ =>
    split
    · have h : SameShape s { s.evaluatePoint p with evalPos := nextAfter p s.evalOrder } :=
        (sameShape_evaluatePoint (s := s) (p := p)).trans (.of_points rfl rfl)
      exact h.trans (.of_apart (Apart.refl _).settle)
    · exact .refl s

theorem sameShape_takeEntry (h : s.HierarchySound) (kind : EntryKind) {handle : ChangeEntry → State → State}
    (hh : ∀ e u, e.kind = kind → handle e u = u.handleEntry e) : SameShape s (s.takeEntry kind handle) := by
  obtain e | ⟨-, u, -, -, -, hp, hm, hk⟩ := keeps_takeEntry h kind hh
  · rw [e]
    exact .refl s
  · exact (SameShape.of_points hp hm).trans hk.shape

theorem sameShape_ownEnterRun (p : Port) (f : Frame) : SameShape s (s.ownEnterRun p f) := by
  have hr (st : Status) (r : List Byte) : SameShape s (s.respond p f st r) := .of_apart ((Apart.refl s).respond ..)
  unfold State.ownEnterRun
  split
  · exact hr ..
  · split
    · exact hr ..
    · exact sameShape_startRun_respond ..

theorem sameShape_restartRun (p : Port) (f : Frame) : SameShape s (s.restartRun p f) := by
  unfold State.restartRun
  split
  · exact sameShape_startRun_respond ..
  · exact .of_apart ((Apart.refl s).respond ..)

theorem sameShape_ownRestart (p : Port) (f : Frame) : SameShape s (s.ownRestart p f) := by
  obtain ⟨t, h1, h2⟩ := fieldSide_restart s p f
  have hleave : SameShape t (t.leaveRun p true) := .of_points rfl rfl
  exact (SameShape.of_fieldSide h1).trans (hleave.trans (.of_fieldSide h2))

theorem hierarchySound_exec {c : Instr} {t : State} (hs : s.HierarchySound) (h : exec c s = .next t) : t.HierarchySound := by
  by_cases ha : keepsApart c = true
  · obtain ⟨t', h', ht⟩ := exec_apart ha s
    cases h.symm.trans h'
    exact hs.sameShape (.of_apart ht)
  by_cases hf : atFieldSide c = true
  · obtain ⟨t', h', ht⟩ := exec_fieldSide hf s
    cases h.symm.trans h'
    exact hs.sameShape (.of_fieldSide ht)
  by_cases he : atEngineSide c = true
  · exact hierarchySound_exec_engineSide he hs h
  have hrest : (keepsApart c || atFieldSide c || atEngineSide c) = false := by simp [ha, hf, he]
  cases c
  case powerOn l r => cases h; exact hierarchySound_powerOn l r _
  case resetNLow => cases h; exact hs.sameShape (sameShape_resetLow s)
  case timebaseMillisecond n => cases h; exact hierarchySound_live hs (hs.sameShape (sameShape_passTime s n))
  case levelEntry => cases h; exact hierarchySound_live hs (hs.sameShape (sameShape_takeEntry hs _ handle_level))
  case qualityEntry => cases h; exact hierarchySound_live hs (hs.sameShape (sameShape_takeEntry hs _ handle_quality))
  case enterRun p =>
    cases h
    refine hierarchySound_live hs ?_
    split
    · exact hs.sameShape ((sameShape_restartRun p _).trans (.of_apart (Apart.refl _).settle))
    · exact hierarchySound_runRequest hs p fun f u hu => hu.sameShape (sameShape_ownEnterRun p f)
  case fieldPointEvaluation => cases h; exact hierarchySound_live hs (hs.sameShape (sameShape_evaluateNext _))
  case groupPointEvaluation => cases h; exact hierarchySound_live hs (hs.sameShape (sameShape_evaluateNext _))
  case endOfInitialEvaluation =>
    cases h
    refine hierarchySound_live hs ?_
    split
    · have hend := (apart_endEvaluation s).settle
      exact hs.sameShape (.of_points hend.points hend.map)
    · exact hs
  case enterConfig p =>
    cases h
    exact hierarchySound_live hs (hierarchySound_runRequest hs p fun f u hu => hu.sameShape (.of_points rfl rfl))
  case enterConfigEngineClaim =>
    cases h
    refine hierarchySound_live hs ?_
    split
    · exact hs
    · next c _ =>
      have hquiet := (SameShape.of_points (s := s) (t := { s with engineClaim := none }) rfl rfl).trans
        (sameShape_quietPoints _)
      exact hs.sameShape (hquiet.trans (.of_apart (apart_takeEngineClaim s c).settle))
  case restart p =>
    cases h
    exact hierarchySound_live hs (hierarchySound_runRequest hs p fun f u hu => hu.sameShape (sameShape_ownRestart p f))
  all_goals cases hrest

end

end Sys2Proof.Machine
end

section
/-! PROOFS. Every step keeps the points in step with what they are made of (R8, R31, R34, R171, R174). -/

namespace Sys2Proof.Machine

/-! ### The claim that waits -/

section
variable {s t : State}

theorem State.ClaimInConfig.frame (h : s.ClaimInConfig) (hm : t.mode = s.mode) (hc : t.engineClaim = s.engineClaim) :
    t.ClaimInConfig := fun ht => hm.trans (h (hc ▸ ht))

theorem claimInConfig_of_config (h : s.mode = .config) : s.ClaimInConfig := fun _ => h

theorem claimInConfig_of_none (h : s.engineClaim = none) : s.ClaimInConfig := fun hc => absurd h hc

theorem State.ClaimInConfig.apart (h : s.ClaimInConfig) (k : Apart s t) : t.ClaimInConfig := h.frame k.mode k.engineClaim

theorem State.ClaimInConfig.engineSide (h : s.ClaimInConfig) (k : EngineSide s t) : t.ClaimInConfig :=
  h.frame k.mode k.engineClaim

theorem claimInConfig_runRequest (hs : s.ClaimInConfig) (p : Port) {k : ReqKind} {form : Frame → Bool}
    {owner : Frame → State → State}
    (ho : ∀ f u, (k.waitsForEngine = true → u.engineClaim = none) → u.ClaimInConfig → (owner f u).ClaimInConfig) :
    (s.runRequest p k form owner).ClaimInConfig :=
  runRequest_keeps (fun _ _ hd h => h.apart (.of_decodes hd)) (fun u h => h.apart (Apart.refl u).settle)
    (fun f u _ hw h => ho f u hw h) hs p form

theorem claimInConfig_live {f : State → State} (hs : s.ClaimInConfig) (h : (f s).ClaimInConfig) :
    (s.live f).ClaimInConfig := by
  unfold State.live
  split
  · exact hs
  · exact h

theorem engineClaim_startRun_respond (s : State) (p : Port) (f : Frame) (a b : Bool) :
    (((s.startRun p a b).respond p f .ok []).beginEvaluation).engineClaim = s.engineClaim := by
  have h := (apart_startRun s p a b).respond p f .ok []
  obtain ⟨u, hu⟩ : ∃ u, u = (s.startRun p a b).respond p f .ok [] := ⟨_, rfl⟩
  rw [← hu] at h ⊢
  exact h.engineClaim

theorem claimInConfig_ownEnterRun (p : Port) (f : Frame) (h : s.engineClaim = none) : (s.ownEnterRun p f).ClaimInConfig := by
  refine claimInConfig_of_none ?_
  unfold State.ownEnterRun
  split
  · rw [((Apart.refl s).respond ..).engineClaim, h]
  · split
    · rw [((Apart.refl s).respond ..).engineClaim, h]
    · rw [engineClaim_startRun_respond, h]

theorem claimInConfig_restartRun (p : Port) (f : Frame) (h : s.engineClaim = none) : (s.restartRun p f).ClaimInConfig := by
  refine claimInConfig_of_none ?_
  unfold State.restartRun
  split
  · rw [engineClaim_startRun_respond, h]
  · rw [((Apart.refl s).respond ..).engineClaim, h]

theorem engineClaim_of_restartDue {p : Port} {f : Frame} (h : s.restartDue p = some f) : s.engineClaim = none := by
  unfold State.restartDue at h
  split at h
  · cases h
  · split at h
    · next hc => exact hc.2
    · cases h

theorem engineSide_evaluateNext (g : Bool) :
    (s.evaluateNext g).mode = s.mode ∧ (s.evaluateNext g).engineClaim = s.engineClaim
      ∧ (s.evaluateNext g).inReset = s.inReset := by
  unfold State.evaluateNext
  split
  · exact ⟨rfl, rfl, rfl⟩
  · next p _ =>
    split
    · have h := engineSide_evaluatePoint s p
      have hs := (Apart.refl ({ s.evaluatePoint p with evalPos := nextAfter p s.evalOrder } : State)).settle
      exact ⟨hs.mode.trans h.mode, hs.engineClaim.trans h.engineClaim, hs.inReset.trans h.inReset⟩
    · exact ⟨rfl, rfl, rfl⟩

theorem claimInConfig_takeEntry (h : s.HierarchySound) (hs : s.ClaimInConfig) (kind : EntryKind)
    {handle : ChangeEntry → State → State} (hh : ∀ e u, e.kind = kind → handle e u = u.handleEntry e) :
    (s.takeEntry kind handle).ClaimInConfig := by
  obtain e | ⟨hm, u, hum, -, huc, -, -, hk⟩ := keeps_takeEntry h kind hh
  · rw [e]
    exact hs
  · exact hs.frame (hk.side.mode.trans (hum.trans hm.symm)) (hk.side.engineClaim.trans huc)

theorem mode_ownRestart (p : Port) (f : Frame) : (s.ownRestart p f).mode = .config := by
  obtain ⟨t, -, h2⟩ := fieldSide_restart s p f
  exact h2.mode

theorem claimInConfig_exec {c : Instr} (hh : s.HierarchySound) (hs : s.ClaimInConfig) (h : exec c s = .next t) :
    t.ClaimInConfig := by
  by_cases ha : keepsApart c = true
  · obtain ⟨t', h', ht⟩ := exec_apart ha s
    cases h.symm.trans h'
    exact hs.apart ht
  by_cases hf : atFieldSide c = true
  · obtain ⟨t', h', ht⟩ := exec_fieldSide hf s
    cases h.symm.trans h'
    exact hs.frame ht.mode ht.engineClaim
  by_cases he : atEngineSide c = true
  · obtain ⟨t', h', ht⟩ := exec_engineSide he s
    cases h.symm.trans h'
    exact hs.engineSide ht
  have hrest : (keepsApart c || atFieldSide c || atEngineSide c) = false := by simp [ha, hf, he]
  cases c
  case powerOn l r => cases h; exact claimInConfig_of_config rfl
  case resetNLow => cases h; exact claimInConfig_of_none rfl
  case timebaseMillisecond n => cases h; exact claimInConfig_live hs (hs.frame rfl rfl)
  case levelEntry => cases h; exact claimInConfig_live hs (claimInConfig_takeEntry hh hs _ handle_level)
  case qualityEntry => cases h; exact claimInConfig_live hs (claimInConfig_takeEntry hh hs _ handle_quality)
  case enterRun p =>
    cases h
    refine claimInConfig_live hs ?_
    split
    · next f hd => exact (claimInConfig_restartRun p f (engineClaim_of_restartDue hd)).apart (Apart.refl _).settle
    · exact claimInConfig_runRequest hs p fun f u hw _ => claimInConfig_ownEnterRun p f (hw rfl)
  case fieldPointEvaluation =>
    cases h
    obtain ⟨h1, h2, -⟩ := engineSide_evaluateNext (s := s) false
    exact claimInConfig_live hs (hs.frame h1 h2)
  case groupPointEvaluation =>
    cases h
    obtain ⟨h1, h2, -⟩ := engineSide_evaluateNext (s := s) true
    exact claimInConfig_live hs (hs.frame h1 h2)
  case endOfInitialEvaluation =>
    cases h
    refine claimInConfig_live hs ?_
    split
    · next hm =>
      have hnone : s.engineClaim = none := by
        by_contra hc
        cases (hs hc).symm.trans hm.1
      have hend := (apart_endEvaluation s).settle.engineClaim
      exact claimInConfig_of_none (hend.trans hnone)
    · exact hs
  case enterConfig p =>
    cases h
    exact claimInConfig_live hs (claimInConfig_runRequest hs p fun f u _ _ => claimInConfig_of_config rfl)
  case enterConfigEngineClaim =>
    cases h
    refine claimInConfig_live hs ?_
    split
    · exact hs
    · next c _ => exact claimInConfig_of_none (apart_takeEngineClaim s c).settle.engineClaim
  case restart p =>
    cases h
    exact claimInConfig_live hs (claimInConfig_runRequest hs p fun f u _ _ => claimInConfig_of_config (mode_ownRestart p f))
  all_goals cases hrest

end

/-! ### The points in step -/

/-- What every step keeps of the hierarchy and of the points. -/
structure InStep (s : State) : Prop where
  hierarchy : s.HierarchySound
  points : s.PointsInStep

section
variable {s t : State}

theorem InStep.apart (h : InStep s) (k : Apart s t) : InStep t := ⟨h.hierarchy.sameShape (.of_apart k), h.points.apart k⟩

theorem pointsInStep_runRequest (hs : InStep s) (p : Port) {k : ReqKind} {form : Frame → Bool}
    {owner : Frame → State → State} (ho : ∀ f u, u.modeOk k f = true → InStep u → InStep (owner f u)) :
    (s.runRequest p k form owner).PointsInStep :=
  (runRequest_keeps (I := InStep) (fun _ _ hd h => h.apart (.of_decodes hd)) (fun u h => h.apart (Apart.refl u).settle)
    (fun f u hm _ h => ho f u hm h) hs p form).points

theorem pointsInStep_live {f : State → State} (hs : InStep s) (h : (f s).PointsInStep) : (s.live f).PointsInStep := by
  unfold State.live
  split
  · exact hs.points
  · exact h

theorem mode_of_modeOk {k : ReqKind} {f : Frame} (hk : k.modeRule .starting = false) (hm : s.modeOk k f = true) :
    s.mode = .run ∨ s.mode = .config := by
  unfold State.modeOk at hm
  cases hs : s.mode with
  | run => exact .inl rfl
  | config => exact .inr rfl
  | starting =>
    rw [hs, hk] at hm
    cases hm

theorem pointsInStep_keeps {k : ReqKind} {owner : Frame → State → State} (hk : k.modeRule .starting = false)
    (hs : InStep s) (p : Port) (form : Frame → Bool) (ho : ∀ f u, u.HierarchySound → Keeps u (owner f u)) :
    (s.live fun s => s.runRequest p k form owner).PointsInStep :=
  pointsInStep_live hs (pointsInStep_runRequest hs p fun f u hm h =>
    ⟨h.hierarchy.sameShape (ho f u h.hierarchy).shape, h.points.keeps (ho f u h.hierarchy) (mode_of_modeOk hk hm)⟩)

/-- A SET_POINT that stores in RUN leaves kind and parent as they are (R25). -/
theorem samePoint_config {f : Frame} {c : PointConfig} (hc : f.pointConfig = some c) (h : s.samePoint f = true) :
    c.kind = (s.pt (f.point 0)).kind ∧ c.parent = (s.pt (f.point 0)).parent := by
  simp only [Frame.pointConfig, Option.bind_eq_bind, Option.bind_eq_some_iff, Option.pure_def, Option.some.injEq] at hc
  obtain ⟨kind, hkind, type, -, cls, -, subs, -, ring, -, parent, hparent, first, -, rfl⟩ := hc
  simp only [State.samePoint, Bool.and_eq_true, beq_iff_eq] at h
  obtain ⟨⟨⟨h1, -⟩, h2⟩, -⟩ := h
  exact ⟨Option.some.inj (hkind.symm.trans h1), Option.some.inj (hparent.symm.trans h2)⟩

theorem keepsUpToDate_configured {q : PointNo} {c : PointConfig} (hk : c.kind = (s.pt q).kind)
    (hp : c.parent = (s.pt q).parent) : KeepsUpToDate s (s.setPt q ((s.pt q).configured c)) := by
  have hface (x : PointNo) : SameFace (s.pt x) ((s.setPt q ((s.pt q).configured c)).pt x) := by
    rw [State.pt_setPt]
    split
    · next e =>
      rw [e]
      exact ⟨hk, hp, rfl, rfl, rfl⟩
    · exact .refl _
  exact fun x hx => hx.congr (hface x).kind (hface x).quality (hface x).condition (fun _ _ => .inl rfl) fun _ y _ => hface y

theorem pointsInStep_ownSetPoint {p : Port} {f : Frame} (h : InStep s) (hm : s.modeOk .setPoint f = true) :
    (s.ownSetPoint p f).PointsInStep := by
  have hr (t : State) (ht : t.PointsInStep) (st : Status) : (t.respond p f st []).PointsInStep :=
    ht.apart ((Apart.refl t).respond ..)
  unfold State.ownSetPoint
  dsimp only
  split
  · exact hr s h.points _
  · next c hc =>
    split
    · exact hr s h.points _
    · split
      · exact hr s h.points _
      · refine hr _ ?_ _
        obtain hrun | hconfig := mode_of_modeOk rfl hm
        · have hsame : s.samePoint f = true := by
            unfold State.modeOk at hm
            rw [hrun] at hm
            simpa using (Bool.and_eq_true_iff.mp hm).2
          obtain ⟨hk, hp⟩ := samePoint_config hc hsame
          refine fun hreset => ⟨fun _ x => keepsUpToDate_configured hk hp x ((h.points hreset).1 hrun x), fun hst => ?_⟩
          cases hrun.symm.trans hst
        · exact pointsInStep_of_config hconfig

theorem pointsInStep_exec_engineSide {c : Instr} (hc : atEngineSide c = true) (hs : InStep s)
    (h : exec c s = .next t) : t.PointsInStep := by
  cases c
  case setPoint p =>
    cases h
    exact pointsInStep_live hs (pointsInStep_runRequest hs p fun f u hm h =>
      ⟨hierarchySound_ownSetPoint h.hierarchy, pointsInStep_ownSetPoint h hm⟩)
  case setMap p =>
    cases h
    refine pointsInStep_live hs (pointsInStep_runRequest hs p fun f u hm h =>
      ⟨hierarchySound_ownSetMap h.hierarchy, pointsInStep_of_config ?_⟩)
    rw [(engineSide_ownSetMap u p f).mode]
    simpa [State.modeOk, ReqKind.modeRule] using hm
  case ackPoint p => cases h; exact pointsInStep_keeps rfl hs p _ fun f u => keeps_ownAckPoint p f
  case ackPointMembers p => cases h; exact pointsInStep_keeps rfl hs p _ fun f u => keeps_ownAckMembers p f
  case ackClass p => cases h; exact pointsInStep_keeps rfl hs p _ fun f u => keeps_ownAckClass p f
  case ackAll p => cases h; exact pointsInStep_keeps rfl hs p _ fun f u => keeps_ownAckAll p f
  case resetPoint p => cases h; exact pointsInStep_keeps rfl hs p _ fun f u _ => keeps_ownResetPoint p f
  case resetAll p => cases h; exact pointsInStep_keeps rfl hs p _ fun f u => keeps_ownResetAll p f
  case shelve p => cases h; exact pointsInStep_keeps rfl hs p _ fun f u => keeps_ownShelve p f
  case unshelve p => cases h; exact pointsInStep_keeps rfl hs p _ fun f u => keeps_ownUnshelve p f
  case remove p => cases h; exact pointsInStep_keeps rfl hs p _ fun f u => keeps_ownRemove p f
  case restore p => cases h; exact pointsInStep_keeps rfl hs p _ fun f u => keeps_ownRestore p f
  case shelveExpiry q =>
    cases h
    refine pointsInStep_live hs ?_
    split
    · next hm => exact hs.points.keeps (keeps_shelveExpired q hs.hierarchy).settle (.inl hm.1)
    · exact hs.points
  all_goals cases hc

theorem pointsInStep_takeEntry (hs : InStep s) (kind : EntryKind) {handle : ChangeEntry → State → State}
    (hh : ∀ e u, e.kind = kind → handle e u = u.handleEntry e) : (s.takeEntry kind handle).PointsInStep := by
  obtain e | ⟨hm, u, hum, hur, -, hp, hmap, hk⟩ := keeps_takeEntry hs.hierarchy kind hh
  · rw [e]
    exact hs.points
  · have hu : u.PointsInStep := fun hreset =>
      ⟨fun _ x => upToDate_congr hp hmap ((hs.points (hur ▸ hreset)).1 hm x), fun hst => (nomatch hum.symm.trans hst)⟩
    exact hu.keeps hk (.inl hum)

theorem pointsInStep_evaluateNext (hs : InStep s) (hr : s.inReset = false) (g : Bool) : (s.evaluateNext g).PointsInStep := by
  unfold State.evaluateNext
  split
  · exact hs.points
  · next p he =>
    split
    · next hm =>
      exact (pointsInStep_evaluated hs.hierarchy hs.points hr hm.1 he).apart (Apart.refl _).settle
    · exact hs.points

/-- The evaluation that begins has no point behind it. -/
theorem pointsInStep_startRun_respond (s : State) (p : Port) (f : Frame) (a b : Bool) :
    (((s.startRun p a b).respond p f .ok []).beginEvaluation).PointsInStep := by
  have hmode := mode_startRun_respond s p f a b
  obtain ⟨u, hu⟩ : ∃ u, u = (s.startRun p a b).respond p f .ok [] := ⟨_, rfl⟩
  rw [← hu] at hmode ⊢
  refine fun _ => ⟨fun hrun => (nomatch hmode.symm.trans hrun), fun _ x hx => ?_⟩
  have horder : u.beginEvaluation.evalOrder = u.evalOrder := evalOrder_congr rfl
  have hpos : u.beginEvaluation.evalPos = u.evalOrder.head? := rfl
  unfold State.evaluated at hx
  rw [horder, hpos] at hx
  cases ho : u.evalOrder with
  | nil =>
    have := mem_evalOrder u 0
    rw [ho] at this
    cases this
  | cons y l =>
    rw [ho] at hx
    simp at hx

theorem pointsInStep_ownEnterRun (h : s.PointsInStep) (p : Port) (f : Frame) : (s.ownEnterRun p f).PointsInStep := by
  unfold State.ownEnterRun
  split
  · exact h.apart ((Apart.refl s).respond ..)
  · split
    · exact h.apart ((Apart.refl s).respond ..)
    · exact pointsInStep_startRun_respond _ _ _ _ _

theorem pointsInStep_restartRun (h : s.PointsInStep) (p : Port) (f : Frame) : (s.restartRun p f).PointsInStep := by
  unfold State.restartRun
  split
  · exact pointsInStep_startRun_respond _ _ _ _ _
  · exact h.apart ((Apart.refl s).respond ..)

/-- With the evaluation ended every point has been evaluated (R172). -/
theorem pointsInStep_endEvaluation (h : s.PointsInStep) (hm : s.mode = .starting) (he : s.evalPos = none) :
    s.endEvaluation.PointsInStep := by
  have hend := apart_endEvaluation s
  obtain ⟨t, ht⟩ : ∃ t, t = s.endEvaluation := ⟨_, rfl⟩
  rw [← ht] at hend ⊢
  have hp : t.points = s.points := hend.points
  have hmap : t.map = s.map := hend.map
  have hreset : t.inReset = s.inReset := hend.inReset
  refine fun hr => ⟨fun _ x => upToDate_congr hp hmap ?_, fun hst => (nomatch hend.mode.symm.trans hst)⟩
  refine (h (hreset ▸ hr)).2 hm x ?_
  unfold State.evaluated
  rw [he]
  exact mem_evalOrder s x

theorem pointsInStep_exec {c : Instr} (hs : InStep s) (hc : s.ClaimInConfig) (h : exec c s = .next t) : t.PointsInStep := by
  by_cases ha : keepsApart c = true
  · obtain ⟨t', h', ht⟩ := exec_apart ha s
    cases h.symm.trans h'
    exact hs.points.apart ht
  by_cases hf : atFieldSide c = true
  · obtain ⟨t', h', ht⟩ := exec_fieldSide hf s
    cases h.symm.trans h'
    exact hs.points.fieldSide ht
  by_cases he : atEngineSide c = true
  · exact pointsInStep_exec_engineSide he hs h
  have hrest : (keepsApart c || atFieldSide c || atEngineSide c) = false := by simp [ha, hf, he]
  have hlive {f : State → State} (hf : s.inReset = false → (f s).PointsInStep) : (s.live f).PointsInStep := by
    by_cases hr : s.inReset = false
    · exact pointsInStep_live hs (hf hr)
    · unfold State.live
      rw [if_pos (Bool.not_eq_false _ ▸ hr)]
      exact hs.points
  cases c
  case powerOn l r => cases h; exact pointsInStep_of_config rfl
  case resetNLow => cases h; exact fun hr => nomatch hr
  case timebaseMillisecond n => cases h; exact hlive fun _ => pointsInStep_passTime hs.points n
  case levelEntry => cases h; exact hlive fun _ => pointsInStep_takeEntry hs _ handle_level
  case qualityEntry => cases h; exact hlive fun _ => pointsInStep_takeEntry hs _ handle_quality
  case enterRun p =>
    cases h
    refine hlive fun _ => ?_
    split
    · exact (pointsInStep_restartRun hs.points p _).apart (Apart.refl _).settle
    · exact pointsInStep_runRequest hs p fun f u _ h =>
        ⟨h.hierarchy.sameShape (sameShape_ownEnterRun p f), pointsInStep_ownEnterRun h.points p f⟩
  case fieldPointEvaluation => cases h; exact hlive fun hr => pointsInStep_evaluateNext hs hr _
  case groupPointEvaluation => cases h; exact hlive fun hr => pointsInStep_evaluateNext hs hr _
  case endOfInitialEvaluation =>
    cases h
    refine hlive fun _ => ?_
    split
    · next hm => exact (pointsInStep_endEvaluation hs.points hm.1 hm.2).apart (Apart.refl _).settle
    · exact hs.points
  case enterConfig p =>
    cases h
    exact hlive fun _ => pointsInStep_runRequest hs p fun f u _ h =>
      ⟨h.hierarchy.sameShape (.of_points rfl rfl), pointsInStep_of_config rfl⟩
  case enterConfigEngineClaim =>
    cases h
    refine hlive fun _ => ?_
    split
    · exact hs.points
    · next c hclaim =>
      have hmode : s.mode = .config := hc (by rw [hclaim]; nofun)
      exact pointsInStep_of_config ((apart_takeEngineClaim s c).settle.mode.trans hmode)
  case restart p =>
    cases h
    exact hlive fun _ => pointsInStep_runRequest hs p fun f u _ h =>
      ⟨h.hierarchy.sameShape (sameShape_ownRestart p f), pointsInStep_of_config (mode_ownRestart p f)⟩
  all_goals cases hrest

end

/-- Settles O60, by the commands: those of the Point Engine keep every point up to date in RUN, the initial evaluation goes
from the children to their parents, and the others leave points and map as they are. -/
theorem hierarchyKept : Obligations.HierarchyKept := by
  intro s t hh h
  refine ⟨step_keeps (I := State.HierarchySound) (fun _ _ h => h) (fun _ _ _ => hierarchySound_exec) hh h,
    fun hc => ⟨?_, fun hp => ?_⟩⟩
  · exact (step_keeps (I := fun s => s.HierarchySound ∧ s.ClaimInConfig) (fun _ _ h => h)
      (fun _ _ _ hs he => ⟨hierarchySound_exec hs.1 he, claimInConfig_exec hs.1 hs.2 he⟩) ⟨hh, hc⟩ h).2
  · exact (step_keeps (I := fun s => s.HierarchySound ∧ s.ClaimInConfig ∧ s.PointsInStep) (fun _ _ h => h)
      (fun _ _ _ hs he => ⟨hierarchySound_exec hs.1 he, claimInConfig_exec hs.1 hs.2.1 he,
        pointsInStep_exec ⟨hs.1, hs.2.2⟩ hs.2.1 he⟩) ⟨hh, hc, hp⟩ h).2.2

end Sys2Proof.Machine
end

section
/-! PROOFS. What keeps the queues within their bounds, a detached port empty and the clock in its range (R71, R74, R124, R177,
R183): the operations that the commands share, the stations and the Dispatch Controllers. -/

namespace Sys2Proof.Machine

/-- The queue of a controller is within its bound, and a detached one is empty (R71, R74). -/
def Dispatch.Fits (d : Dispatch) : Prop :=
  d.queue.length ≤ 24 ∧ (d.state = .detached → d.queue = [] ∧ d.inService = 0 ∧ d.resyncPending = false)

theorem fits_of_attached {d : Dispatch} (h : d.state ≠ .detached) (hl : d.queue.length ≤ 24) : d.Fits :=
  ⟨hl, fun e => absurd e h⟩

/-- The parts of a controller that its bound speaks of. -/
def Dispatch.held (d : Dispatch) : List Notice × DispatchState × BitVec 8 × Bool :=
  (d.queue, d.state, d.inService, d.resyncPending)

theorem fits_congr {d e : Dispatch} (he : e.held = d.held) (h : d.Fits) : e.Fits := by
  simp only [Dispatch.held, Prod.mk.injEq] at he
  obtain ⟨hq, hs, hi, hr⟩ := he
  unfold Dispatch.Fits
  rw [hq, hs, hi, hr]
  exact h

theorem bounded_detachedEmpty_iff {s : State} :
    s.Bounded ∧ s.DetachedEmpty ↔
      (∀ p, (s.dsp p).Fits) ∧ s.changeQueue.length ≤ 128 ∧ ∀ p, (s.stn p).intake.length ≤ 2 :=
  ⟨fun ⟨⟨hn, hc, hi⟩, hd⟩ => ⟨fun p => ⟨hn p, hd p⟩, hc, hi⟩,
    fun ⟨hf, hc, hi⟩ => ⟨⟨fun p => (hf p).1, hc, hi⟩, fun p => (hf p).2⟩⟩

/-- The parts of the state that have a bound. -/
def State.boundedParts (s : State) : Vector Dispatch 4 × Vector Station 4 × List ChangeEntry × Nat × Nat :=
  (s.dispatch, s.stations, s.changeQueue, s.day, s.msOfDay)

/-- What is within its bound in `s` is so in `t`. -/
structure Tidy (s t : State) : Prop where
  ports : ∀ p, (s.dsp p).Fits → (t.dsp p).Fits
  intakes : ∀ p, (s.stn p).intake.length ≤ 2 → (t.stn p).intake.length ≤ 2
  queue : s.changeQueue.length ≤ 128 → t.changeQueue.length ≤ 128
  clock : s.ClockInRange → t.ClockInRange

namespace Tidy

variable {s t u : State}

theorem refl (s : State) : Tidy s s := ⟨fun _ => id, fun _ => id, id, id⟩

theorem trans (h : Tidy s t) (k : Tidy t u) : Tidy s u :=
  ⟨fun p => k.ports p ∘ h.ports p, fun p => k.intakes p ∘ h.intakes p, k.queue ∘ h.queue, k.clock ∘ h.clock⟩

theorem ite {c : Prop} [Decidable c] (h : c → Tidy s t) (k : ¬ c → Tidy s u) : Tidy s (if c then t else u) := by
  split
  · next hc => exact h hc
  · next hc => exact k hc

theorem foldl {α : Type} {f : State → α → State} (hf : ∀ s a, Tidy s (f s a)) (l : List α) (s : State) :
    Tidy s (l.foldl f s) := by
  induction l generalizing s with
  | nil => exact refl s
  | cons a l ih => exact (hf s a).trans (ih _)

/-- Nothing that has a bound has moved. -/
theorem of_same (h : t.boundedParts = s.boundedParts) : Tidy s t := by
  simp only [State.boundedParts, Prod.mk.injEq] at h
  obtain ⟨hd, hs, hq, h1, h2⟩ := h
  refine ⟨fun p => ?_, fun p => ?_, fun h => hq ▸ h, fun h => ?_⟩
  · unfold State.dsp; rw [hd]; exact id
  · unfold State.stn; rw [hs]; exact id
  · unfold State.ClockInRange; rw [h1, h2]; exact h

theorem setDsp (h : Tidy s t) {p : Port} {d : Dispatch} (hd : (t.dsp p).Fits → d.Fits) : Tidy s (t.setDsp p d) := by
  refine h.trans ⟨fun q hq => ?_, fun _ => id, id, id⟩
  rw [State.dsp_setDsp]
  split
  · next e => exact hd (e ▸ hq)
  · exact hq

theorem setStn (h : Tidy s t) {p : Port} {a : Station}
    (ha : (t.stn p).intake.length ≤ 2 → a.intake.length ≤ 2) : Tidy s (t.setStn p a) := by
  refine h.trans ⟨fun _ => id, fun q hq => ?_, id, id⟩
  rw [State.stn_setStn]
  split
  · next e => exact ha (e ▸ hq)
  · exact hq

theorem handOn (h : Tidy s t) (r : Raising) : Tidy s (t.handOn r) := h.trans (of_same (by rfl))

theorem decodes (h : Tidy s t) (k : Decodes t u) : Tidy s u := by
  refine h.trans ⟨fun p => ?_, fun p => (k.intakes p).trans, fun hq => ?_, fun hc => ?_⟩
  · have e : u.dispatch = t.dispatch := by have e := congrArg State.dispatch k.rest; exact e
    unfold State.dsp; rw [e]; exact id
  · have e : u.changeQueue = t.changeQueue := by have e := congrArg State.changeQueue k.rest; exact e
    rwa [e]
  · rw [k.rest]; exact hc

theorem respond (h : Tidy s t) (p : Port) (f : Frame) (st : Status) (r : List Byte) : Tidy s (t.respond p f st r) :=
  h.decodes (decodes_respond ..)

theorem testLogHigh (h : Tidy s t) (b : Bool) (p : Option Port) : Tidy s (t.testLogHigh b p) := by
  unfold State.testLogHigh
  exact .ite (fun _ => h.handOn _) fun _ => h

theorem append (h : Tidy s t) (b : Bool) (d : RecordDraft) : Tidy s (t.append b d) := by
  have hroom : Tidy t (t.makeRoom b) := by
    unfold State.makeRoom
    split
    · exact refl t
    · refine .ite (fun _ => refl t) fun _ => .ite (fun _ => ?_) fun _ => of_same (by rfl)
      exact .ite (fun _ => of_same (by rfl)) fun _ => of_same (by rfl)
  have hplace : Tidy (t.makeRoom b) ((t.makeRoom b).placeRecord d) := of_same (by rfl)
  exact ((h.trans hroom).trans hplace).testLogHigh _ _

theorem handResponse (h : Tidy s t) (p : Port) (b : List Byte) : Tidy s (t.handResponse p b) := by
  unfold State.handResponse
  dsimp only
  split <;> exact h.setStn id

theorem handNotice (h : Tidy s t) (p : Port) (b : List Byte) : Tidy s (t.handNotice p b) := by
  unfold State.handNotice
  dsimp only
  split <;> exact h.setStn id

theorem withdraw (h : Tidy s t) (p : Port) : Tidy s (t.withdraw p) := h.setStn id

theorem testOffer (h : Tidy s t) (p : Port) : Tidy s (t.testOffer p) := by
  unfold State.testOffer
  refine .ite (fun _ => ?_) fun _ => h
  split
  · exact h
  · exact (h.setDsp fun hf => by
      exact fits_of_attached nofun (by simpa [Dispatch.afterOffer, updateNotice] using hf.1)).handNotice ..

theorem enqueue (h : Tidy s t) (p : Port) (c : NoticeContent) (k : PClass) : Tidy s (t.enqueue p c k) := by
  unfold State.enqueue
  refine .ite (fun _ => h) fun hs => .ite (fun _ => ?_) fun _ => .ite (fun hl => ?_) fun _ => ?_
  · exact h.setDsp fun hf => by exact fits_of_attached hs (by simpa using hf.1)
  · refine h.setDsp fun _ => fits_of_attached hs ?_
    have : (t.dsp p).queue.length < 24 := hl
    simpa [Dispatch.appendNotice] using this
  · exact (h.setDsp fun hf => by exact fits_of_attached hs hf.1).handOn _

theorem place (h : Tidy s t) (p : Port) (c : NoticeContent) (k : PClass) : Tidy s (t.place p c k) :=
  (h.enqueue p c k).testOffer p

theorem placeMode (h : Tidy s t) (m : Mode) : Tidy s (t.placeMode m) :=
  h.trans (foldl (fun u p => (refl u).place p _ _) allPorts t)

theorem testResync (h : Tidy s t) (p : Port) : Tidy s (t.testResync p) := by
  unfold State.testResync
  refine .ite (fun hc => (h.setDsp fun hf => ?_).enqueue ..) fun _ => h
  simp only [Bool.and_eq_true, bne_iff_ne] at hc
  exact fits_of_attached hc.2 hf.1

theorem flushPort (h : Tidy s t) (p : Port) (st : DispatchState) : Tidy s (t.flushPort p st) :=
  (h.setDsp fun _ => by exact ⟨Nat.zero_le _, fun _ => ⟨rfl, rfl, rfl⟩⟩).withdraw p

theorem respondThenOffer (h : Tidy s t) (p : Port) (f : Frame) (st : Status) (r : List Byte) :
    Tidy s (t.respondThenOffer p f st r) := (h.respond p f st r).testOffer p

theorem raise (h : Tidy s t) (r : Raising) : Tidy s (t.raise r) := by
  unfold State.raise
  have ha := (h.trans (u := { t with flags := joinBit t.flags r.flag.code.val }) (of_same (by rfl))).append (r.flag == .logLoss)
    (r.draft (t.flagSet r.flag) t.now)
  exact .ite (fun _ => ha.place ..) fun _ => ha

theorem drain (n : Nat) (h : Tidy s t) : Tidy s (t.drain n) := by
  induction n generalizing t with
  | zero => exact h.trans (of_same (by rfl))
  | succ n ih =>
    unfold State.drain
    split
    · exact h
    · exact ih ((h.trans (of_same (by rfl))).raise _)

theorem settle (h : Tidy s t) : Tidy s t.settle := h.drain _

/-- A request row whose owner keeps the bounds keeps them. -/
theorem runRequest {k : ReqKind} {owner : Frame → State → State} (ho : ∀ f u, Tidy u (owner f u)) (s : State) (p : Port)
    (form : Frame → Bool) : Tidy s (s.runRequest p k form owner) :=
  runRequest_keeps (I := Tidy s) (fun _ _ hd h => h.decodes hd) (fun _ h => h.settle)
    (fun f u _ _ h => h.trans (ho f u)) (refl s) p form

theorem live {f : State → State} (h : Tidy s (f s)) : Tidy s (s.live f) := .ite (fun _ => refl s) fun _ => h

end Tidy

/-! ### The Dispatch Controllers -/

section Owners

variable (s : State) (p : Port) (f : Frame)

theorem tidy_takeExpired : Tidy s (s.takeExpired p) := by
  unfold State.takeExpired
  dsimp only
  have hl (hf : (s.dsp p).Fits) : (s.dsp p).unoffer.queue.length ≤ 24 := by simpa [Dispatch.unoffer] using hf.1
  split
  · exact .refl s
  · refine .ite (fun _ => ?_) fun _ => ?_
    · exact ((Tidy.refl s).setDsp fun hf => by exact fits_of_attached nofun (hl hf)).testOffer p
    · exact ((Tidy.refl s).setDsp fun hf => by exact fits_of_attached nofun (hl hf)).handOn _

theorem fits_taken {d : Dispatch} (n : Notice) (h : d.Fits) : (d.taken n).queue.length ≤ 24 :=
  (List.length_filter_le _ _).trans h.1

theorem tidy_takeNotice (n : Notice) (ha : (s.dsp p).state ≠ .detached) : Tidy s (s.takeNotice p n) := by
  unfold State.takeNotice
  have h := Tidy.refl s
  refine .ite (fun _ => ?_) fun _ => .ite (fun _ => ?_) fun _ => ?_
  · exact (h.setDsp fun hf => by exact fits_of_attached nofun (fits_taken n hf)).withdraw p
  · exact h.setDsp fun hf => by exact fits_of_attached nofun (fits_taken n hf)
  · exact h.setDsp fun hf => by exact fits_of_attached ha (fits_taken n hf)

theorem tidy_pollNotice (n : Notice) : Tidy s (s.pollNotice p n) := by
  have hl (hf : (s.dsp p).Fits) : ((s.dsp p).unoffer.taken n).queue.length ≤ 24 :=
    (List.length_filter_le _ _).trans (by simpa [Dispatch.unoffer] using hf.1)
  exact ((Tidy.refl s).setDsp fun hf => by exact fits_of_attached nofun (hl hf)).withdraw p

theorem tidy_ownTake : Tidy s (s.ownTake p f) := by
  unfold State.ownTake
  have h := Tidy.refl s
  refine .ite (fun _ => h.respond ..) fun _ => .ite (fun _ => h.respond ..) fun ha => ?_
  split
  · exact h.respond ..
  · exact ((tidy_takeNotice s p _ ha).testResync p).respondThenOffer ..

theorem tidy_ownPoll : Tidy s (s.ownPoll p f) := by
  unfold State.ownPoll
  have h := Tidy.refl s
  refine .ite (fun _ => h.respond ..) fun _ => ?_
  split
  · exact h.respond ..
  · exact ((tidy_pollNotice s p _).testResync p).respondThenOffer ..

theorem tidy_refuseDone (st : Status) : Tidy s (s.refuseDone p f st) := ((Tidy.refl s).respond ..).handOn _

theorem tidy_ownDone : Tidy s (s.ownDone p f) := by
  unfold State.ownDone
  have h := Tidy.refl s
  refine .ite (fun _ => h.respond ..) fun ha => ?_
  split
  · exact tidy_refuseDone s p f _
  · exact (h.setDsp fun hf => by exact fits_of_attached ha hf.1).respondThenOffer ..

theorem tidy_ownDoneClass : Tidy s (s.ownDoneClass p f) := by
  unfold State.ownDoneClass
  have h := Tidy.refl s
  dsimp only
  split
  · refine .ite (fun _ => h.respond ..) fun ha => .ite (fun _ => tidy_refuseDone ..) fun _ =>
      .ite (fun _ => tidy_refuseDone ..) fun _ => ?_
    exact (h.setDsp fun hf => by exact fits_of_attached ha hf.1).respondThenOffer ..
  · exact h.respond ..

theorem tidy_ownSetLowest : Tidy s (s.ownSetLowest p f) := by
  unfold State.ownSetLowest
  split
  · exact (Tidy.refl s).respond ..
  · exact ((Tidy.refl s).setDsp (fun hf => by exact fits_congr (by rfl) hf)).respondThenOffer ..

theorem tidy_storeDispatch (c : DispatchConfig) : Tidy s (s.storeDispatch p c) := by
  unfold State.storeDispatch
  have h := Tidy.refl s
  refine .ite (fun _ => ?_) fun _ => h.setDsp (fun hf => by exact fits_congr (by rfl) hf)
  have hl (hf : (s.dsp p).Fits) : ((s.dsp p).configured c).unoffer.queue.length ≤ 24 := by
    simpa [Dispatch.unoffer, Dispatch.configured] using hf.1
  exact (h.setDsp fun hf => by exact fits_of_attached nofun (hl hf)).withdraw p

theorem tidy_ownSetDispatch : Tidy s (s.ownSetDispatch p f) := by
  unfold State.ownSetDispatch
  split
  · exact (Tidy.refl s).respond ..
  · exact (tidy_storeDispatch ..).respondThenOffer ..

theorem tidy_ownAttach : Tidy s (s.ownAttach p f) := by
  unfold State.ownAttach
  have h := Tidy.refl s
  exact .ite (fun _ => ((h.setDsp fun hf => by exact fits_of_attached nofun hf.1).enqueue ..).respondThenOffer ..)
    fun _ => h.respond ..

theorem tidy_ownDetach : Tidy s (s.ownDetach p f) := by
  unfold State.ownDetach
  have h := Tidy.refl s
  exact .ite (fun _ => h.respond ..) fun _ => (h.flushPort ..).respond ..

theorem tidy_configPort : Tidy s (s.configPort p) := by
  unfold State.configPort
  have h := Tidy.refl s
  exact .ite (fun _ => h) fun _ => (((h.flushPort ..).enqueue ..).enqueue ..).testOffer p

theorem length_reviveStalled (k : Nat) (q : List Notice) : (reviveStalled k q).length ≤ q.length := by
  unfold reviveStalled
  split
  · exact le_rfl
  · split
    · simp [updateNotice]
    · simpa [updateNotice] using List.length_filter_le _ q

theorem fits_faultCleared {d : Dispatch} (h : d.Fits) : d.faultCleared.Fits := by
  unfold Dispatch.faultCleared
  dsimp only
  split
  · exact fits_of_attached nofun ((length_reviveStalled ..).trans h.1)
  · exact fits_congr rfl h

theorem tidy_ownClearFaultPort : Tidy s (s.ownClearFaultPort p f) := by
  unfold State.ownClearFaultPort
  have h := Tidy.refl s
  split
  · exact h.respond ..
  · exact (((h.setDsp fits_faultCleared).append ..).respond ..).testOffer _

/-! ### The stations, the Event Record, the flags and the clock -/

theorem tidy_ownSetPort : Tidy s (s.ownSetPort p f) := by
  unfold State.ownSetPort State.storePort
  have h := Tidy.refl s
  split
  · exact h.respond ..
  · next c _ =>
    have hst := h.setStn (p := c.port)
      (a := { s.stn c.port with ring := c.ring, discards := if c.clearCount then 0 else (s.stn c.port).discards }) id
    exact (hst.setDsp fun hf => by exact fits_congr (by rfl) hf).respond ..

theorem tidy_ownReadPort : Tidy s (s.ownReadPort p f) := by
  unfold State.ownReadPort
  split <;> exact (Tidy.refl s).respond ..

theorem intake_nextFrame (a : Station) : a.nextFrame.intake = a.intake := by
  unfold Station.nextFrame
  split
  · rfl
  · split <;> rfl

theorem tidy_frameEnded : Tidy s (s.frameEnded p) := by
  unfold State.frameEnded State.startTakeTimer
  have h := (Tidy.refl s).setStn (p := p) (a := (s.stn p).nextFrame) (by rw [intake_nextFrame]; exact id)
  dsimp only
  split
  · exact .refl s
  · exact h
  · exact (Tidy.ite (fun _ => h.setDsp fun hf => by exact fits_congr (by rfl) hf) fun _ => h).testOffer _

theorem tidy_answerFromCache : Tidy s (s.answerFromCache p) := by
  unfold State.answerFromCache
  have h := Tidy.refl s
  have htail : Tidy s (s.popIntake p) := h.setStn fun hl => by
    exact ((s.stn p).intake.length_tail.trans_le (Nat.sub_le _ _)).trans hl
  split
  · exact .ite (fun _ => htail.handResponse ..) fun _ => h
  · exact h

theorem tidy_refuseUnknown : Tidy s (s.refuseUnknown p) := by
  unfold State.refuseUnknown
  have h := Tidy.refl s
  split
  · exact h
  · exact .ite (fun _ => ((h.decodes (decodes_beginRequest ..)).decodes (decodes_refuseFault ..)).settle) fun _ => h

theorem intake_complete (a : Station) (g : Frame) (h : a.intake.length ≤ 2) : (a.complete g).intake.length ≤ 2 := by
  unfold Station.complete
  split
  · exact h
  · split
    · next hl =>
      have : a.intake.length < 2 := hl
      simpa using this
    · exact h

theorem intake_assemble (a : Station) (l : List Byte) (h : a.intake.length ≤ 2) : (a.assemble l).intake.length ≤ 2 := by
  unfold Station.assemble
  split
  · exact h
  · split
    · exact h
    · split
      · exact h
      · split
        · exact h
        · exact intake_complete a _ h

theorem intake_receive (a : Station) (b : RxByte) (h : a.intake.length ≤ 2) : (a.receive b).intake.length ≤ 2 := by
  unfold Station.receive
  split
  · split
    · exact intake_assemble a _ h
    · exact h
  · split
    · exact h
    · exact intake_assemble a _ h

theorem tidy_stationBytes (l : List RxByte) : Tidy s (s.stationBytes p l) := by
  refine (Tidy.refl s).setStn fun h => ?_
  generalize s.stn p = a at h ⊢
  induction l generalizing a with
  | nil => exact h
  | cons b l ih => exact ih _ (intake_receive a b h)

theorem tidy_gapExpired : Tidy s (s.setStn p (s.stn p).gapExpired) := by
  refine (Tidy.refl s).setStn ?_
  unfold Station.gapExpired
  split
  · exact id
  · split <;> exact id

theorem tidy_ownSetLog : Tidy s (s.ownSetLog p f) := by
  unfold State.ownSetLog
  have h := Tidy.refl s
  dsimp only
  split
  · exact h.respond ..
  · exact .ite (fun _ => ((h.trans (.of_same (by rfl))).testLogHigh ..).respond ..) fun _ => h.respond ..

theorem tidy_ownConfirmLog : Tidy s (s.ownConfirmLog p f) := by
  unfold State.ownConfirmLog
  have h := Tidy.refl s
  exact .ite (fun _ => h.respond ..) fun _ => .ite (fun _ => h.respond ..) fun _ => .ite (fun _ => h.respond ..) fun _ =>
    .ite (fun _ => (h.trans (.of_same (by rfl))).respond ..) fun _ => h.respond ..

theorem tidy_ownReadLog : Tidy s (s.ownReadLog p f) := by
  unfold State.ownReadLog
  exact .ite (fun _ => (Tidy.refl s).respond ..) fun _ => (Tidy.refl s).respond ..

theorem tidy_ownSetRoute : Tidy s (s.ownSetRoute p f) := by
  unfold State.ownSetRoute
  have h := Tidy.refl s
  split
  · exact (h.trans (.of_same (by rfl))).respond ..
  · exact h.respond ..

theorem tidy_ownClearFlags : Tidy s (s.ownClearFlags p f) := by
  unfold State.ownClearFlags
  have h := Tidy.refl s
  exact .ite (fun _ => h.respond ..) fun _ => ((h.trans (.of_same (by rfl))).append ..).respond ..

theorem tidy_ownTestSource : Tidy s (s.ownTestSource p f) := by
  unfold State.ownTestSource
  split
  · exact (Tidy.refl s).respond ..
  · exact ((Tidy.refl s).respond ..).handOn _

theorem tidy_ownClearFault : Tidy s (s.ownClearFault p f) := by
  unfold State.ownClearFault State.recordClearFault
  have h := Tidy.refl s
  exact .ite (fun _ => ((h.trans (.of_same (by rfl))).append ..).respond ..) fun _ =>
    .ite (fun _ => ((h.trans (.of_same (by rfl))).append ..).respond ..) fun _ => h.respond ..

/-- A time of day that is in range. -/
def TimeStamp.InRange (t : TimeStamp) : Prop := t.day < 65536 ∧ t.ms < 86400000

theorem align_inRange {t : TimeStamp} (h : t.InRange) : t.align.InRange := by
  unfold TimeStamp.align
  dsimp only
  split
  · exact ⟨h.1, (Nat.sub_le _ _).trans_lt h.2⟩
  · exact TimeStamp.addMs_inRange t _

/-- The clock takes a time of day. -/
theorem tidy_setClock (d : TimeStamp) (h : s.ClockInRange → d.InRange) : Tidy s (s.setClock d) :=
  ⟨fun _ => id, fun _ => id, id, h⟩

theorem Frame.arg2_lt (f : Frame) (i : Nat) : f.arg2 i < 65536 := by
  have h1 := f.arg_lt i
  have h2 := f.arg_lt (i + 1)
  unfold Frame.arg2
  omega

theorem tidy_ownSetTime : Tidy s (s.ownSetTime p f) := by
  unfold State.ownSetTime
  have h := Tidy.refl s
  dsimp only
  split
  · exact h.respond ..
  · refine .ite (fun hms => ?_) fun _ => h.respond ..
    have hc := tidy_setClock s { day := f.arg2 0, ms := f.arg4 2, quality := .set } fun _ => ⟨f.arg2_lt 0, hms⟩
    exact ((hc.trans (.of_same (by rfl))).append ..).respond ..

theorem tidy_syncPulse : Tidy s s.syncPulse := by
  unfold State.syncPulse
  have hc := tidy_setClock s s.now.align fun h => align_inRange h
  exact .ite (fun _ => hc.trans (.of_same (by rfl))) fun _ => .refl s

theorem tidy_syncLost : Tidy s s.syncLost := by
  unfold State.syncLost
  exact Tidy.handOn (.of_same (by rfl)) _

theorem tidy_ownSilence : Tidy s (s.ownSilence p f) := ((Tidy.append (.of_same (by rfl)) ..).respond ..)

theorem tidy_ownSetAudible : Tidy s (s.ownSetAudible p f) := by
  unfold State.ownSetAudible
  split
  · exact (Tidy.refl s).respond ..
  · exact Tidy.respond (.of_same (by rfl)) ..

theorem tidy_ownReadPoint : Tidy s (s.ownReadPoint p f) := by
  unfold State.ownReadPoint
  split <;> exact (Tidy.refl s).respond ..

theorem tidy_ownReadMap : Tidy s (s.ownReadMap p f) := by
  unfold State.ownReadMap
  split <;> exact (Tidy.refl s).respond ..

theorem tidy_ownReadInput : Tidy s (s.ownReadInput p f) := by
  unfold State.ownReadInput
  exact .ite (fun _ => (Tidy.refl s).respond ..) fun _ => (Tidy.refl s).respond ..

end Owners

theorem tidy_exec_apart {c : Instr} (hc : keepsApart c = true) {s t : State} (h : exec c s = .next t) : Tidy s t := by
  have hs := Tidy.refl s
  cases c
  case syncPulse => cases h; exact .live (tidy_syncPulse s)
  case syncWatchdogExpiry => cases h; exact .live (.ite (fun _ => (tidy_syncLost s).settle) fun _ => hs)
  case takeTimerExpiry p => cases h; exact .live (.ite (fun _ => (tidy_takeExpired s p).settle) fun _ => hs)
  case stationFrameReceived p l | stationFrameDiscarded p l => cases h; exact .live (tidy_stationBytes s p l)
  case stationGapExpiry p => cases h; exact .live (tidy_gapExpired s p)
  case frameEnd p => cases h; exact .live (tidy_frameEnded s p).settle
  case retransmission p => cases h; exact .live (tidy_answerFromCache s p)
  case unknownKind p => cases h; exact .live (tidy_refuseUnknown s p)
  case readPoint p => cases h; exact .live (.runRequest (fun f u => tidy_ownReadPoint u p f) ..)
  case readMap p => cases h; exact .live (.runRequest (fun f u => tidy_ownReadMap u p f) ..)
  case readInput p => cases h; exact .live (.runRequest (fun f u => tidy_ownReadInput u p f) ..)
  case readUnit p => cases h; exact .live (.runRequest (fun f u => (Tidy.refl u).respond p f _ _) ..)
  case silence p => cases h; exact .live (.runRequest (fun f u => tidy_ownSilence u p f) ..)
  case setAudible p => cases h; exact .live (.runRequest (fun f u => tidy_ownSetAudible u p f) ..)
  case take p => cases h; exact .live (.runRequest (fun f u => tidy_ownTake u p f) ..)
  case poll p => cases h; exact .live (.runRequest (fun f u => tidy_ownPoll u p f) ..)
  case done p => cases h; exact .live (.runRequest (fun f u => tidy_ownDone u p f) ..)
  case doneClass p => cases h; exact .live (.runRequest (fun f u => tidy_ownDoneClass u p f) ..)
  case setLowest p => cases h; exact .live (.runRequest (fun f u => tidy_ownSetLowest u p f) ..)
  case setDispatch p => cases h; exact .live (.runRequest (fun f u => tidy_ownSetDispatch u p f) ..)
  case attach p => cases h; exact .live (.runRequest (fun f u => tidy_ownAttach u p f) ..)
  case detach p => cases h; exact .live (.runRequest (fun f u => tidy_ownDetach u p f) ..)
  case readPort p => cases h; exact .live (.runRequest (fun f u => tidy_ownReadPort u p f) ..)
  case setPort p => cases h; exact .live (.runRequest (fun f u => tidy_ownSetPort u p f) ..)
  case setLog p => cases h; exact .live (.runRequest (fun f u => tidy_ownSetLog u p f) ..)
  case confirmLog p => cases h; exact .live (.runRequest (fun f u => tidy_ownConfirmLog u p f) ..)
  case readLog p => cases h; exact .live (.runRequest (fun f u => tidy_ownReadLog u p f) ..)
  case setRoute p => cases h; exact .live (.runRequest (fun f u => tidy_ownSetRoute u p f) ..)
  case clearFlags p => cases h; exact .live (.runRequest (fun f u => tidy_ownClearFlags u p f) ..)
  case testSource p => cases h; exact .live (.runRequest (fun f u => tidy_ownTestSource u p f) ..)
  case clearFault p => cases h; exact .live (.runRequest (fun f u => tidy_ownClearFault u p f) ..)
  case clearFaultPort p => cases h; exact .live (.runRequest (fun f u => tidy_ownClearFaultPort u p f) ..)
  case readStatus p => cases h; exact .live (.runRequest (fun f u => (Tidy.refl u).respond p f _ _) ..)
  case setTime p => cases h; exact .live (.runRequest (fun f u => tidy_ownSetTime u p f) ..)
  all_goals cases hc

end Sys2Proof.Machine
end

section
/-! PROOFS. What keeps the queues within their bounds: the Point Engine. -/

namespace Sys2Proof.Machine

namespace Tidy

variable {s t : State} (c : Claim) (q : PointNo)

theorem placePoint (h : Tidy s t) : Tidy s (t.placePoint q) :=
  h.trans (foldl (fun u _ => .ite (fun _ => (refl u).place ..) fun _ => refl u) allPorts t)

theorem emitPoint (h : Tidy s t) (cause : Cause) (body : RecordBody) : Tidy s (t.emitPoint c q cause body) := by
  have ha := h.append false
    { stamp := c.stamp, body := body, point := some q, input := c.input, port := c.port, cause := some cause }
  exact (ha.trans (.of_same (by rfl))).placePoint q

theorem testAudible (h : Tidy s t) (before : SeqState) : Tidy s (t.testAudible q before) := by
  unfold State.testAudible
  exact .ite (fun _ => h.trans (.of_same (by rfl))) fun _ => h

theorem transition (h : Tidy s t) (cause : Cause) (st : SeqState) : Tidy s (t.transition c q cause st) :=
  (emitPoint c q (h.trans (.of_same (by rfl))) ..).testAudible q _

theorem setFirstMember (h : Tidy s t) (m : Option PointNo) : Tidy s (t.setFirstMember c q m) :=
  emitPoint c q (h.trans (.of_same (by rfl))) ..

theorem clearFirstMember (h : Tidy s t) : Tidy s (t.clearFirstMember c q) := by
  unfold State.clearFirstMember
  exact .ite (fun _ => h.setFirstMember ..) fun _ => h

theorem recordQuality (h : Tidy s t) (cause : Cause) (k : PointQuality) : Tidy s (t.recordQuality c q cause k) := by
  unfold State.recordQuality
  exact .ite (fun _ => h) fun _ => emitPoint c q (h.trans (.of_same (by rfl))) ..

theorem recordCondition (h : Tidy s t) (cause : Cause) (k : Condition) : Tidy s (t.recordCondition c q cause k) := by
  unfold State.recordCondition
  refine .ite (fun _ => h) fun _ => ?_
  dsimp only
  have hp : Tidy s (t.setPt q { t.pt q with condition := k }) := h.trans (.of_same (by rfl))
  split
  · exact hp
  · exact .ite (fun _ => hp.transition ..) fun _ => hp

theorem reevalField (h : Tidy s t) (cause : Cause) : Tidy s (t.reevalField c q cause) := by
  unfold State.reevalField
  exact .ite (fun _ => (h.recordQuality ..).recordCondition ..) fun _ => h.recordQuality ..

theorem reevalGroup (h : Tidy s t) (child : Option PointNo) (cause : Cause) :
    Tidy s (t.reevalGroup c q child cause) := by
  unfold State.reevalGroup
  have hr : Tidy s _ := (h.recordQuality c q cause (t.groupQuality q)).recordCondition c q cause
    ((t.recordQuality c q cause (t.groupQuality q)).groupCondition q)
  dsimp only
  split
  · exact .ite (fun _ => hr.setFirstMember ..) fun _ => hr.clearFirstMember ..
  · exact hr.clearFirstMember ..

theorem propagate (n : Nat) {t : State} (h : Tidy s t) (p : PointNo) : Tidy s (State.propagate n c p t) := by
  induction n generalizing t p with
  | zero => exact h
  | succ n ih =>
    unfold State.propagate
    split
    · exact h
    · exact .ite (fun _ => .ite (fun _ => ih (h.reevalGroup ..) _) fun _ => h.reevalGroup ..) fun _ => h

theorem carryUp (h : Tidy s t) : Tidy s (t.carryUp c q) := h.propagate ..

theorem reevaluate (h : Tidy s t) (cause : Cause) : Tidy s (t.reevaluate c q cause) := by
  unfold State.reevaluate
  cases (t.pt q).kind with
  | field => exact .ite (fun _ => (h.reevalField ..).carryUp ..) fun _ => h.reevalField ..
  | group => exact .ite (fun _ => (h.reevalGroup ..).carryUp ..) fun _ => h.reevalGroup ..
  | spare => exact .ite (fun _ => h.carryUp ..) fun _ => h

theorem acknowledge (h : Tidy s t) : Tidy s (t.acknowledge c q) := by
  unfold State.acknowledge
  dsimp only
  split
  · exact reevaluate c q (h.trans (.of_same (by rfl))) _
  · exact reevaluate c q (((h.transition ..).clearFirstMember c q).trans (.of_same (by rfl))) _

theorem resetTo (h : Tidy s t) (st : SeqState) : Tidy s (t.resetTo c q st) := (h.transition ..).clearFirstMember ..

theorem setService (h : Tidy s t) (cause : Cause) (v : Service) (n : Option Nat) : Tidy s (t.setService c q cause v n) :=
  emitPoint c q (h.trans (.of_same (by rfl))) ..

theorem forceNormal (h : Tidy s t) (cause : Cause) : Tidy s (t.forceNormal c q cause) := by
  unfold State.forceNormal
  exact .ite (fun _ => h) fun _ => h.transition ..

theorem leaveService (h : Tidy s t) (cause : Cause) (v : Service) (n : Option Nat) :
    Tidy s (t.leaveService c q cause v n) :=
  (((h.forceNormal ..).setService ..).clearFirstMember ..).carryUp ..

theorem returnToService (h : Tidy s t) (cause : Cause) : Tidy s (t.returnToService c q cause) := by
  unfold State.returnToService
  exact carryUp c q (.ite (fun _ => (h.setService ..).transition ..) fun _ => h.setService ..)

theorem ackList (r : Ring) (l : List PointNo) : Tidy s (s.ackList c r l).1 := by
  have step (acc : State × Nat) : Tidy acc.1 (l.foldl (offerAck c r) acc).1 := by
    induction l generalizing acc with
    | nil => exact refl _
    | cons p l ih =>
      refine trans ?_ (ih _)
      unfold offerAck
      split
      · exact acknowledge c p (refl _)
      · exact refl _
  exact step (s, 0)

theorem resetAll (r : Ring) (l : List PointNo) (acc : State × Nat) : Tidy acc.1 (l.foldl (offerReset c r) acc).1 := by
  induction l generalizing acc with
  | nil => exact refl _
  | cons p l ih =>
    refine trans ?_ (ih _)
    unfold offerReset
    split
    · split
      · exact refl _
      · exact resetTo c p (refl _) _
    · exact refl _

end Tidy

/-! ### The requests and the entries -/

section
variable (s : State) (p : Port) (f : Frame) (q : PointNo) (c : Claim) (e : ChangeEntry)

theorem tidy_ownSetPoint : Tidy s (s.ownSetPoint p f) := by
  unfold State.ownSetPoint
  have h := Tidy.refl s
  dsimp only
  split
  · exact h.respond ..
  · refine .ite (fun _ => h.respond ..) fun _ => ?_
    split
    · exact h.respond ..
    · exact Tidy.respond (.of_same (by rfl)) ..

theorem tidy_ownSetMap : Tidy s (s.ownSetMap p f) := by
  unfold State.ownSetMap
  have h := Tidy.refl s
  dsimp only
  split
  · exact h.respond ..
  · exact Tidy.respond (.of_same (by rfl)) ..
  · split
    · exact h.respond ..
    · exact .ite (fun _ => Tidy.respond (.of_same (by rfl)) ..) fun _ => h.respond ..

theorem tidy_ownAckPoint : Tidy s (s.ownAckPoint p f) := by
  unfold State.ownAckPoint
  have h := Tidy.refl s
  exact .ite (fun _ => h.respond ..) fun _ => .ite (fun _ => (h.acknowledge ..).respond ..) fun _ => h.respond ..

theorem tidy_ownAckMembers : Tidy s (s.ownAckMembers p f) := (Tidy.ackList ..).respond ..

theorem tidy_ownAckClass : Tidy s (s.ownAckClass p f) := by
  unfold State.ownAckClass
  split
  · exact (Tidy.refl s).respond ..
  · exact (Tidy.ackList ..).respond ..

theorem tidy_ownAckAll : Tidy s (s.ownAckAll p f) := (Tidy.ackList ..).respond ..

theorem tidy_ownResetPoint : Tidy s (s.ownResetPoint p f) := by
  unfold State.ownResetPoint
  have h := Tidy.refl s
  dsimp only
  split
  · exact h.respond ..
  · exact (h.resetTo ..).respond ..

theorem tidy_ownResetAll : Tidy s (s.ownResetAll p f) := (Tidy.resetAll _ _ allPoints (s, 0)).respond ..

theorem tidy_ownShelve : Tidy s (s.ownShelve p f) := by
  unfold State.ownShelve
  have h := Tidy.refl s
  refine .ite (fun _ => h.respond ..) fun _ => .ite (fun _ => h.respond ..) fun _ => ?_
  split
  · exact h.respond ..
  · exact (h.setService ..).respond ..
  · exact (h.leaveService ..).respond ..

theorem tidy_ownUnshelve : Tidy s (s.ownUnshelve p f) := by
  unfold State.ownUnshelve
  have h := Tidy.refl s
  dsimp only
  split
  · exact (h.returnToService ..).respond ..
  · exact h.respond ..
  · exact h.respond ..

theorem tidy_removePoint : Tidy s (s.removePoint c q) := by
  unfold State.removePoint
  exact .ite (fun _ => (Tidy.refl s).leaveService ..) fun _ => (Tidy.refl s).setService ..

theorem tidy_restorePoint : Tidy s (s.restorePoint c q) := by
  unfold State.restorePoint
  exact .ite (fun _ => (Tidy.refl s).returnToService ..) fun _ => (Tidy.refl s).setService ..

theorem tidy_ownRemove : Tidy s (s.ownRemove p f) := by
  unfold State.ownRemove
  exact .ite (fun _ => (Tidy.refl s).respond ..) fun _ => (tidy_removePoint ..).respond ..

theorem tidy_ownRestore : Tidy s (s.ownRestore p f) := by
  unfold State.ownRestore
  exact .ite (fun _ => (tidy_restorePoint ..).respond ..) fun _ => (Tidy.refl s).respond ..

theorem tidy_shelveExpired : Tidy s (s.shelveExpired q) := by
  unfold State.shelveExpired
  split
  · exact (Tidy.refl s).returnToService ..
  · exact .refl s
  · exact .refl s

theorem tidy_reevalMapped (m : MapEntry) : Tidy s (s.reevalMapped e m) := by
  unfold State.reevalMapped
  split
  · exact .refl s
  · exact (Tidy.refl s).reevaluate ..

theorem tidy_recordInput (b : Option Level) (d : Disposition) (m : Option PointNo) :
    Tidy s (s.recordInput e b d m) := (Tidy.refl s).append ..

theorem tidy_applyThrough (m : MapEntry) : Tidy s (s.applyThrough e m) := by
  unfold State.applyThrough
  have h : Tidy s (s.setEnt e.input m) := .of_same (by rfl)
  exact .ite (fun _ => h.trans (tidy_recordInput ..)) fun _ => h

theorem tidy_lockInput : Tidy s s.lockInput := by
  unfold State.lockInput
  exact .ite (fun _ => .of_same (by rfl)) fun _ => .of_same (by rfl)

theorem tidy_handleLevel : Tidy s (s.handleLevel e) := by
  unfold State.handleLevel
  have h : Tidy s (s.loadInput e) := by rw [loadInput_eq]; exact (.of_same (by rfl))
  refine .ite (fun _ => .ite (fun _ => ?_) fun _ => ?_) fun _ => .ite (fun _ => ?_) fun _ => ?_
  · exact (h.trans (tidy_applyThrough ..)).trans (tidy_reevalMapped ..)
  · exact h.trans (tidy_applyThrough ..)
  · have ht : Tidy s ((s.loadInput e).setEnt e.input { s.ent e.input with appliedLevel := e.level }) := h.trans (.of_same (by rfl))
    exact ((ht.trans (tidy_recordInput ..)).handOn _).trans (tidy_lockInput _)
  · exact ((h.trans (tidy_recordInput ..)).handOn _).trans (tidy_lockInput _)

theorem tidy_handleQuality : Tidy s (s.handleQuality e) := by
  unfold State.handleQuality
  refine .ite (fun _ => .ite (fun _ => ?_) fun _ => ?_) fun _ => .ite (fun _ => .of_same (by rfl)) fun _ => .refl s
  · exact (tidy_applyThrough ..).trans (tidy_reevalMapped ..)
  · exact tidy_applyThrough ..

theorem tidy_startPoint (k : PointQuality) (cond : Condition) : Tidy s (s.startPoint q k cond) := by
  unfold State.startPoint
  have h : Tidy s ((s.recordQuality s.startClaim q .start k).setPt q
      { (s.recordQuality s.startClaim q .start k).pt q with condition := cond }) :=
    ((Tidy.refl s).recordQuality s.startClaim q .start k).trans (.of_same (by rfl))
  exact .ite (fun _ => h.transition ..) fun _ => h

theorem tidy_evaluatePoint : Tidy s (s.evaluatePoint q) := by
  unfold State.evaluatePoint
  have h : Tidy s (s.loadEntries q) := .of_same (by rfl)
  split
  · exact tidy_startPoint ..
  · exact h.trans (tidy_startPoint ..)
  · exact tidy_startPoint ..

theorem tidy_evaluateNext (g : Bool) : Tidy s (s.evaluateNext g) := by
  unfold State.evaluateNext
  split
  · exact .refl s
  · next x _ =>
    exact .ite (fun _ => ((tidy_evaluatePoint s x).trans (.of_same (by rfl))).settle) fun _ => .refl s

theorem tidy_recordMode (st : TimeStamp) (b a : Mode) (o : Option Bool) (r : Bool) (port : Option Port) :
    Tidy s (s.recordMode st b a o r port) := (Tidy.refl s).append ..

theorem tidy_startRun (a b : Bool) : Tidy s (s.startRun p a b) := by
  have h : Tidy s { s with startAcked := a, mode := .starting, inputs := mapEntries InputRec.requeue s.inputs } :=
    (.of_same (by rfl))
  exact (h.trans (tidy_recordMode ..)).placeMode _

theorem tidy_beginEvaluation : Tidy s s.beginEvaluation := .of_same (by rfl)

theorem tidy_ownEnterRun : Tidy s (s.ownEnterRun p f) := by
  unfold State.ownEnterRun
  have h := Tidy.refl s
  split
  · exact h.respond ..
  · split
    · exact h.respond ..
    · exact ((tidy_startRun ..).respond ..).trans (tidy_beginEvaluation _)

theorem tidy_restartRun : Tidy s (s.restartRun p f) := by
  unfold State.restartRun
  exact .ite (fun _ => ((tidy_startRun ..).respond ..).trans (tidy_beginEvaluation _)) fun _ => (Tidy.refl s).respond ..

theorem tidy_endEvaluation : Tidy s s.endEvaluation := by
  have h : Tidy s { s with mode := .run } := .of_same (by rfl)
  exact (h.trans (tidy_recordMode ..)).placeMode _

theorem tidy_afterConfig : Tidy s (s.afterConfig p) := by
  unfold State.afterConfig
  have h := Tidy.refl s
  split
  · exact h
  · split
    · exact .ite (fun _ => h.respond ..) fun _ => h.setStn id
    all_goals exact h.respond ..

theorem tidy_quietPoints : Tidy s s.quietPoints := by
  have h : Tidy s { s.quietPoints with changeQueue := s.changeQueue } := .of_same (by rfl)
  exact ⟨h.ports, h.intakes, fun _ => Nat.zero_le _, h.clock⟩

theorem tidy_configPorts : Tidy s s.configPorts := .foldl tidy_configPort allPorts s

theorem tidy_takeEngineClaim (k : EngineClaim) : Tidy s (s.takeEngineClaim k) := by
  have h : Tidy s { s with engineClaim := none } := .of_same (by rfl)
  have hm := (h.trans (tidy_quietPoints _)).trans
    (tidy_recordMode _ k.stamp k.before .config none k.restart (some k.port))
  unfold State.takeEngineClaim
  exact (hm.trans (tidy_configPorts _)).trans (tidy_afterConfig ..)

end

theorem tidy_exec_engineSide {c : Instr} (hc : atEngineSide c = true) {s t : State} (h : exec c s = .next t) :
    Tidy s t := by
  have hs := Tidy.refl s
  cases c
  case setPoint p => cases h; exact .live (.runRequest (fun f u => tidy_ownSetPoint u p f) ..)
  case setMap p => cases h; exact .live (.runRequest (fun f u => tidy_ownSetMap u p f) ..)
  case ackPoint p => cases h; exact .live (.runRequest (fun f u => tidy_ownAckPoint u p f) ..)
  case ackPointMembers p => cases h; exact .live (.runRequest (fun f u => tidy_ownAckMembers u p f) ..)
  case ackClass p => cases h; exact .live (.runRequest (fun f u => tidy_ownAckClass u p f) ..)
  case ackAll p => cases h; exact .live (.runRequest (fun f u => tidy_ownAckAll u p f) ..)
  case resetPoint p => cases h; exact .live (.runRequest (fun f u => tidy_ownResetPoint u p f) ..)
  case resetAll p => cases h; exact .live (.runRequest (fun f u => tidy_ownResetAll u p f) ..)
  case shelve p => cases h; exact .live (.runRequest (fun f u => tidy_ownShelve u p f) ..)
  case unshelve p => cases h; exact .live (.runRequest (fun f u => tidy_ownUnshelve u p f) ..)
  case remove p => cases h; exact .live (.runRequest (fun f u => tidy_ownRemove u p f) ..)
  case restore p => cases h; exact .live (.runRequest (fun f u => tidy_ownRestore u p f) ..)
  case shelveExpiry q => cases h; exact .live (.ite (fun _ => (tidy_shelveExpired s q).settle) fun _ => hs)
  all_goals cases hc

end Sys2Proof.Machine
end

section
/-! PROOFS. What keeps the queues within their bounds: the field path, the link, the changes of mode and the Timebase; and that
every step does (R71, R74, R124, R177, R183). -/

namespace Sys2Proof.Machine

namespace Tidy

variable {s t u : State}

theorem of_filters {I : InputNo → Prop} (h : Filters s t I) : Tidy s t := by
  have hr : Tidy s { t with changeQueue := s.changeQueue } := by rw [h.rest]; exact (of_same (by rfl))
  exact ⟨hr.ports, hr.intakes, h.bound, hr.clock⟩

theorem filters (h : Tidy s t) {I : InputNo → Prop} (k : Filters t u I) : Tidy s u := h.trans (of_filters k)

theorem link (h : Tidy s t) (l : Link) : Tidy s { t with link := l } := h.trans (of_same (by rfl))

theorem setUnit (h : Tidy s t) (v : UnitNo) (r : UnitRec) : Tidy s (t.setUnit v r) := h.trans (of_same (by rfl))

theorem turns (h : Tidy s t) (k : Turns t u) : Tidy s u := by
  rw [k.rest]
  exact h.link _

theorem endTurn (h : Tidy s t) (v : UnitNo) : Tidy s (t.endTurn v) := h.turns (turns_endTurn t v).1

end Tidy

section
variable (s : State) (u : UnitNo) (st : TimeStamp) (p : Port) (f : Frame)

theorem tidy_sampleLine (l : LineNo) (level : Level) : Tidy s (s.sampleLine l level) := by
  unfold State.sampleLine
  have h (r : LineRec) : Tidy s (s.setLine l r) := .of_same (by rfl)
  exact .ite (fun _ => h _) fun _ => .ite (fun _ => (h _).filters (filters_acceptChange ..)) fun _ => h _

theorem tidy_pollExpiry : Tidy s s.pollExpiry := by
  unfold State.pollExpiry
  have h := (Tidy.refl s).link { s.link with pollTimer := some s.link.pollCycle }
  dsimp only
  split
  · exact h.turns (turns_startCycle _).1
  · exact h.link _

theorem tidy_identityMatch (b : List Byte) : Tidy s (s.identityMatch u b) := by
  unfold State.identityMatch
  have h (r : UnitRec) := (Tidy.refl s).setUnit u r
  exact .ite (fun _ => h _) fun _ => .ite (fun _ => h _) fun _ => (h _).handOn _

theorem tidy_snapshotGood (b : List Byte) : Tidy s (s.snapshotGood u b) :=
  (((Tidy.refl s).setUnit ..).filters (filters_snapshotClaim ..)).setUnit ..

theorem tidy_reports (l : List Report) : Tidy s (l.foldl (handReport u st) s) :=
  .foldl (f := handReport u st) (fun s _ => .of_filters (filters_remoteReport s ..)) l s

theorem tidy_changesGood (b : List Byte) : Tidy s (s.changesGood u b st) := by
  unfold State.changesGood
  have h (r : UnitRec) := (Tidy.refl s).setUnit u r
  have hr (r : UnitRec) (l : List Report) : Tidy s (l.foldl (handReport u st) (s.setUnit u r)) :=
    (h r).trans (tidy_reports ..)
  refine .ite (fun _ => (h _).endTurn u) fun _ => .ite (fun _ => ?_) fun _ =>
    .ite (fun _ => .ite (fun _ => ?_) fun _ => ?_) fun _ => (hr _ _).endTurn u
  · exact (((h _).filters (filters_lostClaim ..)).handOn _).endTurn u
  · exact ((hr _ _).setUnit ..).link _
  · exact ((hr _ _).setUnit ..).endTurn u

theorem tidy_goodAnswer (x : Exchange) (b : List Byte) : Tidy s (s.goodAnswer x b st) := by
  unfold State.goodAnswer
  refine .ite (fun _ => (Tidy.refl s).endTurn _) fun _ => ?_
  split
  · exact (tidy_identityMatch ..).endTurn _
  · exact (tidy_snapshotGood ..).endTurn _
  · exact tidy_changesGood ..

theorem tidy_countMiss : Tidy s (s.countMiss u) := by
  unfold State.countMiss
  have h (r : UnitRec) := (Tidy.refl s).setUnit u r
  refine .ite (fun _ => .ite (fun _ => h _) fun _ => ?_) fun _ => h _
  exact (Tidy.ite (fun _ => (h _).filters (filters_lostClaim ..)) fun _ => h _).handOn _

theorem tidy_missedAnswer (x : Exchange) : Tidy s (s.missedAnswer x) :=
  (Tidy.ite (fun _ => .refl s) fun _ => tidy_countMiss ..).endTurn _

theorem tidy_linkByteWaiting (x : Exchange) (b : RxByte) : Tidy s (s.linkByteWaiting x b) := by
  unfold State.linkByteWaiting
  have h (r : LinkRx) : Tidy s (s.setLinkRx r) := (Tidy.refl s).link _
  split
  · exact .ite (fun _ => h _) fun _ => .refl s
  · refine .ite (fun _ => h _) fun _ => ?_
    split
    · exact h _
    · exact .ite (fun _ => h _) fun _ => .ite (fun _ => (h _).trans (tidy_goodAnswer ..)) fun _ => h _

theorem tidy_linkByte (b : RxByte) : Tidy s (s.linkByte b) := by
  unfold State.linkByte
  split
  · exact .refl s
  · exact .ite (fun _ => .refl s) fun _ => tidy_linkByteWaiting ..

theorem tidy_linkBytes (l : List RxByte) : Tidy s (s.linkBytes l) := .foldl tidy_linkByte l s

theorem tidy_configureUnit (b : Bool) (d : Nat) : Tidy s (s.configureUnit u b d) := by
  unfold State.configureUnit
  have h (r : UnitRec) : Tidy s ((s.setUnit u r).voidExchange u) := ((Tidy.refl s).setUnit u r).link _
  exact .ite (fun _ => (h _).filters (filters_lostClaim ..)) fun _ => h _

theorem tidy_ownSetInputs : Tidy s (s.ownSetInputs p f) := by
  unfold State.ownSetInputs
  split
  · exact (Tidy.refl s).respond ..
  · next c _ =>
    have h : Tidy s { s with settings := c } := .of_same (by rfl)
    exact (h.filters (filters_storeSettings s c)).respond ..

theorem tidy_ownSetUnit : Tidy s (s.ownSetUnit p f) := by
  unfold State.ownSetUnit
  have h := Tidy.refl s
  split
  · exact .ite (fun _ => (tidy_configureUnit ..).respond ..) fun _ => h.respond ..
  · exact h.respond ..

theorem tidy_ownSetLink : Tidy s (s.ownSetLink p f) := by
  unfold State.ownSetLink
  exact .ite (fun _ => ((Tidy.refl s).link _).respond ..) fun _ => (Tidy.refl s).respond ..

theorem tidy_takeEntry (kind : EntryKind) {handle : ChangeEntry → State → State} (hh : ∀ e t, Tidy t (handle e t)) :
    Tidy s (s.takeEntry kind handle) := by
  obtain h | ⟨e, rest, -, hq, h⟩ := takeEntry_cases (s := s) (kind := kind) (handle := handle) <;> rw [h]
  · exact .refl s
  · have h1 : Tidy s { s with changeQueue := rest } := by
      refine ⟨fun _ => id, fun _ => id, fun hl => ?_, id⟩
      rw [hq, List.length_cons] at hl
      exact Nat.le_of_succ_le hl
    have hf : Tidy s (s.freed rest) := h1.filters (filters_catchUp 256 _)
    exact (Tidy.ite (fun _ => hf) fun _ => hf.trans (hh e _)).settle

theorem tidy_restartUnit : Tidy s (restartUnit s u) := by
  unfold restartUnit
  exact .ite (fun _ => .refl s) fun _ => ((Tidy.refl s).setUnit ..).link _

theorem tidy_ownEnterConfig : Tidy s (s.ownEnterConfig p f) := by
  have h : Tidy s (s.leaveRun p false) := .of_same (by rfl)
  exact h.setStn id

theorem tidy_unlockAll : Tidy s s.unlockAll := by
  have hd (q : Port) : (s.unlockAll.dsp q).Fits = (s.dsp q).Fits := by
    simp only [State.unlockAll, State.dsp, getElem_mapEntries, Dispatch.Fits]
  exact ⟨fun q h => (hd q).mpr h, fun _ => id, id, id⟩

theorem tidy_lostClaims (l : List UnitNo) : Tidy s (s.lostClaims l) :=
  .foldl (fun t u => .of_filters (filters_lostClaim t u)) l s

theorem tidy_ownRestart : Tidy s (s.ownRestart p f) := by
  unfold State.ownRestart
  have h0 : Tidy s { s with flags := 0, freeCount := s.freeCount + 1 } := .of_same (by rfl)
  have h1 := (h0.trans (tidy_unlockAll _)).trans (.foldl tidy_restartUnit allUnits _)
  have hleave (t : State) : Tidy t (t.leaveRun p true) := .of_same (by rfl)
  have hstage (t : State) (x : Stage) : Tidy t (t.setStage p f x) := (Tidy.refl t).setStn id
  dsimp only
  split
  · exact ((h1.trans (tidy_lostClaims ..)).trans (hleave _)).trans (hstage ..)
  · exact ((h1.trans (hleave _)).trans (tidy_lostClaims ..)).trans (hstage ..)

theorem tidy_passTime (n : Nat) : Tidy s (s.passTime n) := by
  refine ⟨fun q h => ?_, fun q h => ?_, id, fun _ => s.now.addMs_inRange n⟩
  · simpa only [State.passTime, State.runTimers, State.setClock, State.dsp, getElem_mapEntries, Dispatch.Fits] using h
  · simpa only [State.passTime, State.runTimers, State.setClock, State.stn, getElem_mapEntries] using h

theorem tidy_resetLow : Tidy s s.resetLow := by
  refine ⟨fun q h => ?_, fun q h => ?_, id, id⟩
  · simpa only [State.resetLow, State.dsp, getElem_mapEntries, Dispatch.Fits] using h
  · simpa only [State.resetLow, State.stn, getElem_mapEntries, Station.cutOff] using h

theorem tidy_powerOn (levels : Vector Level 64) (rate : Bool) (l : List Instr) :
    Tidy s { State.powerOn levels rate with pending := l } := by
  refine ⟨fun q _ => ?_, fun q _ => ?_, fun _ => Nat.zero_le _, fun _ => ⟨Nat.zero_lt_succ _, Nat.zero_lt_succ _⟩⟩
  · simp [State.powerOn, State.dsp, Dispatch.powerOn, Dispatch.Fits]
  · match q with
    | 0 | 1 | 2 | 3 => exact Nat.zero_le 2

end

theorem tidy_exec_fieldSide {c : Instr} (hc : atFieldSide c = true) {s t : State} (h : exec c s = .next t) :
    Tidy s t := by
  have hs := Tidy.refl s
  cases c
  case lineSample l v | qualifiedChange l v => cases h; exact .live (tidy_sampleLine s l v).settle
  case chatterEndExpiry i =>
    cases h; exact .live (.ite (fun _ => (hs.filters (filters_endChatter s i)).settle) fun _ => hs)
  case discrepancyExpiry k =>
    cases h; exact .live (.ite (fun _ => (hs.filters (filters_becomeDiscrepant s k)).settle) fun _ => hs)
  case pollCycleExpiry => cases h; exact .live (.ite (fun _ => tidy_pollExpiry s) fun _ => hs)
  case identityAnswer l | snapshotAnswer l | changesAnswer l | linkFrameRejected l =>
    cases h; exact .live (tidy_linkBytes s l).settle
  case answerTimeout =>
    cases h
    refine .live ?_
    split
    · exact hs
    · exact .ite (fun _ => (tidy_missedAnswer s _).settle) fun _ => hs
  case linkGapExpiry => cases h; exact .live (hs.link _)
  case linkMessageEnd =>
    cases h
    refine .live ?_
    split
    · exact hs
    · exact .ite (fun _ => hs.link _) fun _ => hs
  case setInputs p => cases h; exact .live (.runRequest (fun f u => tidy_ownSetInputs u p f) ..)
  case setUnit p => cases h; exact .live (.runRequest (fun f u => tidy_ownSetUnit u p f) ..)
  case setLink p => cases h; exact .live (.runRequest (fun f u => tidy_ownSetLink u p f) ..)
  all_goals cases hc

theorem tidy_exec {c : Instr} {s t : State} (h : exec c s = .next t) : Tidy s t := by
  by_cases ha : keepsApart c = true
  · exact tidy_exec_apart ha h
  by_cases hf : atFieldSide c = true
  · exact tidy_exec_fieldSide hf h
  by_cases he : atEngineSide c = true
  · exact tidy_exec_engineSide he h
  have hrest : (keepsApart c || atFieldSide c || atEngineSide c) = false := by simp [ha, hf, he]
  have hs := Tidy.refl s
  cases c
  case powerOn l r => cases h; exact tidy_powerOn s l r _
  case resetNLow => cases h; exact tidy_resetLow s
  case timebaseMillisecond n => cases h; exact .live (tidy_passTime s n)
  case levelEntry => cases h; exact .live (tidy_takeEntry s _ fun e t => tidy_handleLevel t e)
  case qualityEntry => cases h; exact .live (tidy_takeEntry s _ fun e t => tidy_handleQuality t e)
  case enterRun p =>
    cases h
    refine .live ?_
    split
    · exact (tidy_restartRun ..).settle
    · exact .runRequest (fun f u => tidy_ownEnterRun u p f) ..
  case fieldPointEvaluation | groupPointEvaluation => cases h; exact .live (tidy_evaluateNext s _)
  case endOfInitialEvaluation => cases h; exact .live (.ite (fun _ => (tidy_endEvaluation s).settle) fun _ => hs)
  case enterConfig p => cases h; exact .live (.runRequest (fun f u => tidy_ownEnterConfig u p f) ..)
  case enterConfigEngineClaim =>
    cases h
    refine .live ?_
    split
    · exact hs
    · exact (tidy_takeEngineClaim s _).settle
  case restart p => cases h; exact .live (.runRequest (fun f u => tidy_ownRestart u p f) ..)
  all_goals cases hrest

/-! ### No raising waits between two commands -/

/-- The raisings are handled, where none waited before (log 11). -/
structure Drained (s t : State) : Prop where
  raisings : s.raisings = [] → t.raisings = []

namespace Drained

variable {s t : State}

theorem refl (s : State) : Drained s s := ⟨id⟩

theorem settle (s t : State) : Drained s t.settle := ⟨fun _ => settle_raisings t⟩

theorem ite {c : Prop} [Decidable c] {u : State} (h : Drained s t) (k : Drained s u) : Drained s (if c then t else u) := by
  split
  · exact h
  · exact k

theorem live {f : State → State} (h : Drained s (f s)) : Drained s (s.live f) := ite (refl s) h

theorem runRequest (s : State) (p : Port) (k : ReqKind) (form : Frame → Bool) (owner : Frame → State → State) :
    Drained s (s.runRequest p k form owner) := by
  obtain e | ⟨u, -, e | ⟨f, -, -, e⟩⟩ := runRequest_cases s p k form owner <;> rw [e]
  · exact refl s
  · exact settle ..
  · exact settle ..

theorem takeEntry (s : State) (kind : EntryKind) (handle : ChangeEntry → State → State) :
    Drained s (s.takeEntry kind handle) := by
  obtain h | ⟨e, rest, -, -, h⟩ := takeEntry_cases (s := s) (kind := kind) (handle := handle) <;> rw [h]
  · exact refl s
  · exact settle ..

theorem evaluateNext (s : State) (g : Bool) : Drained s (s.evaluateNext g) := by
  unfold State.evaluateNext
  split
  · exact refl s
  · exact ite (settle ..) (refl s)

theorem of_turns {t u : State} (h : Drained s t) (k : Turns t u) : Drained s u := by
  rw [k.rest]
  exact ⟨h.raisings⟩

theorem pollExpiry (s : State) : Drained s s.pollExpiry := by
  unfold State.pollExpiry
  dsimp only
  split
  · exact of_turns (t := { s with link := { s.link with pollTimer := some s.link.pollCycle } }) ⟨id⟩
      (turns_startCycle _).1
  · exact ⟨id⟩

theorem handResponse (p : Port) (b : List Byte) (h : Drained s t) : Drained s (t.handResponse p b) := by
  unfold State.handResponse
  dsimp only
  split <;> exact ⟨h.raisings⟩

theorem answerFromCache (s : State) (p : Port) : Drained s (s.answerFromCache p) := by
  unfold State.answerFromCache
  split
  · exact ite (handResponse _ _ ⟨id⟩) (refl s)
  · exact refl s

end Drained

theorem drained_exec {c : Instr} {s t : State} (h : exec c s = .next t) : Drained s t := by
  have hs := Drained.refl s
  cases c
  case powerOn | resetNLow => cases h; exact ⟨fun _ => rfl⟩
  case pollCycleExpiry => cases h; exact .live (.ite (.pollExpiry s) hs)
  case retransmission => cases h; exact .live (.answerFromCache s _)
  case levelEntry | qualityEntry => cases h; exact .live (.takeEntry ..)
  case fieldPointEvaluation | groupPointEvaluation => cases h; exact .live (.evaluateNext ..)
  case syncPulse => cases h; exact .live (.ite ⟨id⟩ hs)
  case timebaseMillisecond | linkGapExpiry | stationFrameReceived | stationFrameDiscarded | stationGapExpiry =>
    cases h; exact .live ⟨id⟩
  case linkMessageEnd =>
    cases h
    refine .live ?_
    split
    · exact hs
    · exact .ite ⟨id⟩ hs
  case answerTimeout =>
    cases h
    refine .live ?_
    split
    · exact hs
    · exact .ite (.settle ..) hs
  case unknownKind =>
    cases h
    refine .live ?_
    unfold State.refuseUnknown
    split
    · exact hs
    · exact .ite (.settle ..) hs
  case enterRun =>
    cases h
    refine .live ?_
    split
    · exact .settle ..
    · exact .runRequest ..
  case enterConfigEngineClaim =>
    cases h
    refine .live ?_
    split
    · exact hs
    · exact .settle ..
  case lineSample | qualifiedChange | identityAnswer | snapshotAnswer | changesAnswer | linkFrameRejected | frameEnd =>
    cases h; exact .live (.settle ..)
  case chatterEndExpiry | discrepancyExpiry | shelveExpiry | syncWatchdogExpiry | takeTimerExpiry
      | endOfInitialEvaluation =>
    cases h; exact .live (.ite (.settle ..) hs)
  all_goals cases h; exact .live (.runRequest ..)

/-- Settles O56, by the commands: each keeps every bound, and handles the raisings that it hands on. -/
theorem queuesKept : Obligations.QueuesKept := by
  intro s t h
  have ht : Tidy s t := step_keeps (I := Tidy s) (fun _ _ k => k.trans (.of_same (by rfl)))
    (fun _ _ _ k he => k.trans (tidy_exec he)) (.refl s) h
  refine ⟨?_, fun hb hd => ?_, ht.clock⟩
  · exact (step_keeps (I := Drained s) (fun _ _ k => ⟨k.raisings⟩)
      (fun _ _ _ k he => ⟨(drained_exec he).raisings ∘ k.raisings⟩) (.refl s) h).raisings
  · obtain ⟨hf, hc, hi⟩ := bounded_detachedEmpty_iff.mp ⟨hb, hd⟩
    exact bounded_detachedEmpty_iff.mpr ⟨fun p => ht.ports p (hf p), ht.queue hc, fun p => ht.intakes p (hi p)⟩

end Sys2Proof.Machine
end

section
/-! PROOFS. What the claims at the Input Filter keep of the input records (R116 to R122). -/

namespace Sys2Proof.Machine

/-- A record that follows another has its level and its mark of a lost unit, and its reported quality is the one its marks give
if the other's was (R121, R122). -/
structure InputRec.Follows (r q : InputRec) : Prop where
  level : q.level = r.level
  lost : q.unitLost = r.unitLost
  formed : r.reported = r.formed → q.reported = q.formed

namespace InputRec.Follows

variable {r q p : InputRec}

theorem refl (r : InputRec) : r.Follows r := ⟨rfl, rfl, id⟩

theorem trans (h : r.Follows q) (k : q.Follows p) : r.Follows p :=
  ⟨k.level.trans h.level, k.lost.trans h.lost, k.formed ∘ h.formed⟩

theorem formedWith (r : InputRec) (d : Bool) (st : TimeStamp) : r.Follows (r.formedWith d st) := ⟨rfl, rfl, fun _ => rfl⟩

/-- What the change queue keeps of a record is no part of it (R124). -/
theorem queued (r : InputRec) (l : Level) (k : InQuality) (d : Bool) :
    r.Follows { r with queuedLevel := l, queuedQuality := k, deferred := d } := ⟨rfl, rfl, id⟩

end InputRec.Follows

theorem Queues.follows {s t : State} (h : Queues s t) (j : InputNo) : (s.inp j).Follows (t.inp j) := by
  rw [h.inp j]
  exact .queued ..

/-! ### Claims that lose no unit -/

theorem follows_acceptChange (s : State) (i : InputNo) (l : Level) (st : TimeStamp) (j : InputNo) :
    (if j = i then { s.inp i with level := l } else s.inp j).Follows ((s.acceptChange i l st).inp j) := by
  have hq : Queues (s.judged i l st) (s.acceptChange i l st) := by
    rw [acceptChange_eq]
    exact queues_pass _ _
  refine .trans ?_ (hq.follows j)
  split
  · next e =>
    subst e
    rw [judged_inp_self]
    exact ⟨rfl, rfl, fun _ => rfl⟩
  · next hj =>
    by_cases hp : s.paired (pairOf i) = true ∧ j = partnerOf i
    · obtain ⟨hp, rfl⟩ := hp
      rw [judged_inp_partner hp]
      exact .formedWith ..
    · rw [judged_inp_of_ne hj fun hpair hj' => hp ⟨hpair, hj'⟩]
      exact .refl _

theorem follows_endChatter (s : State) (i j : InputNo) : (s.inp j).Follows ((s.endChatter i).inp j) := by
  refine .trans ?_ ((queues_produce ..).follows j)
  rw [formQuality_inp, State.inp_setInp]
  split
  · next e => exact e ▸ ⟨rfl, rfl, fun _ => rfl⟩
  · exact .refl _

theorem follows_becomeDiscrepant (s : State) (k : PairNo) (j : InputNo) :
    (s.inp j).Follows ((s.becomeDiscrepant k).inp j) := by
  by_cases hj : OfPair k j
  · rw [(becomeDiscrepant_spec s k).1 j hj]
    exact .trans (.formedWith ..) (.queued ..)
  · rw [(filters_becomeDiscrepant s k).off j hj]
    exact .refl _

theorem follows_formPair {s t : State} {k : PairNo} {j : InputNo} (h : (s.inp j).level = (t.inp j).level)
    (hl : (s.inp j).unitLost = (t.inp j).unitLost) (hj : OfPair k j) : (t.inp j).Follows ((s.formPair k).inp j) := by
  rw [formPair_inp hj]
  exact ⟨h, hl, fun _ => rfl⟩

theorem follows_settlePair (b s : State) (k : PairNo) (j : InputNo) : (s.inp j).Follows ((settlePair b s k).inp j) := by
  by_cases hj : OfPair k j
  · obtain h | h | h := settlePair_cases b s k
    · rw [h]
      exact .refl _
    · rw [h]
      have hstop : (s.stopPair k).inp j = { s.inp j with discrepant := false } := setDiscrepant_inp (s := s.setPairTimer k none) hj
      exact follows_formPair (by rw [hstop]) (by rw [hstop]) hj
    · rw [h]
      exact follows_formPair (s := s.timePair k) rfl rfl hj
  · rw [(filters_settlePair b s k).off j hj]
    exact .refl _

theorem follows_foldl {α : Type} {f : State → α → State} (hf : ∀ (t : State) a j, (t.inp j).Follows ((f t a).inp j)) (l : List α)
    (s : State) (j : InputNo) : (s.inp j).Follows ((l.foldl f s).inp j) := by
  induction l generalizing s with
  | nil => exact .refl _
  | cons a l ih => exact (hf s a j).trans (ih _)

theorem follows_storeSettings (s : State) (f : FilterSettings) (j : InputNo) :
    (s.inp j).Follows ((s.storeSettings f).inp j) :=
  follows_foldl (follows_settlePair s) allPairs { s with settings := f } j

/-! ### Where the inputs lie -/

theorem val_lineInput (l : LineNo) : (lineInput l).val = l.val := Nat.mod_eq_of_lt (by omega)

theorem unitInputs_range {u : UnitNo} {i : InputNo} (h : i ∈ unitInputs u) :
    64 * (u.val + 1) ≤ i.val ∧ i.val < 64 * (u.val + 2) := by
  obtain ⟨l, hl, rfl⟩ := List.mem_map.mp h
  rw [List.mem_range] at hl
  rw [val_remoteInput u hl]
  omega

theorem lineInput_notMem_unitInputs (l : LineNo) (u : UnitNo) : lineInput l ∉ unitInputs u := fun h => by
  have := (unitInputs_range h).1
  rw [val_lineInput] at this
  omega

theorem notMem_unitInputs_of_ne {u v : UnitNo} {i : InputNo} (hi : i ∈ unitInputs v) (h : v ≠ u) : i ∉ unitInputs u :=
  fun hu => h (Fin.ext (by have := unitInputs_range hi; have := unitInputs_range hu; omega))

theorem lineInput_injective {l m : LineNo} (h : lineInput l = lineInput m) : l = m := by
  have e := congrArg Fin.val h
  rw [val_lineInput, val_lineInput] at e
  exact Fin.ext e

/-! ### The records in step -/

/-- The records of the inputs are in step with the scanner, their marks and the units, but for the loss of the units that
`X` names (R116, R121, R122). -/
structure State.InputsSound (s : State) (X : UnitNo → Prop) : Prop where
  scanner : s.ScannerAgrees
  formed : s.QualityFormed
  lost : ∀ u, ¬ X u → (s.unit u).state ≠ .online → ∀ i ∈ unitInputs u, (s.inp i).unitLost = true

namespace State.InputsSound

variable {s t : State} {X Y : UnitNo → Prop}

theorem mono (h : s.InputsSound X) (hXY : ∀ u, X u → Y u) : s.InputsSound Y :=
  ⟨h.scanner, h.formed, fun u hu => h.lost u fun e => hu (hXY u e)⟩

/-- Records that follow, under lines that keep their levels and units that do not leave ONLINE. -/
theorem follow (h : s.InputsSound X) (hi : ∀ j, (s.inp j).Follows (t.inp j))
    (hl : ∀ l, (t.line l).qualified = (s.line l).qualified)
    (hu : ∀ u, (s.unit u).state = .online → (t.unit u).state = .online) : t.InputsSound X where
  scanner l := by rw [hl, (hi _).level, h.scanner]
  formed j := (hi j).formed (h.formed j)
  lost u hx hs i hm := by rw [(hi i).lost]; exact h.lost u hx (fun e => hs (hu u e)) i hm

theorem of_same (h : s.InputsSound X) (hi : t.inputs = s.inputs) (hl : t.lines = s.lines)
    (hu : ∀ u, (t.unit u).state = (s.unit u).state) : t.InputsSound X :=
  h.follow (fun j => by unfold State.inp; rw [hi]; exact .refl _) (fun l => by unfold State.line; rw [hl])
    fun u e => (hu u).trans e

theorem unit_of_filters {I : InputNo → Prop} (k : Filters s t I) (u : UnitNo) : t.unit u = s.unit u := by
  unfold State.unit
  rw [k.link]

theorem line_of_filters {I : InputNo → Prop} (k : Filters s t I) (l : LineNo) : t.line l = s.line l := by
  have e := congrArg State.lines k.rest
  unfold State.line
  rw [e]

theorem filters (h : s.InputsSound X) {I : InputNo → Prop} (k : Filters s t I)
    (hi : ∀ j, (s.inp j).Follows (t.inp j)) : t.InputsSound X :=
  h.follow hi (fun l => by rw [line_of_filters k]) fun u => (unit_of_filters k u ▸ id)

/-- A unit record stored: the unit is named, is ONLINE, or was lost before. -/
theorem setUnit (h : s.InputsSound X) {u : UnitNo} {r : UnitRec} (hY : ∀ v, v ≠ u → X v → Y v)
    (hu : Y u ∨ r.state = .online ∨ ¬ X u ∧ (s.unit u).state ≠ .online) : (s.setUnit u r).InputsSound Y where
  scanner := h.scanner
  formed := h.formed
  lost v hv hs i hi := by
    by_cases e : v = u
    · subst e
      rw [State.unit_setUnit_self] at hs
      obtain hy | ho | ⟨hx, ho⟩ := hu
      · exact absurd hy hv
      · exact absurd ho hs
      · exact h.lost v hx ho i hi
    · rw [State.unit_setUnit_of_ne _ _ e] at hs
      exact h.lost v (fun hx => hv (hY v e hx)) hs i hi

/-- The change of a unit record that keeps the unit's state. -/
theorem setUnit_same (h : s.InputsSound X) {u : UnitNo} {r : UnitRec} (hr : r.state = (s.unit u).state) :
    (s.setUnit u r).InputsSound X := by
  refine h.of_same rfl rfl fun v => ?_
  rw [State.unit_setUnit]
  split
  · next e => rw [hr, e]
  · rfl

/-- A lost-state claim of a unit makes up for its loss (R121). -/
theorem lostClaim (h : s.InputsSound X) (u : UnitNo) : (s.lostClaim u).InputsSound fun v => X v ∧ v ≠ u := by
  have hk := filters_lostClaim s u
  obtain ⟨hin, hout, -⟩ := lostClaim_spec s u
  refine ⟨fun l => ?_, fun j => ?_, fun v hv hs i hi => ?_⟩
  · rw [hout _ (lineInput_notMem_unitInputs l u), line_of_filters hk, h.scanner]
  · by_cases hj : j ∈ unitInputs u
    · rw [hin j hj]
      rfl
    · rw [hout j hj]
      exact h.formed j
  · by_cases e : v = u
    · subst e
      rw [hin i hi]
      rfl
    · rw [hout i (notMem_unitInputs_of_ne hi e)]
      rw [unit_of_filters hk] at hs
      exact h.lost v (fun hx => hv ⟨hx, e⟩) hs i hi

/-- A snapshot claim of a unit finds its inputs (R121). -/
theorem snapshotClaim (h : s.InputsSound X) (u : UnitNo) (levels : BitVec 64) (st : TimeStamp) :
    (s.snapshotClaim u levels st).InputsSound fun v => X v ∨ v = u := by
  have hk := filters_snapshotClaim s u levels st
  have hq := queues_snapshotClaim (s := s) (u := u) (levels := levels) (st := st)
  refine ⟨fun l => ?_, fun j => ?_, fun v hv hs i hi => ?_⟩
  · rw [hk.off _ (lineInput_notMem_unitInputs l u), line_of_filters hk, h.scanner]
  · by_cases hj : j ∈ unitInputs u
    · refine (hq.follows j).formed ?_
      rw [pictured_inp hj]
      rfl
    · rw [hk.off j hj]
      exact h.formed j
  · rw [hk.off i (notMem_unitInputs_of_ne hi fun e => hv (.inr e))]
    rw [unit_of_filters hk] at hs
    exact h.lost v (fun hx => hv (.inl hx)) hs i hi

/-- A change accepted at an input that is no local line's. -/
theorem remoteReport (h : s.InputsSound X) (u : UnitNo) {n : Nat} (hn : n < 64) (l : Level) (st : TimeStamp) :
    (s.remoteReport (remoteInput u n) l st).InputsSound X := by
  unfold State.remoteReport
  split
  · exact h
  · have hk := filters_acceptChange s (remoteInput u n) l st
    have hf := follows_acceptChange s (remoteInput u n) l st
    refine ⟨fun m => ?_, fun j => (hf j).formed ?_, fun v hv hs i hi => ?_⟩
    · have hne : lineInput m ≠ remoteInput u n := fun e => lineInput_notMem_unitInputs m u (e ▸ mem_unitInputs u hn)
      have hlevel := (hf (lineInput m)).level
      rw [if_neg hne] at hlevel
      rw [hlevel, line_of_filters hk, h.scanner]
    · split
      · exact h.formed _
      · exact h.formed j
    · rw [unit_of_filters hk] at hs
      have hlost := h.lost v hv hs i hi
      rw [(hf i).lost]
      split
      · next e => exact e ▸ hlost
      · exact hlost

theorem sampleLine (h : s.InputsSound X) (l : LineNo) (v : Level) : (s.sampleLine l v).InputsSound X := by
  have hset {r : LineRec} (hr : r.qualified = (s.line l).qualified) : (s.setLine l r).InputsSound X := by
    refine h.follow (fun j => .refl _) (fun m => ?_) fun u => id
    rw [State.line_setLine]
    split
    · next e => rw [hr, e]
    · rfl
  unfold State.sampleLine
  dsimp only
  split
  · exact hset rfl
  · split
    · generalize hr : (s.line l).run.getD { stamp := s.now, since := s.elapsed } = run
      generalize hs1 : s.setLine l { raw := v, qualified := v, run := none } = s1
      have hinp (j : InputNo) : s1.inp j = s.inp j := by rw [← hs1]; rfl
      have hk := filters_acceptChange s1 (lineInput l) v run.stamp
      have hf := follows_acceptChange s1 (lineInput l) v run.stamp
      refine ⟨fun m => ?_, fun j => (hf j).formed ?_, fun u hu hs i hi => ?_⟩
      · rw [line_of_filters hk, (hf _).level, ← hs1, State.line_setLine]
        by_cases e : m = l
        · rw [if_pos (congrArg lineInput e), if_pos e]
        · rw [if_neg fun e' => e (lineInput_injective e'), if_neg e]
          exact h.scanner m
      · split
        · rw [hinp]
          exact h.formed _
        · rw [hinp]
          exact h.formed j
      · have hne : i ≠ lineInput l := fun e => lineInput_notMem_unitInputs l u (e ▸ hi)
        rw [(hf i).lost, if_neg hne, hinp]
        refine h.lost u hu (fun e => hs ?_) i hi
        rw [unit_of_filters hk, ← hs1]
        exact e
    · exact hset rfl

end State.InputsSound

end Sys2Proof.Machine
end

section
/-! PROOFS. What the link keeps of the input records and of its exchange (R137 to R149). -/

namespace Sys2Proof.Machine

/-- The exchange outstanding, unless void, is the one that its unit's state chooses (R139, R148). -/
def State.ExchangeSound (s : State) : Prop :=
  ∀ x, s.link.exchange = some x → x.void = false →
    (s.unit x.unit).state ≠ .notFitted ∧ x.kind = (s.unit x.unit).messageKind

/-- No unit is left out. -/
def noUnit (_ : UnitNo) : Prop := False

/-- The records of the inputs and the exchange are in step with the scanner, the marks and the units (R116, R122, R138). -/
structure State.FieldSound (s : State) : Prop where
  inputs : s.InputsSound noUnit
  exchange : s.ExchangeSound

theorem fieldSound_iff {s : State} : s.FieldSound ↔ s.ScannerAgrees ∧ s.QualityFormed ∧ s.LostWhenNotOnline :=
  ⟨fun h => ⟨h.inputs.scanner, h.inputs.formed, fun u => h.inputs.lost u id, h.exchange⟩,
    fun ⟨hs, hf, hl, hx⟩ => ⟨⟨hs, hf, fun u _ => hl u⟩, hx⟩⟩

theorem messageKind_congr {r q : UnitRec} (h : r.state = q.state) : r.messageKind = q.messageKind := by
  unfold UnitRec.messageKind
  rw [h]

theorem online_of_poll {r : UnitRec} (h : r.messageKind = .poll) : r.state = .online := by
  cases hr : r.state with
  | online => rfl
  | _ => simp [UnitRec.messageKind, hr] at h

theorem not_online_of_identify {r : UnitRec} (h : r.messageKind = .identify) : r.state ≠ .online := fun hr => by
  simp [UnitRec.messageKind, hr] at h

/-- Nothing that the records of the inputs and the exchange have to be in step with has moved. -/
structure FieldSame (s t : State) : Prop where
  inputs : ∀ j, (s.inp j).Follows (t.inp j)
  lines : ∀ l, (t.line l).qualified = (s.line l).qualified
  units : ∀ v, (t.unit v).state = (s.unit v).state
  exchange : ∀ y, t.link.exchange = some y → y.void = false →
    ∃ x, s.link.exchange = some x ∧ x.void = false ∧ x.unit = y.unit ∧ x.kind = y.kind

namespace State.ExchangeSound

variable {s t : State}

theorem same (h : s.ExchangeSound) (k : FieldSame s t) : t.ExchangeSound := by
  intro y hy hv
  obtain ⟨x, hx, hvoid, hu, hk⟩ := k.exchange y hy hv
  obtain ⟨hfit, hkind⟩ := h x hx hvoid
  rw [hu] at hfit hkind
  exact ⟨by rwa [k.units], by rw [← hk, hkind]; exact messageKind_congr (k.units _).symm⟩

/-- The Input Filter does not touch the link. -/
theorem same_link (h : s.ExchangeSound) {I : InputNo → Prop} (k : Filters s t I) : t.ExchangeSound := by
  intro x hx hv
  rw [State.InputsSound.unit_of_filters k]
  exact h x (by rwa [k.link] at hx) hv

theorem of_none (h : s.link.exchange = none) : s.ExchangeSound := fun x hx => by rw [h] at hx; cases hx

end State.ExchangeSound

namespace FieldSame

variable {s t u : State}

theorem refl (s : State) : FieldSame s s :=
  ⟨fun _ => .refl _, fun _ => rfl, fun _ => rfl, fun y hy hv => ⟨y, hy, hv, rfl, rfl⟩⟩

theorem trans (h : FieldSame s t) (k : FieldSame t u) : FieldSame s u where
  inputs j := (h.inputs j).trans (k.inputs j)
  lines l := (k.lines l).trans (h.lines l)
  units v := (k.units v).trans (h.units v)
  exchange z hz hv := by
    obtain ⟨y, hy, hvy, hu, hk⟩ := k.exchange z hz hv
    obtain ⟨x, hx, hvx, hu', hk'⟩ := h.exchange y hy hvy
    exact ⟨x, hx, hvx, hu'.trans hu, hk'.trans hk⟩

theorem of_frame (hi : t.inputs = s.inputs) (hl : t.lines = s.lines) (hk : t.link = s.link) : FieldSame s t where
  inputs j := by unfold State.inp; rw [hi]; exact .refl _
  lines l := by unfold State.line; rw [hl]
  units v := by unfold State.unit; rw [hk]
  exchange y hy hv := ⟨y, by rwa [hk] at hy, hv, rfl, rfl⟩

theorem of_apart (h : Apart s t) : FieldSame s t := of_frame h.inputs h.lines h.link

theorem of_engineSide (h : EngineSide s t) : FieldSame s t := of_frame h.inputs h.lines h.link

theorem of_filters {I : InputNo → Prop} (h : Filters s t I) (hi : ∀ j, (s.inp j).Follows (t.inp j)) : FieldSame s t where
  inputs := hi
  lines l := by rw [State.InputsSound.line_of_filters h]
  units v := by rw [State.InputsSound.unit_of_filters h]
  exchange y hy hv := ⟨y, by rwa [h.link] at hy, hv, rfl, rfl⟩

theorem ite {c : Prop} [Decidable c] (h : FieldSame s t) (k : FieldSame s u) : FieldSame s (if c then t else u) := by
  split
  · exact h
  · exact k

end FieldSame

theorem State.FieldSound.same {s t : State} (h : s.FieldSound) (k : FieldSame s t) : t.FieldSound :=
  ⟨h.inputs.follow k.inputs k.lines fun u e => (k.units u).trans e, h.exchange.same k⟩

theorem State.FieldSound.filters {s t : State} (h : s.FieldSound) {I : InputNo → Prop} (k : Filters s t I)
    (hi : ∀ j, (s.inp j).Follows (t.inp j)) : t.FieldSound := h.same (.of_filters k hi)

theorem State.FieldSound.settle {s : State} (h : s.FieldSound) : s.settle.FieldSound :=
  h.same (.of_apart (Apart.refl s).settle)

theorem State.FieldSound.respond {s : State} (h : s.FieldSound) (p : Port) (f : Frame) (st : Status) (r : List Byte) :
    (s.respond p f st r).FieldSound := h.same (.of_apart ((Apart.refl s).respond ..))

theorem State.FieldSound.ite {s t : State} {c : Prop} [Decidable c] (h : c → s.FieldSound) (k : ¬ c → t.FieldSound) :
    (if c then s else t).FieldSound := by
  split
  · next hc => exact h hc
  · next hc => exact k hc

/-! ### Turns -/

section Turns
variable {s t : State} {u : UnitNo}

theorem exchangeSound_beginExchange (h : (s.unit u).state ≠ .notFitted) : (s.beginExchange u).ExchangeSound := by
  intro x hx _
  cases hx
  exact ⟨h, rfl⟩

theorem exchangeSound_beginTurn (h : (s.unit u).state ≠ .notFitted) : (s.beginTurn u).ExchangeSound :=
  exchangeSound_beginExchange (s := s.setUnit u { s.unit u with polls := 0 }) (by rwa [State.unit_setUnit_self])

theorem exchangeSound_startCycle (s : State) : s.startCycle.ExchangeSound := by
  unfold State.startCycle
  dsimp only
  split
  · exact .of_none rfl
  · next u hu => exact exchangeSound_beginTurn (nextFitted_some hu).2.1.1

theorem exchangeSound_endTurn (s : State) (u : UnitNo) : (s.endTurn u).ExchangeSound := by
  unfold State.endTurn
  split
  · unfold State.endCycle
    split
    · exact exchangeSound_startCycle _
    · exact .of_none rfl
  · next v hv => exact exchangeSound_beginTurn (nextFitted_some hv).2.1.1

theorem inputsSound_turns {X : UnitNo → Prop} (h : s.InputsSound X) (k : Turns s t) : t.InputsSound X := by
  refine h.of_same ?_ ?_ fun v => ?_
  · rw [k.rest]
  · rw [k.rest]
  · rw [k.units v]

/-- The end of a turn leaves the exchange in step, whatever it was. -/
theorem fieldSound_endTurn (h : s.InputsSound noUnit) (u : UnitNo) : (s.endTurn u).FieldSound :=
  ⟨inputsSound_turns h (turns_endTurn s u).1, exchangeSound_endTurn s u⟩

theorem fieldSound_pollExpiry (h : s.FieldSound) : s.pollExpiry.FieldSound := by
  have hlink (l : Link) (hx : l.exchange = s.link.exchange) (hu : l.units = s.link.units) :
      FieldSame s { s with link := l } :=
    ⟨fun _ => .refl _, fun _ => rfl, fun v => by unfold State.unit; dsimp only; rw [hu],
      fun y hy hv => ⟨y, hx ▸ hy, hv, rfl, rfl⟩⟩
  have h1 := h.same (hlink { s.link with pollTimer := some s.link.pollCycle } rfl rfl)
  unfold State.pollExpiry
  dsimp only
  split
  · exact ⟨inputsSound_turns h1.inputs (turns_startCycle _).1, exchangeSound_startCycle _⟩
  · exact h.same (hlink { s.link with pollTimer := some s.link.pollCycle, due := true } rfl rfl)

end Turns

/-! ### Answers and misses -/

section Answers
variable {s : State} {u : UnitNo} {X : UnitNo → Prop}

theorem inputsSound_handOn (h : s.InputsSound X) (r : Raising) : (s.handOn r).InputsSound X :=
  h.of_same rfl rfl fun _ => rfl

/-- A unit is lost, with its claim (R121). -/
theorem inputsSound_losing (h : s.InputsSound noUnit) (r : UnitRec) : ((s.setUnit u r).lostClaim u).InputsSound noUnit := by
  have h1 : (s.setUnit u r).InputsSound (· = u) := h.setUnit (fun v _ hv => hv.elim) (.inl rfl)
  exact (h1.lostClaim u).mono fun v hv => hv.2 hv.1

theorem inputsSound_identityMatch (h : s.InputsSound noUnit) (hu : (s.unit u).state ≠ .online) (b : List Byte) :
    (s.identityMatch u b).InputsSound noUnit := by
  unfold State.identityMatch
  dsimp only
  split
  · exact h.setUnit (fun _ _ => id) (.inr (.inr ⟨id, hu⟩))
  · split
    · exact h.setUnit_same rfl
    · exact inputsSound_handOn (s := s.setUnit u { s.unit u with misses := 0, mismatch := true }) (h.setUnit_same rfl) _

theorem inputsSound_snapshotGood (h : s.InputsSound noUnit) (b : List Byte) :
    (s.snapshotGood u b).InputsSound noUnit := by
  unfold State.snapshotGood
  have h1 : (s.setUnit u { s.unit u with lastSeq := (b.getD 0 0).toNat }).InputsSound noUnit := h.setUnit_same rfl
  exact (h1.snapshotClaim u _ _).setUnit (fun v hv hx => hx.elim id hv) (.inr (.inl rfl))

theorem inputsSound_reports {l : List Report} (hl : ∀ r ∈ l, r.line < 64) (st : TimeStamp) {s : State}
    (h : s.InputsSound X) : (l.foldl (handReport u st) s).InputsSound X := by
  induction l generalizing s with
  | nil => exact h
  | cons r l ih =>
    exact ih (fun q hq => hl q (List.mem_cons_of_mem _ hq)) (h.remoteReport u (hl r List.mem_cons_self) _ _)

theorem inputsSound_beginExchange (h : s.InputsSound X) : (s.beginExchange u).InputsSound X :=
  h.of_same rfl rfl fun _ => rfl

/-- A unit with more to report is asked again, or its turn ends (R142). -/
theorem fieldSound_askedAgain (h : s.InputsSound noUnit) (hu : (s.unit u).state = .online) (n : Nat) :
    (if n < Config.pollLimit then (s.setUnit u { s.unit u with polls := n }).beginExchange u
      else (s.setUnit u { s.unit u with polls := n }).endTurn u).FieldSound := by
  have h1 : (s.setUnit u { s.unit u with polls := n }).InputsSound noUnit := h.setUnit_same rfl
  refine .ite (fun _ => ⟨inputsSound_beginExchange h1, exchangeSound_beginExchange ?_⟩) fun _ => fieldSound_endTurn h1 u
  rw [State.unit_setUnit_self, hu]
  exact nofun

/-- The unit takes the number of an answer (R142). -/
def State.taken (s : State) (u : UnitNo) (seq : Nat) : State := s.setUnit u { s.unit u with misses := 0, lastSeq := seq }

theorem inputsSound_reported (h : s.InputsSound noUnit) (seq : Nat) (b : List Byte) (st : TimeStamp) :
    ((parseReports b).foldl (handReport u st) (s.taken u seq)).InputsSound noUnit :=
  inputsSound_reports (fun _ => line_of_parseReports) st (h.setUnit_same rfl)

theorem state_reported (seq : Nat) (b : List Byte) (st : TimeStamp) :
    (((parseReports b).foldl (handReport u st) (s.taken u seq)).unit u).state = (s.unit u).state := by
  have hf := filters_reports (s := s.taken u seq) (u := u) (arrival := st) (rs := parseReports b)
    fun _ => line_of_parseReports
  rw [State.InputsSound.unit_of_filters hf, State.taken, State.unit_setUnit_self]

theorem fieldSound_changesGood (h : s.InputsSound noUnit) (hu : (s.unit u).state = .online) (b : List Byte)
    (st : TimeStamp) : (s.changesGood u b st).FieldSound := by
  have h1 := inputsSound_reported (u := u) h (b.getD 0 0).toNat (b.drop 3) st
  have hu1 := (state_reported (s := s) (u := u) (b.getD 0 0).toNat (b.drop 3) st).trans hu
  unfold State.changesGood
  dsimp only
  refine .ite (fun _ => fieldSound_endTurn (h.setUnit_same ?_) u) fun _ => .ite (fun _ => ?_) fun _ => ?_
  · rfl
  · exact fieldSound_endTurn (inputsSound_handOn (inputsSound_losing h _) _) u
  · exact .ite (fun _ => fieldSound_askedAgain h1 hu1 _) fun _ => fieldSound_endTurn h1 u

theorem fieldSound_goodAnswer (h : s.FieldSound) {x : Exchange} (hx : s.link.exchange = some x) (b : List Byte)
    (st : TimeStamp) : (s.goodAnswer x b st).FieldSound := by
  unfold State.goodAnswer
  refine .ite (fun _ => fieldSound_endTurn h.inputs _) fun hv => ?_
  have hk := (h.exchange x hx (by simpa using hv)).2
  cases hkind : x.kind with
  | identify =>
    rw [hkind] at hk
    exact fieldSound_endTurn (inputsSound_identityMatch h.inputs (not_online_of_identify hk.symm) _) _
  | snapshot => exact fieldSound_endTurn (inputsSound_snapshotGood h.inputs _) _
  | poll =>
    rw [hkind] at hk
    exact fieldSound_changesGood h.inputs (online_of_poll hk.symm) _ _

theorem inputsSound_countMiss (h : s.InputsSound noUnit) : (s.countMiss u).InputsSound noUnit := by
  unfold State.countMiss
  dsimp only
  split
  · split
    · exact h.setUnit_same rfl
    · refine inputsSound_handOn ?_ _
      split
      · exact inputsSound_losing h _
      · next hu => exact h.setUnit (fun _ _ => id) (.inr (.inr ⟨id, hu⟩))
  · exact h.setUnit_same rfl

theorem fieldSound_missedAnswer (h : s.InputsSound noUnit) (x : Exchange) : (s.missedAnswer x).FieldSound := by
  unfold State.missedAnswer
  refine fieldSound_endTurn ?_ _
  split
  · exact h
  · exact inputsSound_countMiss h

theorem fieldSame_setLinkRx (s : State) (r : LinkRx) : FieldSame s (s.setLinkRx r) :=
  ⟨fun _ => .refl _, fun _ => rfl, fun _ => rfl, fun y hy hv => ⟨y, hy, hv, rfl, rfl⟩⟩

/-- A good answer found on the line (R137). -/
theorem fieldSound_answered (h : s.FieldSound) {x : Exchange} (hx : s.link.exchange = some x) (r : LinkRx) (b : List Byte)
    (st : TimeStamp) : ((s.setLinkRx r).goodAnswer x b st).FieldSound :=
  fieldSound_goodAnswer (s := s.setLinkRx r) (h.same (fieldSame_setLinkRx s r)) hx b st

theorem fieldSound_linkByteWaiting (h : s.FieldSound) {x : Exchange} (hx : s.link.exchange = some x) (b : RxByte) :
    (s.linkByteWaiting x b).FieldSound := by
  have hrx (r : LinkRx) : (s.setLinkRx r).FieldSound := h.same (fieldSame_setLinkRx s r)
  unfold State.linkByteWaiting
  split
  · exact .ite (fun _ => hrx _) fun _ => h
  · refine .ite (fun _ => hrx _) fun _ => ?_
    split
    · exact hrx _
    · exact .ite (fun _ => hrx _) fun _ => .ite (fun _ => fieldSound_answered h hx ..) fun _ => hrx _

theorem fieldSound_linkByte (h : s.FieldSound) (b : RxByte) : (s.linkByte b).FieldSound := by
  unfold State.linkByte
  split
  · exact h
  · next x hx => exact .ite (fun _ => h) fun _ => fieldSound_linkByteWaiting h hx b

theorem fieldSound_linkBytes (l : List RxByte) {s : State} (h : s.FieldSound) : (s.linkBytes l).FieldSound := by
  induction l generalizing s with
  | nil => exact h
  | cons b l ih => exact ih (fieldSound_linkByte h b)

theorem fieldSame_messageEnd {x : Exchange} (hx : s.link.exchange = some x) (p : ExchangePhase) (r : LinkRx) :
    FieldSame s { s with link := { s.link with exchange := some { x with phase := p }, rx := r } } where
  inputs _ := .refl _
  lines _ := rfl
  units _ := rfl
  exchange y hy hv := by
    cases hy
    exact ⟨x, hx, hv, rfl, rfl⟩

end Answers

/-! ### SET_UNIT and RESTART -/

section Units
variable {s : State} {u : UnitNo}

/-- The record of a unit stored, with its exchange marked void (R148). -/
def State.refitted (s : State) (u : UnitNo) (r : UnitRec) : State := (s.setUnit u r).voidExchange u

theorem exchangeSound_refitted (h : s.ExchangeSound) (r : UnitRec) : (s.refitted u r).ExchangeSound := by
  intro y hy hv
  unfold State.refitted at hy ⊢
  rw [voidExchange_link] at hy
  obtain ⟨x, hx, rfl⟩ := Option.map_eq_some_iff.mp hy
  simp only [Bool.or_eq_false_iff, beq_eq_false_iff_ne] at hv
  have hunit : ((s.setUnit u r).voidExchange u).unit x.unit = s.unit x.unit := State.unit_setUnit_of_ne s r hv.2
  dsimp only
  rw [hunit]
  exact h x hx hv.1

theorem inputsSound_refitted {Y : UnitNo → Prop} {r : UnitRec} (h : (s.setUnit u r).InputsSound Y) :
    (s.refitted u r).InputsSound Y := h.of_same rfl rfl fun _ => rfl

theorem fieldSound_configureUnit (h : s.FieldSound) (b : Bool) (d : Nat) : (s.configureUnit u b d).FieldSound := by
  have hx := exchangeSound_refitted (u := u) h.exchange ((s.unit u).configured b d)
  refine State.FieldSound.ite (s := (s.refitted u ((s.unit u).configured b d)).lostClaim u) (fun _ => ?_) fun hc => ?_
  · have h1 : (s.refitted u ((s.unit u).configured b d)).InputsSound (· = u) :=
      inputsSound_refitted (h.inputs.setUnit (fun v _ hv => hv.elim) (.inl rfl))
    refine ⟨(h1.lostClaim u).mono fun v hv => hv.2 hv.1, hx.same_link (filters_lostClaim _ u)⟩
  · refine ⟨inputsSound_refitted (h.inputs.setUnit (Y := noUnit) (fun _ _ => id) ?_), hx⟩
    by_cases ho : (s.unit u).state = .online
    · exact .inr (.inl (by_contra fun hn => hc ⟨ho, hn⟩))
    · exact .inr (.inr ⟨id, ho⟩)

theorem exchangeSound_restartUnit (h : s.ExchangeSound) : (restartUnit s u).ExchangeSound := by
  unfold restartUnit
  dsimp only
  split
  · exact h
  · exact exchangeSound_refitted h _

end Units

end Sys2Proof.Machine
end

section
/-! PROOFS. Every command keeps the records of the inputs in step with the scanner, the marks and the units (R116, R122, R138,
R148). -/

namespace Sys2Proof.Machine

namespace State.FieldSound

variable {s t : State}

theorem decodes (h : s.FieldSound) (k : Decodes s t) : t.FieldSound := h.same (.of_apart (.of_decodes k))

theorem runRequest (h : s.FieldSound) (p : Port) {k : ReqKind} {form : Frame → Bool} {owner : Frame → State → State}
    (ho : ∀ f u, u.FieldSound → (owner f u).FieldSound) : (s.runRequest p k form owner).FieldSound :=
  runRequest_keeps (I := State.FieldSound) (fun _ _ hd h => h.decodes hd) (fun _ h => h.settle)
    (fun f u _ _ => ho f u) h p form

theorem live {f : State → State} (hs : s.FieldSound) (h : (f s).FieldSound) : (s.live f).FieldSound :=
  .ite (fun _ => hs) fun _ => h

theorem sampleLine (h : s.FieldSound) (l : LineNo) (v : Level) : (s.sampleLine l v).FieldSound := by
  refine ⟨h.inputs.sampleLine l v, ?_⟩
  have hset (r : LineRec) : (s.setLine l r).ExchangeSound := h.exchange
  unfold State.sampleLine
  dsimp only
  split
  · exact hset _
  · split
    · exact (hset _).same_link (filters_acceptChange ..)
    · exact hset _

end State.FieldSound

section
variable {s : State}

theorem fieldSame_storeSettings (s : State) (c : FilterSettings) : FieldSame s (s.storeSettings c) := by
  have h : FieldSame s { s with settings := c } := .of_frame rfl rfl rfl
  exact h.trans (.of_filters (filters_storeSettings s c) (follows_storeSettings s c))

theorem fieldSound_ownSetInputs (h : s.FieldSound) (p : Port) (f : Frame) : (s.ownSetInputs p f).FieldSound := by
  unfold State.ownSetInputs
  split
  · exact h.respond ..
  · exact (h.same (fieldSame_storeSettings s _)).respond ..

theorem fieldSound_ownSetUnit (h : s.FieldSound) (p : Port) (f : Frame) : (s.ownSetUnit p f).FieldSound := by
  unfold State.ownSetUnit
  split
  · exact .ite (fun _ => (fieldSound_configureUnit h ..).respond ..) fun _ => h.respond ..
  · exact h.respond ..

theorem fieldSame_pollCycle (s : State) (n : Nat) : FieldSame s { s with link := { s.link with pollCycle := n } } :=
  ⟨fun _ => .refl _, fun _ => rfl, fun _ => rfl, fun y hy hv => ⟨y, hy, hv, rfl, rfl⟩⟩

theorem fieldSound_ownSetLink (h : s.FieldSound) (p : Port) (f : Frame) : (s.ownSetLink p f).FieldSound := by
  unfold State.ownSetLink
  exact .ite (fun _ => (h.same (fieldSame_pollCycle s _)).respond ..) fun _ => h.respond ..

theorem fieldSound_exec_fieldSide {c : Instr} (hc : atFieldSide c = true) (hs : s.FieldSound) {t : State}
    (h : exec c s = .next t) : t.FieldSound := by
  cases c
  case lineSample l v | qualifiedChange l v => cases h; exact .live hs (hs.sampleLine l v).settle
  case chatterEndExpiry i =>
    cases h
    exact .live hs (.ite (fun _ => (hs.filters (filters_endChatter s i) (follows_endChatter s i)).settle) fun _ => hs)
  case discrepancyExpiry k =>
    cases h
    exact .live hs (.ite (fun _ => (hs.filters (filters_becomeDiscrepant s k) (follows_becomeDiscrepant s k)).settle)
      fun _ => hs)
  case pollCycleExpiry => cases h; exact .live hs (.ite (fun _ => fieldSound_pollExpiry hs) fun _ => hs)
  case identityAnswer l | snapshotAnswer l | changesAnswer l | linkFrameRejected l =>
    cases h; exact .live hs (fieldSound_linkBytes l hs).settle
  case answerTimeout =>
    cases h
    refine .live hs ?_
    split
    · exact hs
    · exact .ite (fun _ => (fieldSound_missedAnswer hs.inputs _).settle) fun _ => hs
  case linkGapExpiry => cases h; exact .live hs (hs.same (fieldSame_setLinkRx s _))
  case linkMessageEnd =>
    cases h
    refine .live hs ?_
    split
    · exact hs
    · next x hx => exact .ite (fun _ => hs.same (fieldSame_messageEnd hx _ _)) fun _ => hs
  case setInputs p => cases h; exact .live hs (hs.runRequest p fun f u hu => fieldSound_ownSetInputs hu p f)
  case setUnit p => cases h; exact .live hs (hs.runRequest p fun f u hu => fieldSound_ownSetUnit hu p f)
  case setLink p => cases h; exact .live hs (hs.runRequest p fun f u hu => fieldSound_ownSetLink hu p f)
  all_goals cases hc

/-! ### Time, RESET_N and power-on -/

theorem fieldSame_passTime (s : State) (n : Nat) : FieldSame s (s.passTime n) where
  inputs j := by
    have h : (s.passTime n).inp j = { s.inp j with chatterTimer := runDown n (s.inp j).chatterTimer } := by
      simp [State.passTime, State.runTimers, State.setClock, State.inp]
    rw [h]
    exact ⟨rfl, rfl, id⟩
  lines _ := rfl
  units _ := rfl
  exchange y hy hv := by
    obtain ⟨x, hx, rfl⟩ := Option.map_eq_some_iff.mp (show s.link.exchange.map _ = some y from hy)
    exact ⟨x, hx, hv, rfl, rfl⟩

theorem fieldSame_resetLow (s : State) : FieldSame s s.resetLow where
  inputs j := by
    have h : s.resetLow.inp j = { s.inp j with chatterTimer := none } := by simp [State.resetLow, State.inp]
    rw [h]
    exact ⟨rfl, rfl, id⟩
  lines l := by simp [State.resetLow, State.line]
  units _ := rfl
  exchange _ hy := nomatch hy

theorem fieldSound_powerOn (levels : Vector Level 64) (rate : Bool) : (State.powerOn levels rate).FieldSound := by
  refine ⟨⟨fun l => ?_, fun i => ?_, fun u _ _ i hi => ?_⟩, .of_none rfl⟩
  · rw [inp_powerOn_line, line_powerOn]
    rfl
  · by_cases h : i.val < 64
    · have hi : i = lineInput ⟨i.val, h⟩ := Fin.ext (val_lineInput ⟨i.val, h⟩).symm
      rw [hi, inp_powerOn_line]
      rfl
    · rw [inp_powerOn_remote _ _ _ (Nat.le_of_not_lt h)]
      rfl
  · have hr := (unitInputs_range hi).1
    rw [inp_powerOn_remote _ _ _ (by omega)]
    rfl

/-! ### Changes of mode -/

theorem fieldSame_startRun (s : State) (p : Port) (a b : Bool) : FieldSame s (s.startRun p a b) := by
  refine .trans ?_ (.of_apart (apart_startRun s p a b))
  refine ⟨fun j => ?_, fun _ => rfl, fun _ => rfl, fun y hy hv => ⟨y, hy, hv, rfl, rfl⟩⟩
  have h : ({ s with startAcked := a, mode := .starting, inputs := mapEntries InputRec.requeue s.inputs } : State).inp j =
      (s.inp j).requeue := by simp [State.inp]
  rw [h]
  exact .queued ..

theorem fieldSame_beginEvaluation (s : State) : FieldSame s s.beginEvaluation := .of_frame rfl rfl rfl

theorem fieldSame_begun (s : State) (p : Port) (f : Frame) (a b : Bool) :
    FieldSame s (((s.startRun p a b).respond p f .ok []).beginEvaluation) :=
  ((fieldSame_startRun s p a b).trans (.of_apart ((Apart.refl _).respond ..))).trans (fieldSame_beginEvaluation _)

theorem fieldSame_ownEnterRun (s : State) (p : Port) (f : Frame) : FieldSame s (s.ownEnterRun p f) := by
  have hr (st : Status) (r : List Byte) : FieldSame s (s.respond p f st r) := .of_apart ((Apart.refl s).respond ..)
  unfold State.ownEnterRun
  split
  · exact hr _ _
  · split
    · exact hr _ _
    · exact fieldSame_begun ..

theorem fieldSame_restartRun (s : State) (p : Port) (f : Frame) : FieldSame s (s.restartRun p f) := by
  unfold State.restartRun
  exact .ite (fieldSame_begun ..) (.of_apart ((Apart.refl s).respond ..))

theorem fieldSame_evaluateNext (s : State) (g : Bool) : FieldSame s (s.evaluateNext g) := by
  unfold State.evaluateNext
  split
  · exact .refl s
  · next q _ =>
    refine .ite (.trans ?_ (.of_apart (Apart.refl _).settle)) (.refl s)
    exact (FieldSame.of_engineSide (engineSide_evaluatePoint s q)).trans (.of_frame rfl rfl rfl)

theorem fieldSame_quietPoints (s : State) : FieldSame s s.quietPoints := by
  refine ⟨fun j => ?_, fun _ => rfl, fun _ => rfl, fun y hy hv => ⟨y, hy, hv, rfl, rfl⟩⟩
  have h : s.quietPoints.inp j = { s.inp j with deferred := false } := by simp [State.quietPoints, State.inp]
  rw [h]
  exact .queued ..

theorem fieldSame_takeEngineClaim (s : State) (c : EngineClaim) : FieldSame s (s.takeEngineClaim c) := by
  have h : FieldSame s { s with engineClaim := none } := .of_frame rfl rfl rfl
  exact (h.trans (fieldSame_quietPoints _)).trans (.of_apart (apart_takeEngineClaim s c))

theorem fieldSame_takeEntry (s : State) (kind : EntryKind) {handle : ChangeEntry → State → State}
    (hh : ∀ e t, EngineSide t (handle e t)) : FieldSame s (s.takeEntry kind handle) := by
  obtain h | ⟨e, rest, -, -, h⟩ := takeEntry_cases (s := s) (kind := kind) (handle := handle) <;> rw [h]
  · exact .refl s
  · have h1 : FieldSame s { s with changeQueue := rest } := .of_frame rfl rfl rfl
    have hf : FieldSame s (s.freed rest) :=
      h1.trans (.of_filters (filters_catchUp 256 _) (queues_catchUp 256 _).follows)
    exact hf.trans (.of_engineSide (EngineSide.ite (.refl _) (hh e _)).settle)

/-! ### RESTART -/

theorem inputsSound_restartUnit {X : UnitNo → Prop} (h : s.InputsSound X) (hX : ∀ v, (s.unit v).state = .online → X v)
    (u : UnitNo) : (restartUnit s u).InputsSound X ∧ ∀ v, ((restartUnit s u).unit v).state = .online → X v := by
  unfold restartUnit
  dsimp only
  split
  · exact ⟨h, hX⟩
  · refine ⟨inputsSound_refitted (h.setUnit (fun _ _ => id) ?_), fun v hv => hX v ?_⟩
    · by_cases hu : (s.unit u).state = .online
      · exact .inl (hX u hu)
      · by_cases hx : X u
        · exact .inl hx
        · exact .inr (.inr ⟨hx, hu⟩)
    · have e : ((s.setUnit u { s.unit u with state := .searching, misses := 0, mismatch := false }).unit v).state =
          .online := hv
      rw [State.unit_setUnit] at e
      split at e
      · cases e
      · exact e

theorem sound_restartUnits {X : UnitNo → Prop} (l : List UnitNo) {s : State} (h : s.InputsSound X)
    (hX : ∀ v, (s.unit v).state = .online → X v) (hx : s.ExchangeSound) :
    (l.foldl restartUnit s).InputsSound X ∧ (l.foldl restartUnit s).ExchangeSound := by
  induction l generalizing s with
  | nil => exact ⟨h, hx⟩
  | cons u l ih =>
    obtain ⟨h1, hX1⟩ := inputsSound_restartUnit h hX u
    exact ih h1 hX1 (exchangeSound_restartUnit hx)

theorem sound_lostClaims (l : List UnitNo) {s : State} {X : UnitNo → Prop} (h : s.InputsSound X) (hx : s.ExchangeSound) :
    (s.lostClaims l).InputsSound (fun v => X v ∧ v ∉ l) ∧ (s.lostClaims l).ExchangeSound := by
  induction l generalizing s X with
  | nil => exact ⟨h.mono fun v hv => ⟨hv, nofun⟩, hx⟩
  | cons u l ih =>
    have hl := ih (X := fun v => X v ∧ v ≠ u) (h.lostClaim u) (hx.same_link (filters_lostClaim s u))
    have e : s.lostClaims (u :: l) = (s.lostClaim u).lostClaims l := List.foldl_cons ..
    rw [e]
    refine ⟨hl.1.mono fun v hv => ⟨hv.1.1, fun hm => ?_⟩, hl.2⟩
    exact (List.mem_cons.mp hm).elim hv.1.2 hv.2

theorem mem_onlineUnits {u : UnitNo} : u ∈ s.onlineUnits ↔ (s.unit u).state = .online := by
  have hall : ∀ u, u ∈ allUnits := by decide
  simp [State.onlineUnits, hall]

theorem fieldSound_ownRestart (h : s.FieldSound) (p : Port) (f : Frame) : (s.ownRestart p f).FieldSound := by
  have h1 : FieldSame s ({ s with flags := 0, freeCount := s.freeCount + 1 } : State).unlockAll := .of_frame rfl rfl rfl
  have hs1 := h.same h1
  obtain ⟨h2, hx2⟩ := sound_restartUnits (X := (· ∈ s.onlineUnits)) allUnits (hs1.inputs.mono fun _ => False.elim)
    (fun v hv => mem_onlineUnits.mpr ((h1.units v).symm.trans hv)) hs1.exchange
  unfold State.ownRestart
  dsimp only
  generalize allUnits.foldl restartUnit ({ s with flags := 0, freeCount := s.freeCount + 1 } : State).unlockAll = s2
    at h2 hx2 ⊢
  have hleave {t : State} (ht : t.FieldSound) : (t.leaveRun p true).FieldSound := ht.same (.of_frame rfl rfl rfl)
  have hclaims {t : State} (ht : t.InputsSound (· ∈ s.onlineUnits)) (hx : t.ExchangeSound) :
      (t.lostClaims s.onlineUnits).FieldSound := by
    obtain ⟨hi, hx'⟩ := sound_lostClaims s.onlineUnits ht hx
    exact ⟨hi.mono fun v hv => hv.2 hv.1, hx'⟩
  refine State.FieldSound.decodes ?_ (decodes_setStage ..)
  refine .ite (fun _ => hleave (hclaims h2 hx2)) fun _ => hclaims (h2.of_same rfl rfl fun _ => rfl) hx2

end

theorem fieldSound_exec {c : Instr} {s t : State} (hs : s.FieldSound) (h : exec c s = .next t) : t.FieldSound := by
  by_cases ha : keepsApart c = true
  · obtain ⟨t', h', ht⟩ := exec_apart ha s
    cases h.symm.trans h'
    exact hs.same (.of_apart ht)
  by_cases he : atEngineSide c = true
  · obtain ⟨t', h', ht⟩ := exec_engineSide he s
    cases h.symm.trans h'
    exact hs.same (.of_engineSide ht)
  by_cases hf : atFieldSide c = true
  · exact fieldSound_exec_fieldSide hf hs h
  have hrest : (keepsApart c || atFieldSide c || atEngineSide c) = false := by simp [ha, hf, he]
  cases c
  case powerOn l r =>
    cases h
    exact (fieldSound_powerOn l r).same (.of_frame rfl rfl rfl)
  case resetNLow => cases h; exact hs.same (fieldSame_resetLow s)
  case timebaseMillisecond n => cases h; exact .live hs (hs.same (fieldSame_passTime s n))
  case levelEntry =>
    cases h; exact .live hs (hs.same (fieldSame_takeEntry s _ fun e t => engineSide_handleLevel t e))
  case qualityEntry =>
    cases h; exact .live hs (hs.same (fieldSame_takeEntry s _ fun e t => engineSide_handleQuality t e))
  case enterRun p =>
    cases h
    refine .live hs ?_
    split
    · exact (hs.same (fieldSame_restartRun ..)).settle
    · exact hs.runRequest p fun f u hu => hu.same (fieldSame_ownEnterRun u p f)
  case fieldPointEvaluation | groupPointEvaluation =>
    cases h; exact .live hs (hs.same (fieldSame_evaluateNext s _))
  case endOfInitialEvaluation =>
    cases h
    refine .live hs (.ite (fun _ => ?_) fun _ => hs)
    have h1 : FieldSame s { s with mode := .run } := .of_frame rfl rfl rfl
    exact (hs.same (h1.trans (.of_apart (apart_endEvaluation s)))).settle
  case enterConfig p =>
    cases h
    exact .live hs (hs.runRequest p fun f u hu => hu.same (.of_frame rfl rfl rfl))
  case enterConfigEngineClaim =>
    cases h
    refine .live hs ?_
    split
    · exact hs
    · exact (hs.same (fieldSame_takeEngineClaim s _)).settle
  case restart p => cases h; exact .live hs (hs.runRequest p fun f u hu => fieldSound_ownRestart hu p f)
  all_goals cases hrest

/-- Settles O59, by the commands: each keeps the records in step, with the exchange. -/
theorem fieldKept : Obligations.FieldKept := by
  intro s t hs hf hl h
  exact fieldSound_iff.mp (step_keeps (I := State.FieldSound) (fun _ _ hI => hI.same (.of_frame rfl rfl rfl))
    (fun _ _ _ => fieldSound_exec) (fieldSound_iff.mpr ⟨hs, hf, hl⟩) h)

end Sys2Proof.Machine
end

section
/-! PROOFS. The Point Engine takes an ENTER_CONFIG claim: what the ports are told (R94, R174). -/

namespace Sys2Proof.Machine

/-! ### One port -/

/-- An attached controller flushed, with the RESYNC and the MODE notice that CONFIG brings it (R94). -/
def Dispatch.configFlushed (d : Dispatch) : Dispatch :=
  { d with
    inService := 0, resyncPending := false, stalled := none, takeTimer := none, state := .idle
    nextNumber := noticeSucc (noticeSucc d.nextNumber)
    queue :=
      [{ number := d.nextNumber, cls := 0, content := .resync, offered := false, count := 0 },
        { number := noticeSucc d.nextNumber, cls := 0, content := .mode .config, offered := false, count := 0 }] }

/-- A controller when the mode becomes CONFIG; a detached one is not touched. -/
def Dispatch.enteredConfig (d : Dispatch) (now : TimeStamp) : Dispatch :=
  if d.state = .detached then d else d.configFlushed.tested now

/-- The arbiter beside it. -/
def Station.enteredConfig (a : Station) (d : Dispatch) : Station :=
  if d.state = .detached then a else a.withdrawn.noticed d.configFlushed.offerOf

theorem noticeSucc_ne (n : Nat) : noticeSucc n ≠ n := by
  unfold noticeSucc Config.noticeMax
  split <;> omega

theorem freshNumber_two (n : Nat) (q : List Notice) (h : q.map Notice.number = [n]) (k : Nat) :
    freshNumber q (k + 1) (noticeSucc n) = noticeSucc n := by
  unfold freshNumber
  rw [if_neg]
  have hm : ∀ m ∈ q, m.number = n := fun m hm => by simpa [h] using List.mem_map_of_mem (f := Notice.number) hm
  simp only [List.any_eq_true, beq_iff_eq, not_exists, not_and]
  exact fun m hmq e => noticeSucc_ne n (e.symm.trans (hm m hmq))

/-- The MODE notice follows the RESYNC notice. -/
theorem enqueue_atPort_mode (s : State) (p : Port) (d : Dispatch) (a : Station) (m : Notice) (mode : Mode)
    (hs : d.state ≠ .detached) (hq : d.queue = [m]) (hc : m.content = .resync) (hn : d.nextNumber = noticeSucc m.number) :
    (s.atPort p d a).enqueue p (.mode mode) controlClass = s.atPort p { d with
      queue := [m, { number := d.nextNumber, cls := controlClass, content := .mode mode, offered := false, count := 0 }]
      nextNumber := noticeSucc d.nextNumber } a := by
  have hfresh : freshNumber [m] (Config.noticeCapacity + 1) d.nextNumber = d.nextNumber := by
    rw [hn]
    exact freshNumber_two m.number [m] rfl _
  have hother : coalescesInto (NoticeContent.mode mode).identity m = false := by
    simp [coalescesInto, hc, NoticeContent.identity]
  unfold State.enqueue
  dsimp only
  rw [dsp_atPort_self, if_neg hs, hq, if_neg (by simp [hother]), if_pos (by simp [Config.noticeCapacity]), setDsp_atPort]
  unfold Dispatch.appendNotice
  dsimp only
  rw [hq, hfresh]
  rfl

/-- One port when the mode becomes CONFIG (R94). -/
theorem configPort_eq (s : State) (p : Port) :
    s.configPort p = s.atPort p ((s.dsp p).enteredConfig s.now) ((s.stn p).enteredConfig (s.dsp p)) := by
  unfold State.configPort Dispatch.enteredConfig Station.enteredConfig
  by_cases hd : (s.dsp p).state = .detached
  · rw [if_pos hd, if_pos hd, if_pos hd, atPort_self]
  · have hflush : s.flushPort p .idle = s.atPort p ((s.dsp p).flushed .idle) (s.stn p).withdrawn := by
      have h := withdraw_atPort s p ((s.dsp p).flushed .idle) (s.stn p)
      rw [← h]
      simp [State.flushPort, State.atPort, State.setStn, State.stn, State.setDsp]
    rw [if_neg hd, if_neg hd, if_neg hd, hflush,
      enqueue_atPort_nil s p _ _ .resync controlClass (by simp [Dispatch.flushed]) rfl,
      enqueue_atPort_mode s p _ _ _ .config (by simp [Dispatch.flushed]) rfl rfl rfl, testOffer_atPort]
    rfl

/-! ### Every port -/

/-- From `s` to `t` the ports of `l` have entered CONFIG, and nothing else has moved. -/
structure PortsEntered (l : List Port) (s t : State) : Prop where
  rest : t = { s with dispatch := t.dispatch, stations := t.stations }
  dsp : ∀ q, t.dsp q = if q ∈ l then (s.dsp q).enteredConfig s.now else s.dsp q
  stn : ∀ q, t.stn q = if q ∈ l then (s.stn q).enteredConfig (s.dsp q) else s.stn q

theorem portsEntered_foldl (l : List Port) (hl : l.Nodup) (s : State) : PortsEntered l s (l.foldl State.configPort s) := by
  induction l generalizing s with
  | nil => exact ⟨rfl, fun _ => rfl, fun _ => rfl⟩
  | cons p l ih =>
    rw [List.nodup_cons] at hl
    have h := ih hl.2 (s.configPort p)
    rw [configPort_eq] at h
    rw [List.foldl_cons, configPort_eq]
    refine ⟨h.rest, fun q => ?_, fun q => ?_⟩
    · rw [h.dsp]
      by_cases hq : q = p
      · subst hq
        rw [if_neg hl.1, dsp_atPort_self, if_pos List.mem_cons_self]
      · rw [dsp_atPort_of_ne _ _ _ _ hq]
        simp [hq]
    · rw [h.stn]
      by_cases hq : q = p
      · subst hq
        rw [if_neg hl.1, stn_atPort_self, if_pos List.mem_cons_self]
      · rw [stn_atPort_of_ne _ _ _ _ hq, dsp_atPort_of_ne _ _ _ _ hq]
        simp [hq]

theorem mem_allPorts : ∀ p : Port, p ∈ allPorts := by decide

theorem portsEntered_configPorts (s : State) : PortsEntered allPorts s s.configPorts :=
  portsEntered_foldl allPorts (by decide) s

theorem dsp_configPorts (s : State) (q : Port) : s.configPorts.dsp q = (s.dsp q).enteredConfig s.now := by
  rw [(portsEntered_configPorts s).dsp, if_pos (mem_allPorts q)]

theorem stn_configPorts (s : State) (q : Port) : s.configPorts.stn q = (s.stn q).enteredConfig (s.dsp q) := by
  rw [(portsEntered_configPorts s).stn, if_pos (mem_allPorts q)]

/-! ### The request that led to CONFIG -/

/-- A port's arbiter after CONFIG: the request in progress is answered, or goes on to its ENTER_RUN step (R174, R175). -/
def Station.afterConfig (a : Station) : Station :=
  match a.inProgress with
  | none => a
  | some r =>
    match r.stage with
    | .restartConfig found =>
      if found = .config then a.replied r.frame (responseBytes r.frame .ok [])
      else { a with inProgress := some { r with stage := .restartRun } }
    | .enterConfig | .handling | .waiting _ _ | .restartRun => a.replied r.frame (responseBytes r.frame .ok [])

theorem setStn_stn (s : State) (p : Port) : s.setStn p (s.stn p) = s := by simp [State.setStn, State.stn]

theorem afterConfig_eq (s : State) (p : Port) : s.afterConfig p = s.setStn p (s.stn p).afterConfig := by
  unfold State.afterConfig Station.afterConfig
  cases hr : (s.stn p).inProgress with
  | none => exact (setStn_stn s p).symm
  | some r =>
    obtain ⟨f, stage⟩ := r
    cases stage with
    | restartConfig found =>
      dsimp only
      split
      · exact State.respond_eq ..
      · rfl
    | _ => exact State.respond_eq ..

theorem afterConfig_rest (a : Station) :
    a.afterConfig = { a with
      tx := a.afterConfig.tx, waitResponse := a.afterConfig.waitResponse, inProgress := a.afterConfig.inProgress
      cache := a.afterConfig.cache } := by
  have hr (f : Frame) (b : List Byte) : a.replied f b = { a with
      tx := (a.replied f b).tx, waitResponse := (a.replied f b).waitResponse, inProgress := (a.replied f b).inProgress
      cache := (a.replied f b).cache } := by
    unfold Station.replied
    split <;> rfl
  unfold Station.afterConfig
  split
  · rfl
  · split
    · split
      · exact hr _ _
      · rfl
    all_goals exact hr _ _

/-- An answer begins on a free line and waits on a busy one (R187). -/
theorem sameLine_replied (a : Station) (f : Frame) (b : List Byte) :
    (a.replied f b).waitNotice = a.waitNotice ∧ a.SameLine (a.replied f b) := by
  unfold Station.replied
  split
  · next h => exact ⟨rfl, .inr ⟨h, b, rfl⟩⟩
  · exact ⟨rfl, .inl rfl⟩

theorem sameLine_afterConfig (a : Station) : a.afterConfig.waitNotice = a.waitNotice ∧ a.SameLine a.afterConfig := by
  unfold Station.afterConfig
  split
  · exact ⟨rfl, .inl rfl⟩
  · split
    · split
      · exact sameLine_replied ..
      · exact ⟨rfl, .inl rfl⟩
    all_goals exact sameLine_replied ..

theorem inProgress_enteredConfig (a : Station) (d : Dispatch) :
    a.enteredConfig d = { a with tx := (a.enteredConfig d).tx, waitNotice := (a.enteredConfig d).waitNotice } := by
  unfold Station.enteredConfig
  split
  · rfl
  · rw [noticed_rest]
    rfl

/-! ### What the ports hold -/

theorem queue_tested_map (d : Dispatch) (now : TimeStamp) :
    (d.tested now).queue.map (fun n => (n.number, n.content)) = d.queue.map fun n => (n.number, n.content) := by
  unfold Dispatch.tested
  split
  · split
    · rfl
    · dsimp only
      rw [List.map_map]
      refine List.map_congr_left fun m _ => ?_
      simp only [Function.comp]
      split <;> rfl
  · rfl

end Sys2Proof.Machine
end

section
/-! PROOFS. The Point Engine takes an ENTER_CONFIG claim (R174, R94, R175). -/

namespace Sys2Proof.Machine

section
variable (s : State) (c : EngineClaim)

/-- The points made quiet, with the claim taken (R174, stage 2). -/
def State.claimTaken : State := { s with engineClaim := none }.quietPoints

/-- The draft of the MODE record of the claim (R100). -/
def EngineClaim.draft : RecordDraft := otherDraft c.stamp (.mode c.before .config none c.restart) (some c.port)

theorem dsp_claimTaken (q : Port) : s.claimTaken.dsp q = s.dsp q := rfl

theorem append_stn (t : State) (b : Bool) (d : RecordDraft) (q : Port) : (t.append b d).stn q = t.stn q := by
  have h : (t.append b d).stations = t.stations := by
    unfold State.append State.testLogHigh
    have hroom : (t.makeRoom b).stations = t.stations := by
      unfold State.makeRoom
      split
      · rfl
      · split
        · rfl
        · split
          · split <;> rfl
          · rfl
    split <;> exact hroom
  unfold State.stn
  rw [h]

/-- The state with the claim's record appended. -/
def State.claimRecorded : State := s.claimTaken.append false c.draft

theorem dsp_claimRecorded (q : Port) : (s.claimRecorded c).dsp q = s.dsp q := append_dsp ..

theorem stn_claimRecorded (q : Port) : (s.claimRecorded c).stn q = s.stn q := append_stn ..

theorem now_claimRecorded : (s.claimRecorded c).now = s.now := (onlyEmits_append s.claimTaken false c.draft).now

theorem claimRecorded_eq :
    ({ s with engineClaim := none } : State).quietPoints.recordMode c.stamp c.before .config none c.restart (some c.port) =
      s.claimRecorded c := rfl

theorem takeEngineClaim_eq : s.takeEngineClaim c =
    (s.claimRecorded c).configPorts.setStn c.port ((s.claimRecorded c).configPorts.stn c.port).afterConfig := by
  unfold State.takeEngineClaim
  dsimp only
  rw [claimRecorded_eq, afterConfig_eq]

theorem claim_dsp (q : Port) : (s.takeEngineClaim c).dsp q = (s.dsp q).enteredConfig s.now := by
  rw [takeEngineClaim_eq, State.dsp_setStn, dsp_configPorts, now_claimRecorded, dsp_claimRecorded]

theorem claim_stn (q : Port) : (s.takeEngineClaim c).stn q =
    if q = c.port then ((s.stn q).enteredConfig (s.dsp q)).afterConfig else (s.stn q).enteredConfig (s.dsp q) := by
  have hstn (p : Port) : (s.claimRecorded c).configPorts.stn p = (s.stn p).enteredConfig (s.dsp p) := by
    rw [stn_configPorts, stn_claimRecorded, dsp_claimRecorded]
  rw [takeEngineClaim_eq, State.stn_setStn]
  split
  · next e => rw [e, hstn]
  · exact hstn q

/-- Beside the ports, the claim appends its record. -/
theorem claim_rest : s.takeEngineClaim c =
    { s.claimRecorded c with
      dispatch := (s.takeEngineClaim c).dispatch, stations := (s.takeEngineClaim c).stations } := by
  have h := (portsEntered_configPorts (s.claimRecorded c)).rest
  rw [takeEngineClaim_eq]
  generalize (s.claimRecorded c).configPorts = w at h ⊢
  rw [h]
  rfl

end

/-! ### What the claim leaves -/

/-- The frame of a state, carried through what only emits. -/
theorem emitted_rest {a b d e : State}
    (h1 : b = { a with
      dispatch := b.dispatch, log := b.log, flags := b.flags, stations := b.stations, raisings := b.raisings })
    (h2 : d = { b with dispatch := d.dispatch, stations := d.stations })
    (h3 : e = { d with
      dispatch := e.dispatch, log := e.log, flags := e.flags, stations := e.stations, raisings := e.raisings }) :
    e = { a with
      dispatch := e.dispatch, log := e.log, flags := e.flags, stations := e.stations, raisings := e.raisings } := by
  rw [h3, h2, h1]

theorem quiet_eq (r : PointRec) : r.quiet =
    { r with
      seqState := .normal, condition := .normal, firstMember := none, shelveTimer := none
      service := if r.service = .removed then .removed else .inService } := by
  unfold PointRec.quiet
  cases r.service <;> rfl

section
variable {s : State} (c : EngineClaim)

theorem claimed_rest : (s.takeEngineClaim c).settle =
    { s.claimTaken with
      dispatch := (s.takeEngineClaim c).settle.dispatch, log := (s.takeEngineClaim c).settle.log
      flags := (s.takeEngineClaim c).settle.flags, stations := (s.takeEngineClaim c).settle.stations
      raisings := (s.takeEngineClaim c).settle.raisings } :=
  emitted_rest (onlyEmits_append s.claimTaken false c.draft).rest (claim_rest s c) (onlyEmits_settle _).rest

theorem claim_log : (s.takeEngineClaim c).log = (s.claimRecorded c).log := by
  have e := congrArg State.log (claim_rest s c)
  exact e

theorem claim_flags : (s.takeEngineClaim c).flags = s.flags := by
  have e := congrArg State.flags (claim_rest s c)
  exact e.trans (append_flags s.claimTaken false c.draft)

theorem claim_raisings : (s.takeEngineClaim c).raisings = (s.claimRecorded c).raisings := by
  have e := congrArg State.raisings (claim_rest s c)
  exact e

theorem appendsFirst_claimed (hb : s.log.ring.length ≤ 1024) :
    AppendsFirst s (s.takeEngineClaim c).settle [c.draft] := by
  have h : Appends s (s.takeEngineClaim c) [c.draft] :=
    (appends_append (s := s.claimTaken) hb false c.draft).congr rfl (claim_log c)
  exact h.followed (appendsFirst_settle h.length)

theorem flagsOnly_claimed (hr : s.raisings = []) : FlagsOnly s (s.takeEngineClaim c).settle [] := by
  have h1 : RaisesOnly s s.claimTaken [] := .same rfl rfl rfl
  have h2 : RaisesOnly s (s.claimRecorded c) [] := h1.trans (raisesOnly_append _ _ _)
  have hflags : (s.takeEngineClaim c).flags = (s.claimRecorded c).flags :=
    (claim_flags c).trans (append_flags s.claimTaken false c.draft).symm
  have h3 : RaisesOnly s (s.takeEngineClaim c) [] :=
    h2.trans (.same hflags (claim_raisings c) (congrArg EventLog.archive (claim_log c)))
  refine (h3.trans (raisesOnly_settle _)).flagsOnly hr fun f hf => (onlyEmits_settle _).flags f ?_
  unfold State.flagSet
  rwa [claim_flags]

/-! ### The ports -/

variable {q : Port}

theorem claimed_detached (h : (s.dsp q).state = .detached) : (s.takeEngineClaim c).settle.dsp q = s.dsp q := by
  obtain ⟨k, hp, -⟩ := (onlyEmits_settle (s.takeEngineClaim c)).ports q
  have hd : (s.takeEngineClaim c).dsp q = s.dsp q := by
    rw [claim_dsp, Dispatch.enteredConfig, if_pos h]
  rw [hd] at hp
  exact hp.detached h

theorem sameLine_claim (q : Port) :
    ((s.takeEngineClaim c).stn q).waitNotice = ((s.stn q).enteredConfig (s.dsp q)).waitNotice
      ∧ ((s.stn q).enteredConfig (s.dsp q)).SameLine ((s.takeEngineClaim c).stn q) := by
  rw [claim_stn]
  split
  · exact sameLine_afterConfig _
  · exact ⟨rfl, .inl rfl⟩

theorem claimed_port (h : (s.dsp q).state ≠ .detached) :
    ∃ k, ((s.dsp q).configFlushed.tested s.now).PlacedOnto k ((s.takeEngineClaim c).settle.dsp q)
      ∧ ((s.stn q).withdrawn.noticed (s.dsp q).configFlushed.offerOf).Sent k ((s.takeEngineClaim c).settle.dsp q).queue
          ((s.takeEngineClaim c).settle.stn q) := by
  obtain ⟨k, hp, hsent⟩ := (onlyEmits_settle (s.takeEngineClaim c)).ports q
  obtain ⟨hwait, hline⟩ := sameLine_claim (s := s) c q
  have hd : (s.takeEngineClaim c).dsp q = (s.dsp q).configFlushed.tested s.now := by
    rw [claim_dsp, Dispatch.enteredConfig, if_neg h]
  have ha : (s.stn q).enteredConfig (s.dsp q) = (s.stn q).withdrawn.noticed (s.dsp q).configFlushed.offerOf := by
    rw [Station.enteredConfig, if_neg h]
  rw [hd] at hp
  rw [ha] at hwait hline
  refine ⟨k, hp, ?_⟩
  have hfirst := Station.Sent.of_line (q := ((s.dsp q).configFlushed.tested s.now).queue) hwait hline
  simpa using hfirst.trans hsent (Dispatch.PlacedOnto.refl _) hp

theorem identity_resync {x : NoticeContent} (h : x.identity = .resync) : x = .resync := by
  cases x with
  | resync => rfl
  | _ => cases h

/-- Behind the RESYNC and the MODE notice stand notices of other content. -/
theorem config_queue {d e : Dispatch} {k : Option Nat} {x y : Nat} (hp : d.PlacedOnto k e)
    (hr : Dispatch.NoNew .resync d e) (hm : Dispatch.NoNew .mode d e)
    (hq : d.queue.map (fun n => (n.number, n.content)) = [(x, .resync), (y, .mode .config)]) (hxy : x ≠ y) :
    ∃ a b new, e.queue = a :: b :: new ∧ a.number = x ∧ a.content = .resync ∧ b.number = y ∧ b.content = .mode .config
      ∧ ∀ n ∈ new, n.content ≠ .resync ∧ n.content ≠ .mode .config := by
  obtain ⟨m1, l, hl, h1, hq'⟩ := List.map_eq_cons_iff.mp hq
  obtain ⟨m2, l', hl', h2, hnil⟩ := List.map_eq_cons_iff.mp hq'
  obtain rfl := List.map_eq_nil_iff.mp hnil
  rw [Prod.mk.injEq] at h1 h2
  subst hl'
  obtain ⟨old, new, he, hold, -, hnew⟩ := hp.queue
  rw [hl] at hold
  obtain ⟨a, old1, ha, hold1, rfl⟩ := List.forall₂_cons_left_iff.mp hold
  obtain ⟨b, old2, hb, hold2, rfl⟩ := List.forall₂_cons_left_iff.mp hold1
  obtain rfl := List.forall₂_nil_left_iff.mp hold2
  have hmem {m : Notice} (h : m ∈ d.queue) : m = m1 ∨ m = m2 := by simpa [hl] using h
  refine ⟨a, b, new, he, ha.1.trans h1.1, identity_resync ?_, hb.1.trans h2.1, ?_, fun n hn => ⟨fun hc => ?_, fun hc => ?_⟩⟩
  · rw [ha.2.1, h1.2]
    rfl
  · obtain ⟨m, hmq, hnum, -, hcont⟩ := hm b (by rw [he]; simp) (by rw [hb.2.1, h2.2]; rfl)
    obtain rfl | rfl := hmem hmq
    · exact absurd (h1.1.symm.trans (hnum.trans (hb.1.trans h2.1))) hxy
    · exact hcont.symm.trans h2.2
  · obtain ⟨m, hmq, hnum, -⟩ := hr n (by rw [he]; simp [hn]) (by rw [hc]; rfl)
    exact (hnew n hn).1 m hmq hnum
  · obtain ⟨m, hmq, hnum, -⟩ := hm n (by rw [he]; simp [hn]) (by rw [hc]; rfl)
    exact (hnew n hn).1 m hmq hnum

theorem claimed_queue (h : (s.dsp q).state ≠ .detached) :
    ∃ a b new, ((s.takeEngineClaim c).settle.dsp q).queue = a :: b :: new ∧ a.number = (s.dsp q).nextNumber
      ∧ a.content = .resync ∧ b.number = noticeSucc (s.dsp q).nextNumber ∧ b.content = .mode .config
      ∧ ∀ n ∈ new, n.content ≠ .resync ∧ n.content ≠ .mode .config := by
  obtain ⟨k, hp, -⟩ := claimed_port c h
  have hd : (s.takeEngineClaim c).dsp q = (s.dsp q).configFlushed.tested s.now := by
    rw [claim_dsp, Dispatch.enteredConfig, if_neg h]
  have hno (i : NoticeId) (hi : ∀ f, i ≠ .system f) :
      Dispatch.NoNew i ((s.dsp q).configFlushed.tested s.now) ((s.takeEngineClaim c).settle.dsp q) := by
    rw [← hd]
    exact noNew_settle q fun f hf => absurd hf (hi f)
  refine config_queue hp (hno _ fun _ => nofun) (hno _ fun _ => nofun) (queue_tested_map ..) ?_
  exact (noticeSucc_ne _).symm

/-! ### The arbiters and the request -/

theorem claimed_arbiter (q : Port) : (s.takeEngineClaim c).settle.stn q =
    { s.stn q with
      tx := ((s.takeEngineClaim c).settle.stn q).tx
      waitNotice := ((s.takeEngineClaim c).settle.stn q).waitNotice
      waitResponse := ((s.takeEngineClaim c).settle.stn q).waitResponse
      inProgress := ((s.takeEngineClaim c).settle.stn q).inProgress
      cache := ((s.takeEngineClaim c).settle.stn q).cache } := by
  have h := (onlyEmits_settle (s.takeEngineClaim c)).arbiters q
  have hclaim : (s.takeEngineClaim c).stn q =
      { s.stn q with
        tx := ((s.takeEngineClaim c).stn q).tx, waitNotice := ((s.takeEngineClaim c).stn q).waitNotice
        waitResponse := ((s.takeEngineClaim c).stn q).waitResponse
        inProgress := ((s.takeEngineClaim c).stn q).inProgress, cache := ((s.takeEngineClaim c).stn q).cache } := by
    rw [claim_stn]
    split
    · rw [afterConfig_rest, inProgress_enteredConfig]
    · rw [inProgress_enteredConfig]
  rw [h, hclaim]

theorem claimed_other (h : q ≠ c.port) :
    ((s.takeEngineClaim c).settle.stn q).inProgress = (s.stn q).inProgress
      ∧ ((s.takeEngineClaim c).settle.stn q).cache = (s.stn q).cache
      ∧ ((s.takeEngineClaim c).settle.stn q).waitResponse = (s.stn q).waitResponse := by
  rw [(onlyEmits_settle (s.takeEngineClaim c)).arbiters q, claim_stn, if_neg h, inProgress_enteredConfig]
  exact ⟨rfl, rfl, rfl⟩

theorem responding_replied {t : State} {p : Port} {a : Station} {f : Frame} (st : Status) (r : List Byte)
    (h : t.stn p = a.replied f (responseBytes f st r)) : t.Responding p f st r := by
  unfold State.Responding
  rw [h]
  unfold Station.replied
  split
  · exact .inl rfl
  · exact .inr rfl

theorem claimed_inProgress : ((s.takeEngineClaim c).settle.stn q).inProgress = ((s.takeEngineClaim c).stn q).inProgress := by
  rw [(onlyEmits_settle (s.takeEngineClaim c)).arbiters q]

theorem inProgress_entered {a : Station} {d : Dispatch} : (a.enteredConfig d).inProgress = a.inProgress := by
  rw [inProgress_enteredConfig]

theorem claim_stn_port :
    (s.takeEngineClaim c).stn c.port = ((s.stn c.port).enteredConfig (s.dsp c.port)).afterConfig := by
  rw [claim_stn, if_pos rfl]

theorem inProgress_replied (a : Station) (f : Frame) (b : List Byte) : (a.replied f b).inProgress = none := by
  unfold Station.replied
  split <;> rfl

theorem claimed_answer {r : InProgress} (h : (s.stn c.port).inProgress = some r)
    (hs : r.stage = .enterConfig ∨ r.stage = .restartConfig .config) :
    ((s.takeEngineClaim c).settle.stn c.port).inProgress = none
      ∧ (s.takeEngineClaim c).settle.Responding c.port r.frame .ok [] := by
  have hstn : (s.takeEngineClaim c).stn c.port =
      ((s.stn c.port).enteredConfig (s.dsp c.port)).replied r.frame (responseBytes r.frame .ok []) := by
    rw [claim_stn_port, Station.afterConfig, inProgress_entered, h]
    obtain hs | hs := hs <;> simp [hs]
  refine ⟨?_, (responding_replied _ _ hstn).emits (onlyEmits_settle _)⟩
  rw [claimed_inProgress, hstn, inProgress_replied]

theorem claimed_restart {r : InProgress} (h : (s.stn c.port).inProgress = some r) {m : Mode}
    (hs : r.stage = .restartConfig m) (hm : m ≠ .config) :
    ((s.takeEngineClaim c).settle.stn c.port).inProgress = some { r with stage := .restartRun } := by
  rw [claimed_inProgress, claim_stn_port, Station.afterConfig, inProgress_entered, h]
  simp [hs, hm]

end

/-- But for what the claim's record and notices move, the state is the one with the points made quiet. -/
structure ClaimFrame (s t : State) : Prop where
  rest : t = { s.claimTaken with
    dispatch := t.dispatch, log := t.log, flags := t.flags, stations := t.stations, raisings := t.raisings }

namespace ClaimFrame

variable {s t : State}

theorem whole (h : ClaimFrame s t) : t = { s with
    engineClaim := none, points := t.points, map := t.map, audibleRequest := false, changeQueue := []
    inputs := t.inputs, dispatch := t.dispatch, log := t.log, flags := t.flags, stations := t.stations
    raisings := t.raisings } := by
  rw [h.rest]
  rfl

theorem pt (h : ClaimFrame s t) (x : PointNo) : t.pt x = (s.pt x).quiet := by
  have e : t.points = mapEntries PointRec.quiet s.points := by have e := congrArg State.points h.rest; exact e
  simp [State.pt, e]

theorem ent (h : ClaimFrame s t) (i : InputNo) : t.ent i = { s.ent i with latch := false } := by
  have e : t.map = mapEntries (fun e => { e with latch := false }) s.map := by
    have e := congrArg State.map h.rest
    exact e
  simp [State.ent, e]

theorem inp (h : ClaimFrame s t) (i : InputNo) : t.inp i = { s.inp i with deferred := false } := by
  have e : t.inputs = mapEntries (fun r => { r with deferred := false }) s.inputs := by
    have e := congrArg State.inputs h.rest
    exact e
  simp [State.inp, e]

theorem audibleLine (h : ClaimFrame s t) : t.audibleLine = false := by
  have e : t.audibleRequest = false := by have e := congrArg State.audibleRequest h.rest; exact e
  simp [State.audibleLine, e]

end ClaimFrame

/-- Settles O51: the claim makes the points quiet and appends its record, and each port is told of CONFIG. -/
theorem engineTakesClaim : Obligations.EngineTakesClaim := by
  intro s c hlive hr hc hb
  have hexec : exec .enterConfigEngineClaim s = .next (s.takeEngineClaim c).settle := by
    refine congrArg Host.Outcome.next ((live_of hlive _).trans ?_)
    rw [hc]
  have hframe : ClaimFrame s (s.takeEngineClaim c).settle := ⟨claimed_rest c⟩
  refine ⟨_, hexec, hframe.whole, fun x => (hframe.pt x).trans (quiet_eq _), hframe.ent, hframe.inp, hframe.audibleLine,
    flagsOnly_claimed c hr, appendsFirst_claimed c hb,
    fun q hq => claimed_detached c hq, fun q hq => ⟨claimed_port c hq, claimed_queue c hq⟩, claimed_arbiter c,
    fun q hq => claimed_other c hq, fun r h => ⟨claimed_answer c h, fun m hs hm => claimed_restart c h hs hm⟩⟩

end Sys2Proof.Machine
end

section
/-! PROOFS. The units and the lost-state claims of a RESTART (R121, R149). -/

namespace Sys2Proof.Machine

/-! ### The units -/

/-- A fitted unit after a RESTART: it is searched for again (R149). -/
def UnitRec.searched (r : UnitRec) : UnitRec :=
  if r.state = .notFitted then r else { r with state := .searching, misses := 0, mismatch := false }

theorem searched_of_notFitted {r : UnitRec} (h : r.state = .notFitted) : r.searched = r := if_pos h

theorem searched_of_fitted {r : UnitRec} (h : r.state ≠ .notFitted) :
    r.searched = { r with state := .searching, misses := 0, mismatch := false } := if_neg h

theorem searched_notFitted_iff {r : UnitRec} : r.searched.state = .notFitted ↔ r.state = .notFitted := by
  by_cases h : r.state = .notFitted
  · rw [searched_of_notFitted h]
  · simp [searched_of_fitted h, h]

theorem searched_searched (r : UnitRec) : r.searched.searched = r.searched := by
  by_cases h : r.state = .notFitted
  · rw [searched_of_notFitted h, searched_of_notFitted h]
  · have hs : r.searched.state ≠ .notFitted := fun e => h (searched_notFitted_iff.mp e)
    rw [searched_of_fitted hs, searched_of_fitted h]

theorem searched_not_lost (r : UnitRec) : r.searched.state ≠ .lost := by
  by_cases h : r.state = .notFitted
  · rw [searched_of_notFitted h, h]
    exact nofun
  · rw [searched_of_fitted h]
    exact nofun

/-- From `s` to `t` the fitted units of `l` are searched for again, with their exchange marked void (R149). -/
structure UnitsRestarted (s t : State) (l : List UnitNo) : Prop where
  rest : t = { s with link := { s.link with units := t.link.units, exchange := t.link.exchange } }
  units : ∀ u, t.unit u = if u ∈ l then (s.unit u).searched else s.unit u
  exchange : t.link.exchange = s.link.exchange.map fun x =>
    { x with void := x.void || decide (x.unit ∈ l ∧ (s.unit x.unit).state ≠ .notFitted) }

namespace UnitsRestarted

variable {s t : State}

theorem nil (s : State) : UnitsRestarted s s [] where
  rest := rfl
  units _ := by simp
  exchange := by simp

theorem one (s : State) (u : UnitNo) : UnitsRestarted s (restartUnit s u) [u] := by
  by_cases h : (s.unit u).state = .notFitted
  · have e : restartUnit s u = s := if_pos h
    rw [e]
    refine ⟨rfl, fun v => ?_, ?_⟩
    · split
      · next hv => rw [List.mem_singleton.mp hv, searched_of_notFitted h]
      · rfl
    · have hx (x : Exchange) : decide (x.unit ∈ [u] ∧ (s.unit x.unit).state ≠ .notFitted) = false := by
        refine decide_eq_false fun hx => hx.2 ?_
        rw [List.mem_singleton.mp hx.1, h]
      simp only [hx, Bool.or_false]
      exact Option.map_id'.symm
  · have e : restartUnit s u = s.refitted u (s.unit u).searched := by
      rw [searched_of_fitted h]
      exact if_neg h
    rw [e]
    refine ⟨rfl, fun v => ?_, ?_⟩
    · have hv : (s.refitted u (s.unit u).searched).unit v = (s.setUnit u (s.unit u).searched).unit v := rfl
      rw [hv, State.unit_setUnit]
      by_cases hvu : v = u
      · simp [hvu]
      · simp [hvu]
    · have hx (x : Exchange) :
          decide (x.unit ∈ [u] ∧ (s.unit x.unit).state ≠ .notFitted) = (x.unit == u) := by
        by_cases hu : x.unit = u
        · simp [hu, h]
        · simp [hu]
      unfold State.refitted
      simp only [voidExchange_link, hx]
      rfl

theorem cons {u : UnitNo} {l : List UnitNo} {m : State} (h : UnitsRestarted s m [u]) (k : UnitsRestarted m t l) :
    UnitsRestarted s t (u :: l) where
  rest := by rw [k.rest, h.rest]
  units v := by
    rw [k.units, h.units]
    by_cases hl : v ∈ l <;> by_cases hu : v = u <;> simp [hl, hu, searched_searched]
  exchange := by
    have hfit (v : UnitNo) : (m.unit v).state ≠ .notFitted ↔ (s.unit v).state ≠ .notFitted := by
      rw [h.units]
      split
      · exact not_congr searched_notFitted_iff
      · exact .rfl
    rw [k.exchange, h.exchange, Option.map_map]
    refine congrArg (Option.map · _) (funext fun x => ?_)
    simp only [Function.comp_apply, hfit, List.mem_cons, List.not_mem_nil, or_false, Bool.or_assoc, ← Bool.decide_or,
      or_and_right]

theorem fold (s : State) (l : List UnitNo) : UnitsRestarted s (l.foldl restartUnit s) l := by
  induction l generalizing s with
  | nil => exact .nil s
  | cons u l ih => exact (one s u).cons (ih _)

end UnitsRestarted

/-! ### The lost-state claims -/

theorem lost_lost (r q q' : InputRec) (st : TimeStamp) : (r.lost q st).lost q' st = r.lost q' st := by
  simp [InputRec.lost]

/-- The input belongs to a unit of `l`. -/
def OfUnits (l : List UnitNo) (i : InputNo) : Prop := ∃ u ∈ l, i ∈ unitInputs u

/-- An entry of a lost-state claim made at `s` for a unit of `l` (R121). -/
structure LostEntry (s : State) (l : List UnitNo) (e : ChangeEntry) : Prop where
  kind : e.kind = .quality
  quality : e.quality = .unitLost
  stamp : e.stamp = s.now
  coalesced : e.coalesced = false
  level : e.level = (s.inp e.input).level
  input : OfUnits l e.input

/-- From `s` to `t` the lost-state claims of the units of `l` have been made (R121, R149). -/
structure ClaimsMade (s t : State) (l : List UnitNo) : Prop where
  filters : Filters s t (OfUnits l)
  pairTimers : t.pairTimers = s.pairTimers
  lost : ∀ i, OfUnits l i → t.inp i = (s.inp i).lost (t.inp i) s.now
  queue : ∃ more, t.changeQueue = s.changeQueue ++ more ∧ ∀ e ∈ more, LostEntry s l e

theorem lostEntry_of_mem {s : State} {u : UnitNo} {e : ChangeEntry} (h : e ∈ s.lostEntries u) :
    LostEntry s [u] e := by
  obtain ⟨i, hi, rfl⟩ := List.mem_map.mp h
  exact ⟨rfl, rfl, rfl, rfl, rfl, u, List.mem_singleton_self u, (List.mem_filter.mp hi).1⟩

namespace ClaimsMade

variable {s m t : State} {u : UnitNo} {l : List UnitNo}

theorem nil (s : State) : ClaimsMade s s [] :=
  ⟨.refl s _, rfl, fun _ ⟨_, hu, _⟩ => absurd hu List.not_mem_nil, [], by simp, by simp⟩

theorem one (s : State) (u : UnitNo) : ClaimsMade s (s.lostClaim u) [u] := by
  obtain ⟨hlost, -, hproduced⟩ := lostClaim_spec s u
  refine ⟨(filters_lostClaim s u).mono fun i hi => ⟨u, List.mem_singleton_self u, hi⟩, lostClaim_pairTimers s u,
    fun i ⟨v, hv, hi⟩ => hlost i (List.mem_singleton.mp hv ▸ hi), _, hproduced.1, fun e he => ?_⟩
  exact lostEntry_of_mem (List.mem_of_mem_filter (List.mem_of_mem_take he))

theorem level (h : ClaimsMade s m l) (i : InputNo) : (m.inp i).level = (s.inp i).level := by
  by_cases hi : OfUnits l i
  · rw [h.lost i hi]
    rfl
  · rw [h.filters.off i hi]

theorem now (h : ClaimsMade s m l) : m.now = s.now := by
  have e := congrArg State.now h.filters.rest
  exact e

theorem cons (h : ClaimsMade s m [u]) (k : ClaimsMade m t l) : ClaimsMade s t (u :: l) where
  filters :=
    (h.filters.mono fun i ⟨v, hv, hi⟩ => ⟨v, List.mem_singleton.mp hv ▸ List.mem_cons_self, hi⟩).trans
      (k.filters.mono fun i ⟨v, hv, hi⟩ => ⟨v, List.mem_cons_of_mem _ hv, hi⟩)
  pairTimers := k.pairTimers.trans h.pairTimers
  lost i hi := by
    by_cases hu : OfUnits [u] i
    · have hm := h.lost i hu
      by_cases hl : OfUnits l i
      · rw [← lost_lost (s.inp i) (m.inp i), ← hm, ← h.now]
        exact k.lost i hl
      · rw [k.filters.off i hl]
        exact hm
    · have hl : OfUnits l i := by
        obtain ⟨v, hv, hv'⟩ := hi
        obtain rfl | hv := List.mem_cons.mp hv
        · exact absurd ⟨v, List.mem_singleton_self v, hv'⟩ hu
        · exact ⟨v, hv, hv'⟩
      rw [← h.filters.off i hu, ← h.now]
      exact k.lost i hl
  queue := by
    obtain ⟨a, ha, hea⟩ := h.queue
    obtain ⟨b, hb, heb⟩ := k.queue
    refine ⟨a ++ b, by rw [hb, ha, List.append_assoc], fun e he => ?_⟩
    obtain he | he := List.mem_append.mp he
    · obtain ⟨v, hv, hi⟩ := (hea e he).input
      exact { hea e he with input := ⟨v, List.mem_singleton.mp hv ▸ List.mem_cons_self, hi⟩ }
    · obtain ⟨v, hv, hi⟩ := (heb e he).input
      exact { heb e he with
        stamp := (heb e he).stamp.trans h.now
        level := (heb e he).level.trans (h.level _)
        input := ⟨v, List.mem_cons_of_mem _ hv, hi⟩ }

theorem fold (s : State) (l : List UnitNo) : ClaimsMade s (s.lostClaims l) l := by
  induction l generalizing s with
  | nil => exact .nil s
  | cons u l ih =>
    have e : s.lostClaims (u :: l) = (s.lostClaim u).lostClaims l := List.foldl_cons ..
    rw [e]
    exact (one s u).cons (ih (s.lostClaim u))

end ClaimsMade

end Sys2Proof.Machine
end

section
/-! PROOFS. RESTART (R175, R149, R95). -/

namespace Sys2Proof.Machine

/-! ### What the owner's part stores -/

/-- A Dispatch Controller with its delivery failure record unlocked (R95). -/
def Dispatch.unlocked (d : Dispatch) : Dispatch :=
  { d with failure := { d.failure with locked := false, multiple := false } }

/-- The state of an accepted RESTART, before its units and their claims (R175). -/
def State.restarting (s : State) (p : Port) (f : Frame) : State :=
  { s.setStn p
      { s.stn p with
        intake := (s.stn p).intake.tail, inProgress := some { frame := f, stage := .restartConfig s.mode } } with
    commandCapture := { s.captured p f with locked := false, multiple := false }
    inputCapture := { s.inputCapture with locked := false, multiple := false }
    dispatch := mapEntries Dispatch.unlocked s.dispatch
    flags := 0, mode := .config, evalPos := none
    engineClaim := some { port := p, before := s.mode, restart := true, stamp := s.now } }

/-- Step 1: the flags and the locks are cleared, and the free value of the order is used up (R175). -/
def State.cleared (s : State) : State := { s with flags := 0, freeCount := s.freeCount + 1 }.unlockAll

section
variable {s t : State} {l : List UnitNo}

/-- The change of mode does not touch what the claims move. -/
theorem ClaimsMade.leaveRun (h : ClaimsMade s t l) (p : Port) (b : Bool) :
    ClaimsMade (s.leaveRun p b) (t.leaveRun p b) l where
  filters :=
    { rest := by
        have e := congrArg (State.leaveRun · p b) h.filters.rest
        exact e
      off := h.filters.off
      queue := h.filters.queue
      bound := h.filters.bound
      raisings := h.filters.raisings }
  pairTimers := h.pairTimers
  lost := h.lost
  queue := by
    obtain ⟨more, hq, he⟩ := h.queue
    exact ⟨more, hq, fun e hm => ⟨(he e hm).kind, (he e hm).quality, (he e hm).stamp, (he e hm).coalesced,
      (he e hm).level, (he e hm).input⟩⟩

theorem LostEntry.congr {e : ChangeEntry} (h : LostEntry s l e) (hn : t.now = s.now) (hi : ∀ i, t.inp i = s.inp i) :
    LostEntry t l e :=
  ⟨h.kind, h.quality, h.stamp.trans hn.symm, h.coalesced, by rw [h.level, hi], h.input⟩

end

/-- The lost-state claims of a RESTART and its change of mode, in the order that is left open. -/
def State.leftOnline (s : State) (p : Port) (l : List UnitNo) (before : Bool) : State :=
  if before then (s.lostClaims l).leaveRun p true else (s.leaveRun p true).lostClaims l

theorem claimsMade_leftOnline (s : State) (p : Port) (l : List UnitNo) (before : Bool) :
    ClaimsMade (s.leaveRun p true) (s.leftOnline p l before) l := by
  unfold State.leftOnline
  split
  · exact (ClaimsMade.fold s l).leaveRun p true
  · exact .fold _ l

theorem leftOnline_nil (s : State) (p : Port) (before : Bool) : s.leftOnline p [] before = s.leaveRun p true := by
  cases before <;> rfl

/-- The claims are made before the change of mode. -/
def State.claimsFirst (s : State) : Bool := !s.onlineUnits.isEmpty && Config.lostClaimsFirst s.freeCount

theorem ownRestart_eq (s : State) (p : Port) (f : Frame) :
    s.ownRestart p f =
      ((allUnits.foldl restartUnit s.cleared).leftOnline p s.onlineUnits s.claimsFirst).setStage p f
        (.restartConfig s.mode) := rfl

/-- Beside the units, the inputs and the change queue, the owner's part of a RESTART stores what `restarting` does. -/
theorem restart_rest {s r m : State} {p : Port} {f : Frame}
    (hr : r = { (s.begun p f).cleared with link := r.link })
    (hm : m = { r.leaveRun p true with inputs := m.inputs, changeQueue := m.changeQueue, raisings := m.raisings }) :
    m.setStage p f (.restartConfig s.mode) =
      { s.restarting p f with
        link := m.link, inputs := m.inputs, changeQueue := m.changeQueue, freeCount := m.freeCount
        raisings := m.raisings } := by
  have hstn : r.stations = (s.begun p f).stations := by
    rw [hr]
    rfl
  have hm' : m.stations = (s.begun p f).stations := by
    rw [hm]
    exact hstn
  have hstage : (m.setStage p f (.restartConfig s.mode)).stations = (s.restarting p f).stations := by
    simp only [State.setStage, State.setStn, State.stn, hm']
    simp [State.begun, State.restarting, State.setStn, State.stn, Station.begun]
  have hwhole : m.setStage p f (.restartConfig s.mode) =
      { m with stations := (m.setStage p f (.restartConfig s.mode)).stations } := rfl
  rw [hwhole, hstage, hm, hr]
  rfl

/-- What the owner's part of a RESTART at `s` has done by `m` (R175, R149). -/
structure RestartWork (s : State) (p : Port) (f : Frame) (m : State) : Prop where
  rest : m = { s.restarting p f with
    link := m.link, inputs := m.inputs, changeQueue := m.changeQueue, freeCount := m.freeCount, raisings := m.raisings }
  link : m.link = { s.link with units := m.link.units, exchange := m.link.exchange }
  units : ∀ u, m.unit u = (s.unit u).searched
  exchange : m.link.exchange = s.link.exchange.map fun x =>
    { x with void := x.void || decide ((s.unit x.unit).state ≠ .notFitted) }
  lost : ∀ i, OfUnits s.onlineUnits i → m.inp i = (s.inp i).lost (m.inp i) s.now
  off : ∀ i, ¬ OfUnits s.onlineUnits i → m.inp i = s.inp i
  queue : ∃ more, m.changeQueue = s.changeQueue ++ more ∧ ∀ e ∈ more, LostEntry s s.onlineUnits e
  raisings : ∃ more, m.raisings = s.raisings ++ more ∧ ∀ r ∈ more, r = plainRaising .changeDeferred
  quiet : s.onlineUnits = [] →
    m.inputs = s.inputs ∧ m.changeQueue = s.changeQueue ∧ m.raisings = s.raisings

section
variable {s r m : State} {p : Port} {f : Frame} (hr : UnitsRestarted (s.begun p f).cleared r allUnits)
  (hm : ClaimsMade (r.leaveRun p true) m s.onlineUnits)
include hr

theorem UnitsRestarted.inputs : r.inputs = s.inputs := by
  have e := congrArg State.inputs hr.rest
  exact e

theorem UnitsRestarted.now : r.now = s.now := by
  have e := congrArg State.now hr.rest
  exact e

theorem UnitsRestarted.changeQueue : r.changeQueue = s.changeQueue := by
  have e := congrArg State.changeQueue hr.rest
  exact e

theorem UnitsRestarted.raisings : r.raisings = s.raisings := by
  have e := congrArg State.raisings hr.rest
  exact e

theorem UnitsRestarted.onlyLink : r.link = { s.link with units := r.link.units, exchange := r.link.exchange } := by
  have e := congrArg State.link hr.rest
  exact e

theorem UnitsRestarted.linkMoves : r = { (s.begun p f).cleared with link := r.link } := by
  obtain ⟨l, rfl⟩ : ∃ l, r = { (s.begun p f).cleared with link := l } := ⟨_, hr.rest⟩
  rfl

theorem UnitsRestarted.inp (i : InputNo) : r.inp i = s.inp i := by simp [State.inp, hr.inputs]

theorem UnitsRestarted.all (u : UnitNo) : r.unit u = (s.unit u).searched := by
  rw [hr.units, if_pos (mem_allUnits u)]
  rfl

theorem UnitsRestarted.voided : r.link.exchange = s.link.exchange.map fun x =>
    { x with void := x.void || decide ((s.unit x.unit).state ≠ .notFitted) } := by
  refine hr.exchange.trans (congrArg (Option.map · _) (funext fun x => ?_))
  simp only [mem_allUnits, true_and]
  rfl

include hm

theorem restartWork_of_claims (hnil : s.onlineUnits = [] → m = r.leaveRun p true) :
    RestartWork s p f (m.setStage p f (.restartConfig s.mode)) := by
  have hlink : m.link = r.link := by
    have e := congrArg State.link hm.filters.rest
    exact e
  have hrest : m = { r.leaveRun p true with
      inputs := m.inputs, changeQueue := m.changeQueue, raisings := m.raisings } := by
    have e := hm.filters.rest
    rw [hm.pairTimers] at e
    exact e
  exact {
    rest := restart_rest hr.linkMoves hrest
    link := by
      show m.link = { s.link with units := m.link.units, exchange := m.link.exchange }
      rw [hlink]
      exact hr.onlyLink
    units := fun u => by
      rw [← hr.all u]
      show m.link.units[u.val] = r.link.units[u.val]
      rw [hlink]
    exchange := by
      rw [← hr.voided]
      exact congrArg Link.exchange hlink
    lost := fun i hi => by
      rw [← hr.inp, ← hr.now]
      exact hm.lost i hi
    off := fun i hi => (hm.filters.off i hi).trans (hr.inp i)
    queue := by
      obtain ⟨more, hq, he⟩ := hm.queue
      refine ⟨more, hr.changeQueue ▸ hq, fun e h => (he e h).congr hr.now.symm fun i => (hr.inp i).symm⟩
    raisings := by
      obtain ⟨more, hq, he⟩ := hm.filters.raisings
      exact ⟨more, hr.raisings ▸ hq, he⟩
    quiet := fun h => by
      rw [hnil h]
      exact ⟨hr.inputs, hr.changeQueue, hr.raisings⟩ }

end

theorem restartWork_ownRestart (s : State) (p : Port) (f : Frame) :
    RestartWork s p f ((s.begun p f).ownRestart p f) := by
  have hr := UnitsRestarted.fold (s.begun p f).cleared allUnits
  rw [ownRestart_eq]
  generalize allUnits.foldl restartUnit (s.begun p f).cleared = r at hr ⊢
  refine restartWork_of_claims hr (claimsMade_leftOnline r p s.onlineUnits (s.begun p f).claimsFirst) fun h => ?_
  have hnil := leftOnline_nil r p (s.begun p f).claimsFirst
  rwa [← h] at hnil

/-! ### What the command leaves -/

section
variable {s m : State} {p : Port} {f : Frame} (h : RestartWork s p f m)
include h

/-- The frame of a RESTART with what its raisings emit. -/
theorem RestartWork.emits : OnlyEmits
    { s.restarting p f with
      link := m.settle.link, inputs := m.settle.inputs, changeQueue := m.settle.changeQueue
      freeCount := m.settle.freeCount } m.settle := by
  have hfree : m.settle.freeCount = m.freeCount := by
    have e := congrArg State.freeCount (onlyEmits_settle m).rest
    exact e
  rw [settle_link, settle_inputs, settle_changeQueue, hfree]
  have e := onlyEmits_raisings
    { s.restarting p f with
      link := m.link, inputs := m.inputs, changeQueue := m.changeQueue, freeCount := m.freeCount } m.raisings
  exact .trans (h.rest ▸ e) (onlyEmits_settle m)

theorem RestartWork.flagsOnly (hr : s.raisings = []) : FlagsOnly (s.restarting p f) m.settle [.changeDeferred] := by
  have hflags : m.flags = 0 := by
    have e := congrArg State.flags h.rest
    exact e
  have hlog : m.log = s.log := by
    have e := congrArg State.log h.rest
    exact e
  have hraises : RaisesOnly (s.restarting p f) m [.changeDeferred] := by
    refine ⟨fun g hg => ?_, congrArg EventLog.archive hlog⟩
    obtain hg | ⟨r, hg, rfl⟩ := hg
    · refine .inl (.inl ?_)
      unfold State.flagSet at hg
      rw [hflags] at hg
      exact hg
    · obtain ⟨more, hm, he⟩ := h.raisings
      rw [hm, hr] at hg
      rw [he r hg]
      exact .inr (.inl List.mem_cons_self)
  exact (hraises.trans (raisesOnly_settle m)).flagsOnly hr h.emits.flags

theorem RestartWork.quiet_settle (hr : s.raisings = []) (ho : s.onlineUnits = []) :
    m.settle = { s.restarting p f with link := m.settle.link, freeCount := m.settle.freeCount } := by
  obtain ⟨hi, hq, hm⟩ := h.quiet ho
  rw [settle_of_none (hm.trans hr)]
  have e := h.rest
  rw [hi, hq, hm] at e
  exact e

end

theorem flagSet_restarting (s : State) (p : Port) (f : Frame) (g : Flag) : (s.restarting p f).flagSet g = false := by
  simp [State.flagSet, State.restarting, hasBit]

theorem dsp_restarting (s : State) (p q : Port) (f : Frame) : (s.restarting p f).dsp q = (s.dsp q).unlocked := by
  simp [State.restarting, State.dsp]

/-- A delivery failure record that is unlocked stays so under placements (R83, R95). -/
theorem Dispatch.PlacedOnto.unlocked {k : Option Nat} {d e : Dispatch} (h : d.PlacedOnto k e)
    (hl : d.failure.locked = false) (hm : d.failure.multiple = false) :
    e.failure.locked = false ∧ e.failure.multiple = false := by
  cases k with
  | none => rw [(h.noOffer rfl).2]; exact ⟨hl, hm⟩
  | some j =>
    obtain ⟨-, -, -, -, hf⟩ := h.offer j rfl
    rw [if_neg (by simp [hl])] at hf
    rw [hf.1]
    exact ⟨hl, hm⟩

theorem faultLine_of_clear {t : State} (hc : t.commandCapture.locked = false) (hi : t.inputCapture.locked = false)
    (hd : ∀ q, (t.dsp q).failure.locked = false) (hu : ∀ u, (t.unit u).state ≠ .lost) : t.faultLine = false := by
  have h1 : t.lockedSet.any id = false := by simp [State.lockedSet, hc, hi, hd]
  have h2 : t.lostSet.any id = false := by simp [State.lostSet, hu]
  simp [State.faultLine, h1, h2]

theorem onlineUnits_eq_nil {s : State} (h : ∀ u, (s.unit u).state ≠ .online) : s.onlineUnits = [] :=
  List.eq_nil_iff_forall_not_mem.mpr fun u hu => h u (mem_onlineUnits.mp hu)

theorem ofUnits_onlineUnits {s : State} {i : InputNo} :
    OfUnits s.onlineUnits i ↔ ∃ u, (s.unit u).state = .online ∧ i ∈ unitInputs u := by
  simp [OfUnits, mem_onlineUnits]

/-- Settles O52: the owner's part of RESTART, in either order, and then what its raisings emit. -/
theorem restarts : Obligations.Restarts := by
  intro s p f h hb unlock base
  have hwork := restartWork_ownRestart s p f
  have hexec : exec (.restart p) s = .next ((s.begun p f).ownRestart p f).settle :=
    next_of_takes (form := anyForm) h rfl fun f t => t.ownRestart p f
  generalize (s.begun p f).ownRestart p f = m at hwork hexec
  have hbase : base = s.restarting p f := rfl
  have hemits := hwork.emits
  have hflags := hwork.flagsOnly h.noRaising
  have hfail (q : Port) : (m.settle.dsp q).failure.locked = false ∧ (m.settle.dsp q).failure.multiple = false := by
    obtain ⟨k, hp, -⟩ := hemits.ports q
    have hd := dsp_restarting s p q f
    refine hp.unlocked ?_ ?_
    · exact (congrArg (fun d : Dispatch => d.failure.locked) hd).trans rfl
    · exact (congrArg (fun d : Dispatch => d.failure.multiple) hd).trans rfl
  have hunit (u : UnitNo) : m.settle.unit u = (s.unit u).searched := (settle_unit m u).trans (hwork.units u)
  refine ⟨m.settle, hexec, hemits, fun ho => ⟨hwork.quiet_settle h.noRaising (onlineUnits_eq_nil ho), ?_⟩, hflags,
    fun g hg hf => ?_, hfail, fun u hu => (hunit u).trans (searched_of_notFitted hu),
    fun u hu => (hunit u).trans (searched_of_fitted hu), fun u hu i hi => ?_, fun i hi => ?_, ?_, ?_, fun hx => ?_,
    fun x hx => ?_⟩
  · have hrest := hemits.rest
    refine faultLine_of_clear ?_ ?_ (fun q => (hfail q).1) fun u hu => searched_not_lost _ ((hunit u) ▸ hu)
    · have e := congrArg (fun y : State => y.commandCapture.locked) hrest
      exact e
    · have e := congrArg (fun y : State => y.inputCapture.locked) hrest
      exact e
  · by_contra hs
    obtain he | he | he := hflags.1 g (by simpa using hs)
    · rw [flagSet_restarting] at he
      cases he
    · exact hg (List.mem_singleton.mp he)
    · exact hf he
  · rw [settle_inp]
    exact hwork.lost i (ofUnits_onlineUnits.mpr ⟨u, hu, hi⟩)
  · rw [settle_inp]
    refine hwork.off i fun ho => ?_
    obtain ⟨u, hu, hm⟩ := ofUnits_onlineUnits.mp ho
    exact hi u hu hm
  · obtain ⟨more, hq, he⟩ := hwork.queue
    exact ⟨more, (settle_changeQueue m).trans hq, fun e hm => ⟨(he e hm).kind, (he e hm).quality, (he e hm).stamp,
      (he e hm).coalesced, (he e hm).level, ofUnits_onlineUnits.mp (he e hm).input⟩⟩
  · rw [settle_link]
    exact hwork.link
  · rw [settle_link, hwork.exchange, hx]
    rfl
  · rw [settle_link, hwork.exchange, hx]
    rfl

end Sys2Proof.Machine
end
